-- ==== Sys2Proof/Word.lean ====
section
/-! DEFINITION. The word types of the Plalon W8: a g register holds 64 bits, a v register 128, memory is bytes. -/

namespace Sys2Proof

/-- A 64-bit register or dword (R79, R6). -/
abbrev Word := BitVec 64
/-- A byte of memory. -/
abbrev Byte := BitVec 8
/-- A 128-bit vector register (R91). -/
abbrev Quad := BitVec 128

end Sys2Proof
end

