-- ==== Sys2Proof/Config.lean ====
section
/-! DEFINITION. What one device fixes and the spec does not state: free values, as constants without a body. -/

namespace Sys2Proof.Config

/-- A special function (R55) at an operand for which the bounds of the model do not decide the rounding: function,
type code, operand bits, result bits (log entry 4). -/
opaque special : Nat → Nat → BitVec 32 → BitVec 32

/-- Whether a destination byte of a copy that overlaps the copy's own source keeps its value (R174): the command's
number and the byte's place (log entry 5). -/
opaque overlapKeeps : Nat → Nat → Bool

/-- The firmware store of the management core (R340; log entry 6): the header of the image, of which the first four bytes are
the version; -/
opaque fwHeader : List Byte
/-- the body; -/
opaque fwBody : List Byte
/-- the signature of the header; -/
opaque fwSig : List Byte
/-- and the public key that the signature is checked with. -/
opaque fwKey : List Byte

/-- The image length and the SHA-256 of the body that a header gives (R340), in places that the spec does not state (log entry 6). -/
opaque fwFields : List Byte → Nat × BitVec 256

/-- The fuses of the management core (R340): the SHA-256 of Tirhel's public key (log entry 6), -/
opaque keyFuse : BitVec 256
/-- and the least version. -/
opaque minVersion : BitVec 32

/-- The management configuration, which MR1 measures (R340; log entry 6). -/
opaque mgmtConfig : List Byte

/-- The fuses of a die: one bit for each clock step, set when that step is DEC-TED (R315, R328; log entry 6). -/
opaque fuses : Nat → BitVec 4

/-- The package serial (R341; log entry 6). -/
opaque packageSerial : BitVec 64

/-- The three seeds of the identity key pair, as they are derived from the device's fused seed (R341; log entry 7). -/
opaque identitySeed : Nat → List Byte

/-- The randomness of a signature over a message (R341; log entry 7). -/
opaque signNonce : List Byte → List Byte

/-- What extends MR3 at a change of life-cycle state (R340): the bytes for an old and a new state (log entry 6). -/
opaque lifeMeasure : Nat → Nat → List Byte

/-- The KIND of the fault record of a collective's page fault, which the spec does not state (R307, R338; log entry 10). -/
opaque collFaultKind : BitVec 8

/-- What nothing fixes: the score of an expert that the loaded gate does not hold (R245), and, with an empty agenda, whether
the die is parked or unparked (R332); a number for each fresh number of the state (log entry 8). -/
opaque choice : Nat → Nat

/-- The 16 bytes of an event entry, whose layout the spec does not state: kind, tag, status, argument (log entry 9). -/
opaque eventEntry : Nat → Nat → Nat → Nat → BitVec 128

end Sys2Proof.Config
end

