-- ==== Sys2Proof/Machine/Sha.lean ====
section
/-! DEFINITION. SHA-256, with which the measurement registers are extended (R2, R340), and SHA-512, which SLH-DSA uses
beside it: one computation over 32-bit or 64-bit words. Both are taken from the standard that their name stands for (log
entry 7). -/

namespace Sys2Proof.Machine

/-- The two functions. -/
inductive Sha where
  | short | long
  deriving DecidableEq, Repr

/-- The bits of a word. -/
def Sha.width : Sha → Nat
  | .short => 32
  | .long => 64

/-- The rounds of a block. -/
def Sha.rounds : Sha → Nat
  | .short => 64
  | .long => 80

/-- The distances of the four mixing functions: two for the working words, two for the schedule. -/
def Sha.turns : Sha → List (Nat × Nat × Nat)
  | .short => [(2, 13, 22), (6, 11, 25), (7, 18, 3), (17, 19, 10)]
  | .long => [(28, 34, 39), (14, 18, 41), (1, 8, 7), (19, 61, 6)]

/-! ### Constants: fractions of the roots of the first primes -/

/-- The largest number whose `k`-th power is at most `t`, of those that agree with `r` above bit `n`. -/
def rootFloor (k t : Nat) : Nat → Nat → Nat
  | 0, r => r
  | n + 1, r => rootFloor k t n (if (r + 2 ^ n) ^ k ≤ t then r + 2 ^ n else r)

/-- A prime below 441. -/
def smallPrime (p : Nat) : Bool :=
  decide (1 < p) && (List.range 21).all fun d => decide (d < 2) || decide (p < d * d) || decide (p % d ≠ 0)

/-- The first `n` primes, for `n` up to 80. -/
def primes (n : Nat) : List Nat := ((List.range 420).filter smallPrime).take n

/-- The first bits of the fraction of the `k`-th root of `p`. -/
def Sha.fraction (h : Sha) (k p : Nat) : BitVec h.width := BitVec.ofNat h.width (rootFloor k (p * 2 ^ (k * h.width)) (h.width + 5) 0)

/-- The constants of the rounds. -/
def Sha.keys (h : Sha) : List (BitVec h.width) := (primes h.rounds).map (h.fraction 3)

/-- The words before the first block. -/
def Sha.start (h : Sha) : List (BitVec h.width) := (primes 8).map (h.fraction 2)

/-! ### Blocks -/

/-- The number in a list of bytes, most significant byte first. -/
def numBE (b : List Byte) : Nat := b.foldl (fun n x => n * 256 + x.toNat) 0

/-- The `n` bytes of a number, most significant byte first. -/
def bytesBE (n v : Nat) : List Byte := (List.range n).map fun i => BitVec.ofNat 8 (v / 256 ^ (n - 1 - i))

/-- Mixing function `i` of a word; the last two drop what the third distance shifts out. -/
def Sha.mix (h : Sha) (i : Nat) (x : BitVec h.width) : BitVec h.width :=
  let d := h.turns.getD i (0, 0, 0)
  x.rotateRight d.1 ^^^ x.rotateRight d.2.1 ^^^ (if i < 2 then x.rotateRight d.2.2 else x >>> d.2.2)

/-- Lengthens the schedule of a block, whose newest word stands first, by `n` words. -/
def Sha.extend (h : Sha) (w : List (BitVec h.width)) : Nat → List (BitVec h.width)
  | 0 => w
  | n + 1 =>
    let back := fun (i : Nat) => w.getD (i - 1) 0
    Sha.extend h ((h.mix 3 (back 2) + back 7 + h.mix 2 (back 15) + back 16) :: w) n

/-- One round with the sum of its constant and its schedule word: the eight working words move down a place. -/
def Sha.turn (h : Sha) (v : List (BitVec h.width)) (k : BitVec h.width) : List (BitVec h.width) :=
  let w := fun (i : Nat) => v.getD i 0
  let pick := (w 4 &&& w 5) ||| (~~~ w 4 &&& w 6)
  let most := (w 0 &&& (w 1 ||| w 2)) ||| (w 1 &&& w 2)
  let up := k + w 7 + h.mix 1 (w 4) + pick
  [up + most + h.mix 0 (w 0)] ++ v.take 3 ++ [w 3 + up] ++ (v.drop 4).take 3

/-- The words after a block of 16 words. -/
def Sha.block (h : Sha) (v : List (BitVec h.width)) (b : List Byte) : List (BitVec h.width) :=
  let n := h.width / 8
  let first := (List.range 16).map fun i => BitVec.ofNat h.width (numBE ((b.drop (n * i)).take n))
  let ws := (h.extend first.reverse (h.rounds - 16)).reverse
  let out := (h.keys.zip ws).foldl (fun u x => h.turn u (x.1 + x.2)) v
  (v.zip out).map fun x => x.1 + x.2

/-- The words after `n` blocks. -/
def Sha.blocks (h : Sha) (v : List (BitVec h.width)) (m : List Byte) : Nat → List (BitVec h.width)
  | 0 => v
  | n + 1 => Sha.blocks h (h.block v (m.take (2 * h.width))) (m.drop (2 * h.width)) n

/-- A message with its padding to whole blocks: a 1 bit, zeros, and its length in bits. -/
def Sha.padded (h : Sha) (m : List Byte) : List Byte :=
  let size := 2 * h.width
  let tail := h.width / 4
  let zeros := (2 * size - 1 - tail - m.length % size) % size
  m ++ [0x80] ++ List.replicate zeros 0 ++ bytesBE tail (8 * m.length)

/-- The digest of a message as bytes. -/
def Sha.digest (h : Sha) (m : List Byte) : List Byte :=
  let p := h.padded m
  ((h.blocks h.start p (p.length / (2 * h.width))).map fun w => bytesBE (h.width / 8) w.toNat).flatten

/-! ### Measurement (R340) -/

/-- SHA-256 of a list of bytes. -/
def sha256 (m : List Byte) : BitVec 256 := BitVec.ofNat 256 (numBE (Sha.short.digest m))

/-- The 32 bytes of a digest, first byte first. -/
def digestBytes (d : BitVec 256) : List Byte := bytesBE 32 d.toNat

/-- MR ← SHA-256(MR ‖ data) (R340). -/
def extendMr (mr : BitVec 256) (data : List Byte) : BitVec 256 := sha256 (digestBytes mr ++ data)

end Sys2Proof.Machine
end

