-- ==== Sys2Proof/Machine/Slh.lean ====
section
/-! DEFINITION. SLH-DSA (FIPS 205) with the parameter set SLH-DSA-SHA2-256s (R2, R340, R341): keys, signing and verification,
as the standard gives them, for a message without context. What the spec leaves to the standard is taken from it (log entry
7). -/

namespace Sys2Proof.Machine.Slh

/-- The bytes of a digest: n of the parameter set. -/
def len : Nat := 32

/-- The address of a hash: layer, tree, type and three words. -/
structure Place where
  layer : Nat := 0
  tree : Nat := 0
  kind : Nat := 0
  pair : Nat := 0
  mid : Nat := 0
  last : Nat := 0

/-- The 22 bytes of a compressed address. -/
def Place.bytes (p : Place) : List Byte :=
  bytesBE 1 p.layer ++ bytesBE 8 p.tree ++ bytesBE 1 p.kind ++ bytesBE 4 p.pair ++ bytesBE 4 p.mid ++ bytesBE 4 p.last

/-- The key material that signs: the secret seed, the secret of the randomiser, and the public seed. -/
structure Seeds where
  sk : List Byte
  prf : List Byte
  pk : List Byte
  deriving DecidableEq, Repr

/-! ### Hashes -/

/-- A hash of one digest: SHA-256 over a block of the public seed. It also makes secret values from the secret seed. -/
def one (pk : List Byte) (p : Place) (m : List Byte) : List Byte :=
  (Sha.short.digest (pk ++ List.replicate (64 - len) 0 ++ p.bytes ++ m)).take len

/-- A hash of several digests: SHA-512 over a block of the public seed. -/
def many (pk : List Byte) (p : Place) (m : List Byte) : List Byte :=
  (Sha.long.digest (pk ++ List.replicate (128 - len) 0 ++ p.bytes ++ m)).take len

/-- HMAC with SHA-512 and a key no longer than a block. -/
def hmac (key m : List Byte) : List Byte :=
  let k := key ++ List.replicate (128 - key.length) 0
  Sha.long.digest ((k.map fun b => b ^^^ 0x5C) ++ Sha.long.digest ((k.map fun b => b ^^^ 0x36) ++ m))

/-- The 47 bytes that choose a signature's leaves, from the randomiser, the public key and the message. -/
def choose (r pk root m : List Byte) : List Byte :=
  (Sha.long.digest (r ++ pk ++ Sha.long.digest (r ++ pk ++ root ++ m) ++ bytesBE 4 0)).take 47

/-- The first `n` digits of `b` bits of a list of bytes. -/
def digits (b n : Nat) (x : List Byte) : List Nat :=
  (List.range n).map fun i => numBE x / 2 ^ (8 * x.length - b * (i + 1)) % 2 ^ b

/-- Piece `i` of a list that is cut into pieces of `n`. -/
def piece (n i : Nat) (x : List Byte) : List Byte := (x.drop (n * i)).take n

/-! ### One-time signatures: 67 chains of 15 steps -/

/-- `n` steps of chain `p` from step `i`. -/
def chain (pk : List Byte) (p : Place) (x : List Byte) (i : Nat) : Nat → List Byte
  | 0 => x
  | n + 1 => chain pk p (one pk { p with last := i } x) (i + 1) n

/-- The 67 digits that a digest is signed by: its own, and those of their checksum. -/
def chainDigits (m : List Byte) : List Nat :=
  let d := digits 4 64 m
  d ++ digits 4 3 (bytesBE 2 (16 * (d.map fun x => 15 - x).sum))

/-- The start of chain `i` of a key pair. -/
def chainStart (k : Seeds) (p : Place) (i : Nat) : List Byte := one k.pk { p with kind := 5, mid := i, last := 0 } k.sk

/-- The public key that the ends of the chains make. -/
def chainKey (pk : List Byte) (p : Place) (ends : List (List Byte)) : List Byte :=
  many pk { p with kind := 1, mid := 0, last := 0 } ends.flatten

/-- The public key of a key pair. -/
def onePk (k : Seeds) (p : Place) : List Byte :=
  chainKey k.pk p ((List.range 67).map fun i => chain k.pk { p with kind := 0, mid := i } (chainStart k p i) 0 15)

/-- The one-time signature of a digest. -/
def oneSign (k : Seeds) (p : Place) (m : List Byte) : List Byte :=
  ((chainDigits m).zipIdx.map fun d => chain k.pk { p with kind := 0, mid := d.2 } (chainStart k p d.2) 0 d.1).flatten

/-- The public key that a one-time signature of a digest leads to. -/
def oneOpen (pk : List Byte) (p : Place) (sig m : List Byte) : List Byte :=
  chainKey pk p ((chainDigits m).zipIdx.map fun d =>
    chain pk { p with kind := 0, mid := d.2 } (piece len d.2 sig) d.1 (15 - d.1))

/-! ### Trees -/

/-- Node `i` at height `z` of a tree whose leaves are given; `p` is the address of its nodes. -/
def node (pk : List Byte) (p : Place) (leaf : Nat → List Byte) : Nat → Nat → List Byte
  | 0, i => leaf i
  | z + 1, i => many pk { p with mid := z + 1, last := i } (node pk p leaf z (2 * i) ++ node pk p leaf z (2 * i + 1))

/-- The `h` siblings on the way from leaf `i` to the root. -/
def path (pk : List Byte) (p : Place) (leaf : Nat → List Byte) (h i : Nat) : List Byte :=
  ((List.range h).map fun j => node pk p leaf j ((i / 2 ^ j) ^^^ 1)).flatten

/-- The root above node `x` of index `i` at height `z`, from its siblings. -/
def climb (pk : List Byte) (p : Place) (sibs : List Byte) (z i : Nat) (x : List Byte) : Nat → List Byte
  | 0 => x
  | n + 1 =>
    let y := piece len 0 sibs
    climb pk p (sibs.drop len) (z + 1) (i / 2)
      (many pk { p with mid := z + 1, last := i / 2 } (if i % 2 = 0 then x ++ y else y ++ x)) n

/-! ### The tree of eight layers, of 256 one-time keys each -/

/-- The address of a layer's tree. -/
def layerAt (j tree : Nat) : Place := { layer := j, tree, kind := 2 }

/-- Leaf `i` of a layer's tree. -/
def layerLeaf (k : Seeds) (j tree i : Nat) : List Byte := onePk k { layer := j, tree, pair := i }

/-- The root of the public key: that of the top layer. -/
def root (k : Seeds) : List Byte := node k.pk (layerAt 7 0) (layerLeaf k 7 0) 8 0

/-- The signature of a digest by the layers from `j` up, under leaf `i` of a tree. -/
def layersSign (k : Seeds) (j tree i : Nat) (m : List Byte) : Nat → List Byte
  | 0 => []
  | n + 1 =>
    let p := layerAt j tree
    let leaf := layerLeaf k j tree
    oneSign k { layer := j, tree, pair := i } m ++ path k.pk p leaf 8 i ++
      layersSign k (j + 1) (tree / 256) (tree % 256) (node k.pk p leaf 8 0) n

/-- The root that a signature of a digest leads to. -/
def layersOpen (pk : List Byte) (j tree i : Nat) (sig m : List Byte) : Nat → List Byte
  | 0 => m
  | n + 1 =>
    let x := oneOpen pk { layer := j, tree, pair := i } (sig.take (67 * len)) m
    let up := climb pk (layerAt j tree) ((sig.drop (67 * len)).take (8 * len)) 0 i x 8
    layersOpen pk (j + 1) (tree / 256) (tree % 256) (sig.drop (75 * len)) up n

/-! ### The forest of 22 trees of 16,384 leaves -/

/-- A leaf of the forest: the hash of its secret value. -/
def forestLeaf (k : Seeds) (p : Place) (i : Nat) : List Byte :=
  one k.pk { p with kind := 3, mid := 0, last := i } (one k.pk { p with kind := 6, mid := 0, last := i } k.sk)

/-- The forest's signature of the digits that a message chooses. -/
def forestSign (k : Seeds) (p : Place) (md : List Byte) : List Byte :=
  ((digits 14 22 md).zipIdx.map fun d =>
    one k.pk { p with kind := 6, mid := 0, last := 2 ^ 14 * d.2 + d.1 } k.sk ++
      ((List.range 14).map fun j =>
        node k.pk { p with kind := 3 } (forestLeaf k p) j (2 ^ (14 - j) * d.2 + ((d.1 / 2 ^ j) ^^^ 1))).flatten).flatten

/-- The forest's public key that a signature leads to. -/
def forestOpen (pk : List Byte) (p : Place) (sig md : List Byte) : List Byte :=
  many pk { p with kind := 4, mid := 0, last := 0 } ((digits 14 22 md).zipIdx.map fun d =>
    let s := piece (15 * len) d.2 sig
    let i := 2 ^ 14 * d.2 + d.1
    climb pk { p with kind := 3 } (s.drop len) 0 i (one pk { p with kind := 3, mid := 0, last := i } (s.take len)) 14).flatten

/-! ### Signatures -/

/-- The public key of 64 bytes. -/
def publicKey (k : Seeds) : List Byte := k.pk ++ root k

/-- The message as it is signed: no context. -/
def framed (m : List Byte) : List Byte := [0, 0] ++ m

/-- The signature of a message, of 29,792 bytes, with the 32 bytes of randomness `rnd`. -/
def sign (k : Seeds) (rnd m : List Byte) : List Byte :=
  let r := (hmac k.prf (rnd ++ framed m)).take len
  let c := choose r k.pk (root k) (framed m)
  let tree := numBE ((c.drop 39).take 7)
  let i := numBE (c.drop 46)
  let p : Place := { tree, pair := i }
  let f := forestSign k p (c.take 39)
  r ++ f ++ layersSign k 0 tree i (forestOpen k.pk p f (c.take 39)) 8

/-- A signature of a message holds under a public key. -/
def verify (key m sig : List Byte) : Bool :=
  if sig.length ≠ 29792 ∨ key.length ≠ 64 then false
  else
    let pk := key.take len
    let r := sig.take len
    let c := choose r pk (key.drop len) (framed m)
    let tree := numBE ((c.drop 39).take 7)
    let i := numBE (c.drop 46)
    let x := forestOpen pk { tree, pair := i } ((sig.drop len).take (330 * len)) (c.take 39)
    decide (layersOpen pk 0 tree i (sig.drop (331 * len)) x 8 = key.drop len)

end Sys2Proof.Machine.Slh
end

