-- ==== Sys2Proof/Machine/Measure.lean ====
section
/-! DEFINITION. What the management core measures and verifies at power-on and reset (R340), and its identity key (R341). -/

namespace Sys2Proof.Machine

/-- A list cut or filled with zeros to `n` bytes. -/
def padTo (n : Nat) (l : List Byte) : List Byte := l.take n ++ List.replicate (n - l.length) 0

/-- The firmware image: header and body. -/
def fwImage : List Byte := Config.fwHeader ++ Config.fwBody

/-- The version of the image: the first four bytes of its header (R340). -/
def fwVersion : Nat := numBE (Config.fwHeader.take 4).reverse

/-- The management core accepts the image (R340): the public key is the one that the fuses hold the SHA-256 of, the header's
signature holds under it, the body is the one that the header describes, and the version is not below the least. -/
def firmwareHolds : Bool :=
  decide (sha256 Config.fwKey = Config.keyFuse) && Slh.verify Config.fwKey Config.fwHeader Config.fwSig &&
    decide (Config.fwFields Config.fwHeader = (fwImage.length, sha256 Config.fwBody)) && decide (Config.minVersion.toNat ≤ fwVersion)

/-- MR0 to MR3 after power-on and reset (R340): MR0 has been extended with the firmware, MR1 with the management
configuration. -/
def bootMr : Vector (BitVec 256) 4 := #v[extendMr 0 fwImage, extendMr 0 Config.mgmtConfig, 0, 0]

/-- The seeds of the identity key pair, from the device's fused seed (R341). -/
def identitySeeds : Slh.Seeds :=
  { sk := padTo 32 (Config.identitySeed 0), prf := padTo 32 (Config.identitySeed 1), pk := padTo 32 (Config.identitySeed 2) }

end Sys2Proof.Machine
end

