-- ==== Sys2Proof/Syntax.lean ====
section
/-! DEFINITION. The steps of the Plalon W8 as syntax: one constructor for each row of the spec's opcode table.
205 rows are instructions with a 32-bit word (R25 to R38). The writes of EWR and SYSWR that the table lists as rows of
their own are constructors of their own, and decoding an `ewr` or `syswr` word gives the constructor of its register.
The other rows are steps of the device or of the host: they have no word and no field; the unit that moves (a strand, a
core, a die, the place of a message in its list) is named in the state, by the move that makes the step. The
constructors with fields stand first. -/

namespace Sys2Proof

/-- A five-bit g field, naming g0 to g31 (R28). -/
abbrev GReg := BitVec 5
/-- A handle field, naming h0 to h31 (R28). -/
abbrev HReg := BitVec 5
/-- A four-bit V-format field, naming v0 to v15 (R28). -/
abbrev VReg := BitVec 4
/-- A V-format field that names a scalar register, g0 to g15 (R28). -/
abbrev SReg := BitVec 4
/-- An engine register number (R33). -/
abbrev EngReg := BitVec 10
/-- A system register number (R35). -/
abbrev SysNum := BitVec 12

/-- The lane types of R30. -/
inductive Ty where
  | s8 | s16 | s32 | s64 | z8 | z16 | z32 | z64 | e4m3 | e5m2 | bf16 | f32
  deriving DecidableEq, Repr

/-- The engines of R30. -/
inductive Eng where
  | cp | mx | wk | dx | pl | cl
  deriving DecidableEq, Repr

/-- One step of the machine, as the opcode table lists them. -/
inductive Instr where
  /-- R81. Writes the 64-bit wrapping sum of gA and gB to gD. -/
  | add (d : GReg) (a : GReg) (b : GReg)
  /-- R81. Writes the 64-bit wrapping difference gA minus gB to gD. -/
  | sub (d : GReg) (a : GReg) (b : GReg)
  /-- R81. Writes the bitwise AND of gA and gB to gD. -/
  | and (d : GReg) (a : GReg) (b : GReg)
  /-- R81. Writes the bitwise OR of gA and gB to gD. -/
  | or (d : GReg) (a : GReg) (b : GReg)
  /-- R81. Writes the bitwise XOR of gA and gB to gD. -/
  | xor (d : GReg) (a : GReg) (b : GReg)
  /-- R81. Writes gA AND NOT gB to gD. -/
  | andn (d : GReg) (a : GReg) (b : GReg)
  /-- R81. Shifts gA left by gB[5:0] into gD. -/
  | shl (d : GReg) (a : GReg) (b : GReg)
  /-- R81. Shifts gA right logically by gB[5:0] into gD. -/
  | shr (d : GReg) (a : GReg) (b : GReg)
  /-- R81. Shifts gA right arithmetically by gB[5:0] into gD. -/
  | sra (d : GReg) (a : GReg) (b : GReg)
  /-- R81. Writes 1 to gD if gA is signed-less than gB, else 0. -/
  | slt (d : GReg) (a : GReg) (b : GReg)
  /-- R81. Writes 1 to gD if gA is unsigned-less than gB, else 0. -/
  | sltu (d : GReg) (a : GReg) (b : GReg)
  /-- R81. Writes the signed smaller of gA and gB to gD. -/
  | min (d : GReg) (a : GReg) (b : GReg)
  /-- R81. Writes the signed larger of gA and gB to gD. -/
  | max (d : GReg) (a : GReg) (b : GReg)
  /-- R81. Writes the unsigned smaller of gA and gB to gD. -/
  | minu (d : GReg) (a : GReg) (b : GReg)
  /-- R81. Writes the unsigned larger of gA and gB to gD. -/
  | maxu (d : GReg) (a : GReg) (b : GReg)
  /-- R81. Writes 1 to gD if gA equals gB, else 0. -/
  | seq (d : GReg) (a : GReg) (b : GReg)
  /-- R81. Adds the low 32 bits and sign-extends the result into gD. -/
  | addw (d : GReg) (a : GReg) (b : GReg)
  /-- R81. Subtracts the low 32 bits and sign-extends the result into gD. -/
  | subw (d : GReg) (a : GReg) (b : GReg)
  /-- R81. Shifts the low word left by gB[4:0] and sign-extends into gD. -/
  | shlw (d : GReg) (a : GReg) (b : GReg)
  /-- R81. Shifts the low word right logically and sign-extends into gD. -/
  | shrw (d : GReg) (a : GReg) (b : GReg)
  /-- R81. Shifts the low word right arithmetically and sign-extends into gD. -/
  | sraw (d : GReg) (a : GReg) (b : GReg)
  /-- R83. Adds the sign-extended immediate to gA into gD. -/
  | addi (d : GReg) (a : GReg) (i0 : BitVec 16)
  /-- R83. ANDs gA with the zero-extended immediate into gD. -/
  | andi (d : GReg) (a : GReg) (i0 : BitVec 16)
  /-- R83. ORs gA with the zero-extended immediate into gD. -/
  | ori (d : GReg) (a : GReg) (i0 : BitVec 16)
  /-- R83. XORs gA with the zero-extended immediate into gD. -/
  | xori (d : GReg) (a : GReg) (i0 : BitVec 16)
  /-- R83. Shifts gA left by an immediate amount into gD. -/
  | shli (d : GReg) (a : GReg) (n : BitVec 6)
  /-- R83. Shifts gA right logically by an immediate amount into gD. -/
  | shri (d : GReg) (a : GReg) (n : BitVec 6)
  /-- R83. Shifts gA right arithmetically by an immediate amount into gD. -/
  | srai (d : GReg) (a : GReg) (n : BitVec 6)
  /-- R83. Writes 1 to gD if gA is signed-less than the immediate. -/
  | slti (d : GReg) (a : GReg) (i0 : BitVec 16)
  /-- R83. Loads the sign-extended immediate into gD. -/
  | li (d : GReg) (i0 : BitVec 16)
  /-- R83. Inserts a 16-bit immediate into gD at half-word position p. -/
  | lis (d : GReg) (p : BitVec 2) (i0 : BitVec 16)
  /-- R81. Writes the low 64 bits of gA times gB to gD. -/
  | mul (d : GReg) (a : GReg) (b : GReg)
  /-- R81. Writes the high 64 bits of the signed 128-bit product to gD. -/
  | mulh (d : GReg) (a : GReg) (b : GReg)
  /-- R81. Writes the high 64 bits of the unsigned 128-bit product to gD. -/
  | mulhu (d : GReg) (a : GReg) (b : GReg)
  /-- R81. Multiplies the low words and sign-extends the low 32 bits into gD. -/
  | mulw (d : GReg) (a : GReg) (b : GReg)
  /-- R81. Starts a signed 64-bit division, marking gD pending. -/
  | div (d : GReg) (a : GReg) (b : GReg)
  /-- R81. Starts an unsigned 64-bit division, marking gD pending. -/
  | divu (d : GReg) (a : GReg) (b : GReg)
  /-- R81. Starts a signed 64-bit remainder, marking gD pending. -/
  | rem (d : GReg) (a : GReg) (b : GReg)
  /-- R81. Starts an unsigned 64-bit remainder, marking gD pending. -/
  | remu (d : GReg) (a : GReg) (b : GReg)
  /-- R81. Starts a signed 32-bit division with sign-extended result. -/
  | divw (d : GReg) (a : GReg) (b : GReg)
  /-- R81. Starts a signed 32-bit remainder with sign-extended result. -/
  | remw (d : GReg) (a : GReg) (b : GReg)
  /-- R82. Writes the count of leading zero bits of gA to gD. -/
  | clz (d : GReg) (a : GReg)
  /-- R82. Writes the count of trailing zero bits of gA to gD. -/
  | ctz (d : GReg) (a : GReg)
  /-- R82. Writes the number of one bits of gA to gD. -/
  | popc (d : GReg) (a : GReg)
  /-- R82. Writes gA with its bytes reversed to gD. -/
  | bswap (d : GReg) (a : GReg)
  /-- R82. Extracts the bit field described by gB from gA into gD. -/
  | bext (d : GReg) (a : GReg) (b : GReg)
  /-- R82. Inserts low bits of gA into gD at the field described by gB. -/
  | bins (d : GReg) (a : GReg) (b : GReg)
  /-- R82. Sign-extends the low n bits of gA into gD. -/
  | sext (d : GReg) (a : GReg) (b : GReg)
  /-- R82. Zero-extends the low n bits of gA into gD. -/
  | zext (d : GReg) (a : GReg) (b : GReg)
  /-- R84. Branches when gA equals gB. -/
  | beq (a : GReg) (b : GReg) (o : BitVec 13)
  /-- R84. Branches when gA differs from gB. -/
  | bne (a : GReg) (b : GReg) (o : BitVec 13)
  /-- R84. Branches when gA is signed-less than gB. -/
  | blt (a : GReg) (b : GReg) (o : BitVec 13)
  /-- R84. Branches when gA is signed greater than or equal to gB. -/
  | bge (a : GReg) (b : GReg) (o : BitVec 13)
  /-- R84. Branches when gA is unsigned-less than gB. -/
  | bltu (a : GReg) (b : GReg) (o : BitVec 13)
  /-- R84. Branches when gA is unsigned greater than or equal to gB. -/
  | bgeu (a : GReg) (b : GReg) (o : BitVec 13)
  /-- R85. Jumps PC-relative and writes the return address to gD. -/
  | jal (d : GReg) (o : BitVec 21)
  /-- R85. Jumps to gA plus the immediate, checking alignment, and links in gD. -/
  | jalr (d : GReg) (a : GReg) (i0 : BitVec 16)
  /-- R86. Writes field n of the strand's work identifier to gD. -/
  | widf (d : GReg) (n : BitVec 5)
  /-- R86. Writes the full 64-bit work identifier to gD. -/
  | wid (d : GReg)
  /-- R86. Writes the location word of the strand's core and slot to gD. -/
  | self (d : GReg)
  /-- R86. Writes the core's 64-bit cycle count to gD. -/
  | cyc (d : GReg)
  /-- R86. Writes the tick count and the nanoseconds into the current tick to gD. -/
  | tick (d : GReg)
  /-- R86. Writes the strand's group index to gD. -/
  | grp (d : GReg)
  /-- R119. Loads a sign-extended byte through a handle into gT. -/
  | ldb (t : GReg) (h : HReg) (x : GReg) (k : BitVec 2) (o : BitVec 9)
  /-- R119. Loads a zero-extended byte through a handle into gT. -/
  | ldbu (t : GReg) (h : HReg) (x : GReg) (k : BitVec 2) (o : BitVec 9)
  /-- R119. Loads a sign-extended half-word through a handle into gT. -/
  | ldh (t : GReg) (h : HReg) (x : GReg) (k : BitVec 2) (o : BitVec 9)
  /-- R119. Loads a zero-extended half-word through a handle into gT. -/
  | ldhu (t : GReg) (h : HReg) (x : GReg) (k : BitVec 2) (o : BitVec 9)
  /-- R119. Loads a sign-extended word through a handle into gT. -/
  | ldw (t : GReg) (h : HReg) (x : GReg) (k : BitVec 2) (o : BitVec 9)
  /-- R119. Loads a zero-extended word through a handle into gT. -/
  | ldwu (t : GReg) (h : HReg) (x : GReg) (k : BitVec 2) (o : BitVec 9)
  /-- R119. Loads a dword through a handle into gT. -/
  | ldd (t : GReg) (h : HReg) (x : GReg) (k : BitVec 2) (o : BitVec 9)
  /-- R119. Loads a 16-byte quad through a handle into vT. -/
  | ldv (t : VReg) (h : HReg) (x : GReg) (k : BitVec 2) (o : BitVec 9)
  /-- R119. Stores the low byte of gT through a handle. -/
  | stb (t : GReg) (h : HReg) (x : GReg) (k : BitVec 2) (o : BitVec 9)
  /-- R119. Stores the low half-word of gT through a handle. -/
  | sth (t : GReg) (h : HReg) (x : GReg) (k : BitVec 2) (o : BitVec 9)
  /-- R119. Stores the low word of gT through a handle. -/
  | stw (t : GReg) (h : HReg) (x : GReg) (k : BitVec 2) (o : BitVec 9)
  /-- R119. Stores gT as a dword through a handle. -/
  | std (t : GReg) (h : HReg) (x : GReg) (k : BitVec 2) (o : BitVec 9)
  /-- R119. Stores vT as a 16-byte quad through a handle. -/
  | stv (t : VReg) (h : HReg) (x : GReg) (k : BitVec 2) (o : BitVec 9)
  /-- R120. Waits until the word is full, then reads it leaving it full. -/
  | ldf (t : GReg) (h : HReg) (x : GReg)
  /-- R120. Waits until the word is full, then reads it and sets it empty. -/
  | ldfe (t : GReg) (h : HReg) (x : GReg)
  /-- R120. Waits until the word is empty, then stores gT and sets it full. -/
  | stef (t : GReg) (h : HReg) (x : GReg)
  /-- R120. Stores gT and sets the word full, waking waiters. -/
  | stf (t : GReg) (h : HReg) (x : GReg)
  /-- R120. Sets the word's full/empty bit to empty. -/
  | sete (h : HReg) (x : GReg)
  /-- R120. Writes 1 to gT if the word is full, else 0. -/
  | fetest (t : GReg) (h : HReg) (x : GReg)
  /-- R123. Atomically adds gV to the dword and returns the old value. -/
  | amoadd (t : GReg) (h : HReg) (x : GReg) (v : GReg)
  /-- R123. Atomically ANDs gV into the dword and returns the old value. -/
  | amoand (t : GReg) (h : HReg) (x : GReg) (v : GReg)
  /-- R123. Atomically ORs gV into the dword and returns the old value. -/
  | amoor (t : GReg) (h : HReg) (x : GReg) (v : GReg)
  /-- R123. Atomically XORs gV into the dword and returns the old value. -/
  | amoxor (t : GReg) (h : HReg) (x : GReg) (v : GReg)
  /-- R123. Atomically keeps the signed smaller value and returns the old one. -/
  | amomin (t : GReg) (h : HReg) (x : GReg) (v : GReg)
  /-- R123. Atomically keeps the signed larger value and returns the old one. -/
  | amomax (t : GReg) (h : HReg) (x : GReg) (v : GReg)
  /-- R123. Atomically keeps the unsigned smaller value and returns the old one. -/
  | amominu (t : GReg) (h : HReg) (x : GReg) (v : GReg)
  /-- R123. Atomically keeps the unsigned larger value and returns the old one. -/
  | amomaxu (t : GReg) (h : HReg) (x : GReg) (v : GReg)
  /-- R123. Atomically swaps gV into the dword and returns the old value. -/
  | amoswap (t : GReg) (h : HReg) (x : GReg) (v : GReg)
  /-- R123. Atomically replaces the dword with gV if it equals gT; returns the old value. -/
  | amocas (t : GReg) (h : HReg) (x : GReg) (v : GReg)
  /-- R123. Atomically adds a 32-bit value and returns the sign-extended old word. -/
  | amoaddw (t : GReg) (h : HReg) (x : GReg) (v : GReg)
  /-- R123. Atomically adds an f32 value with RNE and returns the old word. -/
  | amofaddF32 (t : GReg) (h : HReg) (x : GReg) (v : GReg)
  /-- R124. Derives a narrowed or retargeted handle from hA into hD. -/
  | hsub (d : HReg) (a : HReg) (b : BitVec 4)
  /-- R124. Reads one dword of a handle entry into gD. -/
  | hrd (d : GReg) (a : HReg) (b : GReg)
  /-- R124. Empties handle entry hD. -/
  | hclr (d : HReg)
  /-- R102. Adds vector lanes. -/
  | vadd (d : VReg) (a : VReg) (b : VReg) (y : Ty)
  /-- R102. Subtracts vector lanes. -/
  | vsub (d : VReg) (a : VReg) (b : VReg) (y : Ty)
  /-- R102. Multiplies vector lanes. -/
  | vmul (d : VReg) (a : VReg) (b : VReg) (y : Ty)
  /-- R102. Fused multiply-add of vector lanes with one rounding. -/
  | vfma (d : VReg) (a : VReg) (b : VReg) (c : VReg) (y : Ty)
  /-- R103. Takes the lane-wise minimum. -/
  | vmin (d : VReg) (a : VReg) (b : VReg) (y : Ty)
  /-- R103. Takes the lane-wise maximum. -/
  | vmax (d : VReg) (a : VReg) (b : VReg) (y : Ty)
  /-- R102. Takes the absolute value of each lane. -/
  | vabs (d : VReg) (a : VReg) (y : Ty)
  /-- R102. Negates each lane. -/
  | vneg (d : VReg) (a : VReg) (y : Ty)
  /-- R102. Bitwise AND of integer lanes. -/
  | vand (d : VReg) (a : VReg) (b : VReg) (y : Ty)
  /-- R102. Bitwise OR of integer lanes. -/
  | vor (d : VReg) (a : VReg) (b : VReg) (y : Ty)
  /-- R102. Bitwise XOR of integer lanes. -/
  | vxor (d : VReg) (a : VReg) (b : VReg) (y : Ty)
  /-- R102. Shifts integer lanes left. -/
  | vshl (d : VReg) (a : VReg) (b : VReg) (y : Ty)
  /-- R102. Shifts integer lanes right. -/
  | vshr (d : VReg) (a : VReg) (b : VReg) (y : Ty)
  /-- R103. Compares lanes for equality, giving all-ones masks. -/
  | vcmpeq (d : VReg) (a : VReg) (b : VReg) (y : Ty)
  /-- R103. Compares lanes for less-than, giving all-ones masks. -/
  | vcmplt (d : VReg) (a : VReg) (b : VReg) (y : Ty)
  /-- R103. Compares lanes for less-or-equal, giving all-ones masks. -/
  | vcmple (d : VReg) (a : VReg) (b : VReg) (y : Ty)
  /-- R102. Selects lanes of vA or vB by the mask in vC. -/
  | vsel (d : VReg) (a : VReg) (b : VReg) (c : VReg) (y : Ty)
  /-- R103. Accumulates short dot products of vA and vB into 32-bit lanes of vC. -/
  | vdot (d : VReg) (a : VReg) (b : VReg) (c : VReg) (y : Ty)
  /-- R102. Saturating addition of integer lanes. -/
  | vaddsat (d : VReg) (a : VReg) (b : VReg) (y : Ty)
  /-- R102. Saturating subtraction of integer lanes. -/
  | vsubsat (d : VReg) (a : VReg) (b : VReg) (y : Ty)
  /-- R102. High half of the double-width product of integer lanes. -/
  | vmulh (d : VReg) (a : VReg) (b : VReg) (y : Ty)
  /-- R104. Converts lanes from type st to type dt with chosen rounding and saturation. -/
  | vcvt (d : VReg) (a : VReg) (s0 : Ty) (c : BitVec 3) (y : Ty)
  /-- R105. Correctly rounded reciprocal of each lane. -/
  | vrcp (d : VReg) (a : VReg) (y : Ty)
  /-- R105. Correctly rounded reciprocal square root of each lane. -/
  | vrsqrt (d : VReg) (a : VReg) (y : Ty)
  /-- R105. Correctly rounded square root of each lane. -/
  | vsqrt (d : VReg) (a : VReg) (y : Ty)
  /-- R105. Lane-wise division of vA by vB. -/
  | vdiv (d : VReg) (a : VReg) (b : VReg) (y : Ty)
  /-- R105. Correctly rounded 2 to the power of each lane. -/
  | vexp2 (d : VReg) (a : VReg) (y : Ty)
  /-- R105. Correctly rounded base-2 logarithm of each lane. -/
  | vlog2 (d : VReg) (a : VReg) (y : Ty)
  /-- R105. Correctly rounded hyperbolic tangent of each lane. -/
  | vtanh (d : VReg) (a : VReg) (y : Ty)
  /-- R105. Correctly rounded logistic sigmoid of each lane. -/
  | vsigm (d : VReg) (a : VReg) (y : Ty)
  /-- R106. Broadcasts the low bits of a g register to every lane. -/
  | vbcast (d : VReg) (g : SReg) (y : Ty)
  /-- R106. Inserts the low bits of a g register into lane l. -/
  | vins (d : VReg) (g : SReg) (l : BitVec 4) (y : Ty)
  /-- R106. Extracts lane l into a g register, marking it pending. -/
  | vext (g : SReg) (a : VReg) (l : BitVec 4) (y : Ty)
  /-- R106. Gathers lanes of vA by the indices in vB. -/
  | vshuf (d : VReg) (a : VReg) (b : VReg) (y : Ty)
  /-- R106. Interleaves one half of vA and vB. -/
  | vzip (d : VReg) (a : VReg) (b : VReg) (h : BitVec 1) (y : Ty)
  /-- R106. De-interleaves even or odd lanes of vA and vB. -/
  | vunzip (d : VReg) (a : VReg) (b : VReg) (o : BitVec 1) (y : Ty)
  /-- R107. Sums the lanes in a fixed pairwise tree into lane 0. -/
  | vredsum (d : VReg) (a : VReg) (y : Ty)
  /-- R107. Places the largest lane in lane 0. -/
  | vredmax (d : VReg) (a : VReg) (y : Ty)
  /-- R107. Places the smallest lane in lane 0. -/
  | vredmin (d : VReg) (a : VReg) (y : Ty)
  /-- R108. Sorts lanes by key, or gives the sorting permutation. -/
  | vsort (d : VReg) (a : VReg) (m : BitVec 2) (y : Ty)
  /-- R108. Keeps the n smallest or largest lanes of vA and vB in order. -/
  | vmerge (d : VReg) (a : VReg) (b : VReg) (h : BitVec 1) (y : Ty)
  /-- R108. Counts lanes of vA below or at each key of vB. -/
  | vsrch (d : VReg) (a : VReg) (b : VReg) (m : BitVec 1) (y : Ty)
  /-- R106. Packs the lanes of vA selected by vB into low lanes. -/
  | vcompress (d : VReg) (a : VReg) (b : VReg) (y : Ty)
  /-- R106. Spreads low lanes of vA to the lanes selected by vB. -/
  | vexpand (d : VReg) (a : VReg) (b : VReg) (y : Ty)
  /-- R106. Counts the nonzero lanes into lane 0. -/
  | vpopc (d : VReg) (a : VReg) (y : Ty)
  /-- R106. Gives the index of the first nonzero lane in lane 0. -/
  | vfirst (d : VReg) (a : VReg) (y : Ty)
  /-- R111. Hashes four keys and sends their values to accumulating bins on group cores. -/
  | ksend (a : VReg) (b : VReg) (y : Ty)
  /-- R94. Checks a loop body and hands count repetitions of it to the vector sequencer. -/
  | vbegin (a : GReg) (b : GReg) (l : BitVec 4)
  /-- R100. Writes the vector sequencer status word to gD. -/
  | vstat (d : GReg)
  /-- R90. Binds a register of g16-g23 to a queue port, taking ownership. -/
  | qbind (d : GReg) (a : GReg) (b : GReg)
  /-- R90. Unbinds a queue register, freeing the port when no binding remains. -/
  | qunbind (d : GReg) (a : GReg)
  /-- R90. Writes a queue port's status word to gD. -/
  | qstat (d : GReg) (a : GReg)
  /-- R90. Reads a port's head value without removing it, parking while empty. -/
  | qpeek (d : GReg) (a : GReg)
  /-- R139. Stalls until each named outstanding counter is at or below its limit. -/
  | wait (l : BitVec 4) (s0 : BitVec 4) (c : BitVec 4) (m : BitVec 4) (x : BitVec 4) (n : BitVec 4)
  /-- R141. Records a fence holding later after-set operations until before-set ones are performed within the scope. -/
  | xfence (b : BitVec 6) (a : BitVec 6) (s0 : BitVec 3)
  /-- R153. Sends a task record from the slice to the queue bank of a named core's cluster. -/
  | spawn (d : GReg) (a : GReg) (b : GReg)
  /-- R154. Spawns a task record to the core that owns a given address. -/
  | spawnd (d : GReg) (a : GReg) (b : GReg)
  /-- R160. Gives the slot to a waiting record of equal or more urgent priority. -/
  | yield (d : GReg)
  /-- R257. Moves the strand to a target core or back to its reserved home slot. -/
  | migrate (d : GReg) (a : GReg) (b : GReg)
  /-- R155. Inserts a task record into the bank of the strand's own cluster. -/
  | tqpush (d : GReg) (a : GReg)
  /-- R156. Takes one eligible SOFT record from the own cluster's bank. -/
  | tqpop (d : GReg) (a : GReg)
  /-- R77. Swaps the strand's timer count with gA. -/
  | tmr (d : GReg) (a : GReg)
  /-- R77. Sets the strand's priority, never below its base, returning the old one. -/
  | prio (d : GReg) (a : GReg)
  /-- R170. Sets a barrier register's rectangle and mask. -/
  | bset (d : GReg) (a : GReg) (b : GReg) (i0 : BitVec 2)
  /-- R170. Records the strand's arrival at a barrier without waiting. -/
  | barv (d : GReg) (i0 : BitVec 2)
  /-- R170. Waits for a barrier phase to complete. -/
  | bwait (d : GReg) (a : GReg) (i0 : BitVec 2)
  /-- R170. Arrives at a barrier and waits for its phase to complete. -/
  | barw (d : GReg) (i0 : BitVec 2)
  /-- R170. Sets a barrier register's time-out, returning the old one. -/
  | bto (d : GReg) (a : GReg) (i0 : BitVec 2)
  /-- R282. Records the strand's arrival at a suspension of its group to a skein address. -/
  | susp (t : GReg) (h : HReg) (x : GReg)
  /-- R286. Compares and advances a skein's version and queues its group for placement. -/
  | resume (t : BitVec 4) (h : HReg) (x : GReg)
  /-- R289. Marks a suspended skein DROPPED if its version matches and no copy is unresolved. -/
  | sdrop (t : GReg) (h : HReg) (x : GReg)
  /-- R290. Copies a suspended skein to another offset as a new skein of version 0. -/
  | sclone (t : BitVec 4) (h : HReg) (x : GReg)
  /-- R291. Reads a skein header's version and control word into a register pair. -/
  | sver (t : BitVec 4) (h : HReg) (x : GReg)
  /-- R232. Reads a launch header and any tile records and sends them to the placer. -/
  | launch (t : GReg) (h : HReg) (x : GReg)
  /-- R238. Requests a replay of a recorded chain with a patch. -/
  | chplay (t : GReg) (h : HReg) (x : GReg)
  /-- R33. Writes gA to an engine register that has no behaviour of its own. -/
  | ewr (e : Eng) (a : GReg) (r : EngReg)
  /-- R33. Reads an engine register into gD. -/
  | erd (e : Eng) (r : EngReg) (d : GReg)
  /-- R183. A write to cp.dh or cp.dslot selects a handle or slot destination. -/
  | ewrCpDest (r : EngReg) (a : GReg)
  /-- R125. A write to a bank format register sets it, or is refused with ENGINE. -/
  | ewrCpBfmt (r : EngReg) (a : GReg)
  /-- R192. A write to mx.scsel selects a scale entry of a held slot, or raises ENGINE. -/
  | ewrMxScsel (a : GReg)
  /-- R192. A write to mx.scval writes the selected scale entry and advances the index. -/
  | ewrMxScval (a : GReg)
  /-- R243. A write to dx.ohi commits an override entry under the strand's ASID. -/
  | ewrDxOhi (a : GReg)
  /-- R251. A write to dx.xrel sends a release of a receive entry. -/
  | ewrDxXrel (a : GReg)
  /-- R263. A write to the region registers 0x020-0x023 sets the region or is refused. -/
  | ewrPlRegion (r : EngReg) (a : GReg)
  /-- R177. Checks and queues a copy described by the staged copy registers. -/
  | cpgo (w : BitVec 1)
  /-- R180. Queues a prefetch of the staged source region into L2. -/
  | cphint (w : BitVec 1)
  /-- R181. Cancels the strand's outstanding copies and hints on this core. -/
  | cpcancel (d : GReg) (w : BitVec 1)
  /-- R182. Writes the copy engine status word to gD. -/
  | cpstat (d : GReg) (w : BitVec 1)
  /-- R194. Claims a run of free operand units as a slot. -/
  | oclaim (a : GReg) (d : GReg)
  /-- R194. Releases a slot once no command names it. -/
  | orel (a : GReg) (d : GReg)
  /-- R195. Queues a 32x128 by 128xN multiply into an accumulator. -/
  | mm (a : GReg) (b : GReg) (n : BitVec 1) (w : BitVec 1)
  /-- R195. Queues a multiply with four B slots for row blocks. -/
  | mmg (a : GReg) (b : GReg) (n : BitVec 1) (w : BitVec 1)
  /-- R198. Queues an accumulator drain through the epilogue to memory. -/
  | mdrain (b : GReg) (n : BitVec 1) (w : BitVec 1)
  /-- R196. Queues clearing an accumulator and its ERR bit. -/
  | mclr (n : BitVec 1) (w : BitVec 1)
  /-- R200. Returns and clears the engine error word after earlier commands complete. -/
  | mchk (b : GReg) (w : BitVec 1)
  /-- R219. Checks and queues a walk of rows through a node DAG, or resumes a held one. -/
  | walk (w : BitVec 1)
  /-- R220. Optionally discards a held table and writes the walk status word. -/
  | wstat (a : GReg) (d : GReg) (w : BitVec 1)
  /-- R252. Checks and hands a block of token rows to the die's dispatch engine. -/
  | dsend (w : BitVec 1)
  /-- R254. Sends held lists and waits for the strand's earlier dsends to complete. -/
  | dflush (d : GReg) (w : BitVec 1)
  /-- R255. Writes the dispatch status word to gD. -/
  | dstat (d : GReg) (w : BitVec 1)
  /-- R271. Reads a replica table dword or window record of the strand's region. -/
  | plrd (a : GReg) (d : GReg)
  /-- R273. Stages and publishes a new region version from a change list. -/
  | plswitch (d : GReg)
  /-- R274. Sums replica gradients in replica order into replica 0's gradient. -/
  | plmerge (w : BitVec 1)
  /-- R272. Writes the region state word to gD. -/
  | plstat (d : GReg)
  /-- R338. Checks and sends a collective reduction member to its home die. -/
  | clred (w : BitVec 1)
  /-- R339. Optionally cancels joined collectives and writes the collective status. -/
  | clstat (a : GReg) (d : GReg) (w : BitVec 1)
  /-- R75. Reads a system register into gD. -/
  | sysrd (d : GReg) (s0 : SysNum)
  /-- R75. Writes gA to a system register that has no behaviour of its own. -/
  | syswr (a : GReg) (s0 : SysNum)
  /-- R75. A write to TMR arms the timer from the next cycle. -/
  | syswrTmr (a : GReg)
  /-- R75. A write to FRM waits for an empty sequencer, then sets mode and flags. -/
  | syswrFrm (a : GReg)
  /-- R75. A write to PRIO sets P under the limits of prio. -/
  | syswrPrio (a : GReg)
  /-- R87. A write to QBIND binds and unbinds ports as qbind and qunbind would. -/
  | syswrQbind (a : GReg)
  /-- R97. A write to KHASH or KBINS waits for an empty sequencer. -/
  | syswrKhashKbins (a : GReg) (n : SysNum)
  /-- R61. A write to SLOTTAB0, SLOTTAB1 or SLOTCTL takes effect from the next cycle. -/
  | syswrSlottab (a : GReg) (n : SysNum)
  /-- R150. A write to QRING or QRLIM is ignored while the ring is in use. -/
  | syswrQring (a : GReg) (n : SysNum)
  /-- R74. A write to SWAPREQ swaps the named slot's strand out now. -/
  | swapreq (a : GReg)
  /-- R76. Raises SOFT with its immediate. -/
  | trap (i0 : BitVec 12)
  /-- R76. Raises BREAK with its immediate. -/
  | brk (i0 : BitVec 12)
  /-- R37. Issuing a word with an unassigned opcode, minor code or operand code, or a nonzero reserved field, raises ILLEGAL precisely. -/
  | illegalWord (w : BitVec 32)
  /-- R80. A division result arrives 24 cycles after issue and clears the pending mark of gD. -/
  | divideResult
  /-- R119. A load's data returns, is written to its register and the LD count falls. -/
  | loadDataReturn
  /-- R114. A core-to-core access message reaches its target word and is performed there. -/
  | remoteAccessArrival
  /-- R306. A core-path fault becomes known at the home slice; operations are held, the strand parks and a COREFAULT record is made. -/
  | coreTranslationFault
  /-- R309. A waiting fault record takes a free place and is written to its fault queue. -/
  | faultRecordWrite
  /-- R121. A wake message for a word change reaches a parked strand's core, making it eligible next cycle. -/
  | wakeMessage
  /-- R112. A receiving core adds one keyed lane into its bin word. -/
  | ksendLaneAccumulate
  /-- R99. Holds the strand until its vector sequencer is empty. -/
  | vsync
  /-- R94. The sequencer performs one vector entry, possibly trapping precisely or parking on a page fault. -/
  | vseqEntryPerform
  /-- R89. After 4,096 cycles with every live strand parked on ports, one is woken with QWEDGE. -/
  | qwedge
  /-- R158. Waits for all counters to reach zero, then ends the strand. -/
  | quit
  /-- R144. A task record reaches its queue bank and is inserted, spilled to the ring or refused. -/
  | taskRecordInsert
  /-- R152. The queue bank's status or popped record reaches the issuing strand. -/
  | taskBankReply
  /-- R146. Four cycles after a slot frees, the dispatcher selects a STRAND record and starts it. -/
  | dispatcherStart
  /-- R148. A WAKE record reaches its target slot and wakes or records a wake for the strand. -/
  | wakeRecordDelivery
  /-- R149. The spill engine moves a batch of newest records of the least urgent level to the overflow ring. -/
  | spill
  /-- R149. The spill engine moves a batch from the most urgent non-empty sub-ring back into the bank. -/
  | refill
  /-- R164. An arrival is recorded once the strand's earlier core-path operations are performed. -/
  | barrierArrivalRecord
  /-- R164. After the wire sweep, every core of the rectangle releases waiters and advances the phase. -/
  | barrierRelease
  /-- R165. A parked barrier wait reaches its time-out and ends with TIMEOUT. -/
  | barrierTimeout
  /-- R167. A seal reaches a barrier register, ending its waits with SEALED. -/
  | barrierSeal
  /-- R284. Once all arrivals have drained, the skein is written and the group ends. -/
  | suspensionComplete
  /-- R286. The placer places a resumed group and restores its state from the skein. -/
  | resumeGroupPlace
  /-- R286. A restore ends and the resumed strands begin, receiving any held completion values. -/
  | groupRestoreEnd
  /-- R287. A recorded copy's end is resolved at the skein header and its completion delivered once. -/
  | recordedCopyResolve
  /-- R233. Marks the strand triggered for its launch's dependants. -/
  | trig
  /-- R225. A launch reaches the placer, is checked and queued or refused. -/
  | launchEnqueue
  /-- R232. The placer's status word reaches the launching strand. -/
  | launchStatus
  /-- R226. The placer places the next group on a fitting rectangle, pre-empting if allowed. -/
  | groupPlace
  /-- R228. A placed strand begins after its slice is cleared, with its registers and handles set. -/
  | strandStart
  /-- R229. When all groups have ended and writes are performed, the launch writes its completion word and submits dependants. -/
  | launchRetire
  /-- R235. The tick generator starts a tick every TICKP ns, waking, opening windows and playing TICK chains. -/
  | tickStart
  /-- R235. The tick phase reaches a launch's TWS or TWE, allowing or stopping its placement. -/
  | tickWindowEdge
  /-- R171. A free channel takes the oldest copy command that may begin. -/
  | copyChannelTake
  /-- R184. A channel leaves START after 8 cycles and begins moving. -/
  | copyStartElapse
  /-- R174. A channel checks and moves one run, converting, failing or stalling on a page fault. -/
  | copyRun
  /-- R179. A copy's last byte lands and any follow-on matrix command is handed to the array. -/
  | copyLastByteLands
  /-- R176. Once its writes are performed domain-wide, a command writes its completion word as stf. -/
  | copyCompletionWrite
  /-- R191. The array takes the next begun matrix command and performs it. -/
  | matrixCommandBegin
  /-- R195. A matrix command finishes its array cost and is uncounted. -/
  | matrixCommandComplete
  /-- R199. A drain woken from a page fault takes the array again for its remaining rows. -/
  | drainResume
  /-- R201. A merge drain whose position is reached adds its contribution and advances the merge word. -/
  | mergeDrainTurn
  /-- R199. A drain's status reaches g(B) once its writes are performed. -/
  | drainStatusDeliver
  /-- R203. A walk takes the free row state table and reads its inputs. -/
  | walkBegin
  /-- R210. The walk fetches the next node, checks it and performs a pass for the rows waiting there. -/
  | walkPass
  /-- R212. The walk writes remaining records and its completion word and frees the table. -/
  | walkEnd
  /-- R244. The engine chooses a token's experts by hash and overrides and lists it. -/
  | dsendHashChoose
  /-- R245. The engine scores a token against the gate and lists its top experts. -/
  | dsendScoredChoose
  /-- R245. A MODE 2 command copies a gate into the die's gate memory. -/
  | gateLoad
  /-- R249. A held list is sent 256 cycles after its first token entered. -/
  | sendListHoldTimeout
  /-- R249. A receiving engine answers a list's request with a grant of rows. -/
  | receiveRequest
  /-- R249. A grant reaches the sender, which sends granted rows and retries denied tokens. -/
  | grantReply
  /-- R250. A granted row is written into its receive buffer. -/
  | rowCommit
  /-- R250. Once a row is performed domain-wide, the expert's arrival counter is incremented and set full. -/
  | arrivalCount
  /-- R253. When all tokens are counted or dropped, the dsend writes its completion word. -/
  | dsendCompletion
  /-- R251. A release reaches the receiving engine and, after granted rows are counted, resets USED and the counter. -/
  | receiveRelease
  /-- R257. A target core answers a migration request, granting a slot or denying. -/
  | migrateGrant
  /-- R257. A moved strand's context arrives and goes LIVE at its destination slot. -/
  | migrateArrive
  /-- R264. At a window end the distaff collects counters and may replicate or retire a replica per region. -/
  | windowEnd
  /-- R266. A replicate's weights copy ends, publishing the new version or discarding the stage. -/
  | replicaCopyEnd
  /-- R267. A dispatch engine applies a new table version at a token boundary and acknowledges. -/
  | versionApply
  /-- R267. All engines report no live token of the old version; the region becomes STABLE. -/
  | regionDrained
  /-- R338. A member reaches the home die; when all positions are in, the tree result is written. -/
  | clredArrive
  /-- R338. A member's completion word is written after its destination writes. -/
  | clredCompletion
  /-- R76. Leaves the handler and resumes at TPC. -/
  | eret
  /-- R76. Puts the strand in IDLE until a wake message, a tick or TIMER. -/
  | idle
  /-- R71. TMR counts down to 0 and TIMER is taken at the next instruction boundary. -/
  | timer
  /-- R67. A strand parked longer than 64 x PARKSWAP cycles with a task waiting is chosen for swap-out. -/
  | parkswapPreempt
  /-- R67. A swap-out finishes moving the context and slice and the slot becomes free. -/
  | swapOutComplete
  /-- R68. The oldest eligible context cache entry is written to its memory entry. -/
  | contextEvict
  /-- R62. A cached or stored strand with a recorded wake returns to a freed slot. -/
  | swapIn
  /-- R316. A slice scrubs a line, correcting or poisoning it. -/
  | l2Scrub
  /-- R316. The DRAM scrubber reads a line through its home slice, correcting or poisoning it. -/
  | dramScrub
  /-- R323. The west router compares the two copies of a paired message and forwards or seals. -/
  | pairMergeCompare
  /-- R323. An unmatched paired message held 65,536 cycles is a mismatch that seals both cores. -/
  | pairTimeout
  /-- R327. A Synsin host read or write is performed in the single order. -/
  | hostAccess
  /-- R330. A doorbell for a launch ring advances TAIL and makes its headers available. -/
  | launchRingDoorbell
  /-- R330. A doorbell returns event ring entries by advancing HEAD. -/
  | eventRingDoorbell
  /-- R330. A doorbell returns fault ring entries by advancing HEAD. -/
  | faultRingDoorbell
  /-- R330. A doorbell for the command ring makes new commands available. -/
  | commandRingDoorbell
  /-- R332. Binds or unbinds a tenant descriptor. -/
  | tenant
  /-- R296. Rebinds an ASID, advancing its generation. -/
  | asidset
  /-- R305. Invalidates translations of a range and acknowledges when performed. -/
  | inval
  /-- R308. Wakes the unit stalled on the fault record with the given token. -/
  | wake
  /-- R333. Moves the package to Ready from Wiped or Run. -/
  | powerReady
  /-- R333. Moves the package to Run at a clock step, changing slice modes as needed. -/
  | powerRun
  /-- R333. Parks the named dies. -/
  | powerPark
  /-- R333. Returns parked dies to Run. -/
  | powerUnpark
  /-- R333. Turns the package Off. -/
  | powerOff
  /-- R332. Sets TICKP from the next tick start. -/
  | hostTick
  /-- R311. Enables or drains the victim tier of the named dies. -/
  | victim
  /-- R336. Sets the package number and the link for each destination package. -/
  | route
  /-- R341. Writes a signed attestation report for a nonce. -/
  | attest
  /-- R334. Advances the life-cycle state, extending MR3 and wiping. -/
  | lifecycle
  /-- R332. Ends every group of a tenant. -/
  | kill
  /-- R340. Extends MR2 with host data. -/
  | extend
  /-- R333. Power-on or reset clears measurements and starts a wipe. -/
  | powerOnReset
  /-- R334. A wipe finishes and the package enters Wiped. -/
  | wipeComplete
  /-- R335. Junction temperature reaching 95 C sends a THERMAL event. -/
  | thermal
  /-- R335. At 105 C cores skip alternate issue cycles until below 100 C. -/
  | thermalThrottle
  /-- R336. A Daxfy flit is received, checked by CRC and replayed on error. -/
  | linkFlit
  /-- R336. After 16 failed replays a link goes down and LINKDOWN is sent. -/
  | linkdown
  /-- R228. A fetch at a PC outside IMAGE to IMAGE + IMGSZ - 1 raises BOUND with TPC = PC and TVAL = PC - IMAGE. -/
  | fetchBound
  /-- R144. A tqpop request reaches its cluster's queue bank, which selects and removes one eligible SOFT record (or an orphan) in one indivisible step. -/
  | queueBankRemoval
  /-- R286. The reply of a resume, sdrop or sclone reaches the held strand, writing g(T) and uncounting ST, or raising SKEINSTALE, SKEINBUSY or BOUND precisely. -/
  | skeinStatusReply
  /-- R271. The distaff's reply to plrd or plswitch reaches the strand, writing g(D) and uncounting DX. -/
  | distaffReply
  /-- R238. The chain's status (STARTED, QUEUED, COALESCED or BADCHAIN) reaches the chplay strand, writing g(T) and uncounting ST. -/
  | chainReply
  /-- R274. A plmerge finishes summing the replica gradients, its writes are performed domain-wide, its completion word is written and DX is uncounted. -/
  | plmergeCompletion
  /-- R335. The junction temperature falls below 100 C and the cores stop skipping alternate issue cycles. -/
  | temperatureFall
  deriving DecidableEq, Repr

end Sys2Proof
end

