-- ==== Sys2Proof/WellFormed.lean ====
section
/-! DEFINITION. The operand limits of the encoding (R28 to R35, R37): `Instr.wf i` says that the word of `i` is legal
in every respect that does not depend on the executing strand. -/

namespace Sys2Proof

/-- The lane width of a type in bits (R91). -/
def Ty.width : Ty → Nat
  | .s8 | .z8 | .e4m3 | .e5m2 => 8
  | .s16 | .z16 | .bf16 => 16
  | .s32 | .z32 | .f32 => 32
  | .s64 | .z64 => 64

/-- The number of lanes of a register (R91). -/
def Ty.lanes (y : Ty) : Nat := 128 / y.width

/-- The signed integer types (R102: sint). -/
def Ty.isSint : Ty → Bool
  | .s8 | .s16 | .s32 | .s64 => true
  | _ => false

/-- The floating-point types (R102: flt). -/
def Ty.isFlt : Ty → Bool
  | .e4m3 | .e5m2 | .bf16 | .f32 => true
  | _ => false

/-- The integer types (R102: int). -/
def Ty.isInt (y : Ty) : Bool := !y.isFlt

/-- The types of bf16 or f32 lanes, whose subnormals trap (R48). -/
def Ty.isTrapFlt : Ty → Bool
  | .bf16 | .f32 => true
  | _ => false

/-- The source types of `vdot` (R102). -/
def Ty.isDot : Ty → Bool
  | .s8 | .s16 | .z8 | .z16 | .e4m3 | .e5m2 | .bf16 => true
  | _ => false

/-- The engine registers of each engine (R173, R192, R218, R242, R263, R337). -/
def engRegOk (e : Eng) (r : Nat) : Bool :=
  match e with
  | .cp => r ≤ 0x0F || (0x11 ≤ r && r ≤ 0x17) || (0x19 ≤ r && r ≤ 0x1F) || (0x31 ≤ r && r ≤ 0x36)
  | .mx => r ≤ 0x0F
  | .wk => r ≤ 0x0F
  | .dx => r ≤ 0x11 || r == 0x20 || r == 0x21
  | .pl => r ≤ 0x0B || (0x20 ≤ r && r ≤ 0x25)
  | .cl => r ≤ 0x09

/-- The engine registers that `ewr` may not name because they are read-only (R192). -/
def engRegReadOnly (e : Eng) (r : Nat) : Bool :=
  match e with
  | .mx => r == 0x0E || r == 0x0F
  | _ => false

/-- The engine registers whose `ewr` is a row of its own in the opcode table. -/
def engRegOwnRow (e : Eng) (r : Nat) : Bool :=
  match e with
  | .cp => r == 2 || r == 4 || (0x31 ≤ r && r ≤ 0x36)
  | .mx => r == 3 || r == 4
  | .dx => r == 0x10 || r == 0x11
  | .pl => 0x20 ≤ r && r ≤ 0x23
  | _ => false

/-- The engine registers that only a supervisor strand may name (R242, R263). -/
def engRegSup (e : Eng) (r : Nat) : Bool :=
  match e with
  | .dx => r == 0x20 || r == 0x21
  | .pl => 0x20 ≤ r && r ≤ 0x25
  | _ => false

/-- The system register numbers of R74. -/
def sysRegOk (n : Nat) : Bool := n ≤ 0x0D || (0x10 ≤ n && n ≤ 0x19)

/-- The read-only system registers (R74). -/
def sysRegReadOnly (n : Nat) : Bool := n == 0x0B || n == 0x0C || n == 0x0D || n == 0x17 || n == 0x19

/-- The system registers of the supervisor (R35, R74). -/
def sysRegSup (n : Nat) : Bool := 0x10 ≤ n && n ≤ 0x3F

/-- The system registers whose `syswr` is a row of its own in the opcode table. -/
def sysRegOwnRow (n : Nat) : Bool :=
  (5 ≤ n && n ≤ 0x0A) || (0x12 ≤ n && n ≤ 0x16) || n == 0x18

/-- The operand limits of each row (R37). Rows without a word, and rows whose fields have no limit, are always well
formed. -/
def Instr.wf : Instr → Bool
  | .widf _ n => n.toNat ≤ 5
  | .vabs _ _ y | .vneg _ _ y => y.isSint || y.isFlt
  | .vand _ _ _ y | .vor _ _ _ y | .vxor _ _ _ y | .vshl _ _ _ y | .vshr _ _ _ y
  | .vaddsat _ _ _ y | .vsubsat _ _ _ y | .vmulh _ _ _ y => y.isInt
  | .vdot _ _ _ _ y => y.isDot
  | .vrcp _ _ y | .vrsqrt _ _ y | .vsqrt _ _ y | .vexp2 _ _ y | .vlog2 _ _ y | .vtanh _ _ y | .vsigm _ _ y => y.isFlt
  | .vins _ _ l y | .vext _ _ l y => l.toNat < y.lanes
  | .ksend _ _ y => y == .s32 || y == .f32
  | .vbegin _ _ l => l.toNat ≠ 0
  | .xfence b a s0 => b.toNat ≠ 0 && a.toNat ≠ 0 && s0.toNat ≤ 5
  | .ewr e _ r => engRegOk e r.toNat && !engRegReadOnly e r.toNat && !engRegOwnRow e r.toNat
  | .erd e r _ => engRegOk e r.toNat
  | .ewrCpDest r _ => r.toNat == 2 || r.toNat == 4
  | .ewrCpBfmt r _ => 0x31 ≤ r.toNat && r.toNat ≤ 0x36
  | .ewrPlRegion r _ => 0x20 ≤ r.toNat && r.toNat ≤ 0x23
  | .sysrd _ n => sysRegOk n.toNat
  | .syswr _ n => sysRegOk n.toNat && !sysRegReadOnly n.toNat && !sysRegOwnRow n.toNat
  | .syswrKhashKbins _ n => n.toNat == 0x09 || n.toNat == 0x0A
  | .syswrSlottab _ n => n.toNat == 0x12 || n.toNat == 0x13 || n.toNat == 0x14
  | .syswrQring _ n => n.toNat == 0x15 || n.toNat == 0x16
  | _ => true

end Sys2Proof
end

