-- ==== Sys2Proof/Machine/State.lean ====
section
/-! DEFINITION. The state of a Plalon W8 package as plain data, and the state right after reset (R334). One record for
each unit of the spec: strand, core, cluster, die, group, launch, and the package with what its management core holds.
Units are kept in tables by number; a unit that a table does not list stands as its reset record says. -/

namespace Sys2Proof.Machine

/-- A table: entries by number, the numbers strictly rising. -/
abbrev Tab (α : Type) := List (Nat × α)

/-- The six outstanding counters (R138). -/
inductive Ctr where
  | ld | st | cp | mx | dx | cl
  deriving DecidableEq, Repr

/-- A handle entry (R116); its last dword is always 0. -/
structure Handle where
  base : Word := 0
  ctl : Word := 0
  tgt : Word := 0
  deriving DecidableEq, Repr

/-- A handle as an access or an engine command uses it (R114, R116, R258): the space, the unit that the space lies in
(a core for spaces 0, 1 and 5, a cluster for 2, a die for 3, none for 4), base, bound, rights (S A X W R from bit 4
down), element format, and the address space of the strand. -/
structure Region where
  space : BitVec 3 := 0
  unit : Nat := 0
  base : Nat := 0
  bound : Nat := 0
  rights : BitVec 5 := 0
  efmt : BitVec 4 := 0
  asid : BitVec 12 := 0
  deriving DecidableEq, Repr

/-- Where bytes lie: a key of the one memory (see `State.mem`), or a global virtual address under an address space. -/
inductive Addr where
  | phys (key : Nat)
  | virt (asid : BitVec 12) (va : Nat)
  deriving DecidableEq, Repr

/-- Where a late result goes (R80, R88, R119): a scalar register, a reserved entry of a queue port of the strand's
core, or nowhere (g0, an operation without a result). -/
inductive Dest where
  | gpr (r : BitVec 5)
  | port (p : Nat) (tag : Nat)
  | drop
  deriving DecidableEq, Repr

/-- A task record (R142): eight dwords ENTRY, ARG0 to ARG3, WID, CTL, LOC. -/
abbrev TaskRec := Vector Word 8

/-- What a core-path operation does when it is performed (R129). -/
inductive OpKind where
  /-- a raw load of `sz` bytes, sign-extended when `sgn` (R119) -/
  | load (a : Addr) (sz : Nat) (sgn : Bool)
  /-- a raw store of the low `sz` bytes of `v` (R119) -/
  | store (a : Addr) (sz : Nat) (v : Word)
  /-- `stf` (R120) -/
  | fill (key : Nat) (v : Word)
  /-- `sete` (R120) -/
  | empty (key : Nat)
  /-- `fetest` (R120) -/
  | test (key : Nat)
  /-- an atomic of operation code `op` (R123) -/
  | amo (op : BitVec 6) (a : Addr) (v c : Word)
  /-- one lane of a `ksend`: the bin word and the value (R112); `last` ends the count of its `ksend` -/
  | lane (key : Nat) (flt : Bool) (v : BitVec 32) (last : Bool)
  /-- a record on its way to a bank or, for KIND WAKE, to its target (R148, R153, R155); `own` is the strand's cluster
  for `tqpush` -/
  | push (r : TaskRec) (own : Option Nat)
  /-- `tqpop` of a strand whose own core is `home`; the record goes to offset `o` of the region (R156) -/
  | pop (home : Nat) (r : Region) (o : Nat)
  /-- the mark of `trig` (R233) -/
  | trig
  /-- the header read of `sver` (R291); its second result goes to `d2` -/
  | sver (va : Nat) (d2 : Dest)
  /-- a write to `dx.xrel` for receive entry `x` of die `die` (R251) -/
  | xrel (die x : Nat)
  deriving DecidableEq, Repr

/-- A core-path operation that has issued and is not performed: its number, the address of its instruction, what it
does, where its result goes, the core and the cycle it issued in. -/
structure CoreOp where
  sn : Nat
  core : Nat := 0
  pc : Word
  kind : OpKind
  dest : Dest := .drop
  since : Nat := 0
  deriving DecidableEq, Repr

/-- The causes of a trap (R72). -/
inductive Cause where
  | illegal | bound | rights | align | space | subnormal | timer | soft | brk | engine | xlate | walkchild
  | peerlost | skeinstale | skeinbusy | qwedge | checksum
  deriving DecidableEq, Repr

/-- Which event delivers a result. -/
inductive RetKind where
  | load | divide | bank | launch | chain | skein | distaff | drain
  deriving DecidableEq, Repr

/-- A result on its way back to its strand: the operation that stops counting when it arrives (R138), the values, the
trap that the reply raises instead (R281), and whether the strand is held until it arrives. -/
structure Ret where
  kind : RetKind
  sn : Nat
  dests : List (Dest × Word)
  trap : Option (Cause × Word) := none
  deriving DecidableEq, Repr

/-- A tile record (R230). -/
structure Tile where
  expert : BitVec 16 := 0
  tile : BitVec 16 := 0
  rows : BitVec 8 := 0
  flags : BitVec 8 := 0
  rowbase : Word := 0
  deriving DecidableEq, Repr

/-- A launch header (R223): sixteen dwords. -/
abbrev Header := Vector Word 16

/-- A message of a strand to the placer, a chain, or the distaff, on its way (R232, R238, R271, R273), with its number and the
cycle at which it was sent. -/
inductive Msg where
  | launch (sn since : Nat) (hdr : Header) (tiles : List Tile) (handles : List Handle) (bad : Bool) (die : Nat) (dest : Dest)
  | chplay (sn since : Nat) (k : Word) (patch : List Byte) (dest : Dest)
  | plrd (sn since : Nat) (arg : Word) (dest : Dest)
  | plswitch (sn since : Nat) (rgn : Nat) (recs : List (Nat × Word × Word × Word)) (bad : Bool) (dest : Dest)
  deriving DecidableEq, Repr

/-- A recorded `xfence` (R141): the operations of its before-set not yet performed, and its after-set, LD ST CP MX DX CL
from bit 5 down. -/
structure Fence where
  wait : List Nat
  aset : BitVec 6
  deriving DecidableEq, Repr

/-- An arrival of a rank at barrier register `b` of core `home` that waits for the strand's earlier core-path operations
(R164): the numbers of those that may be left. -/
structure Arrival where
  home : Nat
  b : Nat
  rank : Nat
  after : List Nat
  since : Nat := 0
  /-- the first cycle in which it may be recorded, once those are performed -/
  clear : Option Nat := none
  deriving DecidableEq, Repr

/-- An engine command that answers a word and has issued, but may not begin yet (R131, R140): its number, instruction,
operand, what it waits for, and where its answer goes. -/
structure LateCmd where
  sn : Nat
  instr : Instr
  arg : Word := 0
  after : List Nat
  dest : Dest
  deriving DecidableEq, Repr

/-- An entry of the vector sequencer (R92): one instruction, or a loop. `scal` is the captured scalar operand of `vbcast`
and `vins`; `region` and `off` the access of `ldv` and `stv`; `sn` the number that it counts under on LD or ST. -/
structure SeqEntry where
  instr : Instr
  pc : Word
  scal : Word := 0
  region : Region := {}
  off : Word := 0
  dest : Dest := .drop
  sn : Nat := 0
  deriving DecidableEq, Repr

/-- What the sequencer holds in one place: an instruction, or a loop with its body, its remaining count, its stride, the
repetition and the position it has reached (R94), and the numbers of its further counts on LD and ST (R95). -/
inductive SeqItem where
  | one (e : SeqEntry)
  | loop (body : List SeqEntry) (cnt : Word) (str : Word) (rep : Word) (pos : Nat) (pc : Word) (ldSn stSn : Option Nat)
  deriving DecidableEq, Repr

/-- What a parked strand waits for (R62). -/
inductive ParkOn where
  /-- the word at a memory key: the waiting for full, or for empty (R121) -/
  | word (key : Nat) (full : Bool)
  /-- the word at an offset of its own slice, while the slice is saved (R67, R121) -/
  | own (off : Nat) (full : Bool)
  /-- a push into a queue port (R88) -/
  | push (p : Nat)
  /-- a pop from a queue port, or a `qpeek` (R88, R90) -/
  | pop (p : Nat)
  /-- a barrier register (R163, R165) -/
  | barrier (b : Nat)
  /-- the host's wake after a core-path fault; the token is 0 until the record is written (R306) -/
  | fault (tok : Nat)
  deriving DecidableEq, Repr

/-- The state of a strand (R62); where its context is stands in `StrandLoc`. HALTED ends a strand as ENDED does. -/
inductive StrandSt where
  | run
  | parked (on : ParkOn)
  | idle
  | ended
  deriving DecidableEq, Repr

/-- Where a strand's context is (R59, R62). -/
inductive StrandLoc where
  | slot (core slot : Nat)
  /-- moving out of a slot (SWAP) -/
  | swapOut (core slot : Nat)
  /-- moving into a slot (SWAP) -/
  | swapIn (core slot : Nat)
  | cached (core : Nat)
  | stored (core : Nat)
  /-- moving to a granted slot, or home (R257) -/
  | transit (core slot : Nat)
  /-- nowhere: ended -/
  | gone
  deriving DecidableEq, Repr

/-- A translation fault (R306, R307): the address, the access (X W R from bit 2 down), the cause, and the wake token, 0
until the record is written. -/
structure Fault1 where
  va : Nat
  acc : BitVec 3
  cause : Nat
  pc : Word
  tok : Nat
  deriving DecidableEq, Repr

/-- A strand: the context image (R63), the identity block (R66), the handle table (R117), the staged engine registers
(R172, R192, R218, R242, R263, R337), and what the core keeps beside them. -/
structure Strand where
  -- the context image
  gr : Vector Word 32 := Vector.replicate 32 0
  vr : Vector Quad 16 := Vector.replicate 16 0
  pc : Word := 0
  tvec : Word := 0
  tpc : Word := 0
  tval : Word := 0
  tcause : BitVec 8 := 0
  tmr : Word := 0
  frm : BitVec 8 := 0
  prioP : BitVec 2 := 0
  qbind : BitVec 32 := 0
  khash : Word := 0
  kbins : Word := 0
  th : Bool := false
  tw : Bool := false
  sup : Bool := false
  pair : Bool := false
  cls : BitVec 2 := 0
  wake : Bool := false
  -- the identity block
  wid : Word := 0
  grp : Word := 0
  asid : BitVec 12 := 0
  tenant : BitVec 6 := 0
  prioBase : BitVec 2 := 0
  trig : Bool := false
  lnch : Bool := false
  image : Word := 0
  imgsz : BitVec 32 := 0
  -- the handle table and the staged registers
  handles : Vector Handle 32 := Vector.replicate 32 {}
  cp : Vector Word 32 := Vector.replicate 32 0
  cpSlot : Bool := false
  mx : Vector Word 32 := Vector.replicate 32 0
  wk : Vector Word 32 := Vector.replicate 32 0
  dx : Vector Word 32 := Vector.replicate 32 0
  pl : Vector Word 32 := Vector.replicate 32 0
  cl : Vector Word 32 := Vector.replicate 32 0
  drops : BitVec 16 := 0
  denies : BitVec 16 := 0
  /-- the tokens that its completed `dsend`s dropped, for `dflush` (R254) -/
  dxDropped : Nat := 0
  -- state, place, group
  st : StrandSt := .run
  loc : StrandLoc := .gone
  ctx : Nat := 0
  /-- the slot whose slice its handles of strand space name (R114) -/
  slot0 : Nat := 0
  /-- the slot it holds, or held last: the SLOT that its partner of paired mode reads with `self` (R86) -/
  lastSlot : Nat := 0
  /-- the full words of its slice while the slice is saved, by word (R122) -/
  sliceFull : List Nat := []
  group : Nat := 0
  index : Nat := 0
  rank : Nat := 0
  /-- the home core and slot of a migrated strand (R16) -/
  home : Option (Nat × Nat) := none
  /-- its context number on its home core while it is migrated (R65) -/
  homeCtx : Nat := 0
  /-- the PC after the `migrate` that took it away from home or to its last target, for the record MIGLOST (R259, R307) -/
  migPc : Word := 0
  /-- the partner strand of paired mode (R323) -/
  partner : Option Nat := none
  -- issue
  pend : BitVec 32 := 0
  /-- the cycle of its last issue, none before the first -/
  lastIssue : Option Nat := none
  ready : Nat := 0
  parkedAt : Nat := 0
  /-- the port operation the strand parked on and has not performed: poppers and pushers are served oldest first (R88) -/
  claim : Option ParkOn := none
  /-- a wake message of the word it parked on is on its way (R121) -/
  wakeMsg : Bool := false
  tmrDue : Bool := false
  /-- the operation that holds issue until it ends (R214, R281, R319) -/
  hold : Option Nat := none
  -- outstanding operations
  outst : List (Nat × Ctr) := []
  fences : List Fence := []
  ops : List CoreOp := []
  opFault : Option Fault1 := none
  rets : List Ret := []
  msgs : List Msg := []
  arrivals : List Arrival := []
  /-- engine commands that answer a word and may not begin yet, oldest first -/
  late : List LateCmd := []
  /-- in paired mode: the numbers of its copies, drains and walks, in the order of their issue (R323) -/
  engs : List Nat := []
  -- the vector sequencer
  seq : List SeqItem := []
  seqFault : Option Fault1 := none
  /-- the number of the head entry's access once the sequencer has taken it, until it is performed (R95) -/
  taken : Option Nat := none
  vrep : BitVec 32 := 0
  vtrap : Bool := false
  vpos : BitVec 4 := 0
  /-- its `sclone` at this address has read this source header, and has written its destination BUILDING (R290) -/
  clone : Option (Word × List Byte) := none
  /-- the strand has arrived at `susp`: its register T (R282) -/
  susp : Option Dest := none
  /-- an outstanding `migrate`: target core, home flag, bytes carried, result register (R257) -/
  mig : Option (Nat × Bool × Nat × Dest) := none
  /-- the passes, states and flags of the latest walk, for `wstat` (R220) -/
  wstat : Word := 0
  deriving DecidableEq, Repr

/-- A slot of a core (R59). -/
inductive Slot where
  | free
  | live (sid : Nat)
  | swap (sid : Nat)
  /-- in SWAP, for a strand that moves in (R67) -/
  | enter (sid : Nat)
  | reserved (sid : Nat)
  /-- granted to a strand, or being cleared or restored for one, that has not started -/
  | coming (sid : Nat)
  deriving DecidableEq, Repr

/-- An entry of a queue port (R88): a value, or a reserved entry with its tag. -/
structure PortEntry where
  val : Option Word
  tag : Nat
  deriving DecidableEq, Repr

/-- A queue port (R87 to R90): its owner group and its entries, oldest first. -/
structure Port where
  owner : Option Nat := none
  vals : List PortEntry := []
  deriving DecidableEq, Repr

/-- A wait record of a barrier register (R162): the phase, the time-out taken at the park, when the park began, and the
pending status once the wait has ended. -/
structure WaitRec where
  ph : BitVec 16
  tmo : BitVec 32
  at_ : Nat
  status : Option Word
  deriving DecidableEq, Repr

/-- A barrier register of a core (R161, R162). `arrived` holds the arrivals of the instructions, `recorded` those of
them that have been recorded on the wires (R164). -/
structure BarReg where
  held : Option Nat := none
  x0 : BitVec 4 := 0
  y0 : BitVec 4 := 0
  wm1 : BitVec 4 := 0
  hm1 : BitVec 4 := 0
  mask : BitVec 8 := 0
  ph : BitVec 16 := 0
  tmo : BitVec 32 := 0
  arrived : BitVec 8 := 0
  recorded : BitVec 8 := 0
  recAt : Nat := 0
  sealed : Bool := false
  /-- the message of a seal is on its way (R167) -/
  sealDue : Bool := false
  waits : Tab WaitRec := []
  deriving DecidableEq, Repr

/-- A copy or hint (R171 to R180). `runs` counts the runs done; `bytes` the destination bytes written. -/
structure CopyCmd where
  sn : Nat
  sid : Nat
  pc : Word
  hint : Bool
  regs : Vector Word 32
  src : Region
  dst : Region
  cw : Region
  slotDst : Option Nat
  srcFmt : Nat
  srcSl : Bool
  dstFmt : Nat
  after : List Nat
  fol : Option (BitVec 32 × Word × Word)
  folSn : Nat
  run : Nat := 0
  off : Nat := 0
  bytes : Nat := 0
  /-- bytes that belong to words which the command writes in full by several runs, kept until the rest of the word is there (R136):
  the place of each from the word that the destination begins in -/
  part : List (Nat × Byte) := []
  cause : Nat := 0
  err : Bool := false
  fdrop : Bool := false
  /-- the group that a follow-on acts for -/
  group : Nat := 0
  /-- the header address and the entry of a recorded copy (R287) -/
  recorded : Option (Nat × BitVec 12 × Nat) := none
  /-- the number of the first compare of a resume at the header of a recorded copy, 0 before: the group that this resume makes gets
  its completion value (R287) -/
  cmp : Nat := 0
  /-- the wake token of the resolution of a recorded copy that a page fault stalls (R293) -/
  tok : Nat := 0
  /-- the region that a distaff copy builds (R266) -/
  pl : Option Nat := none
  deriving DecidableEq, Repr

/-- The state of a copy channel (R184). -/
inductive ChanSt where
  | free | start | move | stall | finish
  deriving DecidableEq, Repr

/-- A copy channel. -/
structure Chan where
  st : ChanSt := .free
  cmd : Option CopyCmd := none
  tok : Nat := 0
  deriving DecidableEq, Repr

/-- A claimed operand slot (R187): its first unit, its units, its group, and its 32 scales. -/
structure OpSlot where
  units : Nat
  group : Nat
  scales : Vector (BitVec 32) 32
  deriving DecidableEq, Repr

/-- An accumulator (R190): 32 rows of 128 binary32 elements as the elements that are not +0.0, by row × 128 + column;
ERR; the group that holds it. -/
structure Accum where
  el : Tab (BitVec 32) := []
  err : Bool := false
  held : Option Nat := none
  deriving DecidableEq, Repr

/-- A walk as captured at issue (R218, R219). -/
structure WalkCmd where
  regs : Vector Word 32
  nh : Region
  ih : Region
  oh : Region
  cw : Region
  df : Nat
  cacheClaimed : Bool := false
  deriving DecidableEq, Repr

/-- The kind and operands of a matrix command (R193). -/
inductive MxKind where
  | mm (acc : Nat) (t : Nat) (n : Nat) (rmask : BitVec 32) (a : Nat) (sa : Vector (BitVec 32) 32)
      (bs : List (Nat × BitVec 32))
  | clr (acc : Nat)
  | chk
  | drain (acc : Nat) (df : Nat) (sl : Bool) (regs : Vector Word 32) (dst : Region) (bias : Region)
  | walk (w : WalkCmd)
  deriving DecidableEq, Repr

/-- A matrix command (R191). `begun` when the array has taken it; `row` the rows of a drain done; `tok` the token of a
stalled drain; `bytes` the element bytes of a drain written. -/
structure MxCmd where
  sn : Nat
  sid : Nat
  group : Nat
  pc : Word
  kind : MxKind
  after : List Nat
  dest : Dest := .drop
  begun : Bool := false
  waiting : Bool := false
  row : Nat := 0
  tok : Nat := 0
  bytes : Nat := 0
  cause : Nat := 0
  /-- a merge drain whose turn has come, or a plain drain (R201) -/
  turn : Bool := false
  /-- the word that `mchk` gives -/
  val : Word := 0
  /-- once it has begun, what the array compares in it (R197): duplicated steps, and checksums -/
  steps : Bool := false
  sums : Bool := false
  deriving DecidableEq, Repr

/-- A row of the row state table (R208) with its input and its previous result. -/
structure WalkRow where
  node : BitVec 32 := 0
  leafid : BitVec 16 := 0
  depth : Nat := 0
  cause : BitVec 4 := 0
  nan : Bool := false
  st : BitVec 2 := 2
  path : BitVec 48 := 0
  input : List Byte := []
  scale : BitVec 32 := 0
  y : List (BitVec 32) := []
  deriving DecidableEq, Repr

/-- The row state table of a core (R203, R216, R217): the walk in it, its rows, passes, and whether it is held. -/
structure WalkTable where
  cmd : MxCmd
  rows : List WalkRow
  passes : Nat := 0
  held : Bool := false
  trap : Bool := false
  err : Bool := false
  /-- what the array has compared in its latest pass (R197): duplicated steps, and checksums -/
  steps : Bool := false
  sums : Bool := false
  deriving DecidableEq, Repr

/-- A core (R14, R60, R65). -/
structure Core where
  slots : Vector Slot 8 := Vector.replicate 8 .free
  ctxbase : Word := 0
  ctxn : BitVec 13 := 0
  slottab0 : Word := 0xE4E4E4E4E4E4E4E4
  slottab1 : Word := 0xE4E4E4E4E4E4E4E4
  wc : Bool := true
  parkswap : BitVec 16 := 0
  last : Vector (BitVec 3) 4 := Vector.replicate 4 7
  lastAny : BitVec 3 := 7
  /-- the cycle of the core's last issue: a core issues once in a cycle (R60) -/
  issuedAt : Option Nat := none
  /-- the cache entries, the one longest in the cache first (R68) -/
  cache : List Nat := []
  /-- context numbers in use (R65) -/
  ctxUsed : List Nat := []
  /-- pre-emptions asked for: slots (R67) -/
  swapReq : List Nat := []
  ports : Vector Port 8 := Vector.replicate 8 {}
  /-- the cycle of the last push or pop, or of the last QWEDGE (R89) -/
  portTime : Nat := 0
  bars : Vector BarReg 4 := Vector.replicate 4 {}
  bfmt : Vector (BitVec 5) 8 := Vector.replicate 8 0
  /-- the command queue of 16 entries (R171); weight copies behind them wait for a place (R266) -/
  copyq : List CopyCmd := []
  chans : Vector Chan 4 := Vector.replicate 4 {}
  /-- `cpcancel`s that wait for the end of the commands they cancelled: strand, number, commands, count, destination -/
  cancels : List (Nat × Nat × List Nat × Nat × Dest) := []
  opslots : Tab OpSlot := []
  accs : Vector Accum 2 := Vector.replicate 2 {}
  mxq : List MxCmd := []
  errCnt : BitVec 8 := 0
  errScl : Bool := false
  table : Option WalkTable := none
  /-- node images in the node cache by offset, the least recently used first (R211): slot, and offset with bytes -/
  ncache : List (Nat × Nat × List Byte) := []
  sealed : Bool := false
  deriving DecidableEq, Repr

/-- A record in a queue bank (R144, R147), the oldest insertion of its level first; `id` tells the records of the machine
apart. -/
structure BankRec where
  task : TaskRec
  id : Nat
  running : Option Nat := none
  orphan : Bool := false
  deriving DecidableEq, Repr

/-- The spill engine (R149). -/
inductive SpillSt where
  | idle | spill | refill
  deriving DecidableEq, Repr

/-- A cluster's queue bank and overflow ring registers (R144, R149, R150). -/
structure Cluster where
  bank : List BankRec := []
  /-- the number of the next insertion: counted in each cluster from 0 (log entry 67) -/
  nextSeq : Nat := 0
  qring : Word := 0
  qrlim : Word := 0
  spill : SpillSt := .idle
  /-- insertions that are stalled, and those that fail with FULL, by the number of their operation (R149) -/
  stalled : List Nat := []
  fulls : List Nat := []
  deriving DecidableEq, Repr

/-- A fault record (R307): its ring (a tenant, or none for the system ring) and its four dwords. -/
structure FaultRec where
  tenant : Option Nat
  d0 : Word
  d1 : Word
  d2 : Word
  d3 : Word
  deriving DecidableEq, Repr

/-- An override entry (R243). -/
structure Ovr where
  v : Bool := true
  asid : BitVec 12
  expert : BitVec 9
  layer : BitVec 16
  mask : BitVec 32
  id : BitVec 32
  deriving DecidableEq, Repr

/-- A token in the dispatch engine (R244 to R249): its command, its index, its identifier, its payload, its choices with
their scores as binary32, the number of the choice in use, whether choice 0 was forced, the replica of each choice, and the
region and version that it was routed by. -/
structure Token where
  cmd : Nat
  idx : Nat
  id : BitVec 32
  choices : List (Nat × BitVec 32)
  choice : Nat
  ovr : Bool
  reps : List (Option (Nat × Nat × Nat))
  bytes : List Byte
  region : Nat
  ver : BitVec 16
  deriving DecidableEq, Repr

/-- A send list (R249): its strand and address space, its destination (package, die, receive index), its payload size, its
tokens, and the cycle at which the first entered. -/
structure SendList where
  sid : Nat
  asid : BitVec 12
  dest : Nat × Nat × Nat
  rb : Nat
  toks : List Token
  since : Nat
  hold : Bool
  /-- sent: the request is on its way or waits for its reply -/
  sent : Bool := false
  deriving DecidableEq, Repr

/-- A reply to a request (R249): the list, the first row and the number granted, and the entry's BUF, RSTR and CNTW. -/
structure GrantMsg where
  lst : SendList
  base : Nat
  count : Nat
  buf : Nat := 0
  rstr : Nat := 0
  cnt : Nat := 0
  deriving DecidableEq, Repr

/-- A granted row on its way to its die (R250): its token, its receive index, the chip-scratchpad offset of its row, that
of its counter word, its header and payload, and whether it is committed. -/
structure RowMsg where
  tok : Token
  x : Nat
  off : Nat
  cnt : Nat
  bytes : List Byte
  committed : Bool := false
  deriving DecidableEq, Repr

/-- A dispatch command (R252). `next` counts the tokens chosen. -/
structure DxCmd where
  sn : Nat
  sid : Nat
  pc : Word
  regs : Vector Word 32
  src : Region
  ids : Region
  cw : Region
  asid : BitVec 12
  after : List Nat
  serial : Nat
  next : Nat := 0
  sent : Nat := 0
  later : Nat := 0
  dropped : Nat := 0
  err : Bool := false
  stop : Bool := false
  tok : Nat := 0
  done : Bool := false
  deriving DecidableEq, Repr

/-- A `dflush` that waits (R254): the commands that it waits for, and the tokens that those before it have dropped so far. -/
structure Flush where
  sn : Nat
  sid : Nat
  cmds : List Nat
  dropped : Nat := 0
  dest : Dest
  deriving DecidableEq, Repr

/-- A `plmerge` (R274). -/
structure MergeCmd where
  sn : Nat
  sid : Nat
  pc : Word
  regs : Vector Word 32
  g : Region
  cw : Region
  ver : BitVec 16
  reps : List (Nat × Nat × Nat)
  nx : Nat
  after : List Nat
  tok : Nat := 0
  deriving DecidableEq, Repr

/-- A member of a collective (R338). -/
structure ClCmd where
  sn : Nat
  sid : Nat
  core : Nat
  pc : Word
  regs : Vector Word 32
  src : Region
  dst : Region
  cw : Region
  asid : BitVec 12
  after : List Nat
  /-- its source has been read; the bytes of the source, and of the result once the collective is complete -/
  begun : Bool := false
  vec : List Byte := []
  /-- its part is over, but for the destination, if not `written`, and the completion word -/
  fin : Bool := false
  written : Bool := false
  /-- 0, or the CAUSE that ends it -/
  cause : Nat := 0
  bytes : Nat := 0
  tok : Nat := 0
  deriving DecidableEq, Repr

/-- An open collective (R338). -/
structure Coll where
  asid : BitVec 12
  tag : BitVec 32
  m : Nat
  n : Nat
  op : Nat
  ty : Nat
  members : List ClCmd
  deriving DecidableEq, Repr

/-- A cached translation (R296, R302): the address space and generation, the first virtual address and size of the page,
the physical address, the rights (X W R) and whether D is set in memory. -/
structure TlbEntry where
  slice : Nat
  asid : BitVec 12
  gen : BitVec 8
  va : Nat
  size : Nat
  pa : Nat
  rights : BitVec 3
  dirty : Bool
  deriving DecidableEq, Repr

/-- A walk cache entry (R296, R302): a table entry of level 0, 1 or 2 that names a further table, with the range of virtual
addresses it stands for and the physical address of the table it names. -/
structure WalkHit where
  slice : Nat
  asid : BitVec 12
  gen : BitVec 8
  lvl : Nat
  va : Nat
  table : Nat
  deriving DecidableEq, Repr

/-- A die: its registers, its engines, the code of its slices (R315), and its cached translations (R302). -/
structure Die where
  hintdrop : Word := 0
  ovr : Tab Ovr := []
  xtab : Word := 0
  gown : Word := 0
  /-- the gate in the gate memory: E, D and the ASID that loaded it (R245) -/
  gate : Option (Nat × Nat × BitVec 12) := none
  lists : List SendList := []
  reqs : List SendList := []
  grants : List GrantMsg := []
  rows : List RowMsg := []
  dxq : List DxCmd := []
  flushes : List Flush := []
  dxSerial : Nat := 0
  used : Tab Nat := []
  releasing : List Nat := []
  ctrs : Tab (BitVec 32 × Bool) := []
  merges : List MergeCmd := []
  errs : Vector Word 12 := Vector.replicate 12 0
  clq : List ClCmd := []
  colls : List Coll := []
  parked : Bool := false
  dected : Bool := false
  power : BitVec 32 := 0
  temp : Nat := 0
  flits : BitVec 32 := 0
  throttled : Bool := false
  frecs : List FaultRec := []
  /-- records of units that wait for a place (R309) -/
  frecWait : List FaultRec := []
  tlb : List TlbEntry := []
  wcache : List WalkHit := []
  victim : Bool := false
  deriving DecidableEq, Repr

/-- A group on its rectangle (R15, R127, R161, R190). -/
structure Group where
  tenant : BitVec 6 := 0
  asid : BitVec 12 := 0
  launch : Option Nat := none
  /-- the lower-left core -/
  core0 : Nat := 0
  w : Nat := 1
  h : Nat := 1
  s : Nat := 1
  foot : Word := 0
  widw : Word := 0
  bank0 : Nat := 0
  nbank : Nat := 0
  cl0 : Nat := 0
  clw : Nat := 0
  ch0 : Nat := 0
  chw : Nat := 0
  bars : List Nat := []
  nacc : Nat := 0
  handles : List Handle := []
  cls : BitVec 2 := 0
  prio : BitVec 2 := 0
  gidx : Word := 0
  paired : Bool := false
  task : Bool := false
  /-- the strands by in-group index; none where a strand has ended before its skein was resumed -/
  strands : List (Option Nat) := []
  /-- the address its strands suspend to (R282) -/
  suspAddr : Option (Nat × BitVec 12) := none
  /-- the skein it is being restored from: address, address space, and whether the restore has ended -/
  restore : Option (Nat × BitVec 12) := none
  restoredFrom : Option (Nat × BitVec 12) := none
  /-- the number of the compare of the resume that made it (R286, R287); 0 for a group of a launch -/
  cmp : Nat := 0
  /-- its suspension has written the header BUILDING, with this version (R284) -/
  building : Option Word := none
  /-- the wake token of a suspension or restore that a page fault stalls (R293) -/
  tok : Nat := 0
  supResume : Bool := false
  /-- the header that a seal has left to be rewritten DROPPED, while its page faults (R284, R293) -/
  drop : Option (Nat × BitVec 12) := none
  err : Bool := false
  ended : Bool := false
  deriving DecidableEq, Repr

/-- Where a launch came from, which fixes how its lists are read (R228, R229). -/
inductive LaunchFrom where
  | host | strand (die : Nat) | chain (tenant : Nat) (k : Nat) (replay : Nat) (hdr : Nat)
  deriving DecidableEq, Repr

/-- A launch that has been accepted (R224, R225, R229). -/
structure Launch where
  hdr : Header
  tiles : List Tile := []
  tenant : BitVec 6
  asid : BitVec 12
  sup : Bool
  prio : BitVec 2
  src : LaunchFrom
  /-- dependant headers are read under ASID 0 (R229) -/
  fromHost : Bool
  handles : List Handle := []
  next : Nat := 0
  total : Nat := 0
  placed : Nat := 0
  groups : List Nat := []
  err : Bool := false
  depsDone : Bool := false
  /-- it came by a device queue (R225) -/
  dev : Bool := false
  /-- the tick is in its window, as of the last edge (R235) -/
  open_ : Bool := false
  deriving DecidableEq, Repr

/-- An entry of a launch queue: a launch, or a group to resume from a skein (R225, R286). -/
inductive QEntry where
  | launch (l : Nat)
  | resume (va : Nat) (asid : BitVec 12) (place : Word) (die : Nat) (sup : Bool) (cmp : Nat) (tok : Nat)
  deriving DecidableEq, Repr

/-- A launch queue of a tenant and priority: its entries in order of arrival (R225). -/
structure LaunchQ where
  tenant : Nat
  prio : Nat
  entries : List QEntry
  deriving DecidableEq, Repr

/-- A dependant or chain header that waits in the fabric interface (R225, R229, R237). -/
structure WaitHdr where
  hdr : Header
  handles : List Handle
  src : LaunchFrom
  fromHost : Bool
  tenant : BitVec 6
  asid : BitVec 12
  sup : Bool
  die : Nat
  deriving DecidableEq, Repr

/-- A replay of a chain in progress (R237). -/
structure Replay where
  tenant : Nat
  k : Nat
  id : Nat
  next : Nat
  live : List Nat
  deriving DecidableEq, Repr

/-- A recorded copy that has ended and whose value waits for the restore of the group of compare `cmp` (R287). -/
structure HeldVal where
  cmp : Nat
  area : BitVec 2
  idx : Nat
  off : Nat
  val : Word
  deriving DecidableEq, Repr

/-- The state of a region's version (R267). -/
inductive PlSt where
  | stable | building | publishing | draining
  deriving DecidableEq, Repr

/-- A replica region (R261, R263, R267). -/
structure PlRegion where
  rgn : Word := 0
  wb : Word := 0
  wsz : Word := 0
  pol : Word := 0
  cv : BitVec 16 := 0
  st : PlSt := .stable
  /-- entries of the pending version, and of the version before CV while it drains, by index in the region -/
  staged : Tab (Word × Word) := []
  old : Tab (Word × Word) := []
  acks : List Nat := []
  last : BitVec 2 := 0
  lent : BitVec 13 := 0
  reply : Option (Nat × Nat × Dest) := none
  deriving DecidableEq, Repr

/-- The power state of the package (R333). -/
inductive Power where
  | off | wiping | wiped | ready | run
  deriving DecidableEq, Repr

/-- An operation that is stalled on a translation fault, by its wake token (R308). -/
inductive Stalled where
  | core (sid : Nat)
  | fetch (sid : Nat)
  | seq (sid : Nat)
  | copy (core chan : Nat)
  | drain (core sn : Nat)
  | dispatch (die sn : Nat)
  | walk (sid : Nat)
  | merge (die sn : Nat)
  | coll (die sn : Nat)
  | skein
  deriving DecidableEq, Repr

/-- One Synsin access of the host (R327, R328): package memory by physical address, or a register of the control
window. -/
inductive HostAcc where
  | none
  | read (pa : Nat) (n : Nat)
  | write (pa : Nat) (data : List Byte)
  | winRead (off : Nat)
  | winWrite (off : Nat) (v : Word)
  deriving DecidableEq, Repr

/-- A message of the package to the host: an interrupt with its vector (R330), or the bytes that answer a read (R327). -/
inductive HostMsg where
  | irq (vec : Nat)
  | data (bytes : List Byte)
  deriving DecidableEq, Repr

/-- A move: what happens next, as the outside of the machine has it. The agenda lists the moves to come. -/
inductive Move where
  /-- core `core` has an issue turn -/
  | issue (core : Nat)
  /-- the step of the device or of the host that `e` names happens, at the unit `a` and its part `b` -/
  | event (e : Instr) (a b : Nat) (acc : HostAcc)
  /-- `dt` core cycles pass -/
  | pass (dt : Nat)
  /-- the oldest engine command of strand `sid` that answers a word and has waited for earlier operations begins (R131, R140) -/
  | begin (sid : Nat)
  /-- a slice of die `die` loses its `k`-th cached translation (replacement) -/
  | evict (die k : Nat)
  /-- a slice of die `die` loses its `k`-th walk cache entry (replacement) -/
  | evictWalk (die k : Nat)
  /-- an uncorrectable error in the word of a memory key (R314) -/
  | poison (key : Nat)
  /-- a corrected error, counted in error counter `ctr` of die `die` (R313, R326) -/
  | corrected (die ctr : Nat)
  /-- an uncorrectable error in one of the core's own stores (R317) -/
  | coreUe (core : Nat)
  /-- the power in mW and the temperature in 0.1 °C of a die, between the thresholds of R335 -/
  | telemetry (die : Nat) (mw temp : Nat)
  /-- a mismatch in the array of a core (R197): the accumulator, or above 1 a pass of the walk in the table, and whether a
  duplicated step differs -/
  | mismatch (core acc : Nat) (scl : Bool)
  deriving DecidableEq, Repr

/-- Two copies of a message of paired mode that were merged (R323): the result of the west one, when it returns, is copied
to the east one: strands, numbers, and the east destinations. -/
structure Twin where
  west : Nat
  wsn : Nat
  east : Nat
  esn : Nat
  dests : List Dest
  deriving DecidableEq, Repr

/-- An engine command of a strand in paired mode whose traffic is merged with its partner's (R323): the strand, number,
kind (3 dispatch, 4 merge, 5 collective), captured registers, the operations it waits for, the bytes that it reads (region,
offset, number), its destination, the completion word's region and register, the cycle, and whether both copies agree. -/
structure PairCmd where
  sid : Nat
  sn : Nat
  kind : Nat
  regs : Vector Word 32
  after : List Nat
  srcs : List (Region × Nat × Nat)
  dst : Option Region
  cw : Region
  cwr : Word
  since : Nat
  ok : Bool := false
  deriving DecidableEq, Repr

/-- What an engine of a strand in paired mode has sent, and what waits behind it (R323): the reads of its next step, which it makes
when both copies have come; bytes at their keys, a completion word at its key, a completion word in the partner's own copies, or
the end of the command's counting. -/
inductive PairAct where
  | read (spans : List (Addr × Nat))
  | bytes (cells : List Host.Cell)
  | fill (key : Nat) (v : Word)
  | own (r : Region) (o : Nat) (v : Word)
  | done
  deriving DecidableEq, Repr

/-- A message of an engine of a strand in paired mode (R323): the strand, the number of its command, and the cycle. -/
structure PairWrite where
  sid : Nat
  sn : Nat
  act : PairAct
  since : Nat
  deriving DecidableEq, Repr

/-- The state of the machine. -/
structure State where
  -- the model's own: what happens next, the strand in focus, the parts an event names, and a fresh number
  agenda : List Move := []
  cur : Nat := 0
  ua : Nat := 0
  ub : Nat := 0
  acc : HostAcc := .none
  serial : Nat := 1
  /-- time since reset, in units of 1/693 ns: a cycle of steps 0 to 3 is 630, 770, 990, 1386 units -/
  now : Nat := 0
  /-- core cycles since the cores' reset (R86) -/
  cycle : Nat := 0
  -- memory: bytes by key; the keys of full words and of poisoned words (key div 8), strictly rising
  mem : List Host.Cell := []
  full : List Nat := []
  poison : List Nat := []
  -- units
  strands : Tab Strand := []
  groups : Tab Group := []
  launches : Tab Launch := []
  cores : Tab Core := []
  clusters : Tab Cluster := []
  dies : Tab Die := []
  -- the placer
  queues : List LaunchQ := []
  rr : Vector (BitVec 6) 4 := Vector.replicate 4 0
  waitHdrs : List WaitHdr := []
  replays : List Replay := []
  heldVals : List HeldVal := []
  -- the tick
  tickp : BitVec 32 := 33333333
  tickpNext : BitVec 32 := 33333333
  ticks : BitVec 32 := 0
  tickTime : Nat := 0
  -- the host's registers
  sysdesc : Word := 0
  tentab : Word := 0
  asidtab : Word := 0
  tenants : Tab Word := []
  power : Power := .wiped
  step : BitVec 2 := 0
  life : BitVec 2 := 0
  pkg : BitVec 5 := 0
  route : Vector Byte 32 := Vector.replicate 32 0
  linksDown : List Nat := []
  linkFails : Tab Nat := []
  /-- answers to host reads and interrupts, oldest first (R327, R330) -/
  toHost : List HostMsg := []
  -- wakes and faults
  stalls : Tab Stalled := []
  -- the distaff
  regions : Tab PlRegion := []
  pltab : Tab (Word × Word) := []
  winRec : Tab Word := []
  plIdle : BitVec 48 := 0
  plWin : BitVec 8 := 1
  /-- the tick starts since Ready: a window ends at every WIN-th of them (R264) -/
  winTicks : Nat := 0
  /-- the counts that the engines gave up at the tick start that ended a window, until the distaff has used them (R264) -/
  winColl : Option (Tab (Nat × Bool)) := none
  -- the management core
  mr : Vector (BitVec 256) 4 := Vector.replicate 4 0
  fwOk : Bool := false
  /-- the identity key pair: its seeds, once they have been derived (R341) -/
  identity : Option Slh.Seeds := none
  /-- strands in an XLATE handler, whose groups' barrier time-outs stand still (R215) -/
  barHolds : List Nat := []
  /-- merged messages whose results are on their way, and merged engine commands, each strand's in issue order (R323) -/
  twins : List Twin := []
  pairCmds : List PairCmd := []
  /-- the messages of the engines of paired strands that the router has not matched, each command's in order (R323) -/
  pairWrites : List PairWrite := []
  deriving DecidableEq, Repr

/-- The machine right after reset: the wipe that a reset runs has ended, so the package is Wiped (R333, R334), every byte of
memory reads 0, every register holds its reset value, and no strand exists. The management core has verified the firmware, and
has extended MR0 and MR1 with what it measures at a reset (R340). -/
def State.reset : State := { fwOk := firmwareHolds, mr := bootMr }

/-- Why a run of the model stops with a fault. -/
inductive Fault where
  /-- An instruction is given to `exec` while no strand is in focus: the strand that `cur` names does not exist. Raised
  by every instruction of a strand. Safe: `step` never gives one, since an issue turn first finds its strand. -/
  | noStrand
  deriving DecidableEq, Repr

/-- Why a run of the model is refused. -/
inductive Refusal where
  /-- An instruction without a meaning in this model. Raised by `exec` alone. Safe: nothing is said of it. -/
  | notModelled (mnemonic : String)
  deriving DecidableEq, Repr

end Sys2Proof.Machine
end

