-- ==== Sys2Proof/Machine/Ops.lean ====
section
/-! DEFINITION. The named operations over tables, units, memory and strands, with taking a trap (R70) and returning from
one (R76). -/

namespace Sys2Proof.Machine

/-! ### Tables -/

/-- The entry of number `k`. -/
def Tab.get? {α : Type} : Tab α → Nat → Option α
  | [], _ => none
  | (j, v) :: t, k => if j = k then some v else Tab.get? t k

/-- The entry of number `k`, or the record of a unit that is not listed. -/
def Tab.getD {α : Type} (t : Tab α) (k : Nat) (d : α) : α := (Tab.get? t k).getD d

/-- Sets the entry of number `k`, keeping the numbers rising. -/
def Tab.set {α : Type} : Tab α → Nat → α → Tab α
  | [], k, v => [(k, v)]
  | (j, w) :: t, k, v =>
    if k < j then (k, v) :: (j, w) :: t
    else if k = j then (k, v) :: t
    else (j, w) :: Tab.set t k v

/-- Removes the entry of number `k`. -/
def Tab.erase {α : Type} : Tab α → Nat → Tab α
  | [], _ => []
  | (j, w) :: t, k => if j = k then Tab.erase t k else (j, w) :: Tab.erase t k

/-- The numbers of a table rise strictly from above `n`. -/
def Tab.risesFrom {α : Type} : Tab α → Nat → Bool
  | [], _ => true
  | (j, _) :: t, n => decide (n ≤ j) && Tab.risesFrom t (j + 1)

/-- The numbers of a table rise strictly. -/
def Tab.wf {α : Type} (t : Tab α) : Bool := Tab.risesFrom t 0

/-- Puts a key into a strictly rising list. -/
def keyInsert (k : Nat) : List Nat → List Nat
  | [] => [k]
  | j :: t => if k < j then k :: j :: t else if k = j then j :: t else j :: keyInsert k t

/-- Takes a key out of a list. -/
def keyErase (k : Nat) : List Nat → List Nat
  | [] => []
  | j :: t => if k = j then keyErase k t else j :: keyErase k t

/-! ### Bits -/

/-- Sign extension of the low `n` bits of a word to 64 bits. -/
def sextTo (n : Nat) (w : Word) : Word := (w.setWidth n).signExtend 64

/-- The field of `n` bits from bit `lo` as a number. -/
def bits (w : Word) (lo n : Nat) : Nat := (w.extractLsb' lo n).toNat

/-- Replaces the field of `n` bits from bit `lo`. -/
def putBits (w : Word) (lo n : Nat) (v : Nat) : Word :=
  let m : Word := BitVec.ofNat 64 ((2 ^ n - 1) * 2 ^ lo)
  (w &&& ~~~ m) ||| (BitVec.ofNat 64 (v * 2 ^ lo) &&& m)

/-- A word of a Bool: 1 or 0. -/
def boolW (b : Bool) : Word := if b then 1 else 0

/-- The number whose little-endian bytes are given (R6). -/
def natOfBytes : List Byte → Nat
  | [] => 0
  | b :: t => b.toNat + 256 * natOfBytes t

/-- The `n` little-endian bytes of a number (R6). -/
def bytesOfNat : Nat → Nat → List Byte
  | 0, _ => []
  | n + 1, v => BitVec.ofNat 8 v :: bytesOfNat n (v / 256)

/-- The word in the first eight bytes of a list. -/
def wordOf (b : List Byte) : Word := BitVec.ofNat 64 (natOfBytes (b.take 8))

/-- The dword of number `i` in a list of bytes. -/
def dwordAt (b : List Byte) (i : Nat) : Word := wordOf (b.drop (8 * i))

/-- The eight bytes of a word. -/
def wordBytes (w : Word) : List Byte := bytesOfNat 8 w.toNat

/-! ### Where things are -/

/-- The number of a core: 16y + x of its die, its die, its package (R9, R12). -/
def coreKey (pkg die core : Nat) : Nat := pkg * 2048 + die * 256 + core

/-- The die of a core. -/
def dieOf (core : Nat) : Nat := core / 256

/-- The cluster of a core: its die × 16 + 4 × (y div 4) + (x div 4) (R13). -/
def clusterOf (core : Nat) : Nat :=
  dieOf core * 16 + 4 * ((core % 256) / 64) + (core % 16) / 4

/-- The core of cluster-local index `i` of a cluster (R13). -/
def clusterCore (cl i : Nat) : Nat :=
  (cl / 16) * 256 + 16 * (4 * ((cl % 16) / 4) + i / 4) + 4 * (cl % 4) + i % 4

/-- The core at whose router slice, or piece, `s` of a die stands (R13). -/
def sliceCore (die s : Nat) : Nat :=
  let c := s / 4
  let j := s % 4
  die * 256 + 16 * (4 * (c / 4) + j) + 4 * (c % 4) + j

/-- The word that `self` gives for a core and a slot, without MIG (R86). -/
def locWord (core slot : Nat) : Word := BitVec.ofNat 64 ((core / 256) * 65536 + (core % 256) * 256 + slot)

/-- The core that a location word, or LOC, names (R86, R142). -/
def locCore (w : Word) : Nat := coreKey (bits w 19 5) (bits w 16 3) (bits w 8 8)

/-- The first key of the core scratchpads; a DRAM byte's key is its physical address (R298). -/
def scratchBase : Nat := 2 ^ 52
/-- The first key of the chip scratchpads. -/
def chipBase : Nat := 2 * 2 ^ 52
/-- The first key of the operand memories. -/
def operandBase : Nat := 3 * 2 ^ 52
/-- The first key of the gate memories. -/
def gateBase : Nat := 4 * 2 ^ 52

/-- The key of a byte of core scratchpad (R115). -/
def scratchKey (core off : Nat) : Nat := scratchBase + core * 2 ^ 18 + off
/-- The key of a byte of a die's chip scratchpad (R115). -/
def chipKey (die off : Nat) : Nat := chipBase + die * 2 ^ 25 + off
/-- The key of a byte of operand memory (R187). -/
def operandKey (core off : Nat) : Nat := operandBase + core * 2 ^ 18 + off
/-- The key of a byte of gate memory (R245). -/
def gateKey (die off : Nat) : Nat := gateBase + die * 2 ^ 23 + off

/-- The key of a byte of cluster memory (R115). -/
def clusterKey (cl o : Nat) : Nat :=
  scratchKey (clusterCore cl ((o / 256) % 16)) (0x38000 + (o / 4096) * 256 + o % 256)

/-- The core whose scratchpad holds a key, if one does. -/
def keyCore? (key : Nat) : Option Nat :=
  if scratchBase ≤ key ∧ key < chipBase then some ((key - scratchBase) / 2 ^ 18) else none

/-- The cluster, and the offset in its memory, of a key in a core's share, if it is one (R115). -/
def clusterOff? (key : Nat) : Option (Nat × Nat) :=
  match keyCore? key with
  | none => none
  | some c =>
    let o := (key - scratchBase) % 2 ^ 18
    if o < 0x38000 then none
    else
      let i := (c % 256 / 16 % 4) * 4 + c % 16 % 4
      some (clusterOf c, (o - 0x38000) / 256 * 4096 + i * 256 + o % 256)

/-- The keys of one package in a part of the key space. -/
def pkgSpan (part : Nat) : Nat :=
  match part with
  | 0 => 2 ^ 47
  | 1 | 3 => 2 ^ 29
  | 2 => 2 ^ 28
  | _ => 2 ^ 26

/-- The package whose byte a key is. -/
def keyPkg (key : Nat) : Nat := key % 2 ^ 52 / pkgSpan (key / 2 ^ 52) % 32

/-! ### Memory -/

/-- What a byte that no entry lists reads as (R334): 0. -/
def unlisted : Byte := 0

/-- The byte at a key. -/
def Memory.read : List Host.Cell → Nat → Byte
  | [], _ => unlisted
  | (j, b) :: t, k => if j = k then b else Memory.read t k

/-- Writes a byte, keeping the canonical form: keys rising, no entry equal to what an unlisted key reads as. -/
def Memory.write : List Host.Cell → Nat → Byte → List Host.Cell
  | [], k, v => if v = unlisted then [] else [(k, v)]
  | (j, w) :: t, k, v =>
    if k < j then (if v = unlisted then (j, w) :: t else (k, v) :: (j, w) :: t)
    else if k = j then (if v = unlisted then t else (k, v) :: t)
    else (j, w) :: Memory.write t k v

/-- The canonical form from a key upward. -/
def Memory.wfFrom : List Host.Cell → Nat → Bool
  | [], _ => true
  | (j, b) :: t, n => decide (n ≤ j) && decide (b ≠ unlisted) && Memory.wfFrom t (j + 1)

/-- The canonical form of memory. -/
def Memory.wf (m : List Host.Cell) : Bool := Memory.wfFrom m 0

/-- `n` bytes from a key, byte by byte. -/
def Memory.readAll (m : List Host.Cell) (k : Nat) : Nat → List Byte
  | 0 => []
  | n + 1 => Memory.read m k :: Memory.readAll m (k + 1) n

/-- `n` bytes from a key: `Memory.readAll`, past the entries below the key. -/
def Memory.readN : List Host.Cell → Nat → Nat → List Byte
  | [], k, n => Memory.readAll [] k n
  | (j, b) :: t, k, n => if j < k then Memory.readN t k n else Memory.readAll ((j, b) :: t) k n

/-- Writes bytes from a key upward, byte by byte. -/
def Memory.writeAll (m : List Host.Cell) (k : Nat) : List Byte → List Host.Cell
  | [] => m
  | b :: t => Memory.writeAll (Memory.write m k b) (k + 1) t

/-- Writes bytes from a key upward: `Memory.writeAll`, past the entries below the key. -/
def Memory.writeN : List Host.Cell → Nat → List Byte → List Host.Cell
  | [], k, v => Memory.writeAll [] k v
  | (j, b) :: t, k, v => if j < k then (j, b) :: Memory.writeN t k v else Memory.writeAll ((j, b) :: t) k v

/-- The bytes at a key. -/
def State.readBytes (s : State) (key n : Nat) : List Byte := Memory.readN s.mem key n

/-- The number in `n` bytes at a key. -/
def State.readNat (s : State) (key n : Nat) : Nat := natOfBytes (s.readBytes key n)

/-- Takes the poison marks off the words that a write of `n` bytes from `key` covers whole (R314). -/
def clearPoison (p : List Nat) (key n : Nat) : List Nat :=
  if p.isEmpty then p else p.filter fun w => !(decide (key ≤ 8 * w) && decide (8 * w + 8 ≤ key + n))

/-- A raw write of bytes at a key (R119, R314): full/empty bits stay as they are. -/
def State.writeBytes (s : State) (key : Nat) (b : List Byte) : State :=
  { s with mem := Memory.writeN s.mem key b, poison := clearPoison s.poison key b.length }

/-- Byte `n` of a write that goes byte by byte, at key `k`: the mark goes off a word that the write has now covered whole
(R314). -/
def State.runByte (s : State) (k n : Nat) (b : Byte) : State :=
  let s := s.writeBytes k [b]
  if 7 ≤ n then { s with poison := clearPoison s.poison (k - 7) 8 } else s

/-- Whether some of `n` bytes from a key lie in a poisoned word (R314). -/
def State.poisoned (s : State) (key n : Nat) : Bool :=
  s.poison.any fun w => decide (key < 8 * w + 8) && decide (8 * w < key + n)

/-- The full/empty bit of the word at a key (R120). -/
def State.isFull (s : State) (key : Nat) : Bool := s.full.contains (key / 8)

/-- Sets the full/empty bit of a word. -/
def State.setFull (s : State) (key : Nat) (b : Bool) : State :=
  { s with full := if b then keyInsert (key / 8) s.full else keyErase (key / 8) s.full }

/-- Sets `n` bytes from a key to 0 and their words empty (R122, R127). -/
def State.clearRange (s : State) (key n : Nat) : State :=
  { s with
    mem := s.mem.filter fun c => !(decide (key ≤ c.1) && decide (c.1 < key + n))
    full := s.full.filter fun w => !(decide (key ≤ 8 * w) && decide (8 * w < key + n))
    poison := s.poison.filter fun w => !(decide (key ≤ 8 * w) && decide (8 * w < key + n)) }

/-! ### Units -/

/-- A strand by number. -/
def State.strand? (s : State) (sid : Nat) : Option Strand := Tab.get? s.strands sid
/-- Replaces a strand. -/
def State.setStrand (s : State) (sid : Nat) (t : Strand) : State := { s with strands := Tab.set s.strands sid t }
/-- Changes a strand, if it exists. -/
def State.modStrand (s : State) (sid : Nat) (f : Strand → Strand) : State :=
  match s.strand? sid with
  | some t => s.setStrand sid (f t)
  | none => s

/-- A core. -/
def State.core (s : State) (c : Nat) : Core := Tab.getD s.cores c {}
/-- Replaces a core. -/
def State.setCore (s : State) (c : Nat) (k : Core) : State := { s with cores := Tab.set s.cores c k }
/-- Changes a core. -/
def State.modCore (s : State) (c : Nat) (f : Core → Core) : State := s.setCore c (f (s.core c))

/-- A cluster. -/
def State.cluster (s : State) (c : Nat) : Cluster := Tab.getD s.clusters c {}
/-- Changes a cluster. -/
def State.modCluster (s : State) (c : Nat) (f : Cluster → Cluster) : State :=
  { s with clusters := Tab.set s.clusters c (f (s.cluster c)) }

/-- A die. -/
def State.die (s : State) (d : Nat) : Die := Tab.getD s.dies d {}
/-- Changes a die. -/
def State.modDie (s : State) (d : Nat) (f : Die → Die) : State :=
  { s with dies := Tab.set s.dies d (f (s.die d)) }

/-- A group. -/
def State.group (s : State) (g : Nat) : Group := Tab.getD s.groups g {}
/-- Changes a group, if it exists. -/
def State.modGroup (s : State) (g : Nat) (f : Group → Group) : State :=
  match Tab.get? s.groups g with
  | some x => { s with groups := Tab.set s.groups g (f x) }
  | none => s

/-- Changes a launch, if it exists. -/
def State.modLaunch (s : State) (l : Nat) (f : Launch → Launch) : State :=
  match Tab.get? s.launches l with
  | some x => { s with launches := Tab.set s.launches l (f x) }
  | none => s

/-- The entry of number `i` of a vector; 0 to the size minus 1. -/
def vget {α : Type} {n : Nat} (v : Vector α n) (i : Nat) (d : α) : α := v[i]?.getD d

/-- Replaces the entry of number `i` of a vector. -/
def vset {α : Type} {n : Nat} (v : Vector α n) (i : Nat) (x : α) : Vector α n := v.setIfInBounds i x

/-- Changes a queue port of a core. -/
def State.modPort (s : State) (c p : Nat) (f : Port → Port) : State :=
  s.modCore c fun k => { k with ports := vset k.ports p (f (vget k.ports p {})) }

/-- Adds 1 to an error counter of a die, by its offset div 8 (R325): saturating. -/
def State.countErr (s : State) (d i : Nat) : State :=
  s.modDie d fun x =>
    let v := vget x.errs i 0
    { x with errs := vset x.errs i (if v = BitVec.allOnes 64 then v else v + 1) }

/-- A fresh number. -/
def State.fresh (s : State) : Nat × State := (s.serial, { s with serial := s.serial + 1 })

/-- Traffic to a package has a link (R336): it is this package, or ROUTE names a link for it that is up. Otherwise it
waits, unperformed. -/
def State.pkgUp (s : State) (p : Nat) : Bool :=
  decide (p = s.pkg.toNat) ||
    (let l := (vget s.route p 0xFF).toNat
     decide (l ≠ 0xFF) && !s.linksDown.contains l)

/-! ### Strands -/

/-- The core and slot of a strand that is LIVE. -/
def Strand.place? (t : Strand) : Option (Nat × Nat) :=
  match t.loc with
  | .slot c k => some (c, k)
  | _ => none

/-- The core a strand runs on, or whose cache or memory holds it. -/
def Strand.core (t : Strand) : Nat :=
  match t.loc with
  | .slot c _ | .swapOut c _ | .swapIn c _ | .cached c | .stored c | .transit c _ => c
  | .gone => 0

/-- The slot of a strand; 0 where it holds none, the model's choice for STATUS.SLOT of such a strand's image (R63; log entry 62). -/
def Strand.slot (t : Strand) : Nat :=
  match t.loc with
  | .slot _ k | .swapOut _ k | .swapIn _ k | .transit _ k => k
  | _ => 0

/-- The strand is migrated: STATUS.MIG (R74). -/
def Strand.isMig (t : Strand) : Bool := t.home.isSome

/-- The core where a strand's group, ports and barriers are (R16, R144). -/
def Strand.homeCore (t : Strand) : Nat :=
  match t.home with
  | some (c, _) => c
  | none => t.core

/-- A counter of CNT (R138): the operations that count on it. -/
def Strand.count (t : Strand) (c : Ctr) : Nat := (t.outst.filter fun x => x.2 = c).length

/-- Ends the counting of an operation on every counter (R138), and drops it from the fences (R141). -/
def Strand.uncount (t : Strand) (sn : Nat) : Strand :=
  { t with
    outst := t.outst.filter fun x => !(x.1 == sn)
    fences := t.fences.map fun f => { f with wait := f.wait.filter fun n => !(n == sn) } }

/-- A g register's stored value; g0 reads 0 (R28). -/
def Strand.g (t : Strand) (r : BitVec 5) : Word := if r = 0 then 0 else vget t.gr r.toNat 0

/-- Writes a g register's stored value; a write to g0 is discarded (R28). -/
def Strand.setG (t : Strand) (r : BitVec 5) (v : Word) : Strand :=
  if r = 0 then t else { t with gr := vset t.gr r.toNat v }

/-- A v register. -/
def Strand.v (t : Strand) (r : BitVec 4) : Quad := vget t.vr r.toNat 0

/-- Writes a v register. -/
def Strand.setV (t : Strand) (r : BitVec 4) (q : Quad) : Strand := { t with vr := vset t.vr r.toNat q }

/-- STATUS (R74). -/
def Strand.status (t : Strand) : Word :=
  BitVec.ofNat 64 (t.slot * 2 ^ 13 + (if t.isMig then 2 ^ 12 else 0) + (if t.pair then 2 ^ 11 else 0)
    + t.cls.toNat * 2 ^ 9 + (if t.sup then 2 ^ 8 else 0) + (if t.tw then 2 else 0) + (if t.th then 1 else 0))

/-- The handle of number `i` as the table stores it. -/
def Strand.handle (t : Strand) (i : Nat) : Handle := vget t.handles i {}

/-- The value of a staged register (R172). -/
def staged (v : Vector Word 32) (i : Nat) : Word := vget v i 0

/-! ### Traps (R70, R72) -/

/-- TCAUSE of a cause (R72). -/
def Cause.code : Cause → BitVec 8
  | .illegal => 1 | .bound => 2 | .rights => 3 | .align => 4 | .space => 5 | .subnormal => 6 | .timer => 7
  | .soft => 8 | .brk => 9 | .engine => 10 | .xlate => 11 | .walkchild => 12 | .peerlost => 13
  | .skeinstale => 14 | .skeinbusy => 15 | .qwedge => 16 | .checksum => 17

/-- Trap entry of a strand that takes a trap: the cause, PC and value are saved, TH is set, and the handler begins at
TVEC (R70). -/
def Strand.takeTrap (t : Strand) (c : Cause) (val : Word) : Strand :=
  { t with tcause := c.code, tpc := t.pc, tval := val, th := true, pc := t.tvec, st := .run, claim := none }

/-- A trap cannot be taken inside a handler, nor without one (R70). -/
def Strand.halts (t : Strand) : Bool := t.th || decide (t.tvec = 0)

/-- Return from a trap (R76). -/
def Strand.eret (t : Strand) : Strand := { t with th := false, pc := t.tpc }

/-! ### Fault records (R307, R309) -/

/-- The generation of an address space, from the ASID table (R295). -/
def State.asidGen (s : State) (asid : BitVec 12) : BitVec 8 :=
  Memory.read s.mem (s.asidtab.toNat + 16 * asid.toNat)

/-- The tenant of an address space, from the ASID table (R295). -/
def State.asidTenant (s : State) (asid : BitVec 12) : BitVec 6 :=
  (Memory.read s.mem (s.asidtab.toNat + 16 * asid.toNat + 8)).setWidth 6

/-- The `self` word of a strand (R86), without paired mode. -/
def Strand.selfWord (t : Strand) : Word :=
  locWord t.core t.slot ||| (if t.isMig then 0x1000000 else 0)

/-- The second dword of a fault record (R307). -/
def faultD1 (gen : BitVec 8) (asid : BitVec 12) (tenant : BitVec 6) (eng : Nat) (acc : BitVec 3) (cause kind : Nat) : Word :=
  BitVec.ofNat 64 (gen.toNat * 2 ^ 48 + asid.toNat * 2 ^ 36 + tenant.toNat * 2 ^ 30 + eng * 2 ^ 20
    + acc.toNat * 2 ^ 16 + cause * 2 ^ 8 + kind)

/-- The second dword of a record for an address space: its generation, and the tenant of its table entry (R295, R307). -/
def State.recordWord (s : State) (asid : BitVec 12) (eng : Nat) (acc : BitVec 3) (cause kind : Nat) : Word :=
  faultD1 (s.asidGen asid) asid (s.asidTenant asid) eng acc cause kind

/-- A die's 64 places for records hold one more (R309). -/
def State.recRoom (s : State) (d : Nat) : Bool := decide ((s.die d).frecs.length < 64)

/-- The record of an address space goes to the ring of the space's tenant, or to the system's for ASID 0 (R307). -/
def State.recordOf (s : State) (asid : BitVec 12) (d0 d1 d2 d3 : Word) : FaultRec :=
  { tenant := if asid = 0 then none else some (s.asidTenant asid).toNat, d0, d1, d2, d3 }

/-- Puts a fault record into a die's places, on its way to its ring. Where all are taken, the unit that makes it waits with it
(R309). -/
def State.putRecord (s : State) (d : Nat) (asid : BitVec 12) (d0 d1 d2 d3 : Word) : State :=
  let r := s.recordOf asid d0 d1 d2 d3
  s.modDie d fun x => if x.frecs.length < 64 then { x with frecs := x.frecs ++ [r] } else { x with frecWait := x.frecWait ++ [r] }

/-- The next wake token from a number on (R308): not 0, and not the token of an outstanding record. -/
def nextTok (stalls : Tab Stalled) (n : Nat) : Nat → Nat
  | 0 => n
  | fuel + 1 => if n % 2 ^ 32 ≠ 0 && (Tab.get? stalls (n % 2 ^ 32)).isNone then n else nextTok stalls (n + 1) fuel

/-- A record of a kind that is woken: it gets a fresh wake token, under which `st` is stalled (R307, R308). -/
def State.wokenRecord (s : State) (d : Nat) (asid : BitVec 12) (eng : Nat) (kind : Nat)
    (va : Nat) (acc : BitVec 3) (cause : Nat) (where_ aux : Word) (st : Stalled) : Nat × State :=
  let n := nextTok s.stalls s.serial (s.stalls.length + 1)
  let tok := n % 2 ^ 32
  let s := { s with serial := n + 1, stalls := Tab.set s.stalls tok st }
  (tok, s.putRecord d asid (BitVec.ofNat 64 (va % 2 ^ 56)) (s.recordWord asid eng acc cause kind)
    (BitVec.ofNat 64 (tok * 2 ^ 32) ||| where_) aux)

/-! ### Wakes (R62) -/

/-- A wake reaches a strand (R62): in a slot it is RUN again from cycle `ready`; elsewhere the wake is recorded with the
context. -/
def Strand.wakeAt (t : Strand) (ready : Nat) : Strand :=
  match t.loc with
  | .slot .. => { t with st := .run, ready }
  | .gone => t
  | _ => { t with wake := true }

/-- A wake reaches a strand, which may issue from cycle `ready` (R62). -/
def State.wakeFrom (s : State) (ready sid : Nat) : State := s.modStrand sid fun t => t.wakeAt ready

/-- Makes a parked strand eligible the next cycle, or records the wake (R62). -/
def State.wake (s : State) (sid : Nat) : State := s.wakeFrom (s.cycle + 1) sid

/-- The strands that satisfy a test, by number. -/
def State.strandsWhere (s : State) (f : Nat → Strand → Bool) : List Nat :=
  (s.strands.filter fun x => f x.1 x.2).map fun x => x.1

/-- The oldest of some parked strands. -/
def oldest : List (Nat × Strand) → Option (Nat × Strand)
  | [] => none
  | x :: t =>
    match oldest t with
    | none => some x
    | some y => if y.2.parkedAt < x.2.parkedAt then some y else some x

/-- The head of a port is a value, and no reserved entry. -/
def State.portHead (s : State) (c p : Nat) : Bool :=
  match (vget (s.core c).ports p {}).vals with
  | e :: _ => e.val.isSome
  | [] => false

/-- A side of a queue port of core `c` can serve a strand parked on it (R88): a pop finds a value at the head, a push a free
entry. -/
def State.portServes (s : State) (c : Nat) (on : ParkOn) : Bool :=
  match on with
  | .pop p => s.portHead c p
  | .push p => decide ((vget (s.core c).ports p {}).vals.length < 16)
  | _ => false

/-- Wakes the strands parked on a side of a queue port of home core `c` that can be served (R88, R90): of those in slots the
oldest that holds a claim, and each `qpeek`; a strand that is not in a slot has its wake recorded. -/
def State.wakePort (s : State) (c : Nat) (on : ParkOn) : State :=
  let ps := s.strands.filter fun x => decide (x.2.st = .parked on) && decide (x.2.homeCore = c)
  let first := oldest (ps.filter fun x => x.2.place?.isSome && decide (x.2.claim = some on))
  if !s.portServes c on then s else ps.foldl (fun s x =>
    if x.2.claim ≠ some on || x.2.place?.isNone || (first.map fun y => y.1) = some x.1 then s.wake x.1 else s) s

/-- A strand gives up its claim on a side of a port: a younger claim may be served now (R88). -/
def State.claimGone (s : State) (sid : Nat) : State :=
  match s.strand? sid with
  | none => s
  | some t =>
    match t.claim with
    | some on => (s.setStrand sid { t with claim := none }).wakePort t.homeCore on
    | none => s

/-! ### The end of a strand and of a group (R62, R158, R159, R229) -/

/-- Whether a strand of group `g` whose ports are on core `c` binds port `p` (R90). -/
def State.portBound (s : State) (c p g : Nat) : Bool :=
  s.strands.any fun (_, t) =>
    decide (t.group = g) && decide (t.st ≠ .ended) && decide (t.homeCore = c) &&
      (List.range 8).any fun i => decide ((t.qbind.toNat / 16 ^ i) % 16 = 8 + p)

/-- Frees the ports of a core that group `g` owns and no longer binds (R87). -/
def State.freePorts (s : State) (c g : Nat) : State :=
  (List.range 8).foldl (fun s p =>
    if (vget (s.core c).ports p {}).owner = some g && !s.portBound c p g then s.modPort c p fun _ => {} else s) s

/-- The cores of a group's rectangle, by rectangle index (R18); with `east` the partners' of paired mode (R226). -/
def Group.cores (x : Group) (east : Bool := false) : List Nat :=
  (List.range (x.w * x.h)).map fun c => x.core0 + c % x.w + 16 * (c / x.w) + (if east then 8 else 0)

/-- Every core a group holds. -/
def Group.allCores (x : Group) : List Nat := if x.paired then x.cores ++ x.cores true else x.cores

/-- The word at a key is in the group's own slices, banks or cluster window: in paired mode each partner holds its own copy of
these (R323). -/
def Group.owns (x : Group) (key : Nat) : Bool :=
  match keyCore? key, clusterOff? key with
  | some _, some (u, o) =>
    (x.allCores.any fun c => clusterOf c == u) && decide (4096 * x.cl0 ≤ o) && decide (o < 4096 * (x.cl0 + x.clw))
  | some c, none =>
    let o := (key - scratchBase) % 2 ^ 18
    x.allCores.contains c &&
      (decide (o < 0x8000) || (decide (0x8000 * x.bank0 ≤ o) && decide (o < 0x8000 * (x.bank0 + x.nbank))))
  | none, _ => false

/-- Frees what a group holds on a core: ports, barrier registers, accumulators, operand slots (R159, R188). -/
def Core.release (k : Core) (g : Nat) : Core :=
  { k with
    ports := k.ports.map fun p => if p.owner = some g then {} else p
    bars := k.bars.map fun b => if b.held = some g then {} else b
    accs := k.accs.map fun a => if a.held = some g then {} else a
    opslots := k.opslots.filter fun x => !(decide (x.2.group = g)) }

/-- A strand of the group that is not ended, or whose operations have not all ended (R159). -/
def State.groupBusy (s : State) (g : Nat) : Bool :=
  s.strands.any fun (_, t) =>
    decide (t.group = g) && (decide (t.st ≠ .ended) || !t.outst.isEmpty || !t.ops.isEmpty || !t.arrivals.isEmpty)

/-- Ends a group whose strands have all ended with all their operations, and frees what it holds (R159, R229), its banks among
them (R127; log entry 65). -/
def State.reapGroup (s : State) (g : Nat) : State :=
  if s.groupBusy g then s
  else
    let x := s.group g
    let s := x.allCores.foldl (fun s c => s.modCore c fun k => k.release g) s
    s.modGroup g fun x => { x with ended := true }

/-- Ends the counting of an operation of a strand (R138); if the strand has ended, its group may end (R159). -/
def State.uncount (s : State) (sid sn : Nat) : State :=
  match s.strand? sid with
  | none => s
  | some t =>
    let s := s.setStrand sid (t.uncount sn)
    if t.st = .ended then s.reapGroup t.group else s

/-- An operation that is performed even when its strand ends before: a store, or a step that follows like one (R159). -/
def OpKind.isStore : OpKind → Bool
  | .store .. | .fill .. | .empty .. | .lane .. | .push .. | .xrel .. => true
  | _ => false

/-- The runs of a copy or hint (R174): n1 × … × n7, or none if N = 0. -/
def CopyCmd.total (x : CopyCmd) : Nat :=
  if bits (staged x.regs 8) 0 40 = 0 then 0
  else (List.range 7).foldl (fun n k => n * bits (staged x.regs (9 + k)) 0 32) 1

/-- A command is one of the strand's own, issued before number `lim` where one is given, and not a recorded copy or one of the
distaff. -/
def CopyCmd.ownedBy (x : CopyCmd) (sid : Nat) (lim : Option Nat := none) : Bool :=
  decide (x.sid = sid) && lim.all (fun n => decide (x.sn < n)) && x.recorded.isNone && x.pl.isNone

/-- A cancelled copy (R181): ERR, CAUSE 4, the bytes written, its follow-on discarded. -/
def CopyCmd.cancel (x : CopyCmd) : CopyCmd :=
  { x with err := true, cause := 4, bytes := x.bytes + x.off, off := 0, fdrop := x.fdrop || x.fol.isSome, fol := none, after := [] }

/-- A cancel reaches a channel (R181, R184): a command whose last byte has not landed goes to FINISH. -/
def Chan.cancel (h : Chan) (sid : Nat) (lim : Option Nat := none) : Chan :=
  match h.cmd with
  | some x =>
    if x.ownedBy sid lim && decide (h.st ≠ .free) && decide (h.st ≠ .finish) && decide (x.run < x.total) then
      { st := .finish, cmd := some x.cancel, tok := 0 }
    else h
  | none => h

/-- The commands of a strand on its core that a cancel would reach: number and the number of the follow-on (R181). -/
def Core.cancellable (k : Core) (sid : Nat) (lim : Option Nat := none) : List CopyCmd :=
  (k.copyq.filter fun x => x.ownedBy sid lim && !x.err) ++
    k.chans.toList.filterMap fun h =>
      match h.cmd with
      | some x => if h.cancel sid lim = h then none else some x
      | none => none

/-- Cancels every copy and hint of a strand on a core, of those issued before number `lim` (R181); their follow-ons no longer
count. -/
def State.cancelCopies (s : State) (c sid : Nat) (lim : Option Nat := none) : State :=
  let k := s.core c
  let xs := k.cancellable sid lim
  let fs := (xs.filter fun x => x.fol.isSome).map fun x => x.folSn
  let toks := (k.chans.toList.filter fun h => h.cancel sid lim ≠ h).map fun h => h.tok
  let s := s.setCore c { k with
    copyq := k.copyq.map fun x => if x.ownedBy sid lim && !x.err then x.cancel else x
    chans := k.chans.map fun h => h.cancel sid lim }
  let s := { s with stalls := s.stalls.filter fun x => x.1 = 0 || !toks.contains x.1 }
  s.modStrand sid fun t => fs.foldl (fun t n => t.uncount n) t

/-- Open collectives end with a CAUSE for every member that has arrived (R338, R339). -/
def Die.endColls (x : Die) (p : Coll → Bool) (cause : Nat) : Die :=
  let ms := ((x.colls.filter p).map fun c => c.members).flatten
  { x with colls := x.colls.filter fun c => !p c
           clq := x.clq ++ ms.map fun (m : ClCmd) => { m with cause, fin := true } }

/-- A collective's member that has not completed ends with a CAUSE (R159, R338): a page fault holds it no longer. -/
def ClCmd.stop (x : ClCmd) (cause : Nat) : ClCmd :=
  if !x.fin || (decide (x.cause = 0) && !x.written) then { x with cause, fin := true, tok := 0 } else x

/-- The fate of the engine operations of a strand that ends without `quit` (R159): copies and hints are cancelled, matrix
commands and a walk that have not begun are discarded, a held walk table is on its way out, `dsend` chooses no further token, and a
collective that it has joined ends with CAUSE 4. A `clred` that has not reached its home die has joined none: it ends alone (the
model's choice, log entry 74). -/
def State.abandon (s : State) (sid : Nat) (t : Strand) : State :=
  let c := t.core
  let s := s.cancelCopies c sid
  let k := s.core c
  let isWalk := fun (x : MxCmd) => match x.kind with
    | .walk _ => true
    | _ => false
  let gone := k.mxq.filter fun x => decide (x.sid = sid) && !x.begun && !isWalk x
  let s := s.setCore c { k with
    mxq := (k.mxq.filter fun x => !(decide (x.sid = sid) && !x.begun && !isWalk x)).map fun x =>
      if decide (x.sid = sid) && !x.begun then { x with cause := 4, after := [] } else x
    table := match k.table with
      | some w =>
        if w.held && decide (w.cmd.sid = sid) then some { w with held := false, cmd := { w.cmd with cause := 4 } } else some w
      | none => none }
  let s := s.modStrand sid fun t => gone.foldl (fun t x => t.uncount x.sn) t
  let s := match k.table with
    | some w => if w.held && decide (w.cmd.sid = sid) then s.modStrand sid fun t => { t with outst := t.outst ++ [(w.cmd.sn, Ctr.mx)] } else s
    | none => s
  { s with dies := s.dies.map fun (d : Nat × Die) => (d.1, ({ d.2 with
      dxq := d.2.dxq.map fun (x : DxCmd) => if x.sid = sid then { x with stop := true } else x
      clq := d.2.clq.map fun (x : ClCmd) => if x.sid = sid then x.stop 4 else x } : Die).endColls
        (fun c => c.members.any fun (m : ClCmd) => m.sid == sid) 4) }

/-- Ends a strand (R62, R158, R159): its slot, context number and RUNNING record are freed, its bindings go, its pending
loads and sequencer entries are discarded, and its group ends if it was the last. Its stores and its engine operations
go on as R159 says. -/
def State.endStrand (s : State) (sid : Nat) : State :=
  match s.strand? sid with
  | none => s
  | some t =>
    let s := (s.claimGone sid).abandon sid t
    let t := (s.strand? sid).getD t
    let s := match t.loc with
      | .slot c k | .swapOut c k | .swapIn c k | .transit c k =>
        s.modCore c fun x => { x with
          slots := vset x.slots k .free, ctxUsed := keyErase t.ctx x.ctxUsed
          swapReq := x.swapReq.filter fun j => !(j == k) }
      | .cached c => s.modCore c fun x => { x with cache := keyErase sid x.cache, ctxUsed := keyErase t.ctx x.ctxUsed }
      | .stored c => s.modCore c fun x => { x with ctxUsed := keyErase t.ctx x.ctxUsed }
      | .gone => s
    let s := match t.home with
      | some (c, k) => s.modCore c fun x => { x with
          slots := vset x.slots k .free, ctxUsed := keyErase t.homeCtx x.ctxUsed }
      | none => s
    let s := s.modCluster (clusterOf t.homeCore) fun x =>
      { x with bank := x.bank.filter fun r => !(r.running == some sid) }
    let ops := t.ops.filter fun o => o.kind.isStore
    let keep := fun (x : Nat × Ctr) => decide (x.2 ≠ .ld) && (decide (x.2 ≠ .st) || ops.any fun o => o.sn == x.1) &&
      !(t.late.any fun y => y.sn == x.1) && !(t.rets.any fun y => y.sn == x.1)
    let hc := t.homeCore
    let s := s.setStrand sid { t with
      st := .ended, loc := .gone, home := none, qbind := 0, ops := ops, rets := [], seq := [], opFault := none
      seqFault := none, taken := none, late := [], claim := none, outst := t.outst.filter keep, fences := [], hold := none
      susp := none, clone := none, mig := none, pend := 0, tmr := 0, tmrDue := false }
    let s := { s with
      barHolds := keyErase sid s.barHolds
      stalls := s.stalls.filter fun x => !(x.2 == Stalled.core sid || x.2 == Stalled.fetch sid || x.2 == Stalled.seq sid ||
        x.2 == Stalled.walk sid) }
    let s := s.freePorts hc t.group
    s.reapGroup t.group

/-- HALTED (R62): the record STRANDHALT, with the cause, PC and value of the trap that could not be taken, and the
strand's end. The launch of the strand retires with ERR (R229). -/
def State.haltStrand (s : State) (sid : Nat) (t : Strand) (c : Cause) (val : Word) : State :=
  let s := s.putRecord (dieOf t.core) t.asid t.pc (s.recordWord t.asid 15 0 c.code.toNat 0x10) t.selfWord val
  let s := s.modGroup t.group fun x => { x with err := true }
  s.endStrand sid

/-- Taking a trap (R70): the one operation for every cause. A strand that is in its handler, or has none, halts; if the
die has no place for the record of a halt, the instruction waits (R309). -/
def State.trap (s : State) (sid : Nat) (t : Strand) (c : Cause) (val : Word) : State :=
  if t.halts then
    if s.recRoom (dieOf t.core) then s.haltStrand sid t c val else s
  else (s.claimGone sid).setStrand sid (t.takeTrap c val)

end Sys2Proof.Machine
end

