-- ==== Sys2Proof/Machine/Translate.lean ====
section
/-! DEFINITION. Translation of global addresses at the home slice (R295 to R305), and the accesses to memory by address:
the loads and stores of core path, engines and device go through these. -/

namespace Sys2Proof.Machine

/-- What an access needs of a page (R303): X, W, PR from bit 2 down. -/
abbrev Acc := BitVec 3

/-- The needs of a read. -/
def accR : Acc := 1
/-- The needs of a write. -/
def accW : Acc := 2
/-- The needs of an instruction fetch. -/
def accX : Acc := 4
/-- The needs of an atomic. -/
def accRW : Acc := 3

/-- The ACC field of a fault record: R at bit 0, W at 1, X at 2 (R307). -/
def accField (a : Acc) : BitVec 3 := a

/-- The causes of a translation fault (R307). -/
def causeNotMapped : Nat := 1
/-- PROT. -/
def causeProt : Nat := 2
/-- BADPTE. -/
def causeBadPte : Nat := 3
/-- BADPA. -/
def causeBadPa : Nat := 4
/-- NOVA. -/
def causeNova : Nat := 5

/-- The home slice of a global address (R302): the XOR of nine 6-bit pieces of VA[55:7] and the ASID. -/
def homeSlice (asid : BitVec 12) (va : Nat) : Nat :=
  let u : BitVec 54 := BitVec.ofNat 54 (va / 128 % 2 ^ 49) ^^^ (BitVec.setWidth 54 asid <<< 37)
  ((List.range 9).foldl (fun (a : BitVec 6) i => a ^^^ u.extractLsb' (6 * i) 6) 0).toNat

/-- A physical address that names a byte of stacked DRAM (R298). -/
def physOk (pa : Nat) : Bool :=
  decide (pa < 2 ^ 52) && decide (pa / 2 ^ 36 % 2 ^ 8 = 0) && decide (pa % 2 ^ 36 < 0xC00000000)

/-- The index of a virtual address at a level (R297). -/
def vaIndex (va lvl : Nat) : Nat :=
  match lvl with
  | 0 => va / 2 ^ 49 % 128
  | 1 => va / 2 ^ 38 % 2048
  | 2 => va / 2 ^ 27 % 2048
  | _ => va / 2 ^ 16 % 2048

/-- The bytes of virtual address that one entry of a level stands for (R297). -/
def levelSpan (lvl : Nat) : Nat :=
  match lvl with
  | 0 => 2 ^ 49
  | 1 => 2 ^ 38
  | 2 => 2 ^ 27
  | _ => 2 ^ 16

/-- A page found by a walk: its first virtual address, size, physical address, rights, the address and value of its
entry, and the levels passed on the way with the tables that they named. -/
structure PageHit where
  va : Nat
  size : Nat
  pa : Nat
  rights : BitVec 3
  entry : Nat
  pte : Word
  path : List (Nat × Nat) := []
  deriving DecidableEq, Repr

/-- The walk of the tables from level `lvl` (R300), on `fuel` levels. -/
def walkTables (mem : List Host.Cell) (va t lvl : Nat) : Nat → Except Nat PageHit
  | 0 => .error causeBadPte
  | fuel + 1 =>
    let at_ := t + 8 * vaIndex va lvl
    if !physOk at_ then .error causeBadPa
    else
      let e : Word := wordOf (Memory.readN mem at_ 8)
      let pa := bits e 10 42 * 1024
      if e.getLsbD 0 = false then .error causeNotMapped
      else if e.getLsbD 1 = false then
        if lvl = 3 || bits e 52 2 ≠ 0 then .error causeBadPte
        else if lvl ≥ 1 && pa % 16384 ≠ 0 then .error causeBadPte
        else (walkTables mem va pa (lvl + 1) fuel).map fun p => { p with path := (lvl, pa) :: p.path }
      else if lvl < 2 || bits e 52 2 > 1 then .error causeBadPte
      else
        let size := if lvl = 3 then 2 ^ 16 else 2 ^ 27
        if pa % size ≠ 0 then .error causeBadPte
        else if !physOk pa || !physOk (pa + size - 1) then .error causeBadPa
        else .ok { va := va / size * size, size, pa, rights := e.extractLsb' 3 3, entry := at_, pte := e }

/-- The entry of an address space in the ASID table (R295). -/
def State.asidEntry (s : State) (asid : BitVec 12) : Word :=
  wordOf (s.readBytes (s.asidtab.toNat + 16 * asid.toNat) 8)

/-- A cached translation that matches (R296, R304): same slice, ASID and generation, the page holds the address, and a
write finds D set. -/
def TlbEntry.hits (e : TlbEntry) (slice : Nat) (asid : BitVec 12) (gen : BitVec 8) (va : Nat) (need : Acc) : Bool :=
  decide (e.slice = slice) && decide (e.asid = asid) && decide (e.gen = gen) && decide (e.va ≤ va)
    && decide (va < e.va + e.size) && (e.dirty || decide (need &&& accW = 0))

/-- A walk cache entry that matches (R296, R302). -/
def WalkHit.hits (e : WalkHit) (slice : Nat) (asid : BitVec 12) (gen : BitVec 8) (va : Nat) : Bool :=
  decide (e.slice = slice) && decide (e.asid = asid) && decide (e.gen = gen) && decide (e.va = va / levelSpan e.lvl * levelSpan e.lvl)

/-- Where a walk begins (R300, R302): the deepest level whose table a walk cache entry of the slice names, or ROOT. -/
def walkStart (wcache : List WalkHit) (slice : Nat) (asid : BitVec 12) (gen : BitVec 8) (va root : Nat) : Nat × Nat :=
  let at_ := fun (l : Nat) => wcache.find? fun e => decide (e.lvl = l) && e.hits slice asid gen va
  match at_ 2, at_ 1, at_ 0 with
  | some e, _, _ => (e.table, 3)
  | none, some e, _ => (e.table, 2)
  | none, none, some e => (e.table, 1)
  | none, none, none => (root, 0)

/-- The entries of a cache with a new one behind them: a slice that holds `n` loses its oldest (R302). -/
def capped {α : Type} (mine : α → Bool) (n : Nat) (l : List α) (e : α) : List α :=
  (if (l.filter mine).length < n then l else l.eraseP mine) ++ [e]

/-- The walk cache with the tables that a walk has passed (R302): 256 entries in a slice. -/
def cacheWalk (slice : Nat) (asid : BitVec 12) (gen : BitVec 8) (va : Nat) (path : List (Nat × Nat)) (l : List WalkHit) :
    List WalkHit :=
  path.foldl (fun l x => capped (fun e => decide (e.slice = slice)) 256 l
    { slice, asid, gen, lvl := x.1, va := va / levelSpan x.1 * levelSpan x.1, table := x.2 }) l

/-- Translates one access at its home slice of die `d` (R300 to R304): a fault's cause, or the physical address with A
and D set and the translation cached. A hint sets no bit (R310). -/
def State.translate (s : State) (d : Nat) (asid : BitVec 12) (va : Nat) (need : Acc) (hint : Bool := false) :
    Except Nat (Nat × State) :=
  if va ≥ 2 ^ 56 then .error causeNova
  else
    let ent := s.asidEntry asid
    if ent.getLsbD 63 = false then .error causeNotMapped
    else
      let gen : BitVec 8 := ent.extractLsb' 0 8
      let slice := homeSlice asid va
      match (s.die d).tlb.find? fun e => e.hits slice asid gen va need with
      | some e =>
        if need &&& ~~~ e.rights ≠ 0 then .error causeProt else .ok (e.pa + (va - e.va), s)
      | none =>
        let (table, lvl) := walkStart (s.die d).wcache slice asid gen va (bits ent 10 42 * 1024)
        match walkTables s.mem va table lvl (4 - lvl) with
        | .error c => .error c
        | .ok p =>
          if need &&& ~~~ p.rights ≠ 0 then .error causeProt
          else if hint then .ok (p.pa + (va - p.va), s)
          else
            let w := decide (need &&& accW ≠ 0)
            let pte := p.pte ||| 0x100 ||| (if w then 0x200 else 0)
            let s := if pte = p.pte then s else s.writeBytes p.entry (wordBytes pte)
            let e : TlbEntry := { slice, asid, gen, va := p.va, size := p.size, pa := p.pa, rights := p.rights
                                  dirty := pte.getLsbD 9 }
            let s := s.modDie d fun x =>
              { x with
                tlb := capped (fun y => decide (y.slice = slice)) 2048
                  (x.tlb.filter fun y => !(decide (y.slice = slice) && decide (y.asid = asid) && decide (y.va = p.va))) e
                wcache := cacheWalk slice asid gen va p.path x.wcache }
            .ok (p.pa + (va - p.va), s)

/-- The key of an address, translated on die `d` where it is global. -/
def State.resolve (s : State) (d : Nat) (a : Addr) (need : Acc) : Except Nat (Nat × State) :=
  match a with
  | .phys k => .ok (k, s)
  | .virt asid va => s.translate d asid va need

/-- Reads `n` bytes at an address by words that do not cross a page, by steps of at most 8 bytes: for the device's own
reads of structures (R327, R329). -/
def State.readVirt (s : State) (d : Nat) (asid : BitVec 12) (va : Nat) : Nat → Except (Nat × Nat) (List Byte × State)
  | 0 => .ok ([], s)
  | n + 1 =>
    match s.translate d asid va accR with
    | .error c => .error (c, va)
    | .ok (k, s) =>
      match State.readVirt s d asid (va + 1) n with
      | .error e => .error e
      | .ok (b, s) => .ok (Memory.read s.mem k :: b, s)

/-- The packages that `n` bytes from a virtual address reach have links (R336), page by page. -/
def State.virtUp (s : State) (d : Nat) (asid : BitVec 12) (va n : Nat) (need : Acc) : Bool :=
  decide (n = 0) || (List.range (n / 4096 + 2)).all fun i =>
    match s.translate d asid (Nat.min (va + 4096 * i) (va + n - 1)) need with
    | .ok (k, _) => s.pkgUp (keyPkg k)
    | .error _ => true

/-- Writes bytes at a virtual address, behind `n` bytes of the same write. -/
def State.writeVirtGo (s : State) (d : Nat) (asid : BitVec 12) (va n : Nat) : List Byte → Except (Nat × Nat) State
  | [] => .ok s
  | b :: t =>
    match s.translate d asid va accW with
    | .error c => .error (c, va)
    | .ok (k, s) => State.writeVirtGo (s.runByte k n b) d asid (va + 1) (n + 1) t

/-- Writes bytes at a virtual address: for the device's own writes. -/
def State.writeVirt (s : State) (d : Nat) (asid : BitVec 12) (va : Nat) (b : List Byte) : Except (Nat × Nat) State :=
  s.writeVirtGo d asid va 0 b

/-- The key of an offset from a virtual address, if it translates. -/
def atVirt (d : Nat) (asid : BitVec 12) (va : Nat) (s : State) (o : Nat) : Option Nat :=
  (s.translate d asid (va + o) accR).toOption.map fun x => x.1

/-- Poisoned words that a move of a context carries stay poisoned where they come to lie (R314; log entry 70): of `n` bytes, word by
word, from the keys that `src` gives in `s0` to those that `dst` gives. -/
def State.carryPoison (s s0 : State) (n : Nat) (src dst : State → Nat → Option Nat) : State :=
  if s0.poison.isEmpty then s
  else (List.range (n / 8)).foldl (fun s w =>
    match src s0 (8 * w), dst s (8 * w) with
    | some a, some b => if s0.poisoned a 8 then { s with poison := keyInsert (b / 8) s.poison } else s
    | _, _ => s) s

/-- Whether some of `n` bytes from a virtual address, by whole words, lie in a poisoned word (R314). -/
def State.badVirt (s : State) (d : Nat) (asid : BitVec 12) (va n : Nat) : Bool :=
  !s.poison.isEmpty && (List.range (n / 8)).any fun w => (atVirt d asid va s (8 * w)).any fun k => s.poisoned k 8

/-- The die at whose slices the host interface and the placer translate (R302; log entry 49): the first of the package. -/
def State.ioDie (s : State) : Nat := s.pkg.toNat * 8

/-- The dword at a virtual address under ASID 0 as a unit of die `d` reads it, or 0 where the address does not translate. -/
def State.dwordOn (s : State) (d va : Nat) : Word :=
  match s.readVirt d 0 va 8 with
  | .ok (b, _) => wordOf b
  | .error _ => 0

/-- Writes bytes at a virtual address under ASID 0 from a unit of die `d`; nothing where it does not translate. -/
def State.putOn (s : State) (d va : Nat) (b : List Byte) : State :=
  match s.writeVirt d 0 va b with
  | .ok s => s
  | .error _ => s

/-- What a read of `n` bytes under ASID 0 from a unit of die `d` leaves of the pages it meets (R304): A set. -/
def State.touch (s : State) (d va n : Nat) : State :=
  match s.readVirt d 0 va n with
  | .ok (_, s) => s
  | .error _ => s

/-- The dword at a virtual address under ASID 0, for the host interface and the placer. -/
def State.sysDword (s : State) (va : Nat) : Word := s.dwordOn s.ioDie va

/-- Writes bytes at a virtual address under ASID 0, for the host interface and the placer. -/
def State.putSysBytes (s : State) (va : Nat) (b : List Byte) : State := s.putOn s.ioDie va b

/-- Writes a dword at a virtual address under ASID 0, for the host interface and the placer. -/
def State.putSysDword (s : State) (va : Nat) (w : Word) : State := s.putSysBytes va (wordBytes w)

end Sys2Proof.Machine
end

