-- ==== Sys2Proof/Machine/Operands.lean ====
section
/-! DEFINITION. Operands: the registers an instruction reads and writes, the queue ports that can stand for them (R87,
R88), pending registers (R80), the stalls of R60, handles and their access check (R114 to R118), wakes (R62, R121). -/

namespace Sys2Proof.Machine

/-! ### What an instruction reads, writes and counts on -/

/-- The g registers that an instruction reads, in the order of their fields from bit 31 downward (R88). -/
def readsOf (i : Instr) : List GReg :=
  match i with
  | .add _ a b | .sub _ a b | .and _ a b | .or _ a b | .xor _ a b | .andn _ a b | .shl _ a b | .shr _ a b | .sra _ a b
      | .slt _ a b | .sltu _ a b | .min _ a b | .max _ a b | .minu _ a b | .maxu _ a b | .seq _ a b | .addw _ a b |
      .subw _ a b | .shlw _ a b | .shrw _ a b | .sraw _ a b | .mul _ a b | .mulh _ a b | .mulhu _ a b | .mulw _ a b |
      .div _ a b | .divu _ a b | .rem _ a b | .remu _ a b | .divw _ a b | .remw _ a b | .bext _ a b | .sext _ a b |
      .zext _ a b | .beq a b _ | .bne a b _ | .blt a b _ | .bge a b _ | .bltu a b _ | .bgeu a b _ | .vbegin a b _ |
      .qbind _ a b | .spawn _ a b | .spawnd _ a b | .migrate _ a b | .bset _ a b _ | .mm a b _ _ | .mmg a b _ _ => [a,
      b]
  | .addi _ a _ | .andi _ a _ | .ori _ a _ | .xori _ a _ | .shli _ a _ | .shri _ a _ | .srai _ a _ | .slti _ a _ |
      .clz _ a | .ctz _ a | .popc _ a | .bswap _ a | .jalr _ a _ | .qunbind _ a | .qstat _ a | .qpeek _ a | .tqpush _
      a | .tqpop _ a | .tmr _ a | .prio _ a | .bwait _ a _ | .bto _ a _ | .ewr _ a _ | .ewrCpDest _ a | .ewrCpBfmt _ a
      | .ewrMxScsel a | .ewrMxScval a | .ewrDxOhi a | .ewrDxXrel a | .ewrPlRegion _ a | .oclaim a _ | .orel a _ |
      .wstat a _ _ | .plrd a _ | .clstat a _ _ | .syswr a _ | .syswrTmr a | .syswrFrm a | .syswrPrio a | .syswrQbind a
      | .syswrKhashKbins a _ | .syswrSlottab a _ | .syswrQring a _ | .swapreq a => [a]
  | .lis d _ _ => [d]
  | .bins d a b => [d, a, b]
  | .ldb _ _ x _ _ | .ldbu _ _ x _ _ | .ldh _ _ x _ _ | .ldhu _ _ x _ _ | .ldw _ _ x _ _ | .ldwu _ _ x _ _ | .ldd _ _
      x _ _ | .ldv _ _ x _ _ | .stv _ _ x _ _ | .ldf _ _ x | .ldfe _ _ x | .sete _ x | .fetest _ _ x | .susp _ _ x |
      .sver _ _ x => [x]
  | .stb t _ x _ _ | .sth t _ x _ _ | .stw t _ x _ _ | .std t _ x _ _ | .stef t _ x | .stf t _ x | .sdrop t _ x |
      .launch t _ x | .chplay t _ x => [t, x]
  | .amoadd _ _ x v | .amoand _ _ x v | .amoor _ _ x v | .amoxor _ _ x v | .amomin _ _ x v | .amomax _ _ x v |
      .amominu _ _ x v | .amomaxu _ _ x v | .amoswap _ _ x v | .amoaddw _ _ x v | .amofaddF32 _ _ x v => [x, v]
  | .amocas t _ x v => [t, x, v]
  | .hsub _ _ b => [b.setWidth 5 <<< 1, (b.setWidth 5 <<< 1) ||| 1]
  | .hrd _ _ b => [b]
  | .vbcast _ g _ | .vins _ g _ _ => [g.setWidth 5]
  | .resume t _ x | .sclone t _ x => [t.setWidth 5 <<< 1, (t.setWidth 5 <<< 1) ||| 1, x]
  | _ => []

/-- The g registers that an instruction writes. -/
def writesOf (i : Instr) : List GReg :=
  match i with
  | .add d _ _ | .sub d _ _ | .and d _ _ | .or d _ _ | .xor d _ _ | .andn d _ _ | .shl d _ _ | .shr d _ _ | .sra d _ _
      | .slt d _ _ | .sltu d _ _ | .min d _ _ | .max d _ _ | .minu d _ _ | .maxu d _ _ | .seq d _ _ | .addw d _ _ |
      .subw d _ _ | .shlw d _ _ | .shrw d _ _ | .sraw d _ _ | .addi d _ _ | .andi d _ _ | .ori d _ _ | .xori d _ _ |
      .shli d _ _ | .shri d _ _ | .srai d _ _ | .slti d _ _ | .li d _ | .lis d _ _ | .mul d _ _ | .mulh d _ _ | .mulhu
      d _ _ | .mulw d _ _ | .div d _ _ | .divu d _ _ | .rem d _ _ | .remu d _ _ | .divw d _ _ | .remw d _ _ | .clz d _
      | .ctz d _ | .popc d _ | .bswap d _ | .bext d _ _ | .bins d _ _ | .sext d _ _ | .zext d _ _ | .jal d _ | .jalr d
      _ _ | .widf d _ | .wid d | .self d | .cyc d | .tick d | .grp d | .hrd d _ _ | .vstat d | .qbind d _ _ | .qunbind
      d _ | .qstat d _ | .qpeek d _ | .spawn d _ _ | .spawnd d _ _ | .yield d | .migrate d _ _ | .tqpush d _ | .tqpop
      d _ | .tmr d _ | .prio d _ | .bset d _ _ _ | .barv d _ | .bwait d _ _ | .barw d _ | .bto d _ _ | .erd _ _ d |
      .cpcancel d _ | .cpstat d _ | .oclaim _ d | .orel _ d | .wstat _ d _ | .dflush d _ | .dstat d _ | .plrd _ d |
      .plswitch d | .plstat d | .clstat _ d _ | .sysrd d _ => [d]
  | .ldb t _ _ _ _ | .ldbu t _ _ _ _ | .ldh t _ _ _ _ | .ldhu t _ _ _ _ | .ldw t _ _ _ _ | .ldwu t _ _ _ _ | .ldd t _
      _ _ _ | .ldf t _ _ | .ldfe t _ _ | .fetest t _ _ | .amoadd t _ _ _ | .amoand t _ _ _ | .amoor t _ _ _ | .amoxor
      t _ _ _ | .amomin t _ _ _ | .amomax t _ _ _ | .amominu t _ _ _ | .amomaxu t _ _ _ | .amoswap t _ _ _ | .amocas t
      _ _ _ | .amoaddw t _ _ _ | .amofaddF32 t _ _ _ | .susp t _ _ | .sdrop t _ _ | .launch t _ _ | .chplay t _ _ =>
      [t]
  | .vext g _ _ _ => [g.setWidth 5]
  | .resume t _ _ | .sclone t _ _ => [t.setWidth 5 <<< 1]
  | .sver t _ _ => [t.setWidth 5 <<< 1, (t.setWidth 5 <<< 1) ||| 1]
  | .mdrain b _ _ | .mchk b _ => [b]
  | _ => []

/-- The counters that an instruction counts on, which are its classes (R138). -/
def countsOf (i : Instr) : List Ctr :=
  match i with
  | .ldb _ _ _ _ _ | .ldbu _ _ _ _ _ | .ldh _ _ _ _ _ | .ldhu _ _ _ _ _ | .ldw _ _ _ _ _ | .ldwu _ _ _ _ _ | .ldd _ _
      _ _ _ | .ldv _ _ _ _ _ | .ldf _ _ _ | .ldfe _ _ _ | .fetest _ _ _ | .tqpop _ _ | .sver _ _ _ => [.ld]
  | .stb _ _ _ _ _ | .sth _ _ _ _ _ | .stw _ _ _ _ _ | .std _ _ _ _ _ | .stv _ _ _ _ _ | .stef _ _ _ | .stf _ _ _ |
      .sete _ _ | .ksend _ _ _ | .spawn _ _ _ | .spawnd _ _ _ | .tqpush _ _ | .resume _ _ _ | .sdrop _ _ _ | .sclone _
      _ _ | .launch _ _ _ | .trig | .chplay _ _ _ => [.st]
  | .amoadd _ _ _ _ | .amoand _ _ _ _ | .amoor _ _ _ _ | .amoxor _ _ _ _ | .amomin _ _ _ _ | .amomax _ _ _ _ |
      .amominu _ _ _ _ | .amomaxu _ _ _ _ | .amoswap _ _ _ _ | .amocas _ _ _ _ | .amoaddw _ _ _ _ | .amofaddF32 _ _ _
      _ => [.ld, .st]
  | .cpgo _ | .cphint _ | .cpcancel _ _ => [.cp]
  | .mm _ _ _ _ | .mmg _ _ _ _ | .mdrain _ _ _ | .mclr _ _ | .mchk _ _ | .walk _ => [.mx]
  | .dsend _ | .dflush _ _ | .plrd _ _ | .plswitch _ | .plmerge _ => [.dx]
  | .clred _ => [.cl]
  | _ => []

/-- The instructions that take a step on the core path, or follow every earlier one (R95, R129, R157, R232, R233). -/
def onCorePath (i : Instr) : Bool :=
  match i with
  | .ldb .. | .ldbu .. | .ldh .. | .ldhu .. | .ldw .. | .ldwu .. | .ldd .. | .stb .. | .sth .. | .stw .. | .std .. |
      .ldf .. | .ldfe .. | .stef .. | .stf .. | .sete .. | .fetest .. | .amoadd .. | .amoand .. | .amoor .. | .amoxor
      .. | .amomin .. | .amomax .. | .amominu .. | .amomaxu .. | .amoswap .. | .amocas .. | .amoaddw .. | .amofaddF32
      .. | .spawn .. | .spawnd .. | .tqpush .. | .tqpop .. | .susp .. | .resume .. | .sdrop .. |
      .sclone .. | .sver .. | .launch .. | .trig | .chplay .. | .ewrDxXrel .. | .plswitch .. => true
  | _ => false

/-- The engine commands (R33). -/
def isEngine (i : Instr) : Bool :=
  match i with
  | .cpgo .. | .cphint .. | .cpcancel .. | .cpstat .. | .oclaim .. | .orel .. | .mm .. | .mmg .. | .mdrain .. | .mclr
      .. | .mchk .. | .walk .. | .wstat .. | .dsend .. | .dflush .. | .dstat .. | .plrd .. | .plswitch .. | .plmerge
      .. | .plstat .. | .clred .. | .clstat .. => true
  | _ => false

/-- An engine command with W = 1 (R140). -/
def isOrdered (i : Instr) : Bool :=
  match i with
  | .cpgo w | .cphint w | .cpcancel _ w | .cpstat _ w | .mm _ _ _ w | .mmg _ _ _ w | .mdrain _ _ w | .mclr _ w | .mchk _ w |
      .walk w | .wstat _ _ w | .dsend w | .dflush _ w | .dstat _ w | .plmerge w | .clred w | .clstat _ _ w => w == 1
  | _ => false

/-- The V-format instructions, `ldv` and `stv`: they take a sequencer entry (R92). -/
def isVector (i : Instr) : Bool :=
  match i with
  | .ldv .. | .stv .. | .vadd .. | .vsub .. | .vmul .. | .vfma .. | .vmin .. | .vmax .. | .vabs .. | .vneg .. | .vand ..
  | .vor .. | .vxor .. | .vshl .. | .vshr .. | .vcmpeq .. | .vcmplt .. | .vcmple .. | .vsel .. | .vdot .. | .vaddsat ..
  | .vsubsat .. | .vmulh .. | .vcvt .. | .vrcp .. | .vrsqrt .. | .vsqrt .. | .vdiv .. | .vexp2 .. | .vlog2 .. | .vtanh ..
  | .vsigm .. | .vbcast .. | .vins .. | .vext .. | .vshuf .. | .vzip .. | .vunzip .. | .vredsum .. | .vredmax ..
  | .vredmin .. | .vsort .. | .vmerge .. | .vsrch .. | .vcompress .. | .vexpand .. | .vpopc .. | .vfirst .. | .ksend .. => true
  | _ => false

/-- The forms that interpret bf16 or f32 lanes (R48), which can raise SUBNORMAL. -/
def interpretsTrapFlt (i : Instr) : Bool :=
  match i with
  | .vadd _ _ _ y | .vsub _ _ _ y | .vmul _ _ _ y | .vfma _ _ _ _ y | .vmin _ _ _ y | .vmax _ _ _ y
  | .vcmpeq _ _ _ y | .vcmplt _ _ _ y | .vcmple _ _ _ y | .vrcp _ _ y | .vrsqrt _ _ y | .vsqrt _ _ y | .vdiv _ _ _ y
  | .vexp2 _ _ y | .vlog2 _ _ y | .vtanh _ _ y | .vsigm _ _ y | .vredsum _ _ y | .vredmax _ _ y | .vredmin _ _ y
  | .vsort _ _ _ y | .vmerge _ _ _ _ y | .vsrch _ _ _ _ y => y.isTrapFlt
  | .vdot _ _ _ _ y => y.isFlt
  | .vcvt _ _ s0 _ _ => s0.isTrapFlt
  | _ => false

/-! ### Queue ports (R87, R88) -/

/-- The port that a register is bound to; bindings are suspended in a migrated strand (R87). -/
def Strand.bound? (t : Strand) (r : GReg) : Option Nat :=
  if t.isMig then none
  else if 16 ≤ r.toNat ∧ r.toNat ≤ 23 then
    let f := (t.qbind.toNat / 16 ^ (r.toNat - 16)) % 16
    if f ≥ 8 then some (f - 8) else none
  else none

/-- A port of the strand's home core. -/
def State.port (s : State) (t : Strand) (p : Nat) : Port := vget (s.core t.homeCore).ports p {}

/-- Another strand of the core, in a slot, holds an older claim on the same side of the port (R88). -/
def State.olderClaim (s : State) (sid : Nat) (t : Strand) (on : ParkOn) : Bool :=
  s.strands.any fun (j, u) =>
    decide (u.claim = some on) && decide (u.homeCore = t.homeCore) && u.place?.isSome && decide (j ≠ sid) &&
      (decide (t.claim ≠ some on) || decide (u.parkedAt < t.parkedAt) ||
        (decide (u.parkedAt = t.parkedAt) && decide (j < sid)))

/-- Parks a strand at its instruction (R62); a claim it had on the same port side keeps its place, and any other goes. -/
def State.park (s : State) (sid : Nat) (t : Strand) (on : ParkOn) : State :=
  if t.claim = some on then s.setStrand sid { t with st := .parked on }
  else
    let claim := match on with
      | .push _ | .pop _ => some on
      | _ => none
    (s.claimGone sid).setStrand sid { t with st := .parked on, parkedAt := s.cycle, claim }

/-- Takes the head value of a port, and wakes its parked pushers, and the poppers of the value behind. -/
def State.popPort (s : State) (t : Strand) (p : Nat) : State :=
  let s := s.modPort t.homeCore p fun x => { x with vals := x.vals.tail }
  let s := s.modCore t.homeCore fun k => { k with portTime := s.cycle }
  (s.wakePort t.homeCore (.push p)).wakePort t.homeCore (.pop p)

/-- Puts an entry into a port, and wakes its parked poppers, and the pushers that a further free entry may serve. -/
def State.pushPort (s : State) (c p : Nat) (e : PortEntry) : State :=
  let s := s.modPort c p fun x => { x with vals := x.vals ++ [e] }
  let s := s.modCore c fun k => { k with portTime := s.cycle }
  (s.wakePort c (.pop p)).wakePort c (.push p)

/-- The value of a reserved entry arrives (R88). The port's time of R89 stays: the push was the reservation (log entry 59). -/
def State.fillPort (s : State) (c p tag : Nat) (v : Word) : State :=
  let s := s.modPort c p fun x =>
    { x with vals := x.vals.map fun e => if e.tag = tag ∧ e.val = none then { e with val := some v } else e }
  s.wakePort c (.pop p)

/-- Pops the bound registers of a list, each register once, in order (R88): the values, or the port to park on. -/
def State.popAll (s : State) (sid : Nat) (t : Strand) : List GReg → List (GReg × Word) → Except Nat (State × List (GReg × Word))
  | [], got => .ok (s, got)
  | r :: rest, got =>
    match t.bound? r with
    | none => State.popAll s sid t rest got
    | some p =>
      if got.any fun x => x.1 = r then State.popAll s sid t rest got
      else
        match (s.port t p).vals with
        | ⟨some v, _⟩ :: _ =>
          if s.olderClaim sid t (.pop p) then .error p
          else State.popAll (s.popPort t p) sid t rest ((r, v) :: got)
        | _ => .error p

/-- The registers whose push room is found before the instruction is performed: `qbind` and `qunbind` change the binding
that their own result goes through, and find it then (R88, R90). -/
def pushesOf (i : Instr) : List GReg :=
  match i with
  | .qbind .. | .qunbind .. => []
  | _ => writesOf i

/-- The first port of the registers to be written that has no free entry, or where an older pusher waits (R88). -/
def State.pushBlocked (s : State) (sid : Nat) (t : Strand) (ws : List GReg) : Option Nat :=
  let ps := ws.filterMap t.bound?
  ps.find? fun p =>
    decide ((s.port t p).vals.length + (ps.filter fun q => q == p).length > 16) || s.olderClaim sid t (.push p)

/-! ### Stalls and issue (R60, R80, R306) -/

/-- A register that waits for a late result (R80). -/
def Strand.isPend (t : Strand) (r : GReg) : Bool := t.pend.getLsbD r.toNat && (t.bound? r).isNone

/-- The instructions an item of the sequencer holds. -/
def SeqItem.entries : SeqItem → List SeqEntry
  | .one e => [e]
  | .loop b .. => b

/-- The sequencer places an item holds (R92). -/
def SeqItem.used : SeqItem → Nat
  | .one _ => 1
  | .loop b .. => b.length + 1

/-- An instruction that can raise a trap while it is performed (R95). -/
def SeqEntry.trapCapable (e : SeqEntry) : Bool :=
  interpretsTrapFlt e.instr ||
    (match e.instr with
     | .ldv .. => decide (e.region.space = 2)
     | _ => false)

/-- An access of the sequencer to memory (R95). -/
def SeqEntry.isMem (e : SeqEntry) : Bool :=
  match e.instr with
  | .ldv .. | .stv .. | .ksend .. => true
  | _ => false

/-- The sequencer holds an access (R95). -/
def Strand.seqMem (t : Strand) : Bool := t.seq.any fun x => x.entries.any SeqEntry.isMem
/-- An item of the sequencer can still trap (R95): an instruction that can, or a loop that has not yet passed the last such
entry of its last repetition. -/
def SeqItem.mayTrap : SeqItem → Bool
  | .one e => e.trapCapable
  | .loop b cnt _ rep pos .. => (if rep + 1 = cnt then b.drop pos else b).any SeqEntry.trapCapable
/-- The sequencer holds an entry that can trap (R95). -/
def Strand.seqTrap (t : Strand) : Bool := t.seq.any SeqItem.mayTrap
/-- The sequencer places in use (R92). -/
def Strand.seqUsed (t : Strand) : Nat := (t.seq.map SeqItem.used).sum

/-- The bit of a class in a set of `xfence` (R34). -/
def Ctr.bit (c : Ctr) : Nat :=
  match c with
  | .ld => 5 | .st => 4 | .cp => 3 | .mx => 2 | .dx => 1 | .cl => 0

/-- A recorded fence whose after-set meets the classes and whose operations are not all performed (R141). -/
def Strand.fenced (t : Strand) (cs : List Ctr) : Bool :=
  t.fences.any fun f => !f.wait.isEmpty && cs.any fun c => f.aset.getLsbD c.bit

/-- A counter that stands at 255 (R138). -/
def Strand.countFull (t : Strand) (cs : List Ctr) : Bool := cs.any fun c => decide (t.count c ≥ 255)

/-- The registers that a copy's follow-on names, which `cpgo` reads (R179). -/
def Strand.followReads (t : Strand) (i : Instr) : List GReg :=
  match i with
  | .cpgo _ =>
    let f := staged t.cp 7
    if f.getLsbD 63 then [f.extractLsb' 11 5, f.extractLsb' 6 5] else []
  | _ => []

/-- The registers an instruction reads, those of a copy's follow-on included (R88, R179). -/
def Strand.reads (t : Strand) (i : Instr) : List GReg := readsOf i ++ t.followReads i

/-- The operands of the QUE instructions never pop (R90). -/
def popsOf (t : Strand) (i : Instr) : List GReg :=
  match i with
  | .qbind .. | .qunbind .. | .qstat .. | .qpeek .. => []
  | _ => t.reads i

/-- An operand of the instruction waits for a late result (R80): a register that it reads as a plain one, bound or not where
the instruction never pops (R90), or one that it writes. -/
def Strand.pendOperand (t : Strand) (i : Instr) : Bool :=
  (t.reads i).any (fun r => t.pend.getLsbD r.toNat && ((t.bound? r).isNone || !(popsOf t i).contains r))

/-- The instruction pops or pushes a queue port (R88): a core-path operation (R129). `extra` names registers that the words of
a loop body read. -/
def Strand.usesPort (t : Strand) (i : Instr) (extra : List GReg := []) : Bool :=
  (popsOf t i ++ writesOf i ++ extra).any fun r => (t.bound? r).isSome

/-- The stalls at issue that hold for instructions of every kind (R60): a held strand, a pending register, an entry of
the sequencer that can trap, accesses of the sequencer before a core-path step, earlier operations before a step at a port, a
fence, a full counter, no free sequencer place. `extra` names registers that the words of a loop body read. -/
def Strand.stalls (t : Strand) (i : Instr) (extra : List GReg := []) : Bool :=
  t.hold.isSome || t.susp.isSome || t.mig.isSome
  || t.pendOperand i || (writesOf i ++ extra).any t.isPend
  || t.seqTrap
  || (t.seqMem && (onCorePath i || isOrdered i))
  || ((t.seqMem || !t.ops.isEmpty) && t.usesPort i extra)
  || t.fenced (countsOf i) || t.countFull (countsOf i)
  || (isVector i && decide (t.seqUsed + 1 > 16))

/-- The instructions at which a strand whose core-path operations are held by a fault parks (R306): core-path
operations, those of ports and of loop bodies (`body`) among them, engine commands, `wait`, `xfence`, `quit`, `susp`,
`migrate`, and readers of a pending register. -/
def Strand.faultParks (t : Strand) (i : Instr) (extra : List GReg := []) (body : Bool := false) : Bool :=
  onCorePath i || isEngine i || t.pendOperand i || extra.any t.isPend || t.usesPort i extra || body ||
    (match i with
     | .wait .. | .xfence .. | .quit | .susp .. | .migrate .. | .ldv .. | .stv .. | .ksend .. => true
     | _ => false)

/-- The common part of every instruction of a strand. The strand in focus must be RUN in a slot; an instruction that
stalls leaves the state as it is; one that meets a fault of its strand parks (R306); then its pops are made and its push
room is found, or it parks (R88); then it is performed on the state with the pops made. `extra` names registers that the
words of a loop body read (R94), and `body` tells that the body holds an access. -/
def issue (i : Instr) (s : State) (f : State → Strand → (GReg → Word) → State) (extra : List GReg := [])
    (body : Bool := false) : Host.Outcome State Fault Refusal :=
  match s.strand? s.cur with
  | none => .fault .noStrand
  | some t =>
    if t.st ≠ .run || t.place?.isNone then .next s
    else
      match t.opFault.orElse fun _ => t.seqFault with
      | some e =>
        if e.tok ≠ 0 && t.faultParks i extra body then .next (s.park s.cur t (.fault e.tok))
        else go t
      | none => go t
where
  /-- The instruction beyond the park of R306. -/
  go (t : Strand) : Host.Outcome State Fault Refusal :=
    if t.stalls i extra then .next s
    else
      match s.popAll s.cur t (popsOf t i ++ extra) [] with
      | .error p => .next (s.park s.cur t (.pop p))
      | .ok (s1, got) =>
        match s1.pushBlocked s.cur t (pushesOf i) with
        | some p => .next (s.park s.cur t (.push p))
        | none =>
          .next (f s1 { t with claim := none } fun r =>
            match got.find? fun x => x.1 = r with
            | some x => x.2
            | none => t.g r)

/-- Both copies of a held message of paired mode are ready (R323): the two strands stand at the same instruction with the same
operands, and nothing stalls either. -/
def jointReady (i : Instr) (t u : Strand) : Bool :=
  decide (u.st = .run) && u.place?.isSome && decide (u.pc = t.pc) && t.ops.isEmpty && u.ops.isEmpty && !t.stalls i &&
    !u.stalls i && (t.reads i).all fun r => decide (t.g r = u.g r)

/-- An instruction whose message is merged while it holds issue (R323), for a form that `shared` names: the west partner
performs it once both copies are there, and the reply is copied to the east one; the east partner waits. -/
def joint (i : Instr) (shared : Strand → Bool) (g : State → Host.Outcome State Fault Refusal) (s : State) :
    Host.Outcome State Fault Refusal :=
  match s.strand? s.cur with
  | none => g s
  | some t =>
    match t.pair && shared t, t.partner.bind fun p => (s.strand? p).map fun u => (p, u) with
    | true, some (p, u) =>
      if t.core % 16 ≥ 8 || !jointReady i t u then .next s
      else
        match g s, g { s with cur := p } with
        | .next a, .next b =>
          match a.strand? s.cur, b.strand? p with
          | some x, some y =>
            if x.pc = y.pc ∧ x.st = y.st then
              .next { (a.setStrand p y).setCore u.core (b.core u.core) with serial := Nat.max a.serial b.serial }
            else if x.st ≠ .run then .next a
            else .next { b with cur := s.cur }
          | _, _ => .next a
        | o, _ => o
    | _, _ => g s

/-! ### Results -/

/-- Writes a result to a g register, or pushes it to the port the register is bound to (R28, R88). -/
def State.writeG (s : State) (sid : Nat) (t : Strand) (r : GReg) (v : Word) : State :=
  match t.bound? r with
  | some p => (s.setStrand sid t).pushPort t.homeCore p { val := some v, tag := 0 }
  | none => s.setStrand sid (t.setG r v)

/-- The strand goes on at the next instruction. -/
def Strand.advance (t : Strand) : Strand := { t with pc := t.pc + 4 }

/-- A single-step result: it is written, and the strand goes on at PC + 4 (R80). -/
def State.finish (s : State) (sid : Nat) (t : Strand) (r : GReg) (v : Word) : State := s.writeG sid t.advance r v

/-- Prepares the place of a late result (R80, R88): a reserved entry of a bound port, or a pending register. -/
def State.lateDest (s : State) (t : Strand) (r : GReg) : State × Strand × Dest :=
  match t.bound? r with
  | some p =>
    let (tag, s) := s.fresh
    (s.pushPort t.homeCore p { val := none, tag }, t, .port p tag)
  | none =>
    if r = 0 then (s, t, .drop)
    else (s, { t with pend := t.pend ||| BitVec.twoPow 32 r.toNat }, .gpr r)

/-- A late result arrives at its place. One for a register that was bound meanwhile is written to the register's stored value (the
model's choice, log entry 72). -/
def State.deliver (s : State) (sid : Nat) (d : Dest) (v : Word) : State :=
  match d with
  | .drop => s
  | .gpr r => s.modStrand sid fun t => { t.setG r v with pend := t.pend &&& ~~~ BitVec.twoPow 32 r.toNat }
  | .port p tag =>
    match s.strand? sid with
    | some t => s.fillPort t.homeCore p tag v
    | none => s

/-- A result that has reached the west partner is copied to the east one (R323). -/
def State.echo (s : State) (sid : Nat) (r : Ret) : State :=
  match s.twins.find? fun w => w.west == sid && w.wsn == r.sn with
  | none => s
  | some w =>
    { s with twins := s.twins.erase w }.modStrand w.east fun t => { t with
      rets := t.rets ++ [{ r with sn := w.esn, dests := w.dests.zip (r.dests.map fun (x : Dest × Word) => x.2) }] }

/-- Delivers the results of one operation and ends its counting. -/
def State.deliverAll (s : State) (sid : Nat) (r : Ret) : State :=
  (r.dests.foldl (fun s d => s.deliver sid d.1 d.2) s).uncount sid r.sn

/-- An engine command that answers a word and that an earlier operation holds, or an earlier such command of its class, waits
with the strand, which goes on (R131, R132, R140): its register is pending. -/
def State.defer (s : State) (sid : Nat) (t : Strand) (i : Instr) (d : GReg) (arg : Word) (after : List Nat) : State :=
  let (s, t, dest) := s.lateDest t d
  let (sn, s) := s.fresh
  let t := { t with
    outst := t.outst ++ (countsOf i).map fun c => (sn, c)
    late := t.late ++ [{ sn, instr := i, arg, after, dest }], pc := t.pc + 4 }
  s.setStrand sid t

/-- Counts an operation from its issue (R138). -/
def Strand.countOn (t : Strand) (sn : Nat) (cs : List Ctr) : Strand :=
  { t with outst := t.outst ++ cs.map fun c => (sn, c) }

/-- In paired mode a copy, drain or walk is known by its place among the strand's (R323). -/
def Strand.named (t : Strand) (sn : Nat) : Strand := if t.pair then { t with engs := t.engs ++ [sn] } else t

/-- Issues a core-path operation: it counts, it takes its place behind the strand's earlier operations (R129), and the
strand goes on. -/
def State.enqueue (s : State) (sid : Nat) (t : Strand) (cs : List Ctr) (k : OpKind) (d : Dest) : State :=
  let (sn, s) := s.fresh
  let t := t.countOn sn cs
  s.setStrand sid { t with
    ops := t.ops ++ [{ sn, core := t.core, pc := t.pc, kind := k, dest := d, since := s.cycle }], pc := t.pc + 4 }

/-- A synchronising operation (R120) still to be performed, which holds engine commands (R131). -/
def OpKind.isSync : OpKind → Bool
  | .fill .. | .empty .. | .test .. => true
  | _ => false

/-- The operations of a strand that an engine command must wait for (R131, R140): the synchronising ones, and with W
every store. -/
def Strand.gate (t : Strand) (w : Bool) : List Nat :=
  (t.ops.filter fun o => o.kind.isSync || (w && o.kind.isStore)).map fun o => o.sn

/-- A command of a class that the strand issued before number `sn` still waits with it (R132, R138). -/
def Strand.lateBefore (t : Strand) (c : Ctr) (sn : Nat) : Bool :=
  t.late.any fun x => (countsOf x.instr).contains c && decide (x.sn < sn)

/-- A command that answers a word must wait (R131, R140): for the operations that hold it, or for an earlier command of its class
(R132). -/
def Strand.mustDefer (t : Strand) (i : Instr) (w : Bool) : Bool :=
  !(t.gate w).isEmpty || t.late.any fun x => (countsOf x.instr).any fun c => (countsOf i).contains c

/-- No earlier command of the class that answers a word holds command `sn` of a strand (R132). -/
def State.inTurn (s : State) (sid : Nat) (c : Ctr) (sn : Nat) : Bool :=
  match s.strand? sid with
  | some t => !t.lateBefore c sn
  | none => true

/-- An engine command may begin: none of the operations it waits for is left (R131). An ended strand's list is what is
left of it. -/
def State.mayBegin (s : State) (sid : Nat) (after : List Nat) : Bool :=
  match s.strand? sid with
  | some t => !(t.ops.any fun o => after.contains o.sn)
  | none => true

/-! ### Handles (R114 to R118) -/

/-- The rights R, W, X, A, S, from bit 0 up (R72, R116). -/
abbrev Rights := BitVec 5
/-- R -/
def rR : Rights := 1
/-- W -/
def rW : Rights := 2
/-- X -/
def rX : Rights := 4
/-- A -/
def rA : Rights := 8
/-- S -/
def rS : Rights := 16

/-- SPACE of a handle. -/
def Handle.space (h : Handle) : BitVec 3 := h.ctl.extractLsb' 40 3
/-- BOUND of a handle. -/
def Handle.bound (h : Handle) : Nat := bits h.ctl 0 40
/-- The rights of a handle. -/
def Handle.rights (h : Handle) : Rights := h.ctl.extractLsb' 43 5
/-- An empty handle (R116). -/
def Handle.isEmpty (h : Handle) : Bool :=
  decide (h.space = 6) || decide (h.space = 7) || decide (h.base = 0 ∧ h.ctl = 0 ∧ h.tgt = 0)
/-- The die of a handle's target. -/
def Handle.die (h : Handle) : Nat := bits h.tgt 11 5 * 8 + bits h.tgt 8 3

/-- A handle as the strand's accesses use it now: space 0 is the slice of the strand's slot, space 1 its core's banks, wherever
the strand has been moved to since its handles were made; a migrated strand reaches its home banks as peer space (R69, R114,
R258). -/
def Strand.region (t : Strand) (h : Handle) : Region :=
  let r : Region := { space := h.space, unit := 0, base := h.base.toNat, bound := h.bound, rights := h.rights
                      efmt := h.ctl.extractLsb' 50 4, asid := t.asid }
  if h.space = 0 then
    { r with unit := t.core, base := (r.base + 0x1000 * t.slot + (2 ^ 18 - 0x1000 * t.slot0)) % 2 ^ 18 }
  else if h.space = 1 then
    if t.isMig then { r with space := 5, unit := t.homeCore } else { r with unit := t.core }
  else if h.space = 2 then { r with unit := h.die * 16 + bits h.tgt 0 4 }
  else if h.space = 3 then { r with unit := h.die }
  else if h.space = 5 then { r with unit := h.die * 256 + bits h.tgt 0 8 }
  else r

/-- The region of a strand's handle of number `i`. -/
def Strand.regionAt (t : Strand) (i : Nat) : Region := t.region (t.handle i)

/-- Where the byte at offset `o` of a region lies (R115). -/
def Region.addr (r : Region) (o : Nat) : Addr :=
  if r.space = 4 then .virt r.asid (r.base + o)
  else if r.space = 2 then .phys (clusterKey r.unit ((r.base + o) % 2 ^ 19))
  else if r.space = 3 then .phys (chipKey r.unit ((r.base + o) % 2 ^ 25))
  else .phys (scratchKey r.unit ((r.base + o) % 2 ^ 18))

/-- The kinds of access that `space_allows` tells apart (R118). -/
inductive AccKind where
  | plain | sync | vec | skein
  deriving DecidableEq, Repr

/-- `space_allows` (R118, R281). -/
def spaceAllows (sp : BitVec 3) (k : AccKind) : Bool :=
  if sp = 6 ∨ sp = 7 then false
  else match k with
    | .plain => true
    | .sync => decide (sp ≠ 4)
    | .vec => decide (sp ≠ 5)
    | .skein => decide (sp = 4)

/-- The access check of R118, in its order: rights, space, bound, alignment. -/
def accessCheck (r : Region) (h : Nat) (o : Word) (sz : Nat) (need : Rights) (k : AccKind) : Option (Cause × Word) :=
  let miss := need &&& ~~~ r.rights
  if miss ≠ 0 then some (.rights, BitVec.ofNat 64 (miss.toNat * 256 + h))
  else if !spaceAllows r.space k then some (.space, o)
  else if o.toNat ≥ 2 ^ 40 ∨ o.toNat + sz > r.bound then some (.bound, o)
  else if (sz = 1 ∨ sz = 2 ∨ sz = 4 ∨ sz = 8 ∨ sz = 16) ∧ (r.base + o.toNat) % sz ≠ 0 then some (.align, o)
  else none

/-- The first failing check of a list. -/
def firstFail : List (Option (Cause × Word)) → Option (Cause × Word)
  | [] => none
  | none :: t => firstFail t
  | some x :: _ => some x

/-- A reading access whose word lies in cluster or peer space is trap-capable: it holds issue (R319). -/
def Region.trapCapable (r : Region) : Bool := decide (r.space = 2) || decide (r.space = 5)

/-- A region of cluster or peer space that is none of the strand's group's own copies (R323): its messages are merged. -/
def State.foreign (s : State) (t : Strand) (r : Region) : Bool :=
  r.trapCapable &&
    (match r.addr 0 with
     | .phys k => !(s.group t.group).owns k
     | .virt .. => false)

/-- The core of an address is sealed (R319). -/
def State.sealedAt (s : State) (a : Addr) : Option Nat :=
  match a with
  | .phys k =>
    match keyCore? k with
    | some c => if (s.core c).sealed then some c else none
    | none => none
  | .virt .. => none

/-- TVAL of PEERLOST (R72). -/
def peerLostVal (core : Nat) : Word :=
  BitVec.ofNat 64 (core % 256 + (core / 256 % 8) * 256 + (core / 2048) * 2048)

/-! ### The words of a scratchpad (R120, R121) -/

/-- A change of the word at a key towards the state a strand parked on it waits for (R121): a strand on the word's own
core is woken; to any other a wake message is sent. -/
def State.wakeWord (s : State) (key : Nat) (full : Bool) : State :=
  (s.strandsWhere fun _ t =>
    match t.st with
    | .parked (.word k b) => decide (k / 8 = key / 8) && b == full
    | _ => false).foldl (fun s i =>
      match s.strand? i with
      | some t => if keyCore? key = some t.core then s.wake i else s.setStrand i { t with wakeMsg := true }
      | none => s) s

/-- A write to a word of a sealed core is discarded and counted on its die (R318); otherwise `f`. -/
def State.unlessSealed (s : State) (key : Nat) (f : State → State) : State :=
  match s.sealedAt (.phys key) with
  | some c => s.countErr (dieOf c) 11
  | none => f s

/-- `stf` at a word: the value is written, the bit becomes full, and a change wakes (R120, R121). -/
def State.fillWord (s : State) (key : Nat) (v : Word) : State :=
  s.unlessSealed key fun s =>
    let was := s.isFull key
    let s := (s.writeBytes key (wordBytes v)).setFull key true
    if was then s else s.wakeWord key true

/-- `sete` at a word: the bit becomes empty, and a change wakes (R120, R121). -/
def State.emptyWord (s : State) (key : Nat) : State :=
  s.unlessSealed key fun s =>
    if s.isFull key then (s.setFull key false).wakeWord key false else s

/-- A raw store of bytes at a key, discarded on a sealed core (R119, R318). -/
def State.storeAt (s : State) (key : Nat) (b : List Byte) : State :=
  s.unlessSealed key fun s => s.writeBytes key b

end Sys2Proof.Machine
end

