-- ==== Sys2Proof/Machine/Scalar.lean ====
section
/-! DEFINITION. The integer instructions in R and I format (R80, R81, R83), and the arrival of a division's result. -/

namespace Sys2Proof.Machine

/-- Signed division of R57: by 0 gives −1; the most negative number by −1 gives itself. -/
def sdivW {n : Nat} (a b : BitVec n) : BitVec n := if b = 0 then BitVec.allOnes n else a.sdiv b
/-- Unsigned division of R57: by 0 gives all ones. -/
def udivW {n : Nat} (a b : BitVec n) : BitVec n := if b = 0 then BitVec.allOnes n else a / b
/-- Signed remainder of R57: by 0 gives the dividend. -/
def sremW {n : Nat} (a b : BitVec n) : BitVec n := if b = 0 then a else a.srem b
/-- Unsigned remainder of R57: by 0 gives the dividend. -/
def uremW {n : Nat} (a b : BitVec n) : BitVec n := if b = 0 then a else a % b

/-- The low 32 bits of a word. -/
def lo32 (a : Word) : BitVec 32 := a.setWidth 32
/-- A 32-bit result, sign-extended (R81: suffix w). -/
def sext32 (x : BitVec 32) : Word := x.signExtend 64

/-- A form with two sources and one result (R81, R82): both sources are read before gD is written. -/
def scalar2 (i : Instr) (d a b : GReg) (f : Word → Word → Word) (s : State) : Host.Outcome State Fault Refusal :=
  issue i s fun s1 t rd => s1.finish s.cur t d (f (rd a) (rd b))

/-- A form with one source and one result. -/
def scalar1 (i : Instr) (d a : GReg) (f : Word → Word) (s : State) : Host.Outcome State Fault Refusal :=
  issue i s fun s1 t rd => s1.finish s.cur t d (f (rd a))

/-- A form with a result and no register source. -/
def scalar0 (i : Instr) (d : GReg) (f : State → Strand → Word) (s : State) : Host.Outcome State Fault Refusal :=
  issue i s fun s1 t _ => s1.finish s.cur t d (f s1 t)

/-- A division: gD is pending until its result arrives (R80). -/
def divide (i : Instr) (d a b : GReg) (f : Word → Word → Word) (s : State) : Host.Outcome State Fault Refusal :=
  issue i s fun s1 t rd =>
    let (s2, t, dest) := s1.lateDest t d
    let (sn, s2) := s2.fresh
    s2.setStrand s.cur { t.advance with rets := t.rets ++ [{ kind := .divide, sn, dests := [(dest, f (rd a) (rd b))] }] }

/-- A result that is on its way arrives (R80, R119): the event of its kind, for the strand `ua` and the place `ub` of the
result among those on their way. With no such result nothing happens. -/
def arriveResult (k : RetKind) (s : State) : Host.Outcome State Fault Refusal :=
  match s.strand? s.ua with
  | none => .next s
  | some t =>
    match t.rets[s.ub]? with
    | none => .next s
    | some r =>
      if r.kind = k then
        let s1 := s.setStrand s.ua { t with rets := t.rets.eraseIdx s.ub }
        .next ((s1.deliverAll s.ua r).echo s.ua r)
      else .next s

/-- The result of a division arrives (R80). -/
def execDivideResult (s : State) : Host.Outcome State Fault Refusal := arriveResult .divide s

/-- `add` (R81): gD receives wrap(a + b, s64). -/
def execAdd (d a b : GReg) (s : State) : Host.Outcome State Fault Refusal :=
  scalar2 (.add d a b) d a b (fun a b => a + b) s

/-- `sub` (R81): gD receives wrap(a − b, s64). -/
def execSub (d a b : GReg) (s : State) : Host.Outcome State Fault Refusal :=
  scalar2 (.sub d a b) d a b (fun a b => a - b) s

/-- `and` (R81): gD receives a AND b. -/
def execAnd (d a b : GReg) (s : State) : Host.Outcome State Fault Refusal :=
  scalar2 (.and d a b) d a b (fun a b => a &&& b) s

/-- `or` (R81): gD receives a OR b. -/
def execOr (d a b : GReg) (s : State) : Host.Outcome State Fault Refusal :=
  scalar2 (.or d a b) d a b (fun a b => a ||| b) s

/-- `xor` (R81): gD receives a XOR b. -/
def execXor (d a b : GReg) (s : State) : Host.Outcome State Fault Refusal :=
  scalar2 (.xor d a b) d a b (fun a b => a ^^^ b) s

/-- `andn` (R81): gD receives a AND NOT b. -/
def execAndn (d a b : GReg) (s : State) : Host.Outcome State Fault Refusal :=
  scalar2 (.andn d a b) d a b (fun a b => a &&& ~~~ b) s

/-- `shl` (R81): gD receives a << b[5:0]. -/
def execShl (d a b : GReg) (s : State) : Host.Outcome State Fault Refusal :=
  scalar2 (.shl d a b) d a b (fun a b => a <<< bits b 0 6) s

/-- `shr` (R81): gD receives a >> b[5:0], zeros shifted in. -/
def execShr (d a b : GReg) (s : State) : Host.Outcome State Fault Refusal :=
  scalar2 (.shr d a b) d a b (fun a b => a >>> bits b 0 6) s

/-- `sra` (R81): gD receives a >> b[5:0], copies of a[63] shifted in. -/
def execSra (d a b : GReg) (s : State) : Host.Outcome State Fault Refusal :=
  scalar2 (.sra d a b) d a b (fun a b => a.sshiftRight (bits b 0 6)) s

/-- `slt` (R81): gD receives 1 if a < b, signed. -/
def execSlt (d a b : GReg) (s : State) : Host.Outcome State Fault Refusal :=
  scalar2 (.slt d a b) d a b (fun a b => boolW (a.slt b)) s

/-- `sltu` (R81): gD receives 1 if a < b, unsigned. -/
def execSltu (d a b : GReg) (s : State) : Host.Outcome State Fault Refusal :=
  scalar2 (.sltu d a b) d a b (fun a b => boolW (a.ult b)) s

/-- `min` (R81): gD receives the signed smaller. -/
def execMin (d a b : GReg) (s : State) : Host.Outcome State Fault Refusal :=
  scalar2 (.min d a b) d a b (fun a b => if a.slt b then a else b) s

/-- `max` (R81): gD receives the signed larger. -/
def execMax (d a b : GReg) (s : State) : Host.Outcome State Fault Refusal :=
  scalar2 (.max d a b) d a b (fun a b => if a.slt b then b else a) s

/-- `minu` (R81): gD receives the unsigned smaller. -/
def execMinu (d a b : GReg) (s : State) : Host.Outcome State Fault Refusal :=
  scalar2 (.minu d a b) d a b (fun a b => if a.ult b then a else b) s

/-- `maxu` (R81): gD receives the unsigned larger. -/
def execMaxu (d a b : GReg) (s : State) : Host.Outcome State Fault Refusal :=
  scalar2 (.maxu d a b) d a b (fun a b => if a.ult b then b else a) s

/-- `seq` (R81): gD receives 1 if a = b. -/
def execSeq (d a b : GReg) (s : State) : Host.Outcome State Fault Refusal :=
  scalar2 (.seq d a b) d a b (fun a b => boolW (a == b)) s

/-- `addw` (R81): gD receives sext of the 32-bit sum. -/
def execAddw (d a b : GReg) (s : State) : Host.Outcome State Fault Refusal :=
  scalar2 (.addw d a b) d a b (fun a b => sext32 (lo32 a + lo32 b)) s

/-- `subw` (R81): gD receives sext of the 32-bit difference. -/
def execSubw (d a b : GReg) (s : State) : Host.Outcome State Fault Refusal :=
  scalar2 (.subw d a b) d a b (fun a b => sext32 (lo32 a - lo32 b)) s

/-- `shlw` (R81): gD receives sext of the low word << b[4:0]. -/
def execShlw (d a b : GReg) (s : State) : Host.Outcome State Fault Refusal :=
  scalar2 (.shlw d a b) d a b (fun a b => sext32 (lo32 a <<< bits b 0 5)) s

/-- `shrw` (R81): gD receives sext of the low word >> b[4:0], zeros shifted in. -/
def execShrw (d a b : GReg) (s : State) : Host.Outcome State Fault Refusal :=
  scalar2 (.shrw d a b) d a b (fun a b => sext32 (lo32 a >>> bits b 0 5)) s

/-- `sraw` (R81): gD receives the low word >> b[4:0], copies of a[31] shifted in. -/
def execSraw (d a b : GReg) (s : State) : Host.Outcome State Fault Refusal :=
  scalar2 (.sraw d a b) d a b (fun a b => sext32 ((lo32 a).sshiftRight (bits b 0 5))) s

/-- `mul` (R81): gD receives the low 64 bits of a × b. -/
def execMul (d a b : GReg) (s : State) : Host.Outcome State Fault Refusal :=
  scalar2 (.mul d a b) d a b (fun a b => a * b) s

/-- `mulh` (R81): gD receives bits [127:64] of the signed product. -/
def execMulh (d a b : GReg) (s : State) : Host.Outcome State Fault Refusal :=
  scalar2 (.mulh d a b) d a b (fun a b => ((a.signExtend 128 * b.signExtend 128) >>> 64).setWidth 64) s

/-- `mulhu` (R81): gD receives bits [127:64] of the unsigned product. -/
def execMulhu (d a b : GReg) (s : State) : Host.Outcome State Fault Refusal :=
  scalar2 (.mulhu d a b) d a b (fun a b => ((a.setWidth 128 * b.setWidth 128) >>> 64).setWidth 64) s

/-- `mulw` (R81): gD receives sext of the low 32 bits of the product. -/
def execMulw (d a b : GReg) (s : State) : Host.Outcome State Fault Refusal :=
  scalar2 (.mulw d a b) d a b (fun a b => sext32 (lo32 a * lo32 b)) s

/-- `div` (R81, R57): gD receives sdiv(a, b, 64), later. -/
def execDiv (d a b : GReg) (s : State) : Host.Outcome State Fault Refusal :=
  divide (.div d a b) d a b (fun a b => sdivW a b) s

/-- `divu` (R81, R57): gD receives udiv(a, b, 64), later. -/
def execDivu (d a b : GReg) (s : State) : Host.Outcome State Fault Refusal :=
  divide (.divu d a b) d a b (fun a b => udivW a b) s

/-- `rem` (R81, R57): gD receives srem(a, b, 64), later. -/
def execRem (d a b : GReg) (s : State) : Host.Outcome State Fault Refusal :=
  divide (.rem d a b) d a b (fun a b => sremW a b) s

/-- `remu` (R81, R57): gD receives urem(a, b, 64), later. -/
def execRemu (d a b : GReg) (s : State) : Host.Outcome State Fault Refusal :=
  divide (.remu d a b) d a b (fun a b => uremW a b) s

/-- `divw` (R81, R57): gD receives sext of sdiv of the low words, later. -/
def execDivw (d a b : GReg) (s : State) : Host.Outcome State Fault Refusal :=
  divide (.divw d a b) d a b (fun a b => sext32 (sdivW (lo32 a) (lo32 b))) s

/-- `remw` (R81, R57): gD receives sext of srem of the low words, later. -/
def execRemw (d a b : GReg) (s : State) : Host.Outcome State Fault Refusal :=
  divide (.remw d a b) d a b (fun a b => sext32 (sremW (lo32 a) (lo32 b))) s

/-- `addi` (R83): gD receives wrap(a + i, s64). -/
def execAddi (d a : GReg) (i0 : BitVec 16) (s : State) : Host.Outcome State Fault Refusal :=
  scalar1 (.addi d a i0) d a (fun a => a + i0.signExtend 64) s

/-- `andi` (R83): gD receives a AND i. -/
def execAndi (d a : GReg) (i0 : BitVec 16) (s : State) : Host.Outcome State Fault Refusal :=
  scalar1 (.andi d a i0) d a (fun a => a &&& i0.setWidth 64) s

/-- `ori` (R83): gD receives a OR i. -/
def execOri (d a : GReg) (i0 : BitVec 16) (s : State) : Host.Outcome State Fault Refusal :=
  scalar1 (.ori d a i0) d a (fun a => a ||| i0.setWidth 64) s

/-- `xori` (R83): gD receives a XOR i. -/
def execXori (d a : GReg) (i0 : BitVec 16) (s : State) : Host.Outcome State Fault Refusal :=
  scalar1 (.xori d a i0) d a (fun a => a ^^^ i0.setWidth 64) s

/-- `slti` (R83): gD receives 1 if a < i, signed. -/
def execSlti (d a : GReg) (i0 : BitVec 16) (s : State) : Host.Outcome State Fault Refusal :=
  scalar1 (.slti d a i0) d a (fun a => boolW (a.slt (i0.signExtend 64))) s

/-- `shli` (R83): gD receives a << n. -/
def execShli (d a : GReg) (n : BitVec 6) (s : State) : Host.Outcome State Fault Refusal :=
  scalar1 (.shli d a n) d a (fun a => a <<< n.toNat) s

/-- `shri` (R83): gD receives a >> n, zeros shifted in. -/
def execShri (d a : GReg) (n : BitVec 6) (s : State) : Host.Outcome State Fault Refusal :=
  scalar1 (.shri d a n) d a (fun a => a >>> n.toNat) s

/-- `srai` (R83): gD receives a >> n, copies of a[63] shifted in. -/
def execSrai (d a : GReg) (n : BitVec 6) (s : State) : Host.Outcome State Fault Refusal :=
  scalar1 (.srai d a n) d a (fun a => a.sshiftRight n.toNat) s

/-- `li` (R83): gD receives the sign-extended immediate. -/
def execLi (d : GReg) (i0 : BitVec 16) (s : State) : Host.Outcome State Fault Refusal :=
  scalar0 (.li d i0) d (fun _ _ => i0.signExtend 64) s

/-- `lis` (R83): bits [16p+15:16p] of gD are replaced by the immediate. -/
def execLis (d : GReg) (p : BitVec 2) (i0 : BitVec 16) (s : State) : Host.Outcome State Fault Refusal :=
  scalar1 (.lis d p i0) d d (fun a => putBits a (16 * p.toNat) 16 i0.toNat) s

end Sys2Proof.Machine
end

