-- ==== Sys2Proof/Machine/Bits.lean ====
section
/-! DEFINITION. The bit instructions (R82). -/

namespace Sys2Proof.Machine

/-- The number of zero bits above the highest one bit among the low `n` bits. -/
def leadingZeros (a : Word) : Nat → Nat
  | 0 => 0
  | n + 1 => if a.getLsbD n then 0 else 1 + leadingZeros a n

/-- The number of zero bits below the lowest one bit, from bit `64 - n` up. -/
def trailingZeros (a : Word) : Nat → Nat
  | 0 => 0
  | n + 1 => if a.getLsbD (63 - n) then 0 else 1 + trailingZeros a n

/-- The number of one bits among the low `n` bits. -/
def popCount (a : Word) : Nat → Nat
  | 0 => 0
  | n + 1 => (if a.getLsbD n then 1 else 0) + popCount a n

/-- The bytes of a word in reverse order. -/
def reverseBytes (a : Word) : Word := wordOf (wordBytes a).reverse

/-- The field length of a descriptor: min(b[14:8], 64) (R82). -/
def fieldLen (b : Word) : Nat := min (bits b 8 7) 64

/-- `bext` (R82): the field, zero-extended; bits beyond 63 read as 0. -/
def extractField (a b : Word) : Word :=
  if fieldLen b = 0 then 0 else (a >>> bits b 0 6) &&& BitVec.ofNat 64 (2 ^ fieldLen b - 1)

/-- `bins` (R82): the low bits of `a` replace the field of `old`, as far as bit 63. -/
def insertField (old a b : Word) : Word :=
  let m : Word := BitVec.ofNat 64 (2 ^ fieldLen b - 1) <<< bits b 0 6
  (old &&& ~~~ m) ||| ((a <<< bits b 0 6) &&& m)

/-- The low n bits of `a`, sign-extended; 0 for n = 0, `a` for n ≥ 64 (R82). -/
def sextField (a b : Word) : Word :=
  let n := bits b 0 7
  if n = 0 then 0 else if n ≥ 64 then a else (a <<< (64 - n)).sshiftRight (64 - n)

/-- The low n bits of `a`, zero-extended; 0 for n = 0, `a` for n ≥ 64 (R82). -/
def zextField (a b : Word) : Word :=
  let n := bits b 0 7
  if n = 0 then 0 else if n ≥ 64 then a else a &&& BitVec.ofNat 64 (2 ^ n - 1)

/-- `clz` (R82): gD receives the number of leading zero bits; 64 for 0. -/
def execClz (d a : GReg) (s : State) : Host.Outcome State Fault Refusal :=
  scalar1 (.clz d a) d a (fun a => BitVec.ofNat 64 (leadingZeros a 64)) s

/-- `ctz` (R82): gD receives the number of trailing zero bits; 64 for 0. -/
def execCtz (d a : GReg) (s : State) : Host.Outcome State Fault Refusal :=
  scalar1 (.ctz d a) d a (fun a => BitVec.ofNat 64 (trailingZeros a 64)) s

/-- `popc` (R82): gD receives the number of one bits. -/
def execPopc (d a : GReg) (s : State) : Host.Outcome State Fault Refusal :=
  scalar1 (.popc d a) d a (fun a => BitVec.ofNat 64 (popCount a 64)) s

/-- `bswap` (R82): gD receives the eight bytes in reverse order. -/
def execBswap (d a : GReg) (s : State) : Host.Outcome State Fault Refusal :=
  scalar1 (.bswap d a) d a (fun a => reverseBytes a) s

/-- `bext` (R82): gD receives the field of a that b describes. -/
def execBext (d a b : GReg) (s : State) : Host.Outcome State Fault Refusal :=
  scalar2 (.bext d a b) d a b (fun a b => extractField a b) s

/-- `sext` (R82): gD receives the low b[6:0] bits of a, sign-extended. -/
def execSext (d a b : GReg) (s : State) : Host.Outcome State Fault Refusal :=
  scalar2 (.sext d a b) d a b (fun a b => sextField a b) s

/-- `zext` (R82): gD receives the low b[6:0] bits of a, zero-extended. -/
def execZext (d a b : GReg) (s : State) : Host.Outcome State Fault Refusal :=
  scalar2 (.zext d a b) d a b (fun a b => zextField a b) s

/-- `bins` (R82): gD, which is also a source, receives the low bits of a in the field that b describes. -/
def execBins (d a b : GReg) (s : State) : Host.Outcome State Fault Refusal :=
  issue (.bins d a b) s fun s1 t rd => s1.finish s.cur t d (insertField (rd d) (rd a) (rd b))

end Sys2Proof.Machine
end

