-- ==== Sys2Proof/Machine/Branch.lean ====
section
/-! DEFINITION. Branches and jumps (R84, R85). -/

namespace Sys2Proof.Machine

/-- A conditional branch (R84): the target is PC + 4 × OFF. -/
def branch (i : Instr) (a b : GReg) (o : BitVec 13) (taken : Word → Word → Bool) (s : State) :
    Host.Outcome State Fault Refusal :=
  issue i s fun s1 t rd =>
    s1.setStrand s.cur { t with pc := if taken (rd a) (rd b) then t.pc + 4 * o.signExtend 64 else t.pc + 4 }

/-- `beq` (R84): taken when g(A) = g(B). -/
def execBeq (a b : GReg) (o : BitVec 13) (s : State) : Host.Outcome State Fault Refusal :=
  branch (.beq a b o) a b o (fun a b => a == b) s

/-- `bne` (R84): taken when g(A) ≠ g(B). -/
def execBne (a b : GReg) (o : BitVec 13) (s : State) : Host.Outcome State Fault Refusal :=
  branch (.bne a b o) a b o (fun a b => !(a == b)) s

/-- `blt` (R84): taken when g(A) < g(B), signed. -/
def execBlt (a b : GReg) (o : BitVec 13) (s : State) : Host.Outcome State Fault Refusal :=
  branch (.blt a b o) a b o (fun a b => a.slt b) s

/-- `bge` (R84): taken when g(A) ≥ g(B), signed. -/
def execBge (a b : GReg) (o : BitVec 13) (s : State) : Host.Outcome State Fault Refusal :=
  branch (.bge a b o) a b o (fun a b => !a.slt b) s

/-- `bltu` (R84): taken when g(A) < g(B), unsigned. -/
def execBltu (a b : GReg) (o : BitVec 13) (s : State) : Host.Outcome State Fault Refusal :=
  branch (.bltu a b o) a b o (fun a b => a.ult b) s

/-- `bgeu` (R84): taken when g(A) ≥ g(B), unsigned. -/
def execBgeu (a b : GReg) (o : BitVec 13) (s : State) : Host.Outcome State Fault Refusal :=
  branch (.bgeu a b o) a b o (fun a b => !a.ult b) s

/-- `jal` (R85): gD receives PC + 4, and the strand goes on at PC + 4 × OFF. -/
def execJal (d : GReg) (o : BitVec 21) (s : State) : Host.Outcome State Fault Refusal :=
  issue (.jal d o) s fun s1 t _ =>
    s1.writeG s.cur { t with pc := t.pc + 4 * o.signExtend 64 } d (t.pc + 4)

/-- `jalr` (R85): a target that is not 4-byte aligned raises ALIGN with the target; otherwise gD receives PC + 4. -/
def execJalr (d a : GReg) (i0 : BitVec 16) (s : State) : Host.Outcome State Fault Refusal :=
  issue (.jalr d a i0) s fun s1 t rd =>
    let x := rd a + i0.signExtend 64
    if bits x 0 2 ≠ 0 then s.trap s.cur t .align x
    else s1.writeG s.cur { t with pc := x } d (t.pc + 4)

end Sys2Proof.Machine
end

