-- ==== Sys2Proof/Machine/Ident.lean ====
section
/-! DEFINITION. The identity instructions (R17, R86). -/

namespace Sys2Proof.Machine

/-- The width of field `i` in the width dword of a header (R223). -/
def widthOf (widw : Word) (i : Nat) : Nat := bits widw (6 * i) 6

/-- The first bit of field `i` (R17). -/
def fieldLow (widw : Word) (i : Nat) : Nat := ((List.range i).map (widthOf widw)).sum

/-- Field `i` of a work identifier under a width dword (R17); 0 when its width is 0. -/
def widField (widw wid : Word) (i : Nat) : Word :=
  BitVec.ofNat 64 (wid.toNat / 2 ^ fieldLow widw i % 2 ^ widthOf widw i)

/-- The widths under which a strand's identifier is read: those of its launch, or two fields of 32 bits for a strand
started from a task record (R86). -/
def Group.widths (g : Group) : Word := if g.task then 0x820 else g.widw

/-- The location word of `self` (R86). In paired mode both partners read the location of the one with x < 8: the core 8
columns west (R323), and the slot that the partner holds, or held last where it is cached or has ended, when it has no slot
(log entry 62). -/
def State.selfLoc (s : State) (t : Strand) : Word :=
  if t.pair && decide (8 ≤ t.core % 16) then
    locWord (t.core - 8) ((t.partner.bind s.strand?).getD t).lastSlot ||| (if t.isMig then 0x1000000 else 0)
  else t.selfWord

/-- The nanoseconds elapsed since the current tick started; a time unit is 1/693 ns (R86). -/
def State.tickNs (s : State) : Nat := s.tickTime / 693

/-- `widf` (R86): field n of the strand's work identifier. -/
def execWidf (d : GReg) (n : BitVec 5) (s : State) : Host.Outcome State Fault Refusal :=
  scalar0 (.widf d n) d (fun s t => widField (s.group t.group).widths t.wid n.toNat) s

/-- `wid` (R86): the work identifier. -/
def execWid (d : GReg) (s : State) : Host.Outcome State Fault Refusal := scalar0 (.wid d) d (fun _ t => t.wid) s

/-- `self` (R86): the location of the core the strand runs on. -/
def execSelf (d : GReg) (s : State) : Host.Outcome State Fault Refusal :=
  scalar0 (.self d) d State.selfLoc s

/-- `cyc` (R86): the cycle count of the core. -/
def execCyc (d : GReg) (s : State) : Host.Outcome State Fault Refusal :=
  scalar0 (.cyc d) d (fun s _ => BitVec.ofNat 64 s.cycle) s

/-- `tick` (R86): the tick count and the whole nanoseconds since the tick started. -/
def execTick (d : GReg) (s : State) : Host.Outcome State Fault Refusal :=
  scalar0 (.tick d) d (fun s _ => s.ticks ++ BitVec.ofNat 32 s.tickNs) s

/-- `grp` (R86): the group index; 0 for a strand started from a task record. -/
def execGrp (d : GReg) (s : State) : Host.Outcome State Fault Refusal := scalar0 (.grp d) d (fun _ t => t.grp) s

end Sys2Proof.Machine
end

