-- ==== Sys2Proof/Machine/Queue.lean ====
section
/-! DEFINITION. The queue-port instructions and QWEDGE (R87 to R90). -/

namespace Sys2Proof.Machine

/-- The field of QBIND for register index `i` (R87). -/
def qField (q : BitVec 32) (i : Nat) : BitVec 4 := q.extractLsb' (4 * i) 4

/-- Sets the field of QBIND for register index `i`. -/
def setQField (q : BitVec 32) (i : Nat) (f : BitVec 4) : BitVec 32 :=
  (q &&& ~~~ ((15 : BitVec 32) <<< (4 * i))) ||| (f.setWidth 32 <<< (4 * i))

/-- The port a field of QBIND names. -/
def qPort (f : BitVec 4) : Nat := f.toNat % 8

/-- A field of QBIND is bound: its bit V. -/
def qBound (f : BitVec 4) : Bool := f.getLsbD 3

/-- Unbinds register index `i`, as `qunbind` does (R90): the port's contents are discarded and the port is free when no
binding of the group to it remains; it has room then for a `qbind` that waits to push there (R88). -/
def State.unbindField (s : State) (sid : Nat) (t : Strand) (i : Nat) : State × Strand :=
  let f := qField t.qbind i
  let t := { t with qbind := setQField t.qbind i 0 }
  let s := s.setStrand sid t
  if qBound f && !s.portBound t.homeCore (qPort f) t.group &&
      decide ((vget (s.core t.homeCore).ports (qPort f) {}).owner = some t.group) then
    ((s.modPort t.homeCore (qPort f) fun _ => {}).wakePort t.homeCore (.push (qPort f)), t)
  else (s, t)

/-- A port that a group may bind: free, or its own (R90). -/
def State.portOpen (s : State) (t : Strand) (p : Nat) : Bool :=
  match (s.port t p).owner with
  | none => true
  | some g => decide (g = t.group)

/-- Binds register index `i` to port `p`, as `qbind` does (R90), where the port is open to the group. -/
def State.bindField (s : State) (sid : Nat) (t : Strand) (i p : Nat) : State × Strand :=
  let (s, t) := s.unbindField sid t i
  let s := s.modPort t.homeCore p fun x => { x with owner := some t.group }
  let t := { t with qbind := setQField t.qbind i (BitVec.ofNat 4 (8 + p)) }
  (s.setStrand sid t, t)

/-- A register index or port number: bits [2:0] of a register (R90). -/
def idx3 (w : Word) : Nat := bits w 0 3

/-- The claim of the strand in focus on a port side, which it keeps while it is executed again (R88). -/
def State.claimed (s : State) : Option ParkOn := (s.strand? s.cur).bind fun t => t.claim

/-- The result of a `qbind` or `qunbind` under the bindings that it leaves, those of `t` in `s1` (R88, R90): where it goes to a
port, it waits for earlier operations, and parks at a port without room, in the place of its claim; where it goes to the
register, it waits while that is pending (R80). While it waits nothing of the instruction is performed. -/
def State.rebound (s s1 : State) (t0 t : Strand) (d : GReg) (v : Word) : State :=
  match s1.pushBlocked s.cur { t with claim := s.claimed } [d] with
  | some p => s.park s.cur { t0 with claim := s.claimed } (.push p)
  | none =>
    if t.isPend d || ((t.bound? d).isSome && (t.seqMem || !t.ops.isEmpty)) then s
    else
      let s1 := match s.claimed with
        | some on => s1.wakePort t.homeCore on
        | none => s1
      s1.finish s.cur t d v

/-- `qbind` (R90). -/
def execQbind (d a b : GReg) (s : State) : Host.Outcome State Fault Refusal :=
  issue (.qbind d a b) s fun s1 t rd =>
    let i := idx3 (rd a)
    let p := idx3 (rd b)
    if s1.portOpen t p then
      let q := s1.bindField s.cur t i p
      s.rebound q.1 t q.2 d ((qField t.qbind i).setWidth 64)
    else s.rebound s1 t t d (BitVec.allOnes 64)

/-- `qunbind` (R90). -/
def execQunbind (d a : GReg) (s : State) : Host.Outcome State Fault Refusal :=
  issue (.qunbind d a) s fun s1 t rd =>
    let i := idx3 (rd a)
    let q := s1.unbindField s.cur t i
    s.rebound q.1 t q.2 d ((qField t.qbind i).setWidth 64)

/-- The number of register bindings to a port by the strands of its owner (R90). -/
def State.bindings (s : State) (c p : Nat) : Nat :=
  ((s.strands.filter fun x => decide (x.2.st ≠ .ended) && decide (x.2.homeCore = c)).map fun x =>
    ((List.range 8).filter fun i => decide (qField x.2.qbind i = BitVec.ofNat 4 (8 + p))).length).sum

/-- The result of a message is an engine's. -/
def Msg.engineDest? : Msg → Option Dest
  | .plrd _ _ _ d | .plswitch _ _ _ _ _ d => some d
  | _ => none

/-- The places of the results that a strand's engine commands still owe: commands that wait, messages to the distaff, and
results on their way back. -/
def Strand.engineDests (t : Strand) : List Dest :=
  (t.late.map fun x => x.dest) ++ t.msgs.filterMap Msg.engineDest? ++
    ((t.rets.filter fun r => decide (r.kind = .distaff) || decide (r.kind = .drain)).map fun r =>
      r.dests.map fun (x : Dest × Word) => x.1).flatten

/-- The places of the results that the engines and the distaff owe. -/
def State.engineDests (s : State) : List Dest :=
  (s.cores.map fun (k : Nat × Core) => (k.2.mxq.map fun (x : MxCmd) => x.dest) ++
    k.2.cancels.map fun (x : Nat × Nat × List Nat × Nat × Dest) => x.2.2.2.2).flatten ++
  (s.dies.map fun (d : Nat × Die) => d.2.flushes.map fun (x : Flush) => x.dest).flatten ++
  (s.regions.filterMap fun (r : Nat × PlRegion) => r.2.reply.map fun x => x.2.2) ++
  (s.strands.map fun (t : Nat × Strand) => t.2.engineDests).flatten

/-- A port waits for a value of an engine (R89, R90): an entry is reserved for the result of an engine command. -/
def State.portFed (s : State) (c p : Nat) : Bool :=
  let ds := s.engineDests
  (vget (s.core c).ports p {}).vals.any fun (e : PortEntry) => e.val.isNone && ds.contains (.port p e.tag)

/-- The status word of `qstat` (R90). -/
def State.portStatus (s : State) (t : Strand) (p : Nat) : Word :=
  let x := s.port t p
  if s.portOpen t p then
    let parked := fun (on : ParkOn) => s.strands.any fun y =>
      decide (y.2.st = .parked on) && decide (y.2.homeCore = t.homeCore)
    BitVec.ofNat 64 ((if parked (.pop p) then 2 ^ 19 else 0) + (if parked (.push p) then 2 ^ 18 else 0)
      + (if x.owner = some t.group then 2 ^ 17 else 0) + (if s.portFed t.homeCore p then 2 ^ 16 else 0)
      + s.bindings t.homeCore p * 2 ^ 8 + x.vals.length)
  else 0

/-- `qstat` (R90). -/
def execQstat (d a : GReg) (s : State) : Host.Outcome State Fault Refusal :=
  issue (.qstat d a) s fun s1 t rd =>
    let p := idx3 (rd a)
    s1.finish s.cur t d (if (s1.port t p).owner = none then 0 else s1.portStatus t p)

/-- `qpeek` (R90): the head value, not removed; parks while the port is empty or its head is still reserved, and gives up a
claim on the port that its result goes to. At a sealed home core it raises PEERLOST (R320). It has no claim on the port that
it reads (log entry 63). -/
def execQpeek (d a : GReg) (s : State) : Host.Outcome State Fault Refusal :=
  issue (.qpeek d a) s fun s1 t rd =>
    let p := idx3 (rd a)
    if (s1.core t.homeCore).sealed then s.trap s.cur t .peerlost (peerLostVal t.homeCore)
    else if s1.portOpen t p then
      match (s1.port t p).vals with
      | ⟨some v, _⟩ :: _ => s1.finish s.cur t d v
      | _ => (s.claimGone s.cur).setStrand s.cur { t with st := .parked (.pop p), parkedAt := s.cycle }
    else s1.finish s.cur t d 0

/-- The strand waits on a port operation. -/
def Strand.portWait (t : Strand) : Option (Bool × Nat) :=
  match t.st with
  | .parked (.push p) => some (true, p)
  | .parked (.pop p) => some (false, p)
  | _ => none

/-- The strands of a core in its slots. -/
def State.liveOn (s : State) (c : Nat) : List (Nat × Strand) :=
  s.strands.filter fun x => match x.2.loc with
    | .slot k _ => decide (k = c)
    | _ => false

/-- The condition of R89 on core `c`: every LIVE strand, at least one, has been parked on a port operation for 4,096
cycles, in which no port of the core has moved. -/
def State.wedged (s : State) (c : Nat) : Bool :=
  let ts := s.liveOn c
  !ts.isEmpty && decide ((s.core c).portTime + 4096 ≤ s.cycle) &&
    ts.all fun x => x.2.portWait.isSome && decide (x.2.parkedAt + 4096 ≤ s.cycle)

/-- QWEDGE on core `ua` (R89): the oldest parked pusher, or else the oldest parked popper of a port that no engine
feeds, takes the trap; one strand in each period of 4,096 cycles. -/
def execQwedge (s : State) : Host.Outcome State Fault Refusal :=
  let c := s.ua
  if s.wedged c then
    let ts := s.liveOn c
    let pushers := ts.filter fun x => (x.2.portWait.map fun w => w.1) = some true
    let poppers := ts.filter fun x => match x.2.portWait with
      | some (false, p) => !s.portFed c p
      | _ => false
    match (oldest pushers).orElse fun _ => oldest poppers with
    | none => .next s
    | some (sid, t) =>
      let p := (t.portWait.map fun w => w.2).getD 0
      let s1 := s.modCore c fun k => { k with portTime := s.cycle }
      .next (s1.trap sid t .qwedge (BitVec.ofNat 64 p))
  else .next s

end Sys2Proof.Machine
end

