-- ==== Sys2Proof/Decode.lean ====
section
/-! DEFINITION. Decoding of a 32-bit word (R25 to R37), in the order of R37: major opcode, minor code, reserved fields,
operand limits. Total on every word; a word that is no instruction is rejected by name. After it the encoder, written
from the same formats (R27), and the byte order of an instruction (R25). -/

namespace Sys2Proof

/-- Why a word is not an instruction (R37). -/
inductive Reject where
  /-- the major opcode is 0x00 or reserved -/
  | major
  /-- the minor code, function, condition, engine, operation or selector is unassigned -/
  | minor
  /-- a reserved field is nonzero -/
  | reserved
  /-- an encoded operand lies outside the limits of its field -/
  | operand
  deriving DecidableEq, Repr

/-- The TY code of a type (R30). -/
def Ty.code : Ty → BitVec 4
  | .s8 => 0 | .s16 => 1 | .s32 => 2 | .s64 => 3 | .z8 => 4 | .z16 => 5 | .z32 => 6 | .z64 => 7
  | .e4m3 => 8 | .e5m2 => 9 | .bf16 => 10 | .f32 => 11

/-- The type of a TY code; 12 to 15 name none (R30). -/
def Ty.ofCode? (c : Nat) : Option Ty :=
  match c with
  | 0 => some .s8 | 1 => some .s16 | 2 => some .s32 | 3 => some .s64 | 4 => some .z8 | 5 => some .z16
  | 6 => some .z32 | 7 => some .z64 | 8 => some .e4m3 | 9 => some .e5m2 | 10 => some .bf16 | 11 => some .f32
  | _ => none

/-- The type in a TY field, or the rejection of R30. -/
def decodeTy (c : BitVec 4) : Except Reject Ty :=
  match Ty.ofCode? c.toNat with
  | some y => .ok y
  | none => .error .operand

/-- The engine code of R30. -/
def Eng.code : Eng → BitVec 4
  | .cp => 0 | .mx => 1 | .wk => 2 | .dx => 3 | .pl => 4 | .cl => 5

/-- `ewr` of engine `e`: the register number is bits [10:1], the value register A (R33). The registers whose write is a
row of its own decode to that row. -/
def decodeEwr (e : Eng) (w : BitVec 32) : Except Reject Instr :=
  let r : EngReg := w.extractLsb' 1 10
  let a : GReg := w.extractLsb' 11 5
  match e with
  | .cp => if r = 2 ∨ r = 4 then .ok (.ewrCpDest r a)
           else if 0x31 ≤ r.toNat ∧ r.toNat ≤ 0x36 then .ok (.ewrCpBfmt r a) else .ok (.ewr e a r)
  | .mx => if r = 3 then .ok (.ewrMxScsel a) else if r = 4 then .ok (.ewrMxScval a) else .ok (.ewr e a r)
  | .dx => if r = 0x10 then .ok (.ewrDxOhi a) else if r = 0x11 then .ok (.ewrDxXrel a) else .ok (.ewr e a r)
  | .pl => if 0x20 ≤ r.toNat ∧ r.toNat ≤ 0x23 then .ok (.ewrPlRegion r a) else .ok (.ewr e a r)
  | _ => .ok (.ewr e a r)

/-- `syswr`: the registers whose write is a row of its own decode to that row (R75, R74). -/
def decodeSyswr (w : BitVec 32) : Except Reject Instr :=
  let n : SysNum := w.extractLsb' 0 12
  let a : GReg := w.extractLsb' 16 5
  match n.toNat with
  | 0x05 => .ok (.syswrFrm a)
  | 0x06 => .ok (.syswrTmr a)
  | 0x07 => .ok (.syswrPrio a)
  | 0x08 => .ok (.syswrQbind a)
  | 0x09 => .ok (.syswrKhashKbins a n)
  | 0x0A => .ok (.syswrKhashKbins a n)
  | 0x12 => .ok (.syswrSlottab a n)
  | 0x13 => .ok (.syswrSlottab a n)
  | 0x14 => .ok (.syswrSlottab a n)
  | 0x15 => .ok (.syswrQring a n)
  | 0x16 => .ok (.syswrQring a n)
  | 0x18 => .ok (.swapreq a)
  | _ => .ok (.syswr a n)

/-- The Alu group, MO 0x01 (R32). -/
def decodeAlu (w : BitVec 32) : Except Reject Instr :=
  match (w.extractLsb' 0 7).toNat with
  | 0x00 => if w.extractLsb' 7 4 = 0 then .ok (.add (w.extractLsb' 21 5) (w.extractLsb' 16 5) (w.extractLsb' 11 5)) else .error .reserved
  | 0x01 => if w.extractLsb' 7 4 = 0 then .ok (.sub (w.extractLsb' 21 5) (w.extractLsb' 16 5) (w.extractLsb' 11 5)) else .error .reserved
  | 0x02 => if w.extractLsb' 7 4 = 0 then .ok (.and (w.extractLsb' 21 5) (w.extractLsb' 16 5) (w.extractLsb' 11 5)) else .error .reserved
  | 0x03 => if w.extractLsb' 7 4 = 0 then .ok (.or (w.extractLsb' 21 5) (w.extractLsb' 16 5) (w.extractLsb' 11 5)) else .error .reserved
  | 0x04 => if w.extractLsb' 7 4 = 0 then .ok (.xor (w.extractLsb' 21 5) (w.extractLsb' 16 5) (w.extractLsb' 11 5)) else .error .reserved
  | 0x05 => if w.extractLsb' 7 4 = 0 then .ok (.andn (w.extractLsb' 21 5) (w.extractLsb' 16 5) (w.extractLsb' 11 5)) else .error .reserved
  | 0x06 => if w.extractLsb' 7 4 = 0 then .ok (.shl (w.extractLsb' 21 5) (w.extractLsb' 16 5) (w.extractLsb' 11 5)) else .error .reserved
  | 0x07 => if w.extractLsb' 7 4 = 0 then .ok (.shr (w.extractLsb' 21 5) (w.extractLsb' 16 5) (w.extractLsb' 11 5)) else .error .reserved
  | 0x08 => if w.extractLsb' 7 4 = 0 then .ok (.sra (w.extractLsb' 21 5) (w.extractLsb' 16 5) (w.extractLsb' 11 5)) else .error .reserved
  | 0x09 => if w.extractLsb' 7 4 = 0 then .ok (.slt (w.extractLsb' 21 5) (w.extractLsb' 16 5) (w.extractLsb' 11 5)) else .error .reserved
  | 0x0a => if w.extractLsb' 7 4 = 0 then .ok (.sltu (w.extractLsb' 21 5) (w.extractLsb' 16 5) (w.extractLsb' 11 5)) else .error .reserved
  | 0x0b => if w.extractLsb' 7 4 = 0 then .ok (.min (w.extractLsb' 21 5) (w.extractLsb' 16 5) (w.extractLsb' 11 5)) else .error .reserved
  | 0x0c => if w.extractLsb' 7 4 = 0 then .ok (.max (w.extractLsb' 21 5) (w.extractLsb' 16 5) (w.extractLsb' 11 5)) else .error .reserved
  | 0x0d => if w.extractLsb' 7 4 = 0 then .ok (.minu (w.extractLsb' 21 5) (w.extractLsb' 16 5) (w.extractLsb' 11 5)) else .error .reserved
  | 0x0e => if w.extractLsb' 7 4 = 0 then .ok (.maxu (w.extractLsb' 21 5) (w.extractLsb' 16 5) (w.extractLsb' 11 5)) else .error .reserved
  | 0x0f => if w.extractLsb' 7 4 = 0 then .ok (.seq (w.extractLsb' 21 5) (w.extractLsb' 16 5) (w.extractLsb' 11 5)) else .error .reserved
  | 0x10 => if w.extractLsb' 7 4 = 0 then .ok (.addw (w.extractLsb' 21 5) (w.extractLsb' 16 5) (w.extractLsb' 11 5)) else .error .reserved
  | 0x11 => if w.extractLsb' 7 4 = 0 then .ok (.subw (w.extractLsb' 21 5) (w.extractLsb' 16 5) (w.extractLsb' 11 5)) else .error .reserved
  | 0x12 => if w.extractLsb' 7 4 = 0 then .ok (.shlw (w.extractLsb' 21 5) (w.extractLsb' 16 5) (w.extractLsb' 11 5)) else .error .reserved
  | 0x13 => if w.extractLsb' 7 4 = 0 then .ok (.shrw (w.extractLsb' 21 5) (w.extractLsb' 16 5) (w.extractLsb' 11 5)) else .error .reserved
  | 0x14 => if w.extractLsb' 7 4 = 0 then .ok (.sraw (w.extractLsb' 21 5) (w.extractLsb' 16 5) (w.extractLsb' 11 5)) else .error .reserved
  | _ => .error .minor

/-- The ShiftImm group, MO 0x06 (R32). -/
def decodeShiftImm (w : BitVec 32) : Except Reject Instr :=
  match (w.extractLsb' 14 2).toNat with
  | 0x00 => if w.extractLsb' 6 8 = 0 then .ok (.shli (w.extractLsb' 21 5) (w.extractLsb' 16 5) (w.extractLsb' 0 6)) else .error .reserved
  | 0x01 => if w.extractLsb' 6 8 = 0 then .ok (.shri (w.extractLsb' 21 5) (w.extractLsb' 16 5) (w.extractLsb' 0 6)) else .error .reserved
  | 0x02 => if w.extractLsb' 6 8 = 0 then .ok (.srai (w.extractLsb' 21 5) (w.extractLsb' 16 5) (w.extractLsb' 0 6)) else .error .reserved
  | _ => .error .minor

/-- The MulDiv group, MO 0x0a (R32). -/
def decodeMulDiv (w : BitVec 32) : Except Reject Instr :=
  match (w.extractLsb' 0 7).toNat with
  | 0x00 => if w.extractLsb' 7 4 = 0 then .ok (.mul (w.extractLsb' 21 5) (w.extractLsb' 16 5) (w.extractLsb' 11 5)) else .error .reserved
  | 0x01 => if w.extractLsb' 7 4 = 0 then .ok (.mulh (w.extractLsb' 21 5) (w.extractLsb' 16 5) (w.extractLsb' 11 5)) else .error .reserved
  | 0x02 => if w.extractLsb' 7 4 = 0 then .ok (.mulhu (w.extractLsb' 21 5) (w.extractLsb' 16 5) (w.extractLsb' 11 5)) else .error .reserved
  | 0x03 => if w.extractLsb' 7 4 = 0 then .ok (.mulw (w.extractLsb' 21 5) (w.extractLsb' 16 5) (w.extractLsb' 11 5)) else .error .reserved
  | 0x04 => if w.extractLsb' 7 4 = 0 then .ok (.div (w.extractLsb' 21 5) (w.extractLsb' 16 5) (w.extractLsb' 11 5)) else .error .reserved
  | 0x05 => if w.extractLsb' 7 4 = 0 then .ok (.divu (w.extractLsb' 21 5) (w.extractLsb' 16 5) (w.extractLsb' 11 5)) else .error .reserved
  | 0x06 => if w.extractLsb' 7 4 = 0 then .ok (.rem (w.extractLsb' 21 5) (w.extractLsb' 16 5) (w.extractLsb' 11 5)) else .error .reserved
  | 0x07 => if w.extractLsb' 7 4 = 0 then .ok (.remu (w.extractLsb' 21 5) (w.extractLsb' 16 5) (w.extractLsb' 11 5)) else .error .reserved
  | 0x08 => if w.extractLsb' 7 4 = 0 then .ok (.divw (w.extractLsb' 21 5) (w.extractLsb' 16 5) (w.extractLsb' 11 5)) else .error .reserved
  | 0x09 => if w.extractLsb' 7 4 = 0 then .ok (.remw (w.extractLsb' 21 5) (w.extractLsb' 16 5) (w.extractLsb' 11 5)) else .error .reserved
  | _ => .error .minor

/-- The Bits group, MO 0x0b (R32). -/
def decodeBits (w : BitVec 32) : Except Reject Instr :=
  match (w.extractLsb' 0 7).toNat with
  | 0x00 => if w.extractLsb' 7 9 = 0 then .ok (.clz (w.extractLsb' 21 5) (w.extractLsb' 16 5)) else .error .reserved
  | 0x01 => if w.extractLsb' 7 9 = 0 then .ok (.ctz (w.extractLsb' 21 5) (w.extractLsb' 16 5)) else .error .reserved
  | 0x02 => if w.extractLsb' 7 9 = 0 then .ok (.popc (w.extractLsb' 21 5) (w.extractLsb' 16 5)) else .error .reserved
  | 0x03 => if w.extractLsb' 7 9 = 0 then .ok (.bswap (w.extractLsb' 21 5) (w.extractLsb' 16 5)) else .error .reserved
  | 0x04 => if w.extractLsb' 7 4 = 0 then .ok (.bext (w.extractLsb' 21 5) (w.extractLsb' 16 5) (w.extractLsb' 11 5)) else .error .reserved
  | 0x05 => if w.extractLsb' 7 4 = 0 then .ok (.bins (w.extractLsb' 21 5) (w.extractLsb' 16 5) (w.extractLsb' 11 5)) else .error .reserved
  | 0x06 => if w.extractLsb' 7 4 = 0 then .ok (.sext (w.extractLsb' 21 5) (w.extractLsb' 16 5) (w.extractLsb' 11 5)) else .error .reserved
  | 0x07 => if w.extractLsb' 7 4 = 0 then .ok (.zext (w.extractLsb' 21 5) (w.extractLsb' 16 5) (w.extractLsb' 11 5)) else .error .reserved
  | _ => .error .minor

/-- The Branch group, MO 0x0c (R32). -/
def decodeBranch (w : BitVec 32) : Except Reject Instr :=
  match (w.extractLsb' 13 3).toNat with
  | 0x00 => .ok (.beq (w.extractLsb' 21 5) (w.extractLsb' 16 5) (w.extractLsb' 0 13))
  | 0x01 => .ok (.bne (w.extractLsb' 21 5) (w.extractLsb' 16 5) (w.extractLsb' 0 13))
  | 0x02 => .ok (.blt (w.extractLsb' 21 5) (w.extractLsb' 16 5) (w.extractLsb' 0 13))
  | 0x03 => .ok (.bge (w.extractLsb' 21 5) (w.extractLsb' 16 5) (w.extractLsb' 0 13))
  | 0x04 => .ok (.bltu (w.extractLsb' 21 5) (w.extractLsb' 16 5) (w.extractLsb' 0 13))
  | 0x05 => .ok (.bgeu (w.extractLsb' 21 5) (w.extractLsb' 16 5) (w.extractLsb' 0 13))
  | _ => .error .minor

/-- The Id group, MO 0x0f (R32). -/
def decodeId (w : BitVec 32) : Except Reject Instr :=
  match (w.extractLsb' 0 7).toNat with
  | 0x00 => if w.extractLsb' 7 9 = 0 then .ok (.widf (w.extractLsb' 21 5) (w.extractLsb' 16 5)) else .error .reserved
  | 0x01 => if w.extractLsb' 7 14 = 0 then .ok (.wid (w.extractLsb' 21 5)) else .error .reserved
  | 0x02 => if w.extractLsb' 7 14 = 0 then .ok (.self (w.extractLsb' 21 5)) else .error .reserved
  | 0x03 => if w.extractLsb' 7 14 = 0 then .ok (.cyc (w.extractLsb' 21 5)) else .error .reserved
  | 0x04 => if w.extractLsb' 7 14 = 0 then .ok (.tick (w.extractLsb' 21 5)) else .error .reserved
  | 0x05 => if w.extractLsb' 7 14 = 0 then .ok (.grp (w.extractLsb' 21 5)) else .error .reserved
  | _ => .error .minor

/-- The Sync group, MO 0x1d (R32). -/
def decodeSync (w : BitVec 32) : Except Reject Instr :=
  match (w.extractLsb' 0 11).toNat with
  | 0x00 => .ok (.ldf (w.extractLsb' 21 5) (w.extractLsb' 16 5) (w.extractLsb' 11 5))
  | 0x01 => .ok (.ldfe (w.extractLsb' 21 5) (w.extractLsb' 16 5) (w.extractLsb' 11 5))
  | 0x02 => .ok (.stef (w.extractLsb' 21 5) (w.extractLsb' 16 5) (w.extractLsb' 11 5))
  | 0x03 => .ok (.stf (w.extractLsb' 21 5) (w.extractLsb' 16 5) (w.extractLsb' 11 5))
  | 0x04 => if w.extractLsb' 21 5 = 0 then .ok (.sete (w.extractLsb' 16 5) (w.extractLsb' 11 5)) else .error .reserved
  | 0x05 => .ok (.fetest (w.extractLsb' 21 5) (w.extractLsb' 16 5) (w.extractLsb' 11 5))
  | _ => .error .minor

/-- The Amo group, MO 0x1e (R32). -/
def decodeAmo (w : BitVec 32) : Except Reject Instr :=
  match (w.extractLsb' 0 6).toNat with
  | 0x00 => .ok (.amoadd (w.extractLsb' 21 5) (w.extractLsb' 16 5) (w.extractLsb' 11 5) (w.extractLsb' 6 5))
  | 0x01 => .ok (.amoand (w.extractLsb' 21 5) (w.extractLsb' 16 5) (w.extractLsb' 11 5) (w.extractLsb' 6 5))
  | 0x02 => .ok (.amoor (w.extractLsb' 21 5) (w.extractLsb' 16 5) (w.extractLsb' 11 5) (w.extractLsb' 6 5))
  | 0x03 => .ok (.amoxor (w.extractLsb' 21 5) (w.extractLsb' 16 5) (w.extractLsb' 11 5) (w.extractLsb' 6 5))
  | 0x04 => .ok (.amomin (w.extractLsb' 21 5) (w.extractLsb' 16 5) (w.extractLsb' 11 5) (w.extractLsb' 6 5))
  | 0x05 => .ok (.amomax (w.extractLsb' 21 5) (w.extractLsb' 16 5) (w.extractLsb' 11 5) (w.extractLsb' 6 5))
  | 0x06 => .ok (.amominu (w.extractLsb' 21 5) (w.extractLsb' 16 5) (w.extractLsb' 11 5) (w.extractLsb' 6 5))
  | 0x07 => .ok (.amomaxu (w.extractLsb' 21 5) (w.extractLsb' 16 5) (w.extractLsb' 11 5) (w.extractLsb' 6 5))
  | 0x08 => .ok (.amoswap (w.extractLsb' 21 5) (w.extractLsb' 16 5) (w.extractLsb' 11 5) (w.extractLsb' 6 5))
  | 0x09 => .ok (.amocas (w.extractLsb' 21 5) (w.extractLsb' 16 5) (w.extractLsb' 11 5) (w.extractLsb' 6 5))
  | 0x0a => .ok (.amoaddw (w.extractLsb' 21 5) (w.extractLsb' 16 5) (w.extractLsb' 11 5) (w.extractLsb' 6 5))
  | 0x0b => .ok (.amofaddF32 (w.extractLsb' 21 5) (w.extractLsb' 16 5) (w.extractLsb' 11 5) (w.extractLsb' 6 5))
  | _ => .error .minor

/-- The Hnd group, MO 0x1f (R32). -/
def decodeHnd (w : BitVec 32) : Except Reject Instr :=
  match (w.extractLsb' 0 7).toNat with
  | 0x00 => if w.extractLsb' 7 5 = 0 then .ok (.hsub (w.extractLsb' 21 5) (w.extractLsb' 16 5) (w.extractLsb' 12 4)) else .error .reserved
  | 0x01 => if w.extractLsb' 7 4 = 0 then .ok (.hrd (w.extractLsb' 21 5) (w.extractLsb' 16 5) (w.extractLsb' 11 5)) else .error .reserved
  | 0x02 => if w.extractLsb' 7 14 = 0 then .ok (.hclr (w.extractLsb' 21 5)) else .error .reserved
  | _ => .error .minor

/-- The Valu group, MO 0x20 (R32). -/
def decodeValu (w : BitVec 32) : Except Reject Instr :=
  match (w.extractLsb' 0 6).toNat with
  | 0x00 => if w.extractLsb' 10 4 = 0 then (decodeTy (w.extractLsb' 6 4)).bind fun yT => .ok (.vadd (w.extractLsb' 22 4) (w.extractLsb' 18 4) (w.extractLsb' 14 4) yT) else .error .reserved
  | 0x01 => if w.extractLsb' 10 4 = 0 then (decodeTy (w.extractLsb' 6 4)).bind fun yT => .ok (.vsub (w.extractLsb' 22 4) (w.extractLsb' 18 4) (w.extractLsb' 14 4) yT) else .error .reserved
  | 0x02 => if w.extractLsb' 10 4 = 0 then (decodeTy (w.extractLsb' 6 4)).bind fun yT => .ok (.vmul (w.extractLsb' 22 4) (w.extractLsb' 18 4) (w.extractLsb' 14 4) yT) else .error .reserved
  | 0x03 => (decodeTy (w.extractLsb' 6 4)).bind fun yT => .ok (.vfma (w.extractLsb' 22 4) (w.extractLsb' 18 4) (w.extractLsb' 14 4) (w.extractLsb' 10 4) yT)
  | 0x04 => if w.extractLsb' 10 4 = 0 then (decodeTy (w.extractLsb' 6 4)).bind fun yT => .ok (.vmin (w.extractLsb' 22 4) (w.extractLsb' 18 4) (w.extractLsb' 14 4) yT) else .error .reserved
  | 0x05 => if w.extractLsb' 10 4 = 0 then (decodeTy (w.extractLsb' 6 4)).bind fun yT => .ok (.vmax (w.extractLsb' 22 4) (w.extractLsb' 18 4) (w.extractLsb' 14 4) yT) else .error .reserved
  | 0x06 => if w.extractLsb' 10 8 = 0 then (decodeTy (w.extractLsb' 6 4)).bind fun yT => .ok (.vabs (w.extractLsb' 22 4) (w.extractLsb' 18 4) yT) else .error .reserved
  | 0x07 => if w.extractLsb' 10 8 = 0 then (decodeTy (w.extractLsb' 6 4)).bind fun yT => .ok (.vneg (w.extractLsb' 22 4) (w.extractLsb' 18 4) yT) else .error .reserved
  | 0x08 => if w.extractLsb' 10 4 = 0 then (decodeTy (w.extractLsb' 6 4)).bind fun yT => .ok (.vand (w.extractLsb' 22 4) (w.extractLsb' 18 4) (w.extractLsb' 14 4) yT) else .error .reserved
  | 0x09 => if w.extractLsb' 10 4 = 0 then (decodeTy (w.extractLsb' 6 4)).bind fun yT => .ok (.vor (w.extractLsb' 22 4) (w.extractLsb' 18 4) (w.extractLsb' 14 4) yT) else .error .reserved
  | 0x0a => if w.extractLsb' 10 4 = 0 then (decodeTy (w.extractLsb' 6 4)).bind fun yT => .ok (.vxor (w.extractLsb' 22 4) (w.extractLsb' 18 4) (w.extractLsb' 14 4) yT) else .error .reserved
  | 0x0b => if w.extractLsb' 10 4 = 0 then (decodeTy (w.extractLsb' 6 4)).bind fun yT => .ok (.vshl (w.extractLsb' 22 4) (w.extractLsb' 18 4) (w.extractLsb' 14 4) yT) else .error .reserved
  | 0x0c => if w.extractLsb' 10 4 = 0 then (decodeTy (w.extractLsb' 6 4)).bind fun yT => .ok (.vshr (w.extractLsb' 22 4) (w.extractLsb' 18 4) (w.extractLsb' 14 4) yT) else .error .reserved
  | 0x0d => if w.extractLsb' 10 4 = 0 then (decodeTy (w.extractLsb' 6 4)).bind fun yT => .ok (.vcmpeq (w.extractLsb' 22 4) (w.extractLsb' 18 4) (w.extractLsb' 14 4) yT) else .error .reserved
  | 0x0e => if w.extractLsb' 10 4 = 0 then (decodeTy (w.extractLsb' 6 4)).bind fun yT => .ok (.vcmplt (w.extractLsb' 22 4) (w.extractLsb' 18 4) (w.extractLsb' 14 4) yT) else .error .reserved
  | 0x0f => if w.extractLsb' 10 4 = 0 then (decodeTy (w.extractLsb' 6 4)).bind fun yT => .ok (.vcmple (w.extractLsb' 22 4) (w.extractLsb' 18 4) (w.extractLsb' 14 4) yT) else .error .reserved
  | 0x10 => (decodeTy (w.extractLsb' 6 4)).bind fun yT => .ok (.vsel (w.extractLsb' 22 4) (w.extractLsb' 18 4) (w.extractLsb' 14 4) (w.extractLsb' 10 4) yT)
  | 0x11 => (decodeTy (w.extractLsb' 6 4)).bind fun yT => .ok (.vdot (w.extractLsb' 22 4) (w.extractLsb' 18 4) (w.extractLsb' 14 4) (w.extractLsb' 10 4) yT)
  | 0x12 => if w.extractLsb' 10 4 = 0 then (decodeTy (w.extractLsb' 6 4)).bind fun yT => .ok (.vaddsat (w.extractLsb' 22 4) (w.extractLsb' 18 4) (w.extractLsb' 14 4) yT) else .error .reserved
  | 0x13 => if w.extractLsb' 10 4 = 0 then (decodeTy (w.extractLsb' 6 4)).bind fun yT => .ok (.vsubsat (w.extractLsb' 22 4) (w.extractLsb' 18 4) (w.extractLsb' 14 4) yT) else .error .reserved
  | 0x14 => if w.extractLsb' 10 4 = 0 then (decodeTy (w.extractLsb' 6 4)).bind fun yT => .ok (.vmulh (w.extractLsb' 22 4) (w.extractLsb' 18 4) (w.extractLsb' 14 4) yT) else .error .reserved
  | _ => .error .minor

/-- The Vcvt group, MO 0x21 (R32). -/
def decodeVcvt (w : BitVec 32) : Except Reject Instr :=
  match (w.extractLsb' 0 6).toNat with
  | 0x00 => if w.extractLsb' 13 1 = 0 then (decodeTy (w.extractLsb' 14 4)).bind fun s0T => (decodeTy (w.extractLsb' 6 4)).bind fun yT => .ok (.vcvt (w.extractLsb' 22 4) (w.extractLsb' 18 4) s0T (w.extractLsb' 10 3) yT) else .error .reserved
  | 0x01 => if w.extractLsb' 10 8 = 0 then (decodeTy (w.extractLsb' 6 4)).bind fun yT => .ok (.vrcp (w.extractLsb' 22 4) (w.extractLsb' 18 4) yT) else .error .reserved
  | 0x02 => if w.extractLsb' 10 8 = 0 then (decodeTy (w.extractLsb' 6 4)).bind fun yT => .ok (.vrsqrt (w.extractLsb' 22 4) (w.extractLsb' 18 4) yT) else .error .reserved
  | 0x03 => if w.extractLsb' 10 8 = 0 then (decodeTy (w.extractLsb' 6 4)).bind fun yT => .ok (.vsqrt (w.extractLsb' 22 4) (w.extractLsb' 18 4) yT) else .error .reserved
  | 0x04 => if w.extractLsb' 10 4 = 0 then (decodeTy (w.extractLsb' 6 4)).bind fun yT => .ok (.vdiv (w.extractLsb' 22 4) (w.extractLsb' 18 4) (w.extractLsb' 14 4) yT) else .error .reserved
  | 0x05 => if w.extractLsb' 10 8 = 0 then (decodeTy (w.extractLsb' 6 4)).bind fun yT => .ok (.vexp2 (w.extractLsb' 22 4) (w.extractLsb' 18 4) yT) else .error .reserved
  | 0x06 => if w.extractLsb' 10 8 = 0 then (decodeTy (w.extractLsb' 6 4)).bind fun yT => .ok (.vlog2 (w.extractLsb' 22 4) (w.extractLsb' 18 4) yT) else .error .reserved
  | 0x07 => if w.extractLsb' 10 8 = 0 then (decodeTy (w.extractLsb' 6 4)).bind fun yT => .ok (.vtanh (w.extractLsb' 22 4) (w.extractLsb' 18 4) yT) else .error .reserved
  | 0x08 => if w.extractLsb' 10 8 = 0 then (decodeTy (w.extractLsb' 6 4)).bind fun yT => .ok (.vsigm (w.extractLsb' 22 4) (w.extractLsb' 18 4) yT) else .error .reserved
  | _ => .error .minor

/-- The Vperm group, MO 0x22 (R32). -/
def decodeVperm (w : BitVec 32) : Except Reject Instr :=
  match (w.extractLsb' 0 6).toNat with
  | 0x00 => if w.extractLsb' 10 8 = 0 then (decodeTy (w.extractLsb' 6 4)).bind fun yT => .ok (.vbcast (w.extractLsb' 22 4) (w.extractLsb' 18 4) yT) else .error .reserved
  | 0x01 => if w.extractLsb' 14 4 = 0 then (decodeTy (w.extractLsb' 6 4)).bind fun yT => .ok (.vins (w.extractLsb' 22 4) (w.extractLsb' 18 4) (w.extractLsb' 10 4) yT) else .error .reserved
  | 0x02 => if w.extractLsb' 14 4 = 0 then (decodeTy (w.extractLsb' 6 4)).bind fun yT => .ok (.vext (w.extractLsb' 22 4) (w.extractLsb' 18 4) (w.extractLsb' 10 4) yT) else .error .reserved
  | 0x03 => if w.extractLsb' 10 4 = 0 then (decodeTy (w.extractLsb' 6 4)).bind fun yT => .ok (.vshuf (w.extractLsb' 22 4) (w.extractLsb' 18 4) (w.extractLsb' 14 4) yT) else .error .reserved
  | 0x04 => if w.extractLsb' 11 3 = 0 then (decodeTy (w.extractLsb' 6 4)).bind fun yT => .ok (.vzip (w.extractLsb' 22 4) (w.extractLsb' 18 4) (w.extractLsb' 14 4) (w.extractLsb' 10 1) yT) else .error .reserved
  | 0x05 => if w.extractLsb' 11 3 = 0 then (decodeTy (w.extractLsb' 6 4)).bind fun yT => .ok (.vunzip (w.extractLsb' 22 4) (w.extractLsb' 18 4) (w.extractLsb' 14 4) (w.extractLsb' 10 1) yT) else .error .reserved
  | 0x06 => if w.extractLsb' 10 8 = 0 then (decodeTy (w.extractLsb' 6 4)).bind fun yT => .ok (.vredsum (w.extractLsb' 22 4) (w.extractLsb' 18 4) yT) else .error .reserved
  | 0x07 => if w.extractLsb' 10 8 = 0 then (decodeTy (w.extractLsb' 6 4)).bind fun yT => .ok (.vredmax (w.extractLsb' 22 4) (w.extractLsb' 18 4) yT) else .error .reserved
  | 0x08 => if w.extractLsb' 10 8 = 0 then (decodeTy (w.extractLsb' 6 4)).bind fun yT => .ok (.vredmin (w.extractLsb' 22 4) (w.extractLsb' 18 4) yT) else .error .reserved
  | 0x09 => if w.extractLsb' 12 6 = 0 then (decodeTy (w.extractLsb' 6 4)).bind fun yT => .ok (.vsort (w.extractLsb' 22 4) (w.extractLsb' 18 4) (w.extractLsb' 10 2) yT) else .error .reserved
  | 0x0a => if w.extractLsb' 11 3 = 0 then (decodeTy (w.extractLsb' 6 4)).bind fun yT => .ok (.vmerge (w.extractLsb' 22 4) (w.extractLsb' 18 4) (w.extractLsb' 14 4) (w.extractLsb' 10 1) yT) else .error .reserved
  | 0x0b => if w.extractLsb' 11 3 = 0 then (decodeTy (w.extractLsb' 6 4)).bind fun yT => .ok (.vsrch (w.extractLsb' 22 4) (w.extractLsb' 18 4) (w.extractLsb' 14 4) (w.extractLsb' 10 1) yT) else .error .reserved
  | 0x0c => if w.extractLsb' 10 4 = 0 then (decodeTy (w.extractLsb' 6 4)).bind fun yT => .ok (.vcompress (w.extractLsb' 22 4) (w.extractLsb' 18 4) (w.extractLsb' 14 4) yT) else .error .reserved
  | 0x0d => if w.extractLsb' 10 4 = 0 then (decodeTy (w.extractLsb' 6 4)).bind fun yT => .ok (.vexpand (w.extractLsb' 22 4) (w.extractLsb' 18 4) (w.extractLsb' 14 4) yT) else .error .reserved
  | 0x0e => if w.extractLsb' 10 8 = 0 then (decodeTy (w.extractLsb' 6 4)).bind fun yT => .ok (.vpopc (w.extractLsb' 22 4) (w.extractLsb' 18 4) yT) else .error .reserved
  | 0x0f => if w.extractLsb' 10 8 = 0 then (decodeTy (w.extractLsb' 6 4)).bind fun yT => .ok (.vfirst (w.extractLsb' 22 4) (w.extractLsb' 18 4) yT) else .error .reserved
  | 0x10 => if w.extractLsb' 10 4 = 0 ∧ w.extractLsb' 22 4 = 0 then (decodeTy (w.extractLsb' 6 4)).bind fun yT => .ok (.ksend (w.extractLsb' 18 4) (w.extractLsb' 14 4) yT) else .error .reserved
  | _ => .error .minor

/-- The Vseq group, MO 0x23 (R32). -/
def decodeVseq (w : BitVec 32) : Except Reject Instr :=
  match (w.extractLsb' 0 7).toNat with
  | 0x00 => if w.extractLsb' 21 5 = 0 then .ok (.vbegin (w.extractLsb' 16 5) (w.extractLsb' 11 5) (w.extractLsb' 7 4)) else .error .reserved
  | 0x01 => if w.extractLsb' 7 19 = 0 then .ok .vsync else .error .reserved
  | 0x02 => if w.extractLsb' 7 14 = 0 then .ok (.vstat (w.extractLsb' 21 5)) else .error .reserved
  | _ => .error .minor

/-- The Que group, MO 0x24 (R32). -/
def decodeQue (w : BitVec 32) : Except Reject Instr :=
  match (w.extractLsb' 0 7).toNat with
  | 0x00 => if w.extractLsb' 7 4 = 0 then .ok (.qbind (w.extractLsb' 21 5) (w.extractLsb' 16 5) (w.extractLsb' 11 5)) else .error .reserved
  | 0x01 => if w.extractLsb' 7 9 = 0 then .ok (.qunbind (w.extractLsb' 21 5) (w.extractLsb' 16 5)) else .error .reserved
  | 0x02 => if w.extractLsb' 7 9 = 0 then .ok (.qstat (w.extractLsb' 21 5) (w.extractLsb' 16 5)) else .error .reserved
  | 0x03 => if w.extractLsb' 7 9 = 0 then .ok (.qpeek (w.extractLsb' 21 5) (w.extractLsb' 16 5)) else .error .reserved
  | _ => .error .minor

/-- The Task group, MO 0x27 (R32). -/
def decodeTask (w : BitVec 32) : Except Reject Instr :=
  match (w.extractLsb' 0 7).toNat with
  | 0x00 => if w.extractLsb' 7 4 = 0 then .ok (.spawn (w.extractLsb' 21 5) (w.extractLsb' 16 5) (w.extractLsb' 11 5)) else .error .reserved
  | 0x01 => if w.extractLsb' 7 4 = 0 then .ok (.spawnd (w.extractLsb' 21 5) (w.extractLsb' 16 5) (w.extractLsb' 11 5)) else .error .reserved
  | 0x02 => if w.extractLsb' 7 19 = 0 then .ok .quit else .error .reserved
  | 0x03 => if w.extractLsb' 7 14 = 0 then .ok (.yield (w.extractLsb' 21 5)) else .error .reserved
  | 0x04 => if w.extractLsb' 7 4 = 0 then .ok (.migrate (w.extractLsb' 21 5) (w.extractLsb' 16 5) (w.extractLsb' 11 5)) else .error .reserved
  | 0x05 => if w.extractLsb' 7 9 = 0 then .ok (.tqpush (w.extractLsb' 21 5) (w.extractLsb' 16 5)) else .error .reserved
  | 0x06 => if w.extractLsb' 7 9 = 0 then .ok (.tqpop (w.extractLsb' 21 5) (w.extractLsb' 16 5)) else .error .reserved
  | 0x07 => if w.extractLsb' 7 9 = 0 then .ok (.tmr (w.extractLsb' 21 5) (w.extractLsb' 16 5)) else .error .reserved
  | 0x08 => if w.extractLsb' 7 9 = 0 then .ok (.prio (w.extractLsb' 21 5) (w.extractLsb' 16 5)) else .error .reserved
  | _ => .error .minor

/-- The Bar group, MO 0x28 (R32). -/
def decodeBar (w : BitVec 32) : Except Reject Instr :=
  match (w.extractLsb' 0 7).toNat with
  | 0x00 => if w.extractLsb' 9 2 = 0 then .ok (.bset (w.extractLsb' 21 5) (w.extractLsb' 16 5) (w.extractLsb' 11 5) (w.extractLsb' 7 2)) else .error .reserved
  | 0x01 => if w.extractLsb' 9 12 = 0 then .ok (.barv (w.extractLsb' 21 5) (w.extractLsb' 7 2)) else .error .reserved
  | 0x02 => if w.extractLsb' 9 7 = 0 then .ok (.bwait (w.extractLsb' 21 5) (w.extractLsb' 16 5) (w.extractLsb' 7 2)) else .error .reserved
  | 0x03 => if w.extractLsb' 9 12 = 0 then .ok (.barw (w.extractLsb' 21 5) (w.extractLsb' 7 2)) else .error .reserved
  | 0x04 => if w.extractLsb' 9 7 = 0 then .ok (.bto (w.extractLsb' 21 5) (w.extractLsb' 16 5) (w.extractLsb' 7 2)) else .error .reserved
  | _ => .error .minor

/-- The Skn group, MO 0x29 (R32). -/
def decodeSkn (w : BitVec 32) : Except Reject Instr :=
  match (w.extractLsb' 0 11).toNat with
  | 0x00 => .ok (.susp (w.extractLsb' 21 5) (w.extractLsb' 16 5) (w.extractLsb' 11 5))
  | 0x01 => if w.extractLsb' 21 1 = 0 then .ok (.resume (w.extractLsb' 22 4) (w.extractLsb' 16 5) (w.extractLsb' 11 5)) else .error .reserved
  | 0x02 => .ok (.sdrop (w.extractLsb' 21 5) (w.extractLsb' 16 5) (w.extractLsb' 11 5))
  | 0x03 => if w.extractLsb' 21 1 = 0 then .ok (.sclone (w.extractLsb' 22 4) (w.extractLsb' 16 5) (w.extractLsb' 11 5)) else .error .reserved
  | 0x04 => if w.extractLsb' 21 1 = 0 then .ok (.sver (w.extractLsb' 22 4) (w.extractLsb' 16 5) (w.extractLsb' 11 5)) else .error .reserved
  | _ => .error .minor

/-- The Lnch group, MO 0x2a (R32). -/
def decodeLnch (w : BitVec 32) : Except Reject Instr :=
  match (w.extractLsb' 0 11).toNat with
  | 0x00 => .ok (.launch (w.extractLsb' 21 5) (w.extractLsb' 16 5) (w.extractLsb' 11 5))
  | 0x01 => if w.extractLsb' 11 15 = 0 then .ok .trig else .error .reserved
  | 0x02 => .ok (.chplay (w.extractLsb' 21 5) (w.extractLsb' 16 5) (w.extractLsb' 11 5))
  | _ => .error .minor

/-- The Sys group, MO 0x30 (R32). -/
def decodeSys (w : BitVec 32) : Except Reject Instr :=
  match (w.extractLsb' 12 4).toNat with
  | 0x00 => if w.extractLsb' 16 5 = 0 then .ok (.sysrd (w.extractLsb' 21 5) (w.extractLsb' 0 12)) else .error .reserved
  | 0x01 => if w.extractLsb' 21 5 = 0 then decodeSyswr w else .error .reserved
  | 0x02 => if w.extractLsb' 16 10 = 0 then .ok (.trap (w.extractLsb' 0 12)) else .error .reserved
  | 0x03 => if w.extractLsb' 0 12 = 0 ∧ w.extractLsb' 16 10 = 0 then .ok .eret else .error .reserved
  | 0x04 => if w.extractLsb' 16 10 = 0 then .ok (.brk (w.extractLsb' 0 12)) else .error .reserved
  | 0x05 => if w.extractLsb' 0 12 = 0 ∧ w.extractLsb' 16 10 = 0 then .ok .idle else .error .reserved
  | _ => .error .minor

/-- The functions of engine cp (R33). -/
def decodeEngCp (w : BitVec 32) : Except Reject Instr :=
  match (w.extractLsb' 16 6).toNat with
  | 0x00 => if w.extractLsb' 0 1 = 0 then decodeEwr .cp w else .error .reserved
  | 0x01 => if w.extractLsb' 0 1 = 0 then .ok (.erd .cp (w.extractLsb' 6 10) (w.extractLsb' 1 5)) else .error .reserved
  | 0x02 => if w.extractLsb' 1 15 = 0 then .ok (.cpgo (w.extractLsb' 0 1)) else .error .reserved
  | 0x03 => if w.extractLsb' 1 15 = 0 then .ok (.cphint (w.extractLsb' 0 1)) else .error .reserved
  | 0x04 => if w.extractLsb' 6 10 = 0 then .ok (.cpcancel (w.extractLsb' 1 5) (w.extractLsb' 0 1)) else .error .reserved
  | 0x05 => if w.extractLsb' 6 10 = 0 then .ok (.cpstat (w.extractLsb' 1 5) (w.extractLsb' 0 1)) else .error .reserved
  | _ => .error .minor

/-- The functions of engine mx (R33). -/
def decodeEngMx (w : BitVec 32) : Except Reject Instr :=
  match (w.extractLsb' 16 6).toNat with
  | 0x00 => if w.extractLsb' 0 1 = 0 then decodeEwr .mx w else .error .reserved
  | 0x01 => if w.extractLsb' 0 1 = 0 then .ok (.erd .mx (w.extractLsb' 6 10) (w.extractLsb' 1 5)) else .error .reserved
  | 0x02 => if w.extractLsb' 0 1 = 0 ∧ w.extractLsb' 6 5 = 0 then .ok (.oclaim (w.extractLsb' 11 5) (w.extractLsb' 1 5)) else .error .reserved
  | 0x03 => if w.extractLsb' 0 1 = 0 ∧ w.extractLsb' 6 5 = 0 then .ok (.orel (w.extractLsb' 11 5) (w.extractLsb' 1 5)) else .error .reserved
  | 0x04 => if w.extractLsb' 2 4 = 0 then .ok (.mm (w.extractLsb' 11 5) (w.extractLsb' 6 5) (w.extractLsb' 1 1) (w.extractLsb' 0 1)) else .error .reserved
  | 0x05 => if w.extractLsb' 2 4 = 0 then .ok (.mmg (w.extractLsb' 11 5) (w.extractLsb' 6 5) (w.extractLsb' 1 1) (w.extractLsb' 0 1)) else .error .reserved
  | 0x06 => if w.extractLsb' 2 4 = 0 ∧ w.extractLsb' 11 5 = 0 then .ok (.mdrain (w.extractLsb' 6 5) (w.extractLsb' 1 1) (w.extractLsb' 0 1)) else .error .reserved
  | 0x07 => if w.extractLsb' 2 14 = 0 then .ok (.mclr (w.extractLsb' 1 1) (w.extractLsb' 0 1)) else .error .reserved
  | 0x08 => if w.extractLsb' 1 5 = 0 ∧ w.extractLsb' 11 5 = 0 then .ok (.mchk (w.extractLsb' 6 5) (w.extractLsb' 0 1)) else .error .reserved
  | _ => .error .minor

/-- The functions of engine wk (R33). -/
def decodeEngWk (w : BitVec 32) : Except Reject Instr :=
  match (w.extractLsb' 16 6).toNat with
  | 0x00 => if w.extractLsb' 0 1 = 0 then decodeEwr .wk w else .error .reserved
  | 0x01 => if w.extractLsb' 0 1 = 0 then .ok (.erd .wk (w.extractLsb' 6 10) (w.extractLsb' 1 5)) else .error .reserved
  | 0x02 => if w.extractLsb' 1 15 = 0 then .ok (.walk (w.extractLsb' 0 1)) else .error .reserved
  | 0x03 => if w.extractLsb' 6 5 = 0 then .ok (.wstat (w.extractLsb' 11 5) (w.extractLsb' 1 5) (w.extractLsb' 0 1)) else .error .reserved
  | _ => .error .minor

/-- The functions of engine dx (R33). -/
def decodeEngDx (w : BitVec 32) : Except Reject Instr :=
  match (w.extractLsb' 16 6).toNat with
  | 0x00 => if w.extractLsb' 0 1 = 0 then decodeEwr .dx w else .error .reserved
  | 0x01 => if w.extractLsb' 0 1 = 0 then .ok (.erd .dx (w.extractLsb' 6 10) (w.extractLsb' 1 5)) else .error .reserved
  | 0x02 => if w.extractLsb' 1 15 = 0 then .ok (.dsend (w.extractLsb' 0 1)) else .error .reserved
  | 0x03 => if w.extractLsb' 6 10 = 0 then .ok (.dflush (w.extractLsb' 1 5) (w.extractLsb' 0 1)) else .error .reserved
  | 0x04 => if w.extractLsb' 6 10 = 0 then .ok (.dstat (w.extractLsb' 1 5) (w.extractLsb' 0 1)) else .error .reserved
  | _ => .error .minor

/-- The functions of engine pl (R33). -/
def decodeEngPl (w : BitVec 32) : Except Reject Instr :=
  match (w.extractLsb' 16 6).toNat with
  | 0x00 => if w.extractLsb' 0 1 = 0 then decodeEwr .pl w else .error .reserved
  | 0x01 => if w.extractLsb' 0 1 = 0 then .ok (.erd .pl (w.extractLsb' 6 10) (w.extractLsb' 1 5)) else .error .reserved
  | 0x02 => if w.extractLsb' 0 1 = 0 ∧ w.extractLsb' 6 5 = 0 then .ok (.plrd (w.extractLsb' 11 5) (w.extractLsb' 1 5)) else .error .reserved
  | 0x03 => if w.extractLsb' 0 1 = 0 ∧ w.extractLsb' 6 10 = 0 then .ok (.plswitch (w.extractLsb' 1 5)) else .error .reserved
  | 0x04 => if w.extractLsb' 1 15 = 0 then .ok (.plmerge (w.extractLsb' 0 1)) else .error .reserved
  | 0x05 => if w.extractLsb' 0 1 = 0 ∧ w.extractLsb' 6 10 = 0 then .ok (.plstat (w.extractLsb' 1 5)) else .error .reserved
  | _ => .error .minor

/-- The functions of engine cl (R33). -/
def decodeEngCl (w : BitVec 32) : Except Reject Instr :=
  match (w.extractLsb' 16 6).toNat with
  | 0x00 => if w.extractLsb' 0 1 = 0 then decodeEwr .cl w else .error .reserved
  | 0x01 => if w.extractLsb' 0 1 = 0 then .ok (.erd .cl (w.extractLsb' 6 10) (w.extractLsb' 1 5)) else .error .reserved
  | 0x02 => if w.extractLsb' 1 15 = 0 then .ok (.clred (w.extractLsb' 0 1)) else .error .reserved
  | 0x03 => if w.extractLsb' 6 5 = 0 then .ok (.clstat (w.extractLsb' 11 5) (w.extractLsb' 1 5) (w.extractLsb' 0 1)) else .error .reserved
  | _ => .error .minor

/-- The ENG group, MO 0x2B, by engine (R33). -/
def decodeEng (w : BitVec 32) : Except Reject Instr :=
  match (w.extractLsb' 22 4).toNat with
  | 0 => decodeEngCp w
  | 1 => decodeEngMx w
  | 2 => decodeEngWk w
  | 3 => decodeEngDx w
  | 4 => decodeEngPl w
  | 5 => decodeEngCl w
  | _ => .error .minor

/-- The word's instruction by major opcode (R32), before the operand limits. -/
def decodeFields (w : BitVec 32) : Except Reject Instr :=
  match (w.extractLsb' 26 6).toNat with
  | 0x01 => decodeAlu w
  | 0x02 => .ok (.addi (w.extractLsb' 21 5) (w.extractLsb' 16 5) (w.extractLsb' 0 16))
  | 0x03 => .ok (.andi (w.extractLsb' 21 5) (w.extractLsb' 16 5) (w.extractLsb' 0 16))
  | 0x04 => .ok (.ori (w.extractLsb' 21 5) (w.extractLsb' 16 5) (w.extractLsb' 0 16))
  | 0x05 => .ok (.xori (w.extractLsb' 21 5) (w.extractLsb' 16 5) (w.extractLsb' 0 16))
  | 0x06 => decodeShiftImm w
  | 0x07 => .ok (.slti (w.extractLsb' 21 5) (w.extractLsb' 16 5) (w.extractLsb' 0 16))
  | 0x08 => if w.extractLsb' 16 5 = 0 then .ok (.li (w.extractLsb' 21 5) (w.extractLsb' 0 16)) else .error .reserved
  | 0x09 => if w.extractLsb' 18 3 = 0 then .ok (.lis (w.extractLsb' 21 5) (w.extractLsb' 16 2) (w.extractLsb' 0 16)) else .error .reserved
  | 0x0a => decodeMulDiv w
  | 0x0b => decodeBits w
  | 0x0c => decodeBranch w
  | 0x0d => .ok (.jal (w.extractLsb' 21 5) (w.extractLsb' 0 21))
  | 0x0e => .ok (.jalr (w.extractLsb' 21 5) (w.extractLsb' 16 5) (w.extractLsb' 0 16))
  | 0x0f => decodeId w
  | 0x10 => .ok (.ldb (w.extractLsb' 21 5) (w.extractLsb' 16 5) (w.extractLsb' 11 5) (w.extractLsb' 9 2) (w.extractLsb' 0 9))
  | 0x11 => .ok (.ldbu (w.extractLsb' 21 5) (w.extractLsb' 16 5) (w.extractLsb' 11 5) (w.extractLsb' 9 2) (w.extractLsb' 0 9))
  | 0x12 => .ok (.ldh (w.extractLsb' 21 5) (w.extractLsb' 16 5) (w.extractLsb' 11 5) (w.extractLsb' 9 2) (w.extractLsb' 0 9))
  | 0x13 => .ok (.ldhu (w.extractLsb' 21 5) (w.extractLsb' 16 5) (w.extractLsb' 11 5) (w.extractLsb' 9 2) (w.extractLsb' 0 9))
  | 0x14 => .ok (.ldw (w.extractLsb' 21 5) (w.extractLsb' 16 5) (w.extractLsb' 11 5) (w.extractLsb' 9 2) (w.extractLsb' 0 9))
  | 0x15 => .ok (.ldwu (w.extractLsb' 21 5) (w.extractLsb' 16 5) (w.extractLsb' 11 5) (w.extractLsb' 9 2) (w.extractLsb' 0 9))
  | 0x16 => .ok (.ldd (w.extractLsb' 21 5) (w.extractLsb' 16 5) (w.extractLsb' 11 5) (w.extractLsb' 9 2) (w.extractLsb' 0 9))
  | 0x17 => if w.extractLsb' 25 1 = 0 then .ok (.ldv (w.extractLsb' 21 4) (w.extractLsb' 16 5) (w.extractLsb' 11 5) (w.extractLsb' 9 2) (w.extractLsb' 0 9)) else .error .reserved
  | 0x18 => .ok (.stb (w.extractLsb' 21 5) (w.extractLsb' 16 5) (w.extractLsb' 11 5) (w.extractLsb' 9 2) (w.extractLsb' 0 9))
  | 0x19 => .ok (.sth (w.extractLsb' 21 5) (w.extractLsb' 16 5) (w.extractLsb' 11 5) (w.extractLsb' 9 2) (w.extractLsb' 0 9))
  | 0x1a => .ok (.stw (w.extractLsb' 21 5) (w.extractLsb' 16 5) (w.extractLsb' 11 5) (w.extractLsb' 9 2) (w.extractLsb' 0 9))
  | 0x1b => .ok (.std (w.extractLsb' 21 5) (w.extractLsb' 16 5) (w.extractLsb' 11 5) (w.extractLsb' 9 2) (w.extractLsb' 0 9))
  | 0x1c => if w.extractLsb' 25 1 = 0 then .ok (.stv (w.extractLsb' 21 4) (w.extractLsb' 16 5) (w.extractLsb' 11 5) (w.extractLsb' 9 2) (w.extractLsb' 0 9)) else .error .reserved
  | 0x1d => decodeSync w
  | 0x1e => decodeAmo w
  | 0x1f => decodeHnd w
  | 0x20 => decodeValu w
  | 0x21 => decodeVcvt w
  | 0x22 => decodeVperm w
  | 0x23 => decodeVseq w
  | 0x24 => decodeQue w
  | 0x25 => if w.extractLsb' 0 2 = 0 then .ok (.wait (w.extractLsb' 22 4) (w.extractLsb' 18 4) (w.extractLsb' 14 4) (w.extractLsb' 10 4) (w.extractLsb' 6 4) (w.extractLsb' 2 4)) else .error .reserved
  | 0x26 => if w.extractLsb' 0 11 = 0 then .ok (.xfence (w.extractLsb' 20 6) (w.extractLsb' 14 6) (w.extractLsb' 11 3)) else .error .reserved
  | 0x27 => decodeTask w
  | 0x28 => decodeBar w
  | 0x29 => decodeSkn w
  | 0x2a => decodeLnch w
  | 0x2b => decodeEng w
  | 0x30 => decodeSys w
  | _ => .error .major

/-- Decoding of a word (R37): the fields, then the operand limits. -/
def decode (w : BitVec 32) : Except Reject Instr :=
  (decodeFields w).bind fun i => if i.wf then .ok i else .error .operand

/-- The word of an instruction (R27); none for the rows of the opcode table that have no word. -/
def encode (i : Instr) : Option (BitVec 32) :=
  match i with
  | .add d a b => some (0x1#6 ++ d ++ a ++ b ++ 0x0#11)
  | .sub d a b => some (0x1#6 ++ d ++ a ++ b ++ 0x1#11)
  | .and d a b => some (0x1#6 ++ d ++ a ++ b ++ 0x2#11)
  | .or d a b => some (0x1#6 ++ d ++ a ++ b ++ 0x3#11)
  | .xor d a b => some (0x1#6 ++ d ++ a ++ b ++ 0x4#11)
  | .andn d a b => some (0x1#6 ++ d ++ a ++ b ++ 0x5#11)
  | .shl d a b => some (0x1#6 ++ d ++ a ++ b ++ 0x6#11)
  | .shr d a b => some (0x1#6 ++ d ++ a ++ b ++ 0x7#11)
  | .sra d a b => some (0x1#6 ++ d ++ a ++ b ++ 0x8#11)
  | .slt d a b => some (0x1#6 ++ d ++ a ++ b ++ 0x9#11)
  | .sltu d a b => some (0x1#6 ++ d ++ a ++ b ++ 0xa#11)
  | .min d a b => some (0x1#6 ++ d ++ a ++ b ++ 0xb#11)
  | .max d a b => some (0x1#6 ++ d ++ a ++ b ++ 0xc#11)
  | .minu d a b => some (0x1#6 ++ d ++ a ++ b ++ 0xd#11)
  | .maxu d a b => some (0x1#6 ++ d ++ a ++ b ++ 0xe#11)
  | .seq d a b => some (0x1#6 ++ d ++ a ++ b ++ 0xf#11)
  | .addw d a b => some (0x1#6 ++ d ++ a ++ b ++ 0x10#11)
  | .subw d a b => some (0x1#6 ++ d ++ a ++ b ++ 0x11#11)
  | .shlw d a b => some (0x1#6 ++ d ++ a ++ b ++ 0x12#11)
  | .shrw d a b => some (0x1#6 ++ d ++ a ++ b ++ 0x13#11)
  | .sraw d a b => some (0x1#6 ++ d ++ a ++ b ++ 0x14#11)
  | .addi d a i0 => some (0x2#6 ++ d ++ a ++ i0)
  | .andi d a i0 => some (0x3#6 ++ d ++ a ++ i0)
  | .ori d a i0 => some (0x4#6 ++ d ++ a ++ i0)
  | .xori d a i0 => some (0x5#6 ++ d ++ a ++ i0)
  | .shli d a n => some (0x6#6 ++ d ++ a ++ 0x0#10 ++ n)
  | .shri d a n => some (0x6#6 ++ d ++ a ++ 0x100#10 ++ n)
  | .srai d a n => some (0x6#6 ++ d ++ a ++ 0x200#10 ++ n)
  | .slti d a i0 => some (0x7#6 ++ d ++ a ++ i0)
  | .li d i0 => some (0x8#6 ++ d ++ 0x0#5 ++ i0)
  | .lis d p i0 => some (0x9#6 ++ d ++ 0x0#3 ++ p ++ i0)
  | .mul d a b => some (0xa#6 ++ d ++ a ++ b ++ 0x0#11)
  | .mulh d a b => some (0xa#6 ++ d ++ a ++ b ++ 0x1#11)
  | .mulhu d a b => some (0xa#6 ++ d ++ a ++ b ++ 0x2#11)
  | .mulw d a b => some (0xa#6 ++ d ++ a ++ b ++ 0x3#11)
  | .div d a b => some (0xa#6 ++ d ++ a ++ b ++ 0x4#11)
  | .divu d a b => some (0xa#6 ++ d ++ a ++ b ++ 0x5#11)
  | .rem d a b => some (0xa#6 ++ d ++ a ++ b ++ 0x6#11)
  | .remu d a b => some (0xa#6 ++ d ++ a ++ b ++ 0x7#11)
  | .divw d a b => some (0xa#6 ++ d ++ a ++ b ++ 0x8#11)
  | .remw d a b => some (0xa#6 ++ d ++ a ++ b ++ 0x9#11)
  | .clz d a => some (0xb#6 ++ d ++ a ++ 0x0#16)
  | .ctz d a => some (0xb#6 ++ d ++ a ++ 0x1#16)
  | .popc d a => some (0xb#6 ++ d ++ a ++ 0x2#16)
  | .bswap d a => some (0xb#6 ++ d ++ a ++ 0x3#16)
  | .bext d a b => some (0xb#6 ++ d ++ a ++ b ++ 0x4#11)
  | .bins d a b => some (0xb#6 ++ d ++ a ++ b ++ 0x5#11)
  | .sext d a b => some (0xb#6 ++ d ++ a ++ b ++ 0x6#11)
  | .zext d a b => some (0xb#6 ++ d ++ a ++ b ++ 0x7#11)
  | .beq a b o => some (0xc#6 ++ a ++ b ++ 0x0#3 ++ o)
  | .bne a b o => some (0xc#6 ++ a ++ b ++ 0x1#3 ++ o)
  | .blt a b o => some (0xc#6 ++ a ++ b ++ 0x2#3 ++ o)
  | .bge a b o => some (0xc#6 ++ a ++ b ++ 0x3#3 ++ o)
  | .bltu a b o => some (0xc#6 ++ a ++ b ++ 0x4#3 ++ o)
  | .bgeu a b o => some (0xc#6 ++ a ++ b ++ 0x5#3 ++ o)
  | .jal d o => some (0xd#6 ++ d ++ o)
  | .jalr d a i0 => some (0xe#6 ++ d ++ a ++ i0)
  | .widf d n => some (0xf#6 ++ d ++ n ++ 0x0#16)
  | .wid d => some (0xf#6 ++ d ++ 0x1#21)
  | .self d => some (0xf#6 ++ d ++ 0x2#21)
  | .cyc d => some (0xf#6 ++ d ++ 0x3#21)
  | .tick d => some (0xf#6 ++ d ++ 0x4#21)
  | .grp d => some (0xf#6 ++ d ++ 0x5#21)
  | .ldb t h x k o => some (0x10#6 ++ t ++ h ++ x ++ k ++ o)
  | .ldbu t h x k o => some (0x11#6 ++ t ++ h ++ x ++ k ++ o)
  | .ldh t h x k o => some (0x12#6 ++ t ++ h ++ x ++ k ++ o)
  | .ldhu t h x k o => some (0x13#6 ++ t ++ h ++ x ++ k ++ o)
  | .ldw t h x k o => some (0x14#6 ++ t ++ h ++ x ++ k ++ o)
  | .ldwu t h x k o => some (0x15#6 ++ t ++ h ++ x ++ k ++ o)
  | .ldd t h x k o => some (0x16#6 ++ t ++ h ++ x ++ k ++ o)
  | .ldv t h x k o => some (0x17#6 ++ 0x0#1 ++ t ++ h ++ x ++ k ++ o)
  | .stb t h x k o => some (0x18#6 ++ t ++ h ++ x ++ k ++ o)
  | .sth t h x k o => some (0x19#6 ++ t ++ h ++ x ++ k ++ o)
  | .stw t h x k o => some (0x1a#6 ++ t ++ h ++ x ++ k ++ o)
  | .std t h x k o => some (0x1b#6 ++ t ++ h ++ x ++ k ++ o)
  | .stv t h x k o => some (0x1c#6 ++ 0x0#1 ++ t ++ h ++ x ++ k ++ o)
  | .ldf t h x => some (0x1d#6 ++ t ++ h ++ x ++ 0x0#11)
  | .ldfe t h x => some (0x1d#6 ++ t ++ h ++ x ++ 0x1#11)
  | .stef t h x => some (0x1d#6 ++ t ++ h ++ x ++ 0x2#11)
  | .stf t h x => some (0x1d#6 ++ t ++ h ++ x ++ 0x3#11)
  | .sete h x => some (0x1d#6 ++ 0x0#5 ++ h ++ x ++ 0x4#11)
  | .fetest t h x => some (0x1d#6 ++ t ++ h ++ x ++ 0x5#11)
  | .amoadd t h x v => some (0x1e#6 ++ t ++ h ++ x ++ v ++ 0x0#6)
  | .amoand t h x v => some (0x1e#6 ++ t ++ h ++ x ++ v ++ 0x1#6)
  | .amoor t h x v => some (0x1e#6 ++ t ++ h ++ x ++ v ++ 0x2#6)
  | .amoxor t h x v => some (0x1e#6 ++ t ++ h ++ x ++ v ++ 0x3#6)
  | .amomin t h x v => some (0x1e#6 ++ t ++ h ++ x ++ v ++ 0x4#6)
  | .amomax t h x v => some (0x1e#6 ++ t ++ h ++ x ++ v ++ 0x5#6)
  | .amominu t h x v => some (0x1e#6 ++ t ++ h ++ x ++ v ++ 0x6#6)
  | .amomaxu t h x v => some (0x1e#6 ++ t ++ h ++ x ++ v ++ 0x7#6)
  | .amoswap t h x v => some (0x1e#6 ++ t ++ h ++ x ++ v ++ 0x8#6)
  | .amocas t h x v => some (0x1e#6 ++ t ++ h ++ x ++ v ++ 0x9#6)
  | .amoaddw t h x v => some (0x1e#6 ++ t ++ h ++ x ++ v ++ 0xa#6)
  | .amofaddF32 t h x v => some (0x1e#6 ++ t ++ h ++ x ++ v ++ 0xb#6)
  | .hsub d a b => some (0x1f#6 ++ d ++ a ++ b ++ 0x0#12)
  | .hrd d a b => some (0x1f#6 ++ d ++ a ++ b ++ 0x1#11)
  | .hclr d => some (0x1f#6 ++ d ++ 0x2#21)
  | .vadd d a b y => some (0x20#6 ++ d ++ a ++ b ++ 0x0#4 ++ y.code ++ 0x0#6)
  | .vsub d a b y => some (0x20#6 ++ d ++ a ++ b ++ 0x0#4 ++ y.code ++ 0x1#6)
  | .vmul d a b y => some (0x20#6 ++ d ++ a ++ b ++ 0x0#4 ++ y.code ++ 0x2#6)
  | .vfma d a b c y => some (0x20#6 ++ d ++ a ++ b ++ c ++ y.code ++ 0x3#6)
  | .vmin d a b y => some (0x20#6 ++ d ++ a ++ b ++ 0x0#4 ++ y.code ++ 0x4#6)
  | .vmax d a b y => some (0x20#6 ++ d ++ a ++ b ++ 0x0#4 ++ y.code ++ 0x5#6)
  | .vabs d a y => some (0x20#6 ++ d ++ a ++ 0x0#8 ++ y.code ++ 0x6#6)
  | .vneg d a y => some (0x20#6 ++ d ++ a ++ 0x0#8 ++ y.code ++ 0x7#6)
  | .vand d a b y => some (0x20#6 ++ d ++ a ++ b ++ 0x0#4 ++ y.code ++ 0x8#6)
  | .vor d a b y => some (0x20#6 ++ d ++ a ++ b ++ 0x0#4 ++ y.code ++ 0x9#6)
  | .vxor d a b y => some (0x20#6 ++ d ++ a ++ b ++ 0x0#4 ++ y.code ++ 0xa#6)
  | .vshl d a b y => some (0x20#6 ++ d ++ a ++ b ++ 0x0#4 ++ y.code ++ 0xb#6)
  | .vshr d a b y => some (0x20#6 ++ d ++ a ++ b ++ 0x0#4 ++ y.code ++ 0xc#6)
  | .vcmpeq d a b y => some (0x20#6 ++ d ++ a ++ b ++ 0x0#4 ++ y.code ++ 0xd#6)
  | .vcmplt d a b y => some (0x20#6 ++ d ++ a ++ b ++ 0x0#4 ++ y.code ++ 0xe#6)
  | .vcmple d a b y => some (0x20#6 ++ d ++ a ++ b ++ 0x0#4 ++ y.code ++ 0xf#6)
  | .vsel d a b c y => some (0x20#6 ++ d ++ a ++ b ++ c ++ y.code ++ 0x10#6)
  | .vdot d a b c y => some (0x20#6 ++ d ++ a ++ b ++ c ++ y.code ++ 0x11#6)
  | .vaddsat d a b y => some (0x20#6 ++ d ++ a ++ b ++ 0x0#4 ++ y.code ++ 0x12#6)
  | .vsubsat d a b y => some (0x20#6 ++ d ++ a ++ b ++ 0x0#4 ++ y.code ++ 0x13#6)
  | .vmulh d a b y => some (0x20#6 ++ d ++ a ++ b ++ 0x0#4 ++ y.code ++ 0x14#6)
  | .vcvt d a s0 c y => some (0x21#6 ++ d ++ a ++ s0.code ++ 0x0#1 ++ c ++ y.code ++ 0x0#6)
  | .vrcp d a y => some (0x21#6 ++ d ++ a ++ 0x0#8 ++ y.code ++ 0x1#6)
  | .vrsqrt d a y => some (0x21#6 ++ d ++ a ++ 0x0#8 ++ y.code ++ 0x2#6)
  | .vsqrt d a y => some (0x21#6 ++ d ++ a ++ 0x0#8 ++ y.code ++ 0x3#6)
  | .vdiv d a b y => some (0x21#6 ++ d ++ a ++ b ++ 0x0#4 ++ y.code ++ 0x4#6)
  | .vexp2 d a y => some (0x21#6 ++ d ++ a ++ 0x0#8 ++ y.code ++ 0x5#6)
  | .vlog2 d a y => some (0x21#6 ++ d ++ a ++ 0x0#8 ++ y.code ++ 0x6#6)
  | .vtanh d a y => some (0x21#6 ++ d ++ a ++ 0x0#8 ++ y.code ++ 0x7#6)
  | .vsigm d a y => some (0x21#6 ++ d ++ a ++ 0x0#8 ++ y.code ++ 0x8#6)
  | .vbcast d g y => some (0x22#6 ++ d ++ g ++ 0x0#8 ++ y.code ++ 0x0#6)
  | .vins d g l y => some (0x22#6 ++ d ++ g ++ 0x0#4 ++ l ++ y.code ++ 0x1#6)
  | .vext g a l y => some (0x22#6 ++ g ++ a ++ 0x0#4 ++ l ++ y.code ++ 0x2#6)
  | .vshuf d a b y => some (0x22#6 ++ d ++ a ++ b ++ 0x0#4 ++ y.code ++ 0x3#6)
  | .vzip d a b h y => some (0x22#6 ++ d ++ a ++ b ++ 0x0#3 ++ h ++ y.code ++ 0x4#6)
  | .vunzip d a b o y => some (0x22#6 ++ d ++ a ++ b ++ 0x0#3 ++ o ++ y.code ++ 0x5#6)
  | .vredsum d a y => some (0x22#6 ++ d ++ a ++ 0x0#8 ++ y.code ++ 0x6#6)
  | .vredmax d a y => some (0x22#6 ++ d ++ a ++ 0x0#8 ++ y.code ++ 0x7#6)
  | .vredmin d a y => some (0x22#6 ++ d ++ a ++ 0x0#8 ++ y.code ++ 0x8#6)
  | .vsort d a m y => some (0x22#6 ++ d ++ a ++ 0x0#6 ++ m ++ y.code ++ 0x9#6)
  | .vmerge d a b h y => some (0x22#6 ++ d ++ a ++ b ++ 0x0#3 ++ h ++ y.code ++ 0xa#6)
  | .vsrch d a b m y => some (0x22#6 ++ d ++ a ++ b ++ 0x0#3 ++ m ++ y.code ++ 0xb#6)
  | .vcompress d a b y => some (0x22#6 ++ d ++ a ++ b ++ 0x0#4 ++ y.code ++ 0xc#6)
  | .vexpand d a b y => some (0x22#6 ++ d ++ a ++ b ++ 0x0#4 ++ y.code ++ 0xd#6)
  | .vpopc d a y => some (0x22#6 ++ d ++ a ++ 0x0#8 ++ y.code ++ 0xe#6)
  | .vfirst d a y => some (0x22#6 ++ d ++ a ++ 0x0#8 ++ y.code ++ 0xf#6)
  | .ksend a b y => some (0x22#6 ++ 0x0#4 ++ a ++ b ++ 0x0#4 ++ y.code ++ 0x10#6)
  | .vbegin a b l => some (0x23#6 ++ 0x0#5 ++ a ++ b ++ l ++ 0x0#7)
  | .vsync => some (0x23#6 ++ 0x1#26)
  | .vstat d => some (0x23#6 ++ d ++ 0x2#21)
  | .qbind d a b => some (0x24#6 ++ d ++ a ++ b ++ 0x0#11)
  | .qunbind d a => some (0x24#6 ++ d ++ a ++ 0x1#16)
  | .qstat d a => some (0x24#6 ++ d ++ a ++ 0x2#16)
  | .qpeek d a => some (0x24#6 ++ d ++ a ++ 0x3#16)
  | .wait l s0 c m x n => some (0x25#6 ++ l ++ s0 ++ c ++ m ++ x ++ n ++ 0x0#2)
  | .xfence b a s0 => some (0x26#6 ++ b ++ a ++ s0 ++ 0x0#11)
  | .spawn d a b => some (0x27#6 ++ d ++ a ++ b ++ 0x0#11)
  | .spawnd d a b => some (0x27#6 ++ d ++ a ++ b ++ 0x1#11)
  | .quit => some (0x27#6 ++ 0x2#26)
  | .yield d => some (0x27#6 ++ d ++ 0x3#21)
  | .migrate d a b => some (0x27#6 ++ d ++ a ++ b ++ 0x4#11)
  | .tqpush d a => some (0x27#6 ++ d ++ a ++ 0x5#16)
  | .tqpop d a => some (0x27#6 ++ d ++ a ++ 0x6#16)
  | .tmr d a => some (0x27#6 ++ d ++ a ++ 0x7#16)
  | .prio d a => some (0x27#6 ++ d ++ a ++ 0x8#16)
  | .bset d a b i0 => some (0x28#6 ++ d ++ a ++ b ++ 0x0#2 ++ i0 ++ 0x0#7)
  | .barv d i0 => some (0x28#6 ++ d ++ 0x0#12 ++ i0 ++ 0x1#7)
  | .bwait d a i0 => some (0x28#6 ++ d ++ a ++ 0x0#7 ++ i0 ++ 0x2#7)
  | .barw d i0 => some (0x28#6 ++ d ++ 0x0#12 ++ i0 ++ 0x3#7)
  | .bto d a i0 => some (0x28#6 ++ d ++ a ++ 0x0#7 ++ i0 ++ 0x4#7)
  | .susp t h x => some (0x29#6 ++ t ++ h ++ x ++ 0x0#11)
  | .resume t h x => some (0x29#6 ++ t ++ 0x0#1 ++ h ++ x ++ 0x1#11)
  | .sdrop t h x => some (0x29#6 ++ t ++ h ++ x ++ 0x2#11)
  | .sclone t h x => some (0x29#6 ++ t ++ 0x0#1 ++ h ++ x ++ 0x3#11)
  | .sver t h x => some (0x29#6 ++ t ++ 0x0#1 ++ h ++ x ++ 0x4#11)
  | .launch t h x => some (0x2a#6 ++ t ++ h ++ x ++ 0x0#11)
  | .trig => some (0x2a#6 ++ 0x1#26)
  | .chplay t h x => some (0x2a#6 ++ t ++ h ++ x ++ 0x2#11)
  | .ewr e a r => some (0x2b#6 ++ e.code ++ 0x0#6 ++ a ++ r ++ 0x0#1)
  | .erd e r d => some (0x2b#6 ++ e.code ++ 0x1#6 ++ r ++ d ++ 0x0#1)
  | .cpgo w => some (0x2b#6 ++ 0x10000#25 ++ w)
  | .cphint w => some (0x2b#6 ++ 0x18000#25 ++ w)
  | .cpcancel d w => some (0x2b#6 ++ 0x1000#20 ++ d ++ w)
  | .cpstat d w => some (0x2b#6 ++ 0x1400#20 ++ d ++ w)
  | .oclaim a d => some (0x2b#6 ++ 0x42#10 ++ a ++ 0x0#5 ++ d ++ 0x0#1)
  | .orel a d => some (0x2b#6 ++ 0x43#10 ++ a ++ 0x0#5 ++ d ++ 0x0#1)
  | .mm a b n w => some (0x2b#6 ++ 0x44#10 ++ a ++ b ++ 0x0#4 ++ n ++ w)
  | .mmg a b n w => some (0x2b#6 ++ 0x45#10 ++ a ++ b ++ 0x0#4 ++ n ++ w)
  | .mdrain b n w => some (0x2b#6 ++ 0x8c0#15 ++ b ++ 0x0#4 ++ n ++ w)
  | .mclr n w => some (0x2b#6 ++ 0x11c000#24 ++ n ++ w)
  | .mchk b w => some (0x2b#6 ++ 0x900#15 ++ b ++ 0x0#5 ++ w)
  | .walk w => some (0x2b#6 ++ 0x410000#25 ++ w)
  | .wstat a d w => some (0x2b#6 ++ 0x83#10 ++ a ++ 0x0#5 ++ d ++ w)
  | .dsend w => some (0x2b#6 ++ 0x610000#25 ++ w)
  | .dflush d w => some (0x2b#6 ++ 0x30c00#20 ++ d ++ w)
  | .dstat d w => some (0x2b#6 ++ 0x31000#20 ++ d ++ w)
  | .plrd a d => some (0x2b#6 ++ 0x102#10 ++ a ++ 0x0#5 ++ d ++ 0x0#1)
  | .plswitch d => some (0x2b#6 ++ 0x40c00#20 ++ d ++ 0x0#1)
  | .plmerge w => some (0x2b#6 ++ 0x820000#25 ++ w)
  | .plstat d => some (0x2b#6 ++ 0x41400#20 ++ d ++ 0x0#1)
  | .clred w => some (0x2b#6 ++ 0xa10000#25 ++ w)
  | .clstat a d w => some (0x2b#6 ++ 0x143#10 ++ a ++ 0x0#5 ++ d ++ w)
  | .sysrd d s0 => some (0x30#6 ++ d ++ 0x0#9 ++ s0)
  | .syswr a s0 => some (0x30#6 ++ 0x0#5 ++ a ++ 0x1#4 ++ s0)
  | .trap i0 => some (0x30#6 ++ 0x2#14 ++ i0)
  | .eret => some (0x30#6 ++ 0x3000#26)
  | .brk i0 => some (0x30#6 ++ 0x4#14 ++ i0)
  | .idle => some (0x30#6 ++ 0x5000#26)
  | .divideResult => none
  | .loadDataReturn => none
  | .remoteAccessArrival => none
  | .coreTranslationFault => none
  | .faultRecordWrite => none
  | .wakeMessage => none
  | .ksendLaneAccumulate => none
  | .vseqEntryPerform => none
  | .qwedge => none
  | .taskRecordInsert => none
  | .taskBankReply => none
  | .dispatcherStart => none
  | .wakeRecordDelivery => none
  | .spill => none
  | .refill => none
  | .barrierArrivalRecord => none
  | .barrierRelease => none
  | .barrierTimeout => none
  | .barrierSeal => none
  | .suspensionComplete => none
  | .resumeGroupPlace => none
  | .groupRestoreEnd => none
  | .recordedCopyResolve => none
  | .launchEnqueue => none
  | .launchStatus => none
  | .groupPlace => none
  | .strandStart => none
  | .launchRetire => none
  | .tickStart => none
  | .tickWindowEdge => none
  | .ewrCpDest r a => some (0x2b#6 ++ Eng.code .cp ++ 0x0#6 ++ a ++ r ++ 0x0#1)
  | .ewrCpBfmt r a => some (0x2b#6 ++ Eng.code .cp ++ 0x0#6 ++ a ++ r ++ 0x0#1)
  | .ewrMxScsel a => some (0x2b#6 ++ Eng.code .mx ++ 0x0#6 ++ a ++ 0x3#10 ++ 0x0#1)
  | .ewrMxScval a => some (0x2b#6 ++ Eng.code .mx ++ 0x0#6 ++ a ++ 0x4#10 ++ 0x0#1)
  | .ewrDxOhi a => some (0x2b#6 ++ Eng.code .dx ++ 0x0#6 ++ a ++ 0x10#10 ++ 0x0#1)
  | .ewrDxXrel a => some (0x2b#6 ++ Eng.code .dx ++ 0x0#6 ++ a ++ 0x11#10 ++ 0x0#1)
  | .ewrPlRegion r a => some (0x2b#6 ++ Eng.code .pl ++ 0x0#6 ++ a ++ r ++ 0x0#1)
  | .copyChannelTake => none
  | .copyStartElapse => none
  | .copyRun => none
  | .copyLastByteLands => none
  | .copyCompletionWrite => none
  | .matrixCommandBegin => none
  | .matrixCommandComplete => none
  | .drainResume => none
  | .mergeDrainTurn => none
  | .drainStatusDeliver => none
  | .walkBegin => none
  | .walkPass => none
  | .walkEnd => none
  | .dsendHashChoose => none
  | .dsendScoredChoose => none
  | .gateLoad => none
  | .sendListHoldTimeout => none
  | .receiveRequest => none
  | .grantReply => none
  | .rowCommit => none
  | .arrivalCount => none
  | .dsendCompletion => none
  | .receiveRelease => none
  | .migrateGrant => none
  | .migrateArrive => none
  | .windowEnd => none
  | .replicaCopyEnd => none
  | .versionApply => none
  | .regionDrained => none
  | .clredArrive => none
  | .clredCompletion => none
  | .syswrTmr a => some (0x30#6 ++ 0x0#5 ++ a ++ 0x1#4 ++ 0x6#12)
  | .syswrFrm a => some (0x30#6 ++ 0x0#5 ++ a ++ 0x1#4 ++ 0x5#12)
  | .syswrPrio a => some (0x30#6 ++ 0x0#5 ++ a ++ 0x1#4 ++ 0x7#12)
  | .syswrQbind a => some (0x30#6 ++ 0x0#5 ++ a ++ 0x1#4 ++ 0x8#12)
  | .syswrKhashKbins a n => some (0x30#6 ++ 0x0#5 ++ a ++ 0x1#4 ++ n)
  | .syswrSlottab a n => some (0x30#6 ++ 0x0#5 ++ a ++ 0x1#4 ++ n)
  | .syswrQring a n => some (0x30#6 ++ 0x0#5 ++ a ++ 0x1#4 ++ n)
  | .swapreq a => some (0x30#6 ++ 0x0#5 ++ a ++ 0x1#4 ++ 0x18#12)
  | .timer => none
  | .parkswapPreempt => none
  | .swapOutComplete => none
  | .contextEvict => none
  | .swapIn => none
  | .l2Scrub => none
  | .dramScrub => none
  | .pairMergeCompare => none
  | .pairTimeout => none
  | .hostAccess => none
  | .launchRingDoorbell => none
  | .eventRingDoorbell => none
  | .faultRingDoorbell => none
  | .commandRingDoorbell => none
  | .tenant => none
  | .asidset => none
  | .inval => none
  | .wake => none
  | .powerReady => none
  | .powerRun => none
  | .powerPark => none
  | .powerUnpark => none
  | .powerOff => none
  | .hostTick => none
  | .victim => none
  | .route => none
  | .attest => none
  | .lifecycle => none
  | .kill => none
  | .extend => none
  | .powerOnReset => none
  | .wipeComplete => none
  | .thermal => none
  | .thermalThrottle => none
  | .linkFlit => none
  | .linkdown => none
  | .illegalWord w => some w
  | .fetchBound => none
  | .queueBankRemoval => none
  | .skeinStatusReply => none
  | .distaffReply => none
  | .chainReply => none
  | .plmergeCompletion => none
  | .temperatureFall => none

/-- The word at the head of a list of bytes, little-endian (R25). -/
def wordOfBytes : List Byte → BitVec 32
  | b0 :: b1 :: b2 :: b3 :: _ => b3 ++ b2 ++ b1 ++ b0
  | _ => 0

/-- The bytes of a word, the lowest address first (R25). -/
def bytesOfWord (w : BitVec 32) : List Byte :=
  [w.extractLsb' 0 8, w.extractLsb' 8 8, w.extractLsb' 16 8, w.extractLsb' 24 8]

/-- What the decoder reads from an instruction whose bits are `w`, numbered as the opcode table numbers them: every
row with a word has 32 bits. -/
def decodeTableWord (nbits w : Nat) : Option Instr :=
  if nbits ≤ 32 then
    match decode (wordOfBytes (bytesOfWord (BitVec.ofNat 32 w))) with
    | .ok i => some i
    | .error _ => none
  else none

end Sys2Proof
end

