-- ==== Sys2Proof/Machine/Rings.lean ====
section
/-! DEFINITION. The rings of tenants and system, events, interrupts, and the writing of fault records (R309, R329, R330,
R332). -/

namespace Sys2Proof.Machine

/-- The descriptor of a tenant, or the system descriptor (R328, R329): its virtual address under ASID 0, if one is set.
A tenant's is the one TENANT bound, or else its place in the tenant table. -/
def State.desc? (s : State) (tenant : Option Nat) : Option Nat :=
  match tenant with
  | none => if s.sysdesc = 0 then none else some s.sysdesc.toNat
  | some t =>
    match Tab.get? s.tenants t with
    | some a => if a = 0 then none else some a.toNat
    | none => if s.tentab = 0 then none else some (s.tentab.toNat + 256 * t)

/-- A descriptor is valid, as a unit of die `die` reads it: its bit V (R329). -/
def State.descValid (s : State) (d : Nat) (die : Nat := s.ioDie) : Bool := (s.dwordOn die d).getLsbD 63

/-- A ring (R329): base, the logarithm of its entries, HEAD and TAIL. -/
structure Ring where
  base : Nat
  logn : Nat
  head : Nat
  tail : Nat
  deriving DecidableEq, Repr

/-- The ring whose descriptor lies at a virtual address, as a unit of die `d` reads it. -/
def State.ringAt (s : State) (va : Nat) (d : Nat := s.ioDie) : Ring :=
  let d0 := s.dwordOn d va
  let d1 := s.dwordOn d (va + 8)
  { base := bits d0 0 56, logn := bits d0 58 6, head := bits d1 0 32, tail := bits d1 32 32 }

/-- The entries in a ring (R329). -/
def Ring.count (r : Ring) : Nat := (r.tail + 2 ^ 32 - r.head) % 2 ^ 32

/-- A ring holds all it can (R330). -/
def Ring.isFull (r : Ring) : Bool := decide (r.count ≥ 2 ^ r.logn)

/-- The virtual address of the entry of index `i`, of `sz` bytes (R329). -/
def Ring.entry (r : Ring) (i sz : Nat) : Nat := r.base + sz * (i % 2 ^ r.logn)

/-- Writes HEAD of a ring (R330). -/
def State.putHead (s : State) (va : Nat) (h : Nat) : State := s.putSysBytes (va + 8) (bytesOfNat 4 h)

/-- Writes TAIL of a ring (R330), from a unit of die `die`. -/
def State.putTail (s : State) (va : Nat) (t : Nat) (die : Nat := s.ioDie) : State := s.putOn die (va + 12) (bytesOfNat 4 t)

/-- A unit of die `die` produces an entry of a ring with room: the entry, then TAIL, and the interrupt where HEAD equalled TAIL and
IRQEN is set (R330). `ring` is the ring's offset in the descriptor. -/
def State.produce (s : State) (desc ring sz : Nat) (entry : List Byte) (die : Nat := s.ioDie) : State :=
  let r := s.ringAt (desc + ring) die
  let s := s.putOn die (r.entry r.tail sz) entry
  let s := s.putTail (desc + ring) ((r.tail + 1) % 2 ^ 32) die
  let d := s.dwordOn die desc
  if d.getLsbD 62 && decide (r.count = 0) then { s with toHost := s.toHost ++ [.irq (bits d 0 16)] } else s

/-- The event kinds of R332. -/
inductive EventKind where
  | cmddone | launchref | coreseal | retired | chainerr | linkdown | thermal | cwdrop | badring
  deriving DecidableEq, Repr

/-- The number of an event kind (R332). -/
def EventKind.code : EventKind → Nat
  | .cmddone => 1 | .launchref => 2 | .coreseal => 3 | .retired => 4 | .chainerr => 5 | .linkdown => 6
  | .thermal => 7 | .cwdrop => 8 | .badring => 9

/-- Sends an event to a tenant's event queue, or the system's (R330): on a full ring it is dropped and EVLOST gains 1,
saturating. -/
def State.sendEvent (s : State) (tenant : Option Nat) (k : EventKind) (tag status arg : Nat) : State :=
  match s.desc? tenant with
  | none => s
  | some d =>
    if !s.descValid d then s
    else if (s.ringAt (d + 0x60)).isFull then
      let w := s.sysDword (d + 0x80)
      let n := bits w 0 32
      if n + 1 < 2 ^ 32 then
        s.putSysBytes (d + 0x80) (bytesOfNat 4 (n + 1))
      else s
    else s.produce d 0x60 16 (bytesOfNat 16 (Config.eventEntry k.code tag status arg).toNat)

/-- The 32 bytes of a fault record (R307). -/
def FaultRec.bytes (r : FaultRec) : List Byte :=
  wordBytes r.d0 ++ wordBytes r.d1 ++ wordBytes r.d2 ++ wordBytes r.d3

/-- The oldest record in the places of die `ua` goes to its ring (R307, R309): it waits while the ring is full; a record
whose tenant has no valid descriptor leaves without being written. The place goes to the unit that has waited longest. -/
def execFaultRecordWrite (s : State) : Host.Outcome State Fault Refusal :=
  match (s.die s.ua).frecs with
  | [] => .next s
  | r :: rest =>
    let s1 := s.modDie s.ua fun x => { x with frecs := rest ++ x.frecWait.take 1, frecWait := x.frecWait.drop 1 }
    match s.desc? r.tenant with
    | none => .next s1
    | some d =>
      if !s.descValid d s.ua then .next s1
      else if (s.ringAt (d + 0x70) s.ua).isFull then .next s
      else .next (s1.produce d 0x70 32 r.bytes s.ua)

end Sys2Proof.Machine
end

