-- ==== Sys2Proof/Machine/Seal.lean ====
section
/-! DEFINITION. Sealing a core (R317 to R321), and the consumption of poisoned words (R314). -/

namespace Sys2Proof.Machine

/-- The groups that hold a core. -/
def State.groupsOn (s : State) (c : Nat) : List (Nat × Group) :=
  s.groups.filter fun x => !x.2.ended && x.2.allCores.contains c

/-- The cores of a barrier register's rectangle, on the half of the group that core `c` belongs to (R162, R323). -/
def Group.barCores (g : Group) (c : Nat) (b : BarReg) : List Nat :=
  let base := g.core0 + (if g.paired && decide (g.core0 % 16 + 8 ≤ c % 16) then 8 else 0) + b.x0.toNat + 16 * b.y0.toNat
  (List.range ((b.wm1.toNat + 1) * (b.hm1.toNat + 1))).map fun i => base + i % (b.wm1.toNat + 1) + 16 * (i / (b.wm1.toNat + 1))

/-- Sends the message of core `c`'s seal to every register, of the groups on it, whose rectangle holds it (R167). -/
def State.sealBars (s : State) (c : Nat) (gs : List (Nat × Group)) : State :=
  gs.foldl (fun s x => x.2.allCores.foldl (fun s k =>
    if k = c then s
    else s.modCore k fun y => { y with bars := y.bars.map fun b =>
      { b with sealDue := b.sealDue || (decide (b.held = some x.1) && (x.2.barCores k b).contains c) } }) s) s

/-- The strands of a group that have arrived at its suspension (R282). -/
def State.arrived (s : State) (g : Nat) : List Nat := s.strandsWhere fun _ t => decide (t.group = g) && t.susp.isSome

/-- A suspension of a group ends without completing (R284): its arrived strands are released with a status. -/
def State.suspRelease (s : State) (g st : Nat) : State :=
  let s := (s.arrived g).foldl (fun s i =>
    match s.strand? i with
    | some t =>
      match t.susp with
      | some d => (s.setStrand i { t.advance with susp := none }).deliver i d (BitVec.ofNat 64 st)
      | none => s
    | none => s) s
  s.modGroup g fun x => { x with suspAddr := none, building := none, tok := 0 }

/-- A command recorded for a skein is an ordinary one again (R288). -/
def CopyCmd.unrecord (x : CopyCmd) (va : Nat) (asid : BitVec 12) : CopyCmd :=
  match x.recorded with
  | some (a, b, _) => if a = va ∧ b = asid then { x with recorded := none } else x
  | none => x

/-- A page fault stalls a suspension or restore (R293): the record SKEINFAULT. It waits while the die has no place. -/
def State.skeinFault (s : State) (d : Nat) (asid : BitVec 12) (va : Nat) (need : Acc) (cause : Nat) (pc : Word) :
    Option (Nat × State) :=
  if s.recRoom d then some (s.wokenRecord d asid 15 7 va need cause (locWord (256 * d) 0) pc .skein) else none

/-- The fields of CTL of a skein's header (R277); reserved bits are written as 0 (R7). -/
def skCtlMask : Word := 0xFFFFFFFF00FFF703

/-- The header that group `g` left BUILDING at a seal is rewritten DROPPED (R284); a page fault stalls the write, with a record
SKEINFAULT (R293), and it waits while no link leads there (R336). -/
def State.dropHeader (s : State) (g va : Nat) (asid : BitVec 12) : State :=
  let x := s.group g
  let d := dieOf x.core0
  if !s.virtUp d asid va 64 accRW then s.modGroup g fun y => { y with drop := some (va, asid), tok := 0 } else
  let r : Except (Nat × Nat) State := match s.readVirt d asid (va + 8) 8 with
    | .error e => .error e
    | .ok (b, s1) => s1.writeVirt d asid (va + 8) (wordBytes (putBits (wordOf b &&& skCtlMask) 0 2 0))
  match r with
  | .ok s1 => s1.modGroup g fun y => { y with drop := none, tok := 0 }
  | .error (cause, at_) =>
    match s.skeinFault d asid at_ accRW cause 0 with
    | some (tok, s1) => s1.modGroup g fun y => { y with drop := some (va, asid), tok }
    | none => s.modGroup g fun y => { y with drop := some (va, asid), tok := 0 }

/-- A seal ends the suspension of a group (R284, R288): a header written BUILDING becomes DROPPED, its recorded copies are
ordinary copies again, and the arrived strands get status 4. -/
def State.suspSealed (s : State) (g : Nat) : State :=
  let x := s.group g
  match x.suspAddr, x.building with
  | some (va, asid), some _ =>
    let s := x.allCores.foldl (fun s c => s.modCore c fun k => { k with
      copyq := k.copyq.map fun (y : CopyCmd) => y.unrecord va asid
      chans := k.chans.map fun (h : Chan) => { h with cmd := h.cmd.map fun (y : CopyCmd) => y.unrecord va asid } }) s
    (s.suspRelease g 4).dropHeader g va asid
  | _, _ => s.suspRelease g 4

/-- Ends a strand at the seal of its core (R318): its operations not performed are discarded; its RUNNING record stays as
an orphan (R321). A strand migrated onto the core ends with a record MIGLOST (R259). -/
def State.sealStrand (s : State) (i : Nat) : State :=
  match s.strand? i with
  | none => s
  | some t =>
    let s := s.modCluster (clusterOf t.homeCore) fun x =>
      { x with bank := x.bank.map fun r =>
          if r.running = some i && !t.isMig then { r with running := none, orphan := true } else r }
    let s := if t.isMig then
        s.putRecord (dieOf t.homeCore) t.asid t.migPc (s.recordWord t.asid 15 0 0 0x12) t.selfWord (locWord t.core 0)
      else s
    let s := s.modGroup t.group fun x => { x with err := true }
    (s.setStrand i { t with ops := [], outst := [], rets := [], msgs := [] }).endStrand i

/-- What is left of a channel at the seal: a recorded copy, or one of the distaff, that has not ended ends with CAUSE 5 (R266,
R287); any other stops and writes nothing (R178). -/
def Chan.sealed (h : Chan) : Chan :=
  match h.cmd with
  | some c =>
    if (c.recorded.isSome || c.pl.isSome) && decide (h.st = .finish) then h
    else if c.recorded.isSome || c.pl.isSome then
      { h with st := .finish, cmd := some { c with err := true, cause := 5 } }
    else {}
  | none => {}

/-- The strand and number of what a copy of its own counts on: itself, and its follow-on (R138). -/
def CopyCmd.counted (x : CopyCmd) : List (Nat × Nat) :=
  if x.recorded.isSome || x.pl.isSome then [] else [(x.sid, x.sn), (x.sid, x.folSn)]

/-- The strands and numbers of the commands that a seal discards on a core (R318). -/
def Core.discarded (k : Core) : List (Nat × Nat) :=
  (k.copyq.map CopyCmd.counted).flatten ++ (k.chans.toList.filterMap fun h => h.cmd.map CopyCmd.counted).flatten ++
    (k.cancels.map fun (x : Nat × Nat × List Nat × Nat × Dest) => (x.1, x.2.1)) ++ (k.mxq.map fun (x : MxCmd) => (x.sid, x.sn)) ++
    (k.table.map fun t => (t.cmd.sid, t.cmd.sn)).toList

/-- The engines of a core stop at its seal (R318): their commands are discarded without completion words and count no longer;
recorded copies and those of the distaff end with CAUSE 5. -/
def State.sealEngines (s : State) (c : Nat) : State :=
  let l := (s.core c).discarded
  let s := s.modCore c fun k => { k with
    copyq := (k.copyq.filter fun (x : CopyCmd) => x.pl.isSome || x.recorded.isSome).map fun (x : CopyCmd) =>
      { x with err := true, cause := 5 }
    chans := k.chans.map Chan.sealed, cancels := [], opslots := [], accs := Vector.replicate 2 {}
    mxq := [], table := none, ncache := [] }
  let s := { s with
    stalls := s.stalls.filter fun x => match x.2 with
      | .copy k _ | .drain k _ => decide (k ≠ c)
      | _ => true
    pairWrites := s.pairWrites.filter fun x => !l.contains (x.sid, x.sn) }
  l.foldl (fun s x => s.modStrand x.1 fun t => t.uncount x.2) s

/-- The operations of a strand that its core performed no more before the core's seal are discarded (R318): those of an ended
strand, too. -/
def Strand.sealOps (t : Strand) (c : Nat) : Strand :=
  let lost := t.ops.filter fun (o : CoreOp) => o.core == c
  { lost.foldl (fun t (o : CoreOp) => t.uncount o.sn) t with ops := t.ops.filter fun (o : CoreOp) => !(o.core == c) }

/-- Collectives end with CAUSE 5 at the seal of a member's core, for every member (R338). -/
def State.sealColls (s : State) (c : Nat) : State :=
  let lost := (s.dies.map fun (d : Nat × Die) => (d.2.clq.filter fun (m : ClCmd) => m.core == c && !m.fin).map fun m =>
    (m.asid, bits (staged m.regs 0) 0 32)).flatten
  { s with dies := s.dies.map fun (d : Nat × Die) => (d.1, ({ d.2 with
      clq := d.2.clq.map fun (m : ClCmd) => if m.core = c then m.stop 5 else m } : Die).endColls
        (fun x => (x.members.any fun (m : ClCmd) => m.core == c) || lost.contains (x.asid, x.tag.toNat)) 5) }

/-- The seal of one core as one step (R318). The RUNNING record of a strand that is away stays RUNNING (R147; log entry 68). -/
def State.sealOne (s : State) (c : Nat) : State :=
  if (s.core c).sealed then s
  else
    let gs := s.groupsOn c
    let mine := fun (t : Strand) => decide (t.core = c) && decide (t.loc ≠ .gone)
    let ids := s.strandsWhere fun _ t => decide (t.st ≠ .ended) && mine t
    let s := (s.sealColls c).sealEngines c
    let s : State := { s with strands := s.strands.map fun (x : Nat × Strand) => (x.1, x.2.sealOps c) }
    let s := ids.foldl (fun s i => s.sealStrand i) s
    let out := fun (i : Nat) => ids.contains i || (s.strand? i).any fun (t : Strand) =>
      decide (t.st = .ended) && gs.any fun (g : Nat × Group) => decide (g.1 = t.group)
    let s := { s with
      pairWrites := s.pairWrites.filter fun x => !out x.sid
      pairCmds := s.pairCmds.filter fun x => !out x.sid }
    let s := gs.foldl (fun s x => s.suspSealed x.1) s
    let s := s.sealBars c gs
    let s := s.modCore c fun k => { k with
      sealed := true, slots := Vector.replicate 8 .free, cache := [], ctxUsed := [], swapReq := []
      ports := Vector.replicate 8 {} }
    let s := (s.groups.filter fun x => !x.2.ended).foldl (fun s x => s.reapGroup x.1) s
    -- records queued for the core may start elsewhere (R321)
    let s := s.modCluster (clusterOf c) fun x => { x with
      bank := x.bank.map fun r =>
        if decide (locCore (r.task[7]) = c) && !r.orphan && r.running.isNone then
          { r with task := vset r.task 7 (r.task[7] ||| 0x2000000) } else r }
    -- strands parked on its words and ports are woken (R320)
    let s := (s.strandsWhere fun _ t => match t.st with
      | .parked (.word k _) => decide (keyCore? k = some c)
      | .parked (.push _) | .parked (.pop _) => decide (t.homeCore = c)
      | _ => false).foldl (fun s i => s.wake i) s
    let s := s.countErr (dieOf c) 10
    let s := s.sendEvent none .coreseal 0 0 (c % 256 + c / 256 * 256)
    let ts := (gs.map fun x => x.2.tenant.toNat).eraseDups
    ts.foldl (fun s t => s.sendEvent (some t) .coreseal 0 0 c) s

/-- The partner core of a core in paired mode (R323): one that holds a paired group, or a paired strand. -/
def State.partners (s : State) (c : Nat) : List Nat :=
  if (s.groupsOn c).any (fun x => x.2.paired) ||
      (s.strands.any fun x => x.2.partner.isSome && decide (x.2.st ≠ .ended) && decide (x.2.core = c)) then
    [if c % 16 < 8 then c + 8 else c - 8]
  else []

/-- The seal of a core, with the partner of its paired strands (R317, R318). -/
def State.seal (s : State) (c : Nat) : State :=
  let ps := s.partners c
  ps.foldl (fun s p => s.sealOne p) (s.sealOne c)

/-- A strand of core `c` consumes a poisoned word at a key (R314, R317): its core is sealed, and so is the core whose
bank holds the word. -/
def State.consume (s : State) (c key : Nat) : State :=
  let s := s.seal c
  match keyCore? key with
  | some k => s.seal k
  | none => s

end Sys2Proof.Machine
end

