-- ==== Sys2Proof/Machine/Fetch.lean ====
section
/-! DEFINITION. Fetching instruction words (R228, R306), illegal words (R37) and fetches outside the image bound. -/

namespace Sys2Proof.Machine

/-- What the fetch of a word at an address gives. -/
inductive Fetched where
  | word (w : BitVec 32) (s : State)
  | bound (v : Word)
  | xfault (cause : Nat)
  | poisoned (key : Nat)
  | away

/-- The fetch of a word through the strand's image and under its ASID (R228): the image bound, the translation with the
right X, and the four bytes; it waits while no link leads to their package (R336). -/
def State.fetchAt (s : State) (t : Strand) (pc : Word) : Fetched :=
  let off := pc - t.image
  if t.imgsz ≠ 0 ∧ off.toNat ≥ t.imgsz.toNat then .bound off
  else
    match s.translate (dieOf t.core) t.asid pc.toNat accX with
    | .error c => .xfault c
    | .ok (key, s1) =>
      if !s1.pkgUp (keyPkg key) then .away else if s1.poisoned key 4 then .poisoned key else .word (BitVec.ofNat 32 (s1.readNat key 4)) s1

/-- A fetch fault parks the strand at the unfetched PC with a COREFAULT record (R306); it waits while the die has no place
for the record (R309). -/
def State.fetchFault (s : State) (sid : Nat) (t : Strand) (va : Word) (cause : Nat) : State :=
  let d := dieOf t.core
  if s.recRoom d then
    let (tok, s) := s.wokenRecord d t.asid 15 1 va.toNat accX cause t.selfWord va (.fetch sid)
    s.park sid t (.fault tok)
  else s

/-- The trap of an instruction that its strand may not execute (R37): TVAL holds the word. -/
def State.illegal (s : State) (t : Strand) (i : Instr) : State :=
  s.trap s.cur t .illegal (((encode i).getD 0).setWidth 64)

/-- A word that is illegal (R37): ILLEGAL with the word. -/
def execIllegalWord (w : BitVec 32) (s : State) : Host.Outcome State Fault Refusal :=
  issue (.illegalWord w) s fun _ t _ => s.trap s.cur t .illegal (w.setWidth 64)

/-- A fetch outside the image bound (R228): BOUND with PC − IMAGE. -/
def execFetchBound (s : State) : Host.Outcome State Fault Refusal :=
  issue .fetchBound s fun _ t _ => s.trap s.cur t .bound (t.pc - t.image)

end Sys2Proof.Machine
end

