-- ==== Sys2Proof/Machine/Numbers.lean ====
section
/-! DEFINITION. Number formats, rounding, conversion and exact arithmetic (R40 to R50, R56, R57): floating values are
taken apart into sign, integer significand and power of two, operated on exactly, and rounded once. -/

namespace Sys2Proof.Machine

/-- The floating-point formats (R41). -/
inductive FFmt where
  | e4m3 | e5m2 | bf16 | f32
  deriving DecidableEq, Repr

/-- Fraction bits (R41). -/
def FFmt.frac : FFmt → Nat
  | .e4m3 => 3 | .e5m2 => 2 | .bf16 => 7 | .f32 => 23
/-- Exponent bits (R41). -/
def FFmt.ebits : FFmt → Nat
  | .e4m3 => 4 | .e5m2 => 5 | .bf16 => 8 | .f32 => 8
/-- The bias (R41). -/
def FFmt.bias : FFmt → Nat
  | .e4m3 => 7 | .e5m2 => 15 | .bf16 => 127 | .f32 => 127
/-- The width in bits. -/
def FFmt.width (f : FFmt) : Nat := 1 + f.ebits + f.frac
/-- The magnitude bits of the largest finite value (R42). -/
def FFmt.maxMag : FFmt → Nat
  | .e4m3 => 0x7E | .e5m2 => 0x7B | .bf16 => 0x7F7F | .f32 => 0x7F7FFFFF
/-- The magnitude bits of infinity (R42); e4m3 has none. -/
def FFmt.infMag : FFmt → Option Nat
  | .e4m3 => none | .e5m2 => some 0x7C | .bf16 => some 0x7F80 | .f32 => some 0x7F800000
/-- The magnitude bits of the canonical NaN (R42). -/
def FFmt.nanMag : FFmt → Nat
  | .e4m3 => 0x7F | .e5m2 => 0x7E | .bf16 => 0x7FC0 | .f32 => 0x7FC00000

/-- The format of a floating type. -/
def ffmt? : Ty → Option FFmt
  | .e4m3 => some .e4m3 | .e5m2 => some .e5m2 | .bf16 => some .bf16 | .f32 => some .f32
  | _ => none

/-- A floating value: NaN, an infinity, or (−1)^neg × m × 2^e (R42). -/
inductive FVal where
  | nan (neg : Bool)
  | inf (neg : Bool)
  | fin (neg : Bool) (m : Nat) (e : Int)
  deriving DecidableEq, Repr

/-- The magnitude bits of an encoding. -/
def FFmt.mag (f : FFmt) (b : Nat) : Nat := b % 2 ^ (f.ebits + f.frac)
/-- The sign of an encoding. -/
def FFmt.neg (f : FFmt) (b : Nat) : Bool := decide (b / 2 ^ (f.ebits + f.frac) % 2 = 1)
/-- The encoding of a sign and magnitude. -/
def FFmt.enc (f : FFmt) (neg : Bool) (mag : Nat) : Nat := (if neg then 2 ^ (f.ebits + f.frac) else 0) + mag

/-- An encoding is a NaN (R41). -/
def FFmt.isNan (f : FFmt) (b : Nat) : Bool :=
  match f.infMag with
  | some i => decide (f.mag b > i)
  | none => decide (f.mag b = 0x7F)

/-- An encoding is an infinity (R41). -/
def FFmt.isInf (f : FFmt) (b : Nat) : Bool := f.infMag == some (f.mag b)

/-- An encoding is subnormal: exponent 0, fraction not 0 (R42, R48). -/
def FFmt.isSub (f : FFmt) (b : Nat) : Bool := decide (f.mag b ≠ 0) && decide (f.mag b < 2 ^ f.frac)

/-- The canonical NaN of a format with a sign (R42, R43). -/
def FFmt.cnan (f : FFmt) (neg : Bool := false) : Nat := f.enc neg f.nanMag

/-- The value of an encoding (R42). -/
def FFmt.value (f : FFmt) (b : Nat) : FVal :=
  let neg := f.neg b
  if f.isNan b then .nan neg
  else if f.isInf b then .inf neg
  else
    let ex := f.mag b / 2 ^ f.frac
    let fr := f.mag b % 2 ^ f.frac
    if ex = 0 then .fin neg fr (1 - (f.bias : Int) - f.frac)
    else .fin neg (fr + 2 ^ f.frac) ((ex : Int) - f.bias - f.frac)

/-- The rounding modes of R45 and R46. -/
inductive Rm where
  | rne | rtz | rdn | rup | rna
  deriving DecidableEq, Repr

/-- The mode of FRM.RM (R45). -/
def Rm.ofFrm (x : BitVec 8) : Rm :=
  match (x.extractLsb' 0 2).toNat with
  | 0 => .rne | 1 => .rtz | 2 => .rdn | _ => .rup

/-- The floating-point flags (R45). -/
structure FFlags where
  nv : Bool := false
  of_ : Bool := false
  uf : Bool := false
  nx : Bool := false
  deriving DecidableEq, Repr

/-- The OR of flags. -/
def FFlags.or (a b : FFlags) : FFlags :=
  { nv := a.nv || b.nv, of_ := a.of_ || b.of_, uf := a.uf || b.uf, nx := a.nx || b.nx }

/-- Flags in the places of FRM (R45). -/
def FFlags.bits (a : FFlags) : BitVec 8 :=
  (if a.nv then 0x80 else 0) ||| (if a.of_ then 0x40 else 0) ||| (if a.uf then 0x20 else 0) ||| (if a.nx then 0x10 else 0)

/-- Whether a truncated magnitude goes up by one step: the rest `r` of `d`, the parity and the sign (R47). -/
def roundUp (rm : Rm) (neg : Bool) (odd : Bool) (r d : Nat) : Bool :=
  if r = 0 then false
  else match rm with
    | .rne => decide (2 * r > d) || (decide (2 * r = d) && odd)
    | .rna => decide (2 * r ≥ d)
    | .rtz => false
    | .rdn => neg
    | .rup => !neg

/-- m × 2^e in steps of 2^q: the count of steps after rounding, and whether it is inexact. -/
def roundAt (rm : Rm) (neg : Bool) (m : Nat) (e q : Int) : Nat × Bool :=
  if q ≤ e then (m * 2 ^ (e - q).toNat, false)
  else
    let d := 2 ^ (q - e).toNat
    let n := m / d
    let r := m % d
    (n + (if roundUp rm neg (n % 2 = 1) r d then 1 else 0), decide (r ≠ 0))

/-- What a result beyond the largest finite value becomes (R47). -/
def overflowMag (f : FFmt) (rm : Rm) (sat neg : Bool) : Nat :=
  let clamp := f = .e4m3 || (f = .e5m2 && sat)
  let inf := f.infMag.getD f.maxMag
  if clamp then f.maxMag
  else match rm with
    | .rne | .rna => inf
    | .rtz => f.maxMag
    | .rdn => if neg then inf else f.maxMag
    | .rup => if neg then f.maxMag else inf

/-- The position of the highest one bit plus one. -/
def bitLen (m : Nat) : Nat := if m = 0 then 0 else Nat.log2 m + 1

/-- Rounds a finite exact value to a format (R47): the encoding and the flags. -/
def roundFin (f : FFmt) (rm : Rm) (sat : Bool) (neg : Bool) (m : Nat) (e : Int) : Nat × FFlags :=
  if m = 0 then (f.enc neg 0, {})
  else
    let top : Int := e + bitLen m - 1
    let emin : Int := 1 - (f.bias : Int)
    let q : Int := (if top < emin then emin else top) - f.frac
    let (n, nx) := roundAt rm neg m e q
    let mag : Nat := ((q + f.frac + f.bias - 1) * 2 ^ f.frac).toNat + n
    if mag > f.maxMag then (f.enc neg (overflowMag f rm sat neg), { of_ := true, nx := true })
    else
      -- tiny after rounding: rounded with an unbounded exponent it lies below the smallest normal value
      let (n2, _) := roundAt rm neg m e (top - f.frac)
      let tiny := decide (top < emin) && !(decide (top = emin - 1) && decide (n2 = 2 ^ (f.frac + 1)))
      (f.enc neg mag, { uf := tiny && nx, nx })

/-- Rounds a value to a format (R43, R47, R50); `keep` keeps the sign of a NaN, as conversions do. -/
def roundVal (f : FFmt) (rm : Rm) (sat keep : Bool) (v : FVal) : Nat × FFlags :=
  match v with
  | .nan neg => (f.cnan (keep && neg), {})
  | .inf neg =>
    match f.infMag with
    | none => (f.enc neg f.maxMag, { of_ := true, nx := true })
    | some i => if f = .e5m2 && sat then (f.enc neg f.maxMag, { of_ := true, nx := true }) else (f.enc neg i, {})
  | .fin neg m e => roundFin f rm sat neg m e

/-! ### Exact arithmetic on values -/

/-- Negation. -/
def FVal.negate : FVal → FVal
  | .nan n => .nan n
  | .inf n => .inf (!n)
  | .fin n m e => .fin (!n) m e

/-- A finite sum; an exact zero sum has the sign of IEEE 754 (R47). -/
def addFin (rm : Rm) (n1 : Bool) (m1 : Nat) (e1 : Int) (n2 : Bool) (m2 : Nat) (e2 : Int) : FVal :=
  let e := if e1 < e2 then e1 else e2
  let a : Int := (m1 * 2 ^ (e1 - e).toNat : Nat)
  let b : Int := (m2 * 2 ^ (e2 - e).toNat : Nat)
  let s : Int := (if n1 then -a else a) + (if n2 then -b else b)
  if s = 0 then
    .fin (if n1 = n2 then n1 else rm = .rdn) 0 e
  else .fin (decide (s < 0)) s.natAbs e

/-- The exact sum and whether it is an invalid operation (R45). -/
def fadd (rm : Rm) (a b : FVal) : FVal × Bool :=
  match a, b with
  | .nan _, _ => (.nan false, false)
  | _, .nan _ => (.nan false, false)
  | .inf x, .inf y => if x = y then (.inf x, false) else (.nan false, true)
  | .inf x, .fin .. => (.inf x, false)
  | .fin .., .inf y => (.inf y, false)
  | .fin n1 m1 e1, .fin n2 m2 e2 => (addFin rm n1 m1 e1 n2 m2 e2, false)

/-- The exact product and whether it is an invalid operation. -/
def fmul (a b : FVal) : FVal × Bool :=
  match a, b with
  | .nan _, _ => (.nan false, false)
  | _, .nan _ => (.nan false, false)
  | .inf x, .inf y => (.inf (x != y), false)
  | .inf x, .fin y m _ => if m = 0 then (.nan false, true) else (.inf (x != y), false)
  | .fin x m _, .inf y => if m = 0 then (.nan false, true) else (.inf (x != y), false)
  | .fin n1 m1 e1, .fin n2 m2 e2 => (.fin (n1 != n2) (m1 * m2) (e1 + e2), false)

/-- The bits kept beyond every format's precision in quotients and roots, below which one sticky bit stands. -/
def guardBits : Nat := 64

/-- A quotient with a sticky last bit: correct for every rounding, since it keeps more bits than any format. -/
def divFin (neg : Bool) (m1 : Nat) (e1 : Int) (m2 : Nat) (e2 : Int) : FVal :=
  let sh := guardBits + bitLen m2
  let n := m1 * 2 ^ sh
  .fin neg (2 * (n / m2) + (if n % m2 = 0 then 0 else 1)) (e1 - e2 - sh - 1)

/-- The quotient and whether it is an invalid operation (R45, R55). -/
def fdiv (a b : FVal) : FVal × Bool :=
  match a, b with
  | .nan _, _ => (.nan false, false)
  | _, .nan _ => (.nan false, false)
  | .inf _, .inf _ => (.nan false, true)
  | .inf x, .fin y _ _ => (.inf (x != y), false)
  | .fin x _ e, .inf y => (.fin (x != y) 0 e, false)
  | .fin n1 m1 e1, .fin n2 m2 e2 =>
    if m2 = 0 then (if m1 = 0 then (.nan false, true) else (.inf (n1 != n2), false))
    else if m1 = 0 then (.fin (n1 != n2) 0 0, false)
    else (divFin (n1 != n2) m1 e1 m2 e2, false)

/-- The integer square root by bits: `fuel` bits from bit `fuel - 1` down. -/
def isqrtBits (n : Nat) : Nat → Nat → Nat
  | 0, r => r
  | k + 1, r => let c := r + 2 ^ k; isqrtBits n k (if c * c ≤ n then c else r)

/-- The integer square root. -/
def isqrt (n : Nat) : Nat := isqrtBits n (bitLen n / 2 + 1) 0

/-- A square root with a sticky last bit. -/
def sqrtFin (m : Nat) (e : Int) : FVal :=
  let sh : Nat := 2 * guardBits + (if e % 2 = 0 then 0 else 1)
  let n := m * 2 ^ sh
  let r := isqrt n
  .fin false (2 * r + (if r * r = n then 0 else 1)) ((e - sh) / 2 - 1)

/-- The square root (R55). -/
def fsqrt (a : FVal) : FVal × Bool :=
  match a with
  | .nan _ => (.nan false, false)
  | .inf n => if n then (.nan false, true) else (.inf false, false)
  | .fin n m e => if m = 0 then (.fin n 0 e, false) else if n then (.nan false, true) else (sqrtFin m e, false)

/-- The reciprocal square root (R55): the root of 2^k / m, with a sticky last bit. -/
def frsqrt (a : FVal) : FVal × Bool :=
  match a with
  | .nan _ => (.nan false, false)
  | .inf n => if n then (.nan false, true) else (.fin false 0 0, false)
  | .fin n m e =>
    if m = 0 then (.inf n, false)
    else if n then (.nan false, true)
    else
      let odd : Nat := if e % 2 = 0 then 0 else 1
      let k := 2 * (guardBits + bitLen m) + odd
      let q := 2 ^ k / m
      let r := isqrt q
      let exact := r * r * m = 2 ^ k
      (.fin false (2 * r + (if exact then 0 else 1)) ((-(k : Int) - e) / 2 - 1), false)

/-- Compares two finite values: the sign of their difference. -/
def cmpFin (n1 : Bool) (m1 : Nat) (e1 : Int) (n2 : Bool) (m2 : Nat) (e2 : Int) : Int :=
  match addFin .rne n1 m1 e1 (!n2) m2 e2 with
  | .fin n m _ => if m = 0 then 0 else if n then -1 else 1
  | _ => 0

/-- Compares two values that are not NaN; the two zeros are equal. -/
def FVal.cmp (a b : FVal) : Int :=
  match a, b with
  | .inf x, .inf y => if x = y then 0 else if x then -1 else 1
  | .inf x, _ => if x then -1 else 1
  | _, .inf y => if y then 1 else -1
  | .fin n1 m1 e1, .fin n2 m2 e2 => cmpFin n1 m1 e1 n2 m2 e2
  | _, _ => 0

/-- A NaN. -/
def FVal.isNan : FVal → Bool
  | .nan _ => true
  | _ => false

/-! ### Rounded operations in one format -/

/-- Flags of an operation that may be invalid. -/
def withNv (r : Nat × FFlags) (nv : Bool) : Nat × FFlags := (r.1, { r.2 with nv := r.2.nv || nv })

/-- The sum of two encodings, rounded. -/
def FFmt.add (f : FFmt) (rm : Rm) (a b : Nat) : Nat × FFlags :=
  let (v, nv) := fadd rm (f.value a) (f.value b)
  withNv (roundVal f rm false false v) nv

/-- The product of two encodings, rounded. -/
def FFmt.mul (f : FFmt) (rm : Rm) (a b : Nat) : Nat × FFlags :=
  let (v, nv) := fmul (f.value a) (f.value b)
  withNv (roundVal f rm false false v) nv

/-- The fused product and sum, rounded once. -/
def FFmt.fma (f : FFmt) (rm : Rm) (a b c : Nat) : Nat × FFlags :=
  let (p, nv1) := fmul (f.value a) (f.value b)
  if nv1 then (f.cnan, { nv := true })
  else
    let (v, nv) := fadd rm p (f.value c)
    withNv (roundVal f rm false false v) nv

/-- binary32 addition with RNE, as every engine adds (R45). -/
def addF32 (a b : BitVec 32) : BitVec 32 := BitVec.ofNat 32 (FFmt.f32.add .rne a.toNat b.toNat).1
/-- binary32 multiplication with RNE. -/
def mulF32 (a b : BitVec 32) : BitVec 32 := BitVec.ofNat 32 (FFmt.f32.mul .rne a.toNat b.toNat).1

/-! ### Conversions (R50) -/

/-- The integer that an encoding of an integer type stands for (R40). -/
def intValue (y : Ty) (b : Nat) : Int :=
  let w := y.width
  let b := b % 2 ^ w
  if y.isSint && decide (b ≥ 2 ^ (w - 1)) then (b : Int) - 2 ^ w else b

/-- The smallest value of an integer type. -/
def intMin (y : Ty) : Int := if y.isSint then -(2 ^ (y.width - 1) : Nat) else 0
/-- The largest value of an integer type. -/
def intMax (y : Ty) : Int := if y.isSint then (2 ^ (y.width - 1) : Nat) - 1 else (2 ^ y.width : Nat) - 1
/-- `wrap` (R56). -/
def intWrap (y : Ty) (x : Int) : Nat := (x % (2 ^ y.width : Nat)).toNat
/-- `sat` for an integer type (R56). -/
def intSat (y : Ty) (x : Int) : Nat :=
  intWrap y (if x < intMin y then intMin y else if x > intMax y then intMax y else x)

/-- A finite value rounded to an integer (R50): the integer and whether it is inexact. -/
def roundInt (rm : Rm) (neg : Bool) (m : Nat) (e : Int) : Int × Bool :=
  let (n, nx) := roundAt rm neg m e 0
  (if neg then -(n : Int) else n, nx)

/-- Conversion to an integer type (R50). A NaN or an infinity sets NV alone, as R50's worked conversion of −∞ has it (log entry
57). -/
def toInt (y : Ty) (rm : Rm) (sat : Bool) (v : FVal) : Nat × FFlags :=
  match v with
  | .nan _ => (0, { nv := true })
  | .inf neg => (if sat then intWrap y (if neg then intMin y else intMax y) else 0, { nv := true })
  | .fin neg m e =>
    let (x, nx) := roundInt rm neg m e
    let out := decide (x < intMin y ∨ x > intMax y)
    (if sat then intSat y x else intWrap y x, { nv := out, nx := nx || out })

/-- `cvt` (R50, R56): the conversion of an encoding between two types. -/
def cvt (src dst : Ty) (rm : Rm) (sat : Bool) (b : Nat) : Nat × FFlags :=
  match ffmt? src, ffmt? dst with
  | none, none =>
    let x := intValue src b
    let r := if sat then intSat dst x else intWrap dst x
    (r, { nx := decide (intValue dst r ≠ x) })
  | none, some f =>
    let x := intValue src b
    roundVal f rm sat true (.fin (decide (x < 0)) x.natAbs 0)
  | some f, none => toInt dst rm sat (f.value b)
  | some f, some g => roundVal g rm sat true (f.value b)

end Sys2Proof.Machine
end

