-- ==== Sys2Proof/Machine/Special.lean ====
section
/-! DEFINITION. The special functions (R55) and the drain activations (R58): each result is the exact value rounded once.
The exact value is enclosed between two fixed-point bounds; both round alike, or else the result is a free value. -/

namespace Sys2Proof.Machine

/-- The fraction bits of the fixed-point bounds. -/
def fixP : Nat := 640
/-- The number 1 in fixed point. -/
def fixOne : Nat := 2 ^ 640
/-- A bound, in units of the last place, on what truncation loses in one series. -/
def slack : Nat := 2 ^ 20

/-- e^r for fixed-point r in [0, 1), from below: `fuel` terms, each truncated. -/
def expTerms (r : Nat) : Nat → Nat → Nat → Nat → Nat
  | 0, _, _, acc => acc
  | fuel + 1, k, term, acc =>
    let t := term * r / fixOne / (k + 1)
    expTerms r fuel (k + 1) t (acc + t)

/-- Bounds on e^r for r between `lo` and `hi`, both in [0, 1). -/
def expFix (lo hi : Nat) : Nat × Nat :=
  (expTerms lo 160 0 fixOne fixOne, expTerms hi 160 0 fixOne fixOne + slack)

/-- The terms of artanh z from below, `z2` = z². -/
def atanhTerms (z2 : Nat) : Nat → Nat → Nat → Nat → Nat
  | 0, _, _, acc => acc
  | fuel + 1, k, term, acc => atanhTerms z2 fuel (k + 1) (term * z2 / fixOne) (acc + term / (2 * k + 1))

/-- Bounds on 2 × artanh (a / b) for a / b in [0, 1/3], which is ln ((b + a) / (b − a)). -/
def lnFix (a b : Nat) : Nat × Nat :=
  let z := a * fixOne / b
  let s := 2 * atanhTerms (z * z / fixOne) 220 0 z 0
  (s, s + slack)

/-- Bounds on ln 2 = 2 × artanh (1/3). -/
def ln2Fix : Nat × Nat := lnFix 1 3

/-- A non-negative value m × 2^e as fixed point; exact for e ≥ −640, which every operand has. -/
def toFix (m : Nat) (e : Int) : Nat := m * 2 ^ (e + fixP).toNat

/-- Bounds on e^t for fixed-point t: n, lo, hi with 2^n × lo < e^t < 2^n × hi. -/
def expBounds (t : Nat) : Nat × Nat × Nat :=
  let (l, h) := ln2Fix
  let n := t / h
  let (lo, hi) := expFix (t - n * h) (t - n * l)
  (n, lo, hi)

/-- Rounds the value that lies between lo × 2^e and hi × 2^e, if both ends of the open interval round alike. -/
def roundBetween (f : FFmt) (rm : Rm) (neg : Bool) (lo hi : Nat) (e : Int) : Option (Nat × FFlags) :=
  let a := roundFin f rm false neg (2 * lo + 1) (e - 1)
  let b := roundFin f rm false neg (2 * hi - 1) (e - 1)
  if a = b then some a else none

/-- A magnitude so small that only rounding sees it. -/
def tinyVal (neg : Bool) : FVal := .fin neg 1 (-2000)
/-- A magnitude beyond every format. -/
def hugeVal : FVal := .fin false 1 2000
/-- A magnitude just below 1. -/
def nearOne (neg : Bool) : FVal := .fin neg (2 ^ 300 - 1) (-300)

/-- What a special function gives: a value to round, or bounds. -/
inductive Bounds where
  | exact (v : FVal) (nv : Bool)
  | between (neg : Bool) (lo hi : Nat) (e : Int)
  deriving DecidableEq, Repr

/-- 2^x. -/
def exp2B (v : FVal) : Bounds :=
  match v with
  | .nan _ => .exact (.nan false) false
  | .inf n => .exact (if n then .fin false 0 0 else .inf false) false
  | .fin n m e =>
    if m = 0 then .exact (.fin false 1 0) false
    else if 400 * fixOne ≤ m * 2 ^ (e + fixP).toNat then .exact (if n then tinyVal false else hugeVal) false
    else
      let t := toFix m e
      -- x = k + f with 0 ≤ f < 1
      let x : Int := if n then -(t : Int) else t
      let k := x / (fixOne : Int)
      let f := (x % (fixOne : Int)).toNat
      if f = 0 then .exact (.fin false 1 k) false
      else
        let (l, h) := ln2Fix
        let (lo, hi) := expFix (f * l / fixOne) (f * h / fixOne + 1)
        .between false lo hi (k - fixP)

/-- log2 x. -/
def log2B (v : FVal) : Bounds :=
  match v with
  | .nan _ => .exact (.nan false) false
  | .inf n => if n then .exact (.nan false) true else .exact (.inf false) false
  | .fin n m e =>
    if m = 0 then .exact (.inf true) false
    else if n then .exact (.nan false) true
    else
      let b := bitLen m - 1
      let k : Int := e + b
      if m = 2 ^ b then .exact (.fin (decide (k < 0)) k.natAbs 0) false
      else
        let (lo, hi) := lnFix (m - 2 ^ b) (m + 2 ^ b)
        let (l, h) := ln2Fix
        let lo : Int := k * (fixOne : Int) + (lo * fixOne / h : Nat)
        let hi : Int := k * (fixOne : Int) + (hi * fixOne / l + 1 : Nat)
        if 0 ≤ lo then .between false lo.toNat hi.toNat (-(fixP : Int))
        else .between true (-hi).toNat (-lo).toNat (-(fixP : Int))

/-- Bounds on 2^n × lo and 2^n × hi in fixed point. -/
def scaleUp (x : Nat × Nat × Nat) : Nat × Nat := (x.2.1 * 2 ^ x.1, x.2.2 * 2 ^ x.1)

/-- tanh x = (E − 1) / (E + 1) with E = e^(2|x|). -/
def tanhB (v : FVal) : Bounds :=
  match v with
  | .nan _ => .exact (.nan false) false
  | .inf n => .exact (.fin n 1 0) false
  | .fin n m e =>
    if m = 0 then .exact (.fin n 0 0) false
    else if 200 * fixOne ≤ m * 2 ^ (e + fixP).toNat then .exact (nearOne n) false
    else
      let (lo, hi) := scaleUp (expBounds (2 * toFix m e))
      .between n ((lo - fixOne) * fixOne / (lo + fixOne)) ((hi - fixOne) * fixOne / (hi + fixOne) + 1) (-(fixP : Int))

/-- 1 / (1 + e^−x): with E = e^|x|, E / (E + 1) for positive x and 1 / (E + 1) for negative x. -/
def sigmB (v : FVal) : Bounds :=
  match v with
  | .nan _ => .exact (.nan false) false
  | .inf n => .exact (if n then .fin false 0 0 else .fin false 1 0) false
  | .fin n m e =>
    if m = 0 then .exact (.fin false 1 (-1)) false
    else if 300 * fixOne ≤ m * 2 ^ (e + fixP).toNat then .exact (if n then tinyVal false else nearOne false) false
    else
      let (lo, hi) := scaleUp (expBounds (toFix m e))
      if n then .between false (fixOne * fixOne / (hi + fixOne)) (fixOne * fixOne / (lo + fixOne) + 1) (-(fixP : Int))
      else .between false (lo * fixOne / (lo + fixOne)) (hi * fixOne / (hi + fixOne) + 1) (-(fixP : Int))

/-- The special functions of R55 with one operand. -/
inductive SFun where
  | rcp | rsqrt | sqrt | exp2 | log2 | tanh | sigm
  deriving DecidableEq, Repr

/-- The number of a function, for the free value. -/
def SFun.code : SFun → Nat
  | .rcp => 1 | .rsqrt => 2 | .sqrt => 3 | .exp2 => 5 | .log2 => 6 | .tanh => 7 | .sigm => 8

/-- The bounds of a function at a value. -/
def SFun.bounds (g : SFun) (v : FVal) : Bounds :=
  match g with
  | .rcp => let r := fdiv (.fin false 1 0) v; .exact r.1 r.2
  | .rsqrt => let r := frsqrt v; .exact r.1 r.2
  | .sqrt => let r := fsqrt v; .exact r.1 r.2
  | .exp2 => exp2B v
  | .log2 => log2B v
  | .tanh => tanhB v
  | .sigm => sigmB v

/-- A special function on an encoding, correctly rounded (R55, R105). -/
def special (g : SFun) (f : FFmt) (rm : Rm) (b : Nat) : Nat × FFlags :=
  match g.bounds (f.value b) with
  | .exact v nv => withNv (roundVal f rm false false v) nv
  | .between neg lo hi e =>
    match roundBetween f rm neg lo hi e with
    | some r => r
    | none => ((Config.special g.code f.width (BitVec.ofNat 32 b)).toNat % 2 ^ f.width, { nx := true })

/-- A special function on binary32 with RNE. -/
def specialF32 (g : SFun) (x : BitVec 32) : BitVec 32 := BitVec.ofNat 32 (special g .f32 .rne x.toNat).1

/-- `relu` of R58. -/
def reluF32 (x : BitVec 32) : BitVec 32 :=
  if FFmt.f32.isNan x.toNat then 0x7FC00000 else if x.getLsbD 31 then 0 else x

/-- `gelu` of R58, in its fixed sequence. -/
def geluF32 (x : BitVec 32) : BitVec 32 :=
  let u := mulF32 x x
  let u := mulF32 u x
  let u := mulF32 u 0x3D372713
  let u := addF32 x u
  let u := mulF32 0x3F4C422A u
  let u := specialF32 .tanh u
  let u := addF32 0x3F800000 u
  mulF32 (mulF32 0x3F000000 x) u

/-- `silu` of R58. -/
def siluF32 (x : BitVec 32) : BitVec 32 := mulF32 x (specialF32 .sigm x)

end Sys2Proof.Machine
end

