-- ==== Sys2Proof/Machine/Access.lean ====
section
/-! DEFINITION. Loads and stores (R119), synchronising operations (R120, R121), atomics (R123), and their performance at
the word in the one order of the core path (R129, R306). -/

namespace Sys2Proof.Machine

/-! ### Performance at the word -/

/-- The value of a raw load from its bytes (R119). -/
def loadVal (sz : Nat) (sgn : Bool) (n : Nat) : Word :=
  let w := BitVec.ofNat 64 n
  if sgn then sextTo (8 * sz) w else w

/-- The value that an atomic stores (R123), from old, g(V) and g(T). -/
def amoNew (op : Nat) (old v c : Word) : Word :=
  match op with
  | 0 => old + v
  | 1 => old &&& v
  | 2 => old ||| v
  | 3 => old ^^^ v
  | 4 => if old.slt v then old else v
  | 5 => if old.slt v then v else old
  | 6 => if old.ult v then old else v
  | 7 => if old.ult v then v else old
  | 8 => v
  | 9 => if old = c then v else old
  | 10 => (old.setWidth 32 + v.setWidth 32).setWidth 64
  | _ => (addF32 (old.setWidth 32) (v.setWidth 32)).setWidth 64

/-- The size of an atomic in bytes (R123). -/
def amoSize (op : Nat) : Nat := if op ≥ 10 then 4 else 8

/-- What gT receives from an atomic: the old value; `amoaddw` sign-extends it (R123). -/
def amoResult (op : Nat) (old : Word) : Word := if op = 10 then sextTo 32 old else old

/-- A read at a key by a strand of core `c`: the bytes as a number, or the state after the core has consumed an
uncorrectable error (R314, R317). -/
def State.readWord (s : State) (c key n : Nat) : Except State Nat :=
  if s.poisoned key n then .error (s.consume c key) else .ok (s.readNat key n)

/-- A read of the full/empty bit of the word at a key by a strand of core `c` (R120): a poisoned word is consumed (R314, R317). -/
def State.readBit (s : State) (c key : Nat) : Except State Bool :=
  if s.poisoned key 8 then .error (s.consume c key) else .ok (s.isFull key)

/-- An atomic at a key: the old value and the state with the new one (R123). -/
def State.amoAt (s : State) (c key op : Nat) (v e : Word) : Except State (Word × State) :=
  match s.readWord c key (amoSize op) with
  | .error s => .error s
  | .ok n =>
    let old := BitVec.ofNat 64 n
    .ok (amoResult op old, s.writeBytes key (bytesOfNat (amoSize op) (amoNew op old v e).toNat))

/-- The head of a strand's core-path operations leaves the list. -/
def State.popOp (s : State) (sid : Nat) : State := s.modStrand sid fun t => { t with ops := t.ops.tail }

/-- The head operation is performed and ends its count. -/
def State.opDone (s : State) (sid : Nat) (o : CoreOp) : State := (s.popOp sid).uncount sid o.sn

/-- The head operation is performed and its result is on its way back. -/
def State.opReply (s : State) (sid : Nat) (o : CoreOp) (k : RetKind) (ds : List (Dest × Word)) : State :=
  s.modStrand sid fun t => { t with ops := t.ops.tail, rets := t.rets ++ [{ kind := k, sn := o.sn, dests := ds }] }

/-- Ends a performance that may have consumed an error. -/
def settle (r : Except State State) : State :=
  match r with
  | .ok s => s
  | .error s => s

/-- What an operation needs of its page. -/
def OpKind.need : OpKind → Acc
  | .load .. | .sver .. => accR
  | .amo .. => accRW
  | _ => accW

/-- The global bytes that an operation touches: address space, first address and number. -/
def OpKind.span? (asid : BitVec 12) : OpKind → Option (BitVec 12 × Nat × Nat)
  | .load (.virt a va) n _ | .store (.virt a va) n _ => some (a, va, n)
  | .amo op (.virt a va) _ _ => some (a, va, amoSize op.toNat)
  | .sver va _ => some (asid, va, 16)
  | .pop _ r o => if r.space = 4 then some (r.asid, r.base + o, 64) else none
  | _ => none

/-- An operation whose message paired mode merges with the partner's wherever it goes (R323): global and chip-scratchpad
accesses, and queue-bank operations. -/
def OpKind.merged (k : OpKind) : Bool :=
  match k with
  | .load (.virt ..) _ _ | .store (.virt ..) _ _ | .amo _ (.virt ..) _ _ | .push .. | .pop .. | .sver .. | .trig | .xrel .. => true
  | .load (.phys a) _ _ | .store (.phys a) _ _ | .amo _ (.phys a) _ _ | .fill a _ | .empty a | .test a =>
    decide (chipBase ≤ a ∧ a < operandBase)
  | _ => false

/-- An operation of a strand whose message is merged in paired mode (R323): the stores to other groups' words are, too. -/
def State.merges (s : State) (t : Strand) (k : OpKind) : Bool :=
  k.merged ||
    (match k with
     | .store (.phys a) _ _ | .fill a _ | .empty a => (keyCore? a).isSome && !(s.group t.group).owns a
     | _ => false)

/-- Two copies of a message agree (R323): kind, address and data. What a partner keeps for itself is left out. -/
def OpKind.same : OpKind → OpKind → Bool
  | .sver a _, .sver b _ => a == b
  | .push a _, .push b _ => decide (a = b)
  | .pop _ _ a, .pop _ _ b => a == b
  | a, b => decide (a = b)

/-- Performs a load, a store, a synchronising operation, an atomic, the mark of `trig` or the message of `dx.xrel` at the head
of a strand's operations, at its word (R119, R120, R123). A global access that does not translate is not performed (R306). -/
def State.performOp (s : State) (sid : Nat) (t : Strand) (o : CoreOp) : State :=
  match o.kind with
  | .load a sz sgn =>
    match s.resolve (dieOf o.core) a accR with
    | .error _ => s
    | .ok (key, s1) =>
      settle ((s1.readWord o.core key sz).map fun n => s1.opReply sid o .load [(o.dest, loadVal sz sgn n)])
  | .store a sz v =>
    match s.resolve (dieOf o.core) a accW with
    | .error _ => s
    | .ok (key, s1) => (s1.storeAt key (bytesOfNat sz v.toNat)).opDone sid o
  | .fill key v => (s.fillWord key v).opDone sid o
  | .empty key => (s.emptyWord key).opDone sid o
  | .test key => settle ((s.readBit o.core key).map fun b => s.opReply sid o .load [(o.dest, boolW b)])
  | .amo op a v c =>
    match s.resolve (dieOf o.core) a accRW with
    | .error _ => s
    | .ok (key, s1) =>
      settle ((s1.amoAt o.core key op.toNat v c).map fun r => r.2.opReply sid o .load [(o.dest, r.1)])
  | .trig => (s.modStrand sid fun t => { t with trig := true }).opDone sid o
  | .xrel d x => (s.modDie d fun y => { y with releasing := y.releasing ++ [x] }).opDone sid o
  | .sver va d2 =>
    match s.resolve (dieOf o.core) (.virt t.asid va) accR with
    | .error _ => s
    | .ok (key, s1) =>
      settle (do
        let a ← s1.readWord o.core key 8
        let b ← s1.readWord o.core (key + 8) 8
        return s1.opReply sid o .load [(o.dest, BitVec.ofNat 64 a), (d2, BitVec.ofNat 64 b)])
  | _ => s

/-- The kinds of operation that REMOTE_ACCESS_ARRIVAL performs; the others have an event of their own. -/
def OpKind.isAccess : OpKind → Bool
  | .load .. | .store .. | .fill .. | .empty .. | .test .. | .amo .. | .xrel .. | .sver .. | .trig => true
  | _ => false

/-- The package that an operation reaches has a link (R336). -/
def State.opUp (s : State) (t : Strand) (o : CoreOp) : Bool :=
  let at_ := fun (a : Addr) =>
    match s.resolve (dieOf o.core) a o.kind.need with
    | .ok (k, _) => s.pkgUp (keyPkg k)
    | .error _ => true
  match o.kind with
  | .load a .. | .store a .. | .amo _ a .. => at_ a
  | .fill k _ | .empty k | .test k => s.pkgUp (keyPkg k)
  | .sver va _ => at_ (.virt t.asid va)
  | _ => true

/-- A load, store, synchronising operation or atomic reaches its word and is performed (R119, R129): the oldest operation of
strand `ua`. It waits while no link leads to its package (R336). In paired mode a merged message waits for PAIR_MERGE_COMPARE
(R323); with a fault held, nothing is performed (R306). -/
def execRemoteAccessArrival (s : State) : Host.Outcome State Fault Refusal :=
  match s.strand? s.ua with
  | none => .next s
  | some t =>
    match t.ops with
    | [] => .next s
    | o :: _ =>
      if o.kind.isAccess && t.opFault.isNone && !(t.pair && s.merges t o.kind) && s.opUp t o then .next (s.performOp s.ua t o)
      else .next s

/-- A load's data returns to the strand (R80, R119). -/
def execLoadDataReturn (s : State) : Host.Outcome State Fault Refusal := arriveResult .load s

/-- The first byte of a range that does not translate, of its first and its last: its address and the cause. -/
def State.spanFault (s : State) (d : Nat) (x : BitVec 12 × Nat × Nat) (need : Acc) : Option (Nat × Nat) :=
  let last := x.2.1 + x.2.2 - 1
  match s.translate d x.1 x.2.1 need, s.translate d x.1 last need with
  | .error c, _ => some (x.2.1, c)
  | .ok _, .error c => some (last, c)
  | .ok _, .ok _ => none

/-- Both copies of the oldest message of a pair are at the west router, where `t` is the west strand (R323). -/
def State.copyHere (s : State) (t : Strand) : Bool :=
  decide (t.core % 16 < 8) &&
    (match t.partner.bind s.strand? with
     | some u =>
       (match t.ops, u.ops with
        | a :: _, b :: _ => a.kind.same b.kind
        | _, _ => false)
     | none => false)

/-- A global access of the core path fails to translate (R306): the fault becomes known, and a COREFAULT record is made
with a fresh token. It waits while the die has no place for the record (R309). -/
def execCoreTranslationFault (s : State) : Host.Outcome State Fault Refusal :=
  match s.strand? s.ua with
  | none => .next s
  | some t =>
    if t.pair && !s.copyHere t then .next s
    else match t.ops, t.opFault with
    | o :: _, none =>
      match (o.kind.span? t.asid).bind fun x => (s.spanFault (dieOf o.core) x o.kind.need).map fun f => (x.1, f) with
      | some (asid, va, c) =>
        if s.recRoom (dieOf o.core) then
          let acc := accField o.kind.need
          let (tok, s1) := s.wokenRecord (dieOf o.core) asid 15 1 va acc c t.selfWord o.pc (.core s.ua)
          let f : Fault1 := { va, acc, cause := c, pc := o.pc, tok }
          let s2 := s1.setStrand s.ua { t with opFault := some f }
          .next (match t.pair, t.partner with
            | true, some p => s2.modStrand p fun u => { u with opFault := some f }
            | _, _ => s2)
        else .next s
      | none => .next s
    | _, _ => .next s

/-- A wake message of the word that strand `ua` parked on reaches its core (R121). -/
def execWakeMessage (s : State) : Host.Outcome State Fault Refusal :=
  match s.strand? s.ua with
  | none => .next s
  | some t =>
    if t.wakeMsg then
      let s1 := s.setStrand s.ua { t with wakeMsg := false }
      match t.st with
      | .parked (.word ..) | .parked (.own ..) => .next (s1.wake s.ua)
      | _ => .next s1
    else .next s

/-! ### Loads and stores at issue -/

/-- A late result that is known at once: its place is prepared, it counts until it arrives, and the strand goes on. -/
def State.replyLater (s : State) (t : Strand) (cs : List Ctr) (g : GReg) (v : Word) : State :=
  let (s, t, d) := s.lateDest t g
  let (sn, s) := s.fresh
  let t := (t.countOn sn cs).advance
  s.setStrand s.cur { t with rets := t.rets ++ [{ kind := .load, sn, dests := [(d, v)] }] }

/-- The offset of an M-format access (R119). -/
def mOffset (x : Word) (o : BitVec 9) (sz : Nat) : Word := x + o.signExtend 64 * BitVec.ofNat 64 sz

/-- The read of a word in cluster or peer space, which holds issue (R319): it waits for the strand's earlier operations,
raises PEERLOST at a sealed core, and is performed at once otherwise. `f` gives the result and the state after it. -/
def State.heldRead (s0 s : State) (t : Strand) (key : Nat) (f : State → State) : State :=
  if !t.ops.isEmpty then s0
  else
    match s.sealedAt (.phys key) with
    | some c => s0.trap s0.cur t .peerlost (peerLostVal c)
    | none => if s.pkgUp (keyPkg key) then f s else s0

/-- A load (R119). -/
def loadIssue (i : Instr) (g : GReg) (h : HReg) (x : GReg) (o : BitVec 9) (sz : Nat) (sgn : Bool) (s : State) :
    Host.Outcome State Fault Refusal :=
  joint i (fun t => s.foreign t (t.regionAt h.toNat)) (s := s) fun s => issue i s fun s1 t rd =>
    let r := t.regionAt h.toNat
    let off := mOffset (rd x) o sz
    match accessCheck r h.toNat off sz rR .plain with
    | some (c, v) => s.trap s.cur t c v
    | none =>
      match r.addr off.toNat with
      | .phys key =>
        if r.trapCapable then
          s.heldRead s1 t key fun s1 =>
            settle ((s1.readWord t.core key sz).map fun n => s1.replyLater t [.ld] g (loadVal sz sgn n))
        else
          let (s2, t, d) := s1.lateDest t g
          s2.enqueue s.cur t [.ld] (.load (.phys key) sz sgn) d
      | a =>
        let (s2, t, d) := s1.lateDest t g
        s2.enqueue s.cur t [.ld] (.load a sz sgn) d

/-- A store (R119). -/
def storeIssue (i : Instr) (g : GReg) (h : HReg) (x : GReg) (o : BitVec 9) (sz : Nat) (s : State) :
    Host.Outcome State Fault Refusal :=
  issue i s fun s1 t rd =>
    let r := t.regionAt h.toNat
    let off := mOffset (rd x) o sz
    match accessCheck r h.toNat off sz rW .plain with
    | some (c, v) => s.trap s.cur t c v
    | none => s1.enqueue s.cur t [.st] (.store (r.addr off.toNat) sz (rd g)) .drop

/-- `ldb` (R119): gT receives the byte, sign-extended. -/
def execLdb (t : GReg) (h : HReg) (x : GReg) (k : BitVec 2) (o : BitVec 9) (s : State) :
    Host.Outcome State Fault Refusal :=
  loadIssue (.ldb t h x k o) t h x o 1 true s

/-- `ldbu` (R119): gT receives the byte, zero-extended. -/
def execLdbu (t : GReg) (h : HReg) (x : GReg) (k : BitVec 2) (o : BitVec 9) (s : State) :
    Host.Outcome State Fault Refusal :=
  loadIssue (.ldbu t h x k o) t h x o 1 false s

/-- `ldh` (R119): gT receives the half, sign-extended. -/
def execLdh (t : GReg) (h : HReg) (x : GReg) (k : BitVec 2) (o : BitVec 9) (s : State) :
    Host.Outcome State Fault Refusal :=
  loadIssue (.ldh t h x k o) t h x o 2 true s

/-- `ldhu` (R119): gT receives the half, zero-extended. -/
def execLdhu (t : GReg) (h : HReg) (x : GReg) (k : BitVec 2) (o : BitVec 9) (s : State) :
    Host.Outcome State Fault Refusal :=
  loadIssue (.ldhu t h x k o) t h x o 2 false s

/-- `ldw` (R119): gT receives the word, sign-extended. -/
def execLdw (t : GReg) (h : HReg) (x : GReg) (k : BitVec 2) (o : BitVec 9) (s : State) :
    Host.Outcome State Fault Refusal :=
  loadIssue (.ldw t h x k o) t h x o 4 true s

/-- `ldwu` (R119): gT receives the word, zero-extended. -/
def execLdwu (t : GReg) (h : HReg) (x : GReg) (k : BitVec 2) (o : BitVec 9) (s : State) :
    Host.Outcome State Fault Refusal :=
  loadIssue (.ldwu t h x k o) t h x o 4 false s

/-- `ldd` (R119): gT receives the dword. -/
def execLdd (t : GReg) (h : HReg) (x : GReg) (k : BitVec 2) (o : BitVec 9) (s : State) :
    Host.Outcome State Fault Refusal :=
  loadIssue (.ldd t h x k o) t h x o 8 false s

/-- `stb` (R119): the byte receives the low 8 bits of g(T). -/
def execStb (t : GReg) (h : HReg) (x : GReg) (k : BitVec 2) (o : BitVec 9) (s : State) :
    Host.Outcome State Fault Refusal :=
  storeIssue (.stb t h x k o) t h x o 1 s

/-- `sth` (R119): the half receives the low 16 bits of g(T). -/
def execSth (t : GReg) (h : HReg) (x : GReg) (k : BitVec 2) (o : BitVec 9) (s : State) :
    Host.Outcome State Fault Refusal :=
  storeIssue (.sth t h x k o) t h x o 2 s

/-- `stw` (R119): the word receives the low 32 bits of g(T). -/
def execStw (t : GReg) (h : HReg) (x : GReg) (k : BitVec 2) (o : BitVec 9) (s : State) :
    Host.Outcome State Fault Refusal :=
  storeIssue (.stw t h x k o) t h x o 4 s

/-- `std` (R119): the dword receives the low 64 bits of g(T). -/
def execStd (t : GReg) (h : HReg) (x : GReg) (k : BitVec 2) (o : BitVec 9) (s : State) :
    Host.Outcome State Fault Refusal :=
  storeIssue (.std t h x k o) t h x o 8 s

/-! ### Synchronising operations at issue -/

/-- The key of a synchronising operation's word (R120), after its access check. -/
def syncCheck (t : Strand) (h : HReg) (x : Word) (need : Rights) : Except (Cause × Word) (Region × Nat) :=
  let r := t.regionAt h.toNat
  match accessCheck r h.toNat x 8 need .sync with
  | some e => .error e
  | none =>
    match r.addr x.toNat with
    | .phys key => .ok (r, key)
    | .virt .. => .error (.space, x)

/-- `ldf`, `ldfe` and `stef`: they wait for the strand's earlier operations, and then either find the bit as they need it
and are performed, or park (R120, R121). A word of a sealed core gives PEERLOST (R319); a poisoned one is consumed (R314). -/
def syncHeld (i : Instr) (h : HReg) (x : GReg) (need : Rights) (full : Bool) (s : State)
    (f : State → State → Strand → (GReg → Word) → Nat → State) : Host.Outcome State Fault Refusal :=
  joint i (fun t => decide ((t.regionAt h.toNat).space = 3) || s.foreign t (t.regionAt h.toNat)) (s := s) fun s =>
    issue i s fun s1 t rd =>
    match syncCheck t h (rd x) need with
    | .error (c, v) => s.trap s.cur t c v
    | .ok (_, key) =>
      s.heldRead s1 t key fun s1 =>
        settle ((s1.readBit t.core key).map fun b => if b = full then f s s1 t rd key else s.park s.cur t (.word key full))

/-- `ldf` (R120): waits until full, and reads the word. -/
def execLdf (t : GReg) (h : HReg) (x : GReg) (s : State) : Host.Outcome State Fault Refusal :=
  syncHeld (.ldf t h x) h x (rR ||| rA) true s fun _ s1 u _ key =>
    s1.replyLater u [.ld] t (BitVec.ofNat 64 (s1.readNat key 8))

/-- `ldfe` (R120): waits until full, reads the word and empties it, which wakes (R121). -/
def execLdfe (t : GReg) (h : HReg) (x : GReg) (s : State) : Host.Outcome State Fault Refusal :=
  syncHeld (.ldfe t h x) h x (rR ||| rW ||| rA) true s fun _ s1 u _ key =>
    (s1.replyLater u [.ld] t (BitVec.ofNat 64 (s1.readNat key 8))).emptyWord key

/-- `stef` (R120): waits until empty, writes the word and fills it, which wakes (R121). -/
def execStef (t : GReg) (h : HReg) (x : GReg) (s : State) : Host.Outcome State Fault Refusal :=
  syncHeld (.stef t h x) h x (rW ||| rA) false s fun s0 s1 u rd key =>
    (s1.setStrand s0.cur u.advance).fillWord key (rd t)

/-- `stf` (R120): writes the word and fills it, without waiting. -/
def execStf (t : GReg) (h : HReg) (x : GReg) (s : State) : Host.Outcome State Fault Refusal :=
  issue (.stf t h x) s fun s1 u rd =>
    match syncCheck u h (rd x) (rW ||| rA) with
    | .error (c, v) => s.trap s.cur u c v
    | .ok (_, key) => s1.enqueue s.cur u [.st] (.fill key (rd t)) .drop

/-- `sete` (R120): empties the word, without waiting. -/
def execSete (h : HReg) (x : GReg) (s : State) : Host.Outcome State Fault Refusal :=
  issue (.sete h x) s fun s1 u rd =>
    match syncCheck u h (rd x) (rW ||| rA) with
    | .error (c, v) => s.trap s.cur u c v
    | .ok (_, key) => s1.enqueue s.cur u [.st] (.empty key) .drop

/-- `fetest` (R120): 1 if the word is full, else 0. -/
def execFetest (t : GReg) (h : HReg) (x : GReg) (s : State) : Host.Outcome State Fault Refusal :=
  joint (.fetest t h x) (fun t => s.foreign t (t.regionAt h.toNat)) (s := s) fun s => issue (.fetest t h x) s fun s1 u rd =>
    match syncCheck u h (rd x) (rR ||| rA) with
    | .error (c, v) => s.trap s.cur u c v
    | .ok (r, key) =>
      if r.trapCapable then
        s.heldRead s1 u key fun s1 => settle ((s1.readBit u.core key).map fun b => s1.replyLater u [.ld] t (boolW b))
      else
        let (s2, u, d) := s1.lateDest u t
        s2.enqueue s.cur u [.ld] (.test key) d

/-! ### Atomics at issue -/

/-- An atomic (R123): its rights are R, W and A; g(T) and g(V) are read at issue; in cluster and peer space it holds
issue (R319). -/
def amoIssue (i : Instr) (op : Nat) (g : GReg) (h : HReg) (x v : GReg) (s : State) : Host.Outcome State Fault Refusal :=
  joint i (fun t => s.foreign t (t.regionAt h.toNat)) (s := s) fun s => issue i s fun s1 t rd =>
    let r := t.regionAt h.toNat
    let off := rd x
    match accessCheck r h.toNat off (amoSize op) (rR ||| rW ||| rA) .plain with
    | some (c, w) => s.trap s.cur t c w
    | none =>
      let late := fun (a : Addr) =>
        let (s2, t, d) := s1.lateDest t g
        s2.enqueue s.cur t [.ld, .st] (.amo (BitVec.ofNat 6 op) a (rd v) (rd g)) d
      match r.addr off.toNat with
      | .phys key =>
        if r.trapCapable then
          s.heldRead s1 t key fun s1 =>
            settle ((s1.amoAt t.core key op (rd v) (rd g)).map fun q => q.2.replyLater t [.ld, .st] g q.1)
        else late (.phys key)
      | a => late a

/-- `amoadd` (R123). -/
def execAmoadd (t : GReg) (h : HReg) (x : GReg) (v : GReg) (s : State) : Host.Outcome State Fault Refusal :=
  amoIssue (.amoadd t h x v) 0 t h x v s

/-- `amoand` (R123). -/
def execAmoand (t : GReg) (h : HReg) (x : GReg) (v : GReg) (s : State) : Host.Outcome State Fault Refusal :=
  amoIssue (.amoand t h x v) 1 t h x v s

/-- `amoor` (R123). -/
def execAmoor (t : GReg) (h : HReg) (x : GReg) (v : GReg) (s : State) : Host.Outcome State Fault Refusal :=
  amoIssue (.amoor t h x v) 2 t h x v s

/-- `amoxor` (R123). -/
def execAmoxor (t : GReg) (h : HReg) (x : GReg) (v : GReg) (s : State) : Host.Outcome State Fault Refusal :=
  amoIssue (.amoxor t h x v) 3 t h x v s

/-- `amomin` (R123). -/
def execAmomin (t : GReg) (h : HReg) (x : GReg) (v : GReg) (s : State) : Host.Outcome State Fault Refusal :=
  amoIssue (.amomin t h x v) 4 t h x v s

/-- `amomax` (R123). -/
def execAmomax (t : GReg) (h : HReg) (x : GReg) (v : GReg) (s : State) : Host.Outcome State Fault Refusal :=
  amoIssue (.amomax t h x v) 5 t h x v s

/-- `amominu` (R123). -/
def execAmominu (t : GReg) (h : HReg) (x : GReg) (v : GReg) (s : State) : Host.Outcome State Fault Refusal :=
  amoIssue (.amominu t h x v) 6 t h x v s

/-- `amomaxu` (R123). -/
def execAmomaxu (t : GReg) (h : HReg) (x : GReg) (v : GReg) (s : State) : Host.Outcome State Fault Refusal :=
  amoIssue (.amomaxu t h x v) 7 t h x v s

/-- `amoswap` (R123). -/
def execAmoswap (t : GReg) (h : HReg) (x : GReg) (v : GReg) (s : State) : Host.Outcome State Fault Refusal :=
  amoIssue (.amoswap t h x v) 8 t h x v s

/-- `amocas` (R123). -/
def execAmocas (t : GReg) (h : HReg) (x : GReg) (v : GReg) (s : State) : Host.Outcome State Fault Refusal :=
  amoIssue (.amocas t h x v) 9 t h x v s

/-- `amoaddw` (R123). -/
def execAmoaddw (t : GReg) (h : HReg) (x : GReg) (v : GReg) (s : State) : Host.Outcome State Fault Refusal :=
  amoIssue (.amoaddw t h x v) 10 t h x v s

/-- `amofaddF32` (R123). -/
def execAmofaddF32 (t : GReg) (h : HReg) (x : GReg) (v : GReg) (s : State) : Host.Outcome State Fault Refusal :=
  amoIssue (.amofaddF32 t h x v) 11 t h x v s

end Sys2Proof.Machine
end

