-- ==== Sys2Proof/Machine/VectorLanes.lean ====
section
/-! DEFINITION. What the vector instructions compute on the lanes of their operands (R91, R101 to R108). -/

namespace Sys2Proof.Machine

/-! ### Lanes (R91) -/

/-- Lane `i` of width `w`. -/
def lane (q : Quad) (w i : Nat) : Nat := (q.extractLsb' (w * i) w).toNat

/-- The lanes of a register read at a type. -/
def lanes (y : Ty) (q : Quad) : List Nat := (List.range y.lanes).map fun i => lane q y.width i

/-- The number that lanes of width `w` make, lane 0 lowest. -/
def lanesNat (w : Nat) : List Nat → Nat
  | [] => 0
  | x :: t => x % 2 ^ w + 2 ^ w * lanesNat w t

/-- A register of lanes of width `w`; lanes that are not given are 0. -/
def ofLanes (w : Nat) (l : List Nat) : Quad := BitVec.ofNat 128 (lanesNat w l)

/-- A lane of all ones, or 0. -/
def maskLane (y : Ty) (b : Bool) : Nat := if b then 2 ^ y.width - 1 else 0

/-! ### One lane -/

/-- The format of a floating type; f32 for the others, which do not ask. -/
def fmtOf (y : Ty) : FFmt := (ffmt? y).getD .f32

/-- An operation on lanes: exact and wrapped on integers, rounded on floats (R101, R102). -/
def arith (y : Ty) (rm : Rm) (fi : Int → Int → Int) (ff : Rm → FVal → FVal → FVal × Bool) (a b : Nat) : Nat × FFlags :=
  if y.isFlt then
    let f := fmtOf y
    let r := ff rm (f.value a) (f.value b)
    withNv (roundVal f rm false false r.1) r.2
  else (intWrap y (fi (intValue y a) (intValue y b)), {})

/-- One lane of `vfma` (R102, R103). -/
def fmaLane (y : Ty) (rm : Rm) (a b c : Nat) : Nat × FFlags :=
  if y.isFlt then (fmtOf y).fma rm a b c
  else (intWrap y (intValue y a * intValue y b + intValue y c), {})

/-- The key of a lane (R108): the value of an integer; of a float the order −∞, negative, −0, +0, positive, +∞, NaN. -/
def laneKey (y : Ty) (a : Nat) : Int :=
  if y.isFlt then
    let f := fmtOf y
    if f.isNan a then 2 ^ 64 else if f.neg a then -(f.mag a : Int) - 1 else f.mag a
  else intValue y a

/-- A lane holds a NaN. -/
def laneNan (y : Ty) (a : Nat) : Bool := y.isFlt && (fmtOf y).isNan a

/-- One lane of `vmin` and `vmax` (R103). -/
def pickLane (y : Ty) (larger : Bool) (a b : Nat) : Nat :=
  if laneNan y a || laneNan y b then (fmtOf y).cnan
  else if laneKey y a < laneKey y b then (if larger then b else a) else (if larger then a else b)

/-- The comparison of two lanes (R103): −1, 0 or 1, or none where one is a NaN. -/
def cmpLane (y : Ty) (a b : Nat) : Option Int :=
  if laneNan y a || laneNan y b then none
  else if y.isFlt then some (((fmtOf y).value a).cmp ((fmtOf y).value b))
  else some (if intValue y a < intValue y b then -1 else if intValue y a = intValue y b then 0 else 1)

/-- A compare: all ones or 0; `quiet` sets no flag on a NaN (R103). -/
def compare (y : Ty) (quiet : Bool) (p : Int → Bool) (a b : Nat) : Nat × FFlags :=
  match cmpLane y a b with
  | none => (0, { nv := !quiet })
  | some c => (maskLane y (p c), {})

/-- `vabs` (R102, R44). -/
def absLane (y : Ty) (a : Nat) : Nat :=
  if y.isFlt then a % 2 ^ (y.width - 1) else intWrap y (intValue y a).natAbs

/-- `vneg` (R102, R44). -/
def negLane (y : Ty) (a : Nat) : Nat :=
  if y.isFlt then (a + 2 ^ (y.width - 1)) % 2 ^ y.width else intWrap y (-intValue y a)

/-- The shift amount: the low log2 w bits of a lane (R102). -/
def shiftOf (y : Ty) (b : Nat) : Nat := b % y.width

/-- `vshr` (R102): floor division by a power of two of the signed or unsigned value. -/
def shrLane (y : Ty) (a b : Nat) : Nat := intWrap y (intValue y a / 2 ^ shiftOf y b)

/-- One lane of `vdiv` (R105, R57). -/
def divLane (y : Ty) (rm : Rm) (a b : Nat) : Nat × FFlags :=
  if y.isFlt then arith y rm (fun x _ => x) (fun _ => fdiv) a b
  else if intValue y b = 0 then (2 ^ y.width - 1, {})
  else (intWrap y (Int.tdiv (intValue y a) (intValue y b)), {})

/-- The exact sum of the products of `vdot` and c (R103). -/
def dotSum (rm : Rm) : List FVal → FVal → FVal
  | [], acc => acc
  | p :: t, acc => dotSum rm t (fadd rm acc p).1

/-- Whether a value is a zero of a sign. -/
def FVal.zeroSign : FVal → Option Bool
  | .fin n m _ => if m = 0 then some n else none
  | _ => none

/-- The sign of an exact zero sum of terms (R103): that of the terms if all are zeros of one sign, else + but − under
RDN. -/
def zeroSum (rm : Rm) (ts : List FVal) : Bool :=
  if ts.all fun v => v.zeroSign = some true then true
  else if ts.all fun v => v.zeroSign = some false then false
  else rm = .rdn

/-- Whether a list of terms holds infinities of both signs and no NaN, so that their sum is ∞ − ∞ (R45). -/
def infClash (ts : List FVal) : Bool :=
  ts.contains (.inf true) && ts.contains (.inf false) && !ts.any FVal.isNan

/-- One lane of `vdot` (R103): the exact sum, rounded once; an exact zero has the sign that IEEE 754 gives a sum. NV is
set by a product 0 × ∞ and by ∞ − ∞ among terms none of which is NaN (R45; DEDUCED, entry 57). -/
def dotLane (y : Ty) (rm : Rm) (ps : List (Nat × Nat)) (c : Nat) : Nat × FFlags :=
  if y.isFlt then
    let f := fmtOf y
    let ms := ps.map fun x => fmul (f.value x.1) (f.value x.2)
    let c := FFmt.f32.value c
    let ts := c :: ms.map Prod.fst
    let v := match dotSum rm (ms.map Prod.fst) c with
      | .fin _ 0 e => .fin (zeroSum rm ts) 0 e
      | v => v
    withNv (roundVal .f32 rm false false v) (ms.any Prod.snd || infClash ts)
  else
    let d : Ty := if y.isSint then .s32 else .z32
    (intWrap d ((ps.map fun x => intValue y x.1 * intValue y x.2).foldl (· + ·) (intValue d c)), {})

/-! ### Whole registers -/

/-- What a vector instruction gives: its result, and the flags it sets. -/
abbrev VRes := Quad × FFlags

/-- Collects lanes and their flags. -/
def gather (w : Nat) (l : List (Nat × FFlags)) : VRes :=
  (ofLanes w (l.map fun x => x.1), l.foldl (fun f x => f.or x.2) {})

/-- A form on one operand, lane by lane. -/
def map1 (y : Ty) (f : Nat → Nat × FFlags) (a : Quad) : VRes := gather y.width ((lanes y a).map f)

/-- A form on two operands, lane by lane. -/
def map2 (y : Ty) (f : Nat → Nat → Nat × FFlags) (a b : Quad) : VRes :=
  gather y.width (((lanes y a).zip (lanes y b)).map fun x => f x.1 x.2)

/-- A form on three operands, lane by lane. -/
def map3 (y : Ty) (f : Nat → Nat → Nat → Nat × FFlags) (a b c : Quad) : VRes :=
  gather y.width ((((lanes y a).zip (lanes y b)).zip (lanes y c)).map fun x => f x.1.1 x.1.2 x.2)

/-- A lane without flags. -/
def plain (x : Nat) : Nat × FFlags := (x, {})

/-- `vdot` (R103). -/
def vdot (y : Ty) (rm : Rm) (a b c : Quad) : VRes :=
  let p := 32 / y.width
  gather 32 ((List.range 4).map fun j =>
    dotLane y rm ((List.range p).map fun q => (lane a y.width (p * j + q), lane b y.width (p * j + q))) (lane c 32 j))

/-- The rounding of `vcvt` (R46). -/
def cvtRm (frm : BitVec 8) (c : BitVec 3) : Rm :=
  match (c.extractLsb' 1 2).toNat with
  | 0 => Rm.ofFrm frm | 1 => .rne | 2 => .rtz | _ => .rna

/-- The lanes that `vcvt` converts (R104). -/
def cvtCount (st dt : Ty) : Nat := 128 / Nat.max st.width dt.width

/-- `vcvt` (R104). -/
def vcvt (st dt : Ty) (frm : BitVec 8) (c : BitVec 3) (a : Quad) : VRes :=
  gather dt.width ((List.range (cvtCount st dt)).map fun i =>
    cvt st dt (cvtRm frm c) (c.getLsbD 0) (lane a st.width i))

/-- The places of a list of lanes with what stands there, from `i`. -/
def indexed {α : Type} : Nat → List α → List (Nat × α)
  | _, [] => []
  | i, x :: t => (i, x) :: indexed (i + 1) t

/-- `vshuf` (R106). -/
def vshuf (y : Ty) (a b : Quad) : VRes :=
  gather y.width ((lanes y b).map fun i => plain (if i < y.lanes then lane a y.width i else 0))

/-- `vzip` (R106). -/
def vzip (y : Ty) (h : Nat) (a b : Quad) : VRes :=
  let n := y.lanes
  gather y.width ((List.range n).map fun i =>
    plain (lane (if i % 2 = 0 then a else b) y.width (h * (n / 2) + i / 2)))

/-- `vunzip` (R106). -/
def vunzip (y : Ty) (o : Nat) (a b : Quad) : VRes :=
  let n := y.lanes
  gather y.width ((List.range n).map fun k =>
    plain (if k < n / 2 then lane a y.width (2 * k + o) else lane b y.width (2 * (k - n / 2) + o)))

/-- `vcompress` (R106). -/
def vcompress (y : Ty) (a b : Quad) : VRes :=
  (ofLanes y.width ((((lanes y a).zip (lanes y b)).filter fun x => x.2 ≠ 0).map fun x => x.1), {})

/-- Deals values to the places of a mask that are not 0. -/
def dealOut : List Nat → List Nat → List Nat
  | [], _ => []
  | m :: t, vs => if m = 0 then 0 :: dealOut t vs else vs.headD 0 :: dealOut t vs.tail

/-- `vexpand` (R106). -/
def vexpand (y : Ty) (a b : Quad) : VRes := (ofLanes y.width (dealOut (lanes y b) (lanes y a)), {})

/-- `vpopc` (R106). -/
def vpopc (y : Ty) (a : Quad) : VRes := (ofLanes y.width [((lanes y a).filter fun x => x ≠ 0).length], {})

/-- `vfirst` (R106). -/
def vfirst (y : Ty) (a : Quad) : VRes := (ofLanes y.width [((lanes y a).takeWhile fun x => x = 0).length], {})

/-- One level of a reduction tree: adjacent lanes pairwise. -/
def pairUp (f : Nat → Nat → Nat × FFlags) : List Nat → FFlags → List Nat × FFlags
  | a :: b :: t, fl =>
    let (x, f1) := f a b
    let (l, f2) := pairUp f t (fl.or f1)
    (x :: l, f2)
  | l, fl => (l, fl)

/-- The levels of a reduction tree (R107). -/
def reduceTree (f : Nat → Nat → Nat × FFlags) : Nat → List Nat → FFlags → List Nat × FFlags
  | 0, l, fl => (l, fl)
  | n + 1, l, fl =>
    let (l, fl) := pairUp f l fl
    reduceTree f n l fl

/-- `vredsum` (R107). -/
def vredsum (y : Ty) (rm : Rm) (a : Quad) : VRes :=
  let (l, fl) := reduceTree (arith y rm (· + ·) fadd) (Nat.log2 y.lanes) (lanes y a) {}
  (ofLanes y.width (l.take 1), fl)

/-- `vredmax` and `vredmin` (R107). -/
def vredpick (y : Ty) (larger : Bool) (a : Quad) : VRes :=
  let l := lanes y a
  (ofLanes y.width [l.tail.foldl (pickLane y larger) (l.headD 0)], {})

/-- Puts a lane with its key in front of the first whose key does not come before it. -/
def sortIn (desc : Bool) (x : Int × Nat × Nat) : List (Int × Nat × Nat) → List (Int × Nat × Nat)
  | [] => [x]
  | z :: t => if (if desc then z.1 ≤ x.1 else x.1 ≤ z.1) then x :: z :: t else z :: sortIn desc x t

/-- Lanes as key, index and bits in key order, equal keys in source order (R108). -/
def sortLanes (y : Ty) (desc : Bool) (l : List Nat) : List (Int × Nat × Nat) :=
  (indexed 0 l).foldr (fun x acc => sortIn desc (laneKey y x.2, x.1, x.2) acc) []

/-- `vsort` (R108). -/
def vsort (y : Ty) (m : BitVec 2) (a : Quad) : VRes :=
  (ofLanes y.width ((sortLanes y (m.getLsbD 0) (lanes y a)).map fun x => if m.getLsbD 1 then x.2.1 else x.2.2), {})

/-- `vmerge` (R108). -/
def vmerge (y : Ty) (h : BitVec 1) (a b : Quad) : VRes :=
  let l := (sortLanes y false (lanes y a ++ lanes y b)).map fun x => x.2.2
  (ofLanes y.width (if h = 0 then l.take y.lanes else l.drop y.lanes), {})

/-- `vsrch` (R108). -/
def vsrch (y : Ty) (m : BitVec 1) (a b : Quad) : VRes :=
  (ofLanes y.width ((lanes y b).map fun k =>
    ((lanes y a).filter fun x =>
      if m = 0 then laneKey y x < laneKey y k else laneKey y x ≤ laneKey y k).length), {})

/-! ### SUBNORMAL (R48) -/

/-- The subnormal lanes among the first `n` of an operand, as a mask. -/
def subLanes (y : Ty) (n : Nat) (q : Quad) : Nat :=
  if y.isTrapFlt then
    ((List.range n).map fun i => if (fmtOf y).isSub (lane q y.width i) then 2 ^ i else 0).sum
  else 0

/-- The operands whose lanes a form interprets: which field (0 VA, 1 VB, 2 VC), type, lanes, value (R48, R103, R104). -/
def interpreted (i : Instr) (t : Strand) : List (Nat × Ty × Nat × Quad) :=
  let op := fun (k : Nat) (y : Ty) (r : VReg) => (k, y, y.lanes, t.v r)
  match i with
  | .vadd _ a b y | .vsub _ a b y | .vmul _ a b y | .vmin _ a b y | .vmax _ a b y | .vcmpeq _ a b y
  | .vcmplt _ a b y | .vcmple _ a b y | .vdiv _ a b y | .vmerge _ a b _ y | .vsrch _ a b _ y => [op 0 y a, op 1 y b]
  | .vfma _ a b c y => [op 0 y a, op 1 y b, op 2 y c]
  | .vdot _ a b c y => if y.isFlt then [op 0 y a, op 1 y b, op 2 .f32 c] else []
  | .vcvt _ a st _ dt => [(0, st, cvtCount st dt, t.v a)]
  | .vrcp _ a y | .vrsqrt _ a y | .vsqrt _ a y | .vexp2 _ a y | .vlog2 _ a y | .vtanh _ a y | .vsigm _ a y
  | .vredsum _ a y | .vredmax _ a y | .vredmin _ a y | .vsort _ a _ y => [op 0 y a]
  | _ => []

/-- TVAL of SUBNORMAL (R48); 0 where no lane is subnormal. -/
def subnormalVal (i : Instr) (t : Strand) : Nat :=
  let ms := (interpreted i t).map fun x => (x.1, subLanes x.2.1 x.2.2.1 x.2.2.2)
  (ms.foldl (fun a x => a ||| x.2 ||| (if x.2 = 0 then 0 else 2 ^ (16 + x.1))) 0)

/-! ### The instructions -/

/-- The result of a vector instruction that writes vD, from the registers it reads, FRM and the captured scalar. -/
def vecResult (i : Instr) (t : Strand) (scal : Word) : Option (VReg × VRes) :=
  let rm := Rm.ofFrm t.frm
  match i with
  | .vadd d a b y => some (d, map2 y (arith y rm (· + ·) fadd) (t.v a) (t.v b))
  | .vsub d a b y => some (d, map2 y (arith y rm (· - ·) (fun rm a b => fadd rm a b.negate)) (t.v a) (t.v b))
  | .vmul d a b y => some (d, map2 y (arith y rm (· * ·) (fun _ => fmul)) (t.v a) (t.v b))
  | .vfma d a b c y => some (d, map3 y (fmaLane y rm) (t.v a) (t.v b) (t.v c))
  | .vmin d a b y => some (d, map2 y (fun a b => plain (pickLane y false a b)) (t.v a) (t.v b))
  | .vmax d a b y => some (d, map2 y (fun a b => plain (pickLane y true a b)) (t.v a) (t.v b))
  | .vabs d a y => some (d, map1 y (fun a => plain (absLane y a)) (t.v a))
  | .vneg d a y => some (d, map1 y (fun a => plain (negLane y a)) (t.v a))
  | .vand d a b _ => some (d, t.v a &&& t.v b, {})
  | .vor d a b _ => some (d, t.v a ||| t.v b, {})
  | .vxor d a b _ => some (d, t.v a ^^^ t.v b, {})
  | .vshl d a b y => some (d, map2 y (fun a b => plain (a * 2 ^ shiftOf y b)) (t.v a) (t.v b))
  | .vshr d a b y => some (d, map2 y (fun a b => plain (shrLane y a b)) (t.v a) (t.v b))
  | .vcmpeq d a b y => some (d, map2 y (compare y true fun c => c = 0) (t.v a) (t.v b))
  | .vcmplt d a b y => some (d, map2 y (compare y false fun c => decide (c < 0)) (t.v a) (t.v b))
  | .vcmple d a b y => some (d, map2 y (compare y false fun c => decide (c ≤ 0)) (t.v a) (t.v b))
  | .vsel d a b c y => some (d, map3 y (fun a b c => plain (if c = 0 then b else a)) (t.v a) (t.v b) (t.v c))
  | .vdot d a b c y => some (d, vdot y rm (t.v a) (t.v b) (t.v c))
  | .vaddsat d a b y => some (d, map2 y (fun a b => plain (intSat y (intValue y a + intValue y b))) (t.v a) (t.v b))
  | .vsubsat d a b y => some (d, map2 y (fun a b => plain (intSat y (intValue y a - intValue y b))) (t.v a) (t.v b))
  | .vmulh d a b y =>
    some (d, map2 y (fun a b => plain (intWrap y (intValue y a * intValue y b / 2 ^ y.width))) (t.v a) (t.v b))
  | .vcvt d a st c dt => some (d, vcvt st dt t.frm c (t.v a))
  | .vrcp d a y => some (d, map1 y (special .rcp (fmtOf y) rm) (t.v a))
  | .vrsqrt d a y => some (d, map1 y (special .rsqrt (fmtOf y) rm) (t.v a))
  | .vsqrt d a y => some (d, map1 y (special .sqrt (fmtOf y) rm) (t.v a))
  | .vdiv d a b y => some (d, map2 y (divLane y rm) (t.v a) (t.v b))
  | .vexp2 d a y => some (d, map1 y (special .exp2 (fmtOf y) rm) (t.v a))
  | .vlog2 d a y => some (d, map1 y (special .log2 (fmtOf y) rm) (t.v a))
  | .vtanh d a y => some (d, map1 y (special .tanh (fmtOf y) rm) (t.v a))
  | .vsigm d a y => some (d, map1 y (special .sigm (fmtOf y) rm) (t.v a))
  | .vbcast d _ y => some (d, ofLanes y.width (List.replicate y.lanes (scal.toNat % 2 ^ y.width)), {})
  | .vins d _ l y =>
    some (d, ofLanes y.width ((lanes y (t.v d)).set l.toNat (scal.toNat % 2 ^ y.width)), {})
  | .vshuf d a b y => some (d, vshuf y (t.v a) (t.v b))
  | .vzip d a b h y => some (d, vzip y h.toNat (t.v a) (t.v b))
  | .vunzip d a b o y => some (d, vunzip y o.toNat (t.v a) (t.v b))
  | .vredsum d a y => some (d, vredsum y rm (t.v a))
  | .vredmax d a y => some (d, vredpick y true (t.v a))
  | .vredmin d a y => some (d, vredpick y false (t.v a))
  | .vsort d a m y => some (d, vsort y m (t.v a))
  | .vmerge d a b h y => some (d, vmerge y h (t.v a) (t.v b))
  | .vsrch d a b m y => some (d, vsrch y m (t.v a) (t.v b))
  | .vcompress d a b y => some (d, vcompress y (t.v a) (t.v b))
  | .vexpand d a b y => some (d, vexpand y (t.v a) (t.v b))
  | .vpopc d a y => some (d, vpopc y (t.v a))
  | .vfirst d a y => some (d, vfirst y (t.v a))
  | _ => none

/-- Lane `l` of a register as a g value: sign-extended for s types (R106). -/
def vextVal (y : Ty) (q : Quad) (l : Nat) : Word := BitVec.ofInt 64 (if y.isSint then intValue y (lane q y.width l)
  else lane q y.width l)

end Sys2Proof.Machine
end

