-- ==== Sys2Proof/Machine/Vector.lean ====
section
/-! DEFINITION. The vector instructions at issue (R92): each takes a place in the sequencer, which performs it
(VSEQ_ENTRY_PERFORM) as `vecResult` has it. -/

namespace Sys2Proof.Machine

/-- Puts an entry into the strand's sequencer, and the strand goes on (R92). -/
def State.seqPush (s : State) (t : Strand) (e : SeqEntry) : State :=
  s.setStrand s.cur { t.advance with seq := t.seq ++ [.one e] }

/-- The issue of a vector instruction whose operands are v registers (R92). -/
def vecIssue (i : Instr) (s : State) : Host.Outcome State Fault Refusal :=
  issue i s fun s1 t _ => s1.seqPush t { instr := i, pc := t.pc }

/-- `vadd`: R102. Adds vector lanes. It is performed by the sequencer as `vecResult` has it. -/
def execVadd (d : VReg) (a : VReg) (b : VReg) (y : Ty) (s : State) : Host.Outcome State Fault Refusal :=
  vecIssue (.vadd d a b y) s

/-- `vsub`: R102. Subtracts vector lanes. It is performed by the sequencer as `vecResult` has it. -/
def execVsub (d : VReg) (a : VReg) (b : VReg) (y : Ty) (s : State) : Host.Outcome State Fault Refusal :=
  vecIssue (.vsub d a b y) s

/-- `vmul`: R102. Multiplies vector lanes. It is performed by the sequencer as `vecResult` has it. -/
def execVmul (d : VReg) (a : VReg) (b : VReg) (y : Ty) (s : State) : Host.Outcome State Fault Refusal :=
  vecIssue (.vmul d a b y) s

/-- `vfma`: R102. Fused multiply-add of vector lanes with one rounding. It is performed by the sequencer as `vecResult` has it. -/
def execVfma (d : VReg) (a : VReg) (b : VReg) (c : VReg) (y : Ty) (s : State) : Host.Outcome State Fault Refusal :=
  vecIssue (.vfma d a b c y) s

/-- `vmin`: R103. Takes the lane-wise minimum. It is performed by the sequencer as `vecResult` has it. -/
def execVmin (d : VReg) (a : VReg) (b : VReg) (y : Ty) (s : State) : Host.Outcome State Fault Refusal :=
  vecIssue (.vmin d a b y) s

/-- `vmax`: R103. Takes the lane-wise maximum. It is performed by the sequencer as `vecResult` has it. -/
def execVmax (d : VReg) (a : VReg) (b : VReg) (y : Ty) (s : State) : Host.Outcome State Fault Refusal :=
  vecIssue (.vmax d a b y) s

/-- `vabs`: R102. Takes the absolute value of each lane. It is performed by the sequencer as `vecResult` has it. -/
def execVabs (d : VReg) (a : VReg) (y : Ty) (s : State) : Host.Outcome State Fault Refusal :=
  vecIssue (.vabs d a y) s

/-- `vneg`: R102. Negates each lane. It is performed by the sequencer as `vecResult` has it. -/
def execVneg (d : VReg) (a : VReg) (y : Ty) (s : State) : Host.Outcome State Fault Refusal :=
  vecIssue (.vneg d a y) s

/-- `vand`: R102. Bitwise AND of integer lanes. It is performed by the sequencer as `vecResult` has it. -/
def execVand (d : VReg) (a : VReg) (b : VReg) (y : Ty) (s : State) : Host.Outcome State Fault Refusal :=
  vecIssue (.vand d a b y) s

/-- `vor`: R102. Bitwise OR of integer lanes. It is performed by the sequencer as `vecResult` has it. -/
def execVor (d : VReg) (a : VReg) (b : VReg) (y : Ty) (s : State) : Host.Outcome State Fault Refusal :=
  vecIssue (.vor d a b y) s

/-- `vxor`: R102. Bitwise XOR of integer lanes. It is performed by the sequencer as `vecResult` has it. -/
def execVxor (d : VReg) (a : VReg) (b : VReg) (y : Ty) (s : State) : Host.Outcome State Fault Refusal :=
  vecIssue (.vxor d a b y) s

/-- `vshl`: R102. Shifts integer lanes left. It is performed by the sequencer as `vecResult` has it. -/
def execVshl (d : VReg) (a : VReg) (b : VReg) (y : Ty) (s : State) : Host.Outcome State Fault Refusal :=
  vecIssue (.vshl d a b y) s

/-- `vshr`: R102. Shifts integer lanes right. It is performed by the sequencer as `vecResult` has it. -/
def execVshr (d : VReg) (a : VReg) (b : VReg) (y : Ty) (s : State) : Host.Outcome State Fault Refusal :=
  vecIssue (.vshr d a b y) s

/-- `vcmpeq`: R103. Compares lanes for equality, giving all-ones masks. It is performed by the sequencer as `vecResult` has it. -/
def execVcmpeq (d : VReg) (a : VReg) (b : VReg) (y : Ty) (s : State) : Host.Outcome State Fault Refusal :=
  vecIssue (.vcmpeq d a b y) s

/-- `vcmplt`: R103. Compares lanes for less-than, giving all-ones masks. It is performed by the sequencer as `vecResult` has it. -/
def execVcmplt (d : VReg) (a : VReg) (b : VReg) (y : Ty) (s : State) : Host.Outcome State Fault Refusal :=
  vecIssue (.vcmplt d a b y) s

/-- `vcmple`: R103. Compares lanes for less-or-equal, giving all-ones masks. It is performed by the sequencer as `vecResult` has
it. -/
def execVcmple (d : VReg) (a : VReg) (b : VReg) (y : Ty) (s : State) : Host.Outcome State Fault Refusal :=
  vecIssue (.vcmple d a b y) s

/-- `vsel`: R102. Selects lanes of vA or vB by the mask in vC. It is performed by the sequencer as `vecResult` has it. -/
def execVsel (d : VReg) (a : VReg) (b : VReg) (c : VReg) (y : Ty) (s : State) : Host.Outcome State Fault Refusal :=
  vecIssue (.vsel d a b c y) s

/-- `vdot`: R103. Accumulates short dot products of vA and vB into 32-bit lanes of vC. It is performed by the sequencer as
`vecResult` has it. -/
def execVdot (d : VReg) (a : VReg) (b : VReg) (c : VReg) (y : Ty) (s : State) : Host.Outcome State Fault Refusal :=
  vecIssue (.vdot d a b c y) s

/-- `vaddsat`: R102. Saturating addition of integer lanes. It is performed by the sequencer as `vecResult` has it. -/
def execVaddsat (d : VReg) (a : VReg) (b : VReg) (y : Ty) (s : State) : Host.Outcome State Fault Refusal :=
  vecIssue (.vaddsat d a b y) s

/-- `vsubsat`: R102. Saturating subtraction of integer lanes. It is performed by the sequencer as `vecResult` has it. -/
def execVsubsat (d : VReg) (a : VReg) (b : VReg) (y : Ty) (s : State) : Host.Outcome State Fault Refusal :=
  vecIssue (.vsubsat d a b y) s

/-- `vmulh`: R102. High half of the double-width product of integer lanes. It is performed by the sequencer as `vecResult` has it. -/
def execVmulh (d : VReg) (a : VReg) (b : VReg) (y : Ty) (s : State) : Host.Outcome State Fault Refusal :=
  vecIssue (.vmulh d a b y) s

/-- `vcvt`: R104. Converts lanes from type st to type dt with chosen rounding and saturation. It is performed by the sequencer
as `vecResult` has it. -/
def execVcvt (d : VReg) (a : VReg) (s0 : Ty) (c : BitVec 3) (y : Ty) (s : State) : Host.Outcome State Fault Refusal :=
  vecIssue (.vcvt d a s0 c y) s

/-- `vrcp`: R105. Correctly rounded reciprocal of each lane. It is performed by the sequencer as `vecResult` has it. -/
def execVrcp (d : VReg) (a : VReg) (y : Ty) (s : State) : Host.Outcome State Fault Refusal :=
  vecIssue (.vrcp d a y) s

/-- `vrsqrt`: R105. Correctly rounded reciprocal square root of each lane. It is performed by the sequencer as `vecResult` has it. -/
def execVrsqrt (d : VReg) (a : VReg) (y : Ty) (s : State) : Host.Outcome State Fault Refusal :=
  vecIssue (.vrsqrt d a y) s

/-- `vsqrt`: R105. Correctly rounded square root of each lane. It is performed by the sequencer as `vecResult` has it. -/
def execVsqrt (d : VReg) (a : VReg) (y : Ty) (s : State) : Host.Outcome State Fault Refusal :=
  vecIssue (.vsqrt d a y) s

/-- `vdiv`: R105. Lane-wise division of vA by vB. It is performed by the sequencer as `vecResult` has it. -/
def execVdiv (d : VReg) (a : VReg) (b : VReg) (y : Ty) (s : State) : Host.Outcome State Fault Refusal :=
  vecIssue (.vdiv d a b y) s

/-- `vexp2`: R105. Correctly rounded 2 to the power of each lane. It is performed by the sequencer as `vecResult` has it. -/
def execVexp2 (d : VReg) (a : VReg) (y : Ty) (s : State) : Host.Outcome State Fault Refusal :=
  vecIssue (.vexp2 d a y) s

/-- `vlog2`: R105. Correctly rounded base-2 logarithm of each lane. It is performed by the sequencer as `vecResult` has it. -/
def execVlog2 (d : VReg) (a : VReg) (y : Ty) (s : State) : Host.Outcome State Fault Refusal :=
  vecIssue (.vlog2 d a y) s

/-- `vtanh`: R105. Correctly rounded hyperbolic tangent of each lane. It is performed by the sequencer as `vecResult` has it. -/
def execVtanh (d : VReg) (a : VReg) (y : Ty) (s : State) : Host.Outcome State Fault Refusal :=
  vecIssue (.vtanh d a y) s

/-- `vsigm`: R105. Correctly rounded logistic sigmoid of each lane. It is performed by the sequencer as `vecResult` has it. -/
def execVsigm (d : VReg) (a : VReg) (y : Ty) (s : State) : Host.Outcome State Fault Refusal :=
  vecIssue (.vsigm d a y) s

/-- `vshuf`: R106. Gathers lanes of vA by the indices in vB. It is performed by the sequencer as `vecResult` has it. -/
def execVshuf (d : VReg) (a : VReg) (b : VReg) (y : Ty) (s : State) : Host.Outcome State Fault Refusal :=
  vecIssue (.vshuf d a b y) s

/-- `vzip`: R106. Interleaves one half of vA and vB. It is performed by the sequencer as `vecResult` has it. -/
def execVzip (d : VReg) (a : VReg) (b : VReg) (h : BitVec 1) (y : Ty) (s : State) : Host.Outcome State Fault Refusal :=
  vecIssue (.vzip d a b h y) s

/-- `vunzip`: R106. De-interleaves even or odd lanes of vA and vB. It is performed by the sequencer as `vecResult` has it. -/
def execVunzip (d : VReg) (a : VReg) (b : VReg) (o : BitVec 1) (y : Ty) (s : State) : Host.Outcome State Fault Refusal :=
  vecIssue (.vunzip d a b o y) s

/-- `vredsum`: R107. Sums the lanes in a fixed pairwise tree into lane 0. It is performed by the sequencer as `vecResult` has it. -/
def execVredsum (d : VReg) (a : VReg) (y : Ty) (s : State) : Host.Outcome State Fault Refusal :=
  vecIssue (.vredsum d a y) s

/-- `vredmax`: R107. Places the largest lane in lane 0. It is performed by the sequencer as `vecResult` has it. -/
def execVredmax (d : VReg) (a : VReg) (y : Ty) (s : State) : Host.Outcome State Fault Refusal :=
  vecIssue (.vredmax d a y) s

/-- `vredmin`: R107. Places the smallest lane in lane 0. It is performed by the sequencer as `vecResult` has it. -/
def execVredmin (d : VReg) (a : VReg) (y : Ty) (s : State) : Host.Outcome State Fault Refusal :=
  vecIssue (.vredmin d a y) s

/-- `vsort`: R108. Sorts lanes by key, or gives the sorting permutation. It is performed by the sequencer as `vecResult` has it. -/
def execVsort (d : VReg) (a : VReg) (m : BitVec 2) (y : Ty) (s : State) : Host.Outcome State Fault Refusal :=
  vecIssue (.vsort d a m y) s

/-- `vmerge`: R108. Keeps the n smallest or largest lanes of vA and vB in order. It is performed by the sequencer as `vecResult`
has it. -/
def execVmerge (d : VReg) (a : VReg) (b : VReg) (h : BitVec 1) (y : Ty) (s : State) : Host.Outcome State Fault Refusal :=
  vecIssue (.vmerge d a b h y) s

/-- `vsrch`: R108. Counts lanes of vA below or at each key of vB. It is performed by the sequencer as `vecResult` has it. -/
def execVsrch (d : VReg) (a : VReg) (b : VReg) (m : BitVec 1) (y : Ty) (s : State) : Host.Outcome State Fault Refusal :=
  vecIssue (.vsrch d a b m y) s

/-- `vcompress`: R106. Packs the lanes of vA selected by vB into low lanes. It is performed by the sequencer as `vecResult` has
it. -/
def execVcompress (d : VReg) (a : VReg) (b : VReg) (y : Ty) (s : State) : Host.Outcome State Fault Refusal :=
  vecIssue (.vcompress d a b y) s

/-- `vexpand`: R106. Spreads low lanes of vA to the lanes selected by vB. It is performed by the sequencer as `vecResult` has it. -/
def execVexpand (d : VReg) (a : VReg) (b : VReg) (y : Ty) (s : State) : Host.Outcome State Fault Refusal :=
  vecIssue (.vexpand d a b y) s

/-- `vpopc`: R106. Counts the nonzero lanes into lane 0. It is performed by the sequencer as `vecResult` has it. -/
def execVpopc (d : VReg) (a : VReg) (y : Ty) (s : State) : Host.Outcome State Fault Refusal :=
  vecIssue (.vpopc d a y) s

/-- `vfirst`: R106. Gives the index of the first nonzero lane in lane 0. It is performed by the sequencer as `vecResult` has it. -/
def execVfirst (d : VReg) (a : VReg) (y : Ty) (s : State) : Host.Outcome State Fault Refusal :=
  vecIssue (.vfirst d a y) s

/-- `vbcast` (R106): g(A) is captured at issue. -/
def execVbcast (d : VReg) (g : SReg) (y : Ty) (s : State) : Host.Outcome State Fault Refusal :=
  issue (.vbcast d g y) s fun s1 t rd =>
    s1.seqPush t { instr := .vbcast d g y, pc := t.pc, scal := rd (g.setWidth 5) }

/-- `vins` (R106): g(A) is captured at issue. -/
def execVins (d : VReg) (g : SReg) (l : BitVec 4) (y : Ty) (s : State) : Host.Outcome State Fault Refusal :=
  issue (.vins d g l y) s fun s1 t rd =>
    s1.seqPush t { instr := .vins d g l y, pc := t.pc, scal := rd (g.setWidth 5) }

/-- `vext` (R106, R95): gD is pending until the sequencer performs it. -/
def execVext (g : SReg) (a : VReg) (l : BitVec 4) (y : Ty) (s : State) : Host.Outcome State Fault Refusal :=
  issue (.vext g a l y) s fun s1 t _ =>
    let (s2, t, dest) := s1.lateDest t (g.setWidth 5)
    s2.seqPush t { instr := .vext g a l y, pc := t.pc, dest }

end Sys2Proof.Machine
end

