-- ==== Sys2Proof/Machine/Sequencer.lean ====
section
/-! DEFINITION. The vector sequencer (R92 to R100): loops, `ldv`, `stv` and `ksend`, the performance of its entries, and
the accumulation of keyed sends (R109 to R113). -/

namespace Sys2Proof.Machine

/-! ### Keyed sends (R109 to R111) -/

/-- BASE of KBINS (R110). -/
def kBase (k : Word) : Nat := bits k 3 15
/-- NBIN of KBINS (R110). -/
def kNbin (k : Word) : Nat := bits k 32 15

/-- The check of `ksend` at issue (R111). -/
def ksendCheck (s : State) (t : Strand) : Option (Cause × Word) :=
  let g := s.group t.group
  let lo := 0x8000 * g.bank0
  let hi := lo + 0x8000 * g.nbank
  let b := kBase t.kbins
  let n := kNbin t.kbins
  if t.kbins.getLsbD 63 = false ∨ n = 0 ∨ 8 * b < lo ∨ 8 * (b + n) > hi then some (.space, BitVec.ofNat 64 (8 * b))
  else none

/-- The core of rectangle index `c` for a strand: the partner's half holds the strand's own copy in paired mode (R18,
R323). -/
def State.rectCore (s : State) (t : Strand) (c : Nat) : Nat :=
  let g := s.group t.group
  g.core0 + c % g.w + 16 * (c / g.w) + (if t.pair && decide (8 ≤ t.core % 16) then 8 else 0)

/-- The lanes that a `ksend` sends, in lane order: the bin's key and the value (R111). -/
def ksendLanes (s : State) (t : Strand) (a b : Quad) : List (Nat × BitVec 32) :=
  let g := s.group t.group
  (List.range 4).filterMap fun i =>
    let k := lane a 32 i
    if k = 0xFFFFFFFF then none
    else
      let h := (k * bits t.khash 32 32) % 2 ^ 32 / 2 ^ bits t.khash 16 5
      let n := g.w * g.h
      some (scratchKey (s.rectCore t (h % n)) (8 * (kBase t.kbins + (h / n) % kNbin t.kbins)), BitVec.ofNat 32 (lane b 32 i))

/-- The new bin word (R112). -/
def binAdd (flt : Bool) (w : Word) (v : BitVec 32) : Word :=
  let old : BitVec 32 := w.setWidth 32
  if flt then (w &&& 0xFFFFFFFF00000000) ||| (addF32 old v).setWidth 64
  else
    let x := old.toInt + v.toInt
    let y := if x > 2 ^ 31 - 1 then 2 ^ 31 - 1 else if x < -2 ^ 31 then -2 ^ 31 else x
    (w &&& 0xFFFFFFFF00000000) ||| (BitVec.ofInt 32 y).setWidth 64 ||| (if x = y then 0 else 0x100000000)

/-- The counter an entry counts on (R95). -/
def SeqEntry.ctr? (e : SeqEntry) : Option Ctr :=
  match e.instr with
  | .ldv .. => some .ld
  | .stv .. | .ksend .. => some .st
  | _ => none

/-- The numbers that an item of the sequencer counts under. -/
def SeqItem.sns : SeqItem → List Nat
  | .one e => [e.sn]
  | .loop _ _ _ _ _ _ a b => a.toList ++ b.toList

/-- Whether an entry after position `pos`, or in a later repetition, is an access of a class (R95). -/
def moreOf (body : List SeqEntry) (pos : Nat) (lastRep : Bool) (c : Ctr) : Bool :=
  (!lastRep && body.any fun e => e.ctr? = some c) || (body.drop (pos + 1)).any fun e => e.ctr? = some c

/-- What waits for operation `n` waits for operation `m`, too: fences and arrivals (R95, R141, R164). -/
def Strand.alsoWait (t : Strand) (n m : Nat) : Strand :=
  let f := fun (l : List Nat) => if l.contains n then l ++ [m] else l
  { t with fences := t.fences.map fun x => { x with wait := f x.wait }
           arrivals := t.arrivals.map fun x => { x with after := f x.after } }

/-- The sequencer has taken an access of a loop that counts as `sn` (R95): the further count `n` of its class ends with the
last access of the class. -/
def Strand.takeAccess (t : Strand) (more : Bool) (n sn : Nat) : Strand :=
  let t := t.alsoWait n sn
  if more then t else t.uncount n

/-- The head of the sequencer with the further counts that its loop still holds, once the access `e` is taken as `sn` (R95). -/
def Strand.takeHead (t : Strand) (e : SeqEntry) (sn : Nat) : Strand :=
  match t.seq, e.ctr? with
  | .loop body cnt str rep pos pc a b :: rest, some c =>
    let more := moreOf body pos (decide (rep + 1 = cnt)) c
    match c, a, b with
    | .ld, some n, _ => { t.takeAccess more n sn with seq := .loop body cnt str rep pos pc (if more then a else none) b :: rest }
    | .st, _, some n => { t.takeAccess more n sn with seq := .loop body cnt str rep pos pc a (if more then b else none) :: rest }
    | _, _, _ => t
  | _, _ => t

/-- The head entry of the sequencer has been performed (R92, R94): it leaves, or its loop goes on at the next position.
REP takes the repetition performed, also where a later loop of count 0 has set it to 0 (R100; log entry 64). -/
def Strand.seqNext (t : Strand) : Strand :=
  match t.seq with
  | .loop body cnt str rep pos pc a b :: rest =>
    let vrep : BitVec 32 := rep.setWidth 32
    if pos + 1 < body.length then { t with seq := .loop body cnt str rep (pos + 1) pc a b :: rest, vrep, taken := none }
    else if rep + 1 = cnt then { t with seq := rest, vrep, taken := none }
    else { t with seq := .loop body cnt str (rep + 1) 0 pc a b :: rest, vrep, taken := none }
  | _ => { t with seq := t.seq.tail, taken := none }

/-- The last lane of a `ksend` is performed (R113): its operation ends, and the entry leaves the sequencer. -/
def State.ksendDone (s : State) (sid : Nat) (o : CoreOp) : State :=
  (s.opDone sid o).modStrand sid fun t => if t.taken = some o.sn then t.seqNext else t

/-- A lane of a `ksend` reaches its bin (R112, R113): the oldest operation of strand `ua`. At a sealed core it is discarded and
counted (R318, R326); a poisoned word of a bin is consumed, which seals the strand's core and the bin's, and is not added to
(R314, R317; log entry 70). -/
def execKsendLaneAccumulate (s : State) : Host.Outcome State Fault Refusal :=
  match s.strand? s.ua with
  | none => .next s
  | some t =>
    match t.ops with
    | [] => .next s
    | o :: _ =>
      match o.kind with
      | .lane key flt v last =>
        if t.opFault.isSome then .next s
        else if (s.sealedAt (.phys key)).isNone && s.poisoned key 8 then
          .next ((if last then s.ksendDone s.ua o else s.popOp s.ua).consume t.core key)
        else
          let s1 := s.storeAt key (wordBytes (binAdd flt (BitVec.ofNat 64 (s.readNat key 8)) v))
          .next (if last then s1.ksendDone s.ua o else s1.popOp s.ua)
      | _ => .next s

/-! ### Entries at issue -/

/-- `ldv` (R119, R92). -/
def execLdv (t : VReg) (h : HReg) (x : GReg) (k : BitVec 2) (o : BitVec 9) (s : State) :
    Host.Outcome State Fault Refusal :=
  issue (.ldv t h x k o) s fun s1 u rd =>
    let r := u.regionAt h.toNat
    let off := mOffset (rd x) o 16
    match accessCheck r h.toNat off 16 rR .vec with
    | some (c, v) => s.trap s.cur u c v
    | none =>
      let (sn, s2) := s1.fresh
      s2.seqPush (u.countOn sn [.ld]) { instr := .ldv t h x k o, pc := u.pc, region := r, off, sn }

/-- `stv` (R119, R92). -/
def execStv (t : VReg) (h : HReg) (x : GReg) (k : BitVec 2) (o : BitVec 9) (s : State) :
    Host.Outcome State Fault Refusal :=
  issue (.stv t h x k o) s fun s1 u rd =>
    let r := u.regionAt h.toNat
    let off := mOffset (rd x) o 16
    match accessCheck r h.toNat off 16 rW .vec with
    | some (c, v) => s.trap s.cur u c v
    | none =>
      let (sn, s2) := s1.fresh
      s2.seqPush (u.countOn sn [.st]) { instr := .stv t h x k o, pc := u.pc, region := r, off, sn }

/-- `ksend` (R111). -/
def execKsend (a b : VReg) (y : Ty) (s : State) : Host.Outcome State Fault Refusal :=
  issue (.ksend a b y) s fun s1 t _ =>
    match ksendCheck s1 t with
    | some (c, v) => s.trap s.cur t c v
    | none =>
      let (sn, s2) := s1.fresh
      s2.seqPush (t.countOn sn [.st]) { instr := .ksend a b y, pc := t.pc, sn }

/-! ### Loops (R93, R94) -/

/-- A word that may stand in a loop body (R93). -/
def bodyOk (i : Instr) : Bool :=
  match i with
  | .vext .. => false
  | _ => isVector i

/-- What the fetch of a body gives (R93): its words with their addresses, or what goes wrong. -/
inductive Body where
  | words (l : List (BitVec 32 × Word)) (s : State)
  | bound (v : Word)
  | xfault (pc : Word) (cause : Nat)
  | poisoned (key : Nat)
  | away

/-- Fetches `n` body words from an address (R93). -/
def State.fetchBody (s : State) (t : Strand) (pc : Word) : Nat → Body
  | 0 => .words [] s
  | n + 1 =>
    match s.fetchAt t pc with
    | .bound v => .bound v
    | .xfault c => .xfault pc c
    | .poisoned k => .poisoned k
    | .away => .away
    | .word w s =>
      match State.fetchBody s t (pc + 4) n with
      | .words l s => .words ((w, pc) :: l) s
      | e => e

/-- The instruction of a body word, if the word is legal and allowed there (R93). -/
def bodyInstr? (w : BitVec 32) : Option Instr :=
  match decode w with
  | .ok i => if i.wf && bodyOk i then some i else none
  | .error _ => none

/-- The entry of a body word: its captured operands (R94). -/
def bodyEntry (t : Strand) (rd : GReg → Word) (i : Instr) (pc : Word) : SeqEntry :=
  match i with
  | .vbcast _ g _ | .vins _ g _ _ => { instr := i, pc, scal := rd (g.setWidth 5) }
  | .ldv _ h x _ o | .stv _ h x _ o => { instr := i, pc, region := t.regionAt h.toNat, off := mOffset (rd x) o 16 }
  | _ => { instr := i, pc }

/-- The access check of an entry at an offset (R94, R111). -/
def SeqEntry.check (e : SeqEntry) (s : State) (t : Strand) (off : Word) : Option (Cause × Word) :=
  match e.instr with
  | .ldv _ h _ _ _ => accessCheck e.region h.toNat off 16 rR .vec
  | .stv _ h _ _ _ => accessCheck e.region h.toNat off 16 rW .vec
  | .ksend .. => ksendCheck s t
  | _ => none

/-- The offset of an entry in repetition `j` (R94). -/
def SeqEntry.offAt (e : SeqEntry) (str : Word) (j : Nat) : Word := e.off + str * BitVec.ofNat 64 j

/-- The first repetition in which the check of an entry can fail: 0 if it fails there; otherwise the offset moves by the
stride, whole and aligned, until it leaves the region below 0 or above its bound; with stride 0 it never fails. -/
def SeqEntry.firstBad (e : SeqEntry) (s : State) (t : Strand) (str : Word) : Option Nat :=
  if (e.check s t e.off).isSome then some 0
  else
    match e.instr with
    | .ldv .. | .stv .. =>
      if str = 0 then none
      else if bits str 0 4 ≠ 0 then some 1
      else if str.getLsbD 63 then some (e.off.toNat / (2 ^ 64 - str.toNat) + 1)
      else some ((e.region.bound - 16 - e.off.toNat) / str.toNat + 1)
    | _ => none

/-- The first failing check of a loop in repetition-then-position order (R94). -/
def firstFailure (s : State) (t : Strand) (body : List SeqEntry) (cnt str : Word) : Option (Cause × Word) :=
  let bad := body.filterMap fun e =>
    match e.firstBad s t str with
    | some j => if j < cnt.toNat then some (j, e) else none
    | none => none
  let best := bad.foldl (fun (b : Option (Nat × SeqEntry)) x =>
    match b with
    | none => some x
    | some y => if x.1 < y.1 then some x else some y) none
  match best with
  | none => none
  | some (j, e) => e.check s t (e.offAt str j)

/-- The classes of a body (R138). -/
def bodyClasses (b : List SeqEntry) : List Ctr := (b.filterMap SeqEntry.ctr?).eraseDups

/-- The count of a `vbegin` before it is performed (R94): the register, or the value that its port gives first. -/
def State.loopCount (s : State) (t : Strand) (a : GReg) : Word :=
  match t.bound? a with
  | none => t.g a
  | some p =>
    match (s.port t p).vals with
    | ⟨some v, _⟩ :: _ => v
    | _ => 0

/-- The instructions of the loop body of a `vbegin` of `l` words that will be performed (R93, R94): none where the count is 0,
or where a word may not stand there. -/
def State.loopBody (s : State) (a : GReg) (l : BitVec 4) : List Instr :=
  match s.strand? s.cur with
  | some t =>
    match s.fetchBody t (t.pc + 4) l.toNat with
    | .words ws _ =>
      if s.loopCount t a = 0 || ws.any fun w => (bodyInstr? w.1).isNone then [] else ws.filterMap fun w => bodyInstr? w.1
    | _ => []
  | none => []

/-- The registers that the words of a loop body read (R94). -/
def State.bodyReads (s : State) (a : GReg) (l : BitVec 4) : List GReg := ((s.loopBody a l).map readsOf).flatten

/-- An access that a loop body may hold (R95). -/
def bodyAccess (i : Instr) : Bool :=
  match i with
  | .ldv .. | .stv .. | .ksend .. => true
  | _ => false

/-- The issue of a loop whose body has been fetched and is legal (R94). -/
def State.enqueueLoop (s0 s : State) (t : Strand) (body : List SeqEntry) (cnt str : Word) : State :=
  let next := t.pc + 4 + 4 * BitVec.ofNat 64 body.length
  if cnt = 0 then s.setStrand s.cur { t with pc := next, vrep := 0, vtrap := false }
  else
    match firstFailure s t body cnt str with
    | some (c, v) => s0.trap s0.cur t c v
    | none =>
      let cs := bodyClasses body
      if t.seqUsed + body.length + 1 > 16 || t.fenced cs then s0
      else
        let (a, s) := s.fresh
        let (b, s) := s.fresh
        let ld := cs.contains .ld
        let st := cs.contains .st
        let t := if ld then t.countOn a [.ld] else t
        let t := if st then t.countOn b [.st] else t
        let it := SeqItem.loop body cnt str 0 0 t.pc (if ld then some a else none) (if st then some b else none)
        s.setStrand s.cur { t with seq := t.seq ++ [it], pc := next, vtrap := false }

/-- `vbegin` (R93, R94, R98): the body is fetched and checked, the offsets of every repetition are checked, and the loop
takes its places in the sequencer. -/
def execVbegin (a b : GReg) (l : BitVec 4) (s : State) : Host.Outcome State Fault Refusal :=
  issue (.vbegin a b l) s (fun s1 t rd =>
    match s1.fetchBody t (t.pc + 4) l.toNat with
    | .bound v => s.trap s.cur t .bound v
    | .xfault pc c => s.fetchFault s.cur t pc c
    | .poisoned key => s.consume t.core key
    | .away => s
    | .words ws s2 =>
      match ws.find? fun w => (bodyInstr? w.1).isNone with
      | some w => s.trap s.cur t .illegal (w.1.setWidth 64)
      | none =>
        let body := ws.filterMap fun w => (bodyInstr? w.1).map fun i => bodyEntry t rd i w.2
        s.enqueueLoop s2 t body (rd a) (rd b))
    (s.bodyReads a l) ((s.loopBody a l).any bodyAccess)

/-- `vsync` (R99): the strand does not issue past it while its sequencer holds an entry. -/
def execVsync (s : State) : Host.Outcome State Fault Refusal :=
  issue .vsync s fun s1 t _ => if t.seq.isEmpty then s1.setStrand s.cur t.advance else s

/-- The first loop in a sequencer: its repetition. -/
def loopRep? : List SeqItem → Option Word
  | [] => none
  | .loop _ _ _ rep _ _ _ _ :: _ => some rep
  | _ :: t => loopRep? t

/-- The word of `vstat` (R100). A loop that has not begun shows repetition 0 (the model's choice, log entry 64). -/
def Strand.vstatWord (t : Strand) : Word :=
  let rep : BitVec 32 := ((loopRep? t.seq).map fun r => r.setWidth 32).getD t.vrep
  BitVec.ofNat 64 (rep.toNat * 2 ^ 32 + (if t.vtrap then 2 ^ 20 else 0) + t.vpos.toNat * 2 ^ 16
    + (if (loopRep? t.seq).isSome then 32 else 0) + t.seqUsed)

/-- `vstat` (R100). -/
def execVstat (d : GReg) (s : State) : Host.Outcome State Fault Refusal :=
  scalar0 (.vstat d) d (fun _ t => t.vstatWord) s

/-! ### Performance (R92, R95, R96) -/

/-- What becomes of an entry that the sequencer takes. -/
inductive Performed where
  /-- nothing yet -/
  | wait
  /-- it has been performed -/
  | done (s : State)
  /-- it has been taken and is not performed yet, or has ended its strand -/
  | held (s : State)
  /-- it raises a trap -/
  | traps (c : Cause) (v : Word)

/-- A page fault of a sequenced access (R96, R306). -/
def State.seqXlate (s : State) (sid : Nat) (t : Strand) (e : SeqEntry) (va : Nat) (need : Acc) (cause : Nat) : Performed :=
  let d := dieOf t.core
  if s.recRoom d then
    let (tok, s) := s.wokenRecord d t.asid 15 1 va need cause t.selfWord e.pc (.seq sid)
    .held (s.setStrand sid { t with seqFault := some { va, acc := need, cause, pc := e.pc, tok } })
  else .wait

/-- The virtual address of an entry's access, 0 for other spaces. -/
def vaOf (a : Addr) : Nat :=
  match a with
  | .virt _ va => va
  | .phys _ => 0

/-- An entry is performed at an offset; `sn` is the operation that it ends (R95). Accesses follow every earlier core-path
operation of the strand (R21), and wait while no link leads to their package (R336). -/
def State.performEntry (s : State) (sid : Nat) (t : Strand) (e : SeqEntry) (off : Word) (sn : Nat) : Performed :=
  match e.instr with
  | .ldv d _ _ _ _ =>
    if !t.ops.isEmpty then .wait
    else
      let a := e.region.addr off.toNat
      match s.sealedAt a with
      | some c => .traps .peerlost (peerLostVal c)
      | none =>
        match s.resolve (dieOf t.core) a accR with
        | .error c => s.seqXlate sid t e (vaOf a) accR c
        | .ok (key, s1) =>
          if !s.pkgUp (keyPkg key) then .wait
          else
            match s1.readWord t.core key 16 with
            | .error s2 => .held s2
            | .ok n => .done (s1.setStrand sid ((t.setV d (BitVec.ofNat 128 n)).uncount sn))
  | .stv r _ _ _ _ =>
    if !t.ops.isEmpty then .wait
    else
      let a := e.region.addr off.toNat
      match s.resolve (dieOf t.core) a accW with
      | .error c => s.seqXlate sid t e (vaOf a) accW c
      | .ok (key, s1) =>
        if !s.pkgUp (keyPkg key) then .wait
        else .done ((s1.setStrand sid (t.uncount sn)).storeAt key (bytesOfNat 16 (t.v r).toNat))
  | .ksend a b y =>
    if !t.ops.isEmpty then .wait
    else
      let ls := ksendLanes s t (t.v a) (t.v b)
      if ls.isEmpty then .done (s.setStrand sid (t.uncount sn))
      else
        let ops := (indexed 0 ls).map fun x : Nat × Nat × BitVec 32 =>
          { sn, core := t.core, pc := e.pc, kind := OpKind.lane x.2.1 (y == .f32) x.2.2 (decide (x.1 + 1 = ls.length))
            since := s.cycle : CoreOp }
        .held (s.setStrand sid { t with ops := t.ops ++ ops })
  | .vext _ a l y => .done (s.deliver sid e.dest (vextVal y (t.v a) l.toNat))
  | i =>
    let v := subnormalVal i t
    if v ≠ 0 then .traps .subnormal (BitVec.ofNat 64 v)
    else
      match vecResult i t e.scal with
      | some (d, q, fl) => .done (s.setStrand sid { t.setV d q with frm := t.frm ||| fl.bits })
      | none => .done s

/-- A trap of an entry (R96): the entry and every later one are discarded; TPC is the entry's own address. -/
def State.seqTrapAt (s : State) (sid : Nat) (t : Strand) (e : SeqEntry) (rep : BitVec 32) (pos : Nat) (c : Cause) (v : Word) :
    State :=
  let t := (t.taken.toList ++ (t.seq.map SeqItem.sns).flatten).foldl (fun t n => t.uncount n) t
  s.trap sid { t with seq := [], taken := none, pc := e.pc, vtrap := true, vrep := rep, vpos := BitVec.ofNat 4 pos } c v

/-- The entry at the head of a strand's sequencer: the entry, its offset (R94), its repetition and its position. -/
def Strand.seqHead (t : Strand) : Option (SeqEntry × Word × BitVec 32 × Nat) :=
  match t.seq with
  | [] => none
  | .one e :: _ => some (e, e.off, 0, 0)
  | .loop body _ str rep pos _ _ _ :: _ => (body[pos]?).map fun e => (e, e.offAt str rep.toNat, rep.setWidth 32, pos)

/-- The head entry is taken (R95): an access in a loop counts from now on under a fresh number, one outside a loop under its
own; an access that has been taken keeps its number. -/
def State.takeEntry (s : State) (sid : Nat) (t : Strand) (e : SeqEntry) : State × Strand × Nat :=
  match t.taken, e.ctr?, t.seq with
  | some n, _, _ => (s, t, n)
  | none, some c, .loop .. :: _ =>
    let (sn, s) := s.fresh
    let t := { (t.countOn sn [c]).takeHead e sn with taken := some sn }
    (s.setStrand sid t, t, sn)
  | none, some _, _ => (s.setStrand sid { t with taken := some e.sn }, { t with taken := some e.sn }, e.sn)
  | none, none, _ => (s, t, e.sn)

/-- The sequencer performs the next entry of strand `ua` (R92). An access is not taken while its class's counter stands at
255 in a loop (R95); a `ksend` that has been taken leaves with its last lane (R113). -/
def execVseqEntryPerform (s : State) : Host.Outcome State Fault Refusal :=
  match s.strand? s.ua with
  | none => .next s
  | some t =>
    match t.seqHead with
    | none => .next s
    | some (e, off, rep, pos) =>
      let loops := match t.seq with
        | .loop .. :: _ => true
        | _ => false
      let full := t.taken.isNone && loops && t.countFull e.ctr?.toList
      let sent := t.taken.isSome && decide (e.ctr? = some .st) && t.ops.any fun o => some o.sn == t.taken
      if t.seqFault.isSome || full || sent then .next s
      else
        let (s1, t1, sn) := s.takeEntry s.ua t e
        match s1.performEntry s.ua t1 e off sn with
        | .wait => .next s
        | .held s2 => .next s2
        | .done s2 => .next (s2.modStrand s.ua Strand.seqNext)
        | .traps c v => .next (s.seqTrapAt s.ua t e rep pos c v)

end Sys2Proof.Machine
end

