-- ==== Sys2Proof/Machine/Context.lean ====
section
/-! DEFINITION. The strand context in memory (R63 to R66), and pre-emption: swap-out, eviction and swap-in (R67 to R69,
R78). -/

namespace Sys2Proof.Machine

/-! ### Fields that software may store beside reserved bits (R7) -/

/-- The writable bits of FRM: NV, OF, UF, NX and RM (R45). -/
def frmWritable : BitVec 8 := 0xF3
/-- The fields of KHASH (R109). -/
def khashFields : Word := 0xFFFFFFFF001F0000
/-- The fields of KBINS (R110). -/
def kbinsFields : Word := 0x80007FFF0003FFF8

/-- Bit 63: NONE in a completion-word register. -/
def bit63 : Word := 0x8000000000000000

/-- The low `n` bits set. -/
def ones (n : Nat) : Word := BitVec.ofNat 64 (2 ^ n - 1)

/-- The bits of the field of an engine register that can be written (R7, R173, R192, R218, R242, R263, R337). -/
def engMask (e : Eng) (r : Nat) : Word :=
  match e, r with
  | .cp, 0x00 | .cp, 0x02 | .cp, 0x05 => ones 5
  | .cp, 0x01 | .cp, 0x03 | .cp, 0x08 => ones 40
  | .cp, 0x04 => ones 8
  | .cp, 0x06 => bit63 ||| ones 40
  | .cp, 0x07 => bit63 ||| ones 32
  | .cp, r => if r < 0x10 then ones 32 else ones 64
  | .mx, 0x00 => ones 4
  | .mx, 0x01 => ones 7
  | .mx, 0x02 | .mx, 0x04 | .mx, 0x0C => ones 32
  | .mx, 0x03 => ones 13
  | .mx, 0x05 | .mx, 0x09 | .mx, 0x0B => ones 5
  | .mx, _ => ones 40
  | .wk, 0x00 | .wk, 0x03 | .wk, 0x06 | .wk, 0x0D => ones 5
  | .wk, 0x01 | .wk, 0x0F => ones 32
  | .wk, 0x02 => ones 6
  | .wk, 0x09 => ones 14
  | .wk, 0x0A => ones 16
  | .wk, 0x0C => ones 8
  | .wk, 0x0E => bit63 ||| ones 40
  | .wk, _ => ones 40
  | .dx, 0x00 => 0xFFFF006F
  | .dx, 0x01 | .dx, 0x06 | .dx, 0x0C => ones 5
  | .dx, 0x02 | .dx, 0x05 | .dx, 0x07 => ones 40
  | .dx, 0x03 => ones 13
  | .dx, 0x04 => ones 15
  | .dx, 0x08 => ones 9
  | .dx, 0x09 | .dx, 0x0F => ones 64
  | .dx, 0x0A => ones 6
  | .dx, 0x0B => ones 14
  | .dx, 0x0D => bit63 ||| ones 40
  | .dx, 0x0E => ones 8
  | .dx, 0x10 => 0x800001FF0000FFFF
  | .dx, 0x11 => 0x0000000000FF03FF
  | .dx, 0x20 => ones 50
  | .dx, 0x21 => ones 13
  | .dx, _ => 0
  | .pl, 0x00 => ones 13
  | .pl, 0x01 => ones 17
  | .pl, 0x02 | .pl, 0x06 | .pl, 0x08 => ones 5
  | .pl, 0x03 | .pl, 0x04 | .pl, 0x05 | .pl, 0x09 => ones 40
  | .pl, 0x07 => bit63 ||| ones 40
  | .pl, 0x0A => ones 9
  | .pl, 0x0B => ones 6
  | .pl, 0x20 => 0xC00FFFFF01FF1FFF
  | .pl, 0x21 => ones 56
  | .pl, 0x22 => 0x03FF00FFFFFFFFFF
  | .pl, 0x23 => ones 64
  | .pl, 0x24 => ones 48
  | .pl, 0x25 => ones 8
  | .pl, _ => 0
  | .cl, 0x00 | .cl, 0x01 => ones 32
  | .cl, 0x02 => ones 8
  | .cl, 0x03 => ones 13
  | .cl, 0x04 | .cl, 0x06 | .cl, 0x08 => ones 5
  | .cl, 0x05 | .cl, 0x07 => ones 40
  | .cl, 0x09 => bit63 ||| ones 40
  | .cl, _ => 0

/-- The fields of the staged registers of an engine, as software may have left them in memory. -/
def maskSet (e : Eng) (v : Vector Word 32) : Vector Word 32 := Vector.ofFn fun i => v[i] &&& engMask e i.val

/-! ### The context image (R63) -/

/-- The saved park kind (R63). The table has no code for a strand parked on a page fault; the model saves 1 (log entry 60). -/
def StrandSt.parkKind : StrandSt → Nat
  | .parked (.barrier _) => 2
  | .parked _ => 1
  | .idle => 3
  | _ => 0

/-- The packed word at offset 0 of the image (R63). -/
def Strand.packed (t : Strand) : Word :=
  BitVec.ofNat 64 (t.qbind.toNat + t.tcause.toNat * 2 ^ 32 + t.frm.toNat * 2 ^ 40 + t.prioP.toNat * 2 ^ 48
    + (if t.wake then 2 ^ 50 else 0) + t.st.parkKind * 2 ^ 51)

/-- The bytes of a list of words. -/
def wordsBytes (l : List Word) : List Byte := (l.map wordBytes).flatten

/-- The 576 bytes of the context image (R63). -/
def Strand.image576 (t : Strand) : List Byte :=
  wordBytes t.packed ++ wordsBytes (t.gr.toList.drop 1) ++ (t.vr.toList.map fun q => bytesOfNat 16 q.toNat).flatten
    ++ wordsBytes [t.pc, t.status, t.tvec, t.tpc, t.tval, t.tmr, t.khash, t.kbins]

/-- Takes the registers from a context image (R63), without the reserved bits of its fields (R7); where the strand is, and what
it waits for, stay, and so does a wake that has come since the image was written (R62). -/
def Strand.fromImage (t : Strand) (b : List Byte) : Strand :=
  let w := dwordAt b 0
  let d := fun (k : Nat) => dwordAt b (0x200 / 8 + k)
  let st := d 1
  { t with
    qbind := w.setWidth 32, tcause := w.extractLsb' 32 8, frm := w.extractLsb' 40 8 &&& frmWritable, prioP := w.extractLsb' 48 2
    wake := t.wake || w.getLsbD 50
    gr := Vector.ofFn fun i => if i.val = 0 then 0 else dwordAt b i.val
    vr := Vector.ofFn fun i => BitVec.ofNat 128 (natOfBytes ((b.drop (0x100 + 16 * i.val)).take 16))
    pc := d 0, tvec := putBits (d 2) 0 2 0, tpc := putBits (d 3) 0 2 0, tval := d 4, tmr := d 5
    khash := d 6 &&& khashFields, kbins := d 7 &&& kbinsFields
    th := st.getLsbD 0, tw := st.getLsbD 1, sup := st.getLsbD 8, cls := st.extractLsb' 9 2, pair := st.getLsbD 11
    st := match bits w 51 2 with
      | 0 => .run
      | 3 => .idle
      | _ => match t.st with
        | .parked on => .parked on
        | _ => .run }

/-- The bytes of a handle entry (R116). -/
def Handle.bytes (h : Handle) : List Byte := wordsBytes [h.base, h.ctl, h.tgt, 0]

/-- A handle entry from its bytes, without its reserved bits (R7, R116). -/
def Handle.ofBytes (b : List Byte) : Handle :=
  let ctl := putBits (dwordAt b 1) 54 10 0
  { base := if bits ctl 40 3 = 4 then putBits (dwordAt b 0) 56 8 0 else dwordAt b 0
    ctl, tgt := putBits (dwordAt b 2) 16 48 0 }

/-- The handle entries in a run of bytes, 32 bytes each. -/
def handlesOf (b : List Byte) (n : Nat) : List Handle := (List.range n).map fun i => Handle.ofBytes ((b.drop (32 * i)).take 32)

/-- A vector of 32 from a list; missing places as `d`. -/
def vec32 {α : Type} (l : List α) (d : α) : Vector α 32 := Vector.ofFn fun i => l[i.val]?.getD d

/-- The identity block (R66). -/
def Strand.identBlock (t : Strand) : List Byte :=
  wordsBytes [t.wid, t.grp,
    BitVec.ofNat 64 (t.asid.toNat + t.tenant.toNat * 2 ^ 12 + t.prioBase.toNat * 2 ^ 18 + (if t.trig then 2 ^ 20 else 0)
      + (if t.lnch then 2 ^ 21 else 0)),
    t.image, t.imgsz.setWidth 64,
    match t.home with
    | some (c, k) => locWord c k
    | none => 0,
    0, 0]

/-- Takes the identity from its block, but for HOME. -/
def Strand.fromIdent (t : Strand) (b : List Byte) : Strand :=
  let w := dwordAt b 2
  { t with
    wid := dwordAt b 0, grp := dwordAt b 1, asid := w.setWidth 12, tenant := w.extractLsb' 12 6
    prioBase := w.extractLsb' 18 2, trig := w.getLsbD 20, lnch := w.getLsbD 21
    image := dwordAt b 3, imgsz := (dwordAt b 4).setWidth 32 }

/-- The staged dispatch registers as the context entry holds them, with DROPS and DENIES (R65). -/
def Strand.dxArea (t : Strand) : Vector Word 32 :=
  vset t.dx 16 (BitVec.ofNat 64 (t.drops.toNat * 2 ^ 48 + t.denies.toNat * 2 ^ 32))

/-- The staged copy registers as the context entry holds them: bit 63 of `cp.dslot` tells the kind of the destination (R173). -/
def Strand.cpArea (t : Strand) : Vector Word 32 :=
  vset t.cp 4 ((staged t.cp 4 &&& ones 8) ||| (if t.cpSlot then bit63 else 0))

/-- The part of a memory context entry before the slice (R65). -/
def Strand.ctxEntry (t : Strand) : List Byte :=
  t.image576 ++ List.replicate 448 0 ++ (t.handles.toList.map Handle.bytes).flatten
    ++ wordsBytes (t.cpArea.toList ++ t.mx.toList ++ t.wk.toList ++ t.dxArea.toList ++ t.pl.toList ++ t.cl.toList)
    ++ t.identBlock ++ List.replicate 448 0

/-- The 32 words at an offset of an entry. -/
def words32 (b : List Byte) (off : Nat) : Vector Word 32 := Vector.ofFn fun i => dwordAt (b.drop off) i.val

/-- Takes a strand's context from a memory context entry (R65, R68), without reserved bits (R7). HOME is the location of a
strand whose STATUS says that it is migrated. -/
def Strand.fromEntry (t : Strand) (b : List Byte) : Strand :=
  let cp := words32 b 0x800
  let dx := words32 b 0xB00
  let w := staged dx 16
  let home := dwordAt (b.drop 0xE00) 5
  { (t.fromImage b).fromIdent (b.drop 0xE00) with
    handles := vec32 (handlesOf (b.drop 0x400) 32) {}
    cp := maskSet .cp cp, cpSlot := (staged cp 4).getLsbD 63, mx := maskSet .mx (words32 b 0x900)
    wk := maskSet .wk (words32 b 0xA00), dx := vset (maskSet .dx dx) 16 0
    drops := w.extractLsb' 48 16, denies := w.extractLsb' 32 16, pl := maskSet .pl (words32 b 0xC00)
    cl := maskSet .cl (words32 b 0xD00)
    home := if (dwordAt (b.drop 0x200) 1).getLsbD 12 then some (locCore home, bits home 0 3) else none
    vtrap := false, vrep := 0, vpos := 0 }

/-! ### Pre-emption (R67, R68) -/

/-- The virtual address of a memory context entry (R65). -/
def Core.ctxAddr (k : Core) (n : Nat) : Nat := k.ctxbase.toNat + 8192 * n

/-- A strand that may be chosen as a victim, or swapped at a SWAPREQ: in a slot, with no operation held by a fault (R306), and
no `migrate` on its way (R259). -/
def Strand.swappable (t : Strand) : Bool := t.place?.isSome && t.opFault.isNone && t.seqFault.isNone && t.mig.isNone

/-- A slot of a core is in SWAP: pre-emption swaps one slot of a core at a time (R67). -/
def Core.swapBusy (k : Core) : Bool := k.slots.toList.any fun x => match x with
  | .swap _ | .enter _ => true
  | _ => false

/-- Begins the swap-out of one strand: its slot enters SWAP (R67). While it is away, younger claims are served (R88). -/
def State.beginSwap1 (s : State) (sid : Nat) : State :=
  match s.strand? sid with
  | none => s
  | some t =>
    match t.loc with
    | .slot c k =>
      let s := (s.setStrand sid { t with loc := .swapOut c k }).modCore c fun x => { x with
        slots := vset x.slots k (.swap sid), swapReq := x.swapReq.filter fun j => !(j == k) }
      match t.claim with
      | some on => s.wakePort t.homeCore on
      | none => s
    | _ => s

/-- A strand and its partner of paired mode, which are pre-empted together (R323). -/
def Strand.withPartner (t : Strand) (sid : Nat) : List Nat := sid :: t.partner.toList

/-- The swap-out of a strand in a slot can begin now (R67, R306, R323). -/
def State.maySwap (s : State) (sid : Nat) : Bool :=
  match s.strand? sid with
  | none => false
  | some t => t.place?.isSome && (t.withPartner sid).all fun i =>
    match s.strand? i with
    | some u => u.place?.isNone || (u.swappable && !(s.core u.core).swapBusy)
    | none => true

/-- Begins a swap-out, where it can begin now; partners of paired mode are pre-empted together (R323). -/
def State.beginSwap (s : State) (sid : Nat) : State :=
  if s.maySwap sid then
    match (s.strand? sid).bind fun t => t.partner with
    | some p => (s.beginSwap1 sid).beginSwap1 p
    | none => s.beginSwap1 sid
  else s

/-- The strand in a slot of a core that is LIVE. -/
def Core.liveSid? (k : Core) (i : Nat) : Option Nat :=
  match vget k.slots i .free with
  | .live sid => some sid
  | _ => none

/-- The first swap-out that was asked for on a core and can begin now begins (R67, R306). -/
def State.nextSwap (s : State) (c : Nat) : State :=
  match (s.core c).swapReq.find? fun i => ((s.core c).liveSid? i).any s.maySwap with
  | some i => s.beginSwap (((s.core c).liveSid? i).getD 0)
  | none => s

/-- A swap-out of a slot of a core is asked for, and begins as soon as it can (R67, R306). -/
def State.requestSwap (s : State) (c i : Nat) : State :=
  match (s.core c).liveSid? i with
  | some _ => (s.modCore c fun x => { x with swapReq := keyInsert i x.swapReq }).nextSwap c
  | none => s

/-- When a strand last issued, for the order of victims: a strand that never has comes first. -/
def Strand.lastAt (t : Strand) : Nat :=
  match t.lastIssue with
  | none => 0
  | some n => n + 1

/-- The order of victims (R67): whether `a` is a better victim than `b`. -/
def betterVictim (a b : Nat × Strand) : Bool :=
  let w := fun (t : Strand) => decide (t.st = .run)
  if w a.2 != w b.2 then !w a.2
  else if a.2.prioP ≠ b.2.prioP then decide (b.2.prioP.toNat < a.2.prioP.toNat)
  else if a.2.lastAt ≠ b.2.lastAt then decide (a.2.lastAt < b.2.lastAt)
  else decide (a.2.slot < b.2.slot)

/-- The victim among some strands. -/
def victimOf : List (Nat × Strand) → Option (Nat × Strand)
  | [] => none
  | x :: t =>
    match victimOf t with
    | none => some x
    | some y => if betterVictim y x then some y else some x

/-- A slot of a core is FREE. -/
def State.hasFree (s : State) (c : Nat) : Bool := (s.core c).slots.toList.contains .free

/-- A queued STRAND record of a bank may start on a core as far as its target goes (R144). -/
def BankRec.targets (r : BankRec) (c : Nat) : Bool :=
  r.running.isNone && !r.orphan && decide (bits r.task[6] 32 3 = 0) &&
    (r.task[7].getLsbD 25 || decide (locCore r.task[7] = c))

/-- A task record waits for a core (R67). -/
def State.taskWaits (s : State) (c : Nat) : Bool := (s.cluster (clusterOf c)).bank.any fun r => r.targets c

/-- A strand of a core has been PARKED for longer than 64 × PARKSWAP cycles (R67). -/
def State.parkedLong (s : State) (c : Nat) : Bool :=
  (s.liveOn c).any fun x => match x.2.st with
    | .parked _ => decide (x.2.parkedAt + 64 * (s.core c).parkswap.toNat < s.cycle)
    | _ => false

/-- A strand in a slot that pre-emption may choose: nothing holds it (R67, R214, R259, R282, R306). -/
def Strand.choosable (t : Strand) : Bool := t.swappable && t.hold.isNone && t.susp.isNone

/-- The strands of a core that PARKSWAP may choose from, in the order of R67. -/
def State.parkVictims (s : State) (c : Nat) : List (Nat × Strand) := (s.liveOn c).filter fun x => x.2.choosable

/-- Pre-emption by PARKSWAP on core `ua` (R67): no slot is FREE or in SWAP, a task record waits, and a strand has been PARKED
for longer than 64 × PARKSWAP cycles; the victim leaves its slot. -/
def execParkswapPreempt (s : State) : Host.Outcome State Fault Refusal :=
  let c := s.ua
  if (s.core c).parkswap = 0 || s.hasFree c || !s.taskWaits c || !s.parkedLong c then .next s
  else
    match victimOf (s.parkVictims c) with
    | some (sid, _) => .next (s.beginSwap sid)
    | none => .next s

/-- The key of the first byte that an operation is performed at. -/
def OpKind.key? : OpKind → Option Nat
  | .load (.phys k) _ _ | .store (.phys k) _ _ | .amo _ (.phys k) _ _ | .fill k _ | .empty k | .test k | .lane k _ _ _ => some k
  | _ => none

/-- A key is in the slice of slot `k` of core `c` (R114). -/
def inSlice (c k key : Nat) : Bool := decide (scratchKey c (0x1000 * k) ≤ key) && decide (key < scratchKey c (0x1000 * k) + 0x1000)

/-- What a strand parked on stands as the slice of its slot is saved: a word of the slice is saved with it. -/
def StrandSt.saved (c k : Nat) : StrandSt → StrandSt
  | .parked (.word key full) =>
    if inSlice c k key then .parked (.own (key - scratchKey c (0x1000 * k)) full) else .parked (.word key full)
  | st => st

/-- A strand's image may be written (R64): its pending results have returned and its sequencer is empty. -/
def Strand.quiet (t : Strand) : Bool :=
  t.seq.isEmpty && decide (t.pend = 0) && t.rets.isEmpty && t.late.isEmpty && t.hold.isNone && t.susp.isNone && t.mig.isNone &&
    !(t.outst.any fun x => decide (x.2 = .ld))

/-- The full words of a slice, by word. -/
def State.sliceBits (s : State) (c k : Nat) : List Nat :=
  (List.range 512).filter fun i => s.isFull (scratchKey c (0x1000 * k + 8 * i))

/-- Sets a slice's words full as a list says, the others empty. -/
def State.putSliceBits (s : State) (c k : Nat) (l : List Nat) : State :=
  let base := scratchKey c (0x1000 * k) / 8
  let rest := s.full.filter fun w => !(decide (base ≤ w) && decide (w < base + 512))
  { s with full := l.foldl (fun f i => keyInsert (base + i) f) rest }

/-- The swap-out from slot `ub` of core `ua` ends (R67): the context is in the cache, the slice in the memory context
area, and the slot is FREE. It waits for a quiet strand, whose accesses to the slice have been performed, and for a free cache
entry. -/
def execSwapOutComplete (s : State) : Host.Outcome State Fault Refusal :=
  let c := s.ua
  let k := s.ub
  match vget (s.core c).slots k .free with
  | .swap sid =>
    match s.strand? sid with
    | none => .next s
    | some t =>
      if t.loc ≠ .swapOut c k || !t.quiet || t.ops.any (fun o => o.kind.key?.any (inSlice c k)) ||
          (s.core c).cache.length ≥ 8 then .next s
      else
        let va := (s.core c).ctxAddr t.ctx + 0x1000
        match s.writeVirt (dieOf c) 0 va (s.readBytes (scratchKey c (0x1000 * k)) 4096) with
        | .error _ => .next s
        | .ok s1 =>
          let s1 := s1.carryPoison s 4096 (fun _ o => some (scratchKey c (0x1000 * k + o))) (atVirt (dieOf c) 0 va)
          let s1 := s1.setStrand sid { t with
            loc := .cached c, st := t.st.saved c k, sliceFull := s.sliceBits c k, ready := s.cycle + 1 }
          .next ((s1.modCore c fun x => { x with slots := vset x.slots k .free, cache := x.cache ++ [sid] }).nextSwap c)
  | _ => .next s

/-- A strand without outstanding engine operations (R68), whose stores, too, have been performed: a context in memory stands for
counts of zero (R64), and has no fences (R141). -/
def Strand.evictable (t : Strand) : Bool := t.outst.isEmpty && t.ops.isEmpty && t.arrivals.isEmpty

/-- Eviction from the context cache of core `ua` (R68): the cache is full, a swap-out waits for an entry, and the oldest
entry without engine operations goes to memory. -/
def execContextEvict (s : State) : Host.Outcome State Fault Refusal :=
  let c := s.ua
  let k := s.core c
  if k.cache.length < 8 || !(k.slots.toList.any fun x => match x with
      | .swap _ => true
      | _ => false) then .next s
  else
    match k.cache.find? fun i => ((s.strand? i).map Strand.evictable).getD false with
    | none => .next s
    | some sid =>
      match s.strand? sid with
      | none => .next s
      | some t =>
        match s.writeVirt (dieOf c) 0 (k.ctxAddr t.ctx) t.ctxEntry with
        | .error _ => .next s
        | .ok s1 =>
          .next ((s1.setStrand sid { t with loc := .stored c, fences := [] }).modCore c fun x => { x with
            cache := keyErase sid x.cache })

/-- A context that may return to a slot (R62): its wake is recorded, or it never parked. -/
def Strand.mayReturn (t : Strand) : Bool := t.wake || decide (t.st = .run) || decide (t.st = .idle)

/-- The first FREE slot of a core. -/
def Core.freeSlot (k : Core) : Option Nat := (List.range 8).find? fun i => vget k.slots i .free = .free

/-- The strand as it stands in its slot after a swap-in: a recorded wake has its effect (R62, R148). -/
def Strand.returned (t : Strand) (c k : Nat) (cycle : Nat) : Strand :=
  let t := { t with loc := .slot c k, lastSlot := k, ready := cycle + 1, sliceFull := [] }
  match t.st with
  | .idle => if t.wake then { t with st := .run, pc := t.pc + 4, wake := false } else t
  | .parked _ => if t.wake then { t with st := .run, wake := false } else t
  | _ => t

/-- The swap-in of a strand into slot `k` of core `c` ends (R67): its slice is read back, and it stands in the slot. -/
def State.endSwapIn (s : State) (c k sid : Nat) (t : Strand) : State :=
  let va := (s.core c).ctxAddr t.ctx + 0x1000
  match s.readVirt (dieOf c) 0 va 4096 with
  | .error _ => s
  | .ok (b, s1) =>
    let s1 := (s1.writeBytes (scratchKey c (0x1000 * k)) b).putSliceBits c k t.sliceFull
    let s1 := s1.carryPoison s 4096 (atVirt (dieOf c) 0 va) fun _ o => some (scratchKey c (0x1000 * k + o))
    ((s1.setStrand sid (t.returned c k s.cycle)).modCore c fun y => { y with slots := vset y.slots k (.live sid) }).nextSwap c

/-- The slot of a core that a strand moves into. -/
def Core.entering (k : Core) : Option (Nat × Nat) := (List.range 8).findSome? fun i =>
  match vget k.slots i .free with
  | .enter sid => some (i, sid)
  | _ => none

end Sys2Proof.Machine
end

