-- ==== Sys2Proof/Machine/Flags.lean ====
section
/-! DEFINITION. The status words that instructions read and write: STATUS and FRM with its rounding mode and sticky flags
(R45, R74), PRIO (R77), CNT (R138), ASIDV (R295), SLOTSTAT (R74). -/

namespace Sys2Proof.Machine

/-- The value of a count field of CNT. -/
def countField (n : Nat) : Nat := Nat.min n 255

/-- CNT (R74, R138). -/
def Strand.cnt (t : Strand) : Word :=
  BitVec.ofNat 64 (countField (t.count .ld) + countField (t.count .st) * 2 ^ 8 + countField (t.count .cp) * 2 ^ 16
    + countField (t.count .mx) * 2 ^ 24 + countField (t.count .dx) * 2 ^ 32 + countField (t.count .cl) * 2 ^ 40)

/-- The state code of a slot in SLOTSTAT (R74): 0 FREE, 1 LIVE, 2 SWAP, 3 RESERVED. A slot that a starting strand has been
given holds it already. -/
def Slot.code : Slot → Nat
  | .free => 0
  | .live _ | .coming _ => 1
  | .swap _ | .enter _ => 2
  | .reserved _ => 3

/-- The strand of a slot. -/
def Slot.sid? : Slot → Option Nat
  | .free => none
  | .live i | .coming i | .swap i | .enter i | .reserved i => some i

/-- SLOTSTAT of a core (R74). -/
def State.slotStat (s : State) (c : Nat) : Word :=
  BitVec.ofNat 64 (((List.range 8).map fun k =>
    let x := vget (s.core c).slots k .free
    let cls := match x.sid?.bind fun i => s.strand? i with
      | some t => t.cls.toNat
      | none => 0
    (x.code + 4 * cls) * 16 ^ k).sum)

/-- SLOTCTL (R74). -/
def Core.slotCtl (k : Core) : Word := BitVec.ofNat 64 (k.parkswap.toNat * 2 ^ 16 + (if k.wc then 1 else 0))

/-- PRIO (R74). -/
def Strand.prio (t : Strand) : Word := BitVec.ofNat 64 (t.prioBase.toNat * 4 + t.prioP.toNat)

/-- The P that a write of a value to PRIO.P gives (R77). -/
def clampPrio (v : Word) (base : BitVec 2) : BitVec 2 :=
  let p : BitVec 2 := if v.toNat ≤ 3 then v.setWidth 2 else 3
  if p.toNat < base.toNat then base else p

/-- A system register as `sysrd` reads it (R74); `c` is the core of the strand. -/
def State.sysRead (s : State) (t : Strand) (n : Nat) : Word :=
  let c := t.core
  let k := s.core c
  let cl := s.cluster (clusterOf c)
  match n with
  | 0x00 => t.status
  | 0x01 => t.tvec
  | 0x02 => t.tcause.setWidth 64
  | 0x03 => t.tpc
  | 0x04 => t.tval
  | 0x05 => t.frm.setWidth 64
  | 0x06 => t.tmr
  | 0x07 => t.prio
  | 0x08 => t.qbind.setWidth 64
  | 0x09 => t.khash
  | 0x0A => t.kbins
  | 0x0B => t.cnt
  | 0x0C => BitVec.ofNat 64 (t.asid.toNat + (s.asidGen t.asid).toNat * 2 ^ 12)
  | 0x0D => s.tickp.setWidth 64
  | 0x10 => k.ctxbase
  | 0x11 => k.ctxn.setWidth 64
  | 0x12 => k.slottab0
  | 0x13 => k.slottab1
  | 0x14 => k.slotCtl
  | 0x15 => cl.qring
  | 0x16 => cl.qrlim
  | 0x17 => s.slotStat c
  | 0x19 => (s.die (dieOf c)).hintdrop
  | _ => 0

end Sys2Proof.Machine
end

