-- ==== Sys2Proof/Machine/System.lean ====
section
/-! DEFINITION. System registers, traps by instruction, the return from a trap, `idle`, the timer and priorities (R35,
R71, R74 to R78). -/

namespace Sys2Proof.Machine

/-- An instruction that only a supervisor strand may execute (R35): for any other its word is illegal (R37), before anything
else. -/
def supervised (i : Instr) (need : Bool) (s : State) (f : State → Host.Outcome State Fault Refusal) :
    Host.Outcome State Fault Refusal :=
  match s.strand? s.cur with
  | none => .fault .noStrand
  | some t => if need && !t.sup then execIllegalWord ((encode i).getD 0) s else f s

/-- `sysrd` (R75): g(D) receives the register. FRM waits for an empty sequencer. -/
def execSysrd (d : GReg) (n : SysNum) (s : State) : Host.Outcome State Fault Refusal :=
  supervised (.sysrd d n) (sysRegSup n.toNat) s fun s =>
    issue (.sysrd d n) s fun s1 t _ =>
      if n.toNat = 5 && !t.seq.isEmpty then s else s1.finish s.cur t d (s1.sysRead t n.toNat)

/-- A write of a system register (R75): `f` gives the state after it, `idle` says that it waits for an empty sequencer
(R75, R97). -/
def sysWrite (i : Instr) (a : GReg) (sup wait : Bool) (s : State) (f : State → Strand → Word → State × Strand) :
    Host.Outcome State Fault Refusal :=
  supervised i sup s fun s =>
    issue i s fun s1 t rd =>
      if wait && !t.seq.isEmpty then s
      else
        let (s2, t) := f s1 t (rd a)
        s2.setStrand s.cur t.advance

/-- `syswr` to STATUS, TVEC, TCAUSE, TPC, TVAL, CTXBASE or CTXN (R74, R75): the writable fields receive g(A). CTXN holds any value
of its 13 bits, one above 4,096 too, as the limit that it then is (the model's choice, log entry 21). -/
def execSyswr (a : GReg) (n : SysNum) (s : State) : Host.Outcome State Fault Refusal :=
  sysWrite (.syswr a n) a (sysRegSup n.toNat) false s fun s t v =>
    let k := fun (f : Core → Core) => (s.modCore t.core f, t)
    match n.toNat with
    | 0x00 => (s, { t with th := v.getLsbD 0, tw := v.getLsbD 1 })
    | 0x01 => (s, { t with tvec := putBits v 0 2 0 })
    | 0x02 => (s, { t with tcause := v.setWidth 8 })
    | 0x03 => (s, { t with tpc := putBits v 0 2 0 })
    | 0x04 => (s, { t with tval := v })
    | 0x10 => k fun x => { x with ctxbase := putBits (putBits v 0 13 0) 56 8 0 }
    | 0x11 => k fun x => { x with ctxn := v.setWidth 13 }
    | _ => (s, t)

/-- `syswr` to TMR (R75): arms the timer; 0 disarms it. A timer that was due is replaced. -/
def execSyswrTmr (a : GReg) (s : State) : Host.Outcome State Fault Refusal :=
  sysWrite (.syswrTmr a) a false false s fun s t v => (s, { t with tmr := v, tmrDue := false })

/-- `syswr` to FRM (R45, R75): the flags and the mode; waits for an empty sequencer. -/
def execSyswrFrm (a : GReg) (s : State) : Host.Outcome State Fault Refusal :=
  sysWrite (.syswrFrm a) a false true s fun s t v => (s, { t with frm := v.setWidth 8 &&& frmWritable })

/-- `syswr` to PRIO (R75, R77): P, within the limits of `prio`. -/
def execSyswrPrio (a : GReg) (s : State) : Host.Outcome State Fault Refusal :=
  sysWrite (.syswrPrio a) a false false s fun s t v => (s, { t with prioP := clampPrio (v &&& 3) t.prioBase })

/-- One field of a `syswr` to QBIND (R87): bound, unbound, or left where the binding would be refused. -/
def State.rebindField (s : State) (sid : Nat) (t : Strand) (i : Nat) (f : BitVec 4) : State × Strand :=
  if f = qField t.qbind i then (s, t)
  else if qBound f then
    if s.portOpen t (qPort f) then s.bindField sid t i (qPort f) else (s, t)
  else if qBound (qField t.qbind i) then s.unbindField sid t i
  else (s, t)

/-- `syswr` to QBIND (R87): each field as `qbind` and `qunbind` would change it, from field 0 up (the model's choice, log entry
72). -/
def execSyswrQbind (a : GReg) (s : State) : Host.Outcome State Fault Refusal :=
  sysWrite (.syswrQbind a) a false false s fun s1 t v =>
    (List.range 8).foldl (fun x i => x.1.rebindField s.cur x.2 i (qField (v.setWidth 32) i)) (s1, t)

/-- `syswr` to KHASH or KBINS (R97, R109, R110): the fields; waits for an empty sequencer. -/
def execSyswrKhashKbins (a : GReg) (n : SysNum) (s : State) : Host.Outcome State Fault Refusal :=
  sysWrite (.syswrKhashKbins a n) a false true s fun s t v =>
    if n.toNat = 0x09 then (s, { t with khash := v &&& khashFields })
    else (s, { t with kbins := v &&& kbinsFields })

/-- `syswr` to SLOTTAB0, SLOTTAB1 or SLOTCTL (R61, R74). -/
def execSyswrSlottab (a : GReg) (n : SysNum) (s : State) : Host.Outcome State Fault Refusal :=
  sysWrite (.syswrSlottab a n) a true false s fun s t v =>
    let k := fun (f : Core → Core) => (s.modCore t.core f, t)
    match n.toNat with
    | 0x12 => k fun x => { x with slottab0 := v }
    | 0x13 => k fun x => { x with slottab1 := v }
    | _ => k fun x => { x with wc := v.getLsbD 0, parkswap := v.extractLsb' 16 16 }

/-- COUNT of a sub-ring (R150), as memory has it; 0 where the ring is not mapped. -/
def State.ringCount (s : State) (cl p : Nat) : Nat := bits (s.dwordOn (cl / 16) ((s.cluster cl).qring.toNat + 16 * p)) 32 32

/-- `syswr` to QRING or QRLIM (R150): ignored while a sub-ring holds records or the engine is not IDLE. -/
def execSyswrQring (a : GReg) (n : SysNum) (s : State) : Host.Outcome State Fault Refusal :=
  sysWrite (.syswrQring a n) a true false s fun s t v =>
    let c := clusterOf t.core
    let x := s.cluster c
    if x.spill ≠ .idle || (x.qrlim ≠ 0 && (List.range 4).any fun p => s.ringCount c p ≠ 0) then (s, t)
    else if n.toNat = 0x15 then (s.modCluster c fun y => { y with qring := v &&& 0x00FFFFFFFFFFF000 }, t)
    else (s.modCluster c fun y => { y with qrlim := v &&& 0xFFFF }, t)

/-- `syswr` to SWAPREQ (R67, R74): the strand of the slot is swapped out, after an earlier swap of its core; a strand with
operations held by a fault is swapped after its wake (R306). -/
def execSwapreq (a : GReg) (s : State) : Host.Outcome State Fault Refusal :=
  sysWrite (.swapreq a) a true false s fun s1 t v =>
    let s2 := s1.requestSwap t.core (bits v 0 3)
    (s2, { t with loc := ((s2.strand? s.cur).map fun u => u.loc).getD t.loc })

/-- `trap` (R76): SOFT with the immediate. -/
def execTrap (n : BitVec 12) (s : State) : Host.Outcome State Fault Refusal :=
  issue (.trap n) s fun _ t _ => s.trap s.cur t .soft (n.setWidth 64)

/-- `brk` (R76): BREAK with the immediate. -/
def execBrk (n : BitVec 12) (s : State) : Host.Outcome State Fault Refusal :=
  issue (.brk n) s fun _ t _ => s.trap s.cur t .brk (n.setWidth 64)

/-- `eret` (R76): ILLEGAL outside a handler; otherwise TH is cleared and the strand goes on at TPC. -/
def execEret (s : State) : Host.Outcome State Fault Refusal :=
  issue .eret s fun s1 t _ => if t.th then { s1.setStrand s.cur t.eret with barHolds := keyErase s.cur s1.barHolds } else s.illegal t .eret

/-- `idle` (R76): the strand becomes IDLE; with a wake recorded it completes at once and clears the record (R148). -/
def execIdle (s : State) : Host.Outcome State Fault Refusal :=
  issue .idle s fun s1 t _ =>
    if t.wake then s1.setStrand s.cur { t.advance with wake := false }
    else s1.setStrand s.cur { t with st := .idle, parkedAt := s.cycle }

/-- `tmr` (R77): g(D) receives the count and TMR g(A), as one step. -/
def execTmr (d a : GReg) (s : State) : Host.Outcome State Fault Refusal :=
  issue (.tmr d a) s fun s1 t rd => s1.finish s.cur { t with tmr := rd a, tmrDue := false } d t.tmr

/-- `prio` (R77): g(D) receives the old P; the new one never goes below BASE. -/
def execPrio (d a : GReg) (s : State) : Host.Outcome State Fault Refusal :=
  issue (.prio d a) s fun s1 t rd =>
    s1.finish s.cur { t with prioP := clampPrio (rd a) t.prioBase } d (t.prioP.setWidth 64)

/-- A strand in a slot stands at an instruction boundary where TIMER can be taken (R71, R306): not in a handler, nothing
holds its issue, no operation is held by a fault, and it is not parked on a barrier or a page fault. -/
def Strand.timerReady (t : Strand) : Bool :=
  t.tmrDue && !t.th && t.place?.isSome && t.opFault.isNone && t.seqFault.isNone && t.hold.isNone && t.susp.isNone &&
    t.mig.isNone &&
    (match t.st with
     | .run | .idle | .parked (.word ..) | .parked (.own ..) | .parked (.push _) | .parked (.pop _) => true
     | _ => false)

/-- TIMER of strand `ua` (R71): PC is the instruction not yet issued, the parked instruction, or for IDLE the one after
the `idle`. -/
def execTimer (s : State) : Host.Outcome State Fault Refusal :=
  match s.strand? s.ua with
  | none => .next s
  | some t =>
    if t.timerReady then
      let pc := if t.st = .idle then t.pc + 4 else t.pc
      .next (s.trap s.ua { t with tmrDue := false, tmr := 0, pc } .timer 0)
    else .next s

end Sys2Proof.Machine
end

