-- ==== Sys2Proof/Machine/Ordering.lean ====
section
/-! DEFINITION. `wait` and `xfence` (R138 to R141). -/

namespace Sys2Proof.Machine

/-- The condition of one field of `wait` (R139): 15 sets none. -/
def waitOk (t : Strand) (c : Ctr) (n : BitVec 4) : Bool := n = 15 || decide (t.count c ≤ n.toNat)

/-- `wait` (R139): stalls at issue until every named counter is down to its field. -/
def execWait (l st cp mx dx cl : BitVec 4) (s : State) : Host.Outcome State Fault Refusal :=
  issue (.wait l st cp mx dx cl) s fun s1 t _ =>
    if waitOk t .ld l && waitOk t .st st && waitOk t .cp cp && waitOk t .mx mx && waitOk t .dx dx && waitOk t .cl cl then
      s1.setStrand s.cur t.advance
    else s

/-- `xfence` (R141): records a fence over the operations of the before-set that are not performed; it issues at once.
Every write is performed for every observer at once, so the scope changes nothing. -/
def execXfence (b a : BitVec 6) (sc : BitVec 3) (s : State) : Host.Outcome State Fault Refusal :=
  issue (.xfence b a sc) s fun s1 t _ =>
    let w := (t.outst.filter fun x => b.getLsbD x.2.bit).map fun x => x.1
    let fs := t.fences.filter fun f => !f.wait.isEmpty
    s1.setStrand s.cur { t.advance with fences := if w.isEmpty then fs else fs ++ [{ wait := w, aset := a }] }

end Sys2Proof.Machine
end

