-- ==== Sys2Proof/Machine/Span.lean ====
section
/-! DEFINITION. Reads and writes of longer runs of bytes through a region, byte by byte: for instructions that read a
record at issue (R153, R232) and for the engines. -/

namespace Sys2Proof.Machine

/-- Why a run of bytes cannot be read or written: a translation fault at an address, a sealed core, a poisoned word. -/
inductive SpanErr where
  | xlate (cause va : Nat)
  | peer (core : Nat)
  | bad (key : Nat)
  deriving DecidableEq, Repr

/-- The key of the byte at an offset of a region, translated on die `d`. -/
def State.spanKey (s : State) (d : Nat) (r : Region) (o : Nat) (need : Acc) : Except SpanErr (Nat × State) :=
  match r.addr o with
  | .phys k => .ok (k, s)
  | .virt asid va =>
    match s.translate d asid va need with
    | .error c => .error (.xlate c va)
    | .ok x => .ok x

/-- The package that an offset of a region reaches has a link (R336). -/
def State.runUp (s : State) (d : Nat) (r : Region) (o : Nat) (need : Acc) : Bool :=
  match s.spanKey d r o need with
  | .ok (k, _) => s.pkgUp (keyPkg k)
  | .error _ => true

/-- The packages that `n` bytes from an offset of a region reach have links (R336), page by page. -/
def State.allUp (s : State) (d : Nat) (r : Region) (o n : Nat) (need : Acc) : Bool :=
  decide (n = 0) || (List.range (n / 4096 + 2)).all fun i => s.runUp d r (Nat.min (o + 4096 * i) (o + n - 1)) need

/-- Reads `n` bytes from an offset of a region. A word of a sealed core, or a poisoned one, ends the read. -/
def State.readSpan (s : State) (d : Nat) (r : Region) (o : Nat) : Nat → Except SpanErr (List Byte × State)
  | 0 => .ok ([], s)
  | n + 1 =>
    match s.spanKey d r o accR with
    | .error e => .error e
    | .ok (k, s) =>
      match s.sealedAt (.phys k) with
      | some c => .error (.peer c)
      | none =>
        if s.poisoned k 1 then .error (.bad k)
        else
          match State.readSpan s d r (o + 1) n with
          | .error e => .error e
          | .ok (b, s) => .ok (Memory.read s.mem k :: b, s)

/-- Writes a run of bytes from an offset of a region: bytes for a sealed core are discarded, and the
discard is counted once on its die (R318); the core, if one was met. `n` bytes have been written before. -/
def State.engWriteGo (s : State) (d : Nat) (r : Region) (o n : Nat) (hit : Option Nat) : List Byte → Except SpanErr (State × Option Nat)
  | [] => .ok (s, hit)
  | b :: t =>
    match s.spanKey d r o accW with
    | .error e => .error e
    | .ok (k, s) =>
      match s.sealedAt (.phys k) with
      | some c =>
        let s := if hit.isNone then s.countErr (dieOf c) 11 else s
        State.engWriteGo s d r (o + 1) (n + 1) (some c) t
      | none => State.engWriteGo (s.runByte k n b) d r (o + 1) (n + 1) hit t

/-- Writes a run of bytes for an engine. -/
def State.engWrite (s : State) (d : Nat) (r : Region) (o : Nat) (b : List Byte) : Except SpanErr (State × Option Nat) :=
  s.engWriteGo d r o 0 none b

/-- Writes bytes from an offset of a region; those of a sealed core are discarded, and counted once (R318, R326). -/
def State.writeSpan (s : State) (d : Nat) (r : Region) (o : Nat) (b : List Byte) : Except SpanErr State :=
  (s.engWrite d r o b).map fun x => x.1

/-- The first byte of a run of `n` from an offset that does not translate for a need, its address and cause. -/
def State.spanXlate (s : State) (d : Nat) (r : Region) (o : Nat) (need : Acc) : Nat → Option (Nat × Nat)
  | 0 => none
  | n + 1 =>
    match s.spanKey d r o need with
    | .error (.xlate c va) => some (c, va)
    | _ => State.spanXlate s d r (o + 1) need n

/-- A translation fault of an access that an instruction makes at its issue (R306): the record COREFAULT, and the strand
parks at the instruction, or waits while the die has no place for the record (R309). -/
def State.issueFault (s : State) (sid : Nat) (t : Strand) (va : Nat) (acc : Acc) (cause : Nat) : State :=
  let d := dieOf t.core
  if s.recRoom d then
    let (tok, s) := s.wokenRecord d t.asid 15 1 va acc cause t.selfWord t.pc (.core sid)
    s.park sid t (.fault tok)
  else s

/-- What a core-path read at issue that cannot be made does to its strand (R306, R314, R319). -/
def State.spanFail (s : State) (sid : Nat) (t : Strand) (e : SpanErr) : State :=
  match e with
  | .xlate c va => s.issueFault sid t va accR c
  | .peer c => s.trap sid t .peerlost (peerLostVal c)
  | .bad k => s.consume t.core k

/-- A read of `n` bytes that an instruction makes at issue, after every earlier core-path operation of its strand, once a link leads
to their packages (R336). -/
def State.readAtIssue (s0 s : State) (t : Strand) (r : Region) (o n : Nat) (f : State → List Byte → State) : State :=
  if !t.ops.isEmpty || !s.allUp (dieOf t.core) r o n accR then s0
  else
    match s.readSpan (dieOf t.core) r o n with
    | .error e => s0.spanFail s0.cur t e
    | .ok (b, s) => f s b

end Sys2Proof.Machine
end

