-- ==== Sys2Proof/Machine/Place.lean ====
section
/-! DEFINITION. Placing a group on a rectangle: what fits (R226), what is allotted (R127, R161, R190), and how its strands
begin (R79, R117, R228). Group placement, the dispatcher of task records and the resume of a skein use it. -/

namespace Sys2Proof.Machine

/-- What a group asks of a rectangle (R223, R226). -/
structure Need where
  w : Nat := 1
  h : Nat := 1
  s : Nat := 1
  nbank : Nat := 0
  nbar : Nat := 0
  nacc : Nat := 0
  clw : Nat := 0
  chw : Nat := 0
  cls : Nat := 0
  frac : Nat := 0
  paired : Bool := false
  /-- slots of strands with a PRIO above this one count as free: they may be pre-empted (R67) -/
  pre : Option Nat := none
  deriving DecidableEq, Repr

/-- What is allotted: the lower-left core, the first bank, the barrier indices, the first unit of the cluster window and
of the chip window. -/
structure Allot where
  core0 : Nat
  bank0 : Nat
  bars : List Nat
  cl0 : Nat
  ch0 : Nat
  deriving DecidableEq, Repr

/-- The cores of a rectangle, and of its partner (R18, R226). -/
def rectCores (core0 w h : Nat) (paired : Bool) : List Nat :=
  let l := (List.range (w * h)).map fun c => core0 + c % w + 16 * (c / w)
  if paired then l ++ l.map fun c => c + 8 else l

/-- The number of contexts a core may hold (R65). While CTXN stands at its reset value 0, no area is set up and the limit
is the largest. -/
def Core.ctxLimit (k : Core) : Nat := if k.ctxn = 0 then 4096 else k.ctxn.toNat

/-- The lowest context number not in use, from `n` on, among `fuel` numbers. -/
def freeFrom (used : List Nat) (n : Nat) : Nat → Option Nat
  | 0 => none
  | fuel + 1 => if used.contains n then freeFrom used (n + 1) fuel else some n

/-- A free context number of a core (R65). -/
def Core.freeCtx (k : Core) : Option Nat := freeFrom k.ctxUsed 0 k.ctxLimit

/-- The slots of a core that are FREE. -/
def Core.freeSlots (k : Core) : List Nat := (List.range 8).filter fun i => vget k.slots i .free = .free

/-- The groups that are placed. -/
def State.placed (s : State) : List Group := (s.groups.filter fun x => !x.2.ended).map fun x => x.2

/-- Bank `b` of core `c` is held by a group. -/
def State.bankBusy (s : State) (c b : Nat) : Bool :=
  s.placed.any fun g => g.allCores.contains c && decide (g.bank0 ≤ b) && decide (b < g.bank0 + g.nbank)

/-- The lowest free run of `n` banks among banks 1 to 6 on every core (R127). -/
def State.bankRun (s : State) (cores : List Nat) (n : Nat) : Option Nat :=
  if n = 0 then some 1
  else (List.range (8 - n)).find? fun b =>
    decide (1 ≤ b) && (List.range n).all fun j => cores.all fun c => !s.bankBusy c (b + j)

/-- The lowest place of `n` units in a space of `size` units, clear of some ranges. -/
def firstFit (size n : Nat) (used : List (Nat × Nat)) : Option Nat :=
  if n = 0 then some 0
  else (List.range (size + 1 - n)).find? fun o => used.all fun u => decide (o + n ≤ u.1) || decide (u.1 + u.2 ≤ o)

/-- The clusters of a list of cores. -/
def clustersOf (cores : List Nat) : List Nat := (cores.map clusterOf).eraseDups

/-- A place for a cluster window (R127): 4 KiB units of 128, on every cluster named. -/
def State.clusterFit (s : State) (cls : List Nat) (n : Nat) : Option Nat :=
  firstFit 128 n ((s.placed.filter fun g => (clustersOf g.allCores).any fun c => cls.contains c).map fun g => (g.cl0, g.clw))

/-- A place for a chip-scratchpad window (R127): 256 KiB units of 128 on the die. -/
def State.chipFit (s : State) (d n : Nat) : Option Nat :=
  firstFit 128 n ((s.placed.filter fun g => decide (dieOf g.core0 = d)).map fun g => (g.ch0, g.chw))

/-- The entries of a class in the slot table (R60). -/
def Core.classEntries (k : Core) (cls : Nat) : Nat :=
  ((List.range 32).filter fun i => decide (bits k.slottab0 (2 * i) 2 = cls)).length
    + ((List.range 32).filter fun i => decide (bits k.slottab1 (2 * i) 2 = cls)).length

/-- A strand may be pre-empted for a launch of priority `p` (R67, R214). -/
def Strand.victimFor (t : Strand) (p : Nat) : Bool :=
  t.choosable && decide (t.prioP.toNat > p)

/-- The slots of a core that are in SWAP on the way out. -/
def Core.leaving (k : Core) : List Nat := (List.range 8).filter fun i =>
  match vget k.slots i .free with
  | .swap _ => true
  | _ => false

/-- The strands of a core that may be pre-empted for a launch of priority `p`. -/
def State.victims (s : State) (c p : Nat) : List (Nat × Strand) := (s.liveOn c).filter fun x => x.2.victimFor p

/-- A core can take its part of a group as far as slots, contexts, accumulators and slot table go (R226). -/
def State.coreFits (s : State) (c : Nat) (n : Need) : Bool :=
  let k := s.core c
  !k.sealed && decide (k.freeSlots.length + (match n.pre with
    | some p => (s.victims c p).length + k.leaving.length
    | none => 0) ≥ n.s) && decide ((k.ctxUsed.filter fun m => decide (m < k.ctxLimit)).length + n.s ≤ k.ctxLimit) &&
    decide ((k.accs.toList.filter fun a => a.held.isNone).length ≥ n.nacc) && (decide (n.frac = 0) || decide (k.classEntries n.cls ≥ n.frac))

/-- The barrier indices free on every core: the lowest `n` (R161). -/
def State.freeBars (s : State) (cores : List Nat) (n : Nat) : Option (List Nat) :=
  let l := (List.range 4).filter fun i => cores.all fun c => (vget (s.core c).bars i {}).held.isNone
  if n ≤ l.length then some (l.take n) else none

/-- Whether a group fits on the rectangle from a lower-left core, and what it would hold (R226). -/
def State.fits (s : State) (core0 : Nat) (n : Need) : Option Allot :=
  let x := core0 % 16
  let y := core0 % 256 / 16
  let cores := rectCores core0 n.w n.h n.paired
  if x + n.w > (if n.paired then 8 else 16) ∨ y + n.h > 16 then none
  else if (s.die (dieOf core0)).parked then none
  else if !cores.all fun c => s.coreFits c n then none
  else if n.clw > 0 ∧ (clustersOf (rectCores core0 n.w n.h false)).length > 1 then none
  else
    match s.bankRun cores n.nbank, s.freeBars cores n.nbar, s.clusterFit (clustersOf cores) n.clw,
        s.chipFit (dieOf core0) n.chw with
    | some b, some bars, some cl, some ch => some { core0, bank0 := b, bars, cl0 := cl, ch0 := ch }
    | _, _, _, _ => none

/-- The occupied slots of a core. -/
def State.occupied (s : State) (c : Nat) : Nat := 8 - (s.core c).freeSlots.length

/-- The fitting rectangle of a die whose lower-left core has the fewest occupied slots, then the lowest number (R226). -/
def State.placeOn (s : State) (d : Nat) (n : Need) : Option Allot :=
  let l := (List.range 256).filterMap fun c => (s.fits (d * 256 + c) n).map fun a => (s.occupied (d * 256 + c), a)
  (l.foldl (fun (b : Option (Nat × Allot)) x =>
    match b with
    | none => some x
    | some y => if x.1 < y.1 then some x else some y) none).map fun x => x.2

/-- The dies in the order of the placer from die `i` of its package (R226). -/
def dieOrder (i : Nat) : List Nat := (List.range 8).map fun j => i / 8 * 8 + (i + j) % 8

/-- The first die, in order, with a fitting rectangle (R226). -/
def State.findPlace (s : State) (i : Nat) (n : Need) : Option Allot :=
  (dieOrder i).foldl (fun b d => b.orElse fun _ => s.placeOn d n) none

/-- The bank format of BFMT for the `j`-th bank of the run (R223): SL and FMT. -/
def footFmt (foot : Word) (j : Nat) : BitVec 5 :=
  BitVec.ofNat 5 (bits foot (35 + 4 * j) 3 + 16 * bits foot (38 + 4 * j) 1)

/-- Sets the memory of an allotment to 0 and empty (R122, R127). -/
def State.clearAllot (s : State) (cores : List Nat) (a : Allot) (n : Need) : State :=
  let s := cores.foldl (fun s c => s.clearRange (scratchKey c (0x8000 * a.bank0)) (0x8000 * n.nbank)) s
  let s := if n.clw = 0 then s else
    (clustersOf cores).foldl (fun s cl => (List.range 16).foldl (fun s i =>
      s.clearRange (scratchKey (clusterCore cl i) (0x38000 + 256 * a.cl0)) (256 * n.clw)) s) s
  if n.chw = 0 then s else s.clearRange (chipKey (dieOf a.core0) (2 ^ 18 * a.ch0)) (2 ^ 18 * n.chw)

/-- Marks the lowest `n` free accumulators as held, cleared (R190). -/
def takeAccs (g : Nat) : List Accum → Nat → List Accum
  | [], _ => []
  | a :: t, n =>
    match n, a.held with
    | k + 1, none => { held := some g } :: takeAccs g t k
    | n, _ => a :: takeAccs g t n

/-- What a core holds for a new group: bank formats, barrier registers, accumulators (R127, R161, R190). -/
def Core.take (k : Core) (g : Nat) (a : Allot) (n : Need) (foot : Word) : Core :=
  { k with
    bfmt := (List.range n.nbank).foldl (fun v j => vset v (a.bank0 + j) (footFmt foot j)) k.bfmt
    bars := a.bars.foldl (fun v i => vset v i
      { held := some g, x0 := 0, y0 := 0, wm1 := BitVec.ofNat 4 (n.w - 1), hm1 := BitVec.ofNat 4 (n.h - 1)
        mask := BitVec.ofNat 8 (2 ^ n.s - 1) : BarReg }) k.bars
    accs := let l := takeAccs g k.accs.toList n.nacc; Vector.ofFn fun i => l[i.val]?.getD {} }

/-- CTL of a handle (R116). -/
def handleCtl (space bound : Nat) (rights : Rights) (efmt : Nat := 0) : Word :=
  BitVec.ofNat 64 (bound + space * 2 ^ 40 + rights.toNat * 2 ^ 43 + efmt * 2 ^ 50)

/-- The target dword of a handle for a die and a core or cluster number (R116). -/
def handleTgt (pkgDie unit : Nat) : Word := BitVec.ofNat 64 (pkgDie * 2 ^ 8 + unit)

/-- h0 of a strand in a slot (R117); its target names the strand's own core (R116). -/
def handle0 (slot core : Nat) : Handle :=
  { base := BitVec.ofNat 64 (0x1000 * slot), ctl := handleCtl 0 0x1000 (rR ||| rW ||| rA) 15
    tgt := handleTgt (dieOf core) (core % 256) }

/-- h1 of a strand: its group's bank run (R117). -/
def handle1 (bank0 nbank core : Nat) : Handle :=
  if nbank = 0 then {}
  else { base := BitVec.ofNat 64 (0x8000 * bank0), ctl := handleCtl 1 (0x8000 * nbank) (rR ||| rW ||| rA)
         tgt := handleTgt (dieOf core) (core % 256) }

/-- h2 of a strand: its group's cluster window (R117). -/
def handle2 (cl0 clw core : Nat) : Handle :=
  if clw = 0 then {}
  else { base := BitVec.ofNat 64 (4096 * cl0), ctl := handleCtl 2 (4096 * clw) (rR ||| rW ||| rA)
         tgt := handleTgt (dieOf core) (clusterOf core % 16) }

/-- h3 of a strand: its group's chip-scratchpad window (R117). -/
def handle3 (ch0 chw core : Nat) : Handle :=
  if chw = 0 then {}
  else { base := BitVec.ofNat 64 (2 ^ 18 * ch0), ctl := handleCtl 3 (2 ^ 18 * chw) (rR ||| rW ||| rA)
         tgt := handleTgt (dieOf core) 0 }

/-- The handle table at a strand's start (R117): h0 to h3, and the list from h4 on. -/
def startHandles (g : Group) (core slot : Nat) (l : List Handle) : Vector Handle 32 :=
  vec32 ([handle0 slot core, handle1 g.bank0 g.nbank core, handle2 g.cl0 g.clw core, handle3 g.ch0 g.chw core] ++ l.take 28) {}

/-- A set of 32 registers, 0 but for those listed. -/
def regSet (l : List (Nat × Word)) : Vector Word 32 := l.foldl (fun v x => vset v x.1 x.2) (Vector.replicate 32 0)

/-- The staged engine registers at their reset values (R173, R192, R218, R242, R263, R337). -/
def Strand.resetStaged (t : Strand) : Strand :=
  { t with
    cp := regSet [(5, 1), (9, 1), (10, 1), (11, 1), (12, 1), (13, 1), (14, 1), (15, 1)]
    cpSlot := false
    mx := regSet [(1, 0x7F), (2, 0xFFFFFFFF), (5, 1), (9, 1)]
    wk := regSet [(3, 1), (6, 1), (12, 0xFF), (13, 1), (14, bit63), (15, 0xFFFFFFFF)]
    dx := regSet [(1, 1), (6, 1), (12, 1), (13, bit63)]
    pl := regSet [(1, 0x10000), (2, 4), (6, 1), (7, bit63)]
    cl := regSet [(4, 1), (6, 1), (8, 1), (9, bit63)] }

/-- The g registers at a strand's start (R79). -/
def startRegs (wid a0 a1 a2 a3 : Word) : Vector Word 32 :=
  regSet [(1, wid), (4, a0), (5, a1), (6, a2), (7, a3), (30, 0x1000)]

/-- Gives a new strand a slot and a context number of a core; the slot holds it from now on. -/
def State.seat (s : State) (c : Nat) (t : Strand) : Nat × State :=
  let (sid, s) := s.fresh
  let k := s.core c
  let slot := k.freeSlot.getD 0
  let ctx := k.freeCtx.getD 0
  let s := s.modCore c fun x => { x with slots := vset x.slots slot (.coming sid), ctxUsed := keyInsert ctx x.ctxUsed }
  (sid, s.setStrand sid { t with loc := .transit c slot, ctx, slot0 := slot })

/-- The group takes what it was allotted, on every core (R127). -/
def State.takeGroup (s : State) (g : Nat) (x : Group) (a : Allot) (n : Need) (foot : Word) : State :=
  let s := { s with groups := Tab.set s.groups g x }
  let cores := x.allCores
  let s := s.clearAllot cores a n
  cores.foldl (fun s c => s.modCore c fun k => k.take g a n foot) s

/-- Takes the ports that a QBIND value binds for the strand's group (R87, R228); a field whose port another group owns
stays unbound, and every other is as given. -/
def State.presetPorts (s : State) (c g : Nat) (q : BitVec 32) : BitVec 32 × State :=
  (List.range 8).foldl (fun (x : BitVec 32 × State) i =>
    let f := qField q i
    if !qBound f then x
    else
      match (vget (x.2.core c).ports (qPort f) {}).owner with
      | none => (x.1, x.2.modPort c (qPort f) fun y => { y with owner := some g })
      | some o => if o = g then x else (setQField x.1 i 0, x.2)) (q, s)

/-- A placed strand begins (R228): its slice is set to 0 and empty (R122), and its slot is LIVE. Strand `ua`; the strands
of a group that is being restored, and migrating strands, begin by their own events. -/
def execStrandStart (s : State) : Host.Outcome State Fault Refusal :=
  match s.strand? s.ua with
  | none => .next s
  | some t =>
    match t.loc with
    | .transit c k =>
      if vget (s.core c).slots k .free ≠ .coming s.ua || (s.group t.group).restore.isSome || t.mig.isSome then .next s
      else
        let s1 := s.clearRange (scratchKey c (0x1000 * k)) 0x1000
        let s1 := s1.setStrand s.ua { t with loc := .slot c k, lastSlot := k, ready := s.cycle + 1 }
        .next (s1.modCore c fun x => { x with slots := vset x.slots k (.live s.ua) })
    | _ => .next s

end Sys2Proof.Machine
end

