-- ==== Sys2Proof/Machine/Task.lean ====
section
/-! DEFINITION. Task records and queue banks (R142 to R160): `spawn`, `spawnd`, `tqpush`, `tqpop`, `quit`, `yield`, the
bank with its overflow ring, and the dispatcher. -/

namespace Sys2Proof.Machine

/-! ### Records (R142) -/

/-- The fields of CTL (R142). -/
def taskCtlFields : Word := 0xFFFFF807FFFFBFFF
/-- The fields of LOC (R142). -/
def taskLocFields : Word := 0xFFFFFFFF02FFFF07
/-- A record from its 64 bytes, without the reserved bits of CTL and LOC (R7, R142). -/
def taskOf (b : List Byte) : TaskRec :=
  #v[dwordAt b 0, dwordAt b 1, dwordAt b 2, dwordAt b 3, dwordAt b 4, dwordAt b 5, dwordAt b 6 &&& taskCtlFields,
     dwordAt b 7 &&& taskLocFields]
/-- The 64 bytes of a record. -/
def TaskRec.bytes (r : TaskRec) : List Byte := wordsBytes r.toList
/-- CTL of a record. -/
def TaskRec.ctl (r : TaskRec) : Word := r[6]
/-- LOC of a record. -/
def TaskRec.loc (r : TaskRec) : Word := r[7]
/-- KIND of a record: 0 STRAND, 1 SOFT, 2 WAKE. -/
def TaskRec.kind (r : TaskRec) : Nat := bits r.ctl 32 3
/-- PRIO of a record. -/
def TaskRec.prio (r : TaskRec) : Nat := bits r.ctl 12 2
/-- ASID of a record. -/
def TaskRec.asid (r : TaskRec) : BitVec 12 := r.ctl.setWidth 12
/-- ANY of a record. -/
def TaskRec.any (r : TaskRec) : Bool := r.loc.getLsbD 25
/-- The target core of a record. -/
def TaskRec.core (r : TaskRec) : Nat := locCore r.loc
/-- Replaces LOC. -/
def TaskRec.setLoc (r : TaskRec) (w : Word) : TaskRec := vset r 7 w
/-- Replaces CTL. -/
def TaskRec.setCtl (r : TaskRec) (w : Word) : TaskRec := vset r 6 w

/-- The marks of the inserting strand (R143): ASID, and a PRIO no more urgent than its PRIO.P. -/
def TaskRec.mark (r : TaskRec) (t : Strand) : TaskRec :=
  let p := Nat.max r.prio t.prioP.toNat
  r.setCtl (putBits (putBits r.ctl 0 12 t.asid.toNat) 12 2 p)

/-- A record that a bank refuses with BADREC (R143). -/
def TaskRec.bad (r : TaskRec) : Bool :=
  decide (r.kind ≥ 3) ||
    (decide (r.kind = 0) && (decide (bits r.ctl 45 3 = 7) || decide (bits r.ctl 48 8 > 128) || decide (bits r.ctl 56 8 > 128)
      || decide (bits r[0] 0 2 ≠ 0)))

/-- The footprint that a STRAND record asks for (R127, R142). -/
def TaskRec.need (r : TaskRec) : Need :=
  { nbank := bits r.ctl 45 3, clw := bits r.ctl 48 8, chw := bits r.ctl 56 8, cls := bits r.ctl 43 2 }

/-- The package belongs to the load-store domain (R11, R336): the package itself, or one that ROUTE gives a link for. -/
def State.inDomain (s : State) (pkg : Nat) : Bool :=
  decide (pkg = s.pkg.toNat) || decide (vget s.route pkg 0xFF ≠ 0xFF)

/-! ### Issue (R153 to R156) -/

/-- The read of a record at `h0 + g(A)` at issue (R153): the checks of R118 with size 64, and the alignment of the offset. -/
def recordCheck (t : Strand) (o : Word) (need : Rights) : Option (Cause × Word) :=
  firstFail [accessCheck (t.regionAt 0) 0 o 64 need .plain, if o.toNat % 64 ≠ 0 then some (.align, o) else none]

/-- Sends a record off: it is pending on ST until the bank or the target core replies. It carries the ASID and the PRIO.P that the
strand has at issue, a WAKE record too (R143, R148; the model's choice, log entry 66). -/
def State.sendRecord (s : State) (t : Strand) (d : GReg) (r : TaskRec) (own : Option Nat) : State :=
  let (s, t, dest) := s.lateDest t d
  s.enqueue s.cur t [.st] (.push (r.mark t) own) dest

/-- LOC of a record sent to a target word: the fields of bits [25:0], the reserved ones clear (R153). -/
def targetLoc (loc w : Word) : Word := putBits loc 0 26 (w &&& 0x2FFFF07).toNat

/-- `spawn` (R153). -/
def execSpawn (d a b : GReg) (s : State) : Host.Outcome State Fault Refusal :=
  issue (.spawn d a b) s fun s1 t rd =>
    let o := rd a
    match recordCheck t o rR with
    | some (c, v) => s.trap s.cur t c v
    | none =>
      s.readAtIssue s1 t (t.regionAt 0) o.toNat 64 fun s1 bs =>
        let r := taskOf bs
        s1.sendRecord t d (r.setLoc (targetLoc r.loc (rd b))) none

/-- The core that owns the byte of a `spawnd` descriptor (R154), or the translation fault of a global address. -/
def State.ownerCore (s : State) (t : Strand) (r : Region) (o : Nat) : Except SpanErr (Nat × State) :=
  if r.space = 4 then
    match s.translate (dieOf t.core) r.asid (r.base + o) accR with
    | .error c => .error (.xlate c (r.base + o))
    | .ok (pa, s) => .ok (sliceCore (pa / 2 ^ 44) (homeSlice r.asid (r.base + o)), s)
  else if r.space = 2 then .ok (clusterCore r.unit ((r.base + o) / 256 % 16), s)
  else if r.space = 3 then .ok (sliceCore r.unit ((r.base + o) / 4096 % 64), s)
  else if r.space = 5 then .ok (r.unit, s)
  else .ok (t.homeCore, s)

/-- `spawnd` (R154): the target is the core that owns the byte at a descriptor. -/
def execSpawnd (d a b : GReg) (s : State) : Host.Outcome State Fault Refusal :=
  issue (.spawnd d a b) s fun s1 t rd =>
    let n := bits (rd b) 40 5
    let x : Word := (rd b) &&& 0xFFFFFFFFFF
    let r := t.regionAt n
    let o := rd a
    match firstFail [accessCheck r n x 1 rR .plain, recordCheck t o rR] with
    | some (c, v) => s.trap s.cur t c v
    | none =>
      if !t.ops.isEmpty then s
      else
        match s1.ownerCore t r x.toNat with
        | .error e => s.spanFail s.cur t e
        | .ok (core, s2) =>
          s.readAtIssue s2 t (t.regionAt 0) o.toNat 64 fun s2 bs =>
            let rc := taskOf bs
            let w := locWord core (bits rc.loc 0 3) ||| (if (rd b).getLsbD 45 then 0x2000000 else 0)
            s2.sendRecord t d (rc.setLoc (targetLoc rc.loc w)) none

/-- `tqpush` (R155): LOC is kept as written; the bank is that of the strand's own cluster. -/
def execTqpush (d a : GReg) (s : State) : Host.Outcome State Fault Refusal :=
  issue (.tqpush d a) s fun s1 t rd =>
    let o := rd a
    match recordCheck t o rR with
    | some (c, v) => s.trap s.cur t c v
    | none =>
      s.readAtIssue s1 t (t.regionAt 0) o.toNat 64 fun s1 bs =>
        s1.sendRecord t d (taskOf bs) (some (clusterOf t.homeCore))

/-- `tqpop` (R156). -/
def execTqpop (d a : GReg) (s : State) : Host.Outcome State Fault Refusal :=
  issue (.tqpop d a) s fun s1 t rd =>
    let o := rd a
    match recordCheck t o rW with
    | some (c, v) => s.trap s.cur t c v
    | none =>
      let (s2, t, dest) := s1.lateDest t d
      s2.enqueue s.cur t [.ld] (.pop t.homeCore (t.regionAt 0) o.toNat) dest

/-! ### The bank (R143, R144, R149, R150) -/

/-- The capacity of a bank (R144). -/
def bankPlaces : Nat := 4096

/-- The virtual address of a sub-ring's header (R150). -/
def Cluster.ringHdr (x : Cluster) (p : Nat) : Nat := x.qring.toNat + 16 * p
/-- The virtual address of place `i` of a sub-ring (R150). -/
def Cluster.ringPlace (x : Cluster) (p i : Nat) : Nat := x.qring.toNat + 0x40 + 64 * (p * x.qrlim.toNat + i)
/-- The die of a cluster, at whose slices its ring is translated (R302). -/
def dieOfCluster (cl : Nat) : Nat := cl / 16
/-- HEAD and COUNT of a sub-ring of a cluster, as memory has them (R150). -/
def State.subring (s : State) (cl p : Nat) : Nat × Nat :=
  let x := s.cluster cl
  let w := s.dwordOn (dieOfCluster cl) (x.ringHdr p)
  (bits w 0 32, if x.qrlim = 0 then 0 else bits w 32 32)
/-- Writes HEAD and COUNT. -/
def State.putSubring (s : State) (cl p head count : Nat) : State :=
  s.putOn (dieOfCluster cl) ((s.cluster cl).ringHdr p) (bytesOfNat 4 head ++ bytesOfNat 4 count ++ bytesOfNat 8 0)
/-- The headers of a cluster's sub-ring have been read (R304). -/
def State.readHdrs (s : State) (cl : Nat) : State :=
  if (s.cluster cl).qrlim = 0 then s else s.touch (dieOfCluster cl) (s.cluster cl).qring.toNat 0x40

/-- The bank's reply to the head operation of a strand. -/
def State.bankReply (s : State) (sid : Nat) (o : CoreOp) (status : Nat) : State :=
  s.opReply sid o .bank [(o.dest, BitVec.ofNat 64 status)]

/-- The status that refuses a record before it reaches a bank or a target core, if one does (R152, R153, R155). -/
def State.refusal? (s : State) (r : TaskRec) (own : Option Nat) : Option Nat :=
  let core := r.core
  let far := match own with
    | none => !s.inDomain (core / 2048)
    | some cl => decide (clusterOf core ≠ cl) && (!r.any || decide (r.kind = 2))
  if far then some 3
  else if r.bad then some 5
  else if (s.core core).sealed && (!r.any || decide (r.kind = 2)) then some 2
  else none

/-- The bank of a cluster answers an insertion, which is stalled no longer (R149, R152). -/
def State.inserted (s : State) (sid : Nat) (o : CoreOp) (cl status : Nat) : State :=
  (s.modCluster cl fun y => { y with stalled := keyErase o.sn y.stalled, fulls := keyErase o.sn y.fulls }).bankReply sid o status

/-- A record enters the bank of a cluster, or its sub-ring (R143, R149), or has to stall. -/
def State.insertRecord (s : State) (sid : Nat) (o : CoreOp) (cl : Nat) (r : TaskRec) : State :=
  let x := s.cluster cl
  let n := x.nextSeq
  let r := r.setLoc (putBits r.loc 32 32 n)
  let p := r.prio
  let (head, count) := s.subring cl p
  if x.fulls.contains o.sn then s.inserted sid o cl 1
  else if count > 0 then
    if count < x.qrlim.toNat then
      let s := s.putOn (dieOfCluster cl) (x.ringPlace p ((head + count) % x.qrlim.toNat)) r.bytes
      let s := s.putSubring cl p head (count + 1)
      (s.modCluster cl fun y => { y with nextSeq := n + 1 }).inserted sid o cl 0
    else (s.readHdrs cl).inserted sid o cl 1
  else if x.bank.length < bankPlaces then
    let (id, s) := (s.readHdrs cl).fresh
    (s.modCluster cl fun y => { y with bank := y.bank ++ [{ task := r, id }], nextSeq := n + 1 }).inserted sid o cl 0
  else s.modCluster cl fun y => { y with spill := .spill, stalled := keyInsert o.sn y.stalled }

/-- A task record reaches its bank (R143, R144, R149): the oldest operation of strand `ua`. A full bank stalls the
insertion and starts the spill engine. A record waits while no link leads to its package (R336). -/
def execTaskRecordInsert (s : State) : Host.Outcome State Fault Refusal :=
  match s.strand? s.ua with
  | none => .next s
  | some t =>
    match t.ops with
    | o :: _ =>
      match o.kind with
      | .push r own =>
        if r.kind = 2 || t.opFault.isSome || t.pair then .next s
        else
          match s.refusal? r own with
          | some st => .next (s.inserted s.ua o (own.getD (clusterOf r.core)) st)
          | none =>
            if s.pkgUp (r.core / 2048) || own.isSome then .next (s.insertRecord s.ua o (own.getD (clusterOf r.core)) r)
            else .next s
      | _ => .next s
    | [] => .next s

/-- The effect of a wake message on a strand (R148). -/
def State.wakeMessage (s : State) (sid : Nat) : State :=
  match s.strand? sid with
  | none => s
  | some t =>
    match t.loc, t.st with
    | .slot .., .idle => s.setStrand sid { t with st := .run, pc := t.pc + 4, ready := s.cycle + 1 }
    | .slot .., .parked _ => s.wake sid
    | .gone, _ => s
    | _, _ => s.setStrand sid { t with wake := true }

/-- A WAKE record reaches its target core (R148): the oldest operation of strand `ua`. It waits while no link leads there
(R336). -/
def execWakeRecordDelivery (s : State) : Host.Outcome State Fault Refusal :=
  match s.strand? s.ua with
  | none => .next s
  | some t =>
    match t.ops with
    | o :: _ =>
      match o.kind with
      | .push r own =>
        if r.kind ≠ 2 || t.opFault.isSome || t.pair then .next s
        else
          match s.refusal? r own with
          | some st => .next (s.bankReply s.ua o st)
          | none => if !s.pkgUp (r.core / 2048) && own.isNone then .next s else
            let target := match vget (s.core r.core).slots (bits r.loc 0 3) .free with
              | .live i | .swap i | .enter i | .coming i => some i
              | _ => none
            match target.bind fun i => (s.strand? i).map fun u => (i, u) with
            | some (i, u) =>
              if u.asid = r.asid then .next ((s.bankReply s.ua o 0).wakeMessage i)
              else .next (s.bankReply s.ua o 4)
            | none => .next (s.bankReply s.ua o 4)
      | _ => .next s
    | [] => .next s

/-- The best record of a bank among those that satisfy a test: the smallest PRIO, then the oldest (R144). -/
def bestRecord (p : BankRec → Bool) : List BankRec → Option BankRec
  | [] => none
  | r :: t =>
    match bestRecord p t with
    | some b => if p r && decide (r.task.prio ≤ b.task.prio) then some r else some b
    | none => if p r then some r else none

/-- The record that a `tqpop` takes, with the value it returns: for a supervisor strand the oldest orphan first (R321),
then a SOFT record of the strand's ASID for its own core (R144). -/
def State.popChoice (s : State) (t : Strand) (home : Nat) : Option (BankRec × Nat) :=
  let b := (s.cluster (clusterOf home)).bank
  match if t.sup then b.find? fun r => r.orphan else none with
  | some r => some (r, 2)
  | none =>
    (bestRecord (fun r => decide (r.task.kind = 1) && decide (r.task.asid = t.asid) &&
      (r.task.any || decide (r.task.core = home))) b).map fun r => (r, 1)

/-- A `tqpop` reaches its bank (R144, R156, R321): the oldest operation of strand `ua`. The record's bytes are written as raw
stores; while they cannot be, the record stays (R306). -/
def execQueueBankRemoval (s : State) : Host.Outcome State Fault Refusal :=
  match s.strand? s.ua with
  | none => .next s
  | some t =>
    match t.ops with
    | o :: _ =>
      match o.kind with
      | .pop home r off =>
        if t.opFault.isSome || t.pair || !s.allUp (dieOf o.core) r off 64 accW then .next s
        else
          match s.popChoice t home with
          | none => .next (s.bankReply s.ua o 0)
          | some (x, v) =>
            match s.writeSpan (dieOf o.core) r off x.task.bytes with
            | .error _ => .next s
            | .ok s1 =>
              let s1 := s1.modCluster (clusterOf home) fun y => { y with
                bank := if v = 2 then
                    y.bank.map fun z => if z.id = x.id then
                      { z with orphan := false, task := z.task.setLoc (z.task.loc ||| 0x2000000) } else z
                  else y.bank.filter fun z => !(z.id == x.id) }
              .next (s1.bankReply s.ua o v)
      | _ => .next s
    | [] => .next s

/-- The bank's reply reaches the strand (R152). -/
def execTaskBankReply (s : State) : Host.Outcome State Fault Refusal := arriveResult .bank s

/-! ### Spill and refill (R149) -/

/-- The queued records of a level that may be spilled (R147, R149). -/
def spillable (p : Nat) (r : BankRec) : Bool := r.running.isNone && !r.orphan && decide (r.task.prio = p)

/-- The least urgent level with queued records in the bank and room in its sub-ring (R149). -/
def State.spillLevel (s : State) (cl : Nat) : Option Nat :=
  let x := s.cluster cl
  [3, 2, 1, 0].find? fun p => (x.bank.any fun r => spillable p r) && decide ((s.subring cl p).2 < x.qrlim.toNat)

/-- Writes records to consecutive places of a sub-ring from place `i` on. -/
def State.putRing (s : State) (cl p i : Nat) : List BankRec → State
  | [] => s
  | r :: t =>
    let x := s.cluster cl
    State.putRing (s.putOn (dieOfCluster cl) (x.ringPlace p (i % x.qrlim.toNat)) r.task.bytes) cl p (i + 1) t

/-- The spill engine of cluster `ua` moves one batch (R149): the newest bank records of the least urgent level, to the head of
its sub-ring. Where no level can spill, the stalled insertions are to fail with FULL. -/
def execSpill (s : State) : Host.Outcome State Fault Refusal :=
  let x := s.cluster s.ua
  if x.spill ≠ .spill then .next s
  else
    match s.spillLevel s.ua with
    | none =>
      .next ((s.readHdrs s.ua).modCluster s.ua fun y => { y with
        spill := .idle, stalled := [], fulls := y.stalled.foldl (fun l n => keyInsert n l) y.fulls })
    | some p =>
      let (head, count) := s.subring s.ua p
      let l := x.bank.filter fun r => spillable p r
      let n := Nat.min 64 (Nat.min (x.qrlim.toNat - count) l.length)
      let out := l.drop (l.length - n)
      let h := (head + x.qrlim.toNat - n) % x.qrlim.toNat
      let s1 := ((s.readHdrs s.ua).putRing s.ua p h out).putSubring s.ua p h (count + n)
      .next (s1.modCluster s.ua fun y => { y with
        spill := .idle, stalled := [], bank := y.bank.filter fun r => !(out.any fun z => z.id == r.id) })

/-- The most urgent level whose sub-ring holds records. -/
def State.refillLevel (s : State) (cl : Nat) : Option Nat := [0, 1, 2, 3].find? fun p => decide ((s.subring cl p).2 > 0)

/-- A batch is due for refill (R149). -/
def State.refillDue (s : State) (c : Nat) : Bool :=
  decide ((s.cluster c).bank.length < 3840) && (s.refillLevel c).isSome

/-- Reads records from consecutive places of a sub-ring. -/
def State.getRing (s : State) (cl p i : Nat) : Nat → List TaskRec × State
  | 0 => ([], s)
  | n + 1 =>
    let x := s.cluster cl
    let (b, s) := match s.readVirt (dieOfCluster cl) 0 (x.ringPlace p (i % x.qrlim.toNat)) 64 with
      | .ok x => x
      | .error _ => ([], s)
    let (l, s) := State.getRing s cl p (i + 1) n
    (taskOf b :: l, s)

/-- The engine of cluster `ua` moves one batch back into the bank (R149); a record that names a sealed core receives ANY
(R321). -/
def execRefill (s : State) : Host.Outcome State Fault Refusal :=
  let c := s.ua
  let x := s.cluster c
  if x.spill = .spill || !s.refillDue c then .next (if x.spill = .refill then s.modCluster c fun y => { y with spill := .idle } else s)
  else
    match s.refillLevel c with
    | none => .next s
    | some p =>
      let (head, count) := s.subring c p
      let n := Nat.min 64 (Nat.min count (3840 - x.bank.length))
      let (l, s) := (s.readHdrs c).getRing c p head n
      let rs := l.map fun r => if (s.core r.core).sealed then r.setLoc (r.loc ||| 0x2000000) else r
      let s1 := s.putSubring c p ((head + n) % x.qrlim.toNat) (count - n)
      let s1 := { s1 with serial := s1.serial + n }.modCluster c fun y => { y with
        bank := y.bank ++ (indexed 0 rs).map fun (z : Nat × TaskRec) => { task := z.2, id := s1.serial + z.1 : BankRec }, spill := .refill }
      .next (if s1.refillDue c then s1 else s1.modCluster c fun y => { y with spill := .idle })

/-! ### The dispatcher (R144, R146) -/

/-- The handle table that a record names (R142, R146), as a core of die `d` reads it: none where it names none, an error beyond
the area's count. -/
def State.taskHandles (s : State) (d : Nat) (tenant : BitVec 6) (htab : Nat) : Except Unit (List Handle × State) :=
  if htab = 0xFFFF then .ok ([], s)
  else
    match s.desc? (some tenant.toNat) with
    | none => .error ()
    | some a =>
      if htab ≥ bits (s.dwordOn d (a + 0x10)) 0 16 then .error ()
      else
        match (s.touch d (a + 8) 16).readVirt d 0 ((s.dwordOn d (a + 8)).toNat + 1024 * htab) 1024 with
        | .ok (b, s) => .ok (handlesOf b 32, s)
        | .error _ => .error ()

/-- The dispatcher can start a record on a core (R144, R226). -/
def State.canStart (s : State) (c : Nat) (r : BankRec) : Bool := r.targets c && (s.fits c r.task.need).isSome

/-- The group and the strand of a started record (R146). -/
def State.startTask (s : State) (c : Nat) (x : BankRec) (tenant : BitVec 6) (hs : List Handle) : State :=
  let r := x.task
  match s.fits c r.need with
  | none => s
  | some a =>
    let (g, s) := s.fresh
    let prio : BitVec 2 := BitVec.ofNat 2 r.prio
    let grp : Group := { tenant, asid := r.asid, core0 := c, bank0 := a.bank0, nbank := r.need.nbank, cl0 := a.cl0
                         clw := r.need.clw, ch0 := a.ch0, chw := r.need.chw, handles := hs.drop 4
                         cls := BitVec.ofNat 2 r.need.cls, prio, task := true
                         foot := BitVec.ofNat 64 (r.need.nbank * 2 ^ 11 + r.need.clw * 2 ^ 19 + r.need.chw * 2 ^ 27) }
    let s := s.takeGroup g grp a r.need 0
    let slot := (s.core c).freeSlot.getD 0
    let t : Strand := { gr := startRegs r[5] r[1] r[2] r[3] r[4], pc := r[0], prioP := prio, prioBase := prio
                        cls := grp.cls, wid := r[5], asid := r.asid, tenant, group := g
                        handles := startHandles grp c slot (hs.drop 4) }
    let (sid, s) := s.seat c t.resetStaged
    let s := s.modGroup g fun y => { y with strands := [some sid] }
    if r.ctl.getLsbD 15 then
      s.modCluster (clusterOf c) fun y => { y with
        bank := y.bank.map fun z => if z.id = x.id then { z with running := some sid } else z }
    else s.modCluster (clusterOf c) fun y => { y with bank := y.bank.filter fun z => !(z.id == x.id) }

/-- The dispatcher of core `ua` selects a STRAND record and starts it (R146). A record whose handle table lies beyond the
area is discarded with a record TASKBAD (R143), which waits for a place (R309). -/
def execDispatcherStart (s : State) : Host.Outcome State Fault Refusal :=
  let c := s.ua
  match bestRecord (fun r => s.canStart c r) (s.cluster (clusterOf c)).bank with
  | none => .next s
  | some x =>
    let r := x.task
    let tenant := s.asidTenant r.asid
    let htab := bits r.ctl 16 16
    match s.taskHandles (dieOf c) tenant htab with
    | .ok (hs, s) => .next (s.startTask c x tenant hs)
    | .error _ =>
      if s.recRoom (dieOf c) then
        let s1 := s.putRecord (dieOf c) r.asid r[0] (s.recordWord r.asid 15 0 0 0x11) (locWord c 0) (BitVec.ofNat 64 htab)
        .next (s1.modCluster (clusterOf c) fun y => { y with bank := y.bank.filter fun z => !(z.id == x.id) })
      else .next s

/-! ### `quit` and `yield` (R158, R160) -/

/-- `quit` (R158): stalls at issue until the strand's six counters are 0, and ends the strand. -/
def execQuit (s : State) : Host.Outcome State Fault Refusal :=
  issue .quit s fun s1 t _ => if t.outst.isEmpty then (s1.setStrand s.cur t).endStrand s.cur else s

/-- A STRAND record may start on a core once a slot is FREE (R144, R160): its target, its footprint, a context number. -/
def State.mayStart (s : State) (c : Nat) (r : BankRec) : Bool :=
  r.targets c && (s.fits c { r.task.need with s := 0 }).isSome && (s.core c).freeCtx.isSome

/-- `yield` (R160): 1 and a swap-out, with a wake recorded, where a record no less urgent may start on the core, which has no
FREE slot; else 0. A migrated strand asks of the core it runs on (the model's choice, log entry 73). -/
def execYield (d : GReg) (s : State) : Host.Outcome State Fault Refusal :=
  issue (.yield d) s fun s1 t _ =>
    let c := t.core
    if !s1.hasFree c && (s1.cluster (clusterOf c)).bank.any fun r => s1.mayStart c r && decide (r.task.prio ≤ t.prioP.toNat) then
      (s1.finish s.cur { t with wake := true } d 1).requestSwap c t.slot
    else s1.finish s.cur t d 0

end Sys2Proof.Machine
end

