-- ==== Sys2Proof/Machine/Barrier.lean ====
section
/-! DEFINITION. Barriers (R161 to R170): the BAR instructions, arrivals, release, time-out and seal. -/

namespace Sys2Proof.Machine

/-- The barrier status word (R166). -/
def barWord (ph : BitVec 16) (arr st : Nat) : Word := BitVec.ofNat 64 (ph.toNat * 2 ^ 16 + arr * 2 ^ 7 + st)

/-- W × H of a register. -/
def BarReg.size (b : BarReg) : Nat := (b.wm1.toNat + 1) * (b.hm1.toNat + 1)

/-- The sweep S of a rectangle in cycles (R164). -/
def BarReg.sweep (b : BarReg) : Nat :=
  b.wm1.toNat + b.hm1.toNat + (if b.wm1 ≠ 0 ∧ b.hm1 ≠ 0 then 2 else 0)

/-- Register `i` of the strand's home core. -/
def State.barReg (s : State) (t : Strand) (i : BitVec 2) : BarReg := vget (s.core t.homeCore).bars i.toNat {}

/-- Changes a barrier register. -/
def State.modBar (s : State) (c i : Nat) (f : BarReg → BarReg) : State :=
  s.modCore c fun k => { k with bars := vset k.bars i (f (vget k.bars i {})) }

/-- A BAR instruction (R170): an index that the group does not hold gives `unset`; otherwise `f`, with the register. -/
def barIssue (i : Instr) (d : GReg) (b : BitVec 2) (unset : Word) (s : State)
    (f : State → Strand → (GReg → Word) → BarReg → State) : Host.Outcome State Fault Refusal :=
  issue i s fun s1 t rd =>
    let r := s1.barReg t b
    if r.held ≠ some t.group then s1.finish s.cur t d unset else f s1 t rd r

/-- UNSET (R170). -/
def barUnset : Word := barWord 0 0 4

/-- `bset` (R170): sets rectangle and mask, unless an arrival or a wait stands, or the operands are out of bounds. -/
def execBset (d a b : GReg) (i : BitVec 2) (s : State) : Host.Outcome State Fault Refusal :=
  barIssue (.bset d a b i) d i barUnset s fun s1 t rd r =>
    let g := s1.group t.group
    let w := rd a
    let x0 := bits w 0 4
    let y0 := bits w 4 4
    let wm1 := bits w 8 4
    let hm1 := bits w 12 4
    let cx := (t.homeCore - s1.rectCore t 0) % 16
    let cy := (t.homeCore - s1.rectCore t 0) / 16
    if r.arrived ≠ 0 || !r.waits.isEmpty then s1.finish s.cur t d (barWord 0 0 6)
    else if x0 + wm1 ≥ g.w || y0 + hm1 ≥ g.h || cx < x0 || cx > x0 + wm1 || cy < y0 || cy > y0 + hm1 ||
        bits (rd b) 0 8 ≥ 2 ^ g.s then s1.finish s.cur t d (barWord 0 0 5)
    else
      let s2 := s1.modBar t.homeCore i.toNat fun r => { r with
        x0 := w.extractLsb' 0 4, y0 := w.extractLsb' 4 4, wm1 := w.extractLsb' 8 4, hm1 := w.extractLsb' 12 4
        mask := (rd b).setWidth 8, sealed := false }
      s2.finish s.cur t d (barWord r.ph 0 0)

/-- The numbers of the core-path operations that a strand has issued and that are not performed: those on their way, and those
of its sequencer. -/
def Strand.unperformed (t : Strand) : List Nat :=
  (t.ops.map fun o => o.sn) ++ t.taken.toList ++ (t.seq.map SeqItem.sns).flatten

/-- The rank's arrival is marked; it will be recorded in this cycle if the strand's earlier core-path operations have been
performed, and otherwise in the cycle after the last of them is (R164, R169). -/
def State.arriveAt (s : State) (sid : Nat) (t : Strand) (i : Nat) : State × Strand :=
  let s := s.modBar t.homeCore i fun r => { r with arrived := r.arrived ||| BitVec.twoPow 8 t.rank }
  let t := { t with arrivals := t.arrivals ++
    [{ home := t.homeCore, b := i, rank := t.rank, after := t.unperformed, since := s.cycle
       clear := if t.unperformed.isEmpty then some s.cycle else none }] }
  (s.setStrand sid t, t)

/-- `barv` (R170): arrives without waiting; a rank that has arrived parks until the release. -/
def execBarv (d : GReg) (i : BitVec 2) (s : State) : Host.Outcome State Fault Refusal :=
  barIssue (.barv d i) d i barUnset s fun s1 t _ r =>
    if r.sealed then s1.finish s.cur t d (barWord r.ph 0 2)
    else if r.mask.getLsbD t.rank = false then s1.finish s.cur t d (barWord r.ph 0 3)
    else if r.arrived.getLsbD t.rank then s.park s.cur t (.barrier i.toNat)
    else
      let (s2, t) := s1.arriveAt s.cur t i.toNat
      s2.finish s.cur t d (barWord r.ph 0 0)

/-- The pending status of a rank's wait, if its wait has ended (R162). -/
def BarReg.ended? (r : BarReg) (rank : Nat) : Option Word := (Tab.get? r.waits rank).bind fun w => w.status

/-- `bwait` (R170): waits for a phase. -/
def execBwait (d a : GReg) (i : BitVec 2) (s : State) : Host.Outcome State Fault Refusal :=
  barIssue (.bwait d a i) d i barUnset s fun s1 t rd r =>
    let ph : BitVec 16 := (rd a).extractLsb' 16 16
    match r.ended? t.rank with
    | some w =>
      (s1.modBar t.homeCore i.toNat fun r => { r with waits := Tab.erase r.waits t.rank }).finish s.cur t d w
    | none =>
      if r.sealed then s1.finish s.cur t d (barWord ph 0 2)
      else if r.ph ≠ ph then s1.finish s.cur t d (barWord ph r.size 0)
      else
        let s2 := s.modBar t.homeCore i.toNat fun r => { r with
          waits := Tab.set r.waits t.rank { ph := r.ph, tmo := r.tmo, at_ := s.cycle, status := none } }
        s2.park s.cur t (.barrier i.toNat)

/-- `barw` (R170): arrives and waits for the phase arrived in; executed again, it finds the pending status. -/
def execBarw (d : GReg) (i : BitVec 2) (s : State) : Host.Outcome State Fault Refusal :=
  barIssue (.barw d i) d i barUnset s fun s1 t _ r =>
    match r.ended? t.rank with
    | some w =>
      (s1.modBar t.homeCore i.toNat fun r => { r with waits := Tab.erase r.waits t.rank }).finish s.cur t d w
    | none =>
      if r.sealed then s1.finish s.cur t d (barWord r.ph 0 2)
      else if r.mask.getLsbD t.rank = false then s1.finish s.cur t d (barWord r.ph 0 3)
      else if r.arrived.getLsbD t.rank then s.park s.cur t (.barrier i.toNat)
      else
        let (s2, t) := s.arriveAt s.cur t i.toNat
        let s2 := s2.modBar t.homeCore i.toNat fun r => { r with
          waits := Tab.set r.waits t.rank { ph := r.ph, tmo := r.tmo, at_ := s.cycle, status := none } }
        s2.park s.cur t (.barrier i.toNat)

/-- `bto` (R170): g(D) receives the time-out, which is replaced; an index not held gives all ones. -/
def execBto (d a : GReg) (i : BitVec 2) (s : State) : Host.Outcome State Fault Refusal :=
  barIssue (.bto d a i) d i (BitVec.allOnes 64) s fun s1 t rd r =>
    (s1.modBar t.homeCore i.toNat fun r => { r with tmo := (rd a).setWidth 32 }).finish s.cur t d (r.tmo.setWidth 64)

/-- An arrival may be recorded from cycle `n` on, where it waits for none of the operations `l` (R164). -/
def Arrival.clearBy (a : Arrival) (l : List Nat) (n : Nat) : Arrival :=
  if a.clear.isNone && !(a.after.any l.contains) then { a with clear := some n } else a

/-- The oldest arrival of strand `ua` is recorded, in the cycle after the last of the strand's earlier core-path operations is
performed (R164). The group of an ended strand may end with it (R159). -/
def execBarrierArrivalRecord (s : State) : Host.Outcome State Fault Refusal :=
  match s.strand? s.ua with
  | none => .next s
  | some t =>
    match t.arrivals.map fun a => a.clearBy t.unperformed (s.cycle + 1) with
    | a :: rest =>
      if !a.clear.any fun n => decide (n ≤ s.cycle) then .next (s.setStrand s.ua { t with arrivals := a :: rest })
      else
        let s1 := (s.setStrand s.ua { t with arrivals := rest }).modBar a.home a.b fun r => { r with
          recorded := r.recorded ||| BitVec.twoPow 8 a.rank, recAt := s.cycle }
        .next (if t.st = .ended then s1.reapGroup t.group else s1)
    | [] => .next s

/-- The rectangle has been set since the last seal in it (R167): the message of the seal has come to the corner's register, and
a `bset` of that register after it (the model's choice, log entry 27). -/
def BarReg.setAnew (r : BarReg) : Bool := !r.sealDue && !r.sealed

/-- Core `c` is complete in a phase by what has been recorded (R163). A sealed core counts as complete in a rectangle that has
been set since, as its corner's register `r` tells (R167). -/
def State.barComplete (s : State) (r : BarReg) (c i : Nat) : Bool :=
  let b := vget (s.core c).bars i {}
  ((s.core c).sealed && r.setAnew) || decide (b.mask &&& b.recorded = b.mask)

/-- The two registers hold the same rectangle (R168). -/
def BarReg.sameRect (a b : BarReg) : Bool :=
  decide (a.held = b.held) && decide (a.x0 = b.x0) && decide (a.y0 = b.y0) && decide (a.wm1 = b.wm1) && decide (a.hm1 = b.hm1)

/-- The cores of the rectangle of register `i` of core `c`. -/
def State.barRect (s : State) (c i : Nat) : List Nat :=
  let r := vget (s.core c).bars i {}
  match r.held with
  | some g => (s.group g).barCores c r
  | none => []

/-- Core `k` has had its arrivals of the phase recorded for the sweep's time (R165): it is complete, it holds the rectangle
of `corner` (R168), and its record is `S` cycles old. A sealed core counts as complete (R167). -/
def State.barCounted (s : State) (corner : BarReg) (i k : Nat) : Bool :=
  let b := vget (s.core k).bars i {}
  ((s.core k).sealed && corner.setAnew) ||
    (s.barComplete corner k i && b.sameRect corner && decide (b.recAt + corner.sweep ≤ s.cycle))

/-- The register of the corner core (X0, Y0) of the rectangle `cs` of core `c` (R168); where that core is sealed, of the first
that is not. -/
def State.barCorner (s : State) (c : Nat) (cs : List Nat) (i : Nat) : BarReg :=
  vget (s.core ((cs.filter fun k => !(s.core k).sealed).headD c)).bars i {}

/-- The strands parked on a barrier register of a core. -/
def State.parkedBar (s : State) (c i : Nat) : List Nat :=
  s.strandsWhere fun _ t => decide (t.st = .parked (.barrier i)) && decide (t.homeCore = c)

/-- The release of the phase of register `i` of core `c` has travelled (R163, R164): every core of the rectangle is complete,
the cores that are left hold the same rectangle (R168), and the last arrival was recorded 2S + 2 cycles ago. -/
def State.releaseDue (s : State) (c i : Nat) : Bool :=
  let cs := s.barRect c i
  let r := s.barCorner c cs i
  let regs := (cs.filter fun k => !(s.core k).sealed).map fun k => vget (s.core k).bars i {}
  let all := (cs.filter fun k => !(s.core k).sealed || !r.setAnew).map fun k => vget (s.core k).bars i {}
  let last := (all.map fun b => b.recAt).foldl Nat.max 0
  !regs.isEmpty && (regs.any fun b => decide (b.recorded ≠ 0)) && (regs.all fun b => b.sameRect r) &&
    (cs.all fun k => s.barComplete r k i) && decide (last + 2 * r.sweep + 2 ≤ s.cycle)

/-- The phase of register `ub` of core `ua` completes (R163, R164). Every core counts the phase, clears its arrivals and ends
the waits of the phase with DONE; the strands that waited may issue in this very cycle. -/
def execBarrierRelease (s : State) : Host.Outcome State Fault Refusal :=
  let c := s.ua
  let i := s.ub
  if !s.releaseDue c i then .next s
  else
    let cs := s.barRect c i
    let s1 := cs.foldl (fun s k => s.modBar k i fun b => { b with
      ph := b.ph + 1, arrived := 0, recorded := 0
      waits := b.waits.map fun (w : Nat × WaitRec) =>
        if w.2.status.isNone && w.2.ph = b.ph then (w.1, { w.2 with status := some (barWord b.ph b.size 0) }) else w }) s
    .next ((cs.map fun k => s.parkedBar k i).flatten.foldl (fun s j => s.wakeFrom s.cycle j) s1)

/-- The wait of strand `ua` times out (R165): TMO has passed since its park, and no other end has come, nor comes now: a
release that is due, and a seal whose message is on its way, go first. The strand may issue from the next cycle, as R62 gives (the
model's choice, log entry 27). Its ARR counts the complete cores recorded at least S cycles earlier. -/
def execBarrierTimeout (s : State) : Host.Outcome State Fault Refusal :=
  match s.strand? s.ua with
  | none => .next s
  | some t =>
    match t.st with
    | .parked (.barrier i) =>
      let c := t.homeCore
      let r := vget (s.core c).bars i {}
      match Tab.get? r.waits t.rank with
      | none => .next s
      | some w =>
        if w.status.isSome || w.tmo = 0 || s.cycle < w.at_ + w.tmo.toNat || r.sealDue || s.releaseDue c i then .next s
        else
          let cs := s.barRect c i
          let n := (cs.filter (s.barCounted (s.barCorner c cs i) i)).length
          let s1 := s.modBar c i fun b => { b with
            waits := Tab.set b.waits t.rank { w with status := some (barWord w.ph n 1) } }
          .next (s1.wake s.ua)
    | _ => .next s

/-- The message of a seal reaches register `ub` of core `ua` (R167): its waits end with SEALED. -/
def execBarrierSeal (s : State) : Host.Outcome State Fault Refusal :=
  let c := s.ua
  let i := s.ub
  let r := vget (s.core c).bars i {}
  if !r.sealDue then .next s
  else
    let s1 := s.modBar c i fun b => { b with
      sealed := true, sealDue := false
      waits := b.waits.map fun (w : Nat × WaitRec) =>
        if w.2.status.isNone then (w.1, { w.2 with status := some (barWord w.2.ph 0 2) }) else w }
    .next ((s.parkedBar c i).foldl (fun s j => s.wake j) s1)

end Sys2Proof.Machine
end

