-- ==== Sys2Proof/Machine/Handle.lean ====
section
/-! DEFINITION. The handle instructions (R124). -/

namespace Sys2Proof.Machine

/-- Replaces a handle of a strand. -/
def Strand.setHandle (t : Strand) (i : Nat) (h : Handle) : Strand := { t with handles := vset t.handles i h }

/-- What `hsub` makes of a source handle with an offset and a descriptor (R124): the new entry, or the trap. `rect` gives the
core of an index of the group's rectangle, if it has one. -/
def subHandle (src : Handle) (off d : Word) (rect : Nat → Option Nat) : Except (Cause × Word) Handle :=
  if src.isEmpty then .ok {}
  else
    let len := bits d 0 40
    if off.toNat ≥ 2 ^ 40 ∨ off.toNat + len > src.bound then .error (.bound, off)
    else
      let ctl := putBits src.ctl 0 40 len
      let ctl := putBits ctl 43 5 ((src.rights &&& d.extractLsb' 43 5).toNat)
      let ctl := if d.getLsbD 63 then putBits ctl 48 2 (bits d 61 2) else ctl
      let h : Handle := { src with base := src.base + off, ctl }
      if d.getLsbD 56 then
        if src.space ≠ 1 ∧ src.space ≠ 5 then .error (.space, off)
        else
          match rect (bits d 48 8) with
          | none => .error (.bound, off)
          | some c => .ok { h with ctl := putBits ctl 40 3 5, tgt := putBits (putBits src.tgt 0 8 (c % 256)) 8 8 (c / 256) }
      else .ok h

/-- `hsub` (R124). -/
def execHsub (d a : HReg) (b : BitVec 4) (s : State) : Host.Outcome State Fault Refusal :=
  issue (.hsub d a b) s fun s1 t rd =>
    let lo : GReg := b.setWidth 5 <<< 1
    let g := s1.group t.group
    match subHandle (t.handle a.toNat) (rd lo) (rd (lo ||| 1))
        (fun c => if c < g.w * g.h then some (s1.rectCore t c) else none) with
    | .error (c, v) => s.trap s.cur t c v
    | .ok h => s1.setStrand s.cur (t.advance.setHandle d.toNat h)

/-- A dword of a handle entry (R124). -/
def Handle.dword (h : Handle) (i : Nat) : Word :=
  match i with
  | 0 => h.base
  | 1 => h.ctl
  | 2 => h.tgt
  | _ => 0

/-- A handle of a strand as its entry reads (R116, R258): the table holds the home meaning, and while the strand is migrated a
handle of strand space names its slice in the target slot, and one of core space its home banks as peer space. -/
def Strand.shown (t : Strand) (h : Handle) : Handle :=
  match t.home with
  | none => h
  | some (c, _) =>
    if h.isEmpty then h
    else if h.space = 0 then
      { h with base := h.base + BitVec.ofNat 64 (0x1000 * t.slot) - BitVec.ofNat 64 (0x1000 * t.slot0)
               tgt := handleTgt (dieOf t.core) (t.core % 256) }
    else if h.space = 1 then { h with ctl := putBits h.ctl 40 3 5, tgt := handleTgt (dieOf c) (c % 256) }
    else h

/-- `hrd` (R124): dword g(B)[1:0] of the entry. -/
def execHrd (d : GReg) (a : HReg) (b : GReg) (s : State) : Host.Outcome State Fault Refusal :=
  issue (.hrd d a b) s fun s1 t rd => s1.finish s.cur t d ((t.shown (t.handle a.toNat)).dword (bits (rd b) 0 2))

/-- `hclr` (R124): empties the entry. -/
def execHclr (d : HReg) (s : State) : Host.Outcome State Fault Refusal :=
  issue (.hclr d) s fun s1 t _ => s1.setStrand s.cur (t.advance.setHandle d.toNat {})

end Sys2Proof.Machine
end

