-- ==== Sys2Proof/Machine/Engine.lean ====
section
/-! DEFINITION. What the engines share: the staged registers with `ewr` and `erd` (R33, R172, R173, R192, R218, R242, R263,
R337), element formats of a region (R175, R198), the memory accesses of an engine, and completion words (R134, R176). -/

namespace Sys2Proof.Machine

/-! ### Engine registers -/

/-- The ENGINE trap of engine `e` with a code (R177): TVAL holds the engine in [11:8] and the code in [7:0]. -/
def State.engineTrap (s : State) (t : Strand) (e code : Nat) : State :=
  s.trap s.cur t .engine (BitVec.ofNat 64 (256 * e + code))

/-- The number of an engine (R30). -/
def Eng.code : Eng → Nat
  | .cp => 0
  | .mx => 1
  | .wk => 2
  | .dx => 3
  | .pl => 4
  | .cl => 5

/-- The staged registers of an engine. -/
def Strand.set (t : Strand) (e : Eng) : Vector Word 32 :=
  match e with
  | .cp => t.cp
  | .mx => t.mx
  | .wk => t.wk
  | .dx => t.dx
  | .pl => t.pl
  | .cl => t.cl

/-- Writes a staged register of an engine. -/
def Strand.putSet (t : Strand) (e : Eng) (r : Nat) (v : Word) : Strand :=
  match e with
  | .cp => { t with cp := vset t.cp r v }
  | .mx => { t with mx := vset t.mx r v }
  | .wk => { t with wk := vset t.wk r v }
  | .dx => { t with dx := vset t.dx r v }
  | .pl => { t with pl := vset t.pl r v }
  | .cl => { t with cl := vset t.cl r v }

/-- The first unit of a free run of `n` operand units from unit `u`, among `fuel` places (R194). -/
def unitRun (used : Nat → Bool) (n u : Nat) : Nat → Option Nat
  | 0 => none
  | fuel + 1 =>
    if u + n ≤ 128 ∧ (List.range n).all fun j => !used (u + j) then some u else unitRun used n (u + 1) fuel

/-- An operand unit is claimed (R187). -/
def Core.unitUsed (k : Core) (u : Nat) : Bool := k.opslots.any fun x => decide (x.1 ≤ u) && decide (u < x.1 + x.2.units)

/-- A slot that group `g` holds (R187). -/
def Core.slotOf (k : Core) (g n : Nat) : Option OpSlot := (Tab.get? k.opslots n).filter fun x => x.group = g

/-- The longest free run of operand units (R192). -/
def Core.longestRun (k : Core) : Nat :=
  (List.range 129).foldl (fun m n => if n = 0 then m else if (unitRun k.unitUsed n 0 128).isSome then n else m) 0

/-- The engine error word (R200). -/
def Core.errWord (k : Core) : Word :=
  BitVec.ofNat 64 ((if (vget k.accs 1 {}).err then 2 ^ 11 else 0) + (if (vget k.accs 0 {}).err then 2 ^ 10 else 0)
    + (if k.errScl then 2 ^ 8 else 0) + k.errCnt.toNat)

/-- `mx.ouse` for a group (R192). -/
def Core.ouse (k : Core) (g : Nat) : Word :=
  let free := ((List.range 128).filter fun u => !k.unitUsed u).length
  let held := ((k.opslots.filter fun x => x.2.group = g).map fun x => x.2.units).sum
  let accs := (k.accs.toList.filter fun a => a.held = some g).length
  BitVec.ofNat 64 (free + k.longestRun * 2 ^ 8 + held * 2 ^ 16 + accs * 2 ^ 24)

/-- An override entry as `dx.ohi` reads it (R243): 0 where it is valid under another ASID. -/
def Die.ohi (x : Die) (asid : BitVec 12) (i : Nat) : Word :=
  match Tab.get? x.ovr i with
  | none => 0
  | some o =>
    if o.v && o.asid ≠ asid then 0
    else BitVec.ofNat 64 ((if o.v then 2 ^ 63 else 0) + o.asid.toNat * 2 ^ 48 + o.expert.toNat * 2 ^ 32 + o.layer.toNat)

/-- The value of an engine register that the strand may read. -/
def State.engRead (s : State) (t : Strand) (e : Eng) (r : Nat) : Word :=
  let k := s.core t.core
  let d := s.die (dieOf t.core)
  match e with
  | .cp =>
    if r = 4 then staged t.cp 4 ||| (if t.cpSlot then bit63 else 0)
    else if r ≥ 0x31 then (vget k.bfmt (r - 0x30) 0).setWidth 64
    else staged t.cp r
  | .mx =>
    if r = 4 then
      match k.slotOf t.group (bits (staged t.mx 3) 0 8) with
      | some x => (vget x.scales (bits (staged t.mx 3) 8 5) 0).setWidth 64
      | none => 0
    else if r = 0x0E then k.errWord
    else if r = 0x0F then k.ouse t.group
    else staged t.mx r
  | .wk => staged t.wk r
  | .dx =>
    match r with
    | 0x10 => d.ohi t.asid (bits (staged t.dx 0x0E) 0 8)
    | 0x11 => 0
    | 0x20 => d.xtab
    | 0x21 => d.gown
    | r => staged t.dx r
  | .pl =>
    let g := Tab.getD s.regions (bits (staged t.pl 0x0B) 0 6) {}
    match r with
    | 0x20 => g.rgn
    | 0x21 => g.wb
    | 0x22 => g.wsz
    | 0x23 => g.pol
    | 0x24 => s.plIdle.setWidth 64
    | 0x25 => s.plWin.setWidth 64
    | r => staged t.pl r
  | .cl => staged t.cl r

/-- `mx.scval` while `mx.scsel` names no slot of the group (R192). -/
def State.noScale (s : State) (t : Strand) (e : Eng) (r : Nat) : Bool :=
  decide (e = .mx) && decide (r = 4) && ((s.core t.core).slotOf t.group (bits (staged t.mx 3) 0 8)).isNone

/-- `erd` (R33): g(D) receives the register. -/
def execErd (e : Eng) (r : EngReg) (d : GReg) (s : State) : Host.Outcome State Fault Refusal :=
  supervised (.erd e r d) (engRegSup e r.toNat) s fun s =>
    issue (.erd e r d) s fun s1 t _ =>
      if s1.noScale t e r.toNat then s.engineTrap t 1 8 else s1.finish s.cur t d (s1.engRead t e r.toNat)

/-- `ewr` (R33): the field of the register receives g(A). The supervisor's registers act on the die's engine or on the
distaff (R242, R263). -/
def execEwr (e : Eng) (a : GReg) (r : EngReg) (s : State) : Host.Outcome State Fault Refusal :=
  supervised (.ewr e a r) (engRegSup e r.toNat) s fun s =>
    issue (.ewr e a r) s fun s1 t rd =>
      let n := r.toNat
      let v := rd a &&& engMask e n
      let u := t.advance
      let d := dieOf t.core
      match e with
      | .dx =>
        if n = 0x20 then (s1.modDie d fun x => { x with xtab := v }).setStrand s.cur u
        else if n = 0x21 then (s1.modDie d fun x => { x with gown := v }).setStrand s.cur u
        else s1.setStrand s.cur (u.putSet e n v)
      | .pl =>
        if n = 0x24 then { s1 with plIdle := v.setWidth 48 }.setStrand s.cur u
        else if n = 0x25 then { s1 with plWin := v.setWidth 8 }.setStrand s.cur u
        else s1.setStrand s.cur (u.putSet e n v)
      | _ => s1.setStrand s.cur (u.putSet e n v)

/-- `ewr` to `cp.dh` or `cp.dslot` (R173, R183): the value, and with it the kind of the destination. -/
def execEwrCpDest (r : EngReg) (a : GReg) (s : State) : Host.Outcome State Fault Refusal :=
  issue (.ewrCpDest r a) s fun s1 t rd =>
    let n := r.toNat
    s1.setStrand s.cur { t.advance.putSet .cp n (rd a &&& engMask .cp n) with cpSlot := decide (n = 4) }

/-- A group holds bank `b` of a core (R127). -/
def State.holdsBank (s : State) (g c b : Nat) : Bool :=
  let x := s.group g
  x.allCores.contains c && decide (x.bank0 ≤ b) && decide (b < x.bank0 + x.nbank)

/-- `ewr` to a bank format register (R125, R183): ENGINE 0x006 for a bank that the group does not hold, or a format above
7; otherwise SL and FMT. -/
def execEwrCpBfmt (r : EngReg) (a : GReg) (s : State) : Host.Outcome State Fault Refusal :=
  issue (.ewrCpBfmt r a) s fun s1 t rd =>
    let b := r.toNat - 0x30
    if !s1.holdsBank t.group t.core b || (rd a).getLsbD 3 then s.engineTrap t 0 6
    else
      (s1.modCore t.core fun k => { k with bfmt := vset k.bfmt b ((rd a).setWidth 5) }).setStrand s.cur t.advance

/-- `ewr` to `mx.scsel` (R192): ENGINE 0x108 for a slot that the group does not hold. -/
def execEwrMxScsel (a : GReg) (s : State) : Host.Outcome State Fault Refusal :=
  issue (.ewrMxScsel a) s fun s1 t rd =>
    let v := rd a &&& engMask .mx 3
    if ((s1.core t.core).slotOf t.group (bits v 0 8)).isNone then s.engineTrap t 1 8
    else s1.setStrand s.cur (t.advance.putSet .mx 3 v)

/-- `ewr` to `mx.scval` (R192): the selected scale entry is written, and the index advances modulo 32. -/
def execEwrMxScval (a : GReg) (s : State) : Host.Outcome State Fault Refusal :=
  issue (.ewrMxScval a) s fun s1 t rd =>
    let sel := staged t.mx 3
    let n := bits sel 0 8
    let i := bits sel 8 5
    match (s1.core t.core).slotOf t.group n with
    | none => s.engineTrap t 1 8
    | some x =>
      let s1 := s1.modCore t.core fun k => { k with
        opslots := Tab.set k.opslots n { x with scales := vset x.scales i ((rd a).setWidth 32) } }
      s1.setStrand s.cur (t.advance.putSet .mx 3 (putBits sel 8 5 (i + 1)))

/-! ### Regions as an engine uses them -/

/-- Where a region of a strand lies now: its slice follows the strand to another slot, and lies in the memory context area
while the strand is CACHED or STORED, or on its way in (R67 to R69). A slice is 4 KiB and its base gives its slot. -/
def State.follow (s : State) (sid : Nat) (r : Region) : Region :=
  if r.space ≠ 0 then r
  else
    match s.strand? sid with
    | none => r
    | some t =>
      match t.loc with
      | .slot c k | .swapOut c k => { r with unit := c, base := 0x1000 * k + r.base % 0x1000 }
      | .cached c | .stored c | .swapIn c _ =>
        { r with space := 4, asid := 0, base := (s.core c).ctxAddr t.ctx + 0x1000 + r.base % 0x1000 }
      | _ => r

/-- The bank, 1 to 6, whose format governs a byte at an offset of a region (R175): its core and number. -/
def Region.fmtBank (r : Region) (o : Nat) : Option (Nat × Nat) :=
  if r.space = 1 ∨ r.space = 5 then
    let b := (r.base + o) % 2 ^ 18 / 0x8000
    if 1 ≤ b ∧ b ≤ 6 then some (r.unit, b) else none
  else none

/-- The TY code of FMT of a bank's format register (R125); raw is 15. -/
def bankTy (f : BitVec 5) : Nat :=
  match f.toNat % 8 with
  | 1 => 0
  | 2 => 1
  | 3 => 2
  | 4 => 8
  | 5 => 9
  | 6 => 10
  | 7 => 11
  | _ => 15

/-- The format of an end of a copy, or of a drain, as a TY code, 15 for raw, with SL (R175, R198). -/
def State.endFmt (s : State) (r : Region) (o : Nat) : Nat × Bool :=
  match r.fmtBank o with
  | some (c, b) =>
    let f := vget (s.core c).bfmt b 0
    (bankTy f, f.getLsbD 4)
  | none => (if r.space = 4 then r.efmt.toNat else 15, false)

/-- The checks of R118 on a whole run without an alignment: the CAUSE of R176, or none. -/
def Region.runCheck (r : Region) (o : Word) (n : Nat) (need : Rights) : Option Nat :=
  if need &&& ~~~ r.rights ≠ 0 then some 2
  else if !spaceAllows r.space .plain then some 3
  else if o.toNat ≥ 2 ^ 40 ∨ o.toNat + n > r.bound then some 1
  else none

/-- The check of R118 on a region of bytes whose size is none of the access sizes: rights, space and bound. -/
def regionCheck (r : Region) (h : Nat) (o n : Nat) (need : Rights) : Option (Cause × Word) :=
  let miss := need &&& ~~~ r.rights
  if miss ≠ 0 then some (.rights, BitVec.ofNat 64 (miss.toNat * 256 + h))
  else if !spaceAllows r.space .plain then some (.space, BitVec.ofNat 64 o)
  else if o ≥ 2 ^ 40 ∨ o + n > r.bound then some (.bound, BitVec.ofNat 64 o)
  else none

/-- The bytes of a run that do not lie on a sealed core. -/
def State.engKept (s : State) (d : Nat) (r : Region) (o n : Nat) : Nat :=
  ((List.range n).filter fun j =>
    match s.spanKey d r (o + j) accW with
    | .ok (k, _) => (s.sealedAt (.phys k)).isNone
    | .error _ => false).length

/-! ### Paired mode (R323) -/

/-- Strand `sid` is the east partner of a pair: its merged messages are not forwarded, those of the west partner are. -/
def State.isEast (s : State) (sid : Nat) : Bool :=
  match s.strand? sid with
  | some t => t.pair && t.partner.isSome && decide (t.core % 16 ≥ 8)
  | none => false

/-- What the engines of strand `sid` send to a region is merged with what its partner's send: to global and chip-scratchpad
space, and to the cores of other groups. -/
def State.pairOut (s : State) (sid : Nat) (r : Region) : Bool :=
  match s.strand? sid with
  | some t => t.pair && t.partner.isSome && (decide (r.space = 3) || decide (r.space = 4) || s.foreign t r)
  | none => false

/-- The reads of an engine's step. -/
def PairAct.isRead : PairAct → Bool
  | .read _ => true
  | _ => false

/-- A command of a strand has messages at the router, other than reads of a step that it has yet to make. -/
def State.pairHeld (s : State) (sid sn : Nat) : Bool :=
  s.pairWrites.any fun x => x.sid == sid && x.sn == sn && !x.act.isRead

/-- A message of command `sn` takes its place at the router. -/
def State.pairSend (s : State) (sid sn : Nat) (a : PairAct) : State :=
  { s with pairWrites := s.pairWrites ++ [{ sid, sn, act := a, since := s.cycle }] }

/-- The next step of command `sn` of a strand reads spans of memory, each a region, an offset and a size. Where paired mode merges
some of these reads (R323), the step is not made yet: the reads stand at the router, in the state that is given, and the router has
both partners make the step when it has both copies. -/
def State.askRead (s : State) (sid sn : Nat) (l : List (Region × Nat × Nat)) : Option State :=
  match (l.filter fun y => s.pairOut sid y.1).map fun y => (y.1.addr y.2.1, y.2.2) with
  | [] => none
  | m =>
    some (if s.pairWrites.any fun x => x.sid == sid && x.sn == sn && x.act.isRead then s
      else s.pairSend sid sn (.read m))

/-- A command that ends makes no further step: reads for one are taken back from the router. -/
def State.dropReads (s : State) (sid sn : Nat) : State :=
  if s.pairWrites.any fun x => x.sid == sid && x.sn == sn && x.act.isRead then
    { s with pairWrites := s.pairWrites.filter fun x => !(x.sid == sid && x.sn == sn && x.act.isRead) }
  else s

/-- The keys of a run of bytes from an offset of a region, with the bytes. -/
def State.spanCells (s : State) (d : Nat) (r : Region) (o : Nat) : List Byte → Except SpanErr (List Host.Cell × State)
  | [] => .ok ([], s)
  | b :: t =>
    match s.spanKey d r o accW with
    | .error e => .error e
    | .ok (k, s) =>
      match State.spanCells s d r (o + 1) t with
      | .error e => .error e
      | .ok (l, s) => .ok ((k, b) :: l, s)

/-- A run of bytes goes to the router as one message; a sealed core that it would reach is known at once. -/
def State.pairPut (s : State) (sid sn d : Nat) (r : Region) (o : Nat) (b : List Byte) : Except SpanErr (State × Option Nat) :=
  match s.spanCells d r o b with
  | .error e => .error e
  | .ok (l, s) => .ok (s.pairSend sid sn (.bytes l), l.findSome? fun x => s.sealedAt (.phys x.1))

/-- The writes of a core's engine for command `sn` of strand `sid`, which paired mode merges (R323). -/
def State.engPut (s : State) (sid sn d : Nat) (r : Region) (o : Nat) (b : List Byte) : Except SpanErr (State × Option Nat) :=
  if s.pairOut sid r then s.pairPut sid sn d r o b else s.engWrite d r o b

/-- The end of an engine command's counting, behind its messages at the router (R138, R323). -/
def State.endCount (s : State) (sid sn : Nat) : State :=
  let s := s.dropReads sid sn
  if s.pairHeld sid sn then s.pairSend sid sn .done else s.uncount sid sn

/-- A completion word is written as `stf` writes (R134, R176), at an offset of a region; a word of a saved slice is written
where the slice is saved. -/
def State.fillAt (s : State) (sid : Nat) (r : Region) (o : Nat) (v : Word) : State :=
  match (s.follow sid r).addr o with
  | .phys k => s.fillWord k v
  | .virt a va =>
    match s.writeVirt (((s.strand? sid).map fun t => dieOf t.core).getD 0) a va (wordBytes v) with
    | .error _ => s
    | .ok s =>
      let w := (r.base % 0x1000 + o) / 8
      let s := s.modStrand sid fun t => { t with sliceFull := keyInsert w t.sliceFull }
      match s.strand? sid with
      | none => s
      | some t =>
        match t.st with
        | .parked (.own k true) => if k / 8 = w then s.wake sid else s
        | _ => s

/-- A link leads to the package of a completion word, unless bit 63 of its register says NONE: without one the command waits, still
counted (R336). -/
def State.wordUp (s : State) (d sid : Nat) (cw : Region) (cwr : Word) : Bool :=
  cwr.getLsbD 63 || s.runUp d (s.follow sid cw) (bits cwr 0 40) accW

/-- The completion word of command `sn` of a strand (R134, R176). In paired mode it goes by the router, or waits for the
messages of its command that are there (R323). -/
def State.complete (s : State) (sid sn : Nat) (r : Region) (o : Nat) (v : Word) : State :=
  let s := s.dropReads sid sn
  match s.pairOut sid r, (s.follow sid r).addr o with
  | true, .phys k => s.pairSend sid sn (.fill k v)
  | _, _ => if s.pairHeld sid sn then s.pairSend sid sn (.own r o v) else s.fillAt sid r o v

/-- A command of the die's engines issues (R323): in paired mode it is listed for its comparison. -/
def State.pairIssue (s : State) (sid : Nat) (x : PairCmd) : State :=
  match s.strand? sid with
  | some t => if t.pair then { s with pairCmds := s.pairCmds ++ [{ x with sid, since := s.cycle }] } else s
  | none => s

/-- The command of the partner that stands at the same place among its merged commands (R323). -/
def State.pairOf (s : State) (sid sn : Nat) : Option (PairCmd × PairCmd) :=
  match (s.strand? sid).bind fun t => t.partner with
  | none => none
  | some p =>
    let a := s.pairCmds.filter fun x => x.sid == sid
    let b := s.pairCmds.filter fun x => x.sid == p
    (a.zip b).find? fun x => x.1.sn == sn

/-- A command may act: it is not in paired mode, or both copies have come and agree (R323). -/
def State.pairReady (s : State) (sid sn : Nat) : Bool := s.pairCmds.all fun x => !(x.sid == sid && x.sn == sn) || x.ok

/-- The bytes that a merged command carries (R323): of each range that can be read. -/
def State.pairData (s : State) (x : PairCmd) : List (Option (List Byte)) :=
  let d := ((s.strand? x.sid).map fun t => dieOf t.core).getD 0
  x.srcs.map fun y => (s.readSpan d (s.follow x.sid y.1) y.2.1 y.2.2).toOption.map fun z => z.1

/-- The two copies of a command agree: kind, registers and data. -/
def State.pairSame (s : State) (a b : PairCmd) : Bool :=
  decide (a.kind = b.kind) && decide (a.regs = b.regs) && decide (s.pairData a = s.pairData b)

/-- What a merged command brings to the west partner's own copies, it brings to the east partner's (R323): bytes at an offset of
its destination. -/
def State.pairDeliver (s : State) (sid sn d o : Nat) (v : List Byte) : State :=
  match s.pairOf sid sn with
  | some (_, b) =>
    match b.dst with
    | some r => if s.pairOut b.sid r then s else ((s.engWrite d (s.follow b.sid r) o v).toOption.map fun x => x.1).getD s
    | none => s
  | none => s

/-- A command of the die's engines ends: its completion word unless NONE is set, and its count (R134, R138). In paired mode
the reply is copied to the partner (R323). -/
def State.engEnd (s : State) (sid sn : Nat) (cw : Region) (cwr : Word) (w : Word) : State :=
  let one := fun (s : State) (sid sn : Nat) (cw : Region) (cwr : Word) =>
    (if cwr.getLsbD 63 || (s.isEast sid && s.pairOut sid cw) then s else s.fillAt sid cw (bits cwr 0 40) w).uncount sid sn
  match s.pairOf sid sn with
  | some (a, b) =>
    let s := { s with pairCmds := (s.pairCmds.erase a).erase b }
    one (one s sid sn cw cwr) b.sid b.sn b.cw b.cwr
  | none => one { s with pairCmds := s.pairCmds.filter fun x => !(x.sid == sid && x.sn == sn) } sid sn cw cwr

/-- The strand under whose name the die's engines know a strand's commands: the west partner's (R323). -/
def State.engSid (s : State) (sid : Nat) : Nat :=
  if s.isEast sid then ((s.strand? sid).bind fun t => t.partner).getD sid else sid

/-- The check of a completion word at issue (R177), unless bit 63 of its register says NONE. -/
def Strand.cwCheck (t : Strand) (cwh cw : Word) : Option (Cause × Word) :=
  if cw.getLsbD 63 then none
  else
    let h := bits cwh 0 5
    accessCheck (t.regionAt h) h (BitVec.ofNat 64 (bits cw 0 40)) 8 (rW ||| rA) .sync

/-- A record of an engine's page fault, with a wake token (R307): its kind, engine code, address, needs, cause and PC. -/
def State.engFault (s : State) (c : Nat) (sid : Nat) (eng kind va : Nat) (need : Acc) (cause : Nat) (pc : Word)
    (st : Stalled) : Option (Nat × State) :=
  match s.strand? sid with
  | none => none
  | some t =>
    let d := dieOf c
    if s.recRoom d then
      some (s.wokenRecord d t.asid eng kind va need cause
        (if t.loc = .gone then locWord c 0 else t.selfWord) pc st)
    else none

end Sys2Proof.Machine
end

