-- ==== Sys2Proof/Machine/Copy.lean ====
section
/-! DEFINITION. The copy engine (R171 to R186): `cpgo`, `cphint`, `cpcancel`, `cpstat`, and the steps of its channels. -/

namespace Sys2Proof.Machine

/-! ### Matrix operands, for `mm`, `mmg` and the follow-on of a copy (R179, R187, R189, R195) -/

/-- The physical accumulator that a group names `n` (R190). -/
def Core.accOf (k : Core) (g n : Nat) : Option Nat :=
  ((List.range 2).filter fun i => (vget k.accs i {}).held = some g)[n]?

/-- The slots that `mm`, or `mmg`, names for its B rows (R195). -/
def bSlots (grouped : Bool) (v : Word) : List Nat :=
  if grouped then (List.range 4).map fun i => bits v (8 * i) 8 else [bits v 0 8]

/-- The width of an element of the tiles in bytes (R189). -/
def tileWidth (fmt : Nat) : Nat := if fmt = 10 then 2 else 1

/-- The checks of `mm` and `mmg` (R195), for group `g`: the ENGINE code, or none. -/
def Core.mmCheck (k : Core) (g fmt acc : Nat) (grouped : Bool) (va vb : Word) : Option Nat :=
  if fmt ≠ 0 ∧ fmt ≠ 8 ∧ fmt ≠ 10 then some 1
  else if (k.accOf g acc).isNone then some 4
  else
    let bad := fun (n need : Nat) =>
      match k.slotOf g n with
      | none => some 2
      | some x => if x.units < need * tileWidth fmt then some 3 else none
    let bs := (bSlots grouped vb).filter fun n => !(grouped && decide (n = 0xFF))
    (bad (bits va 0 8) 2).orElse fun _ => (bs.filterMap fun n => bad n 8).head?

/-- The command that `mm` or `mmg` captures (R195), from the staged matrix registers as they stand. -/
def Core.mmKind (k : Core) (g : Nat) (mx : Vector Word 32) (acc : Nat) (grouped : Bool) (va vb : Word) : MxKind :=
  let scales := fun n => ((k.slotOf g n).map fun x => x.scales).getD (Vector.replicate 32 0)
  let a := bits va 0 8
  let bs := if grouped then bSlots true vb else List.replicate 4 (bits vb 0 8)
  .mm ((k.accOf g acc).getD 0) (bits (staged mx 0) 0 4) (bits (staged mx 1) 0 7 + 1) ((staged mx 2).setWidth 32) a (scales a)
    (bs.map fun n => (n, vget (scales n) 0 0))

/-- The follow-on word as accumulator and form: an `mm` or `mmg` without W (R179). -/
def followOn? (w : BitVec 32) : Option (Nat × Bool) :=
  match decode w with
  | .ok (.mm _ _ n 0) => some (n.toNat, false)
  | .ok (.mmg _ _ n 0) => some (n.toNat, true)
  | _ => none

/-! ### The shape of a command (R174, R175) -/

/-- The count of dimension `k`. -/
def cpCount (regs : Vector Word 32) (k : Nat) : Nat :=
  if k = 0 then bits (staged regs 8) 0 40 else bits (staged regs (8 + k)) 0 32

/-- N (R174). -/
def cpBytes (regs : Vector Word 32) : Nat := (List.range 8).foldl (fun n k => n * cpCount regs k) 1

/-- The offsets of run `i`, dimension 1 fastest (R174): in the source and in the destination, modulo 2^64. -/
def cpOffsets (regs : Vector Word 32) (i : Nat) : Word × Word :=
  let r := (List.range 7).foldl (fun (x : Nat × Word × Word) k =>
    let n := cpCount regs (k + 1)
    let j : Word := BitVec.ofNat 64 (x.1 % n)
    (x.1 / n, x.2.1 + staged regs (0x11 + k) * j, x.2.2 + staged regs (0x19 + k) * j))
    (i, staged regs 1, staged regs 3)
  r.2

/-- The element width in bytes of a format; raw is 1, and so is a reserved code, 12 to 14, in the check of R177 that comes before the
one that refuses it (the model's choice, log entry 75). -/
def fmtWidth (f : Nat) : Nat := ((Ty.ofCode? f).map fun y => y.width / 8).getD 1

/-- The copy converts (R175): neither end is raw, and the formats differ. -/
def converts (src dst : Nat) : Bool := decide (src ≠ 15) && decide (dst ≠ 15) && decide (src ≠ dst)

/-- The element widths of the two ends: both 1 when the copy does not convert (R174). -/
def cpWidths (src dst : Nat) : Nat × Nat := if converts src dst then (fmtWidth src, fmtWidth dst) else (1, 1)

/-- A converting command covers whole elements (R175). -/
def wholeElements (regs : Vector Word 32) (src dst : Nat) : Bool :=
  let (ws, wd) := cpWidths src dst
  decide ((staged regs 1).toNat % ws = 0) && decide (cpCount regs 0 % ws = 0) && decide ((staged regs 3).toNat % wd = 0) &&
    (List.range 7).all fun k => decide ((staged regs (0x11 + k)).toNat % ws = 0) && decide ((staged regs (0x19 + k)).toNat % wd = 0)

/-- EFMT of a handle is a code that names no type (R177). -/
def Handle.badFmt (h : Handle) : Bool := decide (12 ≤ bits h.ctl 50 4) && decide (bits h.ctl 50 4 ≤ 14)

/-! ### Issue (R177, R180) -/

/-- The refusals of `cpgo` with an ENGINE code, in order (R177). -/
def State.cpRefusal (s : State) (t : Strand) (rd : GReg → Word) (src dst : Nat) : Option Nat :=
  let k := s.core t.core
  let f := staged t.cp 7
  if cpBytes t.cp ≥ 2 ^ 48 then some 1
  else if converts src dst && !wholeElements t.cp src dst then some 2
  else if (t.handle (bits (staged t.cp 0) 0 5)).badFmt || (!t.cpSlot && (t.handle (bits (staged t.cp 2) 0 5)).badFmt) then some 3
  else if t.cpSlot && (k.slotOf t.group (bits (staged t.cp 4) 0 8)).isNone then some 4
  else if f.getLsbD 63 then
    match followOn? (f.setWidth 32) with
    | none => some 5
    | some (n, grouped) =>
      if !t.cpSlot || (k.mmCheck t.group (bits (staged t.mx 0) 0 4) n grouped (rd (f.extractLsb' 11 5)) (rd (f.extractLsb' 6 5))).isSome
      then some 5 else none
  else none

/-- `cpgo` and `cpgo.w` (R177): the checks, a free entry of the command queue, and the command with everything it uses. -/
def execCpgo (w : BitVec 1) (s : State) : Host.Outcome State Fault Refusal :=
  issue (.cpgo w) s fun s1 t rd =>
    match t.cwCheck (staged t.cp 5) (staged t.cp 6) with
    | some (c, v) => s.trap s.cur t c v
    | none =>
      let src := t.regionAt (bits (staged t.cp 0) 0 5)
      let dst := t.regionAt (bits (staged t.cp 2) 0 5)
      let (sf, sl) := s1.endFmt src (staged t.cp 1).toNat
      let df := if t.cpSlot then 15 else (s1.endFmt dst (staged t.cp 3).toNat).1
      match s1.cpRefusal t rd sf df with
      | some code => s.engineTrap t 0 code
      | none =>
        let f := staged t.cp 7
        let fol := f.getLsbD 63
        if (s1.core t.core).copyq.length ≥ 16 || (fol && (t.countFull [.mx] || t.fenced [.mx])) then s
        else
          let (sn, s2) := s1.fresh
          let (fsn, s2) := s2.fresh
          let x : CopyCmd := {
            sn, sid := s.cur, pc := t.pc, hint := false, regs := t.cp, src, dst
            cw := t.regionAt (bits (staged t.cp 5) 0 5)
            slotDst := if t.cpSlot then some (bits (staged t.cp 4) 0 8) else none
            srcFmt := sf, srcSl := sl, dstFmt := df, after := t.gate (w = 1)
            fol := if fol then some (f.setWidth 32, rd (f.extractLsb' 11 5), rd (f.extractLsb' 6 5)) else none
            folSn := fsn, group := t.group }
          let s2 := s2.modCore t.core fun k => { k with copyq := k.copyq ++ [x] }
          let t := (t.countOn sn [.cp]).named sn
          s2.setStrand s.cur (if fol then t.countOn fsn [.mx] else t).advance

/-- `cphint` and `cphint.w` (R180). -/
def execCphint (w : BitVec 1) (s : State) : Host.Outcome State Fault Refusal :=
  issue (.cphint w) s fun s1 t _ =>
    let h := bits (staged t.cp 0) 0 5
    if cpBytes t.cp ≥ 2 ^ 48 then s.engineTrap t 0 1
    else if (t.handle h).badFmt then s.engineTrap t 0 3
    else if (s1.core t.core).copyq.length ≥ 16 then s
    else
      let (sn, s2) := s1.fresh
      let src := t.regionAt h
      let x : CopyCmd := {
        sn, sid := s.cur, pc := t.pc, hint := true, regs := vset t.cp 6 bit63, src, dst := src, cw := src, slotDst := none
        srcFmt := 15, srcSl := false, dstFmt := 15, after := t.gate (w = 1), fol := none, folSn := 0, group := t.group }
      let s2 := s2.modCore t.core fun k => { k with copyq := k.copyq ++ [x] }
      s2.setStrand s.cur (t.countOn sn [.cp]).advance

/-- A strand's commands on core `c` are cancelled for its `cpcancel` of number `sn` (R181), which waits for the end of the
last of them. -/
def State.beginCancel (s : State) (sid c sn : Nat) (dest : Dest) : State :=
  let xs := (s.core c).cancellable sid (some sn)
  (s.cancelCopies c sid (some sn)).modCore c fun k => { k with
    cancels := k.cancels ++ [(sid, sn, xs.map fun x => x.sn, xs.length, dest)] }

/-- `cpcancel` (R181): cancels the strand's commands; g(D) receives their number when the last of their completion words is
written, at once where there is none. With an earlier operation in its way it waits, and the strand goes on (R131, R140). -/
def execCpcancel (d : GReg) (w : BitVec 1) (s : State) : Host.Outcome State Fault Refusal :=
  issue (.cpcancel d w) s fun s1 t _ =>
    if t.mustDefer (.cpcancel d w) (w = 1) then s1.defer s.cur t (.cpcancel d w) d 0 (t.gate (w = 1))
    else if ((s1.core t.core).cancellable s.cur).isEmpty then s1.finish s.cur t d 0
    else
      let (s2, t, dest) := s1.lateDest t d
      let (sn, s2) := s2.fresh
      (s2.setStrand s.cur (t.countOn sn [.cp]).advance).beginCancel s.cur t.core sn dest

/-- The word of `cpstat` for strand `sid` of core `c` (R182): QUSED counts the entries in use, up to 16. -/
def State.cpStatus (s : State) (sid c : Nat) : Word :=
  let k := s.core c
  let n := fun (f : Chan → Bool) => (k.chans.toList.filter f).length
  let own := n fun h => decide (h.st ≠ .free) && (h.cmd.map fun x => x.sid) = some sid
  BitVec.ofNat 64 (Nat.min 16 k.copyq.length * 2 ^ 16 + own * 2 ^ 12 + n (fun h => h.st = .stall) * 2 ^ 8 + n fun h => h.st ≠ .free)

/-- `cpstat` (R182): the word, at once; with an earlier operation in its way, when that has been performed (R131, R140). -/
def execCpstat (d : GReg) (w : BitVec 1) (s : State) : Host.Outcome State Fault Refusal :=
  issue (.cpstat d w) s fun s1 t _ =>
    if t.mustDefer (.cpstat d w) (w = 1) then s1.defer s.cur t (.cpstat d w) d 0 (t.gate (w = 1))
    else s1.finish s.cur t d (s1.cpStatus s.cur t.core)

/-! ### The channels (R171, R184) -/

/-- A channel of a core. -/
def State.chan (s : State) (c h : Nat) : Chan := vget (s.core c).chans h {}
/-- Replaces a channel. -/
def State.putChan (s : State) (c h : Nat) (x : Chan) : State := s.modCore c fun k => { k with chans := vset k.chans h x }

/-- The oldest command that may begin (R171): no earlier one of its strand is in the queue or waits with the strand (R132), and
what it waits for has been performed (R131). -/
def State.copyReady (s : State) (seen : List Nat) : List CopyCmd → Option CopyCmd
  | [] => none
  | x :: rest =>
    if !x.err && !seen.contains x.sid && s.mayBegin x.sid x.after && s.inTurn x.sid .cp x.sn then some x
    else State.copyReady s (if x.err then seen else x.sid :: seen) rest

/-- A free channel of core `ua` takes a command of the queue (R171); weight copies beyond its 16 entries wait for a place (R266). -/
def execCopyChannelTake (s : State) : Host.Outcome State Fault Refusal :=
  let k := s.core s.ua
  match (List.range 4).find? fun h => (vget k.chans h {}).st = .free, s.copyReady [] (k.copyq.take 16) with
  | some h, some x =>
    let s := s.modCore s.ua fun k => { k with copyq := k.copyq.filter fun y => !(y.sn == x.sn) }
    .next (s.putChan s.ua h { st := .start, cmd := some x })
  | _, _ => .next s

/-- Channel `ub` of core `ua` leaves START (R184). -/
def execCopyStartElapse (s : State) : Host.Outcome State Fault Refusal :=
  let h := s.chan s.ua s.ub
  if h.st = .start then .next (s.putChan s.ua s.ub { h with st := .move }) else .next s

/-- A copy that fails (R178, R179): ERR and the cause; the follow-on is discarded. -/
def CopyCmd.fail (x : CopyCmd) (cause : Nat) : CopyCmd :=
  { x with err := true, cause, off := 0, fdrop := x.fdrop || x.fol.isSome, fol := none }

/-- Ends a channel's copy with a cause. -/
def State.failCopy (s : State) (c h : Nat) (x : CopyCmd) (cause : Nat) : State :=
  let s := if x.fol.isSome then s.uncount x.sid x.folSn else s
  s.putChan c h { st := .finish, cmd := some (x.fail cause) }

/-- A page fault of a copy (R178): the record COPYFAULT, and the channel stalls; it waits for a place for the record. -/
def State.stallCopy (s : State) (c h : Nat) (x : CopyCmd) (va : Nat) (need : Acc) (cause : Nat) : State :=
  let r := if x.pl.isNone then s.engFault c x.sid 0 2 va need cause x.pc (.copy c h)
    else if s.recRoom (dieOf c) then
      some (s.wokenRecord (dieOf c) x.src.asid 0 2 va need cause (locWord c 0) 0 (.copy c h))
    else none
  match r with
  | none => s
  | some (tok, s) => s.putChan c h { st := .stall, cmd := some x, tok }

/-- The conversion of one element (R175), with the scale of a scaled source. -/
def cvtElem (src dst : Ty) (scale : Option (BitVec 32)) (b : Nat) : Nat :=
  match scale with
  | none => (cvt src dst .rne true b).1
  | some x =>
    let v := (fmul ((fmtOf src).value b) (FFmt.f32.value x.toNat)).1
    match ffmt? dst with
    | some f => (roundVal f .rne true false v).1
    | none => (toInt dst .rne true v).1

/-- The scale's key for the element at an offset of a bank of format e4m3 or e5m2 (R126). -/
def scaleKey (r : Region) (o : Nat) (sl : Bool) : Nat :=
  let a := (r.base + o) % 2 ^ 18
  let v := a % 0x8000 / 128
  scratchKey r.unit (a / 0x8000 * 0x8000 + 0x7C00 + 4 * (if sl then (if v < 128 then 0 else 1) else v))

/-- Splits bytes into elements of `w` bytes. -/
def elems (w : Nat) : Nat → List Byte → List Nat
  | 0, _ => []
  | n + 1, b => natOfBytes (b.take w) :: elems w n (b.drop w)

/-- Converts the elements that start at offset `o` of the source (R175), or tells that a scale word is poisoned. -/
def State.cvtRun (s : State) (x : CopyCmd) (src dst : Ty) (r : Region) (o : Nat) : List Nat → Except Nat (List Byte)
  | [] => .ok []
  | b :: t =>
    let scaled := (x.src.fmtBank (staged x.regs 1).toNat).isSome && (decide (src = .e4m3) || decide (src = .e5m2))
    let k := scaleKey r o x.srcSl
    if scaled && s.poisoned k 4 then .error k
    else
      let sc := if scaled then some (BitVec.ofNat 32 (s.readNat k 4)) else none
      match State.cvtRun s x src dst r (o + src.width / 8) t with
      | .error e => .error e
      | .ok l => .ok (bytesOfNat (dst.width / 8) (cvtElem src dst sc b) ++ l)

/-- The place of an address in a region's space, and the size at which places wrap (R115). -/
def Region.place? (r : Region) (a : Addr) : Option (Nat × Nat) :=
  match a with
  | .virt asid va => if r.space = 4 ∧ r.asid = asid then some (va, 2 ^ 65) else none
  | .phys k =>
    if r.space = 4 then none
    else if r.space = 3 then
      (if chipKey r.unit 0 ≤ k ∧ k < chipKey (r.unit + 1) 0 then some (k - chipKey r.unit 0, 2 ^ 25) else none)
    else if r.space = 2 then
      match keyCore? k with
      | none => none
      | some c =>
        let o := k - scratchKey c 0
        if clusterOf c = r.unit ∧ 0x38000 ≤ o then
          some ((o - 0x38000) / 256 * 4096 + (4 * (c % 64 / 16) + c % 4) * 256 + o % 256, 2 ^ 19)
        else none
    else if scratchKey r.unit 0 ≤ k ∧ k < scratchKey (r.unit + 1) 0 then some (k - scratchKey r.unit 0, 2 ^ 18)
    else none

/-- A byte of the destination is also a byte of the command's source (R174). -/
def CopyCmd.inSource (x : CopyCmd) (r : Region) (a : Addr) : Bool :=
  match r.place? a with
  | none => false
  | some (p, m) =>
    (List.range x.total).any fun i =>
      decide ((p + m - (r.base + (cpOffsets x.regs i).1.toNat) % m) % m < cpCount x.regs 0)

/-- The lowest and the highest place from a region's base that the command's runs of `n` bytes touch, of the source (`false`)
or of the destination. -/
def CopyCmd.extent (x : CopyCmd) (r : Region) (dst : Bool) (n : Nat) : Nat × Nat :=
  (List.range x.total).foldl (fun (a : Nat × Nat) i =>
    let p := cpOffsets x.regs i
    let o := r.base + (if dst then p.2.toNat else p.1.toNat)
    (Nat.min a.1 o, Nat.max a.2 (o + n))) (2 ^ 65, 0)

/-- A space of one core's scratchpad. -/
def Region.inScratch (r : Region) : Bool := decide (r.space = 0) || decide (r.space = 1) || decide (r.space = 5)

/-- Source and destination of a command may share a byte: a quick test that never misses one. -/
def CopyCmd.mayMeet (x : CopyCmd) (src dst : Region) : Bool :=
  let (ws, wd) := cpWidths x.srcFmt x.dstFmt
  let a := x.extent src false (cpCount x.regs 0)
  let b := x.extent dst true (cpCount x.regs 0 * wd / ws)
  let near := decide (src.unit = dst.unit) && (decide (a.2 > 2 ^ 18) || decide (b.2 > 2 ^ 18) || (decide (a.1 < b.2) && decide (b.1 < a.2)))
  if src.space = 4 ∨ dst.space = 4 then
    decide (src.space = dst.space) && decide (src.asid = dst.asid) && decide (a.1 < b.2) && decide (b.1 < a.2)
  else if src.inScratch then
    (if dst.inScratch then near else decide (dst.space = 2) && decide (a.2 > 0x38000))
  else if dst.inScratch then decide (src.space = 2) && decide (b.2 > 0x38000)
  else decide (src.space = dst.space) && near

/-- The bytes to be written from offset `o`: an overlapping byte may keep its value (R174; log entry 5). -/
def State.mixOverlap (s : State) (x : CopyCmd) (d : Nat) (src dst : Region) (o : Nat) : List Byte → List Byte
  | [] => []
  | b :: t =>
    let b' := if x.inSource src (dst.addr o) && Config.overlapKeeps x.sn o then
        (match s.spanKey d dst o accR with
         | .ok (k, s) => Memory.read s.mem k
         | .error _ => b)
      else b
    b' :: State.mixOverlap s x d src dst (o + 1) t

/-- A piece of the run has been written: `n` destination bytes; at the run's end the next run follows. -/
def CopyCmd.moved (x : CopyCmd) (n len : Nat) : CopyCmd :=
  if x.off + n ≥ len then { x with run := x.run + 1, off := 0, bytes := x.bytes + len } else { x with off := x.off + n }

/-- How many bytes of a run of `len` are written in one step from `off` on, at place `a` of the destination (R136, R181): up to
the next 32-byte boundary; elements of `w` bytes that do not lie on such boundaries go in one step to the run's end. -/
def pieceLen (a off len w : Nat) : Nat := if a % w ≠ 0 then len - off else Nat.min (32 - a % 32) (len - off)

/-- Some runs of the command, of `len` bytes at the destination, write every byte of a word (R136): word `w` from the one that the
destination begins in, at its byte `b`. -/
def CopyCmd.covers (x : CopyCmd) (b len w : Nat) : Bool :=
  (List.range 8).all fun j => (List.range x.total).any fun i =>
    let a := b + (cpOffsets x.regs i).2.toNat
    decide (a ≤ 8 * w + j) && decide (8 * w + j < a + len)

/-- How the bytes of a step from place `a` on are written (R136): the writes, and the bytes kept from now on. A word that the command
writes in full is written in one step, when its last bytes are there, whatever the order of the runs that hold them. -/
def CopyCmd.split (x : CopyCmd) (b len a : Nat) (out : List Byte) : List (Nat × List Byte) × List (Nat × Byte) :=
  let z := a + out.length
  let h := Nat.min out.length ((8 - a % 8) % 8)
  let t := (out.length - h) % 8
  let h := if h ≠ 0 ∧ x.covers b len (a / 8) then h else 0
  let n := out.length - if t ≠ 0 ∧ x.covers b len (z / 8) then t else 0
  let part := (x.part.filter fun y => decide (y.1 < a) || decide (z ≤ y.1)) ++
    ((out.zipIdx a).filter fun y => decide (y.2 < a + h) || decide (a + n ≤ y.2)).map fun y => (y.2, y.1)
  let whole := [a / 8, z / 8].eraseDups.filter fun w => (List.range 8).all fun j => part.any fun y => y.1 == 8 * w + j
  ((if n ≤ h then [] else [(a + h, (out.take n).drop h)]) ++
    whole.map (fun w => (8 * w, (List.range 8).map fun j => ((part.find? fun y => y.1 == 8 * w + j).map fun y => y.2).getD 0)),
    part.filter fun y => !whole.contains (y.1 / 8))

/-- The writes of a step of a copy, at places from the word that the destination begins in; and a sealed core that one met. -/
def State.copyPut (s : State) (x : CopyCmd) (d : Nat) (dst : Region) : List (Nat × List Byte) → Except SpanErr (State × Option Nat)
  | [] => .ok (s, none)
  | w :: l =>
    match s.engPut x.sid x.sn d dst (w.1 - dst.base % 8) w.2 with
    | .error e => .error e
    | .ok (s, bad) => (State.copyPut s x d dst l).map fun y => (y.1, bad.orElse fun _ => y.2)

/-- The bytes that a command has kept are written where it ends before their words are whole (R176). -/
def State.landPart (s : State) (c : Nat) (x : CopyCmd) : State :=
  let dst := s.follow x.sid x.dst
  x.part.foldl (fun s y =>
    match s.copyPut x (dieOf c) dst [(y.1, [y.2])] with
    | .ok (s, _) => s
    | .error _ => s) s

/-- Moves the bytes of the run up to the next 32-byte boundary of the destination (R174, R181). It waits while no link leads to
a package that the bytes lie in (R336). -/
def State.copyPiece (s : State) (c h : Nat) (x : CopyCmd) : State :=
  let d := dieOf c
  let (so, dO) := cpOffsets x.regs x.run
  let (ws, wd) := cpWidths x.srcFmt x.dstFmt
  let len := cpCount x.regs 0 * wd / ws
  let src := s.follow x.sid x.src
  let dst := s.follow x.sid x.dst
  let n := pieceLen ((if x.slotDst.isSome then 0 else dst.base) + dO.toNat + x.off) x.off len wd
  let o := so.toNat + x.off * ws / wd
  let nb := n * ws / wd
  if !s.runUp d src o accR || (x.slotDst.isNone && !s.runUp d dst (dO.toNat + x.off) accW) then s
  else match s.readSpan d src o nb with
  | .error (.xlate cause va) => s.stallCopy c h x va accR cause
  | .error (.peer _) => s.failCopy c h x 5
  | .error (.bad _) => s.failCopy c h x 6
  | .ok (b, s1) =>
    let out := if converts x.srcFmt x.dstFmt then
        match Ty.ofCode? x.srcFmt, Ty.ofCode? x.dstFmt with
        | some a, some e => s1.cvtRun x a e src o (elems ws (nb / ws) b)
        | _, _ => .ok b
      else .ok b
    match out with
    | .error _ => s1.failCopy c h x 6
    | .ok out =>
      let doff := dO.toNat + x.off
      match x.slotDst with
      | some k =>
        let s2 := s1.writeBytes (operandKey c (2048 * k + doff)) out
        s2.putChan c h { st := .move, cmd := some (x.moved n len) }
      | none =>
        let b0 := dst.base % 8
        let (ws, part) := x.split b0 len (b0 + doff) (if x.mayMeet src dst then s1.mixOverlap x d src dst doff out else out)
        match s1.copyPut x d dst ws with
        | .error (.xlate cause va) => s.stallCopy c h x va accW cause
        | .error _ => s.failCopy c h x 5
        | .ok (s2, some _) => s2.failCopy c h { x with part } 5
        | .ok (s2, none) => s2.putChan c h { st := .move, cmd := some { x.moved n len with part } }

/-- The first address of a run that does not translate: reads of the source before writes of the destination. -/
def State.copyXlate (s : State) (c : Nat) (x : CopyCmd) : Option (Nat × Nat × Acc) :=
  let d := dieOf c
  let (so, dO) := cpOffsets x.regs x.run
  let (ws, wd) := cpWidths x.srcFmt x.dstFmt
  let n := cpCount x.regs 0
  match s.spanXlate d x.src so.toNat accR n with
  | some (cause, va) => some (cause, va, accR)
  | none =>
    if x.slotDst.isSome then none
    else (s.spanXlate d x.dst dO.toNat accW (n * wd / ws)).map fun e => (e.1, e.2, accW)

/-- `check_run` of the run's two ends (R174). For a slot, the bound is its size. -/
def State.copyCheck (s : State) (c : Nat) (x : CopyCmd) : Option Nat :=
  let (so, dO) := cpOffsets x.regs x.run
  let (ws, wd) := cpWidths x.srcFmt x.dstFmt
  let n := cpCount x.regs 0
  (x.src.runCheck so n rR).orElse fun _ =>
    match x.slotDst with
    | some k =>
      match (s.core c).slotOf x.group k with
      | some y => if dO.toNat ≥ 2 ^ 40 ∨ dO.toNat + n > 2048 * y.units then some 1 else none
      | none => some 1
    | none => x.dst.runCheck dO (n * wd / ws) rW

/-- The pages of 64 KiB that a run of a hint touches and that do not translate (R180, R310). -/
def State.hintMisses (s : State) (d : Nat) (r : Region) (o n : Nat) : Nat :=
  let first := (r.base + o) / 2 ^ 16
  let last := (r.base + o + n - 1) / 2 ^ 16
  ((List.range (last + 1 - first)).filter fun i =>
    match s.translate d r.asid ((first + i) * 2 ^ 16) accR true with
    | .error _ => true
    | .ok _ => false).length

/-- One run of a hint (R180): lines are requested, unmapped pages are dropped and counted; a run that breaks a bound or a
right drops the rest. A region that is not global has no effect. -/
def State.hintRun (s : State) (c h : Nat) (x : CopyCmd) : State :=
  let d := dieOf c
  let (so, _) := cpOffsets x.regs x.run
  let n := cpCount x.regs 0
  let drop := fun (s : State) (m : Nat) => s.modDie d fun y => { y with hintdrop := y.hintdrop + BitVec.ofNat 64 m }
  let done := fun (s : State) (r : Nat) => s.putChan c h { st := .move, cmd := some { x with run := r } }
  if x.src.space ≠ 4 then done s x.total
  else
    match x.src.runCheck so n rR with
    | some _ => done (drop s 1) x.total
    | none => done (drop s (s.hintMisses d x.src so.toNat n)) (x.run + 1)

/-- A step of the copy in channel `h` of core `c` (R174, R178): at a run's start its checks and its translation, then the bytes up
to the next 32-byte boundary of the destination. -/
def State.copyStep (s : State) (c h : Nat) (x : CopyCmd) : State :=
  if x.off ≠ 0 then s.copyPiece c h x
  else
    match s.copyCheck c x with
    | some cause => s.failCopy c h x cause
    | none =>
      match s.copyXlate c x with
      | some (cause, va, need) => s.stallCopy c h x va need cause
      | none => s.copyPiece c h x

/-- What the next step of a copy reads of its source: nothing where its run fails a check or its translation. -/
def State.copyReads (s : State) (c : Nat) (x : CopyCmd) : List (Region × Nat × Nat) :=
  if x.off = 0 ∧ ((s.copyCheck c x).isSome ∨ (s.copyXlate c x).isSome) then []
  else
    let (so, dO) := cpOffsets x.regs x.run
    let (ws, wd) := cpWidths x.srcFmt x.dstFmt
    let len := cpCount x.regs 0 * wd / ws
    let base := if x.slotDst.isSome then 0 else (s.follow x.sid x.dst).base
    [(s.follow x.sid x.src, so.toNat + x.off * ws / wd, pieceLen (base + dO.toNat + x.off) x.off len wd * ws / wd)]

/-- Channel `ub` of core `ua` goes on with its run (R174, R178): a step of its copy, with the partner's where paired mode merges what
it reads (R323); a hint takes its run whole. -/
def execCopyRun (s : State) : Host.Outcome State Fault Refusal :=
  let h := s.chan s.ua s.ub
  match h.cmd with
  | none => .next s
  | some x =>
    if h.st ≠ .move || decide (x.run ≥ x.total) then .next s
    else if x.hint then .next (s.hintRun s.ua s.ub x)
    else .next ((s.askRead x.sid x.sn (s.copyReads s.ua x)).getD (s.copyStep s.ua s.ub x))

/-- The follow-on of a copy goes to the array (R179): with the strand's matrix registers and the scales as they stand, or it
is discarded where a check of its entry now fails. None while the matrix queue is full. -/
def State.handOff (s : State) (c : Nat) (x : CopyCmd) : Option (State × CopyCmd) :=
  match x.fol with
  | none => some (s, x)
  | some (w, va, vb) =>
    let mx := ((s.strand? x.sid).map fun t => t.mx).getD (Vector.replicate 32 0)
    let k := s.core c
    match followOn? w with
    | none => some (s.uncount x.sid x.folSn, { x with fol := none, fdrop := true })
    | some (n, grouped) =>
      if (k.mmCheck x.group (bits (staged mx 0) 0 4) n grouped va vb).isSome then
        some (s.uncount x.sid x.folSn, { x with fol := none, fdrop := true })
      else if k.mxq.length ≥ 8 then none
      else
        let m : MxCmd := { sn := x.folSn, sid := x.sid, group := x.group, pc := x.pc, after := []
                           kind := k.mmKind x.group mx n grouped va vb }
        some (s.modCore c fun k => { k with mxq := k.mxq ++ [m] }, { x with fol := none })

/-- The last byte of the copy in channel `ub` of core `ua` has landed (R179, R184): the follow-on goes to the array, and
the channel to FINISH. -/
def execCopyLastByteLands (s : State) : Host.Outcome State Fault Refusal :=
  let h := s.chan s.ua s.ub
  match h.cmd with
  | none => .next s
  | some x =>
    if h.st ≠ .move || decide (x.run < x.total) then .next s
    else
      match s.handOff s.ua x with
      | none => .next s
      | some (s1, x) => .next (s1.putChan s.ua s.ub { st := .finish, cmd := some x })

/-- The completion word of a copy (R176). -/
def CopyCmd.word (x : CopyCmd) : Word :=
  BitVec.ofNat 64 ((if x.err then 2 ^ 63 else 0) + (if x.fdrop then 2 ^ 62 else 0) + (if x.err then x.cause * 2 ^ 56 else 0)
    + x.bytes % 2 ^ 48)

/-- A command has ended: a `cpcancel` that waits for the last of its commands ends too (R181). -/
def State.settleCancels (s : State) (c sn : Nat) : State :=
  let l := (s.core c).cancels.map fun (x : Nat × Nat × List Nat × Nat × Dest) =>
    (x.1, x.2.1, x.2.2.1.filter (fun n => !(n == sn)), x.2.2.2.1, x.2.2.2.2)
  let s := s.modCore c fun k => { k with cancels := l.filter fun x => !x.2.2.1.isEmpty }
  (l.filter fun x => x.2.2.1.isEmpty).foldl (fun s x =>
    (s.deliver x.1 x.2.2.2.2 (BitVec.ofNat 64 x.2.2.2.1)).uncount x.1 x.2.1) s

/-- A command of a strand ends (R176): its completion word is written unless NONE is set, and it stops counting. -/
def State.endCopy (s : State) (c : Nat) (x : CopyCmd) : State :=
  let cw := staged x.regs 6
  let s := s.landPart c x
  let s := if cw.getLsbD 63 then s else s.complete x.sid x.sn x.cw (bits cw 0 40) x.word
  (s.endCount x.sid x.sn).settleCancels c x.sn

/-- The command in channel `ub` of core `ua`, whose writes are performed, writes its completion word and leaves the channel
(R176, R184); with `ub` above 3, the first command that was cancelled in the queue (R181). Recorded copies and copies of
the distaff end by events of their own. -/
def execCopyCompletionWrite (s : State) : Host.Outcome State Fault Refusal :=
  let c := s.ua
  if s.ub ≥ 4 then
    match (s.core c).copyq.find? fun x => x.err && x.recorded.isNone && x.pl.isNone with
    | none => .next s
    | some x =>
      if !s.wordUp (dieOf c) x.sid x.cw (staged x.regs 6) then .next s else
      .next ((s.modCore c fun k => { k with copyq := k.copyq.filter fun y => !(y.sn == x.sn) }).endCopy c x)
  else
    let h := s.chan c s.ub
    match h.cmd with
    | none => .next s
    | some x =>
      if h.st ≠ .finish || x.recorded.isSome || x.pl.isSome || !s.wordUp (dieOf c) x.sid x.cw (staged x.regs 6) then .next s
      else .next ((s.putChan c s.ub {}).endCopy c x)

end Sys2Proof.Machine
end

