-- ==== Sys2Proof/Machine/Matrix.lean ====
section
/-! DEFINITION. Operand slots and the matrix array (R187 to R202): claims, `mm`, `mmg`, `mclr`, `mchk`, `mdrain`, the merge
of partial sums, and the arithmetic of the array (R51 to R54). -/

namespace Sys2Proof.Machine

/-! ### Operand slots (R188, R194) -/

/-- 1.0 in binary32. -/
def oneF32 : BitVec 32 := 0x3F800000

/-- Claims `n` units for a group, from the lowest free run (R188, R194): the first unit. -/
def State.claimUnits (s : State) (c g n : Nat) : Option (Nat × State) :=
  if n < 1 ∨ n > 128 then none
  else
    match unitRun (s.core c).unitUsed n 0 128 with
    | none => none
    | some u =>
      let s := s.clearRange (operandKey c (2048 * u)) (2048 * n)
      some (u, s.modCore c fun k => { k with
        opslots := Tab.set k.opslots u { units := n, group := g, scales := Vector.replicate 32 oneF32 }
        ncache := k.ncache.filter fun x => !(decide (u ≤ x.1) && decide (x.1 < u + n)) })

/-- `oclaim` (R194). -/
def execOclaim (a d : GReg) (s : State) : Host.Outcome State Fault Refusal :=
  issue (.oclaim a d) s fun s1 t rd =>
    match s1.claimUnits t.core t.group (rd a).toNat with
    | none => s1.finish s.cur t d (BitVec.allOnes 64)
    | some (u, s2) => s2.finish s.cur t d (BitVec.ofNat 64 u)

/-- A matrix command names a slot (R194). -/
def MxCmd.names (x : MxCmd) (n : Nat) : Bool :=
  match x.kind with
  | .mm _ _ _ _ a _ bs => decide (a = n) || bs.any fun b => decide (b.1 = n)
  | .walk w => decide (bits (staged w.regs 0x0C) 0 8 = n)
  | _ => false

/-- A copy names a slot, as its destination or in its follow-on (R194). -/
def CopyCmd.names (x : CopyCmd) (n : Nat) : Bool :=
  decide (x.slotDst = some n) ||
    (match x.fol with
     | some (w, va, vb) =>
       decide (bits va 0 8 = n) || (bSlots (((followOn? w).map fun f => f.2).getD false) vb).contains n
     | none => false)

/-- A command of the core that is queued or running names the slot (R194). -/
def Core.slotBusy (k : Core) (n : Nat) : Bool :=
  decide (n ≠ 0xFF) && (k.mxq.any (fun x => x.names n) || k.copyq.any (fun x => x.names n) ||
    k.chans.toList.any (fun h => (h.cmd.map fun x => x.names n).getD false) ||
    (k.table.map fun w => !w.held && w.cmd.names n).getD false)

/-- `orel` (R194). -/
def execOrel (a d : GReg) (s : State) : Host.Outcome State Fault Refusal :=
  issue (.orel a d) s fun s1 t rd =>
    let n := bits (rd a) 0 8
    let k := s1.core t.core
    if (k.slotOf t.group n).isNone then s1.finish s.cur t d 0
    else if k.slotBusy n then s
    else (s1.modCore t.core fun k => { k with opslots := Tab.erase k.opslots n }).finish s.cur t d 1

/-! ### The array's arithmetic (R53, R54) -/

/-- An s8 or e4m3 element as an integer: units of 1, or of 2^-9. -/
def tileInt (fmt b : Nat) : Int :=
  if fmt = 0 then intValue .s8 b
  else
    match FFmt.e4m3.value b with
    | .fin neg m e => let v : Int := (m * 2 ^ (e + 9).toNat : Nat); if neg then -v else v
    | _ => 0

/-- The exact block sum S of R53, in units of 1 for s8 and of 2^-18 for e4m3. -/
def blockSum (fmt : Nat) : List Nat → List Nat → Int
  | a :: x, b :: w => tileInt fmt a * tileInt fmt b + blockSum fmt x w
  | _, _ => 0

/-- The block product p of R53 with its scales. -/
def blockScaled (fmt : Nat) (x w : List Nat) (sa sb : BitVec 32) : BitVec 32 :=
  let n := Nat.min x.length w.length
  if decide (fmt = 8) && ((x.take n ++ w.take n).any FFmt.e4m3.isNan) then BitVec.ofNat 32 FFmt.f32.nanMag
  else
    let v := blockSum fmt x w
    let t := mulF32 sa sb
    let p := (fmul (.fin (decide (v < 0)) v.natAbs (if fmt = 0 then 0 else -18)) (FFmt.f32.value t.toNat)).1
    BitVec.ofNat 32 (roundVal .f32 .rne false false p).1

/-- One level of the tree of R54. -/
def treeLevel : List (BitVec 32) → List (BitVec 32)
  | a :: b :: t => addF32 a b :: treeLevel t
  | l => l

/-- The block sum b of R54: 128 products, +0.0 beyond K, in a tree of seven levels. -/
def blockTree (x w : List Nat) : BitVec 32 :=
  let p := (List.range 128).map fun k =>
    match x[k]?, w[k]? with
    | some a, some b => mulF32 (BitVec.ofNat 32 (a * 65536)) (BitVec.ofNat 32 (b * 65536))
    | _, _ => 0
  ((treeLevel (treeLevel (treeLevel (treeLevel (treeLevel (treeLevel (treeLevel p)))))))[0]?).getD 0

/-- A block added to an accumulator element (R53, R54). -/
def blockAdd (fmt : Nat) (acc : BitVec 32) (x w : List Nat) (sa sb : BitVec 32) : BitVec 32 :=
  addF32 acc (if fmt = 10 then blockTree x w else blockScaled fmt x w sa sb)

/-- Element `i` of a tile at a key. -/
def State.tileElem (s : State) (key ws i : Nat) : Nat := s.readNat (key + i * ws) ws

/-- The element of an accumulator. -/
def Accum.get (a : Accum) (i n : Nat) : BitVec 32 := Tab.getD a.el (i * 128 + n) 0

/-- Sets an element of an accumulator; +0.0 is not listed. -/
def Accum.put (a : Accum) (i n : Nat) (v : BitVec 32) : Accum :=
  { a with el := if v = 0 then Tab.erase a.el (i * 128 + n) else Tab.set a.el (i * 128 + n) v }

/-- An operand word that `mm` or `mmg` reads is poisoned: rows of A that are not masked, and the columns of their B slots. -/
def State.mmPoisoned (s : State) (c fmt n : Nat) (rmask : BitVec 32) (a : Nat) (bs : List (Nat × BitVec 32)) : Bool :=
  let ws := tileWidth fmt
  (List.range 32).any fun i =>
    match bs[i / 8]? with
    | none => false
    | some (b, _) =>
      rmask.getLsbD i && decide (b ≠ 0xFF) &&
        (s.poisoned (operandKey c (2048 * a) + 128 * ws * i) (128 * ws) ||
          (List.range 128).any fun k => s.poisoned (operandKey c (2048 * b) + 128 * ws * k) (n * ws))

/-- `mm` or `mmg` in the array (R195). -/
def State.runMm (s : State) (c : Nat) (acc fmt n : Nat) (rmask : BitVec 32) (a : Nat) (sa : Vector (BitVec 32) 32)
    (bs : List (Nat × BitVec 32)) : State :=
  let ws := tileWidth fmt
  let ak := operandKey c (2048 * a)
  let row := fun (v : Accum) (i : Nat) =>
    match bs[i / 8]? with
    | none => v
    | some (b, sb) =>
      if !rmask.getLsbD i || decide (b = 0xFF) then v
      else
        let x := (List.range 128).map fun k => s.tileElem ak ws (128 * i + k)
        (List.range n).foldl (fun v j =>
          let w := (List.range 128).map fun k => s.tileElem (operandKey c (2048 * b)) ws (128 * k + j)
          v.put i j (blockAdd fmt (v.get i j) x w (vget sa i 0) sb)) v
  s.modCore c fun k => { k with accs := vset k.accs acc ((List.range 32).foldl row (vget k.accs acc {})) }

/-- The array compares the checksum of a row with elements `x` in a block with weights `w` (R197): not for bf16, nor for a row
that meets a NaN. -/
def rowSums (fmt : Nat) (x w : List Nat) : Bool :=
  decide (fmt ≠ 10) && (decide (fmt ≠ 8) || !((x ++ w).any FFmt.e4m3.isNan))

/-- What the array compares in an `mm` or `mmg` (R197): duplicated steps, where it performs a row, and the checksums of rows. -/
def State.mmCompares (s : State) (c fmt n : Nat) (rmask : BitVec 32) (a : Nat) (bs : List (Nat × BitVec 32)) : Bool × Bool :=
  let ws := tileWidth fmt
  let rows := (List.range 32).filterMap fun i =>
    match bs[i / 8]? with
    | some (b, _) => if rmask.getLsbD i && decide (b ≠ 0xFF) then some (i, b) else none
    | none => none
  (!rows.isEmpty, rows.any fun r =>
    rowSums fmt ((List.range 128).map fun k => s.tileElem (operandKey c (2048 * a)) ws (128 * r.1 + k))
      ((List.range (128 * n)).map fun j => s.tileElem (operandKey c (2048 * r.2)) ws (128 * (j / n) + j % n)))

/-! ### Issue -/

/-- The tail of every matrix command at issue (R191): a free entry of the queue, and the command. -/
def State.queueMx (s0 s : State) (t : Strand) (w : BitVec 1) (kind : MxKind) (d : Option GReg) : State :=
  if (s.core t.core).mxq.length ≥ 8 then s0
  else
    let (s, t, dest) := match d with
      | some g => s.lateDest t g
      | none => (s, t, Dest.drop)
    let (sn, s) := s.fresh
    let x : MxCmd := { sn, sid := s0.cur, group := t.group, pc := t.pc, kind, after := t.gate (w = 1), dest }
    (s.modCore t.core fun k => { k with mxq := k.mxq ++ [x] }).setStrand s0.cur ((t.countOn sn [.mx]).named sn).advance

/-- `mm` and `mmg` at issue (R195). -/
def mmIssue (i : Instr) (a b : GReg) (n w : BitVec 1) (grouped : Bool) (s : State) : Host.Outcome State Fault Refusal :=
  issue i s fun s1 t rd =>
    let k := s1.core t.core
    match k.mmCheck t.group (bits (staged t.mx 0) 0 4) n.toNat grouped (rd a) (rd b) with
    | some code => s.engineTrap t 1 code
    | none => s.queueMx s1 t w (k.mmKind t.group t.mx n.toNat grouped (rd a) (rd b)) none

/-- `mm` (R195). -/
def execMm (a b : GReg) (n w : BitVec 1) (s : State) : Host.Outcome State Fault Refusal :=
  mmIssue (.mm a b n w) a b n w false s

/-- `mmg` (R195). -/
def execMmg (a b : GReg) (n w : BitVec 1) (s : State) : Host.Outcome State Fault Refusal :=
  mmIssue (.mmg a b n w) a b n w true s

/-- `mclr` (R196). -/
def execMclr (n w : BitVec 1) (s : State) : Host.Outcome State Fault Refusal :=
  issue (.mclr n w) s fun s1 t _ =>
    match (s1.core t.core).accOf t.group n.toNat with
    | none => s.engineTrap t 1 4
    | some p => s.queueMx s1 t w (.clr p) none

/-- `mchk` (R200). -/
def execMchk (b : GReg) (w : BitVec 1) (s : State) : Host.Outcome State Fault Refusal :=
  issue (.mchk b w) s fun s1 t _ => s.queueMx s1 t w .chk (some b)

/-- The accumulator that a command names. -/
def MxKind.acc? : MxKind → Option Nat
  | .mm p _ _ _ _ _ _ => some p
  | .clr p => some p
  | .drain p _ _ _ _ _ => some p
  | _ => none

/-! ### The drain (R198, R199) -/

/-- The fields of the drain's registers (R192). -/
structure DrainRegs where
  n : Nat
  mask : BitVec 32
  off : Nat
  stride : Nat
  dso : Nat
  bo : Nat
  bias : Bool
  act : Nat
  notrap : Bool
  merge : Bool
  m : Nat
  p : Nat
  mw : Nat
  deriving DecidableEq, Repr

/-- Reads the drain's registers, for a destination width (R192). -/
def drainRegs (v : Vector Word 32) (wd : Nat) : DrainRegs :=
  let e := staged v 0x0B
  let st := bits (staged v 7) 0 40
  { n := bits (staged v 1) 0 7 + 1, mask := (staged v 2).setWidth 32, off := bits (staged v 6) 0 40
    stride := if st = 0 then 128 * wd else st, dso := bits (staged v 8) 0 40, bo := bits (staged v 0x0A) 0 40
    bias := e.getLsbD 0, act := bits e 1 2, notrap := e.getLsbD 3, merge := e.getLsbD 4
    m := bits (staged v 0x0C) 16 16, p := bits (staged v 0x0C) 0 16, mw := bits (staged v 0x0D) 0 40 }

/-- The rows that a drain writes. -/
def DrainRegs.rows (r : DrainRegs) : List Nat := (List.range 32).filter fun i => r.mask.getLsbD i

/-- The destination format of a drain or a walk (R198): a TY code, or none where EFMT is refused. -/
def drainFmt (f : Nat) : Option Nat :=
  if f = 15 then some 11 else if [0, 1, 2, 8, 9, 10, 11].contains f then some f else none

/-- The offset of the scale word of a row at offset `o` (R199): the bank's scale word, or the array at `mx.dso`. -/
def drainScaleOff (dst : Region) (r : DrainRegs) (o i : Nat) : Nat :=
  if (dst.fmtBank r.off).isSome then
    let a := dst.base + o
    a / 0x8000 * 0x8000 + 0x7C00 + 4 * (a % 0x8000 / 128) - dst.base
  else r.dso + 4 * i

/-- The checks of `mdrain` at issue, in order (R198): the trap, if one fails. `f` and `sl` are the destination's format and
scale layout, `n` the accumulator's index. -/
def State.drainCheck (s : State) (t : Strand) (f : Nat) (sl : Bool) (phys n : Nat) : Option (Cause × Word) :=
  let eng := fun (code : Nat) => some (Cause.engine, (BitVec.ofNat 64 (0x100 + code) : Word))
  let dh := bits (staged t.mx 5) 0 5
  let bh := bits (staged t.mx 9) 0 5
  let dst := t.regionAt dh
  let k := s.core t.core
  match drainFmt f with
  | none => eng 5
  | some df =>
    let wd := fmtWidth df
    let r := drainRegs t.mx wd
    let f8 := decide (df = 8) || decide (df = 9)
    let bank := (dst.fmtBank r.off).isSome
    if f8 && bank && sl then eng 5
    else if r.off % wd ≠ 0 ∨ r.stride % wd ≠ 0 ∨ r.dso % 4 ≠ 0 then eng 6
    else if f8 && bank && r.rows.any fun i => decide ((dst.base + r.off + i * r.stride) % 128 ≠ 0) then eng 6
    else if r.merge && (decide (df ≠ 11) || r.bias || decide (r.act ≠ 0) || decide (r.m = 0) || decide (r.p ≥ r.m)) then eng 7
    else
      (firstFail (r.rows.map fun i => regionCheck dst dh (r.off + i * r.stride) (r.n * wd) rW)).orElse fun _ =>
      (if f8 then firstFail (r.rows.map fun i =>
        regionCheck dst dh (drainScaleOff dst r (r.off + i * r.stride) i) 4 rW) else none).orElse fun _ =>
      (if r.merge then accessCheck dst dh (BitVec.ofNat 64 r.mw) 8 (rW ||| rA) .sync else none).orElse fun _ =>
      (if r.bias then regionCheck (t.regionAt bh) bh r.bo (4 * r.n) rR else none).orElse fun _ =>
      if (vget k.accs phys {}).err && !r.notrap then
        some (.checksum, BitVec.ofNat 64 (k.errCnt.toNat * 256 + n))
      else none

/-- `mdrain` (R198). It waits for commands of the matrix queue on its accumulator, not for a follow-on that a copy still carries (the
model's choice, log entry 76). -/
def execMdrain (b : GReg) (n w : BitVec 1) (s : State) : Host.Outcome State Fault Refusal :=
  issue (.mdrain b n w) s fun s1 t _ =>
    let k := s1.core t.core
    match k.accOf t.group n.toNat with
    | none => s.engineTrap t 1 4
    | some p =>
      if k.mxq.any fun x => x.kind.acc? = some p then s
      else
        let dst := t.regionAt (bits (staged t.mx 5) 0 5)
        let (f, sl) := s1.endFmt dst (bits (staged t.mx 6) 0 40)
        match s1.drainCheck t f sl p n.toNat with
        | some (c, v) => s.trap s.cur t c v
        | none =>
          s.queueMx s1 t w (.drain p ((drainFmt f).getD 11) sl t.mx dst (t.regionAt (bits (staged t.mx 9) 0 5))) (some b)

/-! ### The epilogue -/

/-- The activation of ACT (R58). -/
def activate (a : Nat) (y : BitVec 32) : BitVec 32 :=
  match a with
  | 1 => reluF32 y
  | 2 => geluF32 y
  | 3 => siluF32 y
  | _ => y

/-- `m` × 2^`e` is at most 448 × 2^`c` (R52). -/
def underScale (m : Nat) (e c : Int) : Bool := decide (m * 2 ^ (e + 200).toNat ≤ 7 * 2 ^ (c + 206).toNat)

/-- The exponent of the row scale of an e4m3 row (R52). -/
def rowExp (ys : List (BitVec 32)) : Int :=
  let fins := ys.filterMap fun y =>
    match FFmt.f32.value y.toNat with
    | .fin _ m e => if m = 0 then none else some (m, e)
    | _ => none
  if fins.isEmpty then 0
  else
    match (List.range 254).find? fun (i : Nat) => fins.all fun x => underScale x.1 x.2 ((i : Int) - 126) with
    | some i => (i : Int) - 126
    | none => 127

/-- The e4m3 element of a value under a row scale 2^`c` (R52). -/
def rowElem (c : Int) (y : BitVec 32) : Nat :=
  match FFmt.f32.value y.toNat with
  | .fin neg m e => (cvt .f32 .e4m3 .rne true (roundVal .f32 .rne false true (.fin neg m (e - c))).1).1
  | _ => (cvt .f32 .e4m3 .rne true y.toNat).1

/-- 2^`c` in binary32, for −126 ≤ c ≤ 127. -/
def pow2F32 (c : Int) : BitVec 32 := BitVec.ofNat 32 ((c + 127).toNat * 2 ^ 23)

/-- The elements of a drained row, and its scale (R199). -/
def drainRow (df : Nat) (ys : List (BitVec 32)) : List Nat × BitVec 32 :=
  match Ty.ofCode? df with
  | some .e4m3 =>
    let c := rowExp ys
    (ys.map (rowElem c), pow2F32 c)
  | some .f32 => (ys.map fun v => v.toNat, oneF32)
  | some y => (ys.map fun v => (cvt .f32 y .rne true v.toNat).1, oneF32)
  | none => (ys.map fun v => v.toNat, oneF32)

/-- What a row's drain leads to. -/
inductive RowOut where
  | ok (s : State) (bytes : Nat) (hit : Bool)
  | stall (cause va : Nat) (need : Acc)
  | bad

/-- A list of `n` binary32 values at an offset of a region. -/
def State.readF32s (s : State) (d : Nat) (r : Region) (o n : Nat) : Except SpanErr (List (BitVec 32) × State) :=
  (s.readSpan d r o (4 * n)).map fun x => ((elems 4 n x.1).map fun v => BitVec.ofNat 32 v, x.2)

/-- Drains row `i` of accumulator `acc` (R198, R199, R201). The row is written whole, or not where an access faults. A bias
or a destination that is read from a sealed core counts as a sealed destination. -/
def State.drainOne (s : State) (c sid sn : Nat) (acc : Accum) (df : Nat) (r : DrainRegs) (dst bias : Region) (i : Nat) : RowOut :=
  let d := dieOf c
  let dst := s.follow sid dst
  let bias := s.follow sid bias
  let o := r.off + i * r.stride
  let read := fun (use : Bool) (g : Region) (at_ : Nat) (s : State) =>
    if use then s.readF32s d g at_ r.n else .ok ([], s)
  match read r.bias bias r.bo s with
  | .error (.xlate cause va) => .stall cause va accR
  | .error (.bad _) => .bad
  | .error (.peer _) => .ok s 0 true
  | .ok (bs, s) =>
    match read (r.merge && decide (r.p ≠ 0)) dst o s with
    | .error (.xlate cause va) => .stall cause va accR
    | .error (.bad _) => .bad
    | .error (.peer _) => .ok s 0 true
    | .ok (olds, s) =>
      let ys := (List.range r.n).map fun n =>
        let y := acc.get i n
        let y := match bs[n]? with
          | some b => addF32 y b
          | none => y
        let y := activate r.act y
        match olds[n]? with
        | some v => addF32 v y
        | none => y
      let (es, scale) := drainRow df ys
      let wd := fmtWidth df
      match s.engPut sid sn d dst o ((es.map fun e => bytesOfNat wd e).flatten) with
      | .error (.xlate cause va) => .stall cause va accW
      | .error _ => .bad
      | .ok (s1, h1) =>
        let kept := if h1.isSome then s.engKept d dst o (r.n * wd) else r.n * wd
        if df = 8 ∨ df = 9 then
          match s1.engPut sid sn d dst (drainScaleOff dst r o i) (bytesOfNat 4 scale.toNat) with
          | .error (.xlate cause va) => .stall cause va accW
          | .error _ => .bad
          | .ok (s2, h2) => .ok s2 kept (h1.isSome || h2.isSome)
        else .ok s1 kept h1.isSome

/-- Changes the matrix command of number `sn` of a core. -/
def State.modMx (s : State) (c sn : Nat) (f : MxCmd → MxCmd) : State :=
  s.modCore c fun k => { k with mxq := k.mxq.map fun x => if x.sn = sn then f x else x }

/-- The end of a merge drain on core `c` (R201): the merge word gains 1, filled when the last contribution is in. -/
def State.mergeWord (s : State) (c sid sn : Nat) (r : DrainRegs) (dst : Region) : State :=
  if r.p + 1 < r.m then
    let b := wordBytes (BitVec.ofNat 64 (r.p + 1))
    if s.pairOut sid dst then (s.pairPut sid sn (dieOf c) (s.follow sid dst) r.mw b).toOption.elim s fun x => x.1
    else
      match (s.follow sid dst).addr r.mw with
      | .phys k => s.storeAt k b
      | .virt a va => (s.writeVirt (dieOf c) a va b).toOption.getD s
  else s.complete sid sn dst r.mw (BitVec.ofNat 64 r.m)

/-- What row `i` of a drain reaches lies in packages with links (R336); with `i` none, the merge word. -/
def State.drainUp (s : State) (c sid : Nat) (df : Nat) (r : DrainRegs) (dst bias : Region) (i : Option Nat) : Bool :=
  let d := dieOf c
  let dst := s.follow sid dst
  match i with
  | some i =>
    s.allUp d dst (r.off + i * r.stride) (r.n * fmtWidth df) accW &&
      (!r.bias || s.allUp d (s.follow sid bias) r.bo (4 * r.n) accR) &&
      (!(decide (df = 8) || decide (df = 9)) || s.allUp d dst (drainScaleOff dst r (r.off + i * r.stride) i) 4 accW)
  | none => !r.merge || s.runUp d dst r.mw accW

/-- Drains the rows that are left (R198, R199), while links lead to what they reach (R336): the command goes on to occupy the
array, stalls on a page fault with a record DRAINFAULT, or ends with UNCORR. -/
def State.drainRows (s : State) (c : Nat) (x : MxCmd) (acc : Accum) (df : Nat) (r : DrainRegs) (dst bias : Region) :
    List Nat → State
  | [] =>
    if !s.drainUp c x.sid df r dst bias none then
      s.modMx c x.sn fun _ => { x with begun := true, waiting := true, turn := true, tok := 0 }
    else
    let s := if r.merge then s.mergeWord c x.sid x.sn r dst else s
    s.modMx c x.sn fun y => { x with begun := true, waiting := false, turn := true, row := 32, tok := y.tok }
  | i :: rest =>
    if i < x.row then State.drainRows s c x acc df r dst bias rest
    else if !s.drainUp c x.sid df r dst bias (some i) then
      s.modMx c x.sn fun _ => { x with begun := true, waiting := true, turn := true, tok := 0 }
    else
      match s.drainOne c x.sid x.sn acc df r dst bias i with
      | .ok s n hit =>
        State.drainRows s c { x with row := i + 1, bytes := x.bytes + n, cause := if hit then 5 else x.cause } acc df r dst bias rest
      | .bad => s.modMx c x.sn fun _ => { x with begun := true, waiting := false, turn := true, row := 32, cause := 6 }
      | .stall cause va need =>
        match s.engFault c x.sid 1 3 va need cause x.pc (.drain c x.sn) with
        | none => s.modMx c x.sn fun _ => { x with begun := true, waiting := true, turn := true, tok := 0 }
        | some (tok, s) => s.modMx c x.sn fun _ => { x with begun := true, waiting := true, turn := true, tok }

/-- Runs a drain, or goes on with it. -/
def State.runDrain (s : State) (c : Nat) (x : MxCmd) : State :=
  match x.kind with
  | .drain p df _ regs dst bias =>
    let r := drainRegs regs (fmtWidth df)
    s.drainRows c x (vget (s.core c).accs p {}) df r dst bias r.rows
  | _ => s

/-! ### The array (R191) -/

/-- The array is free: no command that has begun still occupies it. -/
def Core.arrayFree (k : Core) : Bool := !(k.mxq.any fun x => x.begun && !x.waiting)

/-- A walk. -/
def MxKind.isWalk : MxKind → Bool
  | .walk _ => true
  | _ => false

/-- A merge drain (R201). -/
def MxKind.isMerge : MxKind → Bool
  | .drain _ _ _ regs _ _ => (drainRegs regs 1).merge
  | _ => false

/-- A command may begin now (R131, R132): it is the first of its strand that has not begun, and its stores and synchronising
operations are performed. -/
def State.mxReady (s : State) (k : Core) (x : MxCmd) : Bool :=
  !x.begun && decide (x.cause = 0) && s.mayBegin x.sid x.after &&
    decide ((k.mxq.find? fun y => decide (y.sid = x.sid) && !y.begun).map (fun y => y.sn) = some x.sn)

/-- What the next step of a drain reads (R198, R201): the merge word before its turn, the bias, and the rows that it merges into. -/
def State.drainReads (s : State) (x : MxCmd) : List (Region × Nat × Nat) :=
  match x.kind with
  | .drain _ df _ regs dst bias =>
    let r := drainRegs regs (fmtWidth df)
    let dst := s.follow x.sid dst
    (if r.merge && !x.turn then [(dst, r.mw, 8)] else []) ++
      (if r.bias then [(s.follow x.sid bias, r.bo, 4 * r.n)] else []) ++
      (if r.merge && decide (r.p ≠ 0) then
        (r.rows.filter fun i => decide (x.row ≤ i)).map fun i => (dst, r.off + i * r.stride, 4 * r.n) else [])
  | _ => []

/-- The accumulator that a command acts on is held by a drain that has begun (R191). -/
def Core.accHeld (k : Core) (x : MxCmd) : Bool :=
  k.mxq.any fun y => y.begun && decide (x.kind.acc?.isSome) && decide (y.kind.acc? = x.kind.acc?)

/-- The merge drain `x` of core `c` finds its position in the merge word and adds its contribution (R201). A merge word on a sealed
core, or a poisoned one, ends the drain. -/
def State.mergeTurn (s : State) (c : Nat) (x : MxCmd) : State :=
  match x.kind with
  | .drain _ df _ regs dst _ =>
    let r := drainRegs regs (fmtWidth df)
    let fin := fun (cause : Nat) =>
      s.modMx c x.sn fun y => { y with waiting := false, turn := true, row := 32, cause }
    if !s.runUp (dieOf c) (s.follow x.sid dst) r.mw accR then s else
    match s.readSpan (dieOf c) (s.follow x.sid dst) r.mw 8 with
    | .error (.bad _) => fin 6
    | .error _ => fin 5
    | .ok (b, s1) => if natOfBytes b = r.p then s1.runDrain c { x with turn := true } else s
  | _ => s

/-- The step that a drain of core `c` is ready for, if it is: it begins, or takes its turn, or goes on after a page fault. -/
def State.drainGo (s : State) (c : Nat) (x : MxCmd) : Option State :=
  let k := s.core c
  if !k.arrayFree then none
  else if !x.begun then
    (if x.kind.isMerge || !s.mxReady k x || k.accHeld x then none else some (s.runDrain c { x with turn := true }))
  else if !x.waiting then none
  else if !x.turn then some (s.mergeTurn c x)
  else if x.tok = 0 then some (s.runDrain c x)
  else none

/-- The array of core `ua` takes entry `ub` of the queue and performs it (R191). A waiting drain holds its accumulator;
`mchk` waits for every command that began before it (R200); a merge drain leaves the array until its turn (R201). -/
def execMatrixCommandBegin (s : State) : Host.Outcome State Fault Refusal :=
  let c := s.ua
  let k := s.core c
  match k.mxq[s.ub]? with
  | none => .next s
  | some x =>
    if x.kind.isWalk || !s.mxReady k x || !k.arrayFree || k.accHeld x then .next s
    else
      let begun := fun (s : State) => s.modMx c x.sn fun y => { y with begun := true }
      match x.kind with
      | .mm p fmt n m a sa bs =>
        -- an uncorrectable error of operand memory seals the core (R313, R317)
        if s.mmPoisoned c fmt n m a bs then .next (s.seal c)
        else
          let (steps, sums) := s.mmCompares c fmt n m a bs
          .next ((s.runMm c p fmt n m a sa bs).modMx c x.sn fun y => { y with begun := true, steps, sums })
      | .clr p =>
        .next (begun (s.modCore c fun k => { k with accs := vset k.accs p { (vget k.accs p {}) with el := [], err := false } }))
      | .chk =>
        if k.mxq.any fun y => y.begun then .next s
        else
          let s1 := s.modMx c x.sn fun y => { y with begun := true, val := k.errWord }
          .next (s1.modCore c fun k => { k with errCnt := 0, errScl := false })
      | .drain .. =>
        if x.kind.isMerge then .next (s.modMx c x.sn fun y => { y with begun := true, waiting := true })
        else .next ((s.askRead x.sid x.sn (s.drainReads x)).getD (s.runDrain c { x with turn := true }))
      | .walk _ => .next s

/-- The command that occupies the array of core `ua` has run its cost (R191): `mchk` gives its word; a drain's status is on its
way to g(B) (R199); the others stop counting. CHK also marks an error that came after the issue check of a drain with NOTRAP = 0
(R324; log entry 69). -/
def execMatrixCommandComplete (s : State) : Host.Outcome State Fault Refusal :=
  let c := s.ua
  let k := s.core c
  match k.mxq.find? fun x => x.begun && !x.waiting && !x.kind.isWalk && !s.pairHeld x.sid x.sn with
  | none => .next s
  | some x =>
    let s1 := s.modCore c fun k => { k with mxq := k.mxq.filter fun y => !(y.sn == x.sn) }
    match x.kind with
    | .chk => .next ((s1.deliver x.sid x.dest x.val).uncount x.sid x.sn)
    | .drain p .. =>
      let chk := (vget k.accs p {}).err
      let w : Word := BitVec.ofNat 64 ((if x.cause ≠ 0 then 2 ^ 63 + x.cause * 2 ^ 56 else 0) + (if chk then 2 ^ 62 else 0)
        + x.bytes % 2 ^ 48)
      match s1.strand? x.sid with
      | none => .next s1
      | some t =>
        if t.st = .ended then .next (s1.uncount x.sid x.sn)
        else
          let r : Ret := { kind := .drain, sn := x.sn, dests := [(x.dest, w)] }
          .next (s1.setStrand x.sid { t with rets := t.rets ++ [r] })
    | _ => .next (s1.uncount x.sid x.sn)

/-- A drain that was woken from a page fault takes the array of core `ua` again for its remaining rows (R199): entry `ub`. -/
def execDrainResume (s : State) : Host.Outcome State Fault Refusal :=
  let c := s.ua
  let k := s.core c
  match k.mxq[s.ub]? with
  | none => .next s
  | some x =>
    if x.begun && x.waiting && x.turn && decide (x.tok = 0) && k.arrayFree then
      .next ((s.askRead x.sid x.sn (s.drainReads x)).getD (s.runDrain c x))
    else .next s

/-- The merge drain in entry `ub` of core `ua` looks at its merge word (R201), with the partner's where paired mode merges what it
reads (R323). -/
def execMergeDrainTurn (s : State) : Host.Outcome State Fault Refusal :=
  let c := s.ua
  let k := s.core c
  match k.mxq[s.ub]? with
  | none => .next s
  | some x =>
    match x.kind with
    | .drain .. =>
      if !(x.begun && x.waiting && !x.turn && k.arrayFree) then .next s
      else .next ((s.askRead x.sid x.sn (s.drainReads x)).getD (s.mergeTurn c x))
    | _ => .next s

/-- A drain's status reaches g(B), and MX stops counting (R199). -/
def execDrainStatusDeliver (s : State) : Host.Outcome State Fault Refusal := arriveResult .drain s

/-- The array compares (R197, R206): in the `mm` or `mmg` on accumulator `p` that occupies it, or, with `p` above 1, in the
latest pass of the walk in the table; duplicated steps with `scl`, else checksums. -/
def Core.compares (k : Core) (p : Nat) (scl : Bool) : Bool :=
  if p ≤ 1 then
    k.mxq.any fun x => x.begun && (match x.kind with
      | .mm q .. => decide (q = p)
      | _ => false) && (if scl then x.steps else x.sums)
  else
    match k.table with
    | some t => if scl then t.steps else t.sums
    | none => false

/-- The array finds a mismatch in what it performs (R197, R200): it is counted, and sets ERR of the accumulator; a pass of a walk
names none (log entry 69). -/
def State.mismatch (s : State) (c p : Nat) (scl : Bool) : State :=
  if !(s.core c).compares p scl then s else
  let s := s.modCore c fun k => { k with
    accs := if p ≤ 1 then vset k.accs p { (vget k.accs p {}) with err := true } else k.accs
    errCnt := if k.errCnt = BitVec.allOnes 8 then k.errCnt else k.errCnt + 1
    errScl := k.errScl || scl }
  s.countErr (dieOf c) 8

end Sys2Proof.Machine
end

