-- ==== Sys2Proof/Machine/Walk.lean ====
section
/-! DEFINITION. The matrix walk (R203 to R222): `walk`, `wstat`, and the steps of the walk engine. -/

namespace Sys2Proof.Machine

/-! ### Fields -/

/-- The fields of `wk.ctl` (R218). -/
structure WalkCtl where
  ifmt : Nat
  dlim : Nat
  keep : Bool
  vchk : Bool
  new : Bool
  trapRow : Bool
  deriving DecidableEq, Repr

/-- Reads `wk.ctl`. -/
def walkCtl (v : Vector Word 32) : WalkCtl :=
  let c := staged v 9
  let d := bits c 4 6
  { ifmt := bits c 10 4, dlim := if d = 0 then 64 else d, keep := c.getLsbD 3, vchk := c.getLsbD 2, new := c.getLsbD 1
    trapRow := c.getLsbD 0 }

/-- The input row stride (R218). -/
def walkIstr (v : Vector Word 32) : Nat :=
  let x := bits (staged v 5) 0 40
  if x = 0 then 128 * tileWidth (walkCtl v).ifmt else x

/-- The record stride S (R212). -/
def walkS (v : Vector Word 32) (df : Nat) : Nat :=
  let x := bits (staged v 8) 0 40
  if x = 0 then 16 + 128 * fmtWidth df else x

/-- The fields of a node's CTL (R204). -/
structure NodeCtl where
  ver : Nat
  leafid : BitVec 16
  nch : Nat
  par : Nat
  rule : Nat
  feedY : Bool
  leaf : Bool
  fmt : Nat
  n : Nat
  k : Nat
  deriving DecidableEq, Repr

/-- Reads a node's CTL. -/
def nodeCtl (w : Word) : NodeCtl :=
  { ver := bits w 48 16, leafid := w.extractLsb' 32 16, nch := bits w 28 4, par := bits w 24 4, rule := bits w 22 2
    feedY := w.getLsbD 21, leaf := w.getLsbD 20, fmt := bits w 16 4, n := bits w 8 7 + 1, k := bits w 0 7 + 1 }

/-- The width of a node's elements in the bound check: 0 for a format that is none (R205). -/
def NodeCtl.ws (c : NodeCtl) : Nat := if c.fmt = 0 ∨ c.fmt = 8 then 1 else if c.fmt = 10 then 2 else 0

/-- SCOFF of a node's header. -/
def nodeScoff (h : List Byte) : Nat := natOfBytes ((h.drop 8).take 4)
/-- Threshold T`j` of a node's header, as bf16 (R204). -/
def nodeT (h : List Byte) (j : Nat) : Nat := natOfBytes ((h.drop (0x10 + 2 * (j - 1))).take 2)
/-- CHILD`c` of a node's header. -/
def nodeChild (h : List Byte) (c : Nat) : BitVec 32 := BitVec.ofNat 32 (natOfBytes ((h.drop (0x20 + 4 * c)).take 4))

/-- The rule of a node is well formed (R205). -/
def ruleOk (c : NodeCtl) (h : List Byte) : Bool :=
  match c.rule with
  | 0 => decide (c.par = 0) && decide (c.nch ≥ 2)
  | 1 => decide (2 ≤ c.par) && decide (c.par ≤ 8) && decide (c.par ≤ c.n) && decide (c.nch ≥ c.par)
  | 2 =>
    let v := fun (j : Nat) => FFmt.bf16.value (nodeT h j)
    decide (1 ≤ c.par) && decide (c.par ≤ 7) && decide (c.nch ≥ c.par + 1) &&
      (List.range c.par).all (fun j => !(v (j + 1)).isNan) &&
      (List.range (c.par - 1)).all fun j => decide ((v (j + 1)).cmp (v (j + 2)) < 0)
  | _ => decide (1 ≤ c.par) && decide (c.par ≤ 3) && decide (c.par ≤ c.n) && decide (c.nch ≥ 2 ^ c.par)

/-- The checks of R205 that do not concern a single row: the cause, or none. `nh` is the node's region. -/
def nodeCheck (nh : Region) (off : Nat) (c : NodeCtl) (h : List Byte) (ctl : WalkCtl) (ver : Nat) : Option Nat :=
  let sc := nodeScoff h
  if off + 64 + c.k * c.n * c.ws > nh.bound ∨ (sc ≠ 0 ∧ off + sc + 4 > nh.bound) then some 1
  else if (nh.base + off) % 64 ≠ 0 then some 2
  else if ctl.vchk && decide (c.ver ≠ ver) then some 3
  else if c.fmt ≠ 0 ∧ c.fmt ≠ 8 ∧ c.fmt ≠ 10 then some 4
  else if !c.feedY && decide (c.fmt ≠ ctl.ifmt) then some 4
  else if !c.leaf && !ruleOk c h then some 4
  else none

/-! ### Row states (R207 to R209) -/

/-- A row is ACTIVE. -/
def WalkRow.active (r : WalkRow) : Bool := decide (r.st = 0)

/-- A row goes to FAULT with a cause (R209). -/
def WalkRow.fault (r : WalkRow) (cause : Nat) : WalkRow := { r with st := 3, cause := BitVec.ofNat 4 cause }

/-- The 16 bytes of a row state (R208). -/
def WalkRow.bytes (r : WalkRow) : List Byte :=
  bytesOfNat 4 r.node.toNat ++ bytesOfNat 2 (if r.st = 1 then r.leafid.toNat else 0) ++ bytesOfNat 1 r.depth ++
    bytesOfNat 1 (r.cause.toNat * 16 + (if r.nan then 4 else 0) + r.st.toNat) ++ bytesOfNat 8 r.path.toNat

/-- The index of the largest of the first entries that are not NaN; ties go to the lower index (R207). -/
def argmax : List (BitVec 32) → Nat → Option (Nat × FVal) → Nat
  | [], _, b => (b.map fun x => x.1).getD 0
  | y :: t, j, b =>
    let v := FFmt.f32.value y.toNat
    if v.isNan then argmax t (j + 1) b
    else
      match b with
      | none => argmax t (j + 1) (some (j, v))
      | some (i, w) => if v.cmp w > 0 then argmax t (j + 1) (some (j, v)) else argmax t (j + 1) (some (i, w))

/-- The heddle's choice (R207): the child and whether a NaN was met. -/
def heddle (c : NodeCtl) (h : List Byte) (y : List (BitVec 32)) : Nat × Bool :=
  let v := fun (j : Nat) => FFmt.f32.value ((y[j]?).getD 0).toNat
  match c.rule with
  | 0 => if (v 0).isNan then (0, true) else (if (v 0).cmp (.fin false 0 0) > 0 then 1 else 0, false)
  | 1 => (argmax (y.take c.par) 0 none, (y.take c.par).any fun x => (FFmt.f32.value x.toNat).isNan)
  | 2 =>
    if (v 0).isNan then (0, true)
    else (((List.range c.par).filter fun j => (FFmt.bf16.value (nodeT h (j + 1))).cmp (v 0) ≤ 0).length, false)
  | _ =>
    (((List.range c.par).map fun j => if ((y[j]?).getD 0).getLsbD 31 then 2 ^ j else 0).sum,
      (List.range c.par).any fun j => (v j).isNan)

/-- A row's step after a pass at a node that is not a leaf (R207, R209). -/
def WalkRow.choose (r : WalkRow) (c : NodeCtl) (h : List Byte) (dlim : Nat) (y : List (BitVec 32)) : WalkRow :=
  let (ch, nan) := heddle c h y
  let r := { r with y, nan := r.nan || nan }
  if r.depth + 1 > dlim then r.fault 5
  else { r with node := nodeChild h ch, depth := r.depth + 1, path := r.path * 8 + BitVec.ofNat 48 ch }

/-- The vector fed to a node and its activation scale (R206). -/
def WalkRow.feed (r : WalkRow) (c : NodeCtl) : List Nat × BitVec 32 :=
  if !c.feedY then ((elems (tileWidth c.fmt) 128 r.input).take c.k, if c.fmt = 8 then r.scale else oneF32)
  else drainRow c.fmt r.y

/-- The result of a pass for one row (R206). -/
def WalkRow.result (r : WalkRow) (c : NodeCtl) (m : List Byte) (sb : BitVec 32) : List (BitVec 32) :=
  let (x, sa) := r.feed c
  let ws := tileWidth c.fmt
  let w := elems ws (c.k * c.n) m
  (List.range c.n).map fun n => blockAdd c.fmt 0 x ((List.range c.k).map fun k => (w[c.n * k + n]?).getD 0) sa sb

/-- The array compares the checksum of a row in a pass (R197). -/
def WalkRow.compares (r : WalkRow) (c : NodeCtl) (m : List Byte) : Bool :=
  rowSums c.fmt (r.feed c).1 (elems (tileWidth c.fmt) (c.k * c.n) m)

/-! ### Issue (R219) -/

/-- The ENGINE and handle checks of `walk`, in order (R219): the trap, if one fails. -/
def State.walkCheck (s : State) (t : Strand) : Option (Cause × Word) :=
  let v := t.wk
  let eng := fun (code : Nat) => some (Cause.engine, (BitVec.ofNat 64 (0x200 + code) : Word))
  let ctl := walkCtl v
  let rows := bits (staged v 2) 0 6
  let nc := bits (staged v 0x0C) 0 8
  let nhI := bits (staged v 0) 0 5
  let ihI := bits (staged v 3) 0 5
  let ohI := bits (staged v 6) 0 5
  let ih := t.regionAt ihI
  let oh := t.regionAt ohI
  let wi := tileWidth ctl.ifmt
  let out := bits (staged v 7) 0 40
  let ostr := bits (staged v 8) 0 40
  let inn := bits (staged v 4) 0 40
  let isc := bits (staged v 0x0B) 0 40
  if rows > 32 then eng 1
  else if ctl.ifmt ≠ 0 ∧ ctl.ifmt ≠ 8 ∧ ctl.ifmt ≠ 10 then eng 2
  else if nc ≠ 0xFF ∧ ((s.core t.core).slotOf t.group nc).isNone then eng 3
  else
    match drainFmt (s.endFmt oh out).1 with
    | none => eng 4
    | some df =>
      if df = 8 ∨ df = 9 then eng 4
      else if ih.space = 4 ∨ oh.space = 4 then eng 5
      else if bits (staged v 5) 0 40 % wi ≠ 0 ∨ out % 8 ≠ 0 ∨ ostr % 8 ≠ 0 ∨ (ostr ≠ 0 ∧ ostr < 16 + 128 * fmtWidth df) ∨
          (ctl.ifmt = 8 ∧ isc % 4 ≠ 0) then eng 6
      else if (t.regionAt nhI).rights &&& rR = 0 then some (.rights, BitVec.ofNat 64 (256 + nhI))
      else
        (if rows = 0 then none
          else
            (regionCheck ih ihI inn ((rows - 1) * walkIstr v + 128 * wi) rR).orElse fun _ =>
            (if ctl.ifmt = 8 then regionCheck ih ihI isc (4 * rows) rR else none).orElse fun _ =>
            regionCheck oh ohI out ((rows - 1) * walkS v df + walkS v df) rW).orElse fun _ =>
        t.cwCheck (staged v 0x0D) (staged v 0x0E)

/-- The walk that a held table of a core belongs to, if it is the strand's (R217). -/
def State.heldTable (s : State) (c sid : Nat) : Option WalkTable :=
  (s.core c).table.filter fun w => w.held && decide (w.cmd.sid = sid)

/-- NFAULT and NLEAF of a table. -/
def WalkTable.counts (w : WalkTable) : Nat × Nat :=
  ((w.rows.filter fun r => r.st = 3).length, (w.rows.filter fun r => r.st = 1).length)

/-- The completion word of a walk (R212), ended by a cause or not. -/
def WalkTable.word (w : WalkTable) (cause : Nat) : Word :=
  let (nf, nl) := w.counts
  BitVec.ofNat 64 ((if cause ≠ 0 then 2 ^ 63 + cause * 2 ^ 56 else 0) + (if nf ≠ 0 then 2 ^ 62 else 0)
    + (w.passes % 2 ^ 16) * 2 ^ 32 + nf * 2 ^ 8 + nl)

/-- The word of `wstat` for a table (R220). -/
def WalkTable.status (w : WalkTable) (held busy : Bool) : Word :=
  let (nf, nl) := w.counts
  let cause := ((w.rows.find? fun r => r.st = 3).map fun r => r.cause.toNat).getD 0
  BitVec.ofNat 64 ((w.passes % 2 ^ 16) * 2 ^ 48 + nf * 2 ^ 32 + nl * 2 ^ 24 + (w.rows.filter WalkRow.active).length * 2 ^ 16
    + cause * 16 + (if w.rows.any fun r => r.nan then 8 else 0) + (if w.trap then 4 else 0) + (if held then 2 else 0)
    + (if busy then 1 else 0))

/-- The registers that a walk captured. -/
def MxCmd.walk? (x : MxCmd) : Option WalkCmd :=
  match x.kind with
  | .walk w => some w
  | _ => none

/-- Writes a walk's completion word unless NONE is set (R212). -/
def State.walkWord (s : State) (x : MxCmd) (v : Word) : State :=
  match x.walk? with
  | none => s
  | some w =>
    let cw := staged w.regs 0x0E
    if cw.getLsbD 63 then s else s.complete x.sid x.sn w.cw (bits cw 0 40) v

/-- Frees the row state table of a core, with a node cache that the walk claimed (R211, R217). -/
def State.freeTable (s : State) (c : Nat) (w : WalkTable) : State :=
  let slot := match w.cmd.walk? with
    | some x => if x.cacheClaimed then some (bits (staged x.regs 0x0C) 0 8) else none
    | none => none
  s.modCore c fun k => { k with
    table := none
    opslots := match slot with
      | some n => if (k.slotOf w.cmd.group n).isSome then Tab.erase k.opslots n else k.opslots
      | none => k.opslots }

/-- A link leads to the package of a walk's completion word (R336). -/
def State.walkWordUp (s : State) (c : Nat) (x : MxCmd) : Bool :=
  match x.walk? with
  | some w => s.wordUp (dieOf c) x.sid w.cw (staged w.regs 0x0E)
  | none => true

/-- A held table is discarded with its completion word (R217); while no link leads to the word, the table waits for that (R336). -/
def State.discardTable (s : State) (c : Nat) (w : WalkTable) : State :=
  let s := if s.walkWordUp c w.cmd then (s.walkWord w.cmd (w.word 4)).freeTable c w
    else s.modCore c fun k => { k with table := some { w with held := false, trap := false, cmd := { w.cmd with cause := 4 } } }
  s.modStrand w.cmd.sid fun t => { t with wstat := w.status false false }

/-- `walk` and `walk.w` (R217, R219): a held table of the strand is resumed, unless NEW asks for a new walk. A trap-capable
walk holds the strand (R214). -/
def execWalk (w : BitVec 1) (s : State) : Host.Outcome State Fault Refusal :=
  issue (.walk w) s fun s1 t _ =>
    let c := t.core
    let ctl := walkCtl t.wk
    let hold := fun (u : Strand) (b : Bool) (sn : Nat) => if b then { u with hold := some sn } else u
    match s1.heldTable c s.cur, ctl.new with
    | some h, false =>
      let (sn, s2) := s1.fresh
      let s2 := s2.modCore c fun k => { k with
        table := some { h with held := false, trap := false, cmd := { h.cmd with sn, pc := t.pc, after := t.gate (w = 1) } } }
      s2.setStrand s.cur (hold ((t.countOn sn [.mx]).named sn).advance true sn)
    | held, _ =>
      match s1.walkCheck t with
      | some (k, v) => s.trap s.cur t k v
      | none =>
        if (s1.core c).mxq.length ≥ 8 then s
        else
          let s2 := match held with
            | some h => s1.discardTable c h
            | none => s1
          let (sn, s2) := s2.fresh
          let nh := t.regionAt (bits (staged t.wk 0) 0 5)
          let oh := t.regionAt (bits (staged t.wk 6) 0 5)
          let cap := decide (nh.space = 4) || ctl.trapRow
          let k : WalkCmd := {
            regs := t.wk, nh, ih := t.regionAt (bits (staged t.wk 3) 0 5), oh
            cw := t.regionAt (bits (staged t.wk 0x0D) 0 5)
            df := (drainFmt (s1.endFmt oh (bits (staged t.wk 7) 0 40)).1).getD 11 }
          let x : MxCmd := { sn, sid := s.cur, group := t.group, pc := t.pc, kind := .walk k, after := t.gate (w = 1) }
          let s2 := s2.modCore c fun k => { k with mxq := k.mxq ++ [x] }
          s2.setStrand s.cur { hold ((t.countOn sn [.mx]).named sn).advance cap sn with wstat := 0 }

/-- The word of `wstat` for strand `sid` on core `c` (R220): of its latest walk, queued, in the table, or ended. -/
def State.walkStatus (s : State) (sid c : Nat) : Word :=
  let k := s.core c
  if k.mxq.any fun x => decide (x.sid = sid) && x.kind.isWalk then 1
  else
    match k.table.filter fun x => decide (x.cmd.sid = sid) with
    | some x => x.status x.held (!x.held)
    | none => ((s.strand? sid).map fun t => t.wstat).getD 0

/-- DISCARD of `wstat` (R217, R220): a held table of the strand goes. -/
def State.walkDiscard (s : State) (sid c : Nat) (arg : Word) : State :=
  match s.heldTable c sid with
  | some h => if arg.getLsbD 0 then s.discardTable c h else s
  | none => s

/-- `wstat` (R220): DISCARD ends a held table; then the word of the strand's latest walk on the core. With an earlier operation in
its way it waits, and the strand goes on (R131, R140). -/
def execWstat (a d : GReg) (w : BitVec 1) (s : State) : Host.Outcome State Fault Refusal :=
  issue (.wstat a d w) s fun s1 t rd =>
    if t.mustDefer (.wstat a d w) (w = 1) then s1.defer s.cur t (.wstat a d w) d (rd a) (t.gate (w = 1))
    else
      let s2 := s1.walkDiscard s.cur t.core (rd a)
      let u := (s2.strand? s.cur).getD t
      s2.finish s.cur { t with wstat := u.wstat } d (s2.walkStatus s.cur t.core)

/-! ### The engine -/

/-- Row `i` of a walk as it begins (R209, R219): its input and scale are read, which may set A of their pages (R304); a row whose
input cannot be read faults. -/
def State.walkRow (s : State) (c sid : Nat) (w : WalkCmd) (i : Nat) : WalkRow × State :=
  let d := dieOf c
  let ih := s.follow sid w.ih
  let ctl := walkCtl w.regs
  let r : WalkRow := { node := (staged w.regs 1).setWidth 32, st := if (staged w.regs 0x0F).getLsbD i then 0 else 2 }
  match s.readSpan d ih (bits (staged w.regs 4) 0 40 + i * walkIstr w.regs) (128 * tileWidth ctl.ifmt) with
  | .error (.peer _) => (if r.active then r.fault 6 else r, s)
  | .error _ => (if r.active then r.fault 7 else r, s)
  | .ok (b, s) =>
    if ctl.ifmt = 8 then
      match s.readSpan d ih (bits (staged w.regs 0x0B) 0 40 + 4 * i) 4 with
      | .error (.peer _) => (if r.active then r.fault 6 else r, s)
      | .error _ => (if r.active then r.fault 7 else r, s)
      | .ok (sc, s) => ({ r with input := b, scale := BitVec.ofNat 32 (natOfBytes sc) }, s)
    else ({ r with input := b, scale := oneF32 }, s)

/-- Rows `i` to `i` + `n` − 1 of a walk as it begins, in their order. -/
def State.walkRows (s : State) (c sid : Nat) (w : WalkCmd) (i : Nat) : Nat → List WalkRow × State
  | 0 => ([], s)
  | n + 1 =>
    let (r, s) := s.walkRow c sid w i
    let (l, s) := State.walkRows s c sid w (i + 1) n
    (r :: l, s)

/-- What a walk reads as it begins: the inputs of its rows, and their scales. -/
def State.walkInputs (s : State) (sid : Nat) (w : WalkCmd) : List (Region × Nat × Nat) :=
  let ih := s.follow sid w.ih
  let fmt := (walkCtl w.regs).ifmt
  ((List.range (bits (staged w.regs 2) 0 6)).map fun i =>
    (ih, bits (staged w.regs 4) 0 40 + i * walkIstr w.regs, 128 * tileWidth fmt) ::
      if fmt = 8 then [(ih, bits (staged w.regs 0x0B) 0 40 + 4 * i, 4)] else []).flatten

/-- Walk `w` of command `x` begins on core `c` (R203): it takes the free table and the node cache (R211), and reads its inputs, once
links lead to them (R336). -/
def State.walkTake (s : State) (c : Nat) (x : MxCmd) (w : WalkCmd) : State :=
  if !(s.walkInputs x.sid w).all fun y => s.allUp (dieOf c) y.1 y.2.1 y.2.2 accR then s else
  let nc := bits (staged w.regs 0x0C) 0 8
  let (w, s1) :=
    if nc ≠ 0xFF then (w, s)
    else
      match s.claimUnits c x.group 2 with
      | some (u, s1) => ({ w with cacheClaimed := true, regs := vset w.regs 0x0C (BitVec.ofNat 64 u) }, s1)
      | none => (w, s)
  let slot := bits (staged w.regs 0x0C) 0 8
  let (rows, s1) := s1.walkRows c x.sid w 0 (bits (staged w.regs 2) 0 6)
  let t : WalkTable := { cmd := { x with kind := .walk w, begun := true }, rows }
  s1.modCore c fun k => { k with
    mxq := k.mxq.filter fun y => !(y.sn == x.sn)
    table := some t
    ncache := if (walkCtl w.regs).keep then k.ncache else k.ncache.filter fun y => !(y.1 == slot) }

/-- The walk in entry `ub` of the queue of core `ua` begins (R203), with the partner's where paired mode merges what it reads
(R323). -/
def execWalkBegin (s : State) : Host.Outcome State Fault Refusal :=
  let c := s.ua
  let k := s.core c
  match k.mxq[s.ub]? with
  | none => .next s
  | some x =>
    match x.walk? with
    | none => .next s
    | some w =>
      if k.table.isSome || !s.mxReady k x then .next s
      else .next ((s.askRead x.sid x.sn (s.walkInputs x.sid w)).getD (s.walkTake c x w))

/-- A node as fetched: its header, matrix and weight scale. -/
structure NodeImage where
  hdr : List Byte
  mat : List Byte
  scale : BitVec 32
  deriving DecidableEq, Repr

/-- What the fetch of a node leads to. -/
inductive NodeOut where
  | ok (c : NodeCtl) (m : NodeImage) (s : State)
  | cause (n : Nat) (s : State)
  | wait
  | xlate (cause va : Nat)

/-- The error of a fetch (R208, R215). -/
def NodeOut.ofErr (s : State) : SpanErr → NodeOut
  | .xlate c va => .xlate c va
  | .peer _ => .cause 6 s
  | .bad _ => .cause 7 s

/-- The bytes of the image of `node` in the node cache, if it is there (R211). -/
def Core.cached (k : Core) (slot off : Nat) : Option (List Byte) :=
  (k.ncache.find? fun x => decide (x.1 = slot) && decide (x.2.1 = off)).map fun x => x.2.2

/-- Drops the least recently used images of a slot until `n` more bytes fit in its capacity (R211). -/
def evictImages (slot cap n : Nat) : List (Nat × Nat × List Byte) → List (Nat × Nat × List Byte)
  | [] => []
  | x :: t =>
    if x.1 ≠ slot then x :: evictImages slot cap n t
    else if (((x :: t).filter fun y => y.1 = slot).map fun y => y.2.2.length).sum + n ≤ cap then x :: t
    else evictImages slot cap n t

/-- An image becomes the most recently used (R211). -/
def State.cacheImage (s : State) (c g slot off : Nat) (b : List Byte) : State :=
  match (s.core c).slotOf g slot with
  | none => s
  | some x =>
    if b.length > 2048 * x.units then s
    else s.modCore c fun k =>
      let l := k.ncache.filter fun y => !(decide (y.1 = slot) && decide (y.2.1 = off))
      { k with ncache := evictImages slot (2048 * x.units) b.length l ++ [(slot, off, b)] }

/-- Fetches a node: from the cache, or its header, the checks, its matrix and its scale from memory (R205, R211), while links lead
there (R336). -/
def State.fetchNode (s : State) (c : Nat) (x : MxCmd) (w : WalkCmd) (off : Nat) : NodeOut :=
  let d := dieOf c
  let nh := s.follow x.sid w.nh
  let slot := bits (staged w.regs 0x0C) 0 8
  let ctl := walkCtl w.regs
  let ver := bits (staged w.regs 0x0A) 0 16
  let split := fun (b : List Byte) (s : State) =>
    let h := b.take 64
    let n := nodeCtl (wordOf h)
    let len := n.k * n.n * n.ws
    let sc := if nodeScoff h = 0 then oneF32 else BitVec.ofNat 32 (natOfBytes ((b.drop (64 + len)).take 4))
    match nodeCheck w.nh off n h ctl ver with
    | some e => NodeOut.cause e s
    | none => .ok n { hdr := h, mat := (b.drop 64).take len, scale := sc } (s.cacheImage c x.group slot off b)
  match (s.core c).cached slot off with
  | some b => split b s
  | none =>
    if off + 64 > w.nh.bound then .cause 1 s
    else if !s.allUp d nh off 64 accR then .wait
    else
      match s.readSpan d nh off 64 with
      | .error e => NodeOut.ofErr s e
      | .ok (h, s) =>
        let n := nodeCtl (wordOf h)
        match nodeCheck w.nh off n h ctl ver with
        | some e => .cause e s
        | none =>
          let so := nodeScoff h
          if !s.allUp d nh (off + 64) (n.k * n.n * n.ws) accR || (decide (so ≠ 0) && !s.allUp d nh (off + so) 4 accR) then .wait else
          match s.readSpan d nh (off + 64) (n.k * n.n * n.ws) with
          | .error e => NodeOut.ofErr s e
          | .ok (m, s) =>
            if so = 0 then split (h ++ m) s
            else
              match s.readSpan d nh (off + so) 4 with
              | .error e => NodeOut.ofErr s e
              | .ok (q, s) => split (h ++ m ++ q) s

/-- Writes the record of row `i` (R212): whether some of it was bound for a sealed core. -/
def State.walkRecord (s : State) (c : Nat) (x : MxCmd) (w : WalkCmd) (i : Nat) (r : WalkRow) : State × Bool :=
  let oh := s.follow x.sid w.oh
  let body := if r.st = 1 then ((drainRow w.df r.y).1.map fun e => bytesOfNat (fmtWidth w.df) e).flatten else []
  match s.engPut x.sid x.sn (dieOf c) oh (bits (staged w.regs 7) 0 40 + i * walkS w.regs w.df) (r.bytes ++ body) with
  | .ok (s, hit) => (s, hit.isSome)
  | .error _ => (s, true)

/-- Links lead to the records of a list of rows (R336). -/
def State.recordsUp (s : State) (c : Nat) (x : MxCmd) (w : WalkCmd) (l : List Nat) : Bool :=
  let n := walkS w.regs w.df
  l.all fun i => s.allUp (dieOf c) (s.follow x.sid w.oh) (bits (staged w.regs 7) 0 40 + i * n) n accW

/-- Writes the records of a list of rows. -/
def State.walkRecords (s : State) (c : Nat) (x : MxCmd) (w : WalkCmd) (rows : List WalkRow) (l : List Nat) : State × Bool :=
  l.foldl (fun (y : State × Bool) i =>
    match rows[i]? with
    | some r => let (s, h) := y.1.walkRecord c x w i r; (s, y.2 || h)
    | none => y) (s, false)

/-- The walk stops with a trap of its strand (R213, R215, R216): the table is held, MX stops counting, and the strand takes
the trap on its `walk`. A strand that has ended has its table discarded. -/
def State.walkStop (s : State) (c : Nat) (t : WalkTable) (cause : Cause) (val : Word) : State :=
  let sid := t.cmd.sid
  match s.strand? sid with
  | none => s.freeTable c t
  | some u =>
    if u.st = .ended then
      s.modCore c fun k => { k with table := some { t with cmd := { t.cmd with cause := 4 } } }
    else
      let s := s.modCore c fun k => { k with table := some { t with held := true, trap := true } }
      let u := { u.uncount t.cmd.sn with hold := none, pc := t.cmd.pc }
      (s.setStrand sid u).trap sid u cause val

/-- The next rows to pass (R210): the smallest depth, then the smallest node. -/
def nextNode (rows : List WalkRow) : Option (Nat × BitVec 32) :=
  (rows.filter WalkRow.active).foldl (fun b r =>
    match b with
    | none => some (r.depth, r.node)
    | some (d, o) => if r.depth < d ∨ (r.depth = d ∧ r.node.ult o) then some (r.depth, r.node) else some (d, o)) none

/-- The die has room for `n` records where a stop of the walk would halt its strand (R309). -/
def State.stopRoom (s : State) (c : Nat) (t : WalkTable) (n : Nat) : Bool :=
  match s.strand? t.cmd.sid with
  | some u => decide (u.st = .ended) || !u.halts || decide ((s.die (dieOf c)).frecs.length + n ≤ 64)
  | none => true

/-- The walk in a table may go on: it is not held, nor discarded, the operations it waits for are performed, and no command that
its strand issued before it has yet to begin (R131, R132), as for a walk that was resumed. -/
def State.walkRuns (s : State) (k : Core) (t : WalkTable) : Bool :=
  !t.held && decide (t.cmd.cause = 0) && s.mayBegin t.cmd.sid t.cmd.after &&
    !(k.mxq.any fun y => decide (y.sid = t.cmd.sid) && !y.begun && decide (y.sn < t.cmd.sn))

/-- The state `s` after a step, with its table, and the trap of TRAPROW where the step put rows in FAULT (R213). A step whose trap
halts the strand is not made before the die has a place for the record: `s0` is the state before it. -/
def State.walkStep (s s0 : State) (c : Nat) (t : WalkTable) (ctl : WalkCtl) (rows : List WalkRow) : State :=
  let fresh := (List.range rows.length).filter fun i =>
    match t.rows[i]?, rows[i]? with
    | some a, some b => decide (a.st = 0) && decide (b.st = 3)
    | _, _ => false
  let t := { t with rows }
  match fresh.head?.bind fun i => (rows[i]?).map fun r => (i, r) with
  | some (i, r) =>
    if ctl.trapRow then
      if !s0.stopRoom c t 1 then s0
      else s.walkStop c t .walkchild (BitVec.ofNat 64 (r.node.toNat * 2 ^ 32 + r.cause.toNat * 2 ^ 8 + i))
    else s.modCore c fun k => { k with table := some t }
  | none => s.modCore c fun k => { k with table := some t }

/-- One step of the schedule of R210 by walk `t` of core `c`, which has rows to pass: the next node is fetched and checked, and the
pass is made for the rows that wait there, in the array, which no other command may occupy (R191, R203). A translation fault stops
the walk (R215). -/
def State.walkGo (s : State) (c : Nat) (t : WalkTable) (w : WalkCmd) (d : Nat) (o : BitVec 32) : State :=
  let ctl := walkCtl w.regs
  let here := fun (r : WalkRow) => r.active && decide (r.depth = d) && decide (r.node = o)
  match s.fetchNode c t.cmd w o.toNat with
  | .wait => s
  | .cause e s1 => s1.walkStep s c t ctl (t.rows.map fun r => if here r then r.fault e else r)
  | .xlate cause va =>
    if !s.stopRoom c t 2 then s
    else match s.engFault c t.cmd.sid 2 5 va accR cause t.cmd.pc (.walk t.cmd.sid) with
    | none => s
    | some (_, s1) =>
      let s2 := s1.walkStop c t .xlate (BitVec.ofNat 64 va)
      let live := ((s2.strand? t.cmd.sid).map fun u => u.th && decide (u.st ≠ .ended)).getD false
      if live then { s2 with barHolds := keyInsert t.cmd.sid s2.barHolds } else s2
  | .ok n m s1 =>
    if !(s.core c).arrayFree then s else
    let bad := fun (r : WalkRow) => n.feedY && (decide (r.depth = 0) || decide (r.y.length ≠ n.k))
    let takes := t.rows.any fun r => here r && !bad r
    let rows := t.rows.map fun r =>
      if !here r then r
      else if bad r then r.fault 4
      else
        let y := r.result n m.mat m.scale
        if n.leaf then { r with y, st := 1, leafid := n.leafid } else r.choose n m.hdr ctl.dlim y
    let leaves := (List.range rows.length).filter fun i =>
      match t.rows[i]?, rows[i]? with
      | some a, some b => decide (a.st = 0) && decide (b.st = 1)
      | _, _ => false
    if !s.recordsUp c t.cmd w leaves then s else
    let (s2, hit) := s1.walkRecords c t.cmd w rows leaves
    s2.walkStep s c { t with
      passes := if takes then t.passes + 1 else t.passes, err := t.err || hit
      steps := takes, sums := (t.rows.filter fun r => here r && !bad r).any fun r => r.compares n m.mat } ctl rows

/-- The node that the next step of a walk fetches from memory: its header (R205). -/
def State.walkFetch (s : State) (c : Nat) (t : WalkTable) (w : WalkCmd) (o : BitVec 32) : List (Region × Nat × Nat) :=
  if ((s.core c).cached (bits (staged w.regs 0x0C) 0 8) o.toNat).isSome || decide (o.toNat + 64 > w.nh.bound) then []
  else [(s.follow t.cmd.sid w.nh, o.toNat, 64)]

/-- The walk in the table of core `ua` makes a step of its schedule (R210), with the partner's where paired mode merges what it reads
(R323). -/
def execWalkPass (s : State) : Host.Outcome State Fault Refusal :=
  let c := s.ua
  match (s.core c).table with
  | none => .next s
  | some t =>
    match t.cmd.walk?, nextNode t.rows with
    | some w, some (d, o) =>
      if !s.walkRuns (s.core c) t then .next s
      else .next ((s.askRead t.cmd.sid t.cmd.sn (s.walkFetch c t w o)).getD (s.walkGo c t w d o))
    | _, _ => .next s

/-- The walk in the table of core `ua` ends (R212): the records of FAULT and MASKED rows, the cache slot, the completion
word, and MX. A walk that was discarded writes only its completion word (R159, R217); with `ub` not 0, one that was
discarded in the queue. -/
def execWalkEnd (s : State) : Host.Outcome State Fault Refusal :=
  let c := s.ua
  if s.ub ≠ 0 then
    match (s.core c).mxq.find? fun x => x.kind.isWalk && decide (x.cause ≠ 0) with
    | none => .next s
    | some x =>
      if !s.walkWordUp c x then .next s else
      let s1 := s.modCore c fun k => { k with mxq := k.mxq.filter fun y => !(y.sn == x.sn) }
      .next ((s1.walkWord x (BitVec.ofNat 64 (2 ^ 63 + 4 * 2 ^ 56))).endCount x.sid x.sn)
  else
    match (s.core c).table with
    | none => .next s
    | some t =>
      match t.cmd.walk? with
      | none => .next s
      | some w =>
        if t.held || !s.walkWordUp c t.cmd then .next s
        else if t.cmd.cause ≠ 0 then .next ((s.discardTable c t).endCount t.cmd.sid t.cmd.sn)
        else if (nextNode t.rows).isSome || !s.walkRuns (s.core c) t then .next s
        else
          let l := (List.range t.rows.length).filter fun i =>
            match t.rows[i]? with
            | some r => decide (r.st ≠ 1)
            | none => false
          if !s.recordsUp c t.cmd w l then .next s else
          let (s1, hit) := s.walkRecords c t.cmd w t.rows l
          let s2 := (s1.freeTable c t).walkWord t.cmd (t.word (if t.err || hit then 5 else 0))
          let s3 := s2.modStrand t.cmd.sid fun u => { u with
            wstat := t.status false false, hold := if u.hold = some t.cmd.sn then none else u.hold }
          .next (s3.endCount t.cmd.sid t.cmd.sn)

end Sys2Proof.Machine
end

