-- ==== Sys2Proof/Machine/Launch.lean ====
section
/-! DEFINITION. Launch headers and their checks (R223, R224, R231), `launch`, `trig` and `chplay` (R232, R233, R238), the
placer's queues (R225), the placing of a group (R226 to R228), retirement and dependants (R229, R234), recorded chains
(R236, R237) and tick windows (R235). -/

namespace Sys2Proof.Machine

/-! ### The header (R223) -/

/-- The header in 128 bytes. -/
def headerOf (b : List Byte) : Header := Vector.ofFn fun i => dwordAt b i.val

/-- FOOT. -/
def Header.foot (h : Header) : Word := h[10]
/-- CTL. -/
def Header.ctl (h : Header) : Word := h[11]
/-- The dword of the widths and BND. -/
def Header.widw (h : Header) : Word := h[6]
/-- BND. -/
def Header.bnd (h : Header) : Nat := bits h[6] 36 3
/-- The width of field `i`. -/
def Header.width (h : Header) (i : Nat) : Nat := bits h[6] (6 * i) 6
/-- EM1 of field `i`. -/
def Header.em1 (h : Header) (i : Nat) : BitVec 32 := (vget h (7 + i / 2) 0).extractLsb' (32 * (i % 2)) 32
/-- The extent of field `i` (R17). -/
def Header.ext (h : Header) (i : Nat) : Nat := (h.em1 i).toNat + 1
/-- The width of the rectangle. -/
def Header.w (h : Header) : Nat := bits h[10] 0 4 + 1
/-- The height of the rectangle. -/
def Header.h (h : Header) : Nat := bits h[10] 4 4 + 1
/-- Strands per core. -/
def Header.s (h : Header) : Nat := bits h[10] 8 3 + 1
/-- TILED. -/
def Header.tiled (h : Header) : Bool := h[11].getLsbD 31
/-- NHND. -/
def Header.nhnd (h : Header) : Nat := bits h[12] 32 5
/-- ENTRY. -/
def Header.entry (h : Header) : Nat := bits h[1] 0 32
/-- IMGSZ. -/
def Header.imgsz (h : Header) : BitVec 32 := h[1].extractLsb' 32 32
/-- TWS and TWE. -/
def Header.window (h : Header) : Nat × Nat := (bits h[11] 32 16, bits h[11] 48 16)

/-- What a launch asks of a rectangle (R226). -/
def Header.need (h : Header) : Need :=
  { w := h.w, h := h.h, s := h.s, nbank := bits h[10] 11 3, nbar := bits h[10] 14 3, nacc := bits h[10] 17 2
    clw := bits h[10] 19 8, chw := bits h[10] 27 8, cls := bits h[11] 20 2, frac := bits h[11] 22 7
    paired := h[11].getLsbD 29 }

/-- The product of the extents of the fields from `lo` to below `hi`. -/
def Header.product (h : Header) (lo hi : Nat) : Nat :=
  (List.range hi).foldl (fun n i => if i < lo then n else n * h.ext i) 1

/-- A launch that is refused with BADHDR (R224, R231). `strand` tells a launch of `launch`, which may be tiled. -/
def Header.refused (h : Header) (tickp : Nat) (strand : Bool) : Bool :=
  let n := h.need
  let (tws, twe) := h.window
  let six := List.range 6
  let cw := h[14]
  (six.any fun i => decide (h.width i > 32) || decide ((h.em1 i).toNat > 2 ^ h.width i - 1))
  || decide ((six.map h.width).sum > 64) || decide (h.bnd > 6)
  || decide (h.product 0 h.bnd ≠ h.w * h.h * h.s)
  || decide (n.nbank > 6) || decide (n.nbar > 4) || decide (n.nacc = 3) || decide (n.clw > 128) || decide (n.chw > 128)
  || decide (h.nhnd > 28) || decide (n.frac > 64)
  || (decide (n.clw > 0) && (decide (n.w > 4) || decide (n.h > 4))) || (n.paired && decide (n.w > 8))
  || decide (h.imgsz.toNat % 4 ≠ 0) || decide (h.entry ≥ h.imgsz.toNat) || decide (h.entry % 4 ≠ 0)
  || !((tws == 0 && twe == 0) || (decide (tws < twe) && decide (twe ≤ tickp / 1000)))
  || (!cw.getLsbD 63 && (decide (bits cw 40 5 < 4) || decide (bits cw 40 5 > 3 + h.nhnd)))
  || (h.tiled && (!strand || decide (h.bnd > 4)))

/-- A tile record (R230). -/
def tileOf (b : List Byte) : Tile :=
  let d := dwordAt b 0
  { expert := d.setWidth 16, tile := d.extractLsb' 16 16, rows := d.extractLsb' 32 8, flags := d.extractLsb' 40 8
    rowbase := dwordAt b 1 }

/-- The tile records in a run of bytes. -/
def tilesOf : Nat → List Byte → List Tile
  | 0, _ => []
  | n + 1, b => tileOf b :: tilesOf n (b.drop 16)

/-- The index of the first bad record of a tiled launch (R231). -/
def Header.badTile (h : Header) : List Tile → Nat → Option Nat
  | [], _ => none
  | t :: rest, j =>
    let eb := h.ext h.bnd
    let ec := if h.bnd = 4 then 1 else h.ext (h.bnd + 1)
    if t.rows.toNat > 32 ∨ t.expert.toNat ≥ eb ∨ t.tile.toNat ≥ ec then some j else Header.badTile h rest (j + 1)

/-- The fields of a mixed-radix number over the extents of the fields from `lo` to below `hi` (R18). -/
def Header.digits (h : Header) (lo hi n : Nat) : List Nat :=
  ((List.range hi).foldl (fun (x : List Nat × Nat) i =>
    if i < lo then x else (x.1 ++ [x.2 % h.ext i], x.2 / h.ext i)) ([], n)).1

/-- The work identifier of the fields (R17). -/
def Header.wid (h : Header) (fs : List Nat) : Word :=
  BitVec.ofNat 64 (((List.range 6).map fun i => (fs[i]?).getD 0 * 2 ^ ((List.range i).map h.width).sum).sum)

/-! ### The instructions (R232, R233, R238) -/

/-- The header with the marks of the launching strand (R232): its ASID and TENANT, no SUP, and a PRIO no more urgent than
its PRIO.P. -/
def Header.mark (h : Header) (u : Strand) : Header :=
  let ctl := putBits (putBits (putBits h.ctl 0 12 u.asid.toNat) 12 6 u.tenant.toNat) 30 1 0
  vset h 11 (if bits ctl 18 2 < u.prioP.toNat then putBits ctl 18 2 u.prioP.toNat else ctl)

/-- `launch` (R232): the header and the tile records are read in one step, after every earlier core-path operation; the
message to the placer carries them, with the handles of the strand. -/
def execLaunch (t : GReg) (h : HReg) (x : GReg) (s : State) : Host.Outcome State Fault Refusal :=
  issue (.launch t h x) s fun s1 u rd =>
    let r := u.regionAt h.toNat
    let o := (rd x).toNat
    let check := (regionCheck r h.toNat o 128 rR).orElse fun _ => if o % 8 ≠ 0 then some (Cause.align, rd x) else none
    match check with
    | some (c, v) => s.trap s.cur u c v
    | none =>
      s.readAtIssue s1 u r o 128 fun s1 b =>
        let hdr := headerOf b
        let n := (rd t).toNat
        let bad := hdr.tiled && decide (n > 4096)
        let n := if hdr.tiled && !bad then n else 0
        match if n = 0 then none else regionCheck r h.toNat (o + 0x80) (16 * n) rR with
        | some (c, v) => s.trap s.cur u c v
        | none =>
          s.readAtIssue s1 u r (o + 0x80) (16 * n) fun s1 tb =>
            let (s2, u, dest) := s1.lateDest u t
            let (sn, s2) := s2.fresh
            let hs := (List.range hdr.nhnd).map fun i => u.handle (4 + i)
            let m : Msg := .launch sn s.cycle (hdr.mark u) (tilesOf n tb) hs bad (dieOf u.core) dest
            s2.setStrand s.cur { (u.countOn sn [.st]).advance with msgs := u.msgs ++ [m] }

/-- `trig` (R233): the mark takes its place behind the strand's core-path operations; in a strand of no launch it does
nothing. -/
def execTrig (s : State) : Host.Outcome State Fault Refusal :=
  issue .trig s fun s1 t _ =>
    if t.lnch then s1.enqueue s.cur t [.st] .trig .drop else s1.setStrand s.cur t.advance

/-- The chains of a tenant: their number and the descriptor of one, if it is VALID (R236). -/
def State.chainAt (s : State) (tenant k : Nat) : Option Nat :=
  match s.desc? (some tenant) with
  | none => none
  | some d =>
    if k ≥ bits (s.sysDword (d + 0x10)) 32 16 then none
    else
      let a := (s.sysDword (d + 0x18)).toNat + 64 * k
      let f := s.sysDword (a + 0x18)
      if f.getLsbD 34 && !(f.getLsbD 32 && decide (bits f 0 16 ≠ 0)) then some a else none

/-- PSIZE of a chain (R236). -/
def State.chainPsize (s : State) (a : Nat) : Nat := bits (s.sysDword (a + 0x18)) 0 16

/-- `chplay` (R238): the patch is read in one step; the message goes to the chain. -/
def execChplay (t : GReg) (h : HReg) (x : GReg) (s : State) : Host.Outcome State Fault Refusal :=
  issue (.chplay t h x) s fun s1 u rd =>
    let r := u.regionAt h.toNat
    let o := (rd x).toNat
    let n := ((s1.chainAt u.tenant.toNat (rd t).toNat).map fun a => s1.chainPsize a).getD 0
    match if n = 0 then none else regionCheck r h.toNat o n rR with
    | some (c, v) => s.trap s.cur u c v
    | none =>
      s.readAtIssue s1 u r o n fun s1 b =>
        let (s2, u, dest) := s1.lateDest u t
        let (sn, s2) := s2.fresh
        s2.setStrand s.cur { (u.countOn sn [.st]).advance with msgs := u.msgs ++ [.chplay sn s.cycle (rd t) b dest] }

/-! ### Queues (R225) -/

/-- The entries of a queue. -/
def State.queue (s : State) (tenant prio : Nat) : List QEntry :=
  ((s.queues.find? fun q => decide (q.tenant = tenant) && decide (q.prio = prio)).map fun q => q.entries).getD []

/-- Replaces the entries of a queue. -/
def State.setQueue (s : State) (tenant prio : Nat) (l : List QEntry) : State :=
  { s with queues := (s.queues.filter fun q => !(decide (q.tenant = tenant) && decide (q.prio = prio))) ++
      if l.isEmpty then [] else [{ tenant, prio, entries := l }] }

/-- An entry came by the device queue. -/
def State.isDevEntry (s : State) (e : QEntry) : Bool :=
  match e with
  | .launch l => ((Tab.get? s.launches l).map fun x => x.dev).getD true
  | .resume .. => true

/-- The device queue of a tenant and priority holds its 64 entries (R225). -/
def State.devFull (s : State) (tenant prio : Nat) : Bool :=
  decide (((s.queue tenant prio).filter s.isDevEntry).length ≥ 64)

/-- The handle list of a host launch or a chain header, read under ASID 0 (R223, R228), without the reserved bits of its entries
(R7). -/
def State.hlist (s : State) (h : Header) : List Handle :=
  (List.range h.nhnd).map fun i =>
    Handle.ofBytes (wordsBytes ((List.range 4).map fun j => s.sysDword (bits h[13] 0 56 + 32 * i + 8 * j)))

/-- A launch header at a virtual address under ASID 0, with its handle list, has been read (R304). -/
def State.touchHdr (s : State) (a : Nat) (h : Header) : State :=
  (s.touch s.ioDie a 128).touch s.ioDie (bits h[13] 0 56) (32 * h.nhnd)

/-- The descriptor of a chain has been read (R304). -/
def State.touchChain (s : State) (a tenant : Nat) : State :=
  (s.touch s.ioDie (((s.desc? (some tenant)).getD 0) + 0x10) 16).touch s.ioDie a 64

/-- The groups a launch will place. -/
def Header.total (h : Header) (tiles : List Tile) : Nat := if h.tiled then tiles.length else h.product h.bnd 6

/-- What the placer makes of a launch (R224, R231, R232): its status and, if it is refused for a record, the index; or the
state with it in its queue. -/
def State.acceptLaunch (s : State) (h : Header) (tiles : List Tile) (hs : List Handle) (bad : Bool) (src : LaunchFrom)
    (fromHost dev : Bool) (tenant qprio : Nat) (sup : Bool) : Except (Nat × Nat) (Nat × State) :=
  let strand := match src with
    | .strand _ => dev && !fromHost
    | _ => false
  if bad then .error (3, 4096)
  else if h.refused s.tickp.toNat strand then .error (2, 0)
  else
    match if h.tiled then h.badTile tiles 0 else none with
    | some j => .error (3, j)
    | none =>
      let ts := tiles.filter fun t => t.rows ≠ 0
      let total := h.total ts
      if dev && total ≠ 0 && s.devFull tenant qprio then .error (1, 0)
      else
        let (l, s) := s.fresh
        let x : Launch := { hdr := h, tiles := ts, tenant := BitVec.ofNat 6 tenant, asid := h.ctl.setWidth 12, sup
                            prio := h.ctl.extractLsb' 18 2, src, fromHost, handles := hs, total, dev }
        let s := { s with launches := Tab.set s.launches l x }
        .ok (total, if total = 0 then s else s.setQueue tenant qprio (s.queue tenant qprio ++ [.launch l]))

/-- The status word of `launch` (R232). -/
def launchWord (r : Except (Nat × Nat) Nat) : Word :=
  match r with
  | .ok n => BitVec.ofNat 64 ((if n < 2 ^ 32 then n else 2 ^ 32 - 1) * 2 ^ 32)
  | .error (st, idx) => BitVec.ofNat 64 (idx * 2 ^ 16 + st)

/-! ### Chains (R237) -/

/-- STATE of a chain. -/
def State.chainState (s : State) (a : Nat) : Nat := bits (s.sysDword (a + 0x20)) 0 2

/-- The fields of the dword of a chain that the device writes (R236); reserved bits are written as 0 (R7). -/
def chainMask : Word := 0xFFFFFFFF00000007

/-- Sets STATE of a chain, and ERR with it where asked. -/
def State.putChainState (s : State) (a st : Nat) (err : Bool) : State :=
  let w := putBits (s.sysDword (a + 0x20) &&& chainMask) 0 2 st
  s.putSysDword (a + 0x20) (if err then putBits w 2 1 1 else w)

/-- The NH headers of a chain. -/
def State.chainHdrs (s : State) (a : Nat) : Nat × Nat :=
  let w := s.sysDword a
  (bits w 0 56, bits w 56 8)

/-- Submits header `i` of a replay to the tenant's device queue (R237): it is read under ASID 0 and waits in the fabric
interface until the placer takes it. Its TENANT is the chain's, and SUP is clear as for the tenant's own rings. -/
def State.submitChainHdr (s : State) (a tenant k id i : Nat) : State :=
  let (base, _) := s.chainHdrs a
  let h := headerOf (wordsBytes ((List.range 16).map fun j => s.sysDword (base + 128 * i + 8 * j)))
  let ctl := putBits (putBits h.ctl 12 6 tenant) 30 1 0
  let h := vset h 11 ctl
  let l := s.hlist h
  let s := s.touchHdr (base + 128 * i) h
  { s with waitHdrs := s.waitHdrs ++ [{ hdr := h, handles := l, src := .chain tenant k id i, fromHost := false
                                        tenant := BitVec.ofNat 6 tenant, asid := ctl.setWidth 12, sup := false, die := 0 }] }

/-- Copies bytes under ASID 0, byte by byte; one that cannot be read is not written. -/
def State.copySys (s : State) (src dst : Nat) : Nat → State
  | 0 => s
  | n + 1 =>
    let s := match s.readVirt s.ioDie 0 src 1 with
      | .ok (b, s) => s.putSysBytes dst b
      | .error _ => s
    State.copySys s (src + 1) (dst + 1) n

/-- A replay begins (R237): the patch is copied, the count goes up, and the first header is submitted. -/
def State.startReplay (s : State) (a tenant k : Nat) : State :=
  let patch := bits (s.sysDword (a + 8)) 0 56
  let shadow := bits (s.sysDword (a + 0x10)) 0 56
  let s := s.copySys shadow patch (s.chainPsize a)
  let w := s.sysDword (a + 0x20) &&& chainMask
  let s := s.putSysDword (a + 0x20) (putBits (putBits w 0 2 1) 32 32 ((bits w 32 32 + 1) % 2 ^ 32))
  let (id, s) := s.fresh
  let s := { s with replays := s.replays ++ [({ tenant, k, id, next := 1, live := [] } : Replay)] }
  s.submitChainHdr a tenant k id 0

/-- A request reaches a chain (R237): its status and the state after it. A patch is written to SHADOW. -/
def State.chainRequest (s : State) (a tenant k : Nat) (patch : Option (List Byte)) : Nat × State :=
  let put := fun (s : State) =>
    match patch with
    | some b => s.putSysBytes (bits (s.sysDword (a + 0x10)) 0 56) b
    | none => s
  let s := s.touchChain a tenant
  if (s.sysDword (a + 0x18)).getLsbD 32 then (0, s.startReplay a tenant k)
  else
    match s.chainState a with
    | 0 => (0, (put s).startReplay a tenant k)
    | 1 => (1, (put s).putChainState a 2 false)
    | _ => (2, put s)

/-- A replay ends (R237): the chain goes to IDLE, or to its waiting replay; a reentrant chain stays RUNNING while one
runs. -/
def State.endReplay (s : State) (tenant k id : Nat) (err : Bool) : State :=
  let s := { s with replays := s.replays.filter fun (r : Replay) => !(r.id == id) }
  let s := if err then s.sendEvent (some tenant) .chainerr 0 0 k else s
  match s.chainAt tenant k with
  | none => s
  | some a =>
    let s := if err then s.putChainState a (s.chainState a) true else s
    if (s.sysDword (a + 0x18)).getLsbD 32 then
      if s.replays.any fun r => decide (r.tenant = tenant) && decide (r.k = k) then s else s.putChainState a 0 false
    else if s.chainState a = 2 then s.startReplay a tenant k
    else s.putChainState a 0 false

/-- Header `i` of a replay has triggered or retired for the first time (R237): the next header is submitted. -/
def State.chainNext (s : State) (src : LaunchFrom) : State :=
  match src with
  | .chain tenant k id i =>
    match s.chainAt tenant k, s.replays.find? fun (r : Replay) => r.id == id with
    | some a, some r =>
      if r.next = i + 1 ∧ i + 1 < (s.chainHdrs a).2 then
        let s := { s with replays := s.replays.map fun (y : Replay) => if y.id = id then { y with next := i + 2 } else y }
        s.submitChainHdr a tenant k id (i + 1)
      else s
    | _, _ => s
  | _ => s

/-- Launch `l` of a replay has retired: with its last launch the replay ends (R237). -/
def State.chainRetired (s : State) (src : LaunchFrom) (l : Nat) : State :=
  match src with
  | .chain tenant k id _ =>
    let s := { s with replays := s.replays.map fun (y : Replay) => if y.id = id then { y with live := y.live.filter fun j => !(j == l) } else y }
    match s.chainAt tenant k, s.replays.find? fun (r : Replay) => r.id == id with
    | some a, some r =>
      let waits := s.waitHdrs.any fun w => match w.src with
        | .chain _ _ id' _ => id' == id
        | _ => false
      if r.live.isEmpty ∧ r.next ≥ (s.chainHdrs a).2 ∧ !waits then s.endReplay tenant k id false else s
    | _, _ => s
  | _ => s

/-- A chain's reply (R238). With `ub` = 1, the oldest `chplay` of strand `ua` reaches its chain; otherwise the status
reaches the strand as result `ub` div 2. -/
def execChainReply (s : State) : Host.Outcome State Fault Refusal :=
  if s.ub % 2 = 0 then arriveResult .chain { s with ub := s.ub / 2 }
  else
    match s.strand? s.ua with
    | none => .next s
    | some t =>
      match (if t.pair then [] else t.msgs).find? fun m => match m with
          | .chplay .. => true
          | _ => false with
      | some (.chplay sn at_ k patch dest) =>
        let (st, s1) := match s.chainAt t.tenant.toNat k.toNat with
          | some a => s.chainRequest a t.tenant.toNat k.toNat (some patch)
          | none => (3, s)
        .next (s1.modStrand s.ua fun t => { t with
          msgs := t.msgs.erase (.chplay sn at_ k patch dest)
          rets := t.rets ++ [{ kind := .chain, sn, dests := [(dest, BitVec.ofNat 64 st)] }] })
      | _ => .next s

/-! ### Arrival at the placer (R224, R225, R229, R331) -/

/-- A strand's launch reaches the placer, and its status is on its way (R232). -/
def State.enqueueStrand (s : State) (sid : Nat) : State :=
  match s.strand? sid with
  | none => s
  | some t =>
    match (if t.pair then [] else t.msgs).find? fun m => match m with
        | .launch .. => true
        | _ => false with
    | some (.launch sn at_ h tiles hs bad die dest) =>
      let r := s.acceptLaunch h tiles hs bad (.strand die) false true (bits h.ctl 12 6) (bits h.ctl 18 2) false
      let s1 := match r with
        | .ok x => x.2
        | .error _ => s
      s1.modStrand sid fun t => { t with
        msgs := t.msgs.erase (.launch sn at_ h tiles hs bad die dest)
        rets := t.rets ++ [{ kind := .launch, sn, dests := [(dest, launchWord (r.map fun x => x.1))] }] }
    | _ => s

/-- The next header of a launch ring reaches the placer (R330, R331): HEAD advances, and a header that is refused gives an
event. Ring `p` of tenant `t`, or of the system for 64. -/
def State.enqueueRing (s : State) (t p : Nat) : State :=
  let tenant := if t < 64 then some t else none
  match s.desc? tenant with
  | none => s
  | some d =>
    let at_ := d + 0x20 + 16 * p
    let r := s.ringAt at_
    if !s.descValid d || decide (r.count = 0) then s
    else
      let e := r.entry r.head 128
      let h := headerOf (wordsBytes ((List.range 16).map fun j => s.sysDword (e + 8 * j)))
      let s := s.putHead at_ ((r.head + 1) % 2 ^ 32)
      let ctl := if t < 64 then putBits (putBits h.ctl 12 6 t) 30 1 0 else h.ctl
      let h := vset h 11 ctl
      let owner := bits ctl 12 6
      let l := s.hlist h
      let s := s.touchHdr e h
      match s.acceptLaunch h [] l false .host true false owner p (ctl.getLsbD 30) with
      | .ok x => x.2
      | .error (st, _) => s.sendEvent (some owner) .launchref 0 st p

/-- A header that waits in the fabric interface reaches the placer (R225, R229, R237): it waits on while the device queue is
full, and in its queue's order of submission. -/
def State.enqueueWaiting (s : State) (i : Nat) : State :=
  match s.waitHdrs[i]? with
  | none => s
  | some w =>
    let tenant := w.tenant.toNat
    let prio := bits w.hdr.ctl 18 2
    if (s.waitHdrs.take i).any fun v => decide (v.tenant = w.tenant) && decide (bits v.hdr.ctl 18 2 = prio) then s
    else
      let src := match w.src with
        | .strand _ => LaunchFrom.host
        | x => x
      match s.acceptLaunch w.hdr [] w.handles false src w.fromHost true tenant prio w.sup with
      | .error (1, _) => s
      | .error (st, _) =>
        let s := { s with waitHdrs := s.waitHdrs.eraseIdx i }
        (match w.src with
         | .chain t k id _ => s.endReplay t k id true
         | _ => s.sendEvent (some tenant) .launchref 0 st 0)
      | .ok (_, s1) =>
        let l := s.serial
        let s1 := { s1 with waitHdrs := s1.waitHdrs.eraseIdx i }
        let s1 := s1.modLaunch l fun x => { x with src := w.src }
        (match w.src with
         | .chain _ _ id _ =>
           { s1 with replays := s1.replays.map fun y => if y.id = id then { y with live := y.live ++ [l] } else y }
         | _ => s1)

/-- A launch reaches the placer (R224, R225): with `ua` = 0, that of strand `ub`; 1, the next header of ring `ub` mod 4 of
tenant `ub` div 4 (64 for the system); otherwise, waiting header `ub`. -/
def execLaunchEnqueue (s : State) : Host.Outcome State Fault Refusal :=
  match s.ua with
  | 0 => .next (s.enqueueStrand s.ub)
  | 1 => .next (s.enqueueRing (s.ub / 4) (s.ub % 4))
  | _ => .next (s.enqueueWaiting s.ub)

/-- The placer's status word reaches the strand (R232). -/
def execLaunchStatus (s : State) : Host.Outcome State Fault Refusal := arriveResult .launch s

/-! ### Placing a group (R226 to R228, R231) -/

/-- The die at which the headers of a launch's dependants are read (R302): the issuing strand's, or that of the host interface. -/
def State.srcDie (s : State) : LaunchFrom → Nat
  | .strand d => d
  | _ => s.ioDie

/-- The phase of the tick in whole microseconds (R235). -/
def State.phase (s : State) : Nat := s.tickTime / 693 / 1000

/-- A launch may place groups now as far as its window goes (R235). -/
def State.windowOpen (s : State) (h : Header) : Bool :=
  let (tws, twe) := h.window
  (tws == 0 && twe == 0) || (decide (tws ≤ s.phase) && decide (s.phase < twe))

/-- A launch has no window. -/
def Header.noWindow (h : Header) : Bool := h.window.1 == 0 && h.window.2 == 0

/-- A launch may place its next group: its window, as of the last edge and now (R235). -/
def State.mayPlace (s : State) (x : Launch) : Bool := x.hdr.noWindow || (x.open_ && s.windowOpen x.hdr)

/-- The phase reaches TWS or TWE of launch `ua` (R235): its placement is allowed, or stopped. -/
def execTickWindowEdge (s : State) : Host.Outcome State Fault Refusal :=
  .next (s.modLaunch s.ua fun x => { x with open_ := !x.hdr.noWindow && s.windowOpen x.hdr })

/-- One strand of a placed group (R228): on a core, with its rank. -/
def State.seatStrand (s : State) (g : Nat) (x : Group) (c rank idx : Nat) (t : Strand) (q : BitVec 32) : Nat × State :=
  let slot := (s.core c).freeSlot.getD 0
  let (qb, s) := s.presetPorts c g q
  let (sid, s) := s.seat c { t.resetStaged with
    qbind := qb, group := g, rank, index := idx, handles := startHandles x c slot x.handles }
  (sid, s)

/-- Seats a strand, and in paired mode its partner 8 columns east, which runs the same program (R226, R323). -/
def State.seatBoth (s : State) (g : Nat) (x : Group) (c rank idx : Nat) (t : Strand) (q : BitVec 32) : Nat × State :=
  let (sid, s) := s.seatStrand g x c rank idx t q
  if x.paired then
    let (pid, s) := s.seatStrand g x (c + 8) rank idx t q
    let s := s.modStrand sid fun u => { u with partner := some pid }
    (sid, s.modStrand pid fun u => { u with partner := some sid })
  else (sid, s)

/-- The strand of in-group index `i` at its start (R228, R231), before it has a slot. -/
def Launch.strand (l : Launch) (x : Group) (fs : List Nat) (tile : Option Tile) (i : Nat) : Strand :=
  let h := l.hdr
  let wid := h.wid (h.digits 0 h.bnd i ++ fs)
  let a2 := (tile.map fun t => t.rowbase).getD h[4]
  let a3 := (tile.map fun t => (BitVec.ofNat 64 (t.flags.toNat * 256 + t.rows.toNat) : Word)).getD h[5]
  { gr := startRegs wid h[2] h[3] a2 a3, pc := putBits h[0] 56 8 0 + BitVec.ofNat 64 h.entry, prioP := x.prio, prioBase := x.prio
    cls := x.cls, sup := l.sup, pair := x.paired, wid, grp := x.gidx, asid := x.asid, tenant := x.tenant, lnch := true
    image := putBits h[0] 56 8 0, imgsz := h.imgsz }

/-- Places the next group of launch `lid` on what was found for it. A launch makes no task record: the table of R15 says that it
creates them, and no rule says how (log entry 58, DESIGN CHOICE). -/
def State.placeGroup (s : State) (lid : Nat) (l : Launch) (a : Allot) : State :=
  let h := l.hdr
  let n := h.need
  let (g, s) := s.fresh
  let tile := if h.tiled then l.tiles[l.next]? else none
  let fs := match tile with
    | some t => [t.expert.toNat, t.tile.toNat]
    | none => h.digits h.bnd 6 l.next
  let gidx := match tile with
    | some t => t.expert.toNat + h.ext h.bnd * t.tile.toNat
    | none => l.next
  let x : Group := {
    tenant := l.tenant, asid := l.asid, launch := some lid, core0 := a.core0, w := n.w, h := n.h, s := n.s
    foot := h.foot, widw := h.widw, bank0 := a.bank0, nbank := n.nbank
    cl0 := a.cl0, clw := n.clw, ch0 := a.ch0, chw := n.chw, bars := a.bars, nacc := n.nacc, handles := l.handles
    cls := BitVec.ofNat 2 n.cls, prio := l.prio, gidx := BitVec.ofNat 64 gidx, paired := n.paired }
  let s := s.takeGroup g x a n h.foot
  let (ids, s) := (List.range (n.w * n.h * n.s)).foldl (fun (y : List (Option Nat) × State) i =>
    let c := i / n.s
    let t := l.strand x fs tile i
    let (sid, s) := y.2.seatBoth g x (a.core0 + c % n.w + 16 * (c / n.w)) (i % n.s) i t (h[12].setWidth 32)
    let mask := (tile.map fun t => (2 ^ t.rows.toNat - 1 : Nat)).getD 0xFFFFFFFF
    let fix := fun (s : State) (k : Nat) => s.modStrand k fun u => { u with mx := vset u.mx 2 (BitVec.ofNat 64 mask) }
    let s := fix s sid
    let s := match (s.strand? sid).bind fun u => u.partner with
      | some p => fix s p
      | none => s
    (y.1 ++ [some sid], s)) ([], s)
  let s := s.modGroup g fun y => { y with strands := ids }
  s.modLaunch lid fun y => { y with next := y.next + 1, placed := y.placed + 1, groups := y.groups ++ [g] }

/-! ### Retirement and dependants (R229, R234) -/

/-- A group has triggered (R234): each of its strands has executed `trig` or has ended. -/
def State.groupTriggered (s : State) (g : Nat) : Bool :=
  let x := s.group g
  x.ended || x.strands.all fun o =>
    match o.bind fun i => s.strand? i with
    | some t => t.trig || decide (t.st = .ended)
    | none => true

/-- The dependants of a launch are submitted (R229): their headers are read, and wait in the fabric interface. A header
that cannot be read is refused with an event. -/
def State.submitDeps (s : State) (l : Launch) : State :=
  let n := bits l.hdr[15] 56 8
  let base := bits l.hdr[15] 0 56
  let src := match l.src with
    | .chain .. => LaunchFrom.host
    | x => x
  (List.range n).foldl (fun s j =>
    match s.readVirt (s.srcDie l.src) (if l.fromHost then 0 else l.asid) (base + 128 * j) 128 with
    | .error _ => s.sendEvent (some l.tenant.toNat) .launchref 0 2 j
    | .ok (b, s) =>
      let h := headerOf b
      let ctl := putBits (putBits h.ctl 0 12 l.asid.toNat) 12 6 l.tenant.toNat
      let sup := l.sup && ctl.getLsbD 30
      let h : Header := vset h 11 (putBits ctl 30 1 (if sup then 1 else 0))
      { s with waitHdrs := s.waitHdrs ++ [{ hdr := h, handles := l.handles.take h.nhnd, src, fromHost := l.fromHost
                                            tenant := l.tenant, asid := l.asid, sup, die := s.srcDie l.src }] }) s

/-- The launch's dependants, and the next header of its chain, follow its trigger or its retirement, once (R234, R237). -/
def State.launchFollows (s : State) (lid : Nat) (l : Launch) : State :=
  if l.depsDone then s
  else
    let s := s.modLaunch lid fun x => { x with depsDone := true }
    (s.submitDeps l).chainNext l.src

/-- The completion word of a launch (R229): written as `stf` writes through handle CWH of the first group, or dropped with
an event. -/
def State.launchWordOut (s : State) (l : Launch) (err : Bool) : State :=
  let cw := l.hdr[14]
  if cw.getLsbD 63 then s
  else
    let c0 := ((l.groups.head?).map fun g => (s.group g).core0).getD 0
    let hd := (l.handles[bits cw 40 5 - 4]?).getD {}
    let t : Strand := { loc := .slot c0 0, asid := l.asid }
    let r := t.region hd
    let o := bits cw 0 40
    let v := BitVec.ofNat 64 ((if err then 2 ^ 63 else 0) + l.placed % 2 ^ 48)
    match accessCheck r 0 (BitVec.ofNat 64 o) 8 (rW ||| rA) .sync, r.addr o with
    | none, .phys k => s.fillWord k v
    | _, _ => s.sendEvent (some l.tenant.toNat) .cwdrop 0 0 0

/-- Engines still hold commands of a strand, or what they have sent for it: writes that have not been performed (R130, R229). -/
def State.engineBusy (s : State) (sid : Nat) : Bool :=
  let mine := fun (x : MxCmd) => x.sid == sid
  (s.cores.any fun x => (x.2.copyq.any fun y => y.sid == sid && y.pl.isNone) ||
    (x.2.chans.toList.any fun h => h.cmd.any fun y => y.sid == sid && y.pl.isNone) || x.2.mxq.any mine ||
    x.2.table.any fun w => mine w.cmd) ||
  (s.dies.any fun x => (x.2.dxq.any fun y => y.sid == sid) ||
    (x.2.merges.any fun y => y.sid == sid) || x.2.clq.any fun y => y.sid == sid) ||
  s.pairWrites.any fun x => x.sid == sid

/-- Every engine write of a launch's strands has been performed (R229). -/
def State.launchQuiet (s : State) (l : Launch) : Bool :=
  s.strands.all fun x => !(l.groups.contains x.2.group) || !s.engineBusy x.1

/-- Launch `ua` triggers, and its dependants are submitted; or it retires (R229, R234): every group has been placed and has
ended, and the engine writes of its strands have been performed. It writes its completion word and then submits its dependants. -/
def execLaunchRetire (s : State) : Host.Outcome State Fault Refusal :=
  match Tab.get? s.launches s.ua with
  | none => .next s
  | some l =>
    if l.next < l.total then .next s
    else if (l.groups.all fun g => (s.group g).ended) && s.launchQuiet l then
      let err := l.err || l.groups.any fun g => (s.group g).err
      let s1 := s.launchWordOut l err
      let s1 := s1.launchFollows s.ua l
      .next ({ s1 with launches := Tab.erase s1.launches s.ua }.chainRetired l.src s.ua)
    else if l.groups.all s.groupTriggered then .next (s.launchFollows s.ua l)
    else .next s

end Sys2Proof.Machine
end

