-- ==== Sys2Proof/Machine/TokenDispatch.lean ====
section
/-! DEFINITION. The dispatch engine of a die (R241 to R256): `dsend`, `dflush`, `dstat`, the registers `dx.ohi` and
`dx.xrel`, and the steps of the engine: choosing, lists, requests and grants, rows, arrival counters and releases. -/

namespace Sys2Proof.Machine

/-! ### The replica table as a dispatch engine reads it (R246, R261, R262) -/

/-- V of a region. -/
def PlRegion.v (g : PlRegion) : Bool := g.rgn.getLsbD 63
/-- ASID of a region. -/
def PlRegion.asid (g : PlRegion) : BitVec 12 := g.rgn.extractLsb' 40 12
/-- NL of a region. -/
def PlRegion.nl (g : PlRegion) : Nat := bits g.rgn 32 8 + 1
/-- EPL of a region. -/
def PlRegion.epl (g : PlRegion) : Nat := bits g.rgn 16 9 + 1
/-- BASE of a region. -/
def PlRegion.base (g : PlRegion) : Nat := bits g.rgn 0 13
/-- The entries of a region. -/
def PlRegion.size (g : PlRegion) : Nat := g.nl * g.epl

/-- The valid region of an address space (R261). -/
def State.regionOf (s : State) (asid : BitVec 12) : Option (Nat × PlRegion) :=
  s.regions.find? fun (x : Nat × PlRegion) => x.2.v && decide (x.2.asid = asid)

/-- An entry of the package table (R261). -/
def State.plEntry (s : State) (i : Nat) : Word × Word := Tab.getD s.pltab i (0, 0)

/-- V of an entry (R262). -/
def plV (e : Word × Word) : Bool := e.2.getLsbD 63
/-- PIN of an entry. -/
def plPin (e : Word × Word) : Bool := e.2.getLsbD 62
/-- The number of replicas of an entry. -/
def plCount (e : Word × Word) : Nat := bits e.2 60 2 + 1
/-- The 24 bits of replica `k` of an entry. -/
def plRaw (e : Word × Word) (k : Nat) : Nat := (e.1.toNat + e.2.toNat * 2 ^ 64) / 2 ^ (24 * k) % 2 ^ 24
/-- Replica `k` of an entry: package, die, receive index. -/
def plRep (e : Word × Word) (k : Nat) : Nat × Nat × Nat :=
  let r := plRaw e k
  (r / 2 ^ 19, r / 2 ^ 16 % 8, r % 1024)
/-- The replicas of an entry. -/
def plReps (e : Word × Word) : List (Nat × Nat × Nat) := (List.range (plCount e)).map (plRep e)

/-- The version of a region that the engine of die `d` holds (R267). -/
def PlRegion.verAt (g : PlRegion) (d : Nat) : BitVec 16 :=
  if g.st = .publishing ∧ g.acks.contains d then g.cv + 1 else g.cv

/-- Entry `i` of a region as the engine of die `d` holds it (R267, R268). -/
def State.entryAt (s : State) (d : Nat) (g : PlRegion) (i : Nat) : Word × Word :=
  let cur := s.plEntry (g.base + i)
  if g.st = .publishing ∧ g.acks.contains d then Tab.getD g.staged i cur else cur

/-- The index in its region of the entry of a layer and expert, if there is one (R261). -/
def PlRegion.index (g : PlRegion) (layer e : Nat) : Option Nat :=
  if layer < g.nl ∧ e < g.epl then some (layer * g.epl + e) else none

/-- The replica that a choice goes to, if it has a receiver (R244, R246, R261). -/
def State.replica (s : State) (d : Nat) (asid : BitVec 12) (layer ne : Nat) (id : BitVec 32) (e : Nat) : Option (Nat × Nat × Nat) :=
  match s.regionOf asid with
  | none => none
  | some (_, g) =>
    match g.index layer e with
    | none => none
    | some i =>
      let en := s.entryAt d g i
      if plV en && decide (e < ne) then some (plRep en (id.toNat % plCount en)) else none

/-- The counter of a table entry in the engine of die `d` advances (R246, R264): `sat_add` at 32 bits. -/
def State.countToken (s : State) (d : Nat) (asid : BitVec 12) (layer e : Nat) : State :=
  match s.regionOf asid with
  | none => s
  | some (_, g) =>
    match g.index layer e with
    | none => s
    | some i =>
      s.modDie d fun x =>
        let (c, sat) := Tab.getD x.ctrs (g.base + i) (0, false)
        { x with ctrs := Tab.set x.ctrs (g.base + i) (if c = BitVec.allOnes 32 then (c, true) else (c + 1, sat)) }

/-! ### The staged registers -/

/-- The fields of a `dsend` (R242). -/
structure DxRegs where
  layer : Nat
  hold : Bool
  noovr : Bool
  k : Nat
  mode : Nat
  so : Nat
  n : Nat
  rb : Nat
  str : Nat
  io : Nat
  e : Nat
  mult : Word
  shift : Nat
  d : Nat
  deriving DecidableEq, Repr

/-- The fields of a `dsend`, from its registers. -/
def dxRegs (v : Vector Word 32) : DxRegs :=
  let ctl := staged v 0
  let rb := bits (staged v 4) 0 15
  let rstr := bits (staged v 5) 0 40
  { layer := bits ctl 16 16, hold := ctl.getLsbD 6, noovr := ctl.getLsbD 5, k := bits ctl 2 2 + 1, mode := bits ctl 0 2
    so := bits (staged v 2) 0 40, n := bits (staged v 3) 0 13, rb, str := if rstr = 0 then rb else rstr
    io := bits (staged v 7) 0 40, e := bits (staged v 8) 0 9 + 1, mult := staged v 9, shift := bits (staged v 0x0A) 0 6
    d := bits (staged v 0x0B) 0 14 }

/-- `ewr` to `dx.ohi` (R243): ENGINE 0x304 for an entry that is valid under another ASID; otherwise the entry that
`dx.osel` names is committed. -/
def execEwrDxOhi (a : GReg) (s : State) : Host.Outcome State Fault Refusal :=
  issue (.ewrDxOhi a) s fun s1 t rd =>
    let d := dieOf t.core
    let i := bits (staged t.dx 0x0E) 0 8
    let other := match Tab.get? (s1.die d).ovr i with
      | some o => o.v && decide (o.asid ≠ t.asid)
      | none => false
    if other then s.engineTrap t 3 4
    else
      let v := rd a
      let lo := staged t.dx 0x0F
      let o : Ovr := { v := v.getLsbD 63, asid := t.asid, expert := v.extractLsb' 32 9, layer := v.setWidth 16
                       mask := lo.extractLsb' 32 32, id := lo.setWidth 32 }
      (s1.modDie d fun x => { x with ovr := Tab.set x.ovr i o }).setStrand s.cur t.advance

/-- A receive entry of a die's table in chip scratchpad (R248). -/
structure RcvEntry where
  asid : BitVec 12
  buf : Nat
  rstr : Nat
  cap : Nat
  cnt : Nat
  deriving DecidableEq, Repr

/-- Receive entry `x` of die `d`, if it exists (R248); a poisoned entry cannot be read. -/
def State.rcvEntry (s : State) (d x : Nat) : Option RcvEntry :=
  let r := (s.die d).xtab
  if x > bits r 40 10 then none
  else
    let key := chipKey d ((bits r 0 40 + 32 * x) % 2 ^ 25)
    if s.poisoned key 32 then none
    else
      let b := s.readBytes key 32
      let w := dwordAt b 0
      let q := dwordAt b 1
      some { asid := w.extractLsb' 40 12, buf := bits w 0 40, rstr := bits q 32 32, cap := bits q 0 32, cnt := bits (dwordAt b 2) 0 40 }

/-- `ewr` to `dx.xrel` (R251): ENGINE 0x305 where the entry does not exist or belongs to another ASID; otherwise the release
takes its place behind the strand's core-path operations. -/
def execEwrDxXrel (a : GReg) (s : State) : Host.Outcome State Fault Refusal :=
  issue (.ewrDxXrel a) s fun s1 t rd =>
    let v := rd a
    let d := bits v 16 8
    let x := bits v 0 10
    match s1.rcvEntry d x with
    | none => s.engineTrap t 3 5
    | some e =>
      if e.asid ≠ t.asid then s.engineTrap t 3 5
      else s1.enqueue s.cur t [] (.xrel d x) .drop

/-! ### Issue (R252, R254, R255) -/

/-- The bytes of a gate of E experts and dimension D. -/
def gateBytes (e d : Nat) : Nat := e * d + 4 * e

/-- `dx.gown` is valid for an ASID. -/
def Die.owns (x : Die) (asid : BitVec 12) : Bool := x.gown.getLsbD 12 && decide (x.gown.setWidth 12 = asid)

/-- The refusals of `dsend` with an ENGINE code, in order (R252). -/
def Die.dxRefusal (x : Die) (asid : BitVec 12) (r : DxRegs) : Option Nat :=
  let badD := decide (r.d < 128) || decide (r.d > 8192) || decide (r.d % 128 ≠ 0)
  let scored := match x.gate with
    | none => true
    | some (_, d, _) => decide (r.d ≠ d) || decide (r.rb < r.d)
  if r.mode = 3 ∨ (r.mode = 0 ∧ r.k > 2) ∨ r.k > r.e then some 1
  else if r.n > 4096 ∨ r.rb % 16 ≠ 0 ∨ r.rb > 16384 then some 2
  else if decide (r.mode ≠ 0) && (!x.owns asid || badD || (decide (r.mode = 1) && scored)
      || (decide (r.mode = 2) && decide (gateBytes r.e r.d > 2 ^ 23))) then some 3
  else none

/-- The access checks of `dsend` (R252). The bytes of the rows, (n − 1) × stride + rb, are none where that falls below 0 (log
entry 33). -/
def Strand.dxChecks (t : Strand) (r : DxRegs) : Option (Cause × Word) :=
  let sh := bits (staged t.dx 1) 0 5
  let ih := bits (staged t.dx 6) 0 5
  firstFail [
    if r.mode = 2 then regionCheck (t.regionAt sh) sh r.so (gateBytes r.e r.d) rR
    else regionCheck (t.regionAt sh) sh r.so (r.n * r.str + r.rb - r.str) rR,
    if r.mode = 2 then none else regionCheck (t.regionAt ih) ih r.io (4 * r.n) rR,
    t.cwCheck (staged t.dx 0x0C) (staged t.dx 0x0D)]

/-- The ranges that a `dsend` reads (R252): the rows and the identifiers, or the gate that it loads. -/
def dxReads (r : DxRegs) (src ids : Region) : List (Region × Nat × Nat) :=
  if r.mode = 2 then [(src, r.so, gateBytes r.e r.d)]
  else (ids, r.io, 4 * r.n) :: (List.range r.n).map fun i => (src, r.so + i * r.str, r.rb)

/-- `dsend` and `dsend.w` (R252): the checks, and the command with everything it uses. -/
def execDsend (w : BitVec 1) (s : State) : Host.Outcome State Fault Refusal :=
  issue (.dsend w) s fun s1 t _ =>
    let r := dxRegs t.dx
    let d := dieOf t.core
    match (s1.die d).dxRefusal t.asid r with
    | some code => s.engineTrap t 3 code
    | none =>
      match t.dxChecks r with
      | some (c, v) => s.trap s.cur t c v
      | none =>
        let (sn, s2) := s1.fresh
        let x : DxCmd := {
          sn, sid := s.cur, pc := t.pc, regs := t.dx, src := t.regionAt (bits (staged t.dx 1) 0 5)
          ids := t.regionAt (bits (staged t.dx 6) 0 5), cw := t.regionAt (bits (staged t.dx 0x0C) 0 5), asid := t.asid
          after := t.gate (w = 1), serial := (s1.die d).dxSerial }
        let s2 := s2.pairIssue s.cur {
            sid := s.cur, sn, kind := 3, regs := t.dx, after := x.after, srcs := dxReads r x.src x.ids
            dst := none, cw := x.cw, cwr := staged t.dx 0x0D, since := 0 }
        let s2 := if s2.isEast s.cur then s2
          else s2.modDie d fun y => { y with dxq := y.dxq ++ [x], dxSerial := y.dxSerial + 1 }
        s2.setStrand s.cur (t.countOn sn [.dx]).advance

/-! ### Send lists (R249) -/

/-- A list goes out: it is marked, and its request is on its way to the receiving engine. -/
def State.sendList (s : State) (d : Nat) (l : SendList) : State :=
  if l.sent then s
  else
    let m := { l with sent := true }
    let s := s.modDie d fun x => { x with lists := x.lists.map fun (y : SendList) => if y = l then m else y }
    s.modDie (l.dest.1 * 8 + l.dest.2.1) fun x => { x with reqs := x.reqs ++ [m] }

/-- Sends some lists of a die: those that satisfy a test. -/
def State.sendLists (s : State) (d : Nat) (f : SendList → Bool) : State :=
  ((s.die d).lists.filter fun l => !l.sent && f l).foldl (fun s l => s.sendList d l) s

/-- The fullest list of a die that has not been sent. -/
def fullest : List SendList → Option SendList
  | [] => none
  | l :: t =>
    match fullest t with
    | none => if l.sent then none else some l
    | some m => if !l.sent && decide (m.toks.length ≤ l.toks.length) then some l else some m

/-- The list in which a strand's tokens for a destination gather. -/
def Die.openList (x : Die) (sid : Nat) (dest : Nat × Nat × Nat) : Option SendList :=
  x.lists.find? fun (l : SendList) => !l.sent && decide (l.sid = sid) && decide (l.dest = dest)

/-- A token enters the list of its destination (R249): a list of another payload size goes first; with all 1,024 lists in
use the fullest goes; a list of 32 tokens goes. -/
def State.enterList (s : State) (d sid : Nat) (asid : BitVec 12) (dest : Nat × Nat × Nat) (rb : Nat) (hold : Bool) (k : Token) : State :=
  let s := match (s.die d).openList sid dest with
    | some l => if l.rb = rb then s else s.sendList d l
    | none => s
  let s := match (s.die d).openList sid dest with
    | some l => s.modDie d fun x => { x with lists := x.lists.map fun (y : SendList) =>
        if y = l then { y with toks := y.toks ++ [k], hold := y.hold || hold } else y }
    | none =>
      let s := if (s.die d).lists.length ≥ 1024 then
          (match fullest (s.die d).lists with
           | some l => s.sendList d l
           | none => s)
        else s
      let l : SendList := { sid, asid, dest, rb, toks := [k], since := s.cycle, hold }
      s.modDie d fun x => { x with lists := x.lists ++ [l] }
  match (s.die d).openList sid dest with
  | some l => if l.toks.length ≥ 32 then s.sendList d l else s
  | none => s

/-- A dispatch command and its die. -/
def State.dxCmd? (s : State) (sn : Nat) : Option (Nat × DxCmd) :=
  s.dies.findSome? fun (d : Nat × Die) => (d.2.dxq.find? fun (x : DxCmd) => x.sn == sn).map fun x => (d.1, x)

/-- Changes a dispatch command. -/
def State.modDx (s : State) (d sn : Nat) (f : DxCmd → DxCmd) : State :=
  s.modDie d fun x => { x with dxq := x.dxq.map fun (y : DxCmd) => if y.sn = sn then f y else y }

/-- Saturating addition on 16 bits. -/
def satInc (a : BitVec 16) : BitVec 16 := if a = BitVec.allOnes 16 then a else a + 1

/-- Changes a strand and, in paired mode, its partner (R323). -/
def State.modPair (s : State) (sid : Nat) (f : Strand → Strand) : State :=
  match (s.strand? sid).bind fun t => if t.pair then t.partner else none with
  | some p => (s.modStrand sid f).modStrand p f
  | none => s.modStrand sid f

/-- A token of command `sn` is dropped (R249, R253, R255), lost to an error or not. -/
def State.dropToken (s : State) (d sn : Nat) (lost : Bool) : State :=
  let sid := (s.dxCmd? sn).map fun x => x.2.sid
  let s := s.modDx d sn fun x => { x with dropped := x.dropped + 1, err := x.err || lost }
  match sid with
  | some i => s.modPair i fun t => { t with drops := satInc t.drops }
  | none => s

/-- The open list for a destination that a token has just entered goes out (R249). -/
def State.sendEntered (s : State) (d sid : Nat) (dest : Nat × Nat × Nat) (k : Token) : State :=
  match (s.die d).openList sid dest with
  | some l => if l.toks.any fun j => j.cmd == k.cmd && j.idx == k.idx then s.sendList d l else s
  | none => s

/-- A token goes to the list of its first choice from number `c` on that has a receiver; without one it is dropped (R249). The
choices without a receiver that it passes over are denied (R244, R261), so that list goes out at once. -/
def State.listToken (s : State) (d : Nat) (x : DxCmd) (k : Token) (c : Nat) : State :=
  let r := dxRegs x.regs
  match (List.range k.choices.length).find? fun i => decide (c ≤ i) && ((k.reps[i]?).join).isSome with
  | none => s.dropToken d x.sn false
  | some i =>
    match (k.reps[i]?).join with
    | none => s.dropToken d x.sn false
    | some dest =>
      let s := s.enterList d x.sid x.asid dest r.rb r.hold { k with choice := i }
      if c < i then s.sendEntered d x.sid dest k else s

/-! ### Choosing (R244 to R246) -/

/-- The override entry that matches a token: EXPERT of the lowest (R243). -/
def Die.override (x : Die) (asid : BitVec 12) (layer : Nat) (id : BitVec 32) : Option Nat :=
  (x.ovr.find? fun (o : Nat × Ovr) => o.2.v && decide (o.2.asid = asid) && decide (o.2.layer.toNat = layer) &&
    decide (id &&& o.2.mask = o.2.id &&& o.2.mask)).map fun o => o.2.expert.toNat

/-- The choices of a token in hash mode, and whether choice 0 was forced (R244). -/
def hashChoices (r : DxRegs) (ovr : Option Nat) (id : BitVec 32) : List (Nat × BitVec 32) × Bool :=
  let h : Word := ((id.setWidth 64 ^^^ (BitVec.ofNat 64 r.layer <<< 32)) * r.mult) >>> r.shift
  let f := match ovr with
    | some e => e
    | none => h.toNat % r.e
  let second := (f + 1 + (h >>> 16).toNat % (r.e - 1)) % r.e
  ((f, 0) :: (if r.k = 2 then [(second, 0)] else []), ovr.isSome)

/-- Puts a scored expert into a list in descending order of score, after those of the same score. -/
def insertScore (x : Nat × BitVec 32) : List (Nat × BitVec 32) → List (Nat × BitVec 32)
  | [] => [x]
  | y :: t =>
    if (FFmt.f32.value y.2.toNat).cmp (FFmt.f32.value x.2.toNat) < 0 then x :: y :: t else y :: insertScore x t

/-- The score of a row against one expert's weights (R245): block sums of R53 in increasing order. -/
def scoreRow (x w : List Nat) (sb : BitVec 32) (blocks : Nat) : BitVec 32 :=
  (List.range blocks).foldl (fun acc i =>
    blockAdd 8 acc ((x.drop (128 * i)).take 128) ((w.drop (128 * i)).take 128) oneF32 sb) 0

/-- The score of expert `e` on die `d` (R245). The gate holds `eg` experts; of one that it does not hold, nothing is said
(log entry 8). -/
def State.score (s : State) (d eg dim : Nat) (x : List Nat) (e : Nat) : BitVec 32 :=
  if e ≥ eg then BitVec.ofNat 32 (Config.choice (s.serial + e))
  else
    let w := (s.readBytes (gateKey d (e * dim)) dim).map fun b => b.toNat
    scoreRow x w (BitVec.ofNat 32 (s.readNat (gateKey d (eg * dim + 4 * e)) 4)) (dim / 128)

/-- The choices of a token in scored mode, and whether choice 0 was forced (R245). -/
def State.scoredChoices (s : State) (d : Nat) (r : DxRegs) (ovr : Option Nat) (row : List Byte) : List (Nat × BitVec 32) × Bool :=
  let eg := match (s.die d).gate with
    | some (e, _, _) => e
    | none => 0
  let x := (row.take r.d).map fun b => b.toNat
  let sc := (List.range r.e).map fun e => (e, s.score d eg r.d x e)
  let ok := (sc.filter fun y => !FFmt.f32.isNan y.2.toNat).foldl (fun l y => insertScore y l) []
  match ovr with
  | none => (ok.take r.k, false)
  | some f =>
    let own := ((sc.find? fun y => y.1 = f).map fun y => y.2).getD 0
    ((f, own) :: (ok.filter fun y => !(y.1 == f)).take (r.k - 1), true)

/-- The DX commands that a strand issued before number `sn` have begun (R132): nothing that they wait for is left. -/
def State.dxTurn (s : State) (sid sn : Nat) : Bool :=
  s.inTurn sid .dx sn && s.dies.all fun (d : Nat × Die) =>
    (d.2.dxq.all fun (y : DxCmd) => !(y.sid == sid && decide (y.sn < sn)) || (s.mayBegin sid y.after && s.pairReady sid y.sn)) &&
    d.2.merges.all fun (y : MergeCmd) => !(y.sid == sid && decide (y.sn < sn)) || (s.mayBegin sid y.after && s.pairReady sid y.sn)

/-- A command whose next token the engine may choose: it has begun (R131, R132), it is not stalled, and it has a token. -/
def State.dxReady (s : State) (d i : Nat) : Option DxCmd :=
  let q := (s.die d).dxq
  match q[i]? with
  | none => none
  | some x =>
    let before := (q.take i).any fun (y : DxCmd) => decide (y.sid = x.sid) && !y.stop && !y.done &&
      (decide ((dxRegs y.regs).mode = 2) || decide (y.next < (dxRegs y.regs).n))
    if before || x.stop || x.done || x.tok ≠ 0 || !s.mayBegin x.sid x.after || !s.pairReady x.sid x.sn || !s.dxTurn x.sid x.sn then none else some x

/-- A command stalls on a page fault of a source read (R252): the record DISPFAULT; it waits while the die has no place for
the record. -/
def State.stallDx (s : State) (d : Nat) (x : DxCmd) (va cause : Nat) : State :=
  match s.engFault (d * 256 + 7) x.sid 3 4 va accR cause x.pc (.dispatch d x.sn) with
  | none => s
  | some (tok, s) => s.modDx d x.sn fun y => { y with tok }

/-- The lists that hold tokens of a command go out when it has chosen its last token, unless HOLD is set (R249). -/
def State.endChoosing (s : State) (d : Nat) (x : DxCmd) : State :=
  let r := dxRegs x.regs
  if x.next + 1 < r.n || r.hold then s
  else s.sendLists d fun l => l.toks.any fun (k : Token) => k.cmd == x.sn

/-- The choice of the next token of a command (R244 to R246): its identifier and its row are read, once links lead to them
(R336); the table is read once. -/
def State.chooseToken (s : State) (d : Nat) (x : DxCmd)
    (f : State → DxRegs → Option Nat → BitVec 32 → List Byte → List (Nat × BitVec 32) × Bool) : State :=
  let r := dxRegs x.regs
  let next := fun (s : State) => s.modDx d x.sn fun y => { y with next := y.next + 1 }
  let lost := fun (s : State) => ((next s).dropToken d x.sn true).endChoosing d x
  if !s.allUp d (s.follow x.sid x.ids) (r.io + 4 * x.next) 4 accR ||
      !s.allUp d (s.follow x.sid x.src) (r.so + x.next * r.str) r.rb accR then s else
  match s.readSpan d (s.follow x.sid x.ids) (r.io + 4 * x.next) 4 with
  | .error (.xlate cause va) => s.stallDx d x va cause
  | .error _ => lost s
  | .ok (ib, s1) =>
    match s1.readSpan d (s1.follow x.sid x.src) (r.so + x.next * r.str) r.rb with
    | .error (.xlate cause va) => s.stallDx d x va cause
    | .error _ => lost s1
    | .ok (row, s2) =>
      let id : BitVec 32 := BitVec.ofNat 32 (natOfBytes ib)
      let ovr := if r.noovr then none else (s2.die d).override x.asid r.layer id
      let (cs, forced) := f s2 r ovr id row
      let s3 := { s2 with serial := s2.serial + r.e }
      let (rg, ver) := match s3.regionOf x.asid with
        | some (k, g) => (k, g.verAt d)
        | none => (64, 0)
      let k : Token := { cmd := x.sn, idx := x.next, id, choices := cs, choice := 0, ovr := forced, bytes := row, region := rg, ver
                         reps := cs.map fun c => s3.replica d x.asid r.layer r.e id c.1 }
      let s3 := match cs with
        | c :: _ => s3.countToken d x.asid r.layer c.1
        | [] => s3
      ((next s3).listToken d x k 0).endChoosing d x

/-- The engine of die `ua` chooses the next token of its command `ub` by hash (R244). -/
def execDsendHashChoose (s : State) : Host.Outcome State Fault Refusal :=
  match s.dxReady s.ua s.ub with
  | none => .next s
  | some x =>
    let r := dxRegs x.regs
    if r.mode ≠ 0 ∨ x.next ≥ r.n then .next s
    else .next (s.chooseToken s.ua x fun _ r ovr id _ => hashChoices r ovr id)

/-- The engine of die `ua` chooses the next token of its command `ub` by score (R245). -/
def execDsendScoredChoose (s : State) : Host.Outcome State Fault Refusal :=
  match s.dxReady s.ua s.ub with
  | none => .next s
  | some x =>
    let r := dxRegs x.regs
    if r.mode ≠ 1 ∨ x.next ≥ r.n then .next s
    else .next (s.chooseToken s.ua x fun s' r ovr _ row => s'.scoredChoices s.ua r ovr row)

/-- Command `ub` of die `ua`, of MODE 2, copies its gate into the gate memory (R245): the load takes the place of any
earlier gate. After an error no gate is loaded. -/
def execGateLoad (s : State) : Host.Outcome State Fault Refusal :=
  let d := s.ua
  match s.dxReady d s.ub with
  | none => .next s
  | some x =>
    let r := dxRegs x.regs
    if r.mode ≠ 2 || !s.allUp d (s.follow x.sid x.src) r.so (gateBytes r.e r.d) accR then .next s
    else
      let fin := fun (s : State) (g : Option (Nat × Nat × BitVec 12)) (err : Bool) =>
        (s.modDie d fun y => { y with gate := g }).modDx d x.sn fun y => { y with done := true, err }
      match s.readSpan d (s.follow x.sid x.src) r.so (gateBytes r.e r.d) with
      | .error (.xlate cause va) => .next (s.stallDx d x va cause)
      | .error _ => .next (fin s none true)
      | .ok (b, s1) => .next (fin (s1.writeBytes (gateKey d 0) b) (some (r.e, r.d, x.asid)) false)

/-- List `ub` of die `ua` goes out (R249): a held list, 256 cycles after its first token entered it; or a list with a token
of a command that has stopped choosing (R159). -/
def execSendListHoldTimeout (s : State) : Host.Outcome State Fault Refusal :=
  match (s.die s.ua).lists[s.ub]? with
  | none => .next s
  | some l =>
    let stopped := l.toks.any fun (k : Token) => ((s.dxCmd? k.cmd).map fun x => x.2.stop).getD false
    if l.sent then .next s
    else if (l.hold && decide (l.since + 256 ≤ s.cycle)) || stopped then .next (s.sendList s.ua l)
    else .next s

/-! ### Request, grant, rows (R249, R250) -/

/-- The receiving engine of die `ua` answers request `ub` (R249). A die of another package needs a link (R336). -/
def execReceiveRequest (s : State) : Host.Outcome State Fault Refusal :=
  let d := s.ua
  match (s.die d).reqs[s.ub]? with
  | none => .next s
  | some l =>
    if !s.pkgUp (d / 8) then .next s
    else
      let x := l.dest.2.2
      let s1 := s.modDie d fun y => { y with reqs := y.reqs.eraseIdx s.ub }
      let src := ((l.toks.head?).bind fun (k : Token) => (s.dxCmd? k.cmd).map fun y => y.1).getD d
      let reply := fun (s : State) (m : GrantMsg) => s.modDie src fun y => { y with grants := y.grants ++ [m] }
      match s.rcvEntry d x with
      | none => .next (reply s1 { lst := l, base := 0, count := 0 })
      | some e =>
        if decide (e.asid ≠ l.asid) || decide (e.rstr < 16 + l.rb) || (s.die d).releasing.contains x then
          .next (reply s1 { lst := l, base := 0, count := 0 })
        else
          let used := Tab.getD (s.die d).used x 0
          let g := Nat.min l.toks.length (e.cap - used)
          let s1 := s1.modDie d fun y => { y with used := Tab.set y.used x (used + g) }
          .next (reply s1 { lst := l, base := used, count := g, buf := e.buf, rstr := e.rstr, cnt := e.cnt })

/-- The header of a token's row (R247). -/
def Token.header (k : Token) (layer serial : Nat) (dest : Nat × Nat × Nat) : List Byte :=
  let (e, score) := (k.choices[k.choice]?).getD (0, 0)
  let sc := (roundVal .bf16 .rne false false (FFmt.f32.value score.toNat)).1
  bytesOfNat 4 k.id.toNat ++ bytesOfNat 2 layer ++ bytesOfNat 2 e ++ bytesOfNat 1 (dest.1 * 8 + dest.2.1)
    ++ bytesOfNat 1 (k.choice + (if k.ovr then 4 else 0)) ++ bytesOfNat 2 sc
    ++ bytesOfNat 4 (serial % 2 ^ 16 * 2 ^ 16 + k.idx)

/-- The token at place `j` of a granted list leaves for its row. -/
def State.sendRow (s : State) (m : GrantMsg) (j : Nat) (k : Token) : State :=
  match s.dxCmd? k.cmd with
  | none => s
  | some (_, x) =>
    let r := dxRegs x.regs
    let b := k.header r.layer x.serial m.lst.dest ++ k.bytes
    let y : RowMsg := { tok := k, x := m.lst.dest.2.2, off := m.buf + m.rstr * (m.base + j), cnt := m.cnt, bytes := b }
    s.modDie (m.lst.dest.1 * 8 + m.lst.dest.2.1) fun z => { z with rows := z.rows ++ [y] }

/-- A denied token takes its next choice (R249). -/
def State.retryToken (s : State) (d : Nat) (k : Token) : State :=
  match s.dxCmd? k.cmd with
  | none => s
  | some (_, x) => s.listToken d x k (k.choice + 1)

/-- Reply `ub` reaches the sending engine of die `ua` (R249): the granted tokens leave; the denied ones take their next
choice, in the order of the list, and the lists that they have entered go out. -/
def execGrantReply (s : State) : Host.Outcome State Fault Refusal :=
  let d := s.ua
  match (s.die d).grants[s.ub]? with
  | none => .next s
  | some m =>
    let s1 := s.modDie d fun y => { y with grants := y.grants.eraseIdx s.ub, lists := y.lists.erase m.lst }
    let ts := m.lst.toks
    let s1 := ((ts.take m.count).zipIdx).foldl (fun s (x : Token × Nat) => s.sendRow m x.2 x.1) s1
    let denied := ts.drop m.count
    if denied.isEmpty then .next s1
    else
      let s1 := s1.modPair m.lst.sid fun t => { t with denies := satInc t.denies }
      let s1 := denied.foldl (fun s k => s.retryToken d k) s1
      .next (s1.sendLists d fun l => l.toks.any fun (k : Token) =>
        denied.any fun (j : Token) => j.cmd == k.cmd && j.idx == k.idx)

/-- Chip scratchpad of a die as a region. -/
def chipRegion (d : Nat) : Region := { space := 3, unit := d, bound := 2 ^ 25 }

/-- Granted row `ub` on its way to die `ua` is written (R250); bytes beyond it and full/empty bits stay. -/
def execRowCommit (s : State) : Host.Outcome State Fault Refusal :=
  let d := s.ua
  match (s.die d).rows[s.ub]? with
  | none => .next s
  | some y =>
    if y.committed then .next s
    else
      match s.engWrite d (chipRegion d) y.off y.bytes with
      | .error _ => .next s
      | .ok (s1, _) => .next (s1.modDie d fun z => { z with rows := z.rows.set s.ub { y with committed := true } })

/-- Committed row `ub` of die `ua` is counted (R250): the counter word gains 1 and becomes full, as one step. A poisoned
counter loses the count. -/
def execArrivalCount (s : State) : Host.Outcome State Fault Refusal :=
  let d := s.ua
  match (s.die d).rows[s.ub]? with
  | none => .next s
  | some y =>
    if !y.committed then .next s
    else
      let key := chipKey d (y.cnt % 2 ^ 25)
      let s1 := s.modDie d fun z => { z with rows := z.rows.eraseIdx s.ub }
      let src := ((s.dxCmd? y.tok.cmd).map fun x => x.1).getD d
      if s.poisoned key 8 then .next (s1.dropToken src y.tok.cmd true)
      else
        let s1 := s1.fillWord key (BitVec.ofNat 64 (s.readNat key 8) + 1)
        .next (s1.modDx src y.tok.cmd fun x => { x with
          sent := x.sent + 1, later := x.later + (if y.tok.choice = 0 then 0 else 1) })

/-- Release `ub` that has arrived at die `ua` takes effect (R251): every row granted has been counted; USED and the counter
word become 0, the word empty, as one step. -/
def execReceiveRelease (s : State) : Host.Outcome State Fault Refusal :=
  let d := s.ua
  match (s.die d).releasing[s.ub]? with
  | none => .next s
  | some x =>
    let flying := ((s.die d).rows.any fun (y : RowMsg) => y.x == x) ||
      s.dies.any fun (z : Nat × Die) => z.2.grants.any fun (m : GrantMsg) =>
        decide (m.count ≠ 0) && decide (m.lst.dest.1 * 8 + m.lst.dest.2.1 = d) && m.lst.dest.2.2 == x
    if flying then .next s
    else
      let s1 := s.modDie d fun z => { z with releasing := z.releasing.eraseIdx s.ub, used := Tab.erase z.used x }
      match s.rcvEntry d x with
      | none => .next s1
      | some e =>
        let key := chipKey d (e.cnt % 2 ^ 25)
        .next ((s1.writeBytes key (wordBytes 0)).emptyWord key)

/-! ### Completion (R253, R254) -/

/-- The tokens of a command that the engine has not chosen. -/
def DxCmd.unchosen (x : DxCmd) : Nat := (dxRegs x.regs).n - x.next

/-- A command has ended: every token has been counted or dropped, or the gate is loaded (R253). A command that its strand's
end has stopped chooses no more (R159). -/
def DxCmd.isOver (x : DxCmd) : Bool :=
  if (dxRegs x.regs).mode = 2 then x.done || x.stop
  else (x.stop || decide (x.unchosen = 0)) && decide (x.sent + x.dropped = x.next)

/-- The completion word of a command (R253). -/
def DxCmd.word (x : DxCmd) : Word :=
  let gate := decide ((dxRegs x.regs).mode = 2)
  let dropped := if gate then 0 else x.dropped + (if x.stop then x.unchosen else 0)
  BitVec.ofNat 64 ((if x.err then 2 ^ 63 + 6 * 2 ^ 56 else 0) + (if dropped ≠ 0 || (gate && x.stop && !x.done) then 2 ^ 62 else 0)
    + dropped % 2 ^ 16 * 2 ^ 32 + x.later * 2 ^ 16 + x.sent)

/-- A `dflush` that waits for command `sn` waits for it no longer, and takes over the tokens that the command dropped (R254). -/
def Flush.settle (f : Flush) (sn dropped : Nat) : Flush :=
  if f.cmds.contains sn then { f with cmds := f.cmds.filter (fun n => !(n == sn)), dropped := f.dropped + dropped } else f

/-- Command `sn` has completed and dropped some tokens: a `dflush` that now waits for nothing ends (R254). -/
def State.settleFlushes (s : State) (d sn dropped : Nat) : State :=
  let l := (s.die d).flushes.map fun (f : Flush) => f.settle sn dropped
  let s := s.modDie d fun x => { x with flushes := l.filter fun (f : Flush) => !f.cmds.isEmpty }
  (l.filter fun (f : Flush) => f.cmds.isEmpty).foldl (fun s f =>
    (s.deliver f.sid f.dest (BitVec.ofNat 64 f.dropped)).uncount f.sid f.sn) s

/-- Command `ub` of die `ua` writes its completion word and stops counting (R253). -/
def execDsendCompletion (s : State) : Host.Outcome State Fault Refusal :=
  let d := s.ua
  match (s.die d).dxq[s.ub]? with
  | none => .next s
  | some x =>
    if !x.isOver || (s.dxReady d s.ub).isNone && !x.done && !x.stop || !s.wordUp d x.sid x.cw (staged x.regs 0x0D) then .next s
    else
      let s1 := s.modDie d fun y => { y with dxq := y.dxq.eraseIdx s.ub }
      let n := x.dropped + (if x.stop then x.unchosen else 0)
      let other := (s1.pairOf x.sid x.sn).map fun y => y.2.sn
      let s1 := s1.modPair x.sid fun t => { t with dxDropped := t.dxDropped + n }
      let s1 := (s1.engEnd x.sid x.sn x.cw (staged x.regs 0x0D) x.word).settleFlushes d x.sn n
      .next (match other with
        | some m => s1.settleFlushes d m n
        | none => s1)

/-- The `dsend`s that a strand issued before number `sn` and that have not completed (R254). -/
def State.sendsBefore (s : State) (sid sn : Nat) (t : Strand) : List Nat :=
  if t.pair then ((s.pairCmds.filter fun x => x.sid == sid && x.kind == 3 && decide (x.sn < sn)).map fun x => x.sn)
  else ((s.die (dieOf t.core)).dxq.filter fun (x : DxCmd) => x.sid == sid && decide (x.sn < sn)).map fun x => x.sn

/-- `dflush` of number `sn` begins (R254): the strand's held lists go out, and it waits for the `dsend`s before it. -/
def State.beginFlush (s : State) (sid sn : Nat) (dest : Dest) : State :=
  match s.strand? sid with
  | none => s
  | some t =>
    let c := dieOf t.core
    let owner := s.engSid sid
    let f : Flush := { sn, sid, cmds := s.sendsBefore sid sn t, dropped := t.dxDropped, dest }
    let s := s.sendLists c fun l => l.hold && l.sid == owner
    let s := s.modDie c fun x => { x with flushes := x.flushes ++ [f] }
    if f.cmds.isEmpty then s.settleFlushes c 0 0 else s

/-- `dflush` (R254): the strand's held lists go out; it waits for the strand's earlier commands, and gives the tokens that
they dropped. With an earlier operation or command in its way it begins later, and the strand goes on (R131, R132, R140). -/
def execDflush (d : GReg) (w : BitVec 1) (s : State) : Host.Outcome State Fault Refusal :=
  issue (.dflush d w) s fun s1 t _ =>
    if t.mustDefer (.dflush d w) (w = 1) || !s1.dxTurn s.cur s1.serial then s1.defer s.cur t (.dflush d w) d 0 (t.gate (w = 1))
    else
      let (s2, t, dest) := s1.lateDest t d
      let (sn, s2) := s2.fresh
      (s2.setStrand s.cur (t.countOn sn [.dx]).advance).beginFlush s.cur sn dest

/-- The word of `dstat` for strand `sid` (R255). -/
def State.dxStatus (s : State) (sid : Nat) (t : Strand) : Word :=
  let x := s.die (dieOf t.core)
  let out := (x.dxq.filter fun (y : DxCmd) => y.sid == s.engSid sid).length
  let lists := (x.lists.filter fun (l : SendList) => l.sid == s.engSid sid).length
  let gate := match x.gate with
    | some (_, _, a) => decide (a = t.asid)
    | none => false
  BitVec.ofNat 64 (t.drops.toNat * 2 ^ 48 + t.denies.toNat * 2 ^ 32 + out % 256 * 2 ^ 16 + lists % 256 * 2 ^ 8
    + (if gate then 1 else 0))

/-- `dstat` (R255): the word, at once; with an earlier operation in its way, when that has been performed (R131, R140). -/
def execDstat (d : GReg) (w : BitVec 1) (s : State) : Host.Outcome State Fault Refusal :=
  issue (.dstat d w) s fun s1 t _ =>
    if t.mustDefer (.dstat d w) (w = 1) then s1.defer s.cur t (.dstat d w) d 0 (t.gate (w = 1))
    else s1.finish s.cur t d (s1.dxStatus s.cur t)

end Sys2Proof.Machine
end

