-- ==== Sys2Proof/Machine/Migrate.lean ====
section
/-! DEFINITION. Migration (R257 to R259): `migrate`, the grant of a target core, and the arrival of a moved strand. -/

namespace Sys2Proof.Machine

/-- HOME of the operand of `migrate`. -/
def migHome (a : Word) : Bool := a.getLsbD 63

/-- The target core of `migrate` for a strand (R257): in paired mode the eastern partner goes 8 columns east of it. -/
def Strand.migTarget (t : Strand) (a : Word) : Nat := locCore a + (if t.pair && decide (t.core % 16 ≥ 8) then 8 else 0)

/-- A target is not one (R257): the current core, the home core, a core outside the domain or, in paired mode, one whose
partner would be off the mesh. -/
def State.badTarget (s : State) (t : Strand) (a : Word) : Bool :=
  let c := t.migTarget a
  decide (c = t.core) || decide (c = t.homeCore) || !s.inDomain (bits a 19 5) || (t.pair && decide (bits a 8 4 ≥ 8))

/-- The staged registers and the walk status of a strand after a move (R172, R257). -/
def Strand.afterMove (t : Strand) : Strand := { t.resetStaged with wstat := 0, drops := 0, denies := 0 }

/-- Sets a slice: `n` bytes with their full/empty bits from another slice; where `clear`, the rest 0 and empty (R257). -/
def State.moveSlice (s : State) (c k c' k' n : Nat) (clear : Bool) : State :=
  let s0 := s
  let b := s.readBytes (scratchKey c (0x1000 * k)) n
  let full := (s.sliceBits c k).filter fun w => decide (w < n / 8)
  let keep := if clear then [] else (s.sliceBits c' k').filter fun w => decide (n / 8 ≤ w)
  let s := if clear then s.clearRange (scratchKey c' (0x1000 * k')) 0x1000 else s
  ((s.writeBytes (scratchKey c' (0x1000 * k')) b).putSliceBits c' k' (full ++ keep)).carryPoison s0 n
    (fun _ o => some (scratchKey c (0x1000 * k + o))) fun _ o => some (scratchKey c' (0x1000 * k' + o))

/-- A strand leaves its slot for slot `k'` of core `c'` (R257): a held walk table is discarded (R217), the slice is carried,
and the slot it leaves is RESERVED if it is its home, FREE if not. -/
def State.depart (s : State) (sid : Nat) (c' k' n : Nat) (home : Bool) : State :=
  match s.strand? sid with
  | none => s
  | some t0 =>
    let c := t0.core
    let k := t0.slot
    let s := match s.heldTable c sid with
      | some w => s.discardTable c w
      | none => s
    let s := s.moveSlice c k c' k' n (!home)
    let t := (s.strand? sid).getD t0
    let away := t.isMig
    let s := s.modCore c fun x => { x with
      slots := vset x.slots k (if away then .free else .reserved sid)
      ctxUsed := if away then keyErase t.ctx x.ctxUsed else x.ctxUsed
      swapReq := x.swapReq.filter fun j => !(j == k) }
    let t := { t.afterMove.advance with loc := .transit c' k' }
    if home then s.setStrand sid { t with ctx := t.homeCtx }
    else
      let ctx := (s.core c').freeCtx.getD 0
      let s := s.modCore c' fun x => { x with slots := vset x.slots k' (.coming sid), ctxUsed := keyInsert ctx x.ctxUsed }
      let t := if away then t else { t with home := some (c, k), homeCtx := t.ctx }
      s.setStrand sid { t with ctx, migPc := t.pc }

/-- `migrate` (R257): without outstanding operations, a request for the target's grant, or the way home, which needs none. -/
def execMigrate (d a b : GReg) (s : State) : Host.Outcome State Fault Refusal :=
  issue (.migrate d a b) s fun s1 t rd =>
    let v := rd a
    let n := bits (rd b) 0 13
    if !t.outst.isEmpty || !t.late.isEmpty || !t.ops.isEmpty || !t.rets.isEmpty || !t.seq.isEmpty then s
    else if n > 4096 ∨ n % 8 ≠ 0 then s1.finish s.cur t d 5
    else if migHome v then
      match t.home with
      | none => s1.finish s.cur t d 4
      | some (c, k) =>
        if (s1.core c).sealed then s1.finish s.cur t d 2
        else
          let (s2, t, dest) := s1.lateDest t d
          (s2.setStrand s.cur { t with mig := some (c, true, n, dest) }).depart s.cur c k n true
    else if s1.badTarget t v then s1.finish s.cur t d 3
    else
      let (s2, t, dest) := s1.lateDest t d
      let (sn, s2) := s2.fresh
      s2.setStrand s.cur { t.countOn sn [.dx] with mig := some (t.migTarget v, false, n, dest) }

/-- A request ends without a grant: status `st` (R257). A swap-out that was asked for meanwhile can begin (R67, R259). -/
def State.migRefused (s : State) (sid : Nat) (st : Nat) : State :=
  match s.strand? sid with
  | none => s
  | some t =>
    match t.mig with
    | some (_, _, _, dest) =>
      ((s.setStrand sid { t.advance with mig := none, outst := [] }).deliver sid dest (BitVec.ofNat 64 st)).nextSwap t.core
    | none => s

/-- A strand's request and its partner's, where it has one: both must have asked (R257). -/
def State.migPair (s : State) (sid : Nat) (t : Strand) : Option (List (Nat × Nat × Nat)) :=
  let one := fun (i : Nat) (u : Strand) =>
    match u.mig, u.place? with
    | some (c, false, n, _), some _ => some (i, c, n)
    | _, _ => none
  match t.partner with
  | none => (one sid t).map fun x => [x]
  | some p =>
    match one sid t, (s.strand? p).bind fun u => one p u with
    | some x, some y => some [x, y]
    | _, _ => none

/-- The target core answers the migration request of strand `ua` (R257): a FREE slot and a free context number are granted,
and the context leaves; otherwise the reply is SEALED or DENIED. In paired mode both are granted, or neither. A core
of another package needs a link (R336). -/
def execMigrateGrant (s : State) : Host.Outcome State Fault Refusal :=
  match s.strand? s.ua with
  | none => .next s
  | some t =>
    match s.migPair s.ua t with
    | none => .next s
    | some l =>
      if l.any fun x => !s.pkgUp (x.2.1 / 2048) then .next s
      else if l.any fun x => (s.core x.2.1).sealed then .next (l.foldl (fun s x => s.migRefused x.1 2) s)
      else if l.all fun x => (s.core x.2.1).freeSlot.isSome && (s.core x.2.1).freeCtx.isSome then
        .next (l.foldl (fun s x => s.depart x.1 x.2.1 ((s.core x.2.1).freeSlot.getD 0) x.2.2 false) s)
      else .next (l.foldl (fun s x => s.migRefused x.1 1) s)

/-- The context of strand `ua` arrives at its destination slot (R257): the strand is LIVE and RUN there, `migrate` gives 0,
and it counts no longer. -/
def execMigrateArrive (s : State) : Host.Outcome State Fault Refusal :=
  match s.strand? s.ua with
  | none => .next s
  | some t =>
    match t.loc, t.mig with
    | .transit c k, some (_, home, _, dest) =>
      let s1 := s.modCore c fun x => { x with slots := vset x.slots k (.live s.ua) }
      let t := { t with loc := .slot c k, lastSlot := k, st := .run, ready := s.cycle + 1, mig := none, outst := [] }
      let s1 := s1.setStrand s.ua (if home then { t with home := none } else t)
      .next (s1.deliver s.ua dest 0)
    | _, _ => .next s

end Sys2Proof.Machine
end

