-- ==== Sys2Proof/Machine/Placement.lean ====
section
/-! DEFINITION. The distaff (R261 to R275): region registers, `plrd`, `plstat`, `plswitch`, `plmerge`, window ends and the
control loop, versions and their switch; and the start of a tick (R235). -/

namespace Sys2Proof.Machine

/-! ### Regions -/

/-- The dies of this package. -/
def State.ownDies (s : State) : List Nat := (List.range 8).map fun d => s.pkg.toNat * 8 + d

/-- Region `k`. -/
def State.plRegion (s : State) (k : Nat) : PlRegion := Tab.getD s.regions k {}
/-- Replaces region `k`. -/
def State.setRegion (s : State) (k : Nat) (g : PlRegion) : State := { s with regions := Tab.set s.regions k g }

/-- AUTO of a region. -/
def PlRegion.auto (g : PlRegion) : Bool := g.rgn.getLsbD 62
/-- NX of a region. -/
def PlRegion.nx (g : PlRegion) : Nat := bits g.wsz 48 10 + 1
/-- WSZ of a region. -/
def PlRegion.slotSize (g : PlRegion) : Nat := bits g.wsz 0 40
/-- The number of a replica's slot (R262). -/
def PlRegion.slotNo (g : PlRegion) (r : Nat × Nat × Nat) : Nat := (8 * r.1 + r.2.1) * g.nx + r.2.2

/-- The number of a region's state (R272). -/
def PlSt.code : PlSt → Nat
  | .stable => 0
  | .building => 1
  | .publishing => 2
  | .draining => 3

/-- Two runs of entries overlap. -/
def PlRegion.overlaps (a b : PlRegion) : Bool := decide (a.base < b.base + b.size) && decide (b.base < a.base + a.size)

/-- A write to a region register is refused (R263): `g` is the region with the value written. -/
def State.regionRefused (s : State) (k : Nat) (g : PlRegion) : Bool :=
  decide (g.st ≠ .stable) || decide (g.base + g.size > 8192) ||
    s.regions.any fun (x : Nat × PlRegion) => !(x.1 == k) && x.2.v && (g.overlaps x.2 || decide (x.2.asid = g.asid))

/-- `ewr` to `pl.rgn`, `pl.wb`, `pl.wsz` or `pl.pol` (R263): the register of region `pl.rsel` is set, or the write is refused
with ENGINE 0x405. -/
def execEwrPlRegion (r : EngReg) (a : GReg) (s : State) : Host.Outcome State Fault Refusal :=
  supervised (.ewrPlRegion r a) true s fun s =>
    issue (.ewrPlRegion r a) s fun s1 t rd =>
      let n := r.toNat
      let k := bits (staged t.pl 0x0B) 0 6
      let g := s1.plRegion k
      let v := rd a &&& engMask .pl n
      let g := match n with
        | 0x20 => { g with rgn := v }
        | 0x21 => { g with wb := v }
        | 0x22 => { g with wsz := v }
        | _ => { g with pol := v }
      if s1.regionRefused k g then s.engineTrap t 4 5 else (s1.setRegion k g).setStrand s.cur t.advance

/-! ### `plstat`, `plrd`, `plswitch` (R271 to R273) -/

/-- The state word of a region (R272). -/
def PlRegion.word (g : PlRegion) : Word :=
  BitVec.ofNat 64 (g.cv.toNat * 2 ^ 48 + (if g.st = .stable then 0 else (g.cv + 1).toNat * 2 ^ 32) + (if g.v then 2 ^ 31 else 0)
    + (if g.auto then 2 ^ 30 else 0) + g.st.code * 2 ^ 26 + g.last.toNat * 2 ^ 24 + g.lent.toNat)

/-- `plstat` (R272). -/
def execPlstat (d : GReg) (s : State) : Host.Outcome State Fault Refusal :=
  issue (.plstat d) s fun s1 t _ =>
    s1.finish s.cur t d (match s1.regionOf t.asid with
      | some (_, g) => g.word
      | none => 0)

/-- `plrd` (R271): the message goes to the distaff. -/
def execPlrd (a d : GReg) (s : State) : Host.Outcome State Fault Refusal :=
  issue (.plrd a d) s fun s1 t rd =>
    let (s2, t, dest) := s1.lateDest t d
    let (sn, s2) := s2.fresh
    s2.setStrand s.cur { (t.countOn sn [.dx]).advance with msgs := t.msgs ++ [.plrd sn s.cycle (rd a) dest] }

/-- The records of a change list: index, and the new entry. -/
def changesOf (b : List Byte) (n : Nat) : List (Nat × Word × Word × Word) :=
  (List.range n).map fun i => (i, dwordAt b (4 * i), dwordAt b (4 * i + 2), dwordAt b (4 * i + 3))

/-- `plswitch` (R273): the list is read in one step, and the message goes to the distaff. -/
def execPlswitch (d : GReg) (s : State) : Host.Outcome State Fault Refusal :=
  supervised (.plswitch d) true s fun s =>
    issue (.plswitch d) s fun s1 t _ =>
      let h := bits (staged t.pl 8) 0 5
      let o := bits (staged t.pl 9) 0 40
      let n := bits (staged t.pl 0x0A) 0 9
      let r := t.regionAt h
      let bad := decide (n = 0) || decide (n > 256)
      let n := if bad then 0 else n
      match if bad then none else regionCheck r h o (32 * n) rR with
      | some (c, v) => s.trap s.cur t c v
      | none =>
        s.readAtIssue s1 t r o (32 * n) fun s1 b =>
          let (s2, t, dest) := s1.lateDest t d
          let (sn, s2) := s2.fresh
          let m : Msg := .plswitch sn s.cycle (bits (staged t.pl 0x0B) 0 6) (changesOf b n) bad dest
          s2.setStrand s.cur { (t.countOn sn [.dx]).advance with msgs := t.msgs ++ [m] }

/-- The value that `plrd` reads at the distaff, and the state after it (R271). -/
def State.plRead (s : State) (asid : BitVec 12) (a : Word) : Word × State :=
  let i := bits a 0 13
  let sel := bits a 14 2
  match s.regionOf asid with
  | none => (BitVec.allOnes 64, s)
  | some (_, g) =>
    if i ≥ g.size ∨ sel = 3 then (BitVec.allOnes 64, s)
    else
      match sel with
      | 0 => ((s.plEntry (g.base + i)).1, s)
      | 1 => ((s.plEntry (g.base + i)).2, s)
      | _ =>
        let w := Tab.getD s.winRec (g.base + i) 0
        (w, if a.getLsbD 16 then { s with winRec := Tab.set s.winRec (g.base + i) (putBits w 63 1 0) } else s)

/-- An entry that cannot be staged (R273): a reserved bit is set, or a replica beyond NM1 is not 0. -/
def plEntryBad (e : Word × Word) : Bool :=
  decide (bits e.2 32 28 ≠ 0) || (List.range 4).any fun k =>
    decide (plRaw e k / 2 ^ 10 % 2 ^ 6 ≠ 0) || (decide (k ≥ plCount e) && decide (plRaw e k ≠ 0))

/-- The index that a change record names (R273); its other bits are ignored (R7). -/
def changeIdx (c : Nat × Word × Word × Word) : Nat := bits c.2.1 0 13

/-- A region begins to publish its staged version (R267). -/
def PlRegion.publish (g : PlRegion) : PlRegion := { g with st := .publishing, acks := [] }

/-- The status word of `plswitch` (R273). -/
def switchWord (cv : BitVec 16) (st : Nat) : Word := BitVec.ofNat 64 (cv.toNat * 2 ^ 48 + st)

/-- A `plswitch` at the distaff (R273): its status, or the state with the version being published. -/
def State.plStage (s : State) (sid sn k : Nat) (recs : List (Nat × Word × Word × Word)) (bad : Bool) (dest : Dest) :
    Except Word State :=
  let g := s.plRegion k
  if bad then .error (switchWord g.cv 2)
  else if !g.v || decide (g.st ≠ .stable) then .error (switchWord g.cv 1)
  else
    let idx := recs.map changeIdx
    if idx.any (fun i => decide (i ≥ g.size)) || decide (idx.eraseDups.length ≠ idx.length) ||
        recs.any (fun c => plEntryBad c.2.2) then .error (switchWord g.cv 2)
    else
      let staged := recs.foldl (fun (m : Tab (Word × Word)) c => Tab.set m (changeIdx c) c.2.2) []
      .ok (s.setRegion k { g.publish with staged, reply := some (sid, sn, dest) })

/-- A message of number `sn` may leave for the distaff: the synchronising operations issued before it are performed, and the DX
commands before it have begun (R131, R132). -/
def State.msgTurn (s : State) (sid sn : Nat) (t : Strand) : Bool :=
  !(t.ops.any fun o => o.kind.isSync && decide (o.sn < sn)) && s.dxTurn sid sn

/-- The distaff's reply (R271, R273). With `ub` odd, the oldest `plrd` or `plswitch` of strand `ua` reaches the distaff;
otherwise result `ub` div 2 reaches the strand. -/
def execDistaffReply (s : State) : Host.Outcome State Fault Refusal :=
  if s.ub % 2 = 0 then arriveResult .distaff { s with ub := s.ub / 2 }
  else
    match s.strand? s.ua with
    | none => .next s
    | some t =>
      if t.pair then .next s
      else
      let back := fun (s : State) (m : Msg) (sn : Nat) (dest : Dest) (v : Word) => s.modStrand s.ua fun t => { t with
        msgs := t.msgs.erase m, rets := t.rets ++ [{ kind := .distaff, sn, dests := [(dest, v)] }] }
      match t.msgs.find? fun m => match m with
          | .plrd .. | .plswitch .. => true
          | _ => false with
      | some (.plrd sn at_ arg dest) =>
        if !s.msgTurn s.ua sn t then .next s else
        let (v, s1) := s.plRead t.asid arg
        .next (back s1 (.plrd sn at_ arg dest) sn dest v)
      | some (.plswitch sn at_ k recs bad dest) =>
        if !s.msgTurn s.ua sn t then .next s else
        match s.plStage s.ua sn k recs bad dest with
        | .error v => .next (back s (.plswitch sn at_ k recs bad dest) sn dest v)
        | .ok s1 => .next (s1.modStrand s.ua fun t => { t with msgs := t.msgs.erase (.plswitch sn at_ k recs bad dest) })
      | _ => .next s

/-! ### Versions (R267, R268) -/

/-- Entries of a table put in place of those of a region. -/
def putEntries (tab : Tab (Word × Word)) (base : Nat) (l : Tab (Word × Word)) : Tab (Word × Word) :=
  l.foldl (fun m x => Tab.set m (base + x.1) x.2) tab

/-- Every engine has acknowledged (R267): the version is current, the one before drains, and a `plswitch` has its reply. -/
def State.switched (s : State) (k : Nat) : State :=
  let g := s.plRegion k
  let old := g.staged.map fun (x : Nat × Word × Word) => (x.1, s.plEntry (g.base + x.1))
  let cv := g.cv + 1
  let s := { s with pltab := putEntries s.pltab g.base g.staged }
  let s := s.setRegion k { g with st := .draining, cv, old, staged := [], acks := [], reply := none }
  match g.reply with
  | some (sid, sn, dest) => s.modStrand sid fun t => { t with
      rets := t.rets ++ [{ kind := .distaff, sn, dests := [(dest, switchWord cv 0)] }] }
  | none => s

/-- The engine of die `ua` applies the version of region `ub` that is being published, and acknowledges (R267). -/
def execVersionApply (s : State) : Host.Outcome State Fault Refusal :=
  let g := s.plRegion s.ub
  if g.st ≠ .publishing || g.acks.contains s.ua || !s.ownDies.contains s.ua then .next s
  else
    let s1 := s.setRegion s.ub { g with acks := keyInsert s.ua g.acks }
    .next (if g.acks.length + 1 = 8 then s1.switched s.ub else s1)

/-- A token is live under a region and version (R267). -/
def Token.under (x : Token) (k : Nat) (ver : BitVec 16) : Bool := x.region == k && decide (x.ver = ver)

/-- A live token of a region's version is in some engine of the package (R267). -/
def State.plLive (s : State) (k : Nat) (ver : BitVec 16) : Bool :=
  s.dies.any fun (x : Nat × Die) =>
    (x.2.lists.any fun (l : SendList) => l.toks.any fun y => y.under k ver) ||
    (x.2.grants.any fun (m : GrantMsg) => m.lst.toks.any fun y => y.under k ver) ||
    (x.2.rows.any fun (r : RowMsg) => r.tok.under k ver)

/-- Region `ua` has drained (R267): it is STABLE, and the event RETIRED goes to the tenant. -/
def execRegionDrained (s : State) : Host.Outcome State Fault Refusal :=
  let g := s.plRegion s.ua
  if g.st ≠ .draining || s.plLive s.ua (g.cv - 1) then .next s
  else
    let s1 := s.setRegion s.ua { g with st := .stable, old := [] }
    .next (s1.sendEvent (some (s.asidTenant g.asid).toNat) .retired 0 0 s.ua)

/-! ### Windows and the control loop (R264, R265) -/

/-- The window record of an entry after a window (R264): its old record, the count taken and whether one was saturated. -/
def winRecord (old : Word) (c : Nat × Bool) : Word :=
  let beyond := decide (c.1 ≥ 2 ^ 48) || c.2
  BitVec.ofNat 64 ((if old.getLsbD 63 || beyond then 2 ^ 63 else 0) + (if beyond then 2 ^ 62 else 0) + Nat.min c.1 (2 ^ 48 - 1))

/-- The load of an entry (R265). -/
def plLoad (rc : Word) (e : Word × Word) : Nat :=
  (if rc.getLsbD 62 then 2 ^ 48 - 1 else bits rc 0 48) / (if rc.getLsbD 62 then 1 else plCount e)

/-- `dieload` of a die of this package (R265). -/
def State.dieLoad (s : State) (d : Nat) : Nat :=
  s.pltab.foldl (fun n (x : Nat × Word × Word) =>
    if plV x.2 then
      ((plReps x.2).filter fun r => decide (r.1 * 8 + r.2.1 = d)).foldl (fun n _ =>
        Nat.min (2 ^ 48 - 1) (n + plLoad (Tab.getD s.winRec x.1 0) x.2)) n
    else n) 0

/-- The valid entries of a region: index in the region and entry. -/
def State.regionEntries (s : State) (g : PlRegion) : List (Nat × Word × Word) :=
  (s.pltab.filter fun (x : Nat × Word × Word) => decide (g.base ≤ x.1) && decide (x.1 < g.base + g.size) && plV x.2).map
    fun x => (x.1 - g.base, x.2)

/-- The lowest free slot of a die in a STABLE region (R265). -/
def State.freeSlotOf (s : State) (g : PlRegion) (d : Nat) : Option Nat :=
  let used := ((s.regionEntries g).map fun x => (plReps x.2).filter fun r => decide (r.1 * 8 + r.2.1 = d)).flatten.map fun r => r.2.2
  (List.range g.nx).find? fun x => !used.contains x

/-- The die and slot for a new replica of an entry (R265): the smallest load, then the lowest die. -/
def State.replicaPlace (s : State) (g : PlRegion) (loads : List (Nat × Nat)) (e : Word × Word) : Option (Nat × Nat) :=
  let held := (plReps e).map fun r => r.1 * 8 + r.2.1
  let l := (loads.filter fun x => !held.contains x.1 && decide (x.2 ≤ s.plIdle.toNat)).filterMap fun x =>
    (s.freeSlotOf g x.1).map fun slot => (x.2, x.1, slot)
  (l.foldl (fun (b : Option (Nat × Nat × Nat)) x =>
    match b with
    | none => some x
    | some y => if x.1 < y.1 then some x else some y) none).map fun x => x.2

/-- An action of the control loop on a region: an entry index, with the place of a new replica, or none to retire one. -/
abbrev PlAction := Nat × Option (Nat × Nat)

/-- The action on a region (R265): replicate the entry of largest load, or retire from the one of smallest. -/
def State.plAction (s : State) (g : PlRegion) (loads : List (Nat × Nat)) : Option PlAction :=
  let es := (s.regionEntries g).filter fun x => !plPin x.2
  let load := fun (x : Nat × Word × Word) => plLoad (Tab.getD s.winRec (g.base + x.1) 0) x.2
  let sat := fun (x : Nat × Word × Word) => (Tab.getD s.winRec (g.base + x.1) 0).getLsbD 62
  let hot := bits g.pol 32 32
  let cold := bits g.pol 0 32
  let rep := (es.filter fun x => decide (plCount x.2 < 4) && decide (load x > hot)).filterMap fun x =>
    (s.replicaPlace g loads x.2).map fun p => (load x, x.1, p)
  let best := rep.foldl (fun (b : Option (Nat × Nat × Nat × Nat)) x =>
    match b with
    | none => some x
    | some y => if x.1 > y.1 then some x else some y) none
  match best with
  | some (_, i, p) => some (i, some p)
  | none =>
    let ret := es.filter fun x => decide (plCount x.2 > 1) && !sat x && decide (load x < cold)
    (ret.foldl (fun (b : Option (Nat × Nat)) x =>
      match b with
      | none => some (load x, x.1)
      | some y => if load x < y.1 then some (load x, x.1) else some y) none).map fun x => (x.2, none)

/-- An entry from its raw replicas, V, PIN (R262). -/
def plMake (reps : List Nat) (e : Word × Word) : Word × Word :=
  let n := ((List.range 4).map fun k => (reps[k]?).getD 0 * 2 ^ (24 * k)).sum
  (BitVec.ofNat 64 n, putBits (BitVec.ofNat 64 (n / 2 ^ 64)) 32 32 (bits e.2 62 2 * 2 ^ 30 + (reps.length - 1) * 2 ^ 28))

/-- The copy of a replica's weights (R266): a command of no strand for the copy engine of core (7, 0) of the target die. -/
def PlRegion.weightCopy (g : PlRegion) (k sn : Nat) (src dst : Nat × Nat × Nat) : CopyCmd :=
  let at_ := fun (r : Nat × Nat × Nat) => g.wb.toNat + g.slotNo r * g.slotSize
  let reg := fun (r : Nat × Nat × Nat) => ({ space := 4, base := at_ r, bound := g.slotSize, rights := rR ||| rW, asid := g.asid } : Region)
  { sn, sid := 0, pc := 0, hint := false
    regs := regSet ([(6, bit63), (8, BitVec.ofNat 64 g.slotSize)] ++ (List.range 7).map fun i => (9 + i, (1 : Word)))
    src := reg src, dst := reg dst, cw := reg dst, slotDst := none, srcFmt := 15, srcSl := false, dstFmt := 15, after := []
    fol := none, folSn := 0, pl := some k }

/-- Takes an action on region `k` (R265, R266). -/
def State.plAct (s : State) (k : Nat) (g : PlRegion) (a : PlAction) : State :=
  let (i, place) := a
  let e := s.plEntry (g.base + i)
  let raw := (List.range (plCount e)).map (plRaw e)
  match place with
  | some (d, x) =>
    let e' := plMake (raw ++ [d * 2 ^ 16 + x]) e
    let s := s.setRegion k { g with st := .building, staged := [(i, e')], last := 1, lent := BitVec.ofNat 13 i }
    let (sn, s) := s.fresh
    let c := d * 256 + 7
    let cmd := g.weightCopy k sn (plRep e 0) (d / 8, d % 8, x)
    let cmd := if (s.core c).sealed then { cmd with err := true, cause := 5 } else cmd
    s.modCore c fun y => { y with copyq := y.copyq ++ [cmd] }
  | none =>
    s.setRegion k { g.publish with staged := [(i, plMake raw.dropLast e)], last := 2, lent := BitVec.ofNat 13 i }

/-- A window ends (R264, R265): the records are replaced by the counts that the engines gave up at the tick start, and each
region whose loop is on may have one action. -/
def execWindowEnd (s : State) : Host.Outcome State Fault Refusal :=
  match s.winColl with
  | none => .next s
  | some l =>
    let keys := ((s.winRec.map fun x => x.1) ++ l.map fun x => x.1).eraseDups
    let rcs := keys.foldl (fun (m : Tab Word) i =>
      Tab.set m i (winRecord (Tab.getD s.winRec i 0) (Tab.getD l i (0, false)))) []
    let s1 := { s with winColl := none, winRec := rcs }
    let loads := s1.ownDies.map fun d => (d, s1.dieLoad d)
    .next (s1.regions.foldl (fun s (x : Nat × PlRegion) =>
      if x.2.v && x.2.auto && decide (x.2.st = .stable) then
        match s1.plAction x.2 loads with
        | some a => s.plAct x.1 x.2 a
        | none => s
      else s) s1)

/-! ### The weights copy (R266) -/

/-- The weights copy of region `k` that has ended: its core, its channel, and the command. -/
def State.weightsDone (s : State) (k : Nat) : Option (Nat × Option Nat × CopyCmd) :=
  s.cores.findSome? fun (c : Nat × Core) =>
    match c.2.copyq.find? fun (x : CopyCmd) => x.err && decide (x.pl = some k) with
    | some x => some (c.1, none, x)
    | none =>
      (List.range 4).findSome? fun h =>
        let y := vget c.2.chans h {}
        match y.cmd with
        | some x => if y.st = .finish ∧ x.pl = some k then some (c.1, some h, x) else none
        | none => none

/-- The weights copy of region `ua` has ended (R266, R267): the version is published, or the stage is discarded with a
record PLACEFAIL, which waits for a place. -/
def execReplicaCopyEnd (s : State) : Host.Outcome State Fault Refusal :=
  let k := s.ua
  let g := s.plRegion k
  match s.weightsDone k with
  | none => .next s
  | some (c, h, x) =>
    if g.st ≠ .building || (x.err && !s.recRoom (dieOf c)) then .next s
    else
      let s1 := match h with
        | some h => s.putChan c h {}
        | none => s.modCore c fun y => { y with copyq := y.copyq.filter fun (z : CopyCmd) => !(z.sn == x.sn) }
      if x.err then
        let s1 := s1.putRecord (dieOf c) g.asid x.word (s.recordWord g.asid 4 0 0 0x13) (locWord c 0)
          (BitVec.ofNat 64 (g.lent.toNat + k * 2 ^ 16))
        .next (s1.setRegion k { g with st := .stable, staged := [], last := 3 })
      else .next (s1.setRegion k g.publish)

/-! ### `plmerge` (R274) -/

/-- The replicas of entry `i` of a region at a version: the current one or, while it drains, the one before (R274). -/
def State.mergeReps (s : State) (g : PlRegion) (i : Nat) (ver : BitVec 16) : List (Nat × Nat × Nat) :=
  let cur := s.plEntry (g.base + i)
  plReps (if ver = g.cv then cur else Tab.getD g.old i cur)

/-- The offset of a replica's gradient (R274). -/
def gradOff (v : Vector Word 32) (nx : Nat) (r : Nat × Nat × Nat) : Nat :=
  bits (staged v 3) 0 40 + ((8 * r.1 + r.2.1) * nx + r.2.2) * bits (staged v 4) 0 40

/-- `plmerge` and `plmerge.w` (R274): the checks, and the command with the replicas that it merges. -/
def execPlmerge (w : BitVec 1) (s : State) : Host.Outcome State Fault Refusal :=
  issue (.plmerge w) s fun s1 t _ =>
    let i := bits (staged t.pl 0) 0 13
    let mver := staged t.pl 1
    let gh := bits (staged t.pl 2) 0 5
    let glen := bits (staged t.pl 5) 0 40
    match (s1.regionOf t.asid).filter fun x => i < x.2.size with
    | none => s.engineTrap t 4 1
    | some (_, g) =>
      let ver := if mver.getLsbD 16 then g.cv else mver.setWidth 16
      let r := t.regionAt gh
      if ver ≠ g.cv && !(decide (g.st = .draining) && decide (ver = g.cv - 1)) then s.engineTrap t 4 2
      else if glen = 0 ∨ glen % 4 ≠ 0 then s.engineTrap t 4 3
      else if (t.handle gh).space ≠ 4 then s.engineTrap t 4 4
      else
        let reps := s1.mergeReps g i ver
        let checks := reps.zipIdx.map fun x =>
          regionCheck r gh (gradOff t.pl g.nx x.1) glen (if x.2 = 0 then rR ||| rW else rR)
        match firstFail (checks ++ [t.cwCheck (staged t.pl 6) (staged t.pl 7)]) with
        | some (c, v) => s.trap s.cur t c v
        | none =>
          let (sn, s2) := s1.fresh
          let m : MergeCmd := { sn, sid := s.cur, pc := t.pc, regs := t.pl, g := r, cw := t.regionAt (bits (staged t.pl 6) 0 5)
                                ver, reps, nx := g.nx, after := t.gate (w = 1) }
          let s2 := s2.pairIssue s.cur {
            sid := s.cur, sn, kind := 4, regs := t.pl, after := m.after, srcs := [], dst := none, cw := m.cw
            cwr := staged t.pl 7, since := 0 }
          let s2 := if s2.isEast s.cur then s2 else s2.modDie (dieOf t.core) fun y => { y with merges := y.merges ++ [m] }
          s2.setStrand s.cur (t.countOn sn [.dx]).advance

/-- A range of a merge that does not translate: address, cause and need. -/
def State.mergeXlate (s : State) (d : Nat) (m : MergeCmd) (glen : Nat) : Option (Nat × Nat × Acc) :=
  m.reps.zipIdx.findSome? fun x =>
    let o := gradOff m.regs m.nx x.1
    match s.spanXlate d m.g o accR glen with
    | some (c, va) => some (c, va, accR)
    | none => if x.2 = 0 then (s.spanXlate d m.g o accW glen).map fun e => (e.1, e.2, accW) else none

/-- Links lead to the gradients of a merge and to its completion word (R336). -/
def State.mergeUp (s : State) (d : Nat) (m : MergeCmd) (glen : Nat) : Bool :=
  s.wordUp d m.sid m.cw (staged m.regs 7) &&
    (decide (m.reps.length ≤ 1) || m.reps.all fun x => s.allUp d m.g (gradOff m.regs m.nx x) glen accR)

/-- The element at an offset of the gradients, as binary32, for each replica in order; reading them sets A of their pages (R304). -/
def State.gradsAt (s : State) (d : Nat) (m : MergeCmd) (o : Nat) : List (Nat × Nat × Nat) → Except SpanErr (List (BitVec 32) × State)
  | [] => .ok ([], s)
  | r :: t =>
    match s.readSpan d m.g (gradOff m.regs m.nx r + o) 4 with
    | .error e => .error e
    | .ok (b, s) => (State.gradsAt s d m o t).map fun x => (BitVec.ofNat 32 (natOfBytes b) :: x.1, x.2)

/-- The sum of R274, element by element in replica order, from element `k` for `n` elements; false where an uncorrectable
error ends it. -/
def State.mergeElems (s : State) (d : Nat) (m : MergeCmd) (k : Nat) : Nat → State × Bool
  | 0 => (s, true)
  | n + 1 =>
    match s.gradsAt d m (4 * k) m.reps with
    | .error _ => (s, false)
    | .ok ([], s) => (s, true)
    | .ok (g :: rest, s) =>
      let v := rest.foldl addF32 g
      match s.engWrite d m.g (gradOff m.regs m.nx (m.reps.headD (0, 0, 0)) + 4 * k) (bytesOfNat 4 v.toNat) with
      | .error _ => (s, false)
      | .ok (s, _) => State.mergeElems s d m (k + 1) n

/-- A merge ends (R274): its completion word, and it stops counting. -/
def State.endMerge (s : State) (d : Nat) (m : MergeCmd) (err : Bool) : State :=
  let w : Word := BitVec.ofNat 64 ((if err then 2 ^ 63 + 6 * 2 ^ 56 else 0) + m.ver.toNat * 2 ^ 32 + m.reps.length)
  let s := s.modDie d fun y => { y with merges := y.merges.filter fun (x : MergeCmd) => !(x.sn == m.sn) }
  s.engEnd m.sid m.sn m.cw (staged m.regs 7) w

/-- Merge `ub` of die `ua` sums the gradients and ends, or stalls on a page fault with a record MERGEFAULT (R274). -/
def execPlmergeCompletion (s : State) : Host.Outcome State Fault Refusal :=
  let d := s.ua
  match (s.die d).merges[s.ub]? with
  | none => .next s
  | some m =>
    let glen := bits (staged m.regs 5) 0 40
    let first := ((s.die d).merges.take s.ub).any fun (x : MergeCmd) => x.sid == m.sid
    if m.tok ≠ 0 || first || !s.mayBegin m.sid m.after || !s.pairReady m.sid m.sn || !s.dxTurn m.sid m.sn || !s.mergeUp d m glen then .next s
    else if m.reps.length ≤ 1 then .next (s.endMerge d m false)
    else
      match s.mergeXlate d m glen with
      | some (c, va, need) =>
        match s.engFault (d * 256 + 7) m.sid 4 6 va need c m.pc (.merge d m.sn) with
        | none => .next s
        | some (tok, s1) => .next (s1.modDie d fun y => { y with
            merges := y.merges.map fun (x : MergeCmd) => if x.sn = m.sn then { x with tok } else x })
      | none =>
        let (s1, ok) := s.mergeElems d m 0 (glen / 4)
        .next (s1.endMerge d m !ok)

/-! ### The tick (R235) -/

/-- The counts of every engine of the package, taken together (R264). -/
def State.takeCounts (s : State) : Tab (Nat × Bool) × State :=
  let l := s.ownDies.foldl (fun (m : Tab (Nat × Bool)) d => (s.die d).ctrs.foldl (fun m (x : Nat × BitVec 32 × Bool) =>
    let (n, sat) := Tab.getD m x.1 (0, false)
    Tab.set m x.1 (n + x.2.1.toNat, sat || x.2.2)) m) []
  (l, s.ownDies.foldl (fun s d => if (s.die d).ctrs.isEmpty then s else s.modDie d fun x => { x with ctrs := [] }) s)

/-- The chains of the tenants that are marked TICK (R235, R236): tenant, index, descriptor. -/
def State.tickChains (s : State) : List (Nat × Nat × Nat) :=
  ((List.range 64).map fun t =>
    match s.desc? (some t) with
    | none => []
    | some d =>
      if !s.descValid d then []
      else (List.range (bits (s.sysDword (d + 0x10)) 32 16)).filterMap fun k =>
        match s.chainAt t k with
        | some a => if (s.sysDword (a + 0x18)).getLsbD 33 then some (t, k, a) else none
        | none => none).flatten

/-- The IDLE strands with TW wake at a tick start (R235). -/
def State.tickWakes (s : State) : State :=
  (s.strandsWhere fun _ t => decide (t.st = .idle) && t.tw).foldl (fun s i => s.wakeMessage i) s

/-- A tick starts (R235, R333), in Run, once TICKP nanoseconds have passed: the count advances, IDLE strands with TW
wake, windows open, TICK chains are played, TICKP takes the value set for it, and at a window's end the engines give up
their counters (R264). -/
def execTickStart (s : State) : Host.Outcome State Fault Refusal :=
  let len := s.tickp.toNat * 693
  if s.power ≠ .run ∨ s.tickTime < len ∨ s.winColl.isSome then .next s
  else
    let s1 := { s with ticks := s.ticks + 1, tickTime := s.tickTime - len, tickp := s.tickpNext, winTicks := s.winTicks + 1 }
    let s1 := s1.tickWakes
    let s1 := { s1 with launches := s1.launches.map fun (l : Nat × Launch) =>
      (l.1, { l.2 with open_ := !l.2.hdr.noWindow && s1.windowOpen l.2.hdr }) }
    let s1 := s1.tickChains.foldl (fun s x => (s.chainRequest x.2.2 x.1 x.2.1 none).2) s1
    if s1.winTicks % Nat.max 1 s1.plWin.toNat = 0 then
      let (l, s2) := s1.takeCounts
      .next { s2 with winColl := some l }
    else .next s1

end Sys2Proof.Machine
end

