-- ==== Sys2Proof/Machine/Skein.lean ====
section
/-! DEFINITION. Skeins (R276 to R293): the layout in memory, `susp`, `resume`, `sdrop`, `sclone` and `sver`, the completion of a
suspension, recorded copies, and the restore of a group. -/

namespace Sys2Proof.Machine

/-! ### Layout (R276) -/

/-- The shape that fixes where the sections of a skein lie. -/
structure SkShape where
  w : Nat
  h : Nat
  s : Nat
  nbank : Nat
  clw : Nat
  chw : Nat
  deriving DecidableEq, Repr

/-- The shape in FOOT (R223, R277). -/
def skShape (foot : Word) : SkShape :=
  { w := bits foot 0 4 + 1, h := bits foot 4 4 + 1, s := bits foot 8 3 + 1, nbank := bits foot 11 3, clw := bits foot 19 8
    chw := bits foot 27 8 }

/-- C. -/
def SkShape.c (x : SkShape) : Nat := x.w * x.h
/-- N. -/
def SkShape.n (x : SkShape) : Nat := x.c * x.s
/-- Frame `i`. -/
def SkShape.frm (_ : SkShape) (i : Nat) : Nat := 0x40 + 576 * i
/-- Annex `i`. -/
def SkShape.anx (x : SkShape) (i : Nat) : Nat := x.frm x.n + 1088 * i
/-- Slice image `i`. -/
def SkShape.slc (x : SkShape) (i : Nat) : Nat := x.anx x.n + 4160 * i
/-- Core block `c`. -/
def SkShape.cbk (x : SkShape) (c : Nat) : Nat := x.slc x.n + 1216 * c
/-- Table entry `i`. -/
def SkShape.ops (x : SkShape) (i : Nat) : Nat := x.cbk x.c + 32 * i
/-- Bank image `j`. -/
def SkShape.img (x : SkShape) (j : Nat) : Nat := x.cbk x.c + 640 * x.c + 33280 * j
/-- The cluster-window image. -/
def SkShape.cli (x : SkShape) : Nat := x.img (x.c * x.nbank)
/-- The chip-window image. -/
def SkShape.chi (x : SkShape) : Nat := x.cli + 4160 * x.clw
/-- SIZE. -/
def SkShape.size (x : SkShape) : Nat := x.chi + 266240 * x.chw

/-- The shape of a group. -/
def Group.shape (g : Group) : SkShape := { w := g.w, h := g.h, s := g.s, nbank := g.nbank, clw := g.clw, chw := g.chw }

/-- The header of a skein (R277). -/
structure SkHdr where
  ver : Word
  ctl : Word
  foot : Word
  widw : Word
  orig : Word
  ops : Word
  img : Word
  size : Word
  deriving DecidableEq, Repr

/-- The fields of FOOT (R223). -/
def footMask : Word := 0x07FFFFFFFFFFFFFF

/-- A header from its 64 bytes; reserved bits are ignored, and are written as 0 wherever a dword of the header is (R7). -/
def skHdr (b : List Byte) : SkHdr :=
  { ver := dwordAt b 0, ctl := dwordAt b 1 &&& skCtlMask, foot := dwordAt b 2 &&& footMask
    widw := dwordAt b 3 &&& 0x0001FFFFFFFFFFFF, orig := dwordAt b 4 &&& 0x0000001FFFFFFFFF
    ops := dwordAt b 5 &&& 0x000000FFFFFFFFFF, img := dwordAt b 6 &&& 0x000000FFFFFFFFFF, size := dwordAt b 7 &&& 0x000000FFFFFFFFFF }

/-- The 64 bytes of a header. -/
def SkHdr.bytes (h : SkHdr) : List Byte := wordsBytes [h.ver, h.ctl, h.foot, h.widw, h.orig, h.ops, h.img, h.size]

/-- STATE. -/
def SkHdr.state (h : SkHdr) : Nat := bits h.ctl 0 2
/-- ASID. -/
def SkHdr.asid (h : SkHdr) : BitVec 12 := h.ctl.extractLsb' 12 12
/-- UNRES. -/
def SkHdr.unres (h : SkHdr) : Nat := bits h.ctl 48 16
/-- SIZE of a header. -/
def SkHdr.bytesTotal (h : SkHdr) : Nat := bits h.size 0 40
/-- PRIO. -/
def SkHdr.prio (h : SkHdr) : Nat := bits h.widw 41 2

/-! ### Captured memory (R276, R280) -/

/-- The byte map of a list of bits, eight to a byte. -/
def bitBytes : Nat → List Bool → List Byte
  | 0, _ => []
  | n + 1, l => BitVec.ofNat 8 ((l.take 8).zipIdx.map fun x => if x.1 then 2 ^ x.2 else 0).sum :: bitBytes n (l.drop 8)

/-- `n` bytes at the keys that `key` gives for their offsets, then the bit map of their words (R276). -/
def State.captured (s : State) (key : Nat → Nat) (n : Nat) : List Byte :=
  (List.range n).map (fun o => Memory.read s.mem (key o)) ++
    bitBytes (n / 64) ((List.range (n / 8)).map fun w => s.isFull (key (8 * w)))

/-- Puts an image back: bytes and bit map (R286). -/
def State.uncapture (s : State) (key : Nat → Nat) (n : Nat) (b : List Byte) : State :=
  let s := (b.take n).zipIdx.foldl (fun s x => s.runByte (key x.2) x.2 x.1) s
  let m := b.drop n
  (List.range (n / 8)).foldl (fun s w =>
    s.setFull (key (8 * w)) (((m[w / 8]?).getD 0).getLsbD (w % 8))) s

/-- The rectangle core `c` of a group. -/
def Group.core (g : Group) (c : Nat) : Nat := g.core0 + c % g.w + 16 * (c / g.w)

/-- The key of byte `o` of bank `j` of rectangle core `c`. -/
def Group.bankKey (g : Group) (c j o : Nat) : Nat := scratchKey (g.core c) (0x8000 * (g.bank0 + j) + o)
/-- The key of byte `o` of the cluster window. -/
def Group.clKey (g : Group) (o : Nat) : Nat := clusterKey (clusterOf g.core0) (4096 * g.cl0 + o)
/-- The key of byte `o` of the chip window. -/
def Group.chKey (g : Group) (o : Nat) : Nat := chipKey (dieOf g.core0) (2 ^ 18 * g.ch0 + o)

/-- A strand of a group by in-group index, if it has not ended. -/
def State.member (s : State) (g : Group) (i : Nat) : Option (Nat × Strand) :=
  match (g.strands[i]?).join with
  | none => none
  | some sid =>
    match s.strand? sid with
    | some t => if t.st = .ended then none else some (sid, t)
    | none => none

/-- Where a word lies in the captured state of a group (R280): AREA, IDX and offset. -/
def State.areaOf (s : State) (g : Group) (key : Nat) : Option (Nat × Nat × Nat) :=
  let slice := (List.range g.shape.n).findSome? fun i =>
    match s.member g i with
    | some (_, t) =>
      let k := scratchKey t.core (0x1000 * t.slot)
      if k ≤ key ∧ key < k + 0x1000 then some (0, i, key - k) else none
    | none => none
  let bank := fun (_ : Unit) => (List.range g.shape.c).findSome? fun c =>
    let k := g.bankKey c 0 0
    if k ≤ key ∧ key < k + 0x8000 * g.nbank then some (1, c, key - k) else none
  let cl := fun (_ : Unit) =>
    match clusterOff? key with
    | some (u, o) =>
      if u = clusterOf g.core0 ∧ 4096 * g.cl0 ≤ o ∧ o < 4096 * (g.cl0 + g.clw) then some (2, 0, o - 4096 * g.cl0) else none
    | none => none
  let ch := fun (_ : Unit) =>
    let k := g.chKey 0
    if k ≤ key ∧ key < k + 2 ^ 18 * g.chw then some (3, 0, key - k) else none
  ((slice.orElse bank).orElse cl).orElse ch

/-- The offsets in a skein of a word of captured state: of its image, and of the byte of its bit with the bit's number. -/
def SkShape.imageOf (x : SkShape) (area idx off : Nat) : Nat × Nat × Nat :=
  let at_ := fun (base n o : Nat) => (base + o, base + n + o / 64, o / 8 % 8)
  match area with
  | 0 => at_ (x.slc idx) 4096 off
  | 1 => at_ (x.img (idx * x.nbank + off / 0x8000)) 0x8000 (off % 0x8000)
  | 2 => at_ x.cli (4096 * x.clw) off
  | _ => at_ x.chi (2 ^ 18 * x.chw) off

/-! ### Sections as written (R278, R279) -/

/-- The handle table with the handles of strand space as they name the strand's slot now (R114). -/
def Strand.handlesNow (t : Strand) : List Handle :=
  t.handles.toList.map fun h =>
    if h.space = 0 && !h.isEmpty then
      { h with base := BitVec.ofNat 64 ((h.base.toNat + 0x1000 * t.slot + 2 ^ 18 - 0x1000 * t.slot0) % 2 ^ 18) }
    else h

/-- The annex of a strand (R278); the handles of one that had ended stand as it left them. -/
def Strand.annex (t : Strand) : List Byte :=
  let gone := decide (t.st = .ended)
  wordsBytes [t.wid, t.grp, t.image,
      BitVec.ofNat 64 (t.imgsz.toNat + (if gone then 2 ^ 32 else 0) + (if t.sup then 2 ^ 33 else 0)), 0, 0, 0, 0]
    ++ ((if gone then t.handles.toList else t.handlesNow).map Handle.bytes).flatten

/-- The barrier record of a register (R279); zero where the group does not hold it. -/
def BarReg.skein (b : BarReg) (g : Nat) : List Byte :=
  if b.held = some g then
    wordsBytes [BitVec.ofNat 64 (b.x0.toNat + b.y0.toNat * 16 + b.wm1.toNat * 256 + b.hm1.toNat * 4096 + b.ph.toNat * 2 ^ 16
        + b.tmo.toNat * 2 ^ 32),
      BitVec.ofNat 64 (b.mask.toNat + b.arrived.toNat * 2 ^ 8 + 2 ^ 16)]
  else List.replicate 16 0

/-- The port record of a port (R279); zero where the group does not own it. -/
def Port.skein (p : Port) (g : Nat) : List Byte :=
  if p.owner = some g then
    let vs := (p.vals.map fun (e : PortEntry) => e.val.getD 0).take 16
    wordsBytes (BitVec.ofNat 64 (2 ^ 63 + vs.length) :: vs) ++ List.replicate (8 * (16 - vs.length)) 0
  else List.replicate 136 0

/-- The core block of a core (R279). -/
def Core.skein (k : Core) (g bank0 nbank : Nat) : List Byte :=
  wordBytes (BitVec.ofNat 64 ((List.range nbank).map fun j => (vget k.bfmt (bank0 + j) 0).toNat * 2 ^ (8 * j)).sum)
    ++ List.replicate 56 0 ++ (k.bars.toList.map fun b => b.skein g).flatten ++ (k.ports.toList.map fun p => p.skein g).flatten

/-! ### Recorded copies (R280, R283, R287, R288) -/

/-- A copy that may be recorded (R283): its destination is global and its on-chip source bytes have been read. -/
def CopyCmd.recordable (x : CopyCmd) : Bool :=
  x.slotDst.isNone && decide (x.dst.space = 4) && (decide (x.src.space = 4) || decide (x.run ≥ x.total))

/-- The commands of a core with the place of each: a channel, or none for the queue. -/
def Core.commands (k : Core) : List (Option Nat × CopyCmd) :=
  ((List.range 4).filterMap fun h => ((vget k.chans h {}).cmd).map fun x => (some h, x)) ++ k.copyq.map fun x => (none, x)

/-- A command has ended, but for its completion: in channel `h`, or in the queue. -/
def Core.cmdDone (k : Core) (h : Option Nat) (x : CopyCmd) : Bool :=
  match h with
  | some h => decide ((vget k.chans h {}).st = .finish)
  | none => x.err

/-- Changes the commands of a core. -/
def Core.mapCmds (k : Core) (f : CopyCmd → CopyCmd) : Core :=
  { k with copyq := k.copyq.map f, chans := k.chans.map fun (h : Chan) => { h with cmd := h.cmd.map f } }

/-- Takes a command out of a core. -/
def Core.dropCmd (k : Core) (sn : Nat) : Core :=
  { k with
    copyq := k.copyq.filter fun (x : CopyCmd) => !(x.sn == sn)
    chans := k.chans.map fun (h : Chan) =>
      match h.cmd with
      | some x => if x.sn = sn then {} else h
      | none => h }

/-- The commands of a group's strands, core by core: core, place, command. -/
def State.groupCmds (s : State) (g : Nat) (x : Group) : List (Nat × Option Nat × CopyCmd) :=
  (x.cores.map fun c => (s.core c).commands.map fun y => (c, y)).flatten.filter fun y =>
    decide (y.2.2.group = g) && y.2.2.pl.isNone

/-- The copies recorded for the skein at an address: core, place, command. -/
def State.recordedAt (s : State) (va : Nat) (asid : BitVec 12) : List (Nat × Option Nat × CopyCmd) :=
  ((s.cores.map fun (k : Nat × Core) => k.2.commands.map fun y => (k.1, y)).flatten).filter fun y =>
    match y.2.2.recorded with
    | some (a, b, _) => decide (a = va) && decide (b = asid)
    | none => false

/-- The table entry of a recorded copy of group `x` (R280); `done` with its completion value. -/
def State.opsEntry (s : State) (x : Group) (c : Nat) (y : CopyCmd) (done : Bool) : List Byte :=
  let cw := staged y.regs 6
  let none_ := cw.getLsbD 63
  let place := match (s.follow y.sid y.cw).addr (bits cw 0 40) with
    | .phys k => if none_ then none else s.areaOf x k
    | .virt .. => none
  let idx := ((s.strand? y.sid).map fun t => t.index).getD 0
  let d0 : Nat := (if done then 2 ^ 63 else 0) + (if place.isSome then 2 ^ 62 else 0) + (if none_ then 2 ^ 61 else 0)
    + idx * 2 ^ 32 + c / 256 * 2 ^ 16 + c % 256 * 2 ^ 8
  let d1 : Nat := match place with
    | some (a, i, o) => a * 2 ^ 62 + i * 2 ^ 51 + o
    | none => 0
  wordsBytes [BitVec.ofNat 64 d0, BitVec.ofNat 64 d1, if done then y.word else 0,
    BitVec.ofNat 64 ((y.dst.base + (staged y.regs 3).toNat) % 2 ^ 64)]

/-- The new placement of a restored group's captured word: its key, or a place in a strand's slice. -/
def State.newWord (s : State) (g : Nat) (area idx off : Nat) (v : Word) : State :=
  let x := s.group g
  match area with
  | 0 =>
    match s.member x idx with
    | some (sid, t) =>
      s.fillAt sid { space := 0, unit := t.core, base := 0x1000 * t.slot, bound := 0x1000, rights := rR ||| rW ||| rA } off v
    | none => s
  | 1 => s.fillWord (x.bankKey idx 0 off) v
  | 2 => s.fillWord (x.clKey off) v
  | _ => s.fillWord (x.chKey off) v

/-- The end of a recorded copy is resolved at the header, in one step (R287): the entry is DONE with its value, UNRES falls,
and the value goes to its own word, or into the image before a resume's compare, and after one to the group that this resume
makes: held until its restore ends. -/
def State.resolveCopy (s : State) (c : Nat) (x : CopyCmd) (va : Nat) (asid : BitVec 12) (idx : Nat) : Except (Nat × Nat) State :=
  let d := dieOf c
  let s := s.landPart c x
  match s.readVirt d asid va 64 with
  | .error e => .error e
  | .ok (hb, s) =>
    let h := skHdr hb
    let ent := va + bits h.ops 0 40 + 32 * idx
    match s.readVirt d asid ent 16 with
    | .error e => .error e
    | .ok (eb, s) =>
      let e0 := dwordAt eb 0
      let e1 := dwordAt eb 1
      let v := x.word
      let area := bits e1 62 2
      let i := bits e1 51 11
      let off := bits e1 0 40
      match (s.writeVirt d asid ent (wordBytes (e0 ||| bit63))).bind fun s =>
          (s.writeVirt d asid (ent + 16) (wordBytes v)).bind fun s =>
            s.writeVirt d asid (va + 8) (wordBytes (putBits h.ctl 48 16 (h.unres - 1))) with
      | .error e => .error e
      | .ok s =>
        if e0.getLsbD 61 then .ok s
        else if !e0.getLsbD 62 then .ok (s.fillAt x.sid x.cw (bits (staged x.regs 6) 0 40) v)
        else if x.cmp = 0 ∧ h.state = 2 then
          let (o, bo, n) := (skShape h.foot).imageOf area i off
          match s.readVirt d asid (va + bo) 1 with
          | .error e => .error e
          | .ok (bb, s) =>
            (s.writeVirt d asid (va + o) (wordBytes v)).bind fun s =>
              s.writeVirt d asid (va + bo) [((bb[0]?).getD 0) ||| BitVec.twoPow 8 n]
        else
          match s.groups.find? fun (y : Nat × Group) => decide (y.2.cmp = x.cmp) && y.2.restore.isNone with
          | some (g, y) => .ok (if y.ended then s else s.newWord g area i off v)
          | none => .ok { s with heldVals := s.heldVals ++ [{ cmp := x.cmp, area := BitVec.ofNat 2 area, idx := i, off, val := v }] }

/-- A recorded copy that has ended is resolved (R287): of core `ua`, the one in channel `ub`, or with `ub` above 3 one that a
seal ended in the queue. Its suspension must be complete. A page fault stalls it with a record SKEINFAULT (R293). -/
def execRecordedCopyResolve (s : State) : Host.Outcome State Fault Refusal :=
  let c := s.ua
  let k := s.core c
  let cand := k.commands.find? fun y => y.2.recorded.isSome && k.cmdDone y.1 y.2 &&
    (if s.ub ≥ 4 then y.1.isNone else decide (y.1 = some s.ub))
  match cand with
  | none => .next s
  | some (_, x) =>
    match x.recorded with
    | none => .next s
    | some (va, asid, idx) =>
      if (s.group x.group).building.isSome || x.tok ≠ 0 || !s.virtUp (dieOf c) asid va 64 accRW ||
          !s.wordUp (dieOf c) x.sid x.cw (staged x.regs 6) then .next s
      else
        match s.resolveCopy c x va asid idx with
        | .ok s1 => .next (s1.modCore c fun k => k.dropCmd x.sn)
        | .error (cause, at_) =>
          match s.skeinFault (dieOf c) asid at_ accRW cause 0 with
          | none => .next s
          | some (tok, s1) => .next (s1.modCore c fun k => k.mapCmds fun (y : CopyCmd) => if y.sn = x.sn then { y with tok } else y)

/-! ### `susp` (R282 to R284) -/

/-- The checks of a skein access (R281): R118 on its size, SPACE where the handle is not global, ALIGN at 64 bytes. -/
def skeinCheck (r : Region) (h : Nat) (o : Word) (sz : Nat) (need : Rights) : Option (Cause × Word) :=
  match accessCheck r h o sz need .skein with
  | some e => some e
  | none => if (r.base + o.toNat) % 64 ≠ 0 then some (.align, o) else none

/-- `susp` (R282): the strand arrives at a suspension of its group, or gets the status of a refusal. A migrated strand first
returns home (R259). -/
def execSusp (d : GReg) (h : HReg) (x : GReg) (s : State) : Host.Outcome State Fault Refusal :=
  issue (.susp d h x) s fun s1 t rd =>
    let g := s1.group t.group
    let r := t.regionAt h.toNat
    let o := rd x
    match skeinCheck r h.toNat o g.shape.size (rR ||| rW ||| rS) with
    | some (c, v) => s.trap s.cur t c v
    | none =>
      let va := r.base + o.toNat
      if t.pair then s1.finish s.cur t d 3
      else
        match t.home with
        | some (c, k) =>
          if (s1.core c).sealed then s1.finish s.cur t d 4
          else if !t.outst.isEmpty || !t.ops.isEmpty || !t.rets.isEmpty || !t.seq.isEmpty then s
          else
            let s2 := (s1.setStrand s.cur { t with mig := some (c, true, 4096, .drop) }).depart s.cur c k 4096 true
            s2.modStrand s.cur fun u => { u with pc := t.pc }
        | none =>
          if g.allCores.any fun c => (s1.core c).sealed then s1.finish s.cur t d 4
          else
            let arrive := fun (s1 : State) (t : Strand) =>
              let (s2, t, dest) := s1.lateDest t d
              (s2.setStrand s.cur { t with susp := some dest }).modGroup t.group fun y => { y with suspAddr := some (va, t.asid) }
            match g.suspAddr with
            | some (a, _) => if a ≠ va then s1.finish s.cur t d 2 else arrive s1 t
            | none => arrive s1 t

/-- An arrived strand has drained (R283), but for its copies. -/
def Strand.drained (t : Strand) : Bool :=
  t.seq.isEmpty && t.rets.isEmpty && t.msgs.isEmpty && t.late.isEmpty && t.hold.isNone && t.outst.all fun x => decide (x.2 = .cp)

/-- Every core-path operation of a group's strands has been performed, those of ended ones and arrivals at barriers among them
(R292). -/
def State.groupPerformed (s : State) (g : Nat) : Bool :=
  s.strands.all fun (y : Nat × Strand) => decide (y.2.group ≠ g) || (y.2.ops.isEmpty && y.2.arrivals.isEmpty)

/-- Every pending push into the group's ports has its value, but for those of `susp` itself (R283). -/
def State.portsSettled (s : State) (g : Nat) (x : Group) : Bool :=
  let tags := s.strands.filterMap fun (y : Nat × Strand) =>
    match y.2.susp with
    | some (.port _ tag) => if y.2.group = g then some tag else none
    | _ => none
  x.cores.all fun c => (s.core c).ports.toList.all fun p =>
    decide (p.owner ≠ some g) || p.vals.all fun (e : PortEntry) => e.val.isSome || tags.contains e.tag

/-- A group may suspend (R283, R292): every strand that has not ended has arrived and drained, its copies have ended or are
recordable, none of its `cpcancel`s waits, and no copy is unresolved that a suspension before its own restore recorded. -/
def State.readyToSuspend (s : State) (g : Nat) (x : Group) : Bool :=
  let ts := s.strands.filter fun (y : Nat × Strand) => decide (y.2.group = g) && decide (y.2.st ≠ .ended)
  x.suspAddr.isSome && !ts.isEmpty && (ts.all fun y => y.2.susp.isSome && y.2.drained) && s.groupPerformed g && s.portsSettled g x &&
    ((s.groupCmds g x).all fun y => y.2.2.hint || y.2.2.recordable) &&
    (x.cores.all fun c => (s.core c).cancels.all fun z => !(ts.any fun y => y.1 == z.1)) &&
    (match x.restoredFrom with
     | some (va, asid) => (s.recordedAt va asid).all fun y => decide (y.2.2.group = g)
     | none => true)

/-- A suspension that stalls. -/
def State.stallSusp (s : State) (g va cause : Nat) (need : Acc) : State :=
  let x := s.group g
  let pc := ((s.strands.find? fun (y : Nat × Strand) => decide (y.2.group = g) && y.2.susp.isSome).map fun y => y.2.pc).getD 0
  match s.skeinFault (dieOf x.core0) x.asid va need cause pc with
  | some (tok, s) => s.modGroup g fun y => { y with tok }
  | none => s

/-- Steps 1 and 2 of R284: the header at the address is read; the strands are released where it is SUSPENDED or BUILDING;
otherwise it is written BUILDING with the next version, and the copies still running are recorded. Hints are cancelled. -/
def State.beginSusp (s : State) (g va : Nat) (asid : BitVec 12) : State :=
  let x := s.group g
  let d := dieOf x.core0
  match s.readVirt d asid va 64 with
  | .error (cause, va) => s.stallSusp g va cause accR
  | .ok (hb, s1) =>
    let h := skHdr hb
    if h.state = 2 ∨ h.state = 1 then s1.suspRelease g 1
    else
      match s1.writeVirt d asid va (wordsBytes [h.ver + 1, putBits h.ctl 0 2 1]) with
      | .error (cause, va) => s.stallSusp g va cause accW
      | .ok s2 =>
        let cmds := s2.groupCmds g x
        let s2 := (cmds.filter fun y => y.2.2.hint).foldl (fun s y =>
          (s.modCore y.1 fun k => k.dropCmd y.2.2.sn).uncount y.2.2.sid y.2.2.sn) s2
        let s2 := ((cmds.filter fun y => !y.2.2.hint).zipIdx).foldl (fun s y =>
          s.modCore y.1.1 fun k => k.mapCmds fun (z : CopyCmd) =>
            if z.sn = y.1.2.2.sn then { z with recorded := some (va, asid, y.2) } else z) s2
        s2.modGroup g fun y => { y with building := some (h.ver + 1) }

/-- The sections of a skein after its header, as the group stands (R276 to R280). `table` holds the table entries. -/
def State.sections (s : State) (g : Nat) (x : Group) (table : List Byte) : List Byte :=
  let f := x.shape
  let ms := (List.range f.n).map fun i => (s.member x i).map fun y => y.2
  let frames := ms.map fun o => match o with
    | some t => ({ t.advance with st := .run } : Strand).image576
    | none => List.replicate 576 (0 : Byte)
  let annexes := (List.range f.n).map fun i => ((((x.strands[i]?).join).bind s.strand?).getD { st := .ended }).annex
  let slices := ms.map fun o => match o with
    | some t => s.captured (fun k => scratchKey t.core (0x1000 * t.slot + k)) 4096
    | none => List.replicate 4160 0
  let blocks := (List.range f.c).map fun c => (s.core (x.core c)).skein g x.bank0 x.nbank
  let banks := (List.range (f.c * f.nbank)).map fun j => s.captured (x.bankKey (j / f.nbank) (j % f.nbank)) 0x8000
  frames.flatten ++ annexes.flatten ++ slices.flatten ++ blocks.flatten
    ++ (table ++ List.replicate (640 * f.c - table.length) 0) ++ banks.flatten
    ++ s.captured x.clKey (4096 * f.clw) ++ s.captured x.chKey (2 ^ 18 * f.chw)

/-- The header of a completed suspension (R277, R284). -/
def Group.skeinHdr (x : Group) (ver : Word) (nops unres : Nat) : SkHdr :=
  let f := x.shape
  { ver
    ctl := BitVec.ofNat 64 (unres * 2 ^ 48 + nops * 2 ^ 32 + x.asid.toNat * 2 ^ 12 + 7 * 2 ^ 8 + 2)
    foot := x.foot &&& footMask
    widw := BitVec.ofNat 64 (bits x.widths 0 39 + x.cls.toNat * 2 ^ 39 + x.prio.toNat * 2 ^ 41 + x.tenant.toNat * 2 ^ 43)
    orig := BitVec.ofNat 64 (x.core0 % 256 + x.core0 / 256 * 2 ^ 8 + (if x.nbank = 0 then 0 else x.bank0 * 2 ^ 16)
      + (if x.clw = 0 then 0 else x.cl0 * 2 ^ 19 + clusterOf x.core0 % 16 * 2 ^ 26) + (if x.chw = 0 then 0 else x.ch0 * 2 ^ 30))
    ops := BitVec.ofNat 64 (f.ops 0), img := BitVec.ofNat 64 (f.img 0), size := BitVec.ofNat 64 f.size }

/-- The captured parts of a group (R276): where each image lies in the skein, its bytes, and the key of each. -/
def State.images (s : State) (x : Group) : List (Nat × Nat × (Nat → Nat)) :=
  let f := x.shape
  ((List.range f.n).filterMap fun i => (s.member x i).map fun y => (f.slc i, 4096, fun o => scratchKey y.2.core (0x1000 * y.2.slot + o)))
    ++ ((List.range (f.c * f.nbank)).map fun j => (f.img j, 0x8000, x.bankKey (j / f.nbank) (j % f.nbank)))
    ++ [(f.cli, 4096 * f.clw, x.clKey), (f.chi, 2 ^ 18 * f.chw, x.chKey)]

/-- The arrived strands of a group get status 0 of `susp` (R284), and their held walk tables are discarded (R217). -/
def State.suspGive (s : State) (g : Nat) : State :=
  (s.arrived g).foldl (fun s i =>
    match s.strand? i with
    | none => s
    | some t =>
      let s := match s.heldTable t.core i with
        | some w => s.discardTable t.core w
        | none => s
      match t.susp with
      | some dest => s.deliver i dest 0
      | none => s) s

/-- The arrived strands of a group end, and count no more; its recorded copies count on no strand, one that had ended before
among them (R284). -/
def State.suspEnd (s : State) (g : Nat) (recs : List CopyCmd) : State :=
  let s := recs.foldl (fun s x => (s.uncount x.sid x.sn).uncount x.sid x.folSn) s
  (s.arrived g).foldl (fun s i => (s.modStrand i fun t => { t with outst := [], susp := none }).endStrand i) s

/-- Steps 3 to 5 of R284: recorded copies that have ended are resolved within the step (R288), every section and the header
are written, and the group ends. -/
def State.endSusp (s : State) (g va : Nat) (asid : BitVec 12) (ver : Word) : State :=
  let x := s.group g
  let d := dieOf x.core0
  let s1 := s.suspGive g
  let recs := s1.recordedAt va asid
  let done := fun (y : Nat × Option Nat × CopyCmd) => (s1.core y.1).cmdDone y.2.1 y.2.2
  let s1 := (recs.filter done).foldl (fun s y =>
    let cw := staged y.2.2.regs 6
    let s := s.landPart y.1 y.2.2
    if cw.getLsbD 63 then s else s.fillAt y.2.2.sid y.2.2.cw (bits cw 0 40) y.2.2.word) s1
  let table := ((List.range recs.length).map fun i =>
    match recs.find? fun y => decide (y.2.2.recorded = some (va, asid, i)) with
    | some y => s1.opsEntry x y.1 y.2.2 (done y)
    | none => List.replicate 32 0).flatten
  let hdr := x.skeinHdr ver recs.length (recs.filter fun y => !done y).length
  match (s1.writeVirt d asid (va + 0x40) (s1.sections g x table)).bind fun s => s.writeVirt d asid va hdr.bytes with
  | .error (cause, va) => s.stallSusp g va cause accW
  | .ok s2 =>
    let s2 := (s1.images x).foldl (fun s i => s.carryPoison s1 i.2.1 (fun _ o => some (i.2.2 o)) (atVirt d asid (va + i.1))) s2
    let s2 := (recs.filter done).foldl (fun s y => s.modCore y.1 fun k => k.dropCmd y.2.2.sn) s2
    (s2.modGroup g fun y => { y with building := none, suspAddr := none }).suspEnd g (recs.map fun y => y.2.2)

/-- The suspension of group `ua` completes (R284): first the header is written BUILDING, then the rest and the header
SUSPENDED. A header that a seal left BUILDING is rewritten before that. -/
def execSuspensionComplete (s : State) : Host.Outcome State Fault Refusal :=
  let g := s.ua
  let x := s.group g
  if x.tok ≠ 0 then .next s
  else
    match x.drop with
    | some (va, asid) => .next (s.dropHeader g va asid)
    | none =>
    if x.ended || x.suspAddr.any (fun y => !s.virtUp (dieOf x.core0) y.2 y.1 x.shape.size accRW) then .next s
    else match x.suspAddr, x.building with
    | some (va, asid), some ver => .next (s.endSusp g va asid ver)
    | some (va, asid), none => if s.readyToSuspend g x then .next (s.beginSusp g va asid) else .next s
    | none, _ => .next s

/-! ### `resume`, `sdrop`, `sclone`, `sver` (R286, R289 to R291) -/

/-- The strand parks at its skein instruction until the host wakes it, with a record SKEINFAULT (R293); it waits while the
die has no place for the record. -/
def State.skeinPark (s : State) (t : Strand) (va : Nat) (need : Acc) (cause : Nat) : State :=
  let d := dieOf t.core
  if s.recRoom d then
    let (tok, s) := s.wokenRecord d t.asid 15 7 va need cause t.selfWord t.pc (.core s.cur)
    s.park s.cur t (.fault tok)
  else s

/-- A read of a held skein instruction, after the strand's earlier core-path operations (R281, R293), once links lead there
(R336). -/
def State.skeinRead (s0 s : State) (t : Strand) (r : Region) (o n : Nat) (f : State → List Byte → State) : State :=
  if !t.ops.isEmpty || !s.allUp (dieOf t.core) r o n accR then s0
  else
    match s.readSpan (dieOf t.core) r o n with
    | .ok (b, s) => f s b
    | .error (.xlate cause va) => s0.skeinPark t va accR cause
    | .error e => s0.spanFail s0.cur t e

/-- A write of a held skein instruction at an address (R293), once links lead there (R336). -/
def State.skeinWrite (s0 s : State) (t : Strand) (va : Nat) (b : List Byte) (f : State → State) : State :=
  if !s.virtUp (dieOf t.core) t.asid va b.length accW then s0 else
  match s.writeVirt (dieOf t.core) t.asid va b with
  | .ok s => f s
  | .error (cause, at_) => s0.skeinPark t at_ accW cause

/-- The status of a held skein instruction is on its way: the strand is held until it arrives (R281). -/
def State.skeinStatus (s : State) (t : Strand) (d : GReg) (st : Nat) : State :=
  let (s, t, dest) := s.lateDest t d
  let (sn, s) := s.fresh
  s.setStrand s.cur { (t.countOn sn [.st]).advance with
    hold := some sn, rets := t.rets ++ [{ kind := .skein, sn, dests := [(dest, BitVec.ofNat 64 st)] }] }

/-- The trap that the reply of a held skein instruction will raise (R281): no register changes. -/
def State.skeinTrap (s0 : State) (c : Cause) (v : Word) : State :=
  let (sn, s) := s0.fresh
  s.modStrand s.cur fun t => { t.countOn sn [.st] with
    hold := some sn, rets := t.rets ++ [{ kind := .skein, sn, dests := [], trap := some (c, v) }] }

/-- The reply of a held skein instruction reaches its strand (R281, R286): result `ub` of strand `ua`, or the trap. -/
def execSkeinStatusReply (s : State) : Host.Outcome State Fault Refusal :=
  match s.strand? s.ua with
  | none => .next s
  | some t =>
    match t.rets[s.ub]? with
    | none => .next s
    | some r =>
      if r.kind ≠ .skein || t.hold ≠ some r.sn then .next s
      else
        let s1 := (s.setStrand s.ua { t with rets := t.rets.eraseIdx s.ub, hold := none }).deliverAll s.ua r
        match r.trap, s1.strand? s.ua with
        | some (c, v), some u => .next (s1.trap s.ua u c v)
        | _, _ => .next s1

/-- The rectangle of a skein at a core leaves the mesh, or spans two clusters with a cluster window (R286). -/
def SkShape.offMesh (x : SkShape) (core0 : Nat) : Bool :=
  decide (core0 % 16 + x.w > 16) || decide (core0 % 256 / 16 + x.h > 16) ||
    (decide (x.clw > 0) && decide ((clustersOf (rectCores core0 x.w x.h false)).length > 1))

/-- The copies recorded for a skein that have ended are resolved before its resume's compare (R287); those of a suspension that
still goes on are left to its step 4 (R288). -/
def State.resolveEnded (s : State) (va : Nat) (asid : BitVec 12) : Except (Nat × Nat) State :=
  ((s.recordedAt va asid).filter fun y => (s.core y.1).cmdDone y.2.1 y.2.2 && (s.group y.2.2.group).building.isNone).foldl (fun s y =>
    match y.2.2.recorded with
    | some (_, _, idx) => s.bind fun s => (s.resolveCopy y.1 y.2.2 va asid idx).map fun s => s.modCore y.1 fun k => k.dropCmd y.2.2.sn
    | none => s) (.ok s)

/-- The copies recorded for a skein belong from now on to the resume of compare `cmp` (R287). -/
def State.claimCopies (s : State) (va : Nat) (asid : BitVec 12) (cmp : Nat) : State :=
  (s.recordedAt va asid).foldl (fun s y => s.modCore y.1 fun k => k.mapCmds fun (z : CopyCmd) =>
    if z.sn = y.2.2.sn ∧ z.cmp = 0 then { z with cmp } else z) s

/-- `resume` (R286): the compare at the header is one step; an accepted group takes an entry of the tenant's device queue. -/
def execResume (p : BitVec 4) (h : HReg) (x : GReg) (s : State) : Host.Outcome State Fault Refusal :=
  joint (.resume p h x) (fun _ => true) (s := s) fun s => issue (.resume p h x) s fun s1 t rd =>
    let d : GReg := p.setWidth 5 <<< 1
    let r := t.regionAt h.toNat
    let o := rd x
    let ver := rd d
    let place := rd (d ||| 1)
    match skeinCheck r h.toNat o 64 (rR ||| rW ||| rS) with
    | some (c, v) => s.trap s.cur t c v
    | none =>
      let va := r.base + o.toNat
      match if t.ops.isEmpty then s1.resolveEnded va t.asid else .ok s1 with
      | .error (cause, at_) => s.skeinPark t at_ accRW cause
      | .ok s1 =>
      s.skeinRead s1 t r o.toNat 64 fun s1 b =>
        let k := skHdr b
        if k.asid ≠ t.asid then s1.skeinStatus t d 1
        else if k.ctl.getLsbD 8 = false then s1.skeinStatus t d 2
        else if k.state ≠ 2 ∨ k.ver ≠ ver then s.skeinTrap .skeinstale k.ver
        else if o.toNat + k.bytesTotal > r.bound then s.skeinTrap .bound o
        else if !s1.inDomain (bits place 11 5) || (!place.getLsbD 16 && (skShape k.foot).offMesh (bits place 0 8)) then
          s1.skeinStatus t d 3
        else if s1.devFull t.tenant.toNat k.prio then s1.skeinStatus t d 4
        else
          s.skeinWrite s1 t va (wordsBytes [k.ver + 1, putBits k.ctl 0 2 3]) fun s1 =>
            let (cmp, s1) := s1.fresh
            let q := s1.queue t.tenant.toNat k.prio ++ [QEntry.resume va t.asid place (dieOf t.core) t.sup cmp 0]
            ((s1.setQueue t.tenant.toNat k.prio q).claimCopies va t.asid cmp).skeinStatus t d 0

/-- `sdrop` (R289). -/
def execSdrop (d : GReg) (h : HReg) (x : GReg) (s : State) : Host.Outcome State Fault Refusal :=
  joint (.sdrop d h x) (fun _ => true) (s := s) fun s => issue (.sdrop d h x) s fun s1 t rd =>
    let r := t.regionAt h.toNat
    let o := rd x
    match skeinCheck r h.toNat o 64 (rR ||| rW ||| rS) with
    | some (c, v) => s.trap s.cur t c v
    | none =>
      s.skeinRead s1 t r o.toNat 64 fun s1 b =>
        let k := skHdr b
        if k.asid ≠ t.asid then s1.skeinStatus t d 1
        else if k.ctl.getLsbD 10 = false then s1.skeinStatus t d 2
        else if k.state ≠ 2 ∨ k.ver ≠ rd d then s.skeinTrap .skeinstale k.ver
        else if k.unres > 0 then s.skeinTrap .skeinbusy (BitVec.ofNat 64 k.unres)
        else
          s.skeinWrite s1 t (r.base + o.toNat + 8) (wordBytes (putBits k.ctl 0 2 0)) fun s1 => s1.skeinStatus t d 0

/-- The rest of `sclone` (R290), from the source header `b` that it has read: the body is copied, and the destination's header is
written SUSPENDED. -/
def State.cloneBody (s0 s : State) (t : Strand) (g : GReg) (r : Region) (o d keep : Nat) (b : List Byte) : State :=
  let k := skHdr b
  s0.skeinRead s t r (o + 0x40) (k.bytesTotal - 0x40) fun s body =>
    let ctl := putBits (putBits k.ctl 8 3 (bits k.ctl 8 3 &&& keep)) 48 16 0
    s0.skeinWrite s t (r.base + d + 0x40) body fun s =>
      s0.skeinWrite s t (r.base + d) { k with ver := 0, ctl }.bytes fun s => s.skeinStatus { t with clone := none } g 0

/-- `sclone` takes its destination to BUILDING, version 0 (R290), and keeps the source header: a page fault of the copy resumes
there. `s0` is the state that its registers have not been read in. -/
def State.cloneStart (s0 s : State) (t : Strand) (g : GReg) (r : Region) (o d keep : Nat) (b db : List Byte) : State :=
  let w := wordsBytes [0, putBits (skHdr db).ctl 0 2 1]
  s0.skeinWrite s t (r.base + d) w fun s =>
    match s0.writeVirt (dieOf t.core) t.asid (r.base + d) w with
    | .ok s0 => (s0.modStrand s0.cur fun u => { u with clone := some (t.pc, b) }).cloneBody s t g r o d keep b
    | .error _ => s0

/-- `sclone` (R290). -/
def execSclone (p : BitVec 4) (h : HReg) (x : GReg) (s : State) : Host.Outcome State Fault Refusal :=
  joint (.sclone p h x) (fun _ => true) (s := s) fun s => issue (.sclone p h x) s fun s1 t rd =>
    let g : GReg := p.setWidth 5 <<< 1
    let r := t.regionAt h.toNat
    let o := rd x
    let d := bits (rd g) 0 40
    let keep := bits (rd (g ||| 1)) 0 3
    let check := (skeinCheck r h.toNat o 64 (rR ||| rW ||| rS)).orElse fun _ =>
      if (r.base + d) % 64 ≠ 0 then some (Cause.align, (BitVec.ofNat 64 d : Word)) else none
    match check, (t.clone.filter fun y => y.1 = t.pc) with
    | some (c, v), none => s.trap s.cur t c v
    | _, some (_, b) => s.cloneBody s1 t g r o.toNat d keep b
    | none, none =>
      s.skeinRead s1 t r o.toNat 64 fun s1 b =>
        let k := skHdr b
        let sz := k.bytesTotal
        if k.asid ≠ t.asid then s1.skeinStatus t g 1
        else if k.ctl.getLsbD 9 = false then s1.skeinStatus t g 2
        else if k.state ≠ 2 then s.skeinTrap .skeinstale k.ver
        else if k.unres > 0 then s.skeinTrap .skeinbusy (BitVec.ofNat 64 k.unres)
        else if d + sz > r.bound then s.skeinTrap .bound (BitVec.ofNat 64 d)
        else if o.toNat < d + sz ∧ d < o.toNat + sz then s1.skeinStatus t g 4
        else
          s.skeinRead s1 t r d 64 fun s1 db =>
            let st := (skHdr db).state
            if st = 1 ∨ st = 2 then s1.skeinStatus t g 3
            else s.cloneStart s1 t g r o.toNat d keep b db

/-- `sver` (R291): the header's first 16 bytes, as a load. -/
def execSver (p : BitVec 4) (h : HReg) (x : GReg) (s : State) : Host.Outcome State Fault Refusal :=
  issue (.sver p h x) s fun s1 t rd =>
    let d : GReg := p.setWidth 5 <<< 1
    let r := t.regionAt h.toNat
    let o := rd x
    match skeinCheck r h.toNat o 64 (rR ||| rS) with
    | some (c, v) => s.trap s.cur t c v
    | none =>
      let (s2, t, d1) := s1.lateDest t d
      let (s2, t, d2) := s2.lateDest t (d ||| 1)
      s2.enqueue s.cur t [.ld] (.sver (r.base + o.toNat) d2) d1

/-! ### Placing and restoring a group (R286) -/

/-- What the placer reads of a skein before it places its group: the header, the strands that had ended, and for each core
the barrier indices held and the ports owned. -/
structure SkPlan where
  hdr : SkHdr
  live : List Bool
  bars : List (List Nat)
  ports : List (List Nat)
  deriving DecidableEq, Repr

/-- Some flags in memory, each a bit of a dword at an offset: the numbers of those that are set. -/
def State.flagsAt (s : State) (d : Nat) (asid : BitVec 12) (va bit : Nat) : List Nat → Nat → Except (Nat × Nat) (List Nat × State)
  | [], _ => .ok ([], s)
  | o :: t, i =>
    match s.readVirt d asid (va + o) 8 with
    | .error e => .error e
    | .ok (b, s) =>
      match State.flagsAt s d asid va bit t (i + 1) with
      | .error e => .error e
      | .ok (l, s) => .ok (if (wordOf b).getLsbD bit then i :: l else l, s)

/-- Flags of several lists of offsets. -/
def State.flagLists (s : State) (d : Nat) (asid : BitVec 12) (va bit : Nat) : List (List Nat) → Except (Nat × Nat) (List (List Nat) × State)
  | [] => .ok ([], s)
  | l :: t =>
    match s.flagsAt d asid va bit l 0 with
    | .error e => .error e
    | .ok (x, s) =>
      match State.flagLists s d asid va bit t with
      | .error e => .error e
      | .ok (xs, s) => .ok (x :: xs, s)

/-- The plan of a skein. -/
def State.skPlan (s : State) (d : Nat) (asid : BitVec 12) (va : Nat) : Except (Nat × Nat) (SkPlan × State) :=
  match s.readVirt d asid va 64 with
  | .error e => .error e
  | .ok (b, s) =>
    let h := skHdr b
    let f := skShape h.foot
    match s.flagsAt d asid va 32 ((List.range f.n).map fun i => f.anx i + 0x18) 0 with
    | .error e => .error e
    | .ok (ended, s) =>
      match s.flagLists d asid va 16 ((List.range f.c).map fun c => (List.range 4).map fun k => f.cbk c + 0x40 + 16 * k + 8) with
      | .error e => .error e
      | .ok (bars, s) =>
        match s.flagLists d asid va 63 ((List.range f.c).map fun c => (List.range 8).map fun p => f.cbk c + 0x80 + 136 * p) with
        | .error e => .error e
        | .ok (ports, s) =>
          .ok ({ hdr := h, live := (List.range f.n).map fun i => !ended.contains i, bars, ports }, s)

/-- What the group asks of each core beyond its own slots, barrier indices and ports (R226, R286). -/
def SkPlan.need (p : SkPlan) : Need :=
  let f := skShape p.hdr.foot
  { w := f.w, h := f.h, s := 0, nbank := f.nbank, nbar := 0, nacc := bits p.hdr.foot 17 2, clw := f.clw, chw := f.chw
    cls := bits p.hdr.widw 39 2 }

/-- The live strands of a rectangle core. -/
def SkPlan.liveOn (p : SkPlan) (c : Nat) : Nat :=
  let f := skShape p.hdr.foot
  ((List.range f.s).filter fun r => (p.live[c * f.s + r]?).getD false).length

/-- Whether the group fits on the rectangle from a core (R226, R286); with `pre`, counting slots that may be taken by
pre-emption. -/
def State.fitsSkein (s : State) (core0 : Nat) (p : SkPlan) (pre : Option Nat) : Option Allot :=
  let f := skShape p.hdr.foot
  match s.fits core0 p.need with
  | none => none
  | some a =>
    let ok := (List.range f.c).all fun c =>
      let core := core0 + c % f.w + 16 * (c / f.w)
      s.coreFits core { p.need with s := f.s, pre } &&
        (((p.bars[c]?).getD []).all fun k => (vget (s.core core).bars k {}).held.isNone) &&
        (((p.ports[c]?).getD []).all fun k => (vget (s.core core).ports k {}).owner.isNone)
    if ok then some a else none

/-- The rectangle for a resumed group (R286): on the die named, or on the first that fits of the package named, in the order of
R226 from the number of the resuming strand's die (log entry 52); at the core named, or where the fewest slots are occupied. -/
def State.placeSkein (s : State) (place : Word) (die : Nat) (p : SkPlan) (pre : Option Nat) : Option Allot :=
  let dies := if place.getLsbD 17 then dieOrder (bits place 11 5 * 8 + die % 8) else [bits place 8 8]
  dies.findSome? fun d =>
    if !s.pkgUp (d / 8) then none
    else if place.getLsbD 16 then
      let l := (List.range 256).filterMap fun c => (s.fitsSkein (d * 256 + c) p pre).map fun a => (s.occupied (d * 256 + c), a)
      (l.foldl (fun (b : Option (Nat × Allot)) x =>
        match b with
        | none => some x
        | some y => if x.1 < y.1 then some x else some y) none).map fun x => x.2
    else s.fitsSkein (d * 256 + bits place 0 8) p pre

/-- Holds the barrier indices and ports of a restored group on a core. -/
def Core.holdFor (k : Core) (g : Nat) (bars ports : List Nat) : Core :=
  { k with
    bars := bars.foldl (fun v i => vset v i { held := some g : BarReg }) k.bars
    ports := ports.foldl (fun v i => vset v i { owner := some g : Port }) k.ports }

/-- Places a resumed group (R286): what it holds is taken, and its strands get slots; they begin when the restore ends. -/
def State.placeResumed (s : State) (va : Nat) (asid : BitVec 12) (tenant : Nat) (sup : Bool) (cmp : Nat) (p : SkPlan) (a : Allot) : State :=
  let f := skShape p.hdr.foot
  let (g, s) := s.fresh
  let x : Group := {
    tenant := BitVec.ofNat 6 tenant, asid, core0 := a.core0, w := f.w, h := f.h, s := f.s, foot := p.hdr.foot
    widw := BitVec.ofNat 64 (bits p.hdr.widw 0 39), bank0 := a.bank0, nbank := f.nbank, cl0 := a.cl0, clw := f.clw
    ch0 := a.ch0, chw := f.chw, nacc := p.need.nacc, cls := BitVec.ofNat 2 p.need.cls, prio := BitVec.ofNat 2 p.hdr.prio
    restore := some (va, asid), restoredFrom := some (va, asid), cmp, supResume := sup }
  let s := s.takeGroup g x a p.need p.hdr.foot
  let s := (List.range f.c).foldl (fun s c =>
    s.modCore (x.core c) fun k => k.holdFor g ((p.bars[c]?).getD []) ((p.ports[c]?).getD [])) s
  let (ids, s) := (List.range f.n).foldl (fun (y : List (Option Nat) × State) i =>
    if (p.live[i]?).getD false then
      let t : Strand := { group := g, index := i, rank := i % f.s, asid, tenant := x.tenant, prioBase := x.prio, cls := x.cls }
      let (sid, s) := y.2.seat (x.core (i / f.s)) t.resetStaged
      (y.1 ++ [some sid], s)
    else
      let (sid, s) := y.2.fresh
      (y.1 ++ [some sid], s.setStrand sid { group := g, index := i, rank := i % f.s, asid, tenant := x.tenant, st := .ended })) ([], s)
  s.modGroup g fun y => { y with strands := ids }

/-- How the group of a skein stood: the rectangle's first core, banks, windows, and the slot of each strand. -/
structure OldPlace where
  core0 : Nat
  w : Nat
  h : Nat
  s : Nat
  bank0 : Nat
  nbank : Nat
  cl : Nat
  cl0 : Nat
  clw : Nat
  ch0 : Nat
  chw : Nat
  slots : List Nat
  deriving DecidableEq, Repr

/-- The old place, from ORIG and the frames (R277). -/
def oldPlace (h : SkHdr) (slots : List Nat) : OldPlace :=
  let f := skShape h.foot
  { core0 := bits h.orig 8 8 * 256 + bits h.orig 0 8, w := f.w, h := f.h, s := f.s, bank0 := bits h.orig 16 3, nbank := f.nbank
    cl := bits h.orig 26 4, cl0 := bits h.orig 19 7, clw := f.clw, ch0 := bits h.orig 30 7, chw := f.chw, slots }

/-- A range lies inside another. -/
def inside (a n base size : Nat) : Bool := decide (base ≤ a) && decide (a + n ≤ base + size)

/-- The offset in the scratchpad of rectangle core `c` that an old range moves to (R286): within a strand's slice or the bank
run. `own` restricts slices to one strand. -/
def State.moveRange (s : State) (x : Group) (o : OldPlace) (c a n : Nat) (own : Option Nat) : Option Nat :=
  let slice := (List.range o.s).findSome? fun r =>
    let i := c * o.s + r
    match s.member x i, o.slots[i]? with
    | some (_, t), some k =>
      if (own.isNone || own = some i) && inside a n (0x1000 * k) 0x1000 then some (a - 0x1000 * k + 0x1000 * t.slot) else none
    | _, _ => none
  slice.orElse fun _ =>
    if own.isNone && inside a n (0x8000 * o.bank0) (0x8000 * o.nbank) then some (a - 0x8000 * o.bank0 + 0x8000 * x.bank0) else none

/-- A handle of a restored strand (R286): global ones are kept; those that lay in the group's slices, banks and windows move
with them; the others are emptied. -/
def State.moveHandle (s : State) (x : Group) (o : OldPlace) (i : Nat) (h : Handle) : Handle :=
  let a := h.base.toNat
  let n := h.bound
  let c := i / o.s
  let put := fun (b : Nat) (tgt : Word) => ({ base := BitVec.ofNat 64 b, ctl := h.ctl, tgt } : Handle)
  let r : Option Handle :=
    if h.isEmpty then some h
    else if h.space = 4 then some h
    else if h.space = 0 then (s.moveRange x o c a n (some i)).map fun b => put b (handleTgt (dieOf (x.core c)) (x.core c % 256))
    else if h.space = 1 then
      if inside a n (0x8000 * o.bank0) (0x8000 * o.nbank) then
        some (put (a - 0x8000 * o.bank0 + 0x8000 * x.bank0) (handleTgt (dieOf (x.core c)) (x.core c % 256)))
      else none
    else if h.space = 2 then
      if h.die = o.core0 / 256 ∧ bits h.tgt 0 4 = o.cl ∧ inside a n (4096 * o.cl0) (4096 * o.clw) then
        some (put (a - 4096 * o.cl0 + 4096 * x.cl0) (handleTgt (dieOf x.core0) (clusterOf x.core0 % 16)))
      else none
    else if h.space = 3 then
      if h.die = o.core0 / 256 ∧ inside a n (2 ^ 18 * o.ch0) (2 ^ 18 * o.chw) then
        some (put (a - 2 ^ 18 * o.ch0 + 2 ^ 18 * x.ch0) (handleTgt (dieOf x.core0) 0))
      else none
    else
      let k := bits h.tgt 0 8
      let cx := k % 16 - o.core0 % 16
      let cy := k / 16 - o.core0 % 256 / 16
      if h.die ≠ o.core0 / 256 ∨ k % 16 < o.core0 % 16 ∨ k / 16 < o.core0 % 256 / 16 ∨ cx ≥ o.w ∨ cy ≥ o.h then none
      else
        (s.moveRange x o (cy * o.w + cx) a n none).map fun b =>
          put b (handleTgt (dieOf x.core0) (x.core (cy * o.w + cx) % 256))
  r.getD {}

/-- A strand restored from its frame and annex (R286). -/
def State.restoredStrand (s : State) (x : Group) (o : OldPlace) (i : Nat) (t : Strand) (frame annex : List Byte) : Strand :=
  let hs := (handlesOf (annex.drop 0x40) 32).drop 4
  let u := t.fromImage frame
  let kb := putBits u.kbins 3 15 (kBase u.kbins + 0x1000 * x.bank0 - 0x1000 * o.bank0)
  { u with
    wid := dwordAt annex 0, grp := dwordAt annex 1, image := dwordAt annex 2, imgsz := (dwordAt annex 3).setWidth 32
    sup := x.supResume && u.sup, pair := false, kbins := if o.nbank = 0 then u.kbins else kb, st := .run
    handles := startHandles x t.core t.slot (hs.map (s.moveHandle x o i)) }

/-- The barrier registers, ports and bank formats of a core, from its core block (R279). -/
def Core.restore (k : Core) (g bank0 nbank : Nat) (b : List Byte) : Core :=
  let w := dwordAt b 0
  let bfmt := (List.range nbank).foldl (fun v j => vset v (bank0 + j) (BitVec.ofNat 5 (bits w (8 * j) 5))) k.bfmt
  let bars := (List.range 4).foldl (fun v i =>
    let r := b.drop (0x40 + 16 * i)
    let d0 := dwordAt r 0
    let d1 := dwordAt r 1
    if d1.getLsbD 16 then
      vset v i { held := some g, x0 := d0.extractLsb' 0 4, y0 := d0.extractLsb' 4 4, wm1 := d0.extractLsb' 8 4
                 hm1 := d0.extractLsb' 12 4, ph := d0.extractLsb' 16 16, tmo := d0.extractLsb' 32 32, mask := d1.setWidth 8
                 arrived := d1.extractLsb' 8 8, recorded := d1.extractLsb' 8 8 : BarReg }
    else v) k.bars
  let ports := (List.range 8).foldl (fun v i =>
    let r := b.drop (0x80 + 136 * i)
    let d0 := dwordAt r 0
    if d0.getLsbD 63 then
      vset v i { owner := some g, vals := (List.range (Nat.min 16 (bits d0 0 5))).map fun j =>
        ({ val := some (dwordAt r (j + 1)), tag := 0 } : PortEntry) : Port }
    else v) k.ports
  { k with bfmt, bars, ports }

/-- What the annex of a strand that had ended keeps (R278). -/
def Strand.fromAnnex (t : Strand) (x : Group) (b : List Byte) : Strand :=
  let w := dwordAt b 3
  { t with
    wid := dwordAt b 0, grp := dwordAt b 1, image := dwordAt b 2, imgsz := w.setWidth 32, sup := x.supResume && w.getLsbD 33
    handles := vec32 (handlesOf (b.drop 0x40) 32) {} }

/-- Restores everything of a group from the bytes of its skein at an address (R286). -/
def State.restoreGroup (s : State) (g : Nat) (x : Group) (va : Nat) (h : SkHdr) (b : List Byte) : State :=
  let s0 := s
  let f := skShape h.foot
  let slots := (List.range f.n).map fun i => bits (dwordAt (b.drop (f.frm i)) (0x208 / 8)) 13 3
  let o := oldPlace h slots
  let images := s.images x
  let s := (List.range f.n).foldl (fun s i =>
    match s.member x i with
    | none =>
      match (x.strands[i]?).join with
      | some sid => s.modStrand sid fun u => u.fromAnnex x (b.drop (f.anx i))
      | none => s
    | some (sid, t) =>
      let u := s.restoredStrand x o i t (b.drop (f.frm i)) (b.drop (f.anx i))
      let s := s.modCore t.core fun k => { k with slots := vset k.slots t.slot (.live sid) }
      s.setStrand sid { u with loc := .slot t.core t.slot, lastSlot := t.slot, ready := s.cycle + 1 }) s
  let s := (List.range f.c).foldl (fun s c =>
    s.modCore (x.core c) fun k => k.restore g x.bank0 x.nbank (b.drop (f.cbk c))) s
  images.foldl (fun s i =>
    (s.uncapture i.2.2 i.2.1 (b.drop i.1)).carryPoison s0 i.2.1 (atVirt (dieOf x.core0) x.asid (va + i.1)) fun _ o => some (i.2.2 o)) s

/-- The cores of a group whose registers, handles, barrier registers or ports a restore would read from poisoned words of the skein:
such a word is consumed, and the core sealed (R314, R317; log entry 70). -/
def State.badCores (s : State) (x : Group) (va : Nat) : List Nat :=
  let f := x.shape
  let bad := s.badVirt (dieOf x.core0) x.asid
  ((List.range f.c).filter fun c => bad (va + f.cbk c) 1216 ||
    (List.range f.s).any fun r => bad (va + f.frm (c * f.s + r)) 576 || bad (va + f.anx (c * f.s + r)) 1088).map x.core

/-- The restore of group `ua` ends (R286, R287): its state comes from the skein, its strands are LIVE, and completion values
that waited for it are delivered as `stf` writes. A page fault stalls it with a record SKEINFAULT (R293). -/
def execGroupRestoreEnd (s : State) : Host.Outcome State Fault Refusal :=
  let g := s.ua
  let x := s.group g
  match x.restore with
  | none => .next s
  | some (va, asid) =>
    if x.tok ≠ 0 || x.ended || !s.virtUp (dieOf x.core0) asid va x.shape.size accR then .next s
    else
      let d := dieOf x.core0
      let fault := fun (va cause : Nat) =>
        match s.skeinFault d asid va accR cause 0 with
        | some (tok, s) => s.modGroup g fun y => { y with tok }
        | none => s
      match s.readVirt d asid va x.shape.size with
      | .error (cause, va) => .next (fault va cause)
      | .ok (b, s1) =>
        let s2 := s1.restoreGroup g x va (skHdr b) b
        let s2 := s2.modGroup g fun y => { y with restore := none }
        let mine := fun (v : HeldVal) => decide (v.cmp = x.cmp)
        let s3 := (s2.heldVals.filter mine).foldl (fun s v => s.newWord g v.area.toNat v.idx v.off v.val) s2
        let s3 := { s3 with heldVals := s3.heldVals.filter fun v => !mine v }
        .next ((s1.badCores x va).foldl (fun s c => s.seal c) s3)

end Sys2Proof.Machine
end

