-- ==== Sys2Proof/Machine/Placer.lean ====
section
/-! DEFINITION. The placer's choice (R225, R226, R286): the most urgent level, the tenants in turn, the head entry of each
queue; placing a launch's next group or a resumed group, and pre-emption for either (R67). -/

namespace Sys2Proof.Machine

/-- What a queue's head entry can do now: be placed, take slots by pre-emption of some strands, wait on a page fault of its
skein, or nothing. -/
inductive Chance where
  | place (a : Allot) (cores : List Nat) (plan : Option SkPlan) (s : State)
  | preempt (victims : List Nat) (cores : List Nat)
  | fault (cause va : Nat)
  | no

/-- The strands that must leave their slots on a core so that `n` slots come free, beyond those free or leaving (R67). -/
def State.toLeave (s : State) (c n p : Nat) : Nat → List (Nat × Strand) → List Nat
  | 0, _ => []
  | fuel + 1, vs =>
    let k := s.core c
    if k.freeSlots.length + k.leaving.length + (8 - (fuel + 1)) ≥ n then []
    else
      match victimOf vs with
      | none => []
      | some (sid, _) => sid :: State.toLeave s c n p fuel (vs.filter fun x => !(x.1 == sid))

/-- The victims of a rectangle for a launch of priority `p`: on each core, for the slots asked of it. -/
def State.rectVictims (s : State) (cores : List (Nat × Nat)) (p : Nat) : List Nat :=
  (cores.map fun x => s.toLeave x.1 x.2 p 8 (s.victims x.1 p)).flatten

/-- The chance of a launch (R225, R226, R235). -/
def State.launchChance (s : State) (l : Launch) (p : Nat) : Chance :=
  if l.next ≥ l.total || !s.mayPlace l then .no
  else
    let n := l.hdr.need
    let d := match l.src with
      | .strand d => d
      | _ => s.pkg.toNat * 8
    match s.findPlace d n with
    | some a => .place a (rectCores a.core0 n.w n.h n.paired) none s
    | none =>
      match s.findPlace d { n with pre := some p } with
      | none => .no
      | some a =>
        let cs := rectCores a.core0 n.w n.h n.paired
        .preempt (s.rectVictims (cs.map fun c => (c, n.s)) p) cs

/-- The chance of a group to be resumed (R286). -/
def State.resumeChance (s : State) (va : Nat) (asid : BitVec 12) (place : Word) (die tok p : Nat) : Chance :=
  if tok ≠ 0 || !s.virtUp die asid va 64 accR then .no
  else
    match s.skPlan die asid va with
    | .error (cause, va) => .fault cause va
    | .ok (plan, s1) =>
      let f := skShape plan.hdr.foot
      let cs := fun (a : Allot) => (List.range f.c).map fun c => a.core0 + c % f.w + 16 * (c / f.w)
      match s.placeSkein place die plan none with
      | some a => .place a (cs a) (some plan) s1
      | none =>
        match s.placeSkein place die plan (some p) with
        | none => .no
        | some a => .preempt (s.rectVictims ((cs a).map fun c => (c, f.s)) p) (cs a)

/-- The chance of a queue's head entry. -/
def State.chance (s : State) (p : Nat) (e : QEntry) : Chance :=
  match e with
  | .launch l =>
    match Tab.get? s.launches l with
    | some x => s.launchChance x p
    | none => .no
  | .resume va asid place die _ _ tok => s.resumeChance va asid place die tok p

/-- The tenants of a level in the order of service (R225). -/
def State.turns (s : State) (p : Nat) : List Nat :=
  (List.range 64).map fun i => ((vget s.rr p 0).toNat + i) % 64

/-- The queue that the placer serves, in Run (R333): level, tenant, head entry and its chance. On a level a group that can be
placed comes first; else one for which strands can be pre-empted, or whose skein cannot be read. -/
def State.serve (s : State) : Option (Nat × Nat × QEntry × Chance) :=
  if s.power ≠ .run then none
  else [0, 1, 2, 3].findSome? fun p =>
    let cs := (s.turns p).filterMap fun t => ((s.queue t p).head?).map fun e => (p, t, e, s.chance p e)
    (cs.find? fun x => match x.2.2.2 with
      | .place .. => true
      | _ => false).orElse fun _ => cs.find? fun x => match x.2.2.2 with
        | .preempt vs _ => !vs.isEmpty
        | .fault .. => s.recRoom (match x.2.2.1 with
            | .resume _ _ _ d _ _ _ => d
            | .launch _ => 0)
        | _ => false

/-- The queue's level goes on from the tenant after the one served (R225). -/
def State.served (s : State) (p t : Nat) : State := { s with rr := vset s.rr p (BitVec.ofNat 6 (t + 1)) }

/-- The head of a queue leaves it. -/
def State.popQueue (s : State) (t p : Nat) : State := s.setQueue t p (s.queue t p).tail

/-- The placer places the next group of a launch (R226), pre-empting if it must (R67). -/
def execGroupPlace (s : State) : Host.Outcome State Fault Refusal :=
  match s.serve with
  | some (p, t, .launch l, .place a _ _ s1) =>
    match Tab.get? s1.launches l with
    | none => .next s
    | some x =>
      let s2 := (s1.placeGroup l x a).served p t
      .next (if x.next + 1 ≥ x.total then s2.popQueue t p else s2)
  | some (_, _, .launch _, .preempt vs _) => .next (vs.foldl (fun s i => s.beginSwap i) s)
  | _ => .next s

/-- The placer places a resumed group (R286), pre-empting if it must (R67); where its skein cannot be read, a record
SKEINFAULT is made and the entry waits for the host's wake (R293). -/
def execResumeGroupPlace (s : State) : Host.Outcome State Fault Refusal :=
  match s.serve with
  | some (p, t, .resume va asid _ _ sup cmp _, .place a _ (some plan) s1) =>
    .next (((s1.placeResumed va asid t sup cmp plan a).served p t).popQueue t p)
  | some (_, _, .resume .., .preempt vs _) => .next (vs.foldl (fun s i => s.beginSwap i) s)
  | some (p, t, .resume va asid place die sup cmp _, .fault cause fva) =>
    match s.skeinFault die asid fva accR cause 0 with
    | none => .next s
    | some (tok, s1) =>
      .next (s1.setQueue t p (QEntry.resume va asid place die sup cmp tok :: (s1.queue t p).tail))
  | _ => .next s

/-! ### The return of contexts (R62, R67) -/

/-- The cores that a chance is about. -/
def Chance.cores : Chance → List Nat
  | .place _ cs _ _ | .preempt _ cs => cs
  | _ => []

/-- A group that is strictly more urgent than level `p` is to have slots of core `c`, by pre-emption or now that they are free
(R67, R225). -/
def State.wanted (s : State) (c p : Nat) : Bool :=
  s.queues.any fun q => decide (q.prio < p) && (q.entries.head?.any fun e => (s.chance q.prio e).cores.contains c)

/-- A context of core `c` may go back to a slot (R62): its wake is recorded or it never parked, its way out is over, and no
group that it was pre-empted for, or would be, is to have the slot (R67; log entry 61). -/
def State.returns (s : State) (c : Nat) (t : Strand) : Bool :=
  t.mayReturn && decide (t.ready ≤ s.cycle) && !s.wanted c t.prioP.toNat

/-- A context returns to a slot of core `ua` (R62, R67), by one of three steps. A strand in SWAP on its way in is LIVE. Else,
with a FREE slot and none in SWAP, the context that has been longest in the cache of those that may return enters SWAP in the
first FREE slot, unless a group more urgent than it is to have slots of the core. Else a STORED context that may return, the one
of the lowest strand number, comes into the cache, and its image is read back as it stands in memory (R65); a poisoned word of
it is consumed, and seals the core (R314; log entry 70). The order and the slot are the model's choice (log entry 61). -/
def execSwapIn (s : State) : Host.Outcome State Fault Refusal :=
  let c := s.ua
  let x := s.core c
  match x.entering with
  | some (k, sid) =>
    match s.strand? sid with
    | some t => .next (s.endSwapIn c k sid t)
    | none => .next s
  | none =>
    match x.freeSlot with
    | none => .next s
    | some k =>
      if x.swapBusy then .next s
      else
        match x.cache.find? fun i => (s.strand? i).any fun t => s.returns c t with
        | some sid =>
          .next ((s.modStrand sid fun t => { t with loc := .swapIn c k }).modCore c fun y => { y with
            slots := vset y.slots k (.enter sid), cache := keyErase sid y.cache })
        | none =>
          if x.cache.length ≥ 8 then .next s
          else
            match s.strands.find? fun y => decide (y.2.loc = .stored c) && s.returns c y.2 with
            | none => .next s
            | some (sid, t) =>
              match s.readVirt (dieOf c) 0 (x.ctxAddr t.ctx) 4096 with
              | .error _ => .next s
              | .ok (b, s1) =>
                let s2 := (s1.setStrand sid { t.fromEntry b with loc := .cached c }).modCore c fun y => { y with
                  cache := y.cache ++ [sid] }
                .next (if s1.badVirt (dieOf c) 0 (x.ctxAddr t.ctx) 4096 then s2.seal c else s2)

end Sys2Proof.Machine
end

