-- ==== Sys2Proof/Machine/Collective.lean ====
section
/-! DEFINITION. Collective reductions (R337 to R339). -/

namespace Sys2Proof.Machine

/-- The types of a collective (R337). -/
def clTy? (ty : Nat) : Option Ty :=
  if ty = 2 then some .s32 else if ty = 10 then some .bf16 else if ty = 11 then some .f32 else none

/-- The bytes of an element (R338). -/
def clWidth (ty : Nat) : Nat := if ty = 10 then 2 else 4

/-- One node of the tree on one element (R338): OP 0 sum, 1 max, 2 min. -/
def clNode (op ty : Nat) (a b : Nat) : Nat :=
  match clTy? ty with
  | none => a
  | some y =>
    if op = 1 then pickLane y true a b
    else if op = 2 then pickLane y false a b
    else if ty = 2 then (a + b) % 2 ^ 32
    else ((fmtOf y).add .rne a b).1

/-- One level of the tree (R19): neighbours are combined, an odd last member passes up unchanged. -/
def levelUp {α : Type} (f : α → α → α) : List α → List α
  | a :: b :: t => f a b :: levelUp f t
  | l => l

/-- The tree over members in position order (R19). -/
def treeFold {α : Type} (f : α → α → α) (l : List α) : Nat → List α
  | 0 => l
  | n + 1 => if l.length ≤ 1 then l else treeFold f (levelUp f l) n

/-- The little-endian elements of `w` bytes in a list of bytes. -/
def elemsOf (w : Nat) (b : List Byte) : Nat → List Nat
  | 0 => []
  | n + 1 => natOfBytes (b.take w) :: elemsOf w (b.drop w) n

/-- The result of a collective: the tree, element by element (R338). -/
def Coll.result (c : Coll) : List Byte :=
  let w := clWidth c.ty
  let vs := (List.range c.m).map fun p =>
    match c.members.find? fun (m : ClCmd) => bits (staged m.regs 1) 0 16 == p with
    | some m => elemsOf w m.vec c.n
    | none => []
  let r := (treeFold (List.zipWith (clNode c.op c.ty)) vs c.m).headD []
  (r.map (bytesOfNat w)).flatten

/-- The packages of the domain: this one, and those that ROUTE gives a link for (R336). -/
def State.domain (s : State) : List Nat :=
  (List.range 32).filter fun p => decide (p = s.pkg.toNat) || decide (vget s.route p 0xFF ≠ 0xFF)

/-- The home die of a tag (R338): index (tag mod D) of the domain's dies, numbered package-major. -/
def State.clHome (s : State) (tag : Nat) : Nat :=
  let ps := s.domain
  let i := tag % (8 * ps.length)
  (ps[i / 8]?).getD s.pkg.toNat * 8 + i % 8

/-- `clred` and `clred.w` (R338): the checks, and the command on its way to its home die. -/
def execClred (w : BitVec 1) (s : State) : Host.Outcome State Fault Refusal :=
  issue (.clred w) s fun s1 t _ =>
    let op := bits (staged t.cl 2) 4 4
    let ty := bits (staged t.cl 2) 0 4
    let m := bits (staged t.cl 1) 16 16
    let p := bits (staged t.cl 1) 0 16
    let n := bits (staged t.cl 3) 0 13 * clWidth ty
    let sh := bits (staged t.cl 4) 0 5
    let dh := bits (staged t.cl 6) 0 5
    let src := t.regionAt sh
    let dst := t.regionAt dh
    if op > 2 ∨ (clTy? ty).isNone then s.engineTrap t 5 1
    else if m = 0 ∨ p ≥ m then s.engineTrap t 5 2
    else
      match firstFail [regionCheck src sh (bits (staged t.cl 5) 0 40) n rR,
          regionCheck dst dh (bits (staged t.cl 7) 0 40) n rW, t.cwCheck (staged t.cl 8) (staged t.cl 9)] with
      | some (c, v) => s.trap s.cur t c v
      | none =>
        let (sn, s2) := s1.fresh
        let x : ClCmd := { sn, sid := s.cur, core := t.core, pc := t.pc, regs := t.cl, src, dst
                           cw := t.regionAt (bits (staged t.cl 8) 0 5), asid := t.asid, after := t.gate (w = 1) }
        let s2 := s2.pairIssue s.cur {
            sid := s.cur, sn, kind := 5, regs := t.cl, after := x.after, srcs := [(src, bits (staged t.cl 5) 0 40, n)]
            dst := some dst, cw := x.cw, cwr := staged t.cl 9, since := 0 }
        let s2 := if s2.isEast s.cur then s2 else s2.modDie (dieOf t.core) fun d => { d with clq := d.clq ++ [x] }
        s2.setStrand s.cur (t.countOn sn [.cl]).advance

/-- Replaces command `sn` of a die. -/
def State.putCl (s : State) (d : Nat) (x : ClCmd) : State :=
  s.modDie d fun y => { y with clq := y.clq.map fun (z : ClCmd) => if z.sn = x.sn then x else z }

/-- A page fault of a collective stalls the member, with a record whose KIND the spec does not state (R307). -/
def State.stallCl (s : State) (d : Nat) (x : ClCmd) (need : Acc) (cause va : Nat) : State :=
  match s.engFault x.core x.sid 5 Config.collFaultKind.toNat va need cause x.pc (.coll d x.sn) with
  | none => s
  | some (tok, s) => s.putCl d { x with tok }

/-- A member's source is read (R131, R338), once links lead to it (R336): an uncorrectable error, or a sealed core, ends the member
alone. -/
def State.beginCl (s : State) (d : Nat) (x : ClCmd) : State :=
  let n := bits (staged x.regs 3) 0 13 * clWidth (bits (staged x.regs 2) 0 4)
  if !s.allUp (dieOf x.core) (s.follow x.sid x.src) (bits (staged x.regs 5) 0 40) n accR then s else
  match s.readSpan (dieOf x.core) (s.follow x.sid x.src) (bits (staged x.regs 5) 0 40) n with
  | .ok (b, s) => s.putCl d { x with begun := true, vec := b }
  | .error (.xlate c va) => s.stallCl d x accR c va
  | .error (.bad _) => s.putCl d { x with fin := true, cause := 6 }
  | .error (.peer _) => s.putCl d { x with fin := true, cause := 5 }

/-- A member's destination is written, if all of it translates and links lead to it (R336); bytes for a sealed core are
discarded, and its word says SEALED (R318, R338); in paired mode the result reaches the partner's copy, too (R323). -/
def State.writeCl (s : State) (x : ClCmd) : State × ClCmd :=
  let d := dieOf x.core
  let r := s.follow x.sid x.dst
  let o := bits (staged x.regs 7) 0 40
  if !s.allUp d r o x.vec.length accW then (s, x) else
  match s.spanXlate d r o accW x.vec.length with
  | some _ => (s, x)
  | none =>
    match s.engWrite d r o x.vec with
    | .error _ => (s, x)
    | .ok (s1, hit) =>
      let cause := if hit.isSome then 5 else 0
      (s1.pairDeliver x.sid x.sn d o x.vec, { x with written := true, cause, bytes := if hit.isSome then s.engKept d r o x.vec.length else x.vec.length })

/-- All positions have arrived (R338): the tree is formed, and its result is written to every member's destination. -/
def State.closeColl (s : State) (h : Nat) (c : Coll) : State :=
  let r := c.result
  let s := s.modDie h fun y => { y with colls := y.colls.filter fun (z : Coll) => !(z.asid == c.asid && z.tag == c.tag) }
  c.members.foldl (fun s (m : ClCmd) =>
    let (s, m) := s.writeCl { m with vec := r, fin := true }
    s.modDie h fun y => { y with clq := y.clq ++ [m] }) s

/-- A member arrives at its home die (R338): it opens the collective, or joins it; one that differs or repeats a position
ends alone with CAUSE 7. With 256 open collectives a new one waits. -/
def State.joinColl (s : State) (d h : Nat) (x : ClCmd) : State :=
  let m := bits (staged x.regs 1) 16 16
  let p := bits (staged x.regs 1) 0 16
  let n := bits (staged x.regs 3) 0 13
  let op := bits (staged x.regs 2) 4 4
  let ty := bits (staged x.regs 2) 0 4
  let tag : BitVec 32 := (staged x.regs 0).setWidth 32
  let leave := fun (s : State) => s.modDie d fun y => { y with clq := y.clq.filter fun (z : ClCmd) => !(z.sn == x.sn) }
  match (s.die h).colls.find? fun c => decide (c.asid = x.asid) && decide (c.tag = tag) with
  | none =>
    if (s.die h).colls.length ≥ 256 then s
    else
      let c : Coll := { asid := x.asid, tag, m, n, op, ty, members := [x] }
      let s := (leave s).modDie h fun y => { y with colls := y.colls ++ [c] }
      if m = 1 then s.closeColl h c else s
  | some c =>
    if m ≠ c.m ∨ n ≠ c.n ∨ op ≠ c.op ∨ ty ≠ c.ty ∨ (c.members.any fun (z : ClCmd) => bits (staged z.regs 1) 0 16 == p) then
      s.putCl d { x with fin := true, cause := 7 }
    else
      let c := { c with members := c.members ++ [x] }
      let s := (leave s).modDie h fun y => { y with colls := y.colls.map fun (z : Coll) =>
        if z.asid = c.asid ∧ z.tag = c.tag then c else z }
      if c.members.length = m then s.closeColl h c else s

/-- Command `ub` of die `ua` takes its next step (R131, R132, R338): it begins, after the strand's earlier ones, and reads its
source, and then arrives at its home die; for another package, over a link (R336). -/
def execClredArrive (s : State) : Host.Outcome State Fault Refusal :=
  let d := s.ua
  match (s.die d).clq[s.ub]? with
  | none => .next s
  | some x =>
    if x.fin || x.tok ≠ 0 then .next s
    else if !x.begun then
      let earlier := ((s.die d).clq.take s.ub).any fun (y : ClCmd) => decide (y.sid = x.sid) && !y.begun && !y.fin
      (if !earlier && s.mayBegin x.sid x.after && s.pairReady x.sid x.sn then .next (s.beginCl d x) else .next s)
    else
      let h := s.clHome (bits (staged x.regs 0) 0 32)
      if s.pkgUp (h / 8) then .next (s.joinColl d h x) else .next s

/-- The completion word of a member (R338). -/
def ClCmd.word (x : ClCmd) : Word :=
  BitVec.ofNat 64 ((if x.cause = 0 then 0 else 2 ^ 63 + x.cause * 2 ^ 56) + x.bytes)

/-- Member `ub` of die `ua` completes (R338): its destination, if a page fault held it, then its completion word; it stops
counting. -/
def execClredCompletion (s : State) : Host.Outcome State Fault Refusal :=
  let d := s.ua
  match (s.die d).clq[s.ub]? with
  | none => .next s
  | some x =>
    if !x.fin || x.tok ≠ 0 then .next s
    else if x.cause = 0 && !x.written then
      let (s1, y) := s.writeCl x
      if y.written then .next (s1.putCl d y)
      else
        match s.spanXlate (dieOf x.core) (s.follow x.sid x.dst) (bits (staged x.regs 7) 0 40) accW x.vec.length with
        | some (c, va) => .next (s.stallCl d x accW c va)
        | none => .next s
    else if !s.wordUp (dieOf x.core) x.sid x.cw (staged x.regs 9) then .next s
    else
      let s1 := s.modDie d fun y => { y with clq := y.clq.eraseIdx s.ub }
      .next (s1.engEnd x.sid x.sn x.cw (staged x.regs 9) x.word)

/-- Bit 0 of the operand of `clstat` ends every open collective that the strand has joined, with CAUSE 4 (R339). -/
def State.leaveColls (s : State) (sid : Nat) (arg : Word) : State :=
  if arg.getLsbD 0 then
    let owner := s.engSid sid
    { s with dies := s.dies.map fun (x : Nat × Die) =>
        (x.1, x.2.endColls (fun c => c.members.any fun (m : ClCmd) => m.sid == owner) 4) }
  else s

/-- The word of `clstat` for a strand (R339): its outstanding commands and the collectives open at its die. -/
def State.clStatus (s : State) (t : Strand) : Word :=
  BitVec.ofNat 64 ((s.die (dieOf t.core)).colls.length * 2 ^ 16 + t.count .cl % 2 ^ 16)

/-- `clstat` (R339): at once; with an earlier operation in its way, when that has been performed (R131, R140). -/
def execClstat (a d : GReg) (w : BitVec 1) (s : State) : Host.Outcome State Fault Refusal :=
  issue (.clstat a d w) s fun s1 t rd =>
    if t.mustDefer (.clstat a d w) (w = 1) then s1.defer s.cur t (.clstat a d w) d (rd a) (t.gate (w = 1))
    else
      let s2 := s1.leaveColls s.cur (rd a)
      s2.finish s.cur t d (s2.clStatus t)

/-! ### Commands that have waited (R131, R132, R140) -/

/-- The oldest of a strand's waiting commands that may begin. -/
def State.lateReady (s : State) (sid : Nat) (t : Strand) : Option LateCmd :=
  t.late.find? fun x => s.mayBegin sid x.after && (countsOf x.instr).all fun c => !t.lateBefore c x.sn &&
    (decide (c ≠ .dx) || s.dxTurn sid x.sn)

/-- A waiting command of strand `sid` begins: it answers at once, or goes on as its engine's chapter says. -/
def State.beginLate (s : State) (sid : Nat) : State :=
  match s.strand? sid with
  | none => s
  | some t =>
    match s.lateReady sid t with
    | none => s
    | some x =>
      let s := s.setStrand sid { t with late := t.late.filter fun y => !(y.sn == x.sn) }
      match x.instr with
      | .cpcancel .. =>
        if ((s.core t.core).cancellable sid (some x.sn)).isEmpty then (s.deliver sid x.dest 0).uncount sid x.sn
        else s.beginCancel sid t.core x.sn x.dest
      | .dflush .. => s.beginFlush sid x.sn x.dest
      | .wstat .. =>
        let s := s.walkDiscard sid t.core x.arg
        s.deliver sid x.dest (s.walkStatus sid t.core)
      | .dstat .. => s.deliver sid x.dest (s.dxStatus sid t)
      | .clstat .. =>
        let s := s.leaveColls sid x.arg
        s.deliver sid x.dest (s.clStatus t)
      | _ => s.deliver sid x.dest (s.cpStatus sid t.core)

end Sys2Proof.Machine
end

