-- ==== Sys2Proof/Machine/Errors.lean ====
section
/-! DEFINITION. The scrubbers (R137, R313, R316), and paired mode (R323). -/

namespace Sys2Proof.Machine

/-! ### Scrubbers -/

/-- Poisons the word of a key (R314), counted in a counter of a die; an error in a word that is poisoned is not counted again
(R326). -/
def State.poisonWord (s : State) (d ctr key : Nat) : State :=
  if s.poison.contains (key / 8) then s else { s with poison := keyInsert (key / 8) s.poison }.countErr d ctr

/-- One look of a scrubber of die `d` at the word of a key (R137, R316). What it finds: 0 no error; 1 a corrected error, which is
written back as it was; 2 an uncorrectable error, which poisons the word; 3 a corrected error in a line that has changed
since, whose write is dropped. `ce` and `ue` are the counters of R325. -/
def State.scrub (s : State) (d ce ue key found : Nat) : State :=
  match found with
  | 1 => s.countErr d ce
  | 2 => s.poisonWord d ue key
  | 3 => (s.countErr d ce).countErr d 7
  | _ => s

/-- A slice of die `ub` div 4 scrubs the line of key `ua` (R137, R316); `ub` mod 4 tells what it finds. -/
def execL2Scrub (s : State) : Host.Outcome State Fault Refusal := .next (s.scrub (s.ub / 4) 1 2 s.ua (s.ub % 4))

/-- The DRAM scrubber of die `ub` div 4 reads the line of key `ua` (R137, R316); `ub` mod 4 tells what it finds. -/
def execDramScrub (s : State) : Host.Outcome State Fault Refusal := .next (s.scrub (s.ub / 4) 5 6 s.ua (s.ub % 4))

/-! ### Paired mode (R323) -/

/-- Two messages agree (R323). -/
def Msg.same : Msg → Msg → Bool
  | .launch _ _ h t hs b _ _, .launch _ _ h' t' hs' b' _ _ => decide (h = h') && decide (t = t') && decide (hs = hs') && b == b'
  | .chplay _ _ k p _, .chplay _ _ k' p' _ => k == k' && p == p'
  | .plrd _ _ a _, .plrd _ _ b _ => a == b
  | .plswitch _ _ r l b _, .plswitch _ _ r' l' b' _ => r == r' && l == l' && b == b'
  | _, _ => false

/-- The number of a message's operation. -/
def Msg.sn : Msg → Nat
  | .launch sn .. | .chplay sn .. | .plrd sn .. | .plswitch sn .. => sn

/-- Where a message's result goes. -/
def Msg.dest : Msg → Dest
  | .launch _ _ _ _ _ _ _ d | .chplay _ _ _ _ d | .plrd _ _ _ d | .plswitch _ _ _ _ _ d => d

/-- The cycle at which a message was sent. -/
def Msg.since : Msg → Nat
  | .launch _ n .. | .chplay _ n .. | .plrd _ n .. | .plswitch _ n .. => n

/-- A mismatch of a pair (R323): PAIRMIS is counted, and both cores are sealed, which discards what is unmatched. -/
def State.pairMismatch (s : State) (w e : Nat) : State :=
  match s.strand? w, s.strand? e with
  | some t, some u =>
    let x := s.group t.group
    let c := if t.loc ≠ .gone then t.core else if u.loc ≠ .gone then u.core else x.core (t.index / x.s)
    let c := if c % 16 ≥ 8 then c - 8 else c
    (((s.countErr (dieOf c) 9).sealOne c).sealOne (c + 8))
  | _, _ => s

/-- Runs an event for strand `w` as if it were not in paired mode: what the router forwards. -/
def State.forward (s : State) (w b : Nat) (e : State → Host.Outcome State Fault Refusal) : State :=
  match e { s.modStrand w fun t => { t with pair := false } with ua := w, ub := b } with
  | .next s1 => { s1.modStrand w fun t => { t with pair := true } with ua := s.ua, ub := s.ub }
  | _ => s

/-- The event that performs the oldest operation of a strand. -/
def OpKind.event (k : OpKind) : State → Host.Outcome State Fault Refusal :=
  match k with
  | .push r _ => if r.kind = 2 then execWakeRecordDelivery else execTaskRecordInsert
  | .pop .. => execQueueBankRemoval
  | _ => execRemoteAccessArrival

/-- The destinations of an operation. -/
def CoreOp.dests (o : CoreOp) : List Dest :=
  match o.kind with
  | .sver _ d2 => [o.dest, d2]
  | _ => [o.dest]

/-- The record that a merged `tqpop` brought to the west partner's own memory is written to the east partner's, too. -/
def State.copyRecord (s : State) (a b : OpKind) : State :=
  match a, b with
  | .pop _ r o, .pop _ r' o' =>
    match r.addr o, r'.addr o' with
    | .phys k, .phys k' => if k = k' then s else s.writeBytes k' (s.readBytes k 64)
    | _, _ => s
  | _, _ => s

/-- The two copies of an operation agree, and the west one is forwarded (R323): once it is performed, the east one is done, or
waits for the copy of the reply. -/
def State.mergeOps (s : State) (w e : Nat) (a b : CoreOp) : State :=
  let s1 := s.forward w 0 a.kind.event
  match s1.strand? w with
  | none => s1
  | some t =>
    if t.ops.any fun o => o.sn == a.sn then s1
    else
      let s1 := match t.rets.find? fun r => r.sn == a.sn with
        | some r =>
          let s1 := if (r.dests.headD (.drop, 0)).2 = 0 then s1 else s1.copyRecord a.kind b.kind
          { s1 with twins := s1.twins ++ [({ west := w, wsn := a.sn, east := e, esn := b.sn, dests := b.dests } : Twin)] }
        | none => s1.modStrand e fun u => u.uncount b.sn
      s1.modStrand e fun u => { u with
        ops := u.ops.filter fun o => !(o.sn == b.sn)
        trig := u.trig || decide (a.kind = OpKind.trig) }

/-- The two copies of a message agree, and the west one is forwarded (R323). -/
def State.mergeMsgs (s : State) (w e : Nat) (a b : Msg) : State :=
  let s1 := match a with
    | .launch .. => s.forward w 0 fun s => .next (s.enqueueStrand s.ua)
    | .chplay .. => s.forward w 1 execChainReply
    | _ => s.forward w 1 execDistaffReply
  match s1.strand? w with
  | none => s1
  | some t =>
    if t.msgs.any fun m => m.sn == a.sn then s1
    else
      ({ s1 with twins := s1.twins ++ [({ west := w, wsn := a.sn, east := e, esn := b.sn, dests := [b.dest] } : Twin)] } : State).modStrand e
        fun u => { u with msgs := u.msgs.filter fun m => !(m.sn == b.sn) }

/-- A message of an engine that the router compares: the others wait behind one. -/
def PairAct.isMsg : PairAct → Bool
  | .read _ | .bytes _ | .fill .. => true
  | .own .. | .done => false

/-- The first messages of the engines of a strand, one for each of its commands, with the command's place among the
strand's. -/
def State.pairHeads (s : State) (sid : Nat) (t : Strand) : List (Nat × PairWrite) :=
  t.engs.zipIdx.filterMap fun y =>
    (s.pairWrites.find? fun x => x.sid == sid && x.sn == y.1).map fun x => (y.2, x)

/-- The oldest messages of the two partners' engines that stand at the same place of the same command. -/
def State.pairMatch (s : State) (w e : Nat) (t u : Strand) : Option (PairWrite × PairWrite) :=
  (s.pairHeads w t).findSome? fun x => ((s.pairHeads e u).find? fun y => y.1 = x.1).map fun y => (x.2, y.2)

/-- A message of an engine reaches its place: bytes for a sealed core are discarded, and counted once (R318, R326). -/
def State.pairAct (s : State) (x : PairWrite) : State :=
  match x.act with
  | .bytes l =>
    (l.foldl (fun (y : State × Nat × Bool) (c : Host.Cell) =>
      match y.1.sealedAt (.phys c.1) with
      | some k => (if y.2.2 then y.1 else y.1.countErr (dieOf k) 11, y.2.1 + 1, true)
      | none => (y.1.runByte c.1 y.2.1 c.2, y.2.1 + 1, y.2.2)) (s, 0, false)).1
  | .fill k v => s.fillWord k v
  | .own r o v => s.fillAt x.sid r o v
  | .read _ => s
  | .done => s.uncount x.sid x.sn

/-- What waits behind a command's messages with its own partner follows when they are gone. -/
def State.pairFollow (s : State) (sid sn : Nat) : Nat → State
  | 0 => s
  | n + 1 =>
    match s.pairWrites.find? fun x => x.sid == sid && x.sn == sn with
    | some x => if x.act.isMsg then s else State.pairFollow ({ s with pairWrites := s.pairWrites.erase x }.pairAct x) sid sn n
    | none => s

/-- Links lead to the packages that a message of an engine reaches (R336). -/
def State.actUp (s : State) (a : PairAct) : Bool :=
  match a with
  | .bytes l => l.all fun c => s.pkgUp (keyPkg c.1)
  | .fill k _ => s.pkgUp (keyPkg k)
  | .read _ | .own .. | .done => true

/-- Two messages of the engines agree, and the west one is forwarded (R323), once links lead there (R336). -/
def State.mergeWrites (s : State) (a b : PairWrite) : State :=
  if !s.actUp a.act then s else
  let n := s.pairWrites.length
  ((({ s with pairWrites := (s.pairWrites.erase a).erase b } : State).pairAct a).pairFollow a.sid a.sn n).pairFollow b.sid b.sn n

/-- The step of command `sn` of strand `sid` on core `c` that reads stood at the router for, where it is ready: of a copy, of
the walk in the table, or of a walk or drain of the matrix queue. -/
def State.engGo (s : State) (sid sn c : Nat) : Option State :=
  let k := s.core c
  let copy := (List.range 4).findSome? fun h =>
    match (s.chan c h).cmd with
    | some x => if x.sid = sid ∧ x.sn = sn ∧ (s.chan c h).st = .move ∧ x.run < x.total then some (s.copyStep c h x) else none
    | none => none
  let walk := fun (_ : Unit) =>
    match k.table with
    | some t =>
      match t.cmd.walk?, nextNode t.rows with
      | some w, some (d, o) =>
        if t.cmd.sid = sid ∧ t.cmd.sn = sn ∧ s.walkRuns k t ∧ k.arrayFree then some (s.walkGo c t w d o) else none
      | _, _ => none
    | none => none
  let queued := fun (_ : Unit) =>
    (k.mxq.find? fun x => x.sid == sid && x.sn == sn).bind fun x =>
      match x.walk? with
      | some w => if k.table.isSome || !s.mxReady k x then none else some (s.walkTake c x w)
      | none => s.drainGo c x
  (copy.orElse walk).orElse queued

/-- The copies of the reads of two engines' steps agree (R323): both make the step, and read the same bytes, as soon as both are
ready for it. -/
def State.mergeReads (s : State) (a b : PairWrite) : State :=
  let go := fun (s : State) (x : PairWrite) => s.cores.findSome? fun (k : Nat × Core) => s.engGo x.sid x.sn k.1
  ((go { s with pairWrites := (s.pairWrites.erase a).erase b } a).bind fun s => go s b).getD s

/-- The handle of an access that holds issue in cluster or peer space (R319). -/
def heldHandle (i : Instr) : Option HReg :=
  match i with
  | .ldb _ h _ _ _ | .ldbu _ h _ _ _ | .ldh _ h _ _ _ | .ldhu _ h _ _ _ | .ldw _ h _ _ _ | .ldwu _ h _ _ _ | .ldd _ h _ _ _
  | .fetest _ h _ | .amoadd _ h _ _ | .amoand _ h _ _ | .amoor _ h _ _ | .amoxor _ h _ _ | .amomin _ h _ _ | .amomax _ h _ _
  | .amominu _ h _ _ | .amomaxu _ h _ _ | .amoswap _ h _ _ | .amocas _ h _ _ | .amoaddw _ h _ _ | .amofaddF32 _ h _ _ => some h
  | _ => none

/-- The next instruction of a strand sends a merged message while it holds issue (R323). -/
def State.holdsMerged (s : State) (t : Strand) (i : Instr) : Bool :=
  match i, heldHandle i with
  | .ldf _ h _, _ | .ldfe _ h _, _ | .stef _ h _, _ =>
    decide ((t.regionAt h.toNat).space = 3) || s.foreign t (t.regionAt h.toNat)
  | .resume .., _ | .sdrop .., _ | .sclone .., _ => true
  | _, some h => s.foreign t (t.regionAt h.toNat)
  | _, none => false

/-- A held message of a strand that stands at the router: its instruction, and the operands. -/
def State.heldMsg (s : State) (t : Strand) : Option (Instr × List Word) :=
  if t.st ≠ .run || t.place?.isNone || !t.ops.isEmpty then none
  else
    match s.fetchAt t t.pc with
    | .word w _ =>
      match decode w with
      | .ok i => if s.holdsMerged t i && !t.stalls i then some (i, (readsOf i).map t.g) else none
      | .error _ => none
    | _ => none

/-- A strand has a merged message on its way, or stands at one that holds issue. -/
def State.hasMerged (s : State) (sid : Nat) (t : Strand) : Bool :=
  (t.ops.any fun o => s.merges t o.kind) || !t.msgs.isEmpty || (s.pairCmds.any fun x => x.sid == sid) ||
    (s.pairWrites.any fun x => x.sid == sid && x.act.isMsg) || (s.heldMsg t).isSome

/-- The oldest command of the die's engines, of each partner, that the router has not compared. -/
def State.pairDue (s : State) (w e : Nat) : Option (PairCmd × PairCmd) :=
  ((s.pairCmds.filter fun x => x.sid == w).zip (s.pairCmds.filter fun x => x.sid == e)).find? fun x => !x.1.ok

/-- Two commands of the die's engines agree: they may act. -/
def State.pairAgree (s : State) (a b : PairCmd) : State :=
  { s with pairCmds := s.pairCmds.map fun x => if x = a ∨ x = b then { x with ok := true } else x }

/-- One comparison by the router of two partners that go on: of the messages of their engines, of a message that holds issue, or
of commands of the die's engines once they may begin (R131). -/
def State.compareRest (s : State) (w e : Nat) (t u : Strand) : State :=
  match s.pairMatch w e t u with
  | some (a, b) =>
    if a.act ≠ b.act then s.pairMismatch w e else if a.act.isRead then s.mergeReads a b else s.mergeWrites a b
  | none =>
    if (match s.heldMsg t, s.heldMsg u with
        | some a, some b => decide (a ≠ b)
        | _, _ => false) then s.pairMismatch w e
    else
      match s.pairDue w e with
      | some (a, b) =>
        if !s.mayBegin w a.after || !s.mayBegin e b.after then s
        else if s.pairSame a b then s.pairAgree a b
        else s.pairMismatch w e
      | none => s

/-- The router of west strand `ua` compares the oldest copies of the pair's messages (R323): equal ones are forwarded; copies
that differ, and a copy whose partner has ended and sends none, are a mismatch. -/
def execPairMergeCompare (s : State) : Host.Outcome State Fault Refusal :=
  match s.strand? s.ua with
  | none => .next s
  | some t =>
    match t.pair && decide (t.core % 16 < 8), t.partner.bind fun p => (s.strand? p).map fun u => (p, u) with
    | true, some (p, u) =>
      let mine := s.hasMerged s.ua t
      let other := s.hasMerged p u
      if (t.st = .ended ∧ !mine ∧ other) ∨ (u.st = .ended ∧ !other ∧ mine) then .next (s.pairMismatch s.ua p)
      else
        match t.ops, u.ops with
        | a :: _, b :: _ =>
          if !(s.merges t a.kind && s.merges u b.kind) then .next s
          else if a.kind.same b.kind then .next (s.mergeOps s.ua p a b)
          else .next (s.pairMismatch s.ua p)
        | _, _ =>
          match t.msgs, u.msgs with
          | a :: _, b :: _ => if a.same b then .next (s.mergeMsgs s.ua p a b) else .next (s.pairMismatch s.ua p)
          | _, _ => .next (s.compareRest s.ua p t u)
    | _, _ => .next s

/-- A merged message of strand `i` has been held unmatched for 65,536 cycles (R323). -/
def State.pairLate (s : State) (i : Nat) (t u : Strand) : Bool :=
  let late := fun (n : Nat) => decide (n + 65536 ≤ s.cycle)
  (match t.ops with
   | o :: _ => s.merges t o.kind && late o.since && !(u.ops.head?.any fun x => s.merges u x.kind)
   | [] => false) ||
  (u.msgs.isEmpty && t.msgs.head?.any fun m => late m.since) ||
  ((s.pairHeads i t).any fun x => x.2.act.isMsg && late x.2.since &&
    !(match t.partner with
      | some p => (s.pairHeads p u).any fun y => decide (y.1 = x.1)
      | none => false)) ||
  ((s.heldMsg t).isSome && (s.heldMsg u).isNone && (match t.lastIssue with
    | some n => late n
    | none => false)) ||
  (s.pairCmds.any fun x => x.sid == i && late x.since &&
    (match s.pairOf i x.sn with
     | some _ => false
     | none => true))

/-- An unmatched message of the pair of west strand `ua` has been held for 65,536 cycles: a mismatch (R323). -/
def execPairTimeout (s : State) : Host.Outcome State Fault Refusal :=
  match s.strand? s.ua with
  | none => .next s
  | some t =>
    match t.pair && decide (t.core % 16 < 8), t.partner.bind fun p => (s.strand? p).map fun u => (p, u) with
    | true, some (p, u) =>
      if s.pairLate s.ua t u || s.pairLate p u t then .next (s.pairMismatch s.ua p) else .next s
    | _, _ => .next s

end Sys2Proof.Machine
end

