-- ==== Sys2Proof/Machine/Host.lean ====
section
/-! DEFINITION. The host: the control window and memory accesses (R327, R328), doorbells (R330), commands (R332), power, wipe
and life-cycle (R333, R334), temperature (R335), links (R336), measurement and attestation (R340, R341). -/

namespace Sys2Proof.Machine

/-! ### The control window (R328) -/

/-- The window takes writes, and commands are performed: Ready or Run (R328). -/
def State.open_ (s : State) : Bool := decide (s.power = .ready) || decide (s.power = .run)

/-- The number of a power state (R328). -/
def Power.code : Power → Nat
  | .off => 0
  | .wiping => 1
  | .wiped => 2
  | .ready => 3
  | .run => 4

/-- The sum of 2^i over the places of a list that hold. -/
def bitSum (l : List Bool) : Nat := l.foldr (fun b n => (if b then 1 else 0) + 2 * n) 0

/-- STATE (R328). -/
def State.stateWord (s : State) : Word :=
  BitVec.ofNat 64 (s.life.toNat * 2 ^ 16 + bitSum (s.ownDies.map fun d => (s.die d).parked) * 2 ^ 8 + s.step.toNat * 8
    + s.power.code)

/-- SEALMAP of a die, dword `i` (R325). -/
def State.sealMap (s : State) (d i : Nat) : Word :=
  BitVec.ofNat 64 (bitSum ((List.range 64).map fun c => (s.core (256 * d + 64 * i + c)).sealed))

/-- A register of die window `d` (R325, R328): error counters, SEALMAP, fuses, telemetry. -/
def State.dieReg (s : State) (d o : Nat) : Word :=
  let x := s.die d
  if o < 0x60 then vget x.errs (o / 8) 0
  else if 0x80 ≤ o ∧ o < 0xA0 then s.sealMap d ((o - 0x80) / 8)
  else if o = 0x100 then (Config.fuses d).setWidth 64
  else if o = 0x200 then x.power.setWidth 64
  else if o = 0x208 then BitVec.ofNat 64 x.temp
  else if o = 0x210 then x.flits.setWidth 64
  else 0

/-- A register of the control window as a read gives it (R328). -/
def State.winReg (s : State) (off : Nat) : Word :=
  if off = 0 then s.stateWord
  else if off = 8 then s.sysdesc
  else if off = 0x10 then s.tentab
  else if off = 0x18 then s.asidtab
  else if 0x10000 ≤ off ∧ off < 0x18000 then s.dieReg (s.pkg.toNat * 8 + (off - 0x10000) / 0x1000) (off % 0x1000)
  else 0

/-- A doorbell's place in the window (R328): none for the system's, or a tenant. -/
def doorbellOf (off : Nat) : Option (Option Nat) :=
  if off = 0x100 then some none
  else if 0x1000 ≤ off ∧ off < 0x2000 ∧ off % 0x40 = 0 then some (some ((off - 0x1000) / 0x40))
  else none

/-- A doorbell write (R330): whose, which ring, and the index. -/
def HostAcc.bell? : HostAcc → Option (Option Nat × Nat × Nat)
  | .winWrite off v => (doorbellOf off).map fun t => (t, bits v 32 3, bits v 0 32)
  | _ => Option.none

/-- The bytes of package memory that an access of the host names exist and can be reached (R298, R327). -/
def State.hostRange (s : State) (pa n : Nat) : Bool :=
  decide (8 ≤ n) && decide (n ≤ 64) && physOk pa && physOk (pa + n - 1) && s.pkgUp (keyPkg pa)

/-- The event BADRING (R330): to the tenant whose doorbell it was or, without a valid descriptor, to the system. -/
def State.badRing (s : State) (t : Option Nat) (ring : Nat) : State :=
  match s.desc? t with
  | some d => s.sendEvent (if s.descValid d then t else none) .badring 0 0 ring
  | none => s.sendEvent none .badring 0 0 ring

/-- An access of the host (R327, R328): one operation in the single order. Memory answers unless the package is Off or
Wiping; then the window answers STATE alone. A doorbell for no ring is ignored. -/
def execHostAccess (s : State) : Host.Outcome State Fault Refusal :=
  let up := decide (s.power ≠ .off) && decide (s.power ≠ .wiping)
  match s.acc with
  | .none => .next s
  | .read pa n =>
    if up && s.hostRange pa n then .next { s with toHost := s.toHost ++ [.data (s.readBytes pa n)] } else .next s
  | .write pa b => if up && s.hostRange pa b.length then .next (s.writeBytes pa b) else .next s
  | .winRead off =>
    if up || off = 0 then .next { s with toHost := s.toHost ++ [.data (wordBytes (s.winReg off))] } else .next s
  | .winWrite off v =>
    if !s.open_ then .next s
    else if off = 8 then .next { s with sysdesc := v }
    else if off = 0x10 then .next { s with tentab := v }
    else if off = 0x18 then .next { s with asidtab := v }
    else
      match s.acc.bell? with
      | some (t, ring, _) => if ring = 7 then .next (s.badRing t ring) else .next s
      | none => .next s

/-! ### Doorbells (R330) -/

/-- The offset of a ring's descriptor (R329). -/
def ringOffset (ring : Nat) : Nat :=
  if ring < 4 then 0x20 + 16 * ring else if ring = 4 then 0x60 else if ring = 5 then 0x70 else 0x90

/-- A ring that the host produces (R330). -/
def hostProduced (ring : Nat) : Bool := decide (ring < 4) || decide (ring = 6)

/-- A doorbell (R330): TAIL of a ring that the host produces, HEAD of one that the device produces, takes the index, unless it
moves backward, overfills the ring, or the descriptor is not valid. -/
def State.ringBell (s : State) (t : Option Nat) (ring idx : Nat) : State :=
  match s.desc? t with
  | none => s.badRing t ring
  | some d =>
    if !s.descValid d || (ring = 6 && t.isSome) then s.badRing t ring
    else
      let r := s.ringAt (d + ringOffset ring)
      let dist := fun (a b : Nat) => (b + 2 ^ 32 - a) % 2 ^ 32
      if hostProduced ring then
        if dist r.tail idx ≥ 2 ^ 31 ∨ dist r.head idx > 2 ^ r.logn then s.badRing t ring
        else s.putTail (d + ringOffset ring) idx
      else if dist r.head idx ≥ 2 ^ 31 ∨ dist idx r.tail > 2 ^ r.logn then s.badRing t ring
      else s.putHead (d + ringOffset ring) idx

/-- The write of a doorbell for the rings that `p` takes (R328, R330). -/
def doorbell (p : Nat → Bool) (s : State) : Host.Outcome State Fault Refusal :=
  match s.acc.bell? with
  | some (t, ring, idx) => if s.open_ && p ring then .next (s.ringBell t ring idx) else .next s
  | none => .next s

/-- A doorbell of a launch ring (R330, R331). -/
def execLaunchRingDoorbell (s : State) : Host.Outcome State Fault Refusal := doorbell (fun r => decide (r < 4)) s

/-- A doorbell of an event ring (R330). -/
def execEventRingDoorbell (s : State) : Host.Outcome State Fault Refusal := doorbell (fun r => r == 4) s

/-- A doorbell of a fault ring (R309, R330). -/
def execFaultRingDoorbell (s : State) : Host.Outcome State Fault Refusal := doorbell (fun r => r == 5) s

/-- A doorbell of the command ring (R330). -/
def execCommandRingDoorbell (s : State) : Host.Outcome State Fault Refusal := doorbell (fun r => r == 6) s

/-! ### Commands (R332) -/

/-- How a command ends. -/
inductive CmdStatus where
  | ok | busy | badArg
  deriving DecidableEq, Repr

/-- The status of CMDDONE (R332). -/
def CmdStatus.code : CmdStatus → Nat
  | .ok => 0
  | .busy => 1
  | .badArg => 2

/-- The next command of the command ring and the state after reading it, in Ready or Run (R328, R332). -/
def State.command? (s : State) : Option (List Byte × State) :=
  if !s.open_ then none
  else
    match s.desc? none with
    | none => none
    | some d =>
      let r := s.ringAt (d + 0x90)
      if !s.descValid d || decide (r.count = 0) then none
      else
        match s.readVirt s.ioDie 0 (r.entry r.head 64) 64 with
        | .ok x => some x
        | .error _ => none

/-- OPC of a command (R332). -/
def cmdOpc (b : List Byte) : Nat := bits (dwordAt b 0) 0 8

/-- A command ends: HEAD moves past it, and CMDDONE carries its TAG and status (R332). -/
def State.endCommand (s : State) (b : List Byte) (st : CmdStatus) : State :=
  match s.desc? none with
  | none => s
  | some d =>
    let r := s.ringAt (d + 0x90)
    (s.putHead (d + 0x90) ((r.head + 1) % 2 ^ 32)).sendEvent none .cmddone (bits (dwordAt b 0) 32 32) st.code 0

/-- Performs the next command of the ring if `p` takes it (R332). -/
def command (p : List Byte → Bool) (f : State → List Byte → CmdStatus × State) (s : State) :
    Host.Outcome State Fault Refusal :=
  match s.command? with
  | none => .next s
  | some (b, s1) =>
    if p b then
      let (st, s2) := f s1 b
      .next (s2.endCommand b st)
    else .next s

/-- A command of code `n`. -/
def isCmd (n : Nat) (b : List Byte) : Bool := cmdOpc b == n

/-- A group of the package is placed. -/
def State.anyPlaced (s : State) : Bool := s.groups.any fun x => !x.2.ended

/-- `TENANT` (R332): binds or unbinds a tenant; BUSY while it has a placed group. A command whose code the table does not
list ends here, with BADARG. -/
def execTenant (s : State) : Host.Outcome State Fault Refusal :=
  command (fun b => isCmd 1 b || decide (cmdOpc b = 0) || decide (cmdOpc b > 12)) (fun s b =>
    let t := (dwordAt b 1).toNat
    if !isCmd 1 b || t ≥ 64 then (.badArg, s)
    else if s.groups.any fun x => !x.2.ended && x.2.tenant.toNat == t then (.busy, s)
    else (.ok, { s with tenants := Tab.set s.tenants t (dwordAt b 2) })) s

/-- `ASIDSET` (R296, R332): GEN advances, ROOT and TENANT are rewritten; when GEN passes from 255 to 0, every cached entry of
the ASID is removed from every slice. -/
def execAsidset (s : State) : Host.Outcome State Fault Refusal :=
  command (isCmd 2) (fun s b =>
    let a := (dwordAt b 1).toNat
    let root := dwordAt b 2
    let ten := (dwordAt b 3).toNat
    if a ≥ 4096 ∨ ten ≥ 64 ∨ root.toNat ≥ 2 ^ 52 ∨ root.toNat % 1024 ≠ 0 then (.badArg, s)
    else
      let at_ := s.asidtab.toNat + 16 * a
      let gen := s.asidGen (BitVec.ofNat 12 a)
      let ent : Word := bit63 ||| root ||| (gen + 1).setWidth 64
      let s1 := s.writeBytes at_ (wordBytes ent ++ wordBytes (BitVec.ofNat 64 ten))
      let s1 : State := if gen = 0xFF then
          { s1 with dies := s1.dies.map fun (d : Nat × Die) => (d.1, { d.2 with
            tlb := d.2.tlb.filter fun (e : TlbEntry) => !(e.asid.toNat == a)
            wcache := d.2.wcache.filter fun (e : WalkHit) => !(e.asid.toNat == a) }) }
        else s1
      (.ok, s1)) s

/-- Writes that the engines of an address space's strands have translated stand at a router of paired mode (R305, R323). -/
def State.heldWrites (s : State) (a : Nat) : Bool :=
  s.pairWrites.any fun x => ((s.strand? x.sid).any fun t => t.asid.toNat == a) &&
    match x.act with
    | .bytes l => l.any fun c => decide (c.1 < scratchBase)
    | .fill k _ => decide (k < scratchBase)
    | _ => false

/-- `INVAL` (R305, R332): the cached translations and walk cache entries of the address space that overlap the range are
removed. An access is translated in the step that performs it, but for the engines' writes in paired mode: while one of the address
space stands at a router, the command is not done. -/
def execInval (s : State) : Host.Outcome State Fault Refusal :=
  if s.command?.any fun x => isCmd 3 x.1 && s.heldWrites (dwordAt x.1 1).toNat then .next s else
  command (isCmd 3) (fun s b =>
    let a := (dwordAt b 1).toNat
    let va := (dwordAt b 2).toNat
    let n := (dwordAt b 3).toNat
    if a ≥ 4096 then (.badArg, s)
    else
      (.ok, { s with dies := s.dies.map fun (d : Nat × Die) => (d.1, { d.2 with
        tlb := d.2.tlb.filter fun (e : TlbEntry) =>
          !(e.asid.toNat == a && decide (e.va < va + n) && decide (va < e.va + e.size))
        wcache := d.2.wcache.filter fun (e : WalkHit) =>
          !(e.asid.toNat == a && decide (e.va < va + n) && decide (va < e.va + levelSpan e.lvl)) }) })) s

/-! ### Wakes (R308) -/

/-- The wake of a strand stalled under a token (R306): its held operations are sent again, the instruction it parked at is
executed again, and a swap-out of its core that waited for the wake begins. -/
def State.wakeStrand (s : State) (sid tok : Nat) : State :=
  let s := s.modStrand sid fun t => { t with
    opFault := t.opFault.filter fun f => !(f.tok == tok)
    seqFault := t.seqFault.filter fun f => !(f.tok == tok) }
  let s := match s.strand? sid with
    | some t => if t.st = StrandSt.parked (.fault tok) then s.wake sid else s
    | none => s
  match (s.strand? sid).bind Strand.place? with
  | some (c, _) => s.nextSwap c
  | none => s

/-- The unit stalled under a token resumes at its faulting step (R308). -/
def State.resumeStalled (s : State) (tok : Nat) (x : Stalled) : State :=
  match x with
  | .core sid | .fetch sid | .seq sid =>
    let s := match (s.strand? sid).bind fun t => t.partner with
      | some p => s.wakeStrand p tok
      | none => s
    s.wakeStrand sid tok
  | .copy c h =>
    let k := s.chan c h
    if k.tok = tok then s.putChan c h { k with tok := 0, st := if k.st = .stall then .move else k.st } else s
  | .drain c sn => s.modMx c sn fun y => { y with tok := 0 }
  | .dispatch d sn => s.modDx d sn fun y => { y with tok := 0 }
  | .walk sid => s.wakeMessage sid
  | .merge d sn => s.modDie d fun y => { y with
      merges := y.merges.map fun (m : MergeCmd) => if m.sn = sn then { m with tok := 0 } else m }
  | .coll d sn => s.modDie d fun y => { y with clq := y.clq.map fun (m : ClCmd) => if m.sn = sn then { m with tok := 0 } else m }
  | .skein =>
    let free := fun (x : CopyCmd) => if x.tok = tok then { x with tok := 0 } else x
    let s : State := { s with
      groups := s.groups.map fun (g : Nat × Group) => (g.1, if g.2.tok = tok then { g.2 with tok := 0 } else g.2)
      cores := s.cores.map fun (k : Nat × Core) => (k.1, { k.2 with
        copyq := k.2.copyq.map free
        chans := k.2.chans.map fun (h : Chan) => { h with cmd := h.cmd.map free } }) }
    { s with queues := s.queues.map fun (q : LaunchQ) => { q with entries := q.entries.map fun (e : QEntry) => match e with
        | .resume va asid place die sup cmp t => .resume va asid place die sup cmp (if t = tok then 0 else t)
        | e => e } }

/-- `WAKE` (R308, R332): the unit stalled under WTOK; a token that is not outstanding is ignored. -/
def execWake (s : State) : Host.Outcome State Fault Refusal :=
  command (isCmd 4) (fun s b =>
    let tok := (dwordAt b 1).toNat
    match Tab.get? s.stalls tok with
    | some x => (.ok, { s with stalls := Tab.erase s.stalls tok }.resumeStalled tok x)
    | none => (.ok, s)) s

/-! ### The package's number (R336) -/

/-- A key with the bytes of two packages exchanged. -/
def swapPkg (a b key : Nat) : Nat :=
  let p := keyPkg key
  let w := pkgSpan (key / 2 ^ 52)
  if p = a then key - a * w + b * w else if p = b then key - b * w + a * w else key

/-- A unit's number with two packages exchanged, `n` units to a package. -/
def swapUnit (a b n u : Nat) : Nat :=
  if u / n = a then b * n + u % n else if u / n = b then a * n + u % n else u

/-- The package takes another number: what it holds keeps its place in it. -/
def State.renumber (s : State) (b : BitVec 5) : State :=
  let x := s.pkg.toNat
  let y := b.toNat
  let re := fun {α : Type} (n : Nat) (t : Tab α) => t.foldl (fun (m : Tab α) e => Tab.set m (swapUnit x y n e.1) e.2) []
  if x = y then s
  else
    { s with
      pkg := b
      mem := s.mem.foldl (fun m c => Memory.write m (swapPkg x y c.1) c.2) []
      full := s.full.foldl (fun l k => keyInsert (swapPkg x y (8 * k) / 8) l) []
      poison := s.poison.foldl (fun l k => keyInsert (swapPkg x y (8 * k) / 8) l) []
      cores := re 2048 s.cores, clusters := re 128 s.clusters, dies := re 8 s.dies }

/-! ### Power, wipe and life-cycle (R333, R334) -/

/-- The strand runs, or is kept, in another package than this one, and in one that keeps its number when this one's is 0 again. -/
def State.elsewhere (s : State) (t : Strand) : Bool :=
  decide (t.loc ≠ .gone) && decide (t.core / 2048 ≠ s.pkg.toNat) && decide (t.core / 2048 ≠ 0)

/-- A core of another package after the wipe of this one (R334): one whose package's number changes has its slots FREE (log
entry 44). -/
def Core.outlives (k : Core) (moves : Bool) : Core :=
  if moves then { k with slots := Vector.replicate 8 .free, cache := [], ctxUsed := [], swapReq := [] } else k

/-- What a wipe leaves (R334): everything of this package at its reset value but the fuses, the firmware store with its
verification, the identity key pair, the measurement registers MR0, MR1 and MR3, the life-cycle state, its dies' power and
temperature, and what is the model's own. What lies in other packages stays (log entry 44). The package's number is 0 again. -/
def State.wiped (s : State) (p : Power) : State :=
  let x := s.pkg.toNat
  let strands := s.strands.filter fun y => s.elsewhere y.2
  ({ agenda := s.agenda, cur := s.cur, ua := s.ua, ub := s.ub, acc := s.acc, serial := s.serial
     toHost := s.toHost, power := p, life := s.life, fwOk := s.fwOk, mr := vset s.mr 2 0, identity := s.identity, pkg := s.pkg
     mem := s.mem.filter fun c => decide (keyPkg c.1 ≠ x)
     full := s.full.filter fun k => decide (keyPkg (8 * k) ≠ x)
     poison := s.poison.filter fun k => decide (keyPkg (8 * k) ≠ x)
     cores := (s.cores.filter fun (c : Nat × Core) => decide (c.1 / 2048 ≠ x)).map fun (c : Nat × Core) =>
       (c.1, c.2.outlives (decide (c.1 / 2048 = 0)))
     clusters := s.clusters.filter fun (c : Nat × Cluster) => decide (c.1 / 128 ≠ x)
     dies := s.dies.map fun (d : Nat × Die) =>
       (d.1, if d.1 / 8 = x then { power := d.2.power, temp := d.2.temp, throttled := d.2.throttled } else d.2)
     strands
     groups := s.groups.filter fun (g : Nat × Group) => strands.any fun (y : Nat × Strand) => y.2.group == g.1 } : State).renumber 0

/-- Power-on, or a reset (R333, R340): the measurement registers are cleared, the firmware is verified and measured, and a wipe
begins. -/
def execPowerOnReset (s : State) : Host.Outcome State Fault Refusal :=
  .next { s.wiped .wiping with fwOk := firmwareHolds, mr := bootMr }

/-- A wipe ends (R333, R334): the package is Wiped. -/
def execWipeComplete (s : State) : Host.Outcome State Fault Refusal :=
  if s.power = .wiping then .next (s.wiped .wiped) else .next s

/-- The state that a POWER command asks for (R332, R333), by the numbers of STATE. -/
def powerArg (b : List Byte) : Nat := (dwordAt b 1).toNat
/-- The step of a POWER command. -/
def stepArg (b : List Byte) : Nat := (dwordAt b 2).toNat
/-- The die mask of a POWER command. -/
def maskArg (b : List Byte) : Word := dwordAt b 3

/-- A POWER command for a state that STATE numbers. -/
def isPower (n : Nat) (b : List Byte) : Bool := isCmd 5 b && powerArg b == n

/-- A POWER command for a state that STATE does not number: Park or Unpark (log entry 11). -/
def isPark (b : List Byte) : Bool := isCmd 5 b && !(powerArg b == 0 || powerArg b == 3 || powerArg b == 4)

/-- The package enters Ready: the tick count is 0, the round-robin of every level stands before tenant 0 (R86, R225), the
windows of the distaff are counted from here (R264), and so are the dispatch engines' commands (R247). -/
def State.enterReady (s : State) : State :=
  { s with
    power := .ready, ticks := 0, tickTime := 0, rr := Vector.replicate 4 0, winTicks := 0
    dies := s.dies.map fun (d : Nat × Die) => (d.1, { d.2 with dxSerial := 0 }) }

/-- `POWER Ready` (R333): from Wiped, where the command comes outside the ring, if the firmware was verified; from Run, BUSY
while any group is placed. -/
def execPowerReady (s : State) : Host.Outcome State Fault Refusal :=
  if s.power = .wiped then .next (if s.fwOk then s.enterReady else s)
  else
    command (isPower 3) (fun s _ =>
      if s.power = .run then if s.anyPlaced then (.busy, s) else (.ok, s.enterReady)
      else (.badArg, s)) s

/-- The slices of the package take the mode of a clock step (R315). -/
def State.setStep (s : State) (k : BitVec 2) : State :=
  s.ownDies.foldl (fun s d =>
    let m := (Config.fuses d).getLsbD k.toNat
    if (s.die d).dected = m then s else s.modDie d fun x => { x with dected := m }) { s with step := k }

/-- `POWER Run` (R333): from Ready the tick count starts; from Run the step changes. -/
def execPowerRun (s : State) : Host.Outcome State Fault Refusal :=
  command (isPower 4) (fun s b =>
    if stepArg b > 3 then (.badArg, s)
    else
      let k := BitVec.ofNat 2 (stepArg b)
      if s.power = .ready then (.ok, { s with power := .run, tickTime := 0 }.setStep k)
      else (.ok, s.setStep k)) s

/-- The dies of this package that a mask names. -/
def State.maskDies (s : State) (m : Word) : List Nat :=
  s.ownDies.filter fun d => m.getLsbD (d % 8)

/-- `POWER Park` (R333): in Run; BUSY if any slot of the named dies is not FREE. -/
def execPowerPark (s : State) : Host.Outcome State Fault Refusal :=
  command isPark (fun s b =>
    if s.power ≠ .run then (.badArg, s)
    else
      let ds := s.maskDies (maskArg b)
      if s.cores.any fun x => ds.contains (dieOf x.1) && x.2.slots.toList.any fun y => decide (y ≠ .free) then (.busy, s)
      else (.ok, ds.foldl (fun s d => s.modDie d fun x => { x with parked := true }) s)) s

/-- `POWER Unpark` (R333): the named dies run again. -/
def execPowerUnpark (s : State) : Host.Outcome State Fault Refusal :=
  command isPark (fun s b =>
    if s.power ≠ .run then (.badArg, s)
    else (.ok, (s.maskDies (maskArg b)).foldl (fun s d =>
      if (s.die d).parked then s.modDie d fun x => { x with parked := false } else s) s)) s

/-- `POWER Off` (R333), after its CMDDONE: nothing of the package's memory is left. From Wiping and Wiped the command comes
outside the ring. -/
def execPowerOff (s : State) : Host.Outcome State Fault Refusal :=
  if s.power = .wiped ∨ s.power = .wiping then .next (s.wiped .off)
  else match s.command? with
  | none => .next s
  | some (b, s1) => if isPower 0 b then .next ((s1.endCommand b .ok).wiped .off) else .next s

/-- `TICK` (R332): TICKP from the next tick start. -/
def execHostTick (s : State) : Host.Outcome State Fault Refusal :=
  command (isCmd 6) (fun s b =>
    let p := (dwordAt b 1).toNat
    if p < 1000000 ∨ p > 1000000000 then (.badArg, s) else (.ok, { s with tickpNext := BitVec.ofNat 32 p })) s

/-- `VICTIM` (R311, R332): the victim tier of the dies that the mask names is enabled, that of the others is drained and
disabled. The tier changes timing only. -/
def execVictim (s : State) : Host.Outcome State Fault Refusal :=
  command (isCmd 7) (fun s b =>
    (.ok, s.ownDies.foldl (fun s d =>
      let v := (dwordAt b 1).getLsbD (d % 8)
      if (s.die d).victim = v then s else s.modDie d fun x => { x with victim := v }) s)) s

/-! ### Links between packages (R336) -/

/-- `ROUTE` (R332, R336): the package's own number and the link of each destination package. While a group is placed or a
launch waits, a new number is BUSY. -/
def execRoute (s : State) : Host.Outcome State Fault Refusal :=
  command (isCmd 8) (fun s b =>
    let n := (dwordAt b 1).toNat
    let r : Vector Byte 32 := Vector.ofFn fun i => (b.drop 16).getD i.val 0xFF
    if n ≥ 32 then (.badArg, s)
    else if n ≠ s.pkg.toNat && (s.anyPlaced || !s.waitHdrs.isEmpty || s.queues.any fun q => !q.entries.isEmpty) then (.busy, s)
    else (.ok, { s with route := r }.renumber (BitVec.ofNat 5 n))) s

/-! ### Identity and measurement (R340, R341) -/

/-- The 256 bytes of a report that are signed (R341), with the public key of the identity key pair. -/
def State.reportBody (s : State) (k : Slh.Seeds) (nonce : List Byte) : List Byte :=
  wordBytes (BitVec.ofNat 64 (1 + s.life.toNat * 2 ^ 16 + s.step.toNat * 2 ^ 18)) ++ wordBytes Config.packageSerial ++ nonce
    ++ (s.mr.toList.map digestBytes).flatten ++ Slh.publicKey k ++ List.replicate 16 0

/-- A report and its signature by the identity key (R341). -/
def State.report (s : State) (k : Slh.Seeds) (nonce : List Byte) : List Byte :=
  let body := s.reportBody k nonce
  body ++ Slh.sign k (padTo 32 (Config.signNonce body)) body

/-- `ATTEST` (R341): BADARG in OPEN, where there is no identity key; otherwise the signed report of a nonce. An address that does
not translate is BADARG. -/
def execAttest (s : State) : Host.Outcome State Fault Refusal :=
  command (isCmd 9) (fun s b =>
    match (if s.life = 0 then none else s.identity) with
    | none => (.badArg, s)
    | some k =>
      match s.readVirt s.ioDie 0 (dwordAt b 1).toNat 32 with
      | .error _ => (.badArg, s)
      | .ok (nonce, s1) =>
        match s1.writeVirt s.ioDie 0 (dwordAt b 2).toNat (s1.report k nonce) with
        | .error _ => (.badArg, s)
        | .ok s2 => (.ok, s2)) s

/-- `LIFECYCLE` (R334, R340, R341): only forward; the identity key pair is derived as the package leaves OPEN, MR3 is extended,
and a wipe runs. -/
def execLifecycle (s : State) : Host.Outcome State Fault Refusal :=
  match s.command? with
  | none => .next s
  | some (b, s1) =>
    let n := (dwordAt b 1).toNat
    if !isCmd 10 b then .next s
    else if n ≤ s.life.toNat ∨ n > 2 then .next (s1.endCommand b .badArg)
    else
      let s2 := s1.endCommand b .ok
      .next ({ s2 with
        life := BitVec.ofNat 2 n, identity := some (s2.identity.getD identitySeeds), mr := vset s2.mr 3 (extendMr (vget s2.mr 3 0) (Config.lifeMeasure s.life.toNat n)) }.wiped
        .wiping)

/-- Ends every group of a tenant (R159, R332): its launches retire with ERR (R229). -/
def State.killTenant (s : State) (t : Nat) : State :=
  let gs := (s.groups.filter fun x => !x.2.ended && x.2.tenant.toNat == t).map fun x => x.1
  gs.foldl (fun s g =>
    let s := s.modGroup g fun x => { x with err := true }
    let s := (s.strandsWhere fun _ u => decide (u.group = g) && decide (u.st ≠ .ended)).foldl (fun s i => s.endStrand i) s
    s.reapGroup g) s

/-- `KILL` (R332). -/
def execKill (s : State) : Host.Outcome State Fault Refusal :=
  command (isCmd 11) (fun s b =>
    let t := (dwordAt b 1).toNat
    if t ≥ 64 then (.badArg, s) else (.ok, s.killTenant t)) s

/-- `EXTEND` (R340): MR2 is extended with the host's data. An address that does not translate is BADARG. -/
def execExtend (s : State) : Host.Outcome State Fault Refusal :=
  command (isCmd 12) (fun s b =>
    match s.readVirt s.ioDie 0 (dwordAt b 1).toNat (dwordAt b 2).toNat with
    | .error _ => (.badArg, s)
    | .ok (data, s1) => (.ok, { s1 with mr := vset s1.mr 2 (extendMr (vget s1.mr 2 0) data) })) s

/-! ### Temperature (R335) -/

/-- The junction of die `ua` reaches `ub` tenths of a degree, at or above 95 °C: THERMAL is sent (R335). -/
def execThermal (s : State) : Host.Outcome State Fault Refusal :=
  if s.ub ≥ 950 ∧ (s.die s.ua).temp < 950 then
    .next ((s.modDie s.ua fun x => { x with temp := s.ub }).sendEvent none .thermal 0 0 s.ua)
  else .next s

/-- A junction at or above 105 °C: every core skips issue in alternate cycles (R335). -/
def execThermalThrottle (s : State) : Host.Outcome State Fault Refusal :=
  if s.ub ≥ 1050 ∧ (s.die s.ua).temp ≥ 950 then
    let s1 := s.modDie s.ua fun x => { x with temp := s.ub }
    .next (s1.ownDies.foldl (fun s d => s.modDie d fun x => { x with throttled := true }) s1)
  else .next s

/-- The junction of die `ua` falls to `ub` tenths of a degree; below 100 °C on every die the cores issue in every cycle again
(R335). -/
def execTemperatureFall (s : State) : Host.Outcome State Fault Refusal :=
  if s.ub < 1000 ∧ s.ub < (s.die s.ua).temp then
    let s1 := s.modDie s.ua fun x => { x with temp := s.ub }
    if s1.ownDies.any fun d => decide ((s1.die d).temp ≥ 1000) then .next s1
    else .next (s1.ownDies.foldl (fun s d => if (s.die d).throttled then s.modDie d fun x => { x with throttled := false } else s) s1)
  else .next s

/-! ### Links (R336) -/

/-- A flit comes over package link `ua` (R336): with `ub` = 0 its CRC holds; otherwise it is replayed and counted. After 16
failures in a row no further flit comes: the link goes down. -/
def execLinkFlit (s : State) : Host.Outcome State Fault Refusal :=
  if s.ua ≥ 16 || s.linksDown.contains s.ua || decide (Tab.getD s.linkFails s.ua 0 ≥ 16) then .next s
  else if s.ub = 0 then .next { s with linkFails := Tab.erase s.linkFails s.ua }
  else
    let s1 := s.modDie (s.pkg.toNat * 8 + s.ua / 2) fun x => { x with flits := x.flits + 1 }
    .next { s1 with linkFails := Tab.set s1.linkFails s.ua (Tab.getD s1.linkFails s.ua 0 + 1) }

/-- A link whose replay has failed 16 times in a row goes down, and LINKDOWN is sent (R336). -/
def execLinkdown (s : State) : Host.Outcome State Fault Refusal :=
  if Tab.getD s.linkFails s.ua 0 ≥ 16 && !s.linksDown.contains s.ua then
    .next ({ s with linksDown := keyInsert s.ua s.linksDown, linkFails := Tab.erase s.linkFails s.ua }.sendEvent none .linkdown 0 0 s.ua)
  else .next s

end Sys2Proof.Machine
end

