-- ==== Sys2Proof/Machine/Dispatch.lean ====
section
/-! DEFINITION. One arm for each constructor of the syntax: the meaning that each step has. -/

namespace Sys2Proof.Machine

/-- The meaning of a step in a state. -/
def exec (i : Instr) (s : State) : Host.Outcome State Fault Refusal :=
  match i with
  | .add d a b => Sys2Proof.Machine.execAdd d a b s
  | .sub d a b => Sys2Proof.Machine.execSub d a b s
  | .and d a b => Sys2Proof.Machine.execAnd d a b s
  | .or d a b => Sys2Proof.Machine.execOr d a b s
  | .xor d a b => Sys2Proof.Machine.execXor d a b s
  | .andn d a b => Sys2Proof.Machine.execAndn d a b s
  | .shl d a b => Sys2Proof.Machine.execShl d a b s
  | .shr d a b => Sys2Proof.Machine.execShr d a b s
  | .sra d a b => Sys2Proof.Machine.execSra d a b s
  | .slt d a b => Sys2Proof.Machine.execSlt d a b s
  | .sltu d a b => Sys2Proof.Machine.execSltu d a b s
  | .min d a b => Sys2Proof.Machine.execMin d a b s
  | .max d a b => Sys2Proof.Machine.execMax d a b s
  | .minu d a b => Sys2Proof.Machine.execMinu d a b s
  | .maxu d a b => Sys2Proof.Machine.execMaxu d a b s
  | .seq d a b => Sys2Proof.Machine.execSeq d a b s
  | .addw d a b => Sys2Proof.Machine.execAddw d a b s
  | .subw d a b => Sys2Proof.Machine.execSubw d a b s
  | .shlw d a b => Sys2Proof.Machine.execShlw d a b s
  | .shrw d a b => Sys2Proof.Machine.execShrw d a b s
  | .sraw d a b => Sys2Proof.Machine.execSraw d a b s
  | .addi d a i0 => Sys2Proof.Machine.execAddi d a i0 s
  | .andi d a i0 => Sys2Proof.Machine.execAndi d a i0 s
  | .ori d a i0 => Sys2Proof.Machine.execOri d a i0 s
  | .xori d a i0 => Sys2Proof.Machine.execXori d a i0 s
  | .shli d a n => Sys2Proof.Machine.execShli d a n s
  | .shri d a n => Sys2Proof.Machine.execShri d a n s
  | .srai d a n => Sys2Proof.Machine.execSrai d a n s
  | .slti d a i0 => Sys2Proof.Machine.execSlti d a i0 s
  | .li d i0 => Sys2Proof.Machine.execLi d i0 s
  | .lis d p i0 => Sys2Proof.Machine.execLis d p i0 s
  | .mul d a b => Sys2Proof.Machine.execMul d a b s
  | .mulh d a b => Sys2Proof.Machine.execMulh d a b s
  | .mulhu d a b => Sys2Proof.Machine.execMulhu d a b s
  | .mulw d a b => Sys2Proof.Machine.execMulw d a b s
  | .div d a b => Sys2Proof.Machine.execDiv d a b s
  | .divu d a b => Sys2Proof.Machine.execDivu d a b s
  | .rem d a b => Sys2Proof.Machine.execRem d a b s
  | .remu d a b => Sys2Proof.Machine.execRemu d a b s
  | .divw d a b => Sys2Proof.Machine.execDivw d a b s
  | .remw d a b => Sys2Proof.Machine.execRemw d a b s
  | .clz d a => Sys2Proof.Machine.execClz d a s
  | .ctz d a => Sys2Proof.Machine.execCtz d a s
  | .popc d a => Sys2Proof.Machine.execPopc d a s
  | .bswap d a => Sys2Proof.Machine.execBswap d a s
  | .bext d a b => Sys2Proof.Machine.execBext d a b s
  | .bins d a b => Sys2Proof.Machine.execBins d a b s
  | .sext d a b => Sys2Proof.Machine.execSext d a b s
  | .zext d a b => Sys2Proof.Machine.execZext d a b s
  | .beq a b o => Sys2Proof.Machine.execBeq a b o s
  | .bne a b o => Sys2Proof.Machine.execBne a b o s
  | .blt a b o => Sys2Proof.Machine.execBlt a b o s
  | .bge a b o => Sys2Proof.Machine.execBge a b o s
  | .bltu a b o => Sys2Proof.Machine.execBltu a b o s
  | .bgeu a b o => Sys2Proof.Machine.execBgeu a b o s
  | .jal d o => Sys2Proof.Machine.execJal d o s
  | .jalr d a i0 => Sys2Proof.Machine.execJalr d a i0 s
  | .widf d n => Sys2Proof.Machine.execWidf d n s
  | .wid d => Sys2Proof.Machine.execWid d s
  | .self d => Sys2Proof.Machine.execSelf d s
  | .cyc d => Sys2Proof.Machine.execCyc d s
  | .tick d => Sys2Proof.Machine.execTick d s
  | .grp d => Sys2Proof.Machine.execGrp d s
  | .ldb t h x k o => Sys2Proof.Machine.execLdb t h x k o s
  | .ldbu t h x k o => Sys2Proof.Machine.execLdbu t h x k o s
  | .ldh t h x k o => Sys2Proof.Machine.execLdh t h x k o s
  | .ldhu t h x k o => Sys2Proof.Machine.execLdhu t h x k o s
  | .ldw t h x k o => Sys2Proof.Machine.execLdw t h x k o s
  | .ldwu t h x k o => Sys2Proof.Machine.execLdwu t h x k o s
  | .ldd t h x k o => Sys2Proof.Machine.execLdd t h x k o s
  | .ldv t h x k o => Sys2Proof.Machine.execLdv t h x k o s
  | .stb t h x k o => Sys2Proof.Machine.execStb t h x k o s
  | .sth t h x k o => Sys2Proof.Machine.execSth t h x k o s
  | .stw t h x k o => Sys2Proof.Machine.execStw t h x k o s
  | .std t h x k o => Sys2Proof.Machine.execStd t h x k o s
  | .stv t h x k o => Sys2Proof.Machine.execStv t h x k o s
  | .ldf t h x => Sys2Proof.Machine.execLdf t h x s
  | .ldfe t h x => Sys2Proof.Machine.execLdfe t h x s
  | .stef t h x => Sys2Proof.Machine.execStef t h x s
  | .stf t h x => Sys2Proof.Machine.execStf t h x s
  | .sete h x => Sys2Proof.Machine.execSete h x s
  | .fetest t h x => Sys2Proof.Machine.execFetest t h x s
  | .amoadd t h x v => Sys2Proof.Machine.execAmoadd t h x v s
  | .amoand t h x v => Sys2Proof.Machine.execAmoand t h x v s
  | .amoor t h x v => Sys2Proof.Machine.execAmoor t h x v s
  | .amoxor t h x v => Sys2Proof.Machine.execAmoxor t h x v s
  | .amomin t h x v => Sys2Proof.Machine.execAmomin t h x v s
  | .amomax t h x v => Sys2Proof.Machine.execAmomax t h x v s
  | .amominu t h x v => Sys2Proof.Machine.execAmominu t h x v s
  | .amomaxu t h x v => Sys2Proof.Machine.execAmomaxu t h x v s
  | .amoswap t h x v => Sys2Proof.Machine.execAmoswap t h x v s
  | .amocas t h x v => Sys2Proof.Machine.execAmocas t h x v s
  | .amoaddw t h x v => Sys2Proof.Machine.execAmoaddw t h x v s
  | .amofaddF32 t h x v => Sys2Proof.Machine.execAmofaddF32 t h x v s
  | .hsub d a b => Sys2Proof.Machine.execHsub d a b s
  | .hrd d a b => Sys2Proof.Machine.execHrd d a b s
  | .hclr d => Sys2Proof.Machine.execHclr d s
  | .vadd d a b y => Sys2Proof.Machine.execVadd d a b y s
  | .vsub d a b y => Sys2Proof.Machine.execVsub d a b y s
  | .vmul d a b y => Sys2Proof.Machine.execVmul d a b y s
  | .vfma d a b c y => Sys2Proof.Machine.execVfma d a b c y s
  | .vmin d a b y => Sys2Proof.Machine.execVmin d a b y s
  | .vmax d a b y => Sys2Proof.Machine.execVmax d a b y s
  | .vabs d a y => Sys2Proof.Machine.execVabs d a y s
  | .vneg d a y => Sys2Proof.Machine.execVneg d a y s
  | .vand d a b y => Sys2Proof.Machine.execVand d a b y s
  | .vor d a b y => Sys2Proof.Machine.execVor d a b y s
  | .vxor d a b y => Sys2Proof.Machine.execVxor d a b y s
  | .vshl d a b y => Sys2Proof.Machine.execVshl d a b y s
  | .vshr d a b y => Sys2Proof.Machine.execVshr d a b y s
  | .vcmpeq d a b y => Sys2Proof.Machine.execVcmpeq d a b y s
  | .vcmplt d a b y => Sys2Proof.Machine.execVcmplt d a b y s
  | .vcmple d a b y => Sys2Proof.Machine.execVcmple d a b y s
  | .vsel d a b c y => Sys2Proof.Machine.execVsel d a b c y s
  | .vdot d a b c y => Sys2Proof.Machine.execVdot d a b c y s
  | .vaddsat d a b y => Sys2Proof.Machine.execVaddsat d a b y s
  | .vsubsat d a b y => Sys2Proof.Machine.execVsubsat d a b y s
  | .vmulh d a b y => Sys2Proof.Machine.execVmulh d a b y s
  | .vcvt d a s0 c y => Sys2Proof.Machine.execVcvt d a s0 c y s
  | .vrcp d a y => Sys2Proof.Machine.execVrcp d a y s
  | .vrsqrt d a y => Sys2Proof.Machine.execVrsqrt d a y s
  | .vsqrt d a y => Sys2Proof.Machine.execVsqrt d a y s
  | .vdiv d a b y => Sys2Proof.Machine.execVdiv d a b y s
  | .vexp2 d a y => Sys2Proof.Machine.execVexp2 d a y s
  | .vlog2 d a y => Sys2Proof.Machine.execVlog2 d a y s
  | .vtanh d a y => Sys2Proof.Machine.execVtanh d a y s
  | .vsigm d a y => Sys2Proof.Machine.execVsigm d a y s
  | .vbcast d g y => Sys2Proof.Machine.execVbcast d g y s
  | .vins d g l y => Sys2Proof.Machine.execVins d g l y s
  | .vext g a l y => Sys2Proof.Machine.execVext g a l y s
  | .vshuf d a b y => Sys2Proof.Machine.execVshuf d a b y s
  | .vzip d a b h y => Sys2Proof.Machine.execVzip d a b h y s
  | .vunzip d a b o y => Sys2Proof.Machine.execVunzip d a b o y s
  | .vredsum d a y => Sys2Proof.Machine.execVredsum d a y s
  | .vredmax d a y => Sys2Proof.Machine.execVredmax d a y s
  | .vredmin d a y => Sys2Proof.Machine.execVredmin d a y s
  | .vsort d a m y => Sys2Proof.Machine.execVsort d a m y s
  | .vmerge d a b h y => Sys2Proof.Machine.execVmerge d a b h y s
  | .vsrch d a b m y => Sys2Proof.Machine.execVsrch d a b m y s
  | .vcompress d a b y => Sys2Proof.Machine.execVcompress d a b y s
  | .vexpand d a b y => Sys2Proof.Machine.execVexpand d a b y s
  | .vpopc d a y => Sys2Proof.Machine.execVpopc d a y s
  | .vfirst d a y => Sys2Proof.Machine.execVfirst d a y s
  | .ksend a b y => Sys2Proof.Machine.execKsend a b y s
  | .vbegin a b l => Sys2Proof.Machine.execVbegin a b l s
  | .vstat d => Sys2Proof.Machine.execVstat d s
  | .qbind d a b => Sys2Proof.Machine.execQbind d a b s
  | .qunbind d a => Sys2Proof.Machine.execQunbind d a s
  | .qstat d a => Sys2Proof.Machine.execQstat d a s
  | .qpeek d a => Sys2Proof.Machine.execQpeek d a s
  | .wait l s0 c m x n => Sys2Proof.Machine.execWait l s0 c m x n s
  | .xfence b a s0 => Sys2Proof.Machine.execXfence b a s0 s
  | .spawn d a b => Sys2Proof.Machine.execSpawn d a b s
  | .spawnd d a b => Sys2Proof.Machine.execSpawnd d a b s
  | .yield d => Sys2Proof.Machine.execYield d s
  | .migrate d a b => Sys2Proof.Machine.execMigrate d a b s
  | .tqpush d a => Sys2Proof.Machine.execTqpush d a s
  | .tqpop d a => Sys2Proof.Machine.execTqpop d a s
  | .tmr d a => Sys2Proof.Machine.execTmr d a s
  | .prio d a => Sys2Proof.Machine.execPrio d a s
  | .bset d a b i0 => Sys2Proof.Machine.execBset d a b i0 s
  | .barv d i0 => Sys2Proof.Machine.execBarv d i0 s
  | .bwait d a i0 => Sys2Proof.Machine.execBwait d a i0 s
  | .barw d i0 => Sys2Proof.Machine.execBarw d i0 s
  | .bto d a i0 => Sys2Proof.Machine.execBto d a i0 s
  | .susp t h x => Sys2Proof.Machine.execSusp t h x s
  | .resume t h x => Sys2Proof.Machine.execResume t h x s
  | .sdrop t h x => Sys2Proof.Machine.execSdrop t h x s
  | .sclone t h x => Sys2Proof.Machine.execSclone t h x s
  | .sver t h x => Sys2Proof.Machine.execSver t h x s
  | .launch t h x => Sys2Proof.Machine.execLaunch t h x s
  | .chplay t h x => Sys2Proof.Machine.execChplay t h x s
  | .ewr e a r => Sys2Proof.Machine.execEwr e a r s
  | .erd e r d => Sys2Proof.Machine.execErd e r d s
  | .ewrCpDest r a => Sys2Proof.Machine.execEwrCpDest r a s
  | .ewrCpBfmt r a => Sys2Proof.Machine.execEwrCpBfmt r a s
  | .ewrMxScsel a => Sys2Proof.Machine.execEwrMxScsel a s
  | .ewrMxScval a => Sys2Proof.Machine.execEwrMxScval a s
  | .ewrDxOhi a => Sys2Proof.Machine.execEwrDxOhi a s
  | .ewrDxXrel a => Sys2Proof.Machine.execEwrDxXrel a s
  | .ewrPlRegion r a => Sys2Proof.Machine.execEwrPlRegion r a s
  | .cpgo w => Sys2Proof.Machine.execCpgo w s
  | .cphint w => Sys2Proof.Machine.execCphint w s
  | .cpcancel d w => Sys2Proof.Machine.execCpcancel d w s
  | .cpstat d w => Sys2Proof.Machine.execCpstat d w s
  | .oclaim a d => Sys2Proof.Machine.execOclaim a d s
  | .orel a d => Sys2Proof.Machine.execOrel a d s
  | .mm a b n w => Sys2Proof.Machine.execMm a b n w s
  | .mmg a b n w => Sys2Proof.Machine.execMmg a b n w s
  | .mdrain b n w => Sys2Proof.Machine.execMdrain b n w s
  | .mclr n w => Sys2Proof.Machine.execMclr n w s
  | .mchk b w => Sys2Proof.Machine.execMchk b w s
  | .walk w => Sys2Proof.Machine.execWalk w s
  | .wstat a d w => Sys2Proof.Machine.execWstat a d w s
  | .dsend w => Sys2Proof.Machine.execDsend w s
  | .dflush d w => Sys2Proof.Machine.execDflush d w s
  | .dstat d w => Sys2Proof.Machine.execDstat d w s
  | .plrd a d => Sys2Proof.Machine.execPlrd a d s
  | .plswitch d => Sys2Proof.Machine.execPlswitch d s
  | .plmerge w => Sys2Proof.Machine.execPlmerge w s
  | .plstat d => Sys2Proof.Machine.execPlstat d s
  | .clred w => Sys2Proof.Machine.execClred w s
  | .clstat a d w => Sys2Proof.Machine.execClstat a d w s
  | .sysrd d s0 => Sys2Proof.Machine.execSysrd d s0 s
  | .syswr a s0 => Sys2Proof.Machine.execSyswr a s0 s
  | .syswrTmr a => Sys2Proof.Machine.execSyswrTmr a s
  | .syswrFrm a => Sys2Proof.Machine.execSyswrFrm a s
  | .syswrPrio a => Sys2Proof.Machine.execSyswrPrio a s
  | .syswrQbind a => Sys2Proof.Machine.execSyswrQbind a s
  | .syswrKhashKbins a n => Sys2Proof.Machine.execSyswrKhashKbins a n s
  | .syswrSlottab a n => Sys2Proof.Machine.execSyswrSlottab a n s
  | .syswrQring a n => Sys2Proof.Machine.execSyswrQring a n s
  | .swapreq a => Sys2Proof.Machine.execSwapreq a s
  | .trap i0 => Sys2Proof.Machine.execTrap i0 s
  | .brk i0 => Sys2Proof.Machine.execBrk i0 s
  | .illegalWord w => Sys2Proof.Machine.execIllegalWord w s
  | .divideResult => Sys2Proof.Machine.execDivideResult s
  | .loadDataReturn => Sys2Proof.Machine.execLoadDataReturn s
  | .remoteAccessArrival => Sys2Proof.Machine.execRemoteAccessArrival s
  | .coreTranslationFault => Sys2Proof.Machine.execCoreTranslationFault s
  | .faultRecordWrite => Sys2Proof.Machine.execFaultRecordWrite s
  | .wakeMessage => Sys2Proof.Machine.execWakeMessage s
  | .ksendLaneAccumulate => Sys2Proof.Machine.execKsendLaneAccumulate s
  | .vsync => Sys2Proof.Machine.execVsync s
  | .vseqEntryPerform => Sys2Proof.Machine.execVseqEntryPerform s
  | .qwedge => Sys2Proof.Machine.execQwedge s
  | .quit => Sys2Proof.Machine.execQuit s
  | .taskRecordInsert => Sys2Proof.Machine.execTaskRecordInsert s
  | .taskBankReply => Sys2Proof.Machine.execTaskBankReply s
  | .dispatcherStart => Sys2Proof.Machine.execDispatcherStart s
  | .wakeRecordDelivery => Sys2Proof.Machine.execWakeRecordDelivery s
  | .spill => Sys2Proof.Machine.execSpill s
  | .refill => Sys2Proof.Machine.execRefill s
  | .barrierArrivalRecord => Sys2Proof.Machine.execBarrierArrivalRecord s
  | .barrierRelease => Sys2Proof.Machine.execBarrierRelease s
  | .barrierTimeout => Sys2Proof.Machine.execBarrierTimeout s
  | .barrierSeal => Sys2Proof.Machine.execBarrierSeal s
  | .suspensionComplete => Sys2Proof.Machine.execSuspensionComplete s
  | .resumeGroupPlace => Sys2Proof.Machine.execResumeGroupPlace s
  | .groupRestoreEnd => Sys2Proof.Machine.execGroupRestoreEnd s
  | .recordedCopyResolve => Sys2Proof.Machine.execRecordedCopyResolve s
  | .trig => Sys2Proof.Machine.execTrig s
  | .launchEnqueue => Sys2Proof.Machine.execLaunchEnqueue s
  | .launchStatus => Sys2Proof.Machine.execLaunchStatus s
  | .groupPlace => Sys2Proof.Machine.execGroupPlace s
  | .strandStart => Sys2Proof.Machine.execStrandStart s
  | .launchRetire => Sys2Proof.Machine.execLaunchRetire s
  | .tickStart => Sys2Proof.Machine.execTickStart s
  | .tickWindowEdge => Sys2Proof.Machine.execTickWindowEdge s
  | .copyChannelTake => Sys2Proof.Machine.execCopyChannelTake s
  | .copyStartElapse => Sys2Proof.Machine.execCopyStartElapse s
  | .copyRun => Sys2Proof.Machine.execCopyRun s
  | .copyLastByteLands => Sys2Proof.Machine.execCopyLastByteLands s
  | .copyCompletionWrite => Sys2Proof.Machine.execCopyCompletionWrite s
  | .matrixCommandBegin => Sys2Proof.Machine.execMatrixCommandBegin s
  | .matrixCommandComplete => Sys2Proof.Machine.execMatrixCommandComplete s
  | .drainResume => Sys2Proof.Machine.execDrainResume s
  | .mergeDrainTurn => Sys2Proof.Machine.execMergeDrainTurn s
  | .drainStatusDeliver => Sys2Proof.Machine.execDrainStatusDeliver s
  | .walkBegin => Sys2Proof.Machine.execWalkBegin s
  | .walkPass => Sys2Proof.Machine.execWalkPass s
  | .walkEnd => Sys2Proof.Machine.execWalkEnd s
  | .dsendHashChoose => Sys2Proof.Machine.execDsendHashChoose s
  | .dsendScoredChoose => Sys2Proof.Machine.execDsendScoredChoose s
  | .gateLoad => Sys2Proof.Machine.execGateLoad s
  | .sendListHoldTimeout => Sys2Proof.Machine.execSendListHoldTimeout s
  | .receiveRequest => Sys2Proof.Machine.execReceiveRequest s
  | .grantReply => Sys2Proof.Machine.execGrantReply s
  | .rowCommit => Sys2Proof.Machine.execRowCommit s
  | .arrivalCount => Sys2Proof.Machine.execArrivalCount s
  | .dsendCompletion => Sys2Proof.Machine.execDsendCompletion s
  | .receiveRelease => Sys2Proof.Machine.execReceiveRelease s
  | .migrateGrant => Sys2Proof.Machine.execMigrateGrant s
  | .migrateArrive => Sys2Proof.Machine.execMigrateArrive s
  | .windowEnd => Sys2Proof.Machine.execWindowEnd s
  | .replicaCopyEnd => Sys2Proof.Machine.execReplicaCopyEnd s
  | .versionApply => Sys2Proof.Machine.execVersionApply s
  | .regionDrained => Sys2Proof.Machine.execRegionDrained s
  | .clredArrive => Sys2Proof.Machine.execClredArrive s
  | .clredCompletion => Sys2Proof.Machine.execClredCompletion s
  | .eret => Sys2Proof.Machine.execEret s
  | .idle => Sys2Proof.Machine.execIdle s
  | .timer => Sys2Proof.Machine.execTimer s
  | .parkswapPreempt => Sys2Proof.Machine.execParkswapPreempt s
  | .swapOutComplete => Sys2Proof.Machine.execSwapOutComplete s
  | .contextEvict => Sys2Proof.Machine.execContextEvict s
  | .swapIn => Sys2Proof.Machine.execSwapIn s
  | .l2Scrub => Sys2Proof.Machine.execL2Scrub s
  | .dramScrub => Sys2Proof.Machine.execDramScrub s
  | .pairMergeCompare => Sys2Proof.Machine.execPairMergeCompare s
  | .pairTimeout => Sys2Proof.Machine.execPairTimeout s
  | .hostAccess => Sys2Proof.Machine.execHostAccess s
  | .launchRingDoorbell => Sys2Proof.Machine.execLaunchRingDoorbell s
  | .eventRingDoorbell => Sys2Proof.Machine.execEventRingDoorbell s
  | .faultRingDoorbell => Sys2Proof.Machine.execFaultRingDoorbell s
  | .commandRingDoorbell => Sys2Proof.Machine.execCommandRingDoorbell s
  | .tenant => Sys2Proof.Machine.execTenant s
  | .asidset => Sys2Proof.Machine.execAsidset s
  | .inval => Sys2Proof.Machine.execInval s
  | .wake => Sys2Proof.Machine.execWake s
  | .powerReady => Sys2Proof.Machine.execPowerReady s
  | .powerRun => Sys2Proof.Machine.execPowerRun s
  | .powerPark => Sys2Proof.Machine.execPowerPark s
  | .powerUnpark => Sys2Proof.Machine.execPowerUnpark s
  | .powerOff => Sys2Proof.Machine.execPowerOff s
  | .hostTick => Sys2Proof.Machine.execHostTick s
  | .victim => Sys2Proof.Machine.execVictim s
  | .route => Sys2Proof.Machine.execRoute s
  | .attest => Sys2Proof.Machine.execAttest s
  | .lifecycle => Sys2Proof.Machine.execLifecycle s
  | .kill => Sys2Proof.Machine.execKill s
  | .extend => Sys2Proof.Machine.execExtend s
  | .powerOnReset => Sys2Proof.Machine.execPowerOnReset s
  | .wipeComplete => Sys2Proof.Machine.execWipeComplete s
  | .thermal => Sys2Proof.Machine.execThermal s
  | .thermalThrottle => Sys2Proof.Machine.execThermalThrottle s
  | .linkFlit => Sys2Proof.Machine.execLinkFlit s
  | .linkdown => Sys2Proof.Machine.execLinkdown s
  | .fetchBound => Sys2Proof.Machine.execFetchBound s
  | .queueBankRemoval => Sys2Proof.Machine.execQueueBankRemoval s
  | .skeinStatusReply => Sys2Proof.Machine.execSkeinStatusReply s
  | .distaffReply => Sys2Proof.Machine.execDistaffReply s
  | .chainReply => Sys2Proof.Machine.execChainReply s
  | .plmergeCompletion => Sys2Proof.Machine.execPlmergeCompletion s
  | .temperatureFall => Sys2Proof.Machine.execTemperatureFall s

end Sys2Proof.Machine
end

