-- ==== Sys2Proof/Machine/Turn.lean ====
section
/-! DEFINITION. What one step does: the passing of time (R71, R165, R235), an issue turn of a core (R60), the fetch of an
instruction (R228) and its decoding, a move of the agenda, and, with an empty agenda, the device's own next move. -/

namespace Sys2Proof.Machine

/-! ### Time -/

/-- The length of a core cycle in 1/693 ns, by clock step (R333). -/
def cycleLen (k : BitVec 2) : Nat :=
  match k.toNat with
  | 0 => 630
  | 1 => 770
  | 2 => 990
  | _ => 1386

/-- TMR counts down in a strand that is LIVE and not suspended (R71); it is due when it passes from 1 to 0. -/
def Strand.tickDown (t : Strand) (dt : Nat) : Strand :=
  if t.tmr = 0 ∨ t.place?.isNone ∨ t.susp.isSome then t
  else if t.tmr.toNat ≤ dt then { t with tmr := 0, tmrDue := true }
  else { t with tmr := t.tmr - BitVec.ofNat 64 dt }

/-- Time-outs stand still for the groups of strands in an XLATE handler (R215): their waits begin later by `dt`. -/
def State.holdWaits (s : State) (dt : Nat) : State :=
  let gs := s.barHolds.filterMap fun i => (s.strand? i).map fun t => t.group
  if gs.isEmpty then s
  else { s with cores := s.cores.map fun (c : Nat × Core) => (c.1, { c.2 with
      bars := c.2.bars.map fun (b : BarReg) =>
        if (b.held.map fun g => gs.contains g).getD false then
          { b with waits := b.waits.map fun (w : Nat × WaitRec) => (w.1, { w.2 with at_ := w.2.at_ + dt }) }
        else b }) }

/-- `dt` core cycles pass. -/
def State.pass (s : State) (dt : Nat) : State :=
  let u := dt * cycleLen s.step
  let s := s.holdWaits dt
  { s with
    now := s.now + u
    cycle := s.cycle + dt
    tickTime := if s.power = .run then s.tickTime + u else s.tickTime
    strands := s.strands.map fun (x : Nat × Strand) => (x.1, x.2.tickDown dt) }

/-! ### Issue (R60) -/

/-- A branch or a jump, which may lead back to itself. -/
def isJump (i : Instr) : Bool :=
  match i with
  | .beq .. | .bne .. | .blt .. | .bge .. | .bltu .. | .bgeu .. | .jal .. | .jalr .. => true
  | _ => false

/-- The instruction whose word is `w`, or the illegal word (R37). -/
def instrOf (w : BitVec 32) : Instr :=
  match decode w with
  | .ok i => i
  | .error _ => .illegalWord w

/-- The fetch, decoding and execution of the next instruction of strand `sid` (R228, R306, R314), and whether it issued: a stall
leaves the strand as it was. -/
def State.runStrand (s : State) (sid : Nat) (t : Strand) : Host.Outcome State Fault Refusal × Bool :=
  match s.fetchAt t t.pc with
  | .bound _ => (exec .fetchBound { s with cur := sid }, true)
  | .xfault c => (.next (s.fetchFault sid t t.pc c), true)
  | .poisoned key => (.next (s.consume t.core key), true)
  | .away => (.next s, false)
  | .word w s1 =>
    let i := instrOf w
    match exec i { s1 with cur := sid } with
    | .next s2 => (.next s2, decide (s2.strand? sid ≠ some t) || (isJump i && !t.stalls i))
    | o => (o, true)

/-- The class of a core's current slot-table entry (R60). -/
def Core.turnClass (k : Core) (cycle : Nat) : Nat :=
  let e := cycle % 64
  bits (if e < 32 then k.slottab0 else k.slottab1) (2 * (e % 32)) 2

/-- Six cycles have passed since the strand's previous issue (R60). -/
def Strand.rested (t : Strand) (cycle : Nat) : Bool := t.lastIssue.all fun n => decide (n + 6 ≤ cycle)

/-- The strands of a core that may issue now, in order of service (R60): LIVE and RUN, six cycles after their last issue, with
no TIMER that is taken first (R71); of the entry's class after `last`, then, work-conserving, of any class after `lastAny`. -/
def State.candidates (s : State) (c : Nat) : List (Nat × Nat × Strand) :=
  let k := s.core c
  let at_ := fun (i : Nat) =>
    match vget k.slots i .free with
    | .live sid => (s.strand? sid).bind fun t =>
      if t.st = .run ∧ t.timerReady = false ∧ t.ready ≤ s.cycle ∧ t.rested s.cycle then some (i, sid, t) else none
    | _ => none
  let after := fun (l : BitVec 3) => (List.range 8).filterMap fun j => at_ ((l.toNat + 1 + j) % 8)
  let g := k.turnClass s.cycle
  let mine := (after (vget k.last g 7)).filter fun x => x.2.2.cls.toNat == g
  mine ++ (if k.wc then after k.lastAny else [])

/-- The first of some strands that is ready issues (R60); the pointers of its class and of the core move to its slot. -/
def State.tryIssue (s : State) (c : Nat) : List (Nat × Nat × Strand) → Host.Outcome State Fault Refusal
  | [] => .next s
  | (i, sid, t) :: rest =>
    match s.runStrand sid t with
    | (.next s1, true) =>
      let s1 := s1.modStrand sid fun u => { u with lastIssue := some s.cycle }
      .next (s1.modCore c fun k => { k with
        issuedAt := some s.cycle, last := vset k.last t.cls.toNat (BitVec.ofNat 3 i), lastAny := BitVec.ofNat 3 i })
    | (.next _, false) => State.tryIssue s c rest
    | (o, _) => o

/-- An issue turn of a core (R60), in Run: a core issues once in a cycle, and while its die is throttled, in every other cycle
(R335). -/
def State.issueTurn (s : State) (c : Nat) : Host.Outcome State Fault Refusal :=
  if s.power ≠ .run || ((s.die (dieOf c)).throttled && s.cycle % 2 = 1) || decide ((s.core c).issuedAt = some s.cycle) then .next s
  else s.tryIssue c (s.candidates c)

/-- The first core that can still issue in this cycle. -/
def State.dueCore (s : State) : Option Nat :=
  (s.cores.map fun x => x.1).find? fun c => decide ((s.core c).issuedAt ≠ some s.cycle) &&
    (match s.issueTurn c with
     | .next s1 => decide ((s1.core c).issuedAt = some s.cycle)
     | _ => true)

/-- A strand in a slot runs: it may issue in a coming cycle. -/
def State.anyRun (s : State) : Bool := s.strands.any fun x => decide (x.2.st = .run) && x.2.place?.isSome

/-- `dt` cycles are to pass: not while a core can still issue in this one (R60, R61), which issues first; and one by one while a
strand runs. What is left stays at the head of the agenda. -/
def State.passTime (s : State) (dt : Nat) : Host.Outcome State Fault Refusal :=
  match s.dueCore with
  | some c => { s with agenda := .pass dt :: s.agenda }.issueTurn c
  | none =>
    if 1 < dt ∧ s.anyRun then .next ({ s with agenda := .pass (dt - 1) :: s.agenda }.pass 1)
    else .next (s.pass dt)

/-! ### Moves -/

/-- A step of the device or of the host, which no word encodes. -/
def isEvent (i : Instr) : Bool :=
  match i with
  | .divideResult | .loadDataReturn | .remoteAccessArrival | .coreTranslationFault | .faultRecordWrite
      | .wakeMessage | .ksendLaneAccumulate | .vseqEntryPerform | .qwedge | .taskRecordInsert | .taskBankReply
      | .dispatcherStart | .wakeRecordDelivery | .spill | .refill | .barrierArrivalRecord | .barrierRelease
      | .barrierTimeout | .barrierSeal | .suspensionComplete | .resumeGroupPlace | .groupRestoreEnd
      | .recordedCopyResolve | .launchEnqueue | .launchStatus | .groupPlace | .strandStart | .launchRetire
      | .tickStart | .tickWindowEdge | .copyChannelTake | .copyStartElapse | .copyRun | .copyLastByteLands
      | .copyCompletionWrite | .matrixCommandBegin | .matrixCommandComplete | .drainResume | .mergeDrainTurn
      | .drainStatusDeliver | .walkBegin | .walkPass | .walkEnd | .dsendHashChoose | .dsendScoredChoose
      | .gateLoad | .sendListHoldTimeout | .receiveRequest | .grantReply | .rowCommit | .arrivalCount
      | .dsendCompletion | .receiveRelease | .migrateGrant | .migrateArrive | .windowEnd | .replicaCopyEnd
      | .versionApply | .regionDrained | .clredArrive | .clredCompletion | .timer | .parkswapPreempt
      | .swapOutComplete | .contextEvict | .swapIn | .l2Scrub | .dramScrub | .pairMergeCompare | .pairTimeout
      | .hostAccess | .launchRingDoorbell | .eventRingDoorbell | .faultRingDoorbell | .commandRingDoorbell
      | .tenant | .asidset | .inval | .wake | .powerReady | .powerRun | .powerPark | .powerUnpark | .powerOff
      | .hostTick | .victim | .route | .attest | .lifecycle | .kill | .extend | .powerOnReset | .wipeComplete
      | .thermal | .thermalThrottle | .linkFlit | .linkdown | .queueBankRemoval | .skeinStatusReply
      | .distaffReply | .chainReply | .plmergeCompletion | .temperatureFall => true
  | _ => false

/-- The counter of R325 of an uncorrectable error in the word of a key, and the die that detects it. -/
def ueCounter (key : Nat) : Nat × Nat :=
  match key / 2 ^ 52 with
  | 0 => (key / 2 ^ 44 % 256, 6)
  | 1 | 3 => (key % 2 ^ 52 / 2 ^ 26, 4)
  | 2 => (key % 2 ^ 52 / 2 ^ 25, 2)
  | _ => (key % 2 ^ 52 / 2 ^ 23, 4)

/-- Between the thresholds of R335. -/
def tempBand (t : Nat) : Nat := if t < 950 then 0 else if t < 1000 then 1 else if t < 1050 then 2 else 3

/-- A move happens. -/
def State.move (s : State) (m : Move) : Host.Outcome State Fault Refusal :=
  match m with
  | .issue c => s.issueTurn c
  | .event e a b acc => if isEvent e then exec e { s with ua := a, ub := b, acc := acc } else .next s
  | .pass dt => s.passTime dt
  | .begin sid => .next (s.beginLate sid)
  | .evict d k => .next (s.modDie d fun x => { x with tlb := x.tlb.eraseIdx k })
  | .evictWalk d k => .next (s.modDie d fun x => { x with wcache := x.wcache.eraseIdx k })
  | .poison key => .next (s.poisonWord (ueCounter key).1 (ueCounter key).2 key)
  | .corrected d c => .next (if c = 0 ∨ c = 1 ∨ c = 3 ∨ c = 5 then s.countErr d c else s)
  | .coreUe c => .next ((s.countErr (dieOf c) 4).seal c)
  | .telemetry d mw temp => .next (s.modDie d fun x => { x with
      power := BitVec.ofNat 32 mw, temp := if tempBand temp = tempBand x.temp then temp else x.temp })
  | .mismatch c p scl => .next (s.mismatch c p scl)

/-! ### The device's own moves -/

/-- The places 0 to `n` − 1 of a unit, for one event. -/
def places (e : Instr) (a n : Nat) : List (Instr × Nat × Nat) := (List.range n).map fun b => (e, a, b)

/-- The events that strand `i` can be about. -/
def strandMoves (i : Nat) : List (Instr × Nat × Nat) :=
  ([.loadDataReturn, .divideResult, .taskBankReply, .launchStatus, .chainReply, .skeinStatusReply, .distaffReply,
    .drainStatusDeliver, .remoteAccessArrival, .ksendLaneAccumulate, .vseqEntryPerform, .taskRecordInsert, .queueBankRemoval,
    .wakeRecordDelivery, .barrierArrivalRecord, .coreTranslationFault, .wakeMessage, .strandStart, .migrateGrant,
    .migrateArrive, .timer, .barrierTimeout, .pairMergeCompare, .pairTimeout] : List Instr).map (fun e => (e, i, 0))
    ++ [(.launchEnqueue, 0, i), (.chainReply, i, 1), (.distaffReply, i, 1)]

/-- The events of core `c`. -/
def coreMoves (c : Nat) (k : Core) : List (Instr × Nat × Nat) :=
  ([.dispatcherStart, .copyChannelTake, .matrixCommandComplete, .walkPass, .walkEnd, .parkswapPreempt, .qwedge, .contextEvict,
    .swapIn] : List Instr).map (fun e => (e, c, 0))
    ++ places .copyStartElapse c 4 ++ places .copyRun c 4 ++ places .copyLastByteLands c 4
    ++ places .recordedCopyResolve c (4 + k.copyq.length) ++ places .copyCompletionWrite c (4 + k.copyq.length)
    ++ places .matrixCommandBegin c k.mxq.length ++ places .drainResume c k.mxq.length
    ++ places .mergeDrainTurn c k.mxq.length ++ places .walkBegin c k.mxq.length ++ places .swapOutComplete c 8

/-- The events of die `d`. -/
def dieMoves (d : Nat) (x : Die) : List (Instr × Nat × Nat) :=
  [(.faultRecordWrite, d, 0)] ++ places .dsendHashChoose d x.dxq.length ++ places .dsendScoredChoose d x.dxq.length
    ++ places .gateLoad d x.dxq.length ++ places .sendListHoldTimeout d x.lists.length
    ++ places .receiveRequest d x.reqs.length ++ places .grantReply d x.grants.length ++ places .rowCommit d x.rows.length
    ++ places .arrivalCount d x.rows.length ++ places .receiveRelease d x.releasing.length
    ++ places .dsendCompletion d x.dxq.length ++ places .plmergeCompletion d x.merges.length
    ++ places .clredArrive d x.clq.length ++ places .clredCompletion d x.clq.length

/-- The events of the device as a whole: releases and seals of barriers before time-outs (R165). `POWER Ready` and `POWER Off`
in Wiping and Wiped are the host's own moves (R333), and not among them. -/
def State.deviceMoves (s : State) : List (Instr × Nat × Nat) :=
  (s.cores.map fun x => places .barrierRelease x.1 4 ++ places .barrierSeal x.1 4).flatten
    ++ (s.strands.map fun x => strandMoves x.1).flatten ++ (s.cores.map fun x => coreMoves x.1 x.2).flatten
    ++ (s.dies.map fun x => dieMoves x.1 x.2).flatten
    ++ (s.clusters.map fun x => [(Instr.spill, x.1, 0), (Instr.refill, x.1, 0)]
        ++ (List.range 16).map fun i => (Instr.dispatcherStart, clusterCore x.1 i, 0)).flatten
    ++ (s.groups.map fun x => [(Instr.suspensionComplete, x.1, 0), (Instr.groupRestoreEnd, x.1, 0)]).flatten
    ++ (s.launches.map fun x => [(Instr.launchRetire, x.1, 0), (Instr.tickWindowEdge, x.1, 0)]).flatten
    ++ (s.regions.map fun x => [(Instr.replicaCopyEnd, x.1, 0), (Instr.regionDrained, x.1, 0)]
        ++ s.ownDies.map fun d => (Instr.versionApply, d, x.1)).flatten
    ++ places .launchEnqueue 1 260 ++ places .launchEnqueue 2 s.waitHdrs.length
    ++ (if s.power = .wiped ∨ s.power = .wiping then [] else [(.powerReady, 0, 0), (.powerOff, 0, 0)])
    ++ ([.groupPlace, .resumeGroupPlace, .tickStart, .windowEnd, .wipeComplete, .tenant, .asidset, .inval, .wake,
        .powerRun, .hostTick, .victim, .route, .attest, .lifecycle, .kill, .extend] : List Instr).map
        (fun e => (e, 0, 0))
    ++ [if Config.choice s.serial % 2 = 0 then (.powerPark, 0, 0) else (.powerUnpark, 0, 0)]
    ++ (s.linkFails.map fun x => (Instr.linkdown, x.1, 0))

/-- The first of some events that changes anything. -/
def State.firstMove (s : State) : List (Instr × Nat × Nat) → Option (Host.Outcome State Fault Refusal)
  | [] => none
  | (e, a, b) :: rest =>
    match exec e { s with ua := a, ub := b, acc := .none } with
    | .next s1 => if ({ s1 with ua := s.ua, ub := s.ub, acc := s.acc } : State) = s then s.firstMove rest else some (.next s1)
    | o => some o

/-- With an empty agenda the machine goes on by itself: every core that can issues, then engine commands that have waited begin,
then the device makes every move it can, and then a cycle passes. -/
def State.auto (s : State) : Host.Outcome State Fault Refusal :=
  match s.dueCore with
  | some c => s.issueTurn c
  | none =>
    match s.strands.find? fun x => (s.lateReady x.1 x.2).isSome with
    | some x => .next (s.beginLate x.1)
    | none =>
      match s.firstMove s.deviceMoves with
      | some o => o
      | none => .next (s.pass 1)

/-! ### Placing an instruction where the next step fetches it -/

/-- The physical page that `withFetchWord` maps: it lies beyond an ASID table at 0. -/
def fetchPage : Nat := 0x10000

/-- A translation of the page of a strand's PC on die 0, with all rights, and a valid entry of its address space. -/
def State.mapFetch (s : State) (t : Strand) : State :=
  let at_ := s.asidtab.toNat + 16 * t.asid.toNat + 7
  let s := s.writeBytes at_ [Memory.read s.mem at_ ||| 0x80]
  match s.translate 0 t.asid t.pc.toNat accX with
  | .ok _ => s
  | .error _ =>
    let e : TlbEntry := { slice := homeSlice t.asid t.pc.toNat, asid := t.asid, gen := s.asidGen t.asid
                          va := t.pc.toNat / 2 ^ 16 * 2 ^ 16, size := 2 ^ 16, pa := fetchPage, rights := 7, dirty := true }
    s.modDie 0 fun x => { x with tlb := e :: x.tlb }

/-- Strand 0 stands alone in slot 0 of core 0 and issues next; the word lies at its PC. -/
def State.placeWord (s : State) (w : BitVec 32) : State :=
  let t : Strand := { (s.strand? 0).getD {} with st := .run, loc := .slot 0 0, ready := 0, lastIssue := none }
  let s := { s with power := .run, agenda := [.issue 0] }.setStrand 0 t
  let s := s.setCore 0 { slots := vset (Vector.replicate 8 Slot.free) 0 (.live 0) }
  let s := s.mapFetch t
  match s.translate 0 t.asid t.pc.toNat accX with
  | .ok (k, s1) => s1.writeBytes k (bytesOfNat 4 w.toNat)
  | .error _ => s

end Sys2Proof.Machine
end

