-- ==== Sys2Proof/Machine/Step.lean ====
section
/-! DEFINITION. The step of the machine, and the placing of an instruction at its next fetch. -/

namespace Sys2Proof.Machine

/-- One step: the next move of the agenda happens; with an empty agenda the machine goes on by itself. -/
def step (s : State) : Host.Outcome State Fault Refusal :=
  match s.agenda with
  | m :: rest => { s with agenda := rest }.move m
  | [] => s.auto

/-- The state with the instruction whose bits are `w` where the next step fetches (R25): the package is in Run, strand 0
stands in slot 0 of core 0 with its PC's page mapped, and the next move is an issue turn of that core. -/
def State.withFetchWord (s : State) (_nbits w : Nat) : State := s.placeWord (BitVec.ofNat 32 w)

end Sys2Proof.Machine
end

