-- ==== Sys2Proof/Safety.lean ====
section
/-! DEFINITION. The terms that statements use: memory in its canonical form, the ways an instruction of a strand issues,
and what counts as a strand, a register or a byte that is left alone. -/

namespace Sys2Proof.Machine

/-- Memory is in its canonical form. -/
abbrev State.memWf (s : State) : Prop := Memory.wf s.mem = true

/-- The canonical form of a state: of its memory, and of its table of strands, in which each strand has one entry. -/
abbrev State.canonical (s : State) : Prop := s.memWf ∧ Tab.wf s.strands = true

/-- A g register that an instruction reads: the value popped from its port, or the register's own (R88). -/
def popVal (t : Strand) (got : List (GReg × Word)) (r : GReg) : Word :=
  match got.find? fun x => x.1 = r with
  | some x => x.2
  | none => t.g r

/-- A strand that issues gives up its place in the order of a port (R88). -/
def Strand.settled (t : Strand) : Strand := { t with claim := none }

/-- The strand in focus issues instruction `i` at `s` (R60, R88, R306): it is RUN in a slot, no fault of it is held, nothing
stalls it, its pops are there and its pushes find room. The answer is the strand, the state with the pops made, and the values
popped. `extra` are registers that the words of a loop body read. -/
def State.issued (s : State) (i : Instr) (extra : List GReg := []) : Option (Strand × State × List (GReg × Word)) :=
  match s.strand? s.cur with
  | none => none
  | some t =>
    if t.st ≠ .run || t.place?.isNone || t.opFault.isSome || t.seqFault.isSome || t.stalls i extra then none
    else
      match s.popAll s.cur t (popsOf t i ++ extra) [] with
      | .error _ => none
      | .ok (s1, got) => if (s1.pushBlocked s.cur t (pushesOf i)).isSome then none else some (t, s1, got)

end Sys2Proof.Machine

namespace Sys2Proof

open Machine

/-- Wherever instruction `i` issues and `p` holds, `exec` answers a next state, and it is the one that `r` gives. Both see
the state before the pops, the state with the pops made, the strand, and the registers that `i` reads. -/
def Instr.runs (i : Instr) (p : State → State → Strand → (GReg → Word) → Prop)
    (r : State → State → Strand → (GReg → Word) → State) (extra : List GReg := []) : Prop :=
  ∀ (s s1 : State) (t : Strand) (got : List (GReg × Word)), s.issued i extra = some (t, s1, got) →
    p s s1 t.settled (popVal t got) → Machine.exec i s = .next (r s s1 t.settled (popVal t got))

end Sys2Proof

namespace Sys2Proof.Machine

/-! ### Results in the spec's words (R57, R81 to R83, R86) -/

/-- wrap(n, s64): the low 64 bits of an integer. -/
def wrap64 (n : Int) : Word := BitVec.ofInt 64 n

/-- sext(n[31:0], 32): the low 32 bits of an integer, sign-extended. -/
def wrap32 (n : Int) : Word := (BitVec.ofInt 32 n).signExtend 64

/-- The low 32 bits as a signed and as an unsigned number. -/
def low32s (a : Word) : Int := (a.setWidth 32).toInt
def low32u (a : Word) : Nat := a.toNat % 2 ^ 32

/-- What gD receives from a form of the groups ALU, MULDIV without the divisions, BITS, the immediate forms and ID, as the
tables of R81, R82, R83 and R86 have it: the register, and its value from the state, the strand and the registers read. -/
def scalarResult (i : Instr) : Option (GReg × (State → Strand → (GReg → Word) → Word)) :=
  match i with
  | .add d a b => some (d, fun _ _ g => wrap64 ((g a).toInt + (g b).toInt))
  | .sub d a b => some (d, fun _ _ g => wrap64 ((g a).toInt - (g b).toInt))
  | .and d a b => some (d, fun _ _ g => g a &&& g b)
  | .or d a b => some (d, fun _ _ g => g a ||| g b)
  | .xor d a b => some (d, fun _ _ g => g a ^^^ g b)
  | .andn d a b => some (d, fun _ _ g => g a &&& ~~~ g b)
  | .shl d a b => some (d, fun _ _ g => BitVec.ofNat 64 ((g a).toNat * 2 ^ ((g b).toNat % 64)))
  | .shr d a b => some (d, fun _ _ g => BitVec.ofNat 64 ((g a).toNat / 2 ^ ((g b).toNat % 64)))
  | .sra d a b => some (d, fun _ _ g => wrap64 ((g a).toInt / 2 ^ ((g b).toNat % 64)))
  | .slt d a b => some (d, fun _ _ g => if (g a).toInt < (g b).toInt then 1 else 0)
  | .sltu d a b => some (d, fun _ _ g => if (g a).toNat < (g b).toNat then 1 else 0)
  | .min d a b => some (d, fun _ _ g => if (g a).toInt ≤ (g b).toInt then g a else g b)
  | .max d a b => some (d, fun _ _ g => if (g a).toInt ≤ (g b).toInt then g b else g a)
  | .minu d a b => some (d, fun _ _ g => if (g a).toNat ≤ (g b).toNat then g a else g b)
  | .maxu d a b => some (d, fun _ _ g => if (g a).toNat ≤ (g b).toNat then g b else g a)
  | .seq d a b => some (d, fun _ _ g => if g a = g b then 1 else 0)
  | .addw d a b => some (d, fun _ _ g => wrap32 (low32s (g a) + low32s (g b)))
  | .subw d a b => some (d, fun _ _ g => wrap32 (low32s (g a) - low32s (g b)))
  | .shlw d a b => some (d, fun _ _ g => wrap32 (low32u (g a) * 2 ^ ((g b).toNat % 32)))
  | .shrw d a b => some (d, fun _ _ g => wrap32 (low32u (g a) / 2 ^ ((g b).toNat % 32)))
  | .sraw d a b => some (d, fun _ _ g => wrap32 (low32s (g a) / 2 ^ ((g b).toNat % 32)))
  | .mul d a b => some (d, fun _ _ g => wrap64 ((g a).toInt * (g b).toInt))
  | .mulh d a b => some (d, fun _ _ g => wrap64 ((g a).toInt * (g b).toInt / 2 ^ 64))
  | .mulhu d a b => some (d, fun _ _ g => BitVec.ofNat 64 ((g a).toNat * (g b).toNat / 2 ^ 64))
  | .mulw d a b => some (d, fun _ _ g => wrap32 (low32s (g a) * low32s (g b)))
  | .addi d a k => some (d, fun _ _ g => wrap64 ((g a).toInt + k.toInt))
  | .andi d a k => some (d, fun _ _ g => g a &&& k.setWidth 64)
  | .ori d a k => some (d, fun _ _ g => g a ||| k.setWidth 64)
  | .xori d a k => some (d, fun _ _ g => g a ^^^ k.setWidth 64)
  | .shli d a n => some (d, fun _ _ g => BitVec.ofNat 64 ((g a).toNat * 2 ^ n.toNat))
  | .shri d a n => some (d, fun _ _ g => BitVec.ofNat 64 ((g a).toNat / 2 ^ n.toNat))
  | .srai d a n => some (d, fun _ _ g => wrap64 ((g a).toInt / 2 ^ n.toNat))
  | .slti d a k => some (d, fun _ _ g => if (g a).toInt < k.toInt then 1 else 0)
  | .li d k => some (d, fun _ _ _ => wrap64 k.toInt)
  | .lis d p k => some (d, fun _ _ g =>
      BitVec.ofNat 64 ((g d).toNat - (g d).toNat / 2 ^ (16 * p.toNat) % 2 ^ 16 * 2 ^ (16 * p.toNat)
        + k.toNat * 2 ^ (16 * p.toNat)))
  | .clz d a => some (d, fun _ _ g => BitVec.ofNat 64 (if g a = 0 then 64 else 63 - (g a).toNat.log2))
  | .ctz d a => some (d, fun _ _ g => BitVec.ofNat 64 (trailingZeros (g a) 64))
  | .popc d a => some (d, fun _ _ g => BitVec.ofNat 64 ((List.range 64).countP fun k => (g a).getLsbD k))
  | .bswap d a => some (d, fun _ _ g => reverseBytes (g a))
  | .bext d a b => some (d, fun _ _ g => extractField (g a) (g b))
  | .bins d a b => some (d, fun _ _ g => insertField (g d) (g a) (g b))
  | .sext d a b => some (d, fun _ _ g => sextField (g a) (g b))
  | .zext d a b => some (d, fun _ _ g => zextField (g a) (g b))
  | .widf d n => some (d, fun s t _ => widField (s.group t.group).widths t.wid n.toNat)
  | .wid d => some (d, fun _ t _ => t.wid)
  | .self d => some (d, fun s t _ =>
      -- in paired mode the partner with x ≥ 8 reads the location of the one 8 columns west (R323)
      let east := t.pair && decide (8 ≤ t.core % 16)
      let core := if east then t.core - 8 else t.core
      let slot := if east then ((t.partner.bind s.strand?).getD t).lastSlot else t.slot
      BitVec.ofNat 64 (core / 256 * 2 ^ 16 + core % 256 * 2 ^ 8 + slot)
        ||| (if t.isMig then BitVec.twoPow 64 24 else 0))
  | .cyc d => some (d, fun s _ _ => BitVec.ofNat 64 s.cycle)
  | .tick d => some (d, fun s _ _ => BitVec.ofNat 64 (s.ticks.toNat * 2 ^ 32 + s.tickTime / 693 % 2 ^ 32))
  | .grp d => some (d, fun _ t _ => t.grp)
  | _ => none

/-- What gD receives from a division (R57, R81). -/
def divisionResult (i : Instr) : Option (GReg × ((GReg → Word) → Word)) :=
  match i with
  | .div d a b => some (d, fun g => wrap64 (if g b = 0 then -1 else (g a).toInt.tdiv (g b).toInt))
  | .divu d a b => some (d, fun g => wrap64 (if g b = 0 then -1 else (g a).toNat / (g b).toNat))
  | .rem d a b => some (d, fun g => wrap64 (if g b = 0 then (g a).toInt else (g a).toInt.tmod (g b).toInt))
  | .remu d a b => some (d, fun g => wrap64 (if g b = 0 then (g a).toNat else (g a).toNat % (g b).toNat))
  | .divw d a b => some (d, fun g => wrap32 (if low32u (g b) = 0 then -1 else (low32s (g a)).tdiv (low32s (g b))))
  | .remw d a b => some (d, fun g => wrap32 (if low32u (g b) = 0 then low32s (g a) else (low32s (g a)).tmod (low32s (g b))))
  | _ => none

/-! ### Accesses in the spec's words (R84, R119, R120, R123) -/

/-- A conditional branch: its sources, its offset and when it is taken (R84). -/
def branchForm (i : Instr) : Option (GReg × GReg × BitVec 13 × (Word → Word → Bool)) :=
  match i with
  | .beq a b o => some (a, b, o, fun x y => decide (x = y))
  | .bne a b o => some (a, b, o, fun x y => decide (x ≠ y))
  | .blt a b o => some (a, b, o, fun x y => decide (x.toInt < y.toInt))
  | .bge a b o => some (a, b, o, fun x y => decide (x.toInt ≥ y.toInt))
  | .bltu a b o => some (a, b, o, fun x y => decide (x.toNat < y.toNat))
  | .bgeu a b o => some (a, b, o, fun x y => decide (x.toNat ≥ y.toNat))
  | _ => none

/-- A load into a g register (R119): gT, the handle, gX, OFF, the size in bytes, and whether it is sign-extended. -/
def loadForm (i : Instr) : Option (GReg × HReg × GReg × BitVec 9 × Nat × Bool) :=
  match i with
  | .ldb t h x _ o => some (t, h, x, o, 1, true)
  | .ldbu t h x _ o => some (t, h, x, o, 1, false)
  | .ldh t h x _ o => some (t, h, x, o, 2, true)
  | .ldhu t h x _ o => some (t, h, x, o, 2, false)
  | .ldw t h x _ o => some (t, h, x, o, 4, true)
  | .ldwu t h x _ o => some (t, h, x, o, 4, false)
  | .ldd t h x _ o => some (t, h, x, o, 8, false)
  | _ => none

/-- A store from a g register (R119). -/
def storeForm (i : Instr) : Option (GReg × HReg × GReg × BitVec 9 × Nat) :=
  match i with
  | .stb t h x _ o => some (t, h, x, o, 1)
  | .sth t h x _ o => some (t, h, x, o, 2)
  | .stw t h x _ o => some (t, h, x, o, 4)
  | .std t h x _ o => some (t, h, x, o, 8)
  | _ => none

/-- An atomic (R123): its number here, its size, gT, the handle, gX, gV, the word it stores from old, g(V) and g(T), and what
gT receives. -/
def amoForm (i : Instr) :
    Option (Nat × Nat × GReg × HReg × GReg × GReg × (Word → Word → Word → Word) × (Word → Word)) :=
  match i with
  | .amoadd t h x v => some (0, 8, t, h, x, v, fun o v _ => wrap64 (o.toInt + v.toInt), fun o => o)
  | .amoand t h x v => some (1, 8, t, h, x, v, fun o v _ => o &&& v, fun o => o)
  | .amoor t h x v => some (2, 8, t, h, x, v, fun o v _ => o ||| v, fun o => o)
  | .amoxor t h x v => some (3, 8, t, h, x, v, fun o v _ => o ^^^ v, fun o => o)
  | .amomin t h x v => some (4, 8, t, h, x, v, fun o v _ => if o.toInt ≤ v.toInt then o else v, fun o => o)
  | .amomax t h x v => some (5, 8, t, h, x, v, fun o v _ => if o.toInt ≤ v.toInt then v else o, fun o => o)
  | .amominu t h x v => some (6, 8, t, h, x, v, fun o v _ => if o.toNat ≤ v.toNat then o else v, fun o => o)
  | .amomaxu t h x v => some (7, 8, t, h, x, v, fun o v _ => if o.toNat ≤ v.toNat then v else o, fun o => o)
  | .amoswap t h x v => some (8, 8, t, h, x, v, fun _ v _ => v, fun o => o)
  | .amocas t h x v => some (9, 8, t, h, x, v, fun o v c => if o = c then v else o, fun o => o)
  | .amoaddw t h x v => some (10, 4, t, h, x, v, fun o v _ => BitVec.ofNat 64 ((o.toNat + v.toNat) % 2 ^ 32),
      fun o => wrap32 (low32s o))
  | .amofaddF32 t h x v =>
    some (11, 4, t, h, x, v, fun o v _ => (addF32 (o.setWidth 32) (v.setWidth 32)).setWidth 64, fun o => o)
  | _ => none

/-- The offset of an access: g(X) + sext(OFF) × size, modulo 2^64 (R119). -/
def accessOffset (x : Word) (o : BitVec 9) (sz : Nat) : Word := wrap64 (x.toInt + o.toInt * sz)

/-- Byte `n` of a value, the lowest first. -/
def byteOf (v : Word) (n : Nat) : Byte := v.extractLsb' (8 * n) 8

/-- The word of a synchronising operation through handle `h` with offset `x` stands at `key`, and the access passes its check
(R118, R120). -/
abbrev syncWord (t : Strand) (h : HReg) (x : Word) (need : Rights) (key : Nat) : Prop :=
  accessCheck (t.regionAt h.toNat) h.toNat x 8 need .sync = none ∧ (t.regionAt h.toNat).addr x.toNat = .phys key

/-- A byte stands at a key: its address is that of a scratchpad, or translates to it on die `d` for a need, which leaves `s1`
(R115, R300). -/
abbrev State.reaches (s : State) (d : Nat) (a : Addr) (need : Acc) (key : Nat) (s1 : State) : Prop :=
  (a = .phys key ∧ s1 = s) ∨ ∃ asid va, a = .virt asid va ∧ s.translate d asid va need = .ok (key, s1)

/-- A held read can be performed: the strand's earlier accesses are performed, it is not in paired mode, the word's core is not
sealed, its package has a link, and the word is not poisoned (R314, R319, R323, R336). -/
abbrev State.holdEnds (s : State) (t : Strand) (key : Nat) : Prop :=
  t.pair = false ∧ t.ops = [] ∧ s.sealedAt (.phys key) = none ∧ s.pkgUp (keyPkg key) = true ∧ s.poisoned key 8 = false

/-- A vector form whose operands are v registers alone (R92): it takes a sequencer place with nothing captured. -/
def vregForm (i : Instr) : Bool :=
  match i with
  | .ldv .. | .stv .. | .ksend .. | .vbcast .. | .vins .. | .vext .. => false
  | _ => isVector i

/-- The integer that a lane of an integer type holds (R91). -/
def laneValue (y : Ty) (m : Nat) : Int := if y.isSint then (BitVec.ofNat y.width m).toInt else m

/-- wrap(n, y): the low bits of an integer, as a lane (R40). -/
def laneWrap (y : Ty) (n : Int) : Nat := (n % 2 ^ y.width).toNat

/-- sat(n, y): the nearest value of the type, as a lane (R40). -/
def laneSat (y : Ty) (n : Int) : Nat :=
  if y.isSint then laneWrap y (max (-2 ^ (y.width - 1)) (min (2 ^ (y.width - 1) - 1) n))
  else (max 0 (min (2 ^ y.width - 1) n)).toNat

/-- The order of float encodings that are no NaN (R103, R108): −∞, negative values, −0, +0, positive values, +∞. -/
def floatKey (f : FFmt) (m : Nat) : Int := if f.neg m then -(f.mag m : Int) - 1 else f.mag m

/-- The fixed tree of a reduction over 2^n places from `k` on (R107). -/
def pairTree (f : Nat → Nat → Nat) (v : Nat → Nat) : Nat → Nat → Nat
  | 0, k => v k
  | n + 1, k => f (pairTree f v n k) (pairTree f v n (k + 2 ^ n))

/-- A held skein instruction reads bytes `b` through its handle on an access of its strand, and a link leads there (R293, R336). -/
abbrev State.skeinReads (s s1 : State) (t : Strand) (h : HReg) (o n : Nat) (b : List Byte) : Prop :=
  s.allUp (dieOf t.core) (t.regionAt h.toNat) o n accR = true ∧
    s.readSpan (dieOf t.core) (t.regionAt h.toNat) o n = .ok (b, s1)

/-- As `skeinReads`, for a write of bytes `b` at an address. -/
abbrev State.skeinWrites (s s1 : State) (t : Strand) (va : Nat) (b : List Byte) : Prop :=
  s.virtUp (dieOf t.core) t.asid va b.length accW = true ∧ s.writeVirt (dieOf t.core) t.asid va b = .ok s1

/-- A skein instruction that reads its header can: its region passes the check, the strand's earlier accesses are performed, it is
not in paired mode, and the 64 bytes of the header are `b` (R281). -/
abbrev State.skeinHeader (s s1 : State) (t : Strand) (h : HReg) (x : Word) (b : List Byte) : Prop :=
  skeinCheck (t.regionAt h.toNat) h.toNat x 64 (rR ||| rW ||| rS) = none ∧ t.pair = false ∧ t.ops = [] ∧
    s.skeinReads s1 t h x.toNat 64 b

/-- As `skeinHeader`, for `resume` of a skein of the strand's own ASID with the right RES, once the copies recorded for it that
have ended are resolved (R286, R287). -/
abbrev State.resumeHeader (s s1 : State) (t : Strand) (h : HReg) (x : Word) (b : List Byte) : Prop :=
  ∃ s0, s.resolveEnded ((t.regionAt h.toNat).base + x.toNat) t.asid = .ok s0 ∧ s0.skeinHeader s1 t h x b

/-- As `skeinHeader`, for `sclone` from its start, with a destination offset that lies at a header's alignment (R290). -/
abbrev State.cloneHeader (s s1 : State) (t : Strand) (h : HReg) (x : Word) (d : Nat) (b : List Byte) : Prop :=
  s.skeinHeader s1 t h x b ∧ ((t.regionAt h.toNat).base + d) % 64 = 0 ∧ t.clone = none

/-- `n` bytes at a key as one number, the lowest first. -/
def State.valueAt (s : State) (key n : Nat) : Word := BitVec.ofNat 64 (s.readNat key n)

end Sys2Proof.Machine
end

