-- ==== Sys2Proof/Certificates/Slice0/Obligations.lean ====
section
/-! DEFINITION. The statements for the provers. Where a statement has several parts, each part is a `Claims` definition. -/

open Sys2Proof Sys2Proof.Machine

/-! ## Decoding, encoding and the step -/

/-- R26: the words 0x0000_0000 and 0xFFFF_FFFF are not instructions, the first under major opcode 0x00 and the second under the
reserved major opcode 0x3F, and executing either raises ILLEGAL with the word. Words that the spec writes out decode to the
instructions that it gives for them, and the other words that it calls illegal are refused, each for its own reason. -/
def Obligations.DecodeWords : Prop :=
  (∀ x ∈ ([(0x198D4003, .shri 12 13 3), (0x25821234, .lis 12 2 0x1234), (0x31801FFD, .beq 12 0 0x1FFD),
      (0x08000000, .addi 0 0 0), (0x04A63801, .sub 5 6 7), (0x298D7002, .mulhu 12 13 14), (0x2D8D7004, .bext 12 13 14),
      (0x37E00010, .jal 31 16), (0x381F0000, .jalr 0 31 0), (0x3D820000, .widf 12 2), (0x918D7000, .qbind 12 13 14),
      (0x80804080, .vadd 2 0 1 .s32), (0x80C492C3, .vfma 3 1 2 4 .f32), (0x855ACE00, .vcvt 5 6 .f32 3 .e4m3),
      (0x8B0C0882, .vext 12 3 2 .s32), (0x88048090, .ksend 1 2 .s32), (0x8C000001, .vsync), (0x8D800002, .vstat 12),
      (0x5C616802, .ldv 3 1 13 0 2), (0x59816A00, .ldd 12 1 13 1 0), (0x51846802, .ldw 12 4 13 0 2),
      (0x60A101FF, .stb 5 1 0 0 511), (0x75E26803, .stf 15 2 13), (0x79846B80, .amoadd 12 4 13 14),
      (0x7E846000, .hsub 20 4 6), (0x97FFC3FC, .wait 15 15 15 0 15 15), (0x99020800, .xfence 16 8 1),
      (0x9D8D7000, .spawn 12 13 14), (0x9DA00005, .tqpush 13 0), (0x9D8D7004, .migrate 12 13 14),
      (0xA18D7100, .bset 12 13 14 2), (0xA5C40000, .susp 14 4 0), (0xA9A40000, .launch 13 4 0), (0xA8000001, .trig),
      (0xAC020001, .cpgo 1), (0xAC006810, .ewr .cp 13 8), (0xAC010218, .erd .cp 8 12), (0xAC444A80, .mm 9 10 0 0),
      (0xAC820000, .walk 0), (0xACC4001E, .dstat 15 0), (0xAD00680A, .ewr .pl 13 5), (0xC1800002, .sysrd 12 2),
      (0xC00C1001, .syswr 12 1), (0xC0002005, .trap 5), (0xC0003000, .eret), (0xC0005000, .idle)] :
      List (BitVec 32 × Instr)), decode x.1 = .ok x.2) ∧
    decode 0 = .error .major ∧ decode 0xFFFFFFFF = .error .major ∧ decode 0x198DC003 = .error .minor ∧
    decode 0x98000800 = .error .operand ∧ decode 0xAC020000 = .ok (.cpgo 0) ∧
    ∀ w ∈ ([0, 0xFFFFFFFF] : List (BitVec 32)),
      instrOf w = .illegalWord w ∧ (Instr.illegalWord w).runs (fun _ _ _ _ => True) (fun s _ t _ => s.trap s.cur t .illegal (w.setWidth 64))

/-- R27 to R37: for every instruction and every value of its operands that the formats admit, the decoder reads the encoder's word
back as that instruction, with every operand; and it reads no other instruction's limits into it. The word that is no
instruction (R26) is no instruction's word. -/
def Obligations.RoundTrip : Prop :=
  ∀ (i : Instr) (w : BitVec 32), i.wf = true → (∀ v, i ≠ .illegalWord v) → encode i = some w → decode w = .ok i

/-- R25, R60, R61, R228, R335, R336: an issue turn of a core in Run runs the instruction that the word at the PC of the first
candidate decodes to: the step is `exec` of it with that strand in focus, after which the strand's last issue is this cycle and the
pointers of its class and of the core stand at its slot. The word is the four bytes at the translation of the PC, the lowest first; a
word that is no instruction is ILLEGAL; a candidate that stays as it was, or whose word lies in a package without a link, gives way to
the next one; with no candidate, not in Run, or where the core has issued in this cycle, nothing issues. Time does not pass while a
core can still issue. -/
def Sys2Proof.Claims.StepRuns : Prop :=
  ∀ (s : State) (c k sid : Nat) (t : Strand) (rest : List Move) (more : List (Nat × Nat × Strand)),
    s.agenda = .issue c :: rest →
    (s.power ≠ .run ∨ (s.core c).issuedAt = some s.cycle → step s = .next { s with agenda := rest }) ∧
    (s.power = .run → (s.die (dieOf c)).throttled = false → (s.core c).issuedAt ≠ some s.cycle →
      (({ s with agenda := rest } : State).candidates c = [] → step s = .next { s with agenda := rest }) ∧
      (({ s with agenda := rest } : State).candidates c = (k, sid, t) :: more →
        ∀ (w : BitVec 32) (s1 : State), ({ s with agenda := rest } : State).fetchAt t t.pc = .word w s1 →
          (∀ (i : Instr) (s2 : State), (decode w = .ok i ∨ (∃ e, decode w = .error e) ∧ i = .illegalWord w) →
            exec i { s1 with cur := sid } = .next s2 →
            (s2.strand? sid ≠ some t ∨ (isJump i = true ∧ t.stalls i = false) →
              step s = .next ((s2.modStrand sid fun u => { u with lastIssue := some s.cycle }).modCore c fun x => { x with
                issuedAt := some s.cycle, last := vset x.last t.cls.toNat (BitVec.ofNat 3 k), lastAny := BitVec.ofNat 3 k })) ∧
            (s2.strand? sid = some t → isJump i = false ∨ t.stalls i = true →
              step s = ({ s with agenda := rest } : State).tryIssue c more)) ∧
          (∀ (i : Instr) (e : Fault), decode w = .ok i → exec i { s1 with cur := sid } = .fault e → step s = .fault e)) ∧
      (({ s with agenda := rest } : State).candidates c = (k, sid, t) :: more →
        ({ s with agenda := rest } : State).fetchAt t t.pc = .away → step s = ({ s with agenda := rest } : State).tryIssue c more)) ∧
    (∀ (s0 : State) (dt : Nat), s0.agenda = .pass dt :: rest →
      (∀ b, ({ s0 with agenda := rest } : State).dueCore = some b → step s0 = s0.issueTurn b) ∧
      (({ s0 with agenda := rest } : State).dueCore = none → dt ≤ 1 ∨ s0.anyRun = false →
        step s0 = .next (({ s0 with agenda := rest } : State).pass dt))) ∧
    (∀ (key : Nat) (s1 : State), t.imgsz = 0 ∨ (t.pc - t.image).toNat < t.imgsz.toNat →
      s.translate (dieOf t.core) t.asid t.pc.toNat accX = .ok (key, s1) → s1.pkgUp (keyPkg key) = true →
      s1.poisoned key 4 = false → s.fetchAt t t.pc = .word (BitVec.ofNat 32 (s1.readNat key 4)) s1)

/-- R60, R71: who may issue in a turn of a core: a strand of a LIVE slot that is RUN, that takes no TIMER first, and whose last
issue lies six cycles or more back; and, where WC is 0, only one of the class of the turn's entry. -/
def Sys2Proof.Claims.Candidates : Prop :=
  ∀ (s : State) (c k sid : Nat) (t : Strand), (k, sid, t) ∈ s.candidates c ↔
    (k < 8 ∧ vget (s.core c).slots k .free = .live sid ∧ s.strand? sid = some t ∧ t.st = .run ∧ t.timerReady = false ∧
      t.ready ≤ s.cycle ∧
      (∀ n, t.lastIssue = some n → n + 6 ≤ s.cycle) ∧
      ((s.core c).wc = true ∨ t.cls.toNat = (s.core c).turnClass s.cycle))

/-- A step of an issue turn runs the instruction at the PC of the first candidate, R60 says who is one, and time waits while a core
can issue. The reading of log entry 45 is the model's own. -/
def Obligations.StepRuns : Prop :=
  Claims.StepRuns ∧ Claims.Candidates

/-- R37, R62, R306: the machine always goes on. Every instruction of a strand that exists, whatever its operands hold, and every event
answers a next state: a trap, a halt, a park or a stall is one. No step ends in a fault or a refusal. The reading of log entry 1 is
the model's own. -/
def Obligations.NeverStops : Prop :=
  (∀ (i : Instr) (s : State), (s.strand? s.cur).isSome ∨ isEvent i = true → ∃ t, exec i s = .next t) ∧
    ∀ s : State, ∃ t, step s = .next t

/-! ## The form of the state -/

/-- R298, R334: whatever happens, the state keeps its canonical form: in memory the keys rise strictly and no entry equals what an
unlisted key reads as, so that two memories that read alike are the same data; and each strand has one entry. -/
def Obligations.StateStaysCanonical : Prop :=
  ∀ s s' : State, s.canonical → step s = .next s' → s'.canonical

/-! ## Reset -/

/-- R60, R61, R86, R235, R243, R264, R314, R325, R334, R340: right after the wipe of a reset nothing is listed in memory, no word is
full or poisoned, nothing is placed, no launch waits, the tick count is 0 and TICKP is 33,333,333. The package is Wiped, at step 0, in
OPEN and number 0; its window, tenants, regions and links are 0; MR0 and MR1 hold what R340 measures, MR2 and MR3 are 0, the
firmware's verification is that of R340, and no identity key is derived (log entries 3, 6 and 7). Every core has the slot table of
R60, with WC = 1, PARKSWAP 0 and the last pointers at slot 7, eight free slots, and nothing queued or held; every cluster's bank and
ring registers, and every die's tables, counters and engines, are empty or 0. -/
def Sys2Proof.Claims.ResetState : Prop :=
  State.reset.mem = [] ∧ State.reset.full = [] ∧ State.reset.poison = [] ∧ State.reset.strands = [] ∧
    State.reset.groups = [] ∧ State.reset.launches = [] ∧ State.reset.ticks = 0 ∧ State.reset.tickp = 33333333 ∧
    (State.reset.power = .wiped ∧ State.reset.step = 0 ∧ State.reset.life = 0 ∧ State.reset.pkg = 0 ∧
      (∀ i, i < 32 → vget State.reset.route i 1 = 0) ∧ State.reset.sysdesc = 0 ∧ State.reset.tentab = 0 ∧ State.reset.asidtab = 0 ∧
      State.reset.tenants = [] ∧ State.reset.regions = [] ∧ State.reset.pltab = [] ∧ State.reset.queues = [] ∧
      State.reset.waitHdrs = [] ∧ State.reset.replays = [] ∧ State.reset.cycle = 0 ∧ State.reset.plWin = 1 ∧
      (∀ p, p < 4 → vget State.reset.rr p 1 = 0) ∧ State.reset.stalls = []) ∧
    (State.reset.fwOk = firmwareHolds ∧ State.reset.identity = none ∧ vget State.reset.mr 0 0 = extendMr 0 fwImage ∧
      vget State.reset.mr 1 0 = extendMr 0 Config.mgmtConfig ∧ vget State.reset.mr 2 1 = 0 ∧ vget State.reset.mr 3 1 = 0) ∧
    (∀ c e, e < 64 → (State.reset.core c).wc = true ∧ (State.reset.core c).turnClass e = e % 4) ∧
    (∀ c k, k < 8 → vget (State.reset.core c).slots k (.live 0) = .free ∧
      vget (State.reset.core c).ports k { owner := some 0 } = {} ∧ vget (State.reset.core c).bfmt k 1 = 0) ∧
    (∀ c k, k < 4 → vget (State.reset.core c).last k 0 = 7 ∧ vget (State.reset.core c).bars k { ph := 1 } = {} ∧
      vget (State.reset.core c).chans k { tok := 1 } = {}) ∧
    (∀ c, (State.reset.core c).parkswap = 0 ∧ (State.reset.core c).lastAny = 7 ∧ (State.reset.core c).ctxbase = 0 ∧
      (State.reset.core c).ctxn = 0 ∧ (State.reset.core c).issuedAt = none ∧ (State.reset.core c).cache = [] ∧
      (State.reset.core c).ctxUsed = [] ∧ (State.reset.core c).swapReq = [] ∧ (State.reset.core c).copyq = [] ∧
      (State.reset.core c).opslots = [] ∧ (State.reset.core c).mxq = [] ∧ (State.reset.core c).table = none ∧
      (State.reset.core c).ncache = [] ∧ (State.reset.core c).errCnt = 0 ∧ (State.reset.core c).sealed = false ∧
      ∀ p, p < 2 → (vget (State.reset.core c).accs p { err := true }).err = false ∧
        (vget (State.reset.core c).accs p { err := true }).el = []) ∧
    (∀ c, (State.reset.cluster c).bank = [] ∧ (State.reset.cluster c).qring = 0 ∧ (State.reset.cluster c).qrlim = 0 ∧
      (State.reset.cluster c).spill = .idle ∧ (State.reset.cluster c).nextSeq = 0 ∧ (State.reset.cluster c).stalled = []) ∧
    (∀ d, (State.reset.die d).frecs = [] ∧ (State.reset.die d).tlb = [] ∧ (State.reset.die d).wcache = [] ∧
      (State.reset.die d).ovr = [] ∧ (State.reset.die d).xtab = 0 ∧ (State.reset.die d).gown = 0 ∧ (State.reset.die d).gate = none ∧
      (State.reset.die d).hintdrop = 0 ∧ (∀ k, k < 12 → vget (State.reset.die d).errs k 1 = 0) ∧ (State.reset.die d).lists = [] ∧
      (State.reset.die d).dxq = [] ∧ (State.reset.die d).merges = [] ∧ (State.reset.die d).clq = [] ∧ (State.reset.die d).colls = [] ∧
      (State.reset.die d).ctrs = [] ∧ (State.reset.die d).parked = false ∧ (State.reset.die d).victim = false ∧
      (State.reset.die d).throttled = false ∧ (State.reset.die d).power = 0 ∧ (State.reset.die d).flits = 0)

/-- The reset state is in its canonical form: memory with nothing listed, and no strand. -/
def Sys2Proof.Claims.ResetCanonical : Prop := State.reset.canonical

/-- What reset leaves of the package, its dies, clusters and cores, and that it is in canonical form. The readings of log entries 1,
3, 6, 7 and 13 are the model's own. -/
def Obligations.ResetState : Prop :=
  Claims.ResetState ∧ Claims.ResetCanonical

/-! ## Decoding, encoding and the step -/

/-- R60 to R62, R80, R84, R88, R119, R129: what an integer form, a branch, a jump, a load or a store changes when it issues: the
strand's PC, its destination register, what is pending and outstanding of it, and, if it traps, the registers of R70. No other g
register, no v register, no handle, no staged register, no status bit and no system register of the strand changes, and no byte
of memory and no full/empty bit. A register that is bound to a port may change the core's ports and wake strands that are parked
on them; with none bound, every other strand and every core stays as it is. The reading of log entry 16 is the model's own. -/
def Obligations.IssueFrame : Prop :=
  ∀ (i : Instr) (s s' : State) (t : Strand),
    ((scalarResult i).isSome || (divisionResult i).isSome || (branchForm i).isSome || (loadForm i).isSome ||
      (storeForm i).isSome || (match i with | .jal .. | .jalr .. => true | _ => false)) = true →
    s.canonical → s.strand? s.cur = some t → t.halts = false → t.pair = false → s.poison = [] → exec i s = .next s' →
    s'.mem = s.mem ∧ s'.full = s.full ∧
      s' = { s with strands := s'.strands, cores := s'.cores, serial := s'.serial } ∧
      ((∀ r, t.bound? r = none) → s'.cores = s.cores ∧ ∀ j, j ≠ s.cur → s'.strand? j = s.strand? j) ∧
      ∃ u, s'.strand? s.cur = some u ∧ (∀ r, r ∉ writesOf i → u.g r = t.g r ∧ u.pend.getLsbD r.toNat = t.pend.getLsbD r.toNat) ∧
        u = { t with
          pc := u.pc, gr := u.gr, pend := u.pend, outst := u.outst, ops := u.ops, rets := u.rets, st := u.st
          parkedAt := u.parkedAt, claim := u.claim, th := u.th, tpc := u.tpc, tcause := u.tcause, tval := u.tval } ∧
        (u.th = t.th → u.tpc = t.tpc ∧ u.tcause = t.tcause ∧ u.tval = t.tval) ∧
        (u.th ≠ t.th → u.pc = t.tvec ∧ u.tpc = t.pc ∧ u.gr = t.gr)

/-! ## Results in g registers -/

/-- R28, R80: a result of an unbound register is written before the next issue, and the strand goes on at PC + 4. A write to g0
is discarded. Every other register of the strand, every other strand and all of memory stay as they are. -/
def Sys2Proof.Claims.ResultWritten : Prop :=
  ∀ (s : State) (sid : Nat) (t : Strand) (d : GReg) (v : Word), t.bound? d = none →
    ∃ u, (s.finish sid t d v).strand? sid = some u ∧
      u = { t with pc := t.pc + 4, gr := u.gr } ∧
      (d ≠ 0 → u.g d = v) ∧ (∀ r, r ≠ d → u.g r = t.g r) ∧ u.g 0 = 0 ∧
      (∀ j, j ≠ sid → (s.finish sid t d v).strand? j = s.strand? j) ∧
      s.finish sid t d v = { s with strands := (s.finish sid t d v).strands }

/-- R88, R89: a result of a register that is bound to a queue port enters the port behind its other entries, the register itself
stays as it is, and the strand goes on at PC + 4. A popper parked on the port that a head value may serve is woken: the oldest of those
in slots, and each `qpeek`. Every other strand is as before, or was parked on that port and is woken; no other port, no other core, and
nothing else of the machine changes. -/
def Sys2Proof.Claims.ResultPushed : Prop :=
  ∀ (s : State) (sid : Nat) (t : Strand) (d : GReg) (v : Word) (p : Nat), Tab.wf s.strands = true →
    t.bound? d = some p → p < 8 → t.st = .run →
    (vget ((s.finish sid t d v).core t.homeCore).ports p {}).vals = (s.port t p).vals ++ [{ val := some v, tag := 0 }] ∧
      (s.finish sid t d v).strand? sid = some { t with pc := t.pc + 4 } ∧
      (∀ j u, j ≠ sid → s.strand? j = some u → u.st = .parked (.pop p) → u.homeCore = t.homeCore → u.place?.isSome →
        ((s.port t p).vals.head?.all fun e => e.val.isSome) = true →
        (u.claim = some (.pop p) → ∀ k w, k ≠ j → s.strand? k = some w → w.st = .parked (.pop p) → w.homeCore = t.homeCore →
          w.place?.isSome → w.claim = some (.pop p) → u.parkedAt < w.parkedAt ∨ (u.parkedAt = w.parkedAt ∧ j < k)) →
        (s.finish sid t d v).strand? j = some { u with st := .run, ready := s.cycle + 1 }) ∧
      (∀ j, j ≠ sid → (s.finish sid t d v).strand? j = s.strand? j ∨ ∃ u on, on ∈ [ParkOn.pop p, .push p] ∧
        s.strand? j = some u ∧ u.st = .parked on ∧ u.homeCore = t.homeCore ∧
        (s.finish sid t d v).strand? j = some (u.wakeAt (s.cycle + 1))) ∧
      (∀ q, q ≠ p → vget ((s.finish sid t d v).core t.homeCore).ports q {} = vget (s.core t.homeCore).ports q {}) ∧
      (s.finish sid t d v).core t.homeCore = { s.core t.homeCore with
        ports := ((s.finish sid t d v).core t.homeCore).ports, portTime := s.cycle } ∧
      (∀ c, c ≠ t.homeCore → (s.finish sid t d v).core c = s.core c) ∧
      s.finish sid t d v = { s with strands := (s.finish sid t d v).strands, cores := (s.finish sid t d v).cores }

/-- R88, R89: a register bound to a port is popped once for an instruction, however many fields name it; the popped value is the
port's oldest one, and it has left the port. Every strand is as before, or was parked on that port and is woken; no other port, no
other core, and nothing else of the machine changes. -/
def Sys2Proof.Claims.PopOnce : Prop :=
  ∀ (s : State) (sid : Nat) (t : Strand) (r : GReg) (p : Nat) (v : Word) (tag : Nat) (rest : List PortEntry),
    Tab.wf s.strands = true → t.bound? r = some p → p < 8 → (s.port t p).vals = ⟨some v, tag⟩ :: rest → s.olderClaim sid t (.pop p) = false →
    ∃ s1, s.popAll sid t [r, r] [] = .ok (s1, [(r, v)]) ∧ (s1.port t p).vals = rest ∧
      (∀ j, s1.strand? j = s.strand? j ∨ ∃ u on, on ∈ [ParkOn.pop p, .push p] ∧ s.strand? j = some u ∧ u.st = .parked on ∧
        u.homeCore = t.homeCore ∧ s1.strand? j = some (u.wakeAt (s.cycle + 1))) ∧
      (∀ q, q ≠ p → s1.port t q = s.port t q) ∧
      s1.core t.homeCore = { s.core t.homeCore with ports := (s1.core t.homeCore).ports, portTime := s.cycle } ∧
      (∀ c, c ≠ t.homeCore → s1.core c = s.core c) ∧ s1 = { s with strands := s1.strands, cores := s1.cores }

/-- A result is written to its register or enters its port, a bound register is popped once, and nothing else changes. The readings of
log entries 16, 17 and 59 are the model's own. -/
def Obligations.ResultsAndPorts : Prop :=
  Claims.ResultWritten ∧ Claims.ResultPushed ∧ Claims.PopOnce

/-- R81 to R83, R86: every form of the groups ALU, MULDIV without the divisions, BITS, the immediate forms and ID issues and
gives gD the value of its table; both sources are read before gD is written. -/
def Sys2Proof.Claims.ScalarResults : Prop :=
  ∀ (i : Instr) (s s1 : State) (t : Strand) (got : List (GReg × Word)) (d : GReg)
    (f : State → Strand → (GReg → Word) → Word),
    scalarResult i = some (d, f) → s.issued i = some (t, s1, got) →
    exec i s = .next (s1.finish s.cur t.settled d (f s1 t (popVal t got)))

/-- R57, R80, R81: a division issues at once, gD waits for its result, and the result that is on its way is the quotient or the
remainder of R57; no division traps. -/
def Sys2Proof.Claims.DivisionIssues : Prop :=
  ∀ (i : Instr) (s s1 : State) (t : Strand) (got : List (GReg × Word)) (d : GReg) (f : (GReg → Word) → Word),
    divisionResult i = some (d, f) → s.issued i = some (t, s1, got) →
    exec i s =
      .next ((s1.lateDest t.settled d).1.fresh.2.setStrand s.cur
        { (s1.lateDest t.settled d).2.1 with
          pc := t.pc + 4
          rets := t.rets ++ [{ kind := .divide, sn := (s1.lateDest t.settled d).1.serial,
                               dests := [((s1.lateDest t.settled d).2.2, f (popVal t got))] }] })

/-- R82: the field forms bit by bit, and the counts of `ctz` and the byte order of `bswap`. -/
def Sys2Proof.Claims.FieldForms : Prop :=
  ∀ (a b old : Word) (k : Nat), k < 64 →
    ((extractField a b).getLsbD k = (decide (k < min (b.toNat / 256 % 128) 64) && a.getLsbD (b.toNat % 64 + k))) ∧
    ((insertField old a b).getLsbD k =
      (if b.toNat % 64 ≤ k ∧ k - b.toNat % 64 < min (b.toNat / 256 % 128) 64 then a.getLsbD (k - b.toNat % 64)
       else old.getLsbD k)) ∧
    ((sextField a b).getLsbD k =
      (if b.toNat % 128 = 0 then false else if k < b.toNat % 128 then a.getLsbD k
       else a.getLsbD (b.toNat % 128 - 1))) ∧
    ((zextField a b).getLsbD k = (decide (k < b.toNat % 128) && a.getLsbD k)) ∧
    ((reverseBytes a).getLsbD k = a.getLsbD (8 * (7 - k / 8) + k % 8)) ∧
    (a ≠ 0 → a.getLsbD (trailingZeros a 64) = true ∧ ∀ j, j < trailingZeros a 64 → a.getLsbD j = false) ∧
    trailingZeros 0 64 = 64

/-- Every integer form and division issues and gives the result of its table. -/
def Obligations.ScalarResults : Prop :=
  Claims.ScalarResults ∧ Claims.DivisionIssues ∧ Claims.FieldForms

/-! ## Branches and jumps -/

/-- R84: the six branches compare g(A) with g(B), `blt` and `bge` as signed numbers, `bltu` and `bgeu` as unsigned ones; one that is
taken goes on at PC + 4 × sext(OFF, 13), one that is not at PC + 4; a branch writes no register and no memory. They are words of B
format with major opcode 0x0C and the condition in C. -/
def Obligations.Branches : Prop :=
  (∀ (i : Instr) (s s1 : State) (t : Strand) (got : List (GReg × Word)) (a b : GReg) (o : BitVec 13)
    (taken : Word → Word → Bool),
    branchForm i = some (a, b, o, taken) → s.issued i = some (t, s1, got) →
    exec i s = .next (s1.setStrand s.cur { t.settled with
      pc := if taken (popVal t got a) (popVal t got b) then wrap64 (t.pc.toInt + 4 * o.toInt) else t.pc + 4 })) ∧
  (∀ (a b : GReg) (o : BitVec 13) (i : Instr) (c : BitVec 3), (i, c) ∈ [(Instr.beq a b o, 0), (.bne a b o, 1), (.blt a b o, 2),
      (.bge a b o, 3), (.bltu a b o, 4), (.bgeu a b o, 5)] →
    encode i = some (0x0C#6 ++ a ++ b ++ c ++ o) ∧ decode (0x0C#6 ++ a ++ b ++ c ++ o) = .ok i) ∧
  decode 0x31A03FFE = .ok (.bne 13 0 0x1FFE)

/-- R85: `jal` and `jalr` give gD the address PC + 4 and go on at their target; a `jalr` whose target is not a multiple of 4
raises ALIGN with the target and leaves gD alone. -/
def Obligations.Jumps : Prop :=
  (∀ (d : GReg) (o : BitVec 21) (s s1 : State) (t : Strand) (got : List (GReg × Word)),
    s.issued (.jal d o) = some (t, s1, got) →
    exec (.jal d o) s =
      .next (s1.writeG s.cur { t.settled with pc := wrap64 (t.pc.toInt + 4 * o.toInt) } d (t.pc + 4))) ∧
  (∀ (d a : GReg) (k : BitVec 16) (s s1 : State) (t : Strand) (got : List (GReg × Word)),
    s.issued (.jalr d a k) = some (t, s1, got) → wrap64 ((popVal t got a).toInt + k.toInt) % 4 = 0 →
    exec (.jalr d a k) s =
      .next (s1.writeG s.cur { t.settled with pc := wrap64 ((popVal t got a).toInt + k.toInt) } d (t.pc + 4))) ∧
  (∀ (d a : GReg) (k : BitVec 16) (s s1 : State) (t : Strand) (got : List (GReg × Word)),
    s.issued (.jalr d a k) = some (t, s1, got) → wrap64 ((popVal t got a).toInt + k.toInt) % 4 ≠ 0 →
    exec (.jalr d a k) s = .next (s.trap s.cur t.settled .align (wrap64 ((popVal t got a).toInt + k.toInt))))

/-! ## Accesses through handles -/

/-- R118, R281: the checks of an access, in their order: rights, space (for a skein access, global space alone), bound, alignment; an
access that passes none of the refusals is allowed. -/
def Obligations.AccessCheck : Prop :=
  ∀ (r : Region) (h : Nat) (o : Word) (sz : Nat) (need : Rights) (k : AccKind),
    (need &&& ~~~ r.rights ≠ 0 →
      accessCheck r h o sz need k = some (.rights, BitVec.ofNat 64 ((need &&& ~~~ r.rights).toNat * 256 + h))) ∧
    (need &&& ~~~ r.rights = 0 → spaceAllows r.space k = false → accessCheck r h o sz need k = some (.space, o)) ∧
    (need &&& ~~~ r.rights = 0 → spaceAllows r.space k = true → (o.toNat ≥ 2 ^ 40 ∨ o.toNat + sz > r.bound) →
      accessCheck r h o sz need k = some (.bound, o)) ∧
    (need &&& ~~~ r.rights = 0 → spaceAllows r.space k = true → o.toNat < 2 ^ 40 → o.toNat + sz ≤ r.bound →
      sz ∈ [1, 2, 4, 8, 16] →
      accessCheck r h o sz need k = if (r.base + o.toNat) % sz = 0 then none else some (.align, o)) ∧
    (spaceAllows r.space k = false ↔
      (r.space = 4 ∧ k = .sync) ∨ (r.space = 5 ∧ k = .vec) ∨ r.space = 6 ∨ r.space = 7 ∨ (r.space ≠ 4 ∧ k = .skein))

/-- R119, R129: a load or a store whose check passes issues: it counts on LD or ST, gT waits, and the access takes its place behind
the strand's earlier ones, with the offset g(X) + sext(OFF) × size. (A load from cluster or peer space holds issue: see
`HeldReads`.) One whose check fails raises the trap of the check. -/
def Sys2Proof.Claims.LoadsAndStoresIssue : Prop :=
  (∀ (i : Instr) (s s1 : State) (t : Strand) (got : List (GReg × Word)) (g : GReg) (h : HReg) (x : GReg) (o : BitVec 9)
    (sz : Nat) (sgn : Bool), loadForm i = some (g, h, x, o, sz, sgn) → s.issued i = some (t, s1, got) →
    accessCheck (t.regionAt h.toNat) h.toNat (accessOffset (popVal t got x) o sz) sz rR .plain = none →
    (t.regionAt h.toNat).trapCapable = false →
    exec i s = .next ((s1.lateDest t.settled g).1.enqueue s.cur (s1.lateDest t.settled g).2.1 [.ld]
      (.load ((t.regionAt h.toNat).addr (accessOffset (popVal t got x) o sz).toNat) sz sgn) (s1.lateDest t.settled g).2.2)) ∧
  (∀ (i : Instr) (s s1 : State) (t : Strand) (got : List (GReg × Word)) (g : GReg) (h : HReg) (x : GReg) (o : BitVec 9)
    (sz : Nat), storeForm i = some (g, h, x, o, sz) → s.issued i = some (t, s1, got) →
    accessCheck (t.regionAt h.toNat) h.toNat (accessOffset (popVal t got x) o sz) sz rW .plain = none →
    exec i s = .next (s1.enqueue s.cur t.settled [.st]
      (.store ((t.regionAt h.toNat).addr (accessOffset (popVal t got x) o sz).toNat) sz (popVal t got g)) .drop)) ∧
  (∀ (i : Instr) (s s1 : State) (t : Strand) (got : List (GReg × Word)) (g : GReg) (h : HReg) (x : GReg) (o : BitVec 9)
    (sz : Nat) (c : Cause) (v : Word), storeForm i = some (g, h, x, o, sz) → s.issued i = some (t, s1, got) →
    accessCheck (t.regionAt h.toNat) h.toNat (accessOffset (popVal t got x) o sz) sz rW .plain = some (c, v) →
    exec i s = .next (s.trap s.cur t.settled c v)) ∧
  (∀ (i : Instr) (s s1 : State) (t : Strand) (got : List (GReg × Word)) (g : GReg) (h : HReg) (x : GReg) (o : BitVec 9)
    (sz : Nat) (sgn : Bool) (c : Cause) (v : Word), loadForm i = some (g, h, x, o, sz, sgn) → s.issued i = some (t, s1, got) →
    t.pair = false →
    accessCheck (t.regionAt h.toNat) h.toNat (accessOffset (popVal t got x) o sz) sz rR .plain = some (c, v) →
    exec i s = .next (s.trap s.cur t.settled c v))

/-- R119, R314, R317, R319: a load from cluster or peer space holds issue until the strand's earlier accesses are performed, as the
state that stays says; then it raises PEERLOST if the word's core is sealed, and reads the word at once otherwise: a poisoned one is
consumed. -/
def Sys2Proof.Claims.HeldReads : Prop :=
  ∀ (i : Instr) (s s1 : State) (t : Strand) (got : List (GReg × Word)) (g : GReg) (h : HReg) (x : GReg) (o : BitVec 9)
    (sz : Nat) (sgn : Bool) (key : Nat), loadForm i = some (g, h, x, o, sz, sgn) → s.issued i = some (t, s1, got) →
    accessCheck (t.regionAt h.toNat) h.toNat (accessOffset (popVal t got x) o sz) sz rR .plain = none →
    (t.regionAt h.toNat).trapCapable = true → t.pair = false →
    (t.regionAt h.toNat).addr (accessOffset (popVal t got x) o sz).toNat = .phys key →
    (t.ops ≠ [] → exec i s = .next s) ∧
    (∀ c, t.ops = [] → s1.sealedAt (.phys key) = some c → exec i s = .next (s.trap s.cur t.settled .peerlost (peerLostVal c))) ∧
    (t.ops = [] → s1.sealedAt (.phys key) = none → s1.pkgUp (keyPkg key) = true →
      (s1.poisoned key sz = false → exec i s = .next (s1.replyLater t.settled [.ld] g
        (if sgn then wrap64 (BitVec.ofNat (8 * sz) (s1.readNat key sz)).toInt else s1.valueAt key sz))) ∧
      (s1.poisoned key sz = true → exec i s = .next (s1.consume t.core key)))

/-- A load or store issues behind the strand’s earlier accesses; one of a cluster or peer word holds issue and reads at once. The
reading of log entry 15 is the model's own. -/
def Obligations.LoadsAndStores : Prop :=
  Claims.LoadsAndStoresIssue ∧ Claims.HeldReads

/-- R119, R129: the oldest access of a strand is performed at its word, which a global address reaches by translation. A load's value,
sign- or zero-extended, is on its way to gT, and memory stays as the translation leaves it; a store writes its low bytes and no other
byte, ends its count and leaves every full/empty bit and every other strand as it was. -/
def Sys2Proof.Claims.AccessPerformed : Prop :=
  ∀ (s s1 : State) (t : Strand) (o : CoreOp) (rest : List CoreOp) (a : Addr) (key sz : Nat), s.memWf → s.strand? s.ua = some t →
    t.ops = o :: rest → t.opFault = none → t.pair = false → sz ∈ [1, 2, 4, 8] → s.pkgUp (keyPkg key) = true →
    (∀ sgn, o.kind = .load a sz sgn → s.reaches (dieOf o.core) a accR key s1 → s1.poisoned key sz = false →
      exec .remoteAccessArrival s = .next (s1.setStrand s.ua { t with
        ops := rest
        rets := t.rets ++ [{ kind := .load, sn := o.sn, dests := [(o.dest,
          if sgn then wrap64 (BitVec.ofNat (8 * sz) (s1.readNat key sz)).toInt else s1.valueAt key sz)] }] })) ∧
    (∀ v, o.kind = .store a sz v → s.reaches (dieOf o.core) a accW key s1 → s1.sealedAt (.phys key) = none → t.st ≠ .ended →
      ∃ s', exec .remoteAccessArrival s = .next s' ∧
        (∀ b, Memory.read s'.mem b = if key ≤ b ∧ b < key + sz then byteOf v (b - key) else Memory.read s1.mem b) ∧
        s'.memWf ∧ s'.full = s.full ∧ s'.strand? s.ua = some { t.uncount o.sn with ops := rest } ∧
        ∀ j, j ≠ s.ua → s'.strand? j = s.strand? j) ∧
    ((∃ sgn, o.kind = .load a sz sgn) → (∃ asid va c, a = .virt asid va ∧ s.translate (dieOf o.core) asid va accR = .error c) →
      exec .remoteAccessArrival s = .next s)

/-- R295, R297 to R300, R302 to R304: what translates. An address of 2^56 or more faults with NOVA, and an address space without V with
NOTMAPPED. A cached entry of the home slice serves its page, a write only where D is set: its rights are checked, and nothing
changes. Otherwise the tables are walked from ROOT, or from the deepest table that the slice's walk cache names: each entry on the way
names the next table, and the last one the page, or gives its fault: NOTMAPPED without V, BADPTE for a bad form, BADPA outside the
stacked DRAM, PROT for a missing right. The key is the byte's physical address; A is set in the last entry, and D for a write, no other
byte changes, and the page is cached. -/
def Sys2Proof.Claims.Translation : Prop :=
  ∀ (s : State) (d : Nat) (asid : BitVec 12) (va : Nat) (need : Acc) (root : Nat) (gen : BitVec 8), s.memWf →
    root = bits (s.asidEntry asid) 10 42 * 1024 → gen = (s.asidEntry asid).setWidth 8 →
    (2 ^ 56 ≤ va → s.translate d asid va need = .error 5) ∧
    (va < 2 ^ 56 → (s.asidEntry asid).getLsbD 63 = false → s.translate d asid va need = .error 1) ∧
    (va < 2 ^ 56 → (s.asidEntry asid).getLsbD 63 = true →
      (∀ (l r : List TlbEntry) (e : TlbEntry), (s.die d).tlb = l ++ e :: r →
        (∀ x ∈ l, x.hits (homeSlice asid va) asid gen va need = false) → e.hits (homeSlice asid va) asid gen va need = true →
        (need &&& ~~~ e.rights ≠ 0 → s.translate d asid va need = .error 2) ∧
        (need &&& ~~~ e.rights = 0 → s.translate d asid va need = .ok (e.pa + (va - e.va), s))) ∧
      ∀ (idx T : Nat → Nat) (e : Nat → Word) (ok : Nat → Prop) (first n : Nat),
        (∀ x ∈ (s.die d).tlb, x.hits (homeSlice asid va) asid gen va need = false) →
        idx 0 = va / 2 ^ 49 % 128 → idx 1 = va / 2 ^ 38 % 2048 → idx 2 = va / 2 ^ 27 % 2048 → idx 3 = va / 2 ^ 16 % 2048 →
        (∀ p, ok p ↔ p < 2 ^ 52 ∧ p / 2 ^ 36 % 2 ^ 8 = 0 ∧ p % 2 ^ 36 < 0xC00000000) →
        (∀ l, first ≤ l → e l = s.valueAt (T l + 8 * idx l) 8 ∧ T (l + 1) = bits (e l) 10 42 * 1024) →
        walkStart (s.die d).wcache (homeSlice asid va) asid gen va root = (T first, first) → first ≤ n → n < 4 →
        (∀ l, first ≤ l → l < n → ok (T l + 8 * idx l) ∧ (e l).getLsbD 0 = true ∧ (e l).getLsbD 1 = false ∧
          bits (e l) 52 2 = 0 ∧ (l = 0 ∨ T (l + 1) % 16384 = 0)) →
        (¬ok (T n + 8 * idx n) → s.translate d asid va need = .error 4) ∧
        (ok (T n + 8 * idx n) → (e n).getLsbD 0 = false → s.translate d asid va need = .error 1) ∧
        (ok (T n + 8 * idx n) → (e n).getLsbD 0 = true → (e n).getLsbD 1 = false →
          n = 3 ∨ bits (e n) 52 2 ≠ 0 ∨ (1 ≤ n ∧ T (n + 1) % 16384 ≠ 0) → s.translate d asid va need = .error 3) ∧
        (ok (T n + 8 * idx n) → (e n).getLsbD 0 = true → (e n).getLsbD 1 = true → ∀ size,
          size = (if n = 3 then 2 ^ 16 else 2 ^ 27) →
          (n < 2 ∨ 1 < bits (e n) 52 2 ∨ T (n + 1) % size ≠ 0 → s.translate d asid va need = .error 3) ∧
          (2 ≤ n → bits (e n) 52 2 ≤ 1 → T (n + 1) % size = 0 →
            (¬ok (T (n + 1)) ∨ ¬ok (T (n + 1) + size - 1) → s.translate d asid va need = .error 4) ∧
            (ok (T (n + 1)) → ok (T (n + 1) + size - 1) →
              (need &&& ~~~ (e n).extractLsb' 3 3 ≠ 0 → s.translate d asid va need = .error 2) ∧
              (need &&& ~~~ (e n).extractLsb' 3 3 = 0 → ∀ w, w = (e n ||| 0x100 ||| if need.getLsbD 1 then 0x200 else 0) →
                ∃ s1, s.translate d asid va need = .ok (T (n + 1) + va % size, s1) ∧ s1.memWf ∧
                  (∀ b, Memory.read s1.mem b = if T n + 8 * idx n ≤ b ∧ b < T n + 8 * idx n + 8 then byteOf w (b - (T n + 8 * idx n))
                    else Memory.read s.mem b) ∧
                  s1 = { s with mem := s1.mem, poison := s1.poison, dies := s1.dies } ∧ (∀ d', d' ≠ d → s1.die d' = s.die d') ∧
                  s1.die d = { s.die d with tlb := (s1.die d).tlb, wcache := (s1.die d).wcache } ∧
                  { slice := homeSlice asid va, asid, gen, va := va / size * size, size, pa := T (n + 1)
                    rights := (e n).extractLsb' 3 3, dirty := w.getLsbD 9 } ∈ (s1.die d).tlb))))) ∧
    (∀ e : TlbEntry, e.hits (homeSlice asid va) asid gen va need = true ↔ e.slice = homeSlice asid va ∧ e.asid = asid ∧
      e.gen = gen ∧ e.va ≤ va ∧ va < e.va + e.size ∧ (e.dirty = true ∨ need.getLsbD 1 = false)) ∧
    ((∀ e ∈ (s.die d).wcache, e.hits (homeSlice asid va) asid gen va = false) →
      walkStart (s.die d).wcache (homeSlice asid va) asid gen va root = (root, 0)) ∧
    (∀ e ∈ (s.die d).wcache, e.hits (homeSlice asid va) asid gen va = true → e.lvl < 3 →
      ∃ x ∈ (s.die d).wcache, x.hits (homeSlice asid va) asid gen va = true ∧ e.lvl ≤ x.lvl ∧ x.lvl < 3 ∧
        walkStart (s.die d).wcache (homeSlice asid va) asid gen va root = (x.table, x.lvl + 1)) ∧
    homeSlice asid va < 64 ∧ ∀ j, j < 6 → (homeSlice asid va).testBit j = (List.range 9).foldl (fun b i => xor b
      (decide (6 * i + j < 49) && xor ((va / 128).testBit (6 * i + j)) (decide (37 ≤ 6 * i + j) && asid.getLsbD (6 * i + j - 37)))) false

/-- The oldest access of a strand is performed at its word, and what a global address translates to. The reading of log entry 14 is
the model's own. -/
def Obligations.AccessPerformed : Prop :=
  Claims.AccessPerformed ∧ Claims.Translation

/-- R80, R88, R119, R138, R281: a result that is on its way arrives: its register receives it and is no longer pending, and the
operation's count ends. The same holds for each kind of result: a division, a load, a bank's reply, a launch status, a drain's
status; the status of a held skein instruction lets its strand go on, too. A result for g0 changes no register; one for a queue port
fills the entry that was reserved for it. -/
def Sys2Proof.Claims.ResultsArrive : Prop :=
  ∀ (i : Instr) (k : RetKind) (s : State) (t : Strand) (r : Ret) (d : GReg) (v : Word),
    (i, k) ∈ [(Instr.divideResult, RetKind.divide), (.loadDataReturn, .load), (.taskBankReply, .bank),
      (.launchStatus, .launch), (.drainStatusDeliver, .drain)] →
    s.strand? s.ua = some t → t.rets[s.ub]? = some r → r.kind = k → r.dests = [(.gpr d, v)] → d ≠ 0 →
    t.st ≠ .ended → (∀ w ∈ s.twins, w.west ≠ s.ua) →
    ∃ u, exec i s = .next (s.setStrand s.ua u) ∧ u.g d = v ∧ u.pend.getLsbD d.toNat = false ∧
      (∀ q, q ≠ d → u.g q = t.g q ∧ u.pend.getLsbD q.toNat = t.pend.getLsbD q.toNat) ∧
      u.rets = t.rets.eraseIdx s.ub ∧ (∀ x ∈ u.outst, x.1 ≠ r.sn) ∧
      (∀ x ∈ t.outst, x.1 ≠ r.sn → x ∈ u.outst) ∧ u.pc = t.pc ∧ u.st = t.st

/-- R28, R80, R88: a result for g0 or for a queue port. -/
def Sys2Proof.Claims.ResultsElsewhere : Prop :=
  ∀ (i : Instr) (k : RetKind) (s : State) (t : Strand) (r : Ret) (v : Word),
    (i, k) ∈ [(Instr.divideResult, RetKind.divide), (.loadDataReturn, .load), (.taskBankReply, .bank),
      (.launchStatus, .launch), (.drainStatusDeliver, .drain)] →
    s.strand? s.ua = some t → t.rets[s.ub]? = some r → r.kind = k → t.st ≠ .ended → (∀ w ∈ s.twins, w.west ≠ s.ua) →
    (r.dests = [(.drop, v)] →
      exec i s = .next (s.setStrand s.ua ({ t with rets := t.rets.eraseIdx s.ub }.uncount r.sn))) ∧
    (∀ p tag, r.dests = [(.port p tag, v)] →
      exec i s = .next (((s.setStrand s.ua { t with rets := t.rets.eraseIdx s.ub }).fillPort t.homeCore p tag v).uncount s.ua r.sn))

/-- R80, R281: the status of a skein instruction reaches the strand that it holds. -/
def Sys2Proof.Claims.SkeinStatusArrives : Prop :=
  ∀ (s : State) (t : Strand) (r : Ret) (d : GReg) (v : Word), s.strand? s.ua = some t → t.rets[s.ub]? = some r →
    r.kind = .skein → t.hold = some r.sn → r.dests = [(.gpr d, v)] → r.trap = none → d ≠ 0 → t.st ≠ .ended →
    ∃ u, exec .skeinStatusReply s = .next (s.setStrand s.ua u) ∧ u.g d = v ∧ u.pend.getLsbD d.toNat = false ∧ u.hold = none ∧
      (∀ q, q ≠ d → u.g q = t.g q ∧ u.pend.getLsbD q.toNat = t.pend.getLsbD q.toNat) ∧
      u.rets = t.rets.eraseIdx s.ub ∧ (∀ x ∈ u.outst, x.1 ≠ r.sn) ∧
      (∀ x ∈ t.outst, x.1 ≠ r.sn → x ∈ u.outst) ∧ u.pc = t.pc ∧ u.st = t.st

/-- A result that is on its way reaches its register or port and ends its operation’s count. The readings of log entries 59 and 72 are
the model's own. -/
def Obligations.ResultsArrive : Prop :=
  Claims.ResultsArrive ∧ Claims.ResultsElsewhere ∧ Claims.SkeinStatusArrives

/-! ## Synchronising operations and atomics -/

/-- R120, R121, R314, R317, R319: `stf`, `sete` and `fetest` issue without waiting, and count on ST, ST and LD; `ldf`, `ldfe` and
`stef` are performed when the bit is as they need it, and otherwise park until it changes. These, and `fetest` of a word of cluster or
peer space, hold issue until the strand's earlier accesses are performed. The word of a sealed core raises PEERLOST; a poisoned one is
consumed. -/
def Sys2Proof.Claims.SyncIssue : Prop :=
  ∀ (g x : GReg) (h : HReg) (key : Nat),
    (Instr.stf g h x).runs (fun _ _ t v => syncWord t h (v x) (rW ||| rA) key)
      (fun s s1 t v => s1.enqueue s.cur t [.st] (.fill key (v g)) .drop) ∧
    (Instr.sete h x).runs (fun _ _ t v => syncWord t h (v x) (rW ||| rA) key)
      (fun s s1 t _ => s1.enqueue s.cur t [.st] (.empty key) .drop) ∧
    (Instr.fetest g h x).runs
      (fun _ _ t v => syncWord t h (v x) (rR ||| rA) key ∧ (t.regionAt h.toNat).trapCapable = false)
      (fun s s1 t _ => (s1.lateDest t g).1.enqueue s.cur (s1.lateDest t g).2.1 [.ld] (.test key) (s1.lateDest t g).2.2) ∧
    (Instr.fetest g h x).runs
      (fun _ s1 t v => syncWord t h (v x) (rR ||| rA) key ∧ (t.regionAt h.toNat).trapCapable = true ∧ s1.holdEnds t key)
      (fun _ s1 t _ => s1.replyLater t [.ld] g (if s1.isFull key then 1 else 0)) ∧
    (Instr.fetest g h x).runs
      (fun _ _ t v => syncWord t h (v x) (rR ||| rA) key ∧ (t.regionAt h.toNat).trapCapable = true ∧ t.pair = false ∧ t.ops ≠ [])
      (fun s _ _ _ => s) ∧
    (Instr.fetest g h x).runs
      (fun _ s1 t v => syncWord t h (v x) (rR ||| rA) key ∧ (t.regionAt h.toNat).trapCapable = true ∧ t.pair = false ∧
        t.ops = [] ∧ s1.sealedAt (.phys key) = none ∧ s1.pkgUp (keyPkg key) = true ∧ s1.poisoned key 8 = true)
      (fun _ s1 t _ => s1.consume t.core key) ∧
    (∀ c, (Instr.fetest g h x).runs
      (fun _ s1 t v => syncWord t h (v x) (rR ||| rA) key ∧ (t.regionAt h.toNat).trapCapable = true ∧ t.pair = false ∧
        t.ops = [] ∧ s1.sealedAt (.phys key) = some c)
      (fun s _ t _ => s.trap s.cur t .peerlost (peerLostVal c))) ∧
    (Instr.ldf g h x).runs
      (fun _ s1 t v => syncWord t h (v x) (rR ||| rA) key ∧ s1.holdEnds t key ∧ s1.isFull key = true)
      (fun _ s1 t _ => s1.replyLater t [.ld] g (s1.valueAt key 8)) ∧
    (Instr.ldfe g h x).runs
      (fun _ s1 t v => syncWord t h (v x) (rR ||| rW ||| rA) key ∧ s1.holdEnds t key ∧ s1.isFull key = true)
      (fun _ s1 t _ => (s1.replyLater t [.ld] g (s1.valueAt key 8)).emptyWord key) ∧
    (Instr.stef g h x).runs
      (fun _ s1 t v => syncWord t h (v x) (rW ||| rA) key ∧ s1.holdEnds t key ∧ s1.isFull key = false)
      (fun s s1 t v => (s1.setStrand s.cur { t with pc := t.pc + 4 }).fillWord key (v g)) ∧
    (∀ i need full, (i, need, full) ∈ [(Instr.ldf g h x, rR ||| rA, true), (.ldfe g h x, rR ||| rW ||| rA, true),
        (.stef g h x, rW ||| rA, false)] →
      i.runs (fun _ s1 t v => syncWord t h (v x) need key ∧ s1.holdEnds t key ∧ s1.isFull key ≠ full)
        (fun s _ t _ => s.park s.cur t (.word key full)) ∧
      i.runs (fun _ s1 t v => syncWord t h (v x) need key ∧ t.pair = false ∧ t.ops = [] ∧ s1.sealedAt (.phys key) = none ∧
          s1.pkgUp (keyPkg key) = true ∧ s1.poisoned key 8 = true)
        (fun _ s1 t _ => s1.consume t.core key) ∧
      i.runs (fun _ _ t v => syncWord t h (v x) need key ∧ t.pair = false ∧ t.ops ≠ []) (fun s _ _ _ => s) ∧
      ∀ c, i.runs (fun _ s1 t v => syncWord t h (v x) need key ∧ t.pair = false ∧ t.ops = [] ∧ s1.sealedAt (.phys key) = some c)
        (fun s _ t _ => s.trap s.cur t .peerlost (peerLostVal c))) ∧
    (∀ i need c w, (i, need) ∈ [(Instr.ldf g h x, rR ||| rA), (.ldfe g h x, rR ||| rW ||| rA), (.stef g h x, rW ||| rA),
        (.stf g h x, rW ||| rA), (.sete h x, rW ||| rA), (.fetest g h x, rR ||| rA)] →
      i.runs (fun _ _ t v => t.pair = false ∧ accessCheck (t.regionAt h.toNat) h.toNat (v x) 8 need .sync = some (c, w))
        (fun s _ t _ => s.trap s.cur t c w))

/-- R120, R121: `stf` writes its word and makes it full, `sete` makes it empty; each changes one bit and no other byte. A strand
that is in a slot of the word's core and parked for that change becomes RUN; one parked elsewhere is sent a wake message. -/
def Sys2Proof.Claims.WordChanges : Prop :=
  ∀ (s : State) (key : Nat) (v : Word), s.canonical → key % 8 = 0 → s.sealedAt (.phys key) = none →
    (∀ a, Memory.read (s.fillWord key v).mem a = if key ≤ a ∧ a < key + 8 then byteOf v (a - key) else Memory.read s.mem a) ∧
    (s.emptyWord key).mem = s.mem ∧
    (s.fillWord key v).isFull key = true ∧ (s.emptyWord key).isFull key = false ∧
    (∀ k, k / 8 ≠ key / 8 → (s.fillWord key v).isFull k = s.isFull k ∧ (s.emptyWord key).isFull k = s.isFull k) ∧
    (s.isFull key = true → (s.fillWord key v).strands = s.strands) ∧
    (s.isFull key = false → (s.emptyWord key).strands = s.strands) ∧
    ∀ j t b, s.strand? j = some t → t.st = .parked (.word key b) → s.isFull key = !b →
      (keyCore? key = some t.core → t.place?.isSome →
        (if b then s.fillWord key v else s.emptyWord key).strand? j = some { t with st := .run, ready := s.cycle + 1 }) ∧
      (keyCore? key ≠ some t.core →
        (if b then s.fillWord key v else s.emptyWord key).strand? j = some { t with wakeMsg := true })

/-- R120, R129, R138, R314, R317, R318, R336: the oldest `stf`, `sete` or `fetest` of a strand is performed at its word: the first
two make it full with their word and empty, and end their count; `fetest` sends back 1 or 0 and changes no word, or consumes a
poisoned one. At a word of a sealed core `stf` and `sete` write nothing, and count one DISCARD on its die. -/
def Sys2Proof.Claims.SyncPerformed : Prop :=
  (∀ (s : State) (t u : Strand) (o : CoreOp) (rest : List CoreOp) (key : Nat) (v : Word), s.strand? s.ua = some t →
    t.ops = o :: rest → t.opFault = none → t.pair = false → s.pkgUp (keyPkg key) = true →
    (o.kind = .fill key v → (s.fillWord key v).strand? s.ua = some u → u.st ≠ .ended →
      exec .remoteAccessArrival s = .next ((s.fillWord key v).setStrand s.ua { u.uncount o.sn with ops := rest })) ∧
    (o.kind = .empty key → (s.emptyWord key).strand? s.ua = some u → u.st ≠ .ended →
      exec .remoteAccessArrival s = .next ((s.emptyWord key).setStrand s.ua { u.uncount o.sn with ops := rest })) ∧
    (o.kind = .test key → s.poisoned key 8 = false →
      exec .remoteAccessArrival s = .next (s.setStrand s.ua { t with
        ops := rest
        rets := t.rets ++ [{ kind := .load, sn := o.sn, dests := [(o.dest, if s.isFull key then 1 else 0)] }] })) ∧
    (o.kind = .test key → s.poisoned key 8 = true → exec .remoteAccessArrival s = .next (s.consume o.core key))) ∧
  ∀ (s a : State) (key c : Nat) (v : Word), s.sealedAt (.phys key) = some c → a = s.fillWord key v ∨ a = s.emptyWord key →
    (∀ b, Memory.read a.mem b = Memory.read s.mem b) ∧ (∀ k, a.isFull k = s.isFull k) ∧ a.strands = s.strands ∧
    (vget (s.die (dieOf c)).errs 11 0 ≠ BitVec.allOnes 64 →
      vget (a.die (dieOf c)).errs 11 0 = vget (s.die (dieOf c)).errs 11 0 + 1)

/-- Synchronising operations fill, empty, test or park on their word, and wake the strands parked for the change. The reading of log
entry 15 is the model's own. -/
def Obligations.SynchronisingWords : Prop :=
  Claims.SyncIssue ∧ Claims.WordChanges ∧ Claims.SyncPerformed

/-- R123, R129, R314, R317, R319: an atomic issues as a load and a store: it counts on LD and ST and takes its place behind the
strand's earlier accesses; one in cluster or peer space holds issue until they are performed, and is performed at once (log entry 15):
the word of a sealed core raises PEERLOST, and a poisoned word is consumed. -/
def Sys2Proof.Claims.AtomicsIssue : Prop :=
  ∀ (i : Instr) (op sz : Nat) (g : GReg) (h : HReg) (x v : GReg) (new : Word → Word → Word → Word) (res : Word → Word),
    amoForm i = some (op, sz, g, h, x, v, new, res) →
    i.runs (fun _ _ t r => accessCheck (t.regionAt h.toNat) h.toNat (r x) sz (rR ||| rW ||| rA) .plain = none ∧
        (t.regionAt h.toNat).trapCapable = false)
      (fun s s1 t r => (s1.lateDest t g).1.enqueue s.cur (s1.lateDest t g).2.1 [.ld, .st]
        (.amo (BitVec.ofNat 6 op) ((t.regionAt h.toNat).addr (r x).toNat) (r v) (r g)) (s1.lateDest t g).2.2) ∧
    (∀ key, i.runs (fun _ s1 t r => accessCheck (t.regionAt h.toNat) h.toNat (r x) sz (rR ||| rW ||| rA) .plain = none ∧
        (t.regionAt h.toNat).trapCapable = true ∧ (t.regionAt h.toNat).addr (r x).toNat = .phys key ∧ t.pair = false ∧ t.ops = [] ∧
        s1.sealedAt (.phys key) = none ∧ s1.pkgUp (keyPkg key) = true ∧ s1.poisoned key sz = false)
      (fun _ s1 t r => (s1.writeBytes key (bytesOfNat sz (new (s1.valueAt key sz) (r v) (r g)).toNat)).replyLater t [.ld, .st] g
        (res (s1.valueAt key sz)))) ∧
    (∀ key, i.runs (fun _ _ t r => accessCheck (t.regionAt h.toNat) h.toNat (r x) sz (rR ||| rW ||| rA) .plain = none ∧
        (t.regionAt h.toNat).trapCapable = true ∧ (t.regionAt h.toNat).addr (r x).toNat = .phys key ∧ t.pair = false ∧ t.ops ≠ [])
      (fun s _ _ _ => s)) ∧
    (∀ key c, i.runs (fun _ s1 t r => accessCheck (t.regionAt h.toNat) h.toNat (r x) sz (rR ||| rW ||| rA) .plain = none ∧
        (t.regionAt h.toNat).trapCapable = true ∧ (t.regionAt h.toNat).addr (r x).toNat = .phys key ∧ t.pair = false ∧ t.ops = [] ∧
        s1.sealedAt (.phys key) = some c)
      (fun s _ t _ => s.trap s.cur t .peerlost (peerLostVal c))) ∧
    (∀ key, i.runs (fun _ s1 t r => accessCheck (t.regionAt h.toNat) h.toNat (r x) sz (rR ||| rW ||| rA) .plain = none ∧
        (t.regionAt h.toNat).trapCapable = true ∧ (t.regionAt h.toNat).addr (r x).toNat = .phys key ∧ t.pair = false ∧ t.ops = [] ∧
        s1.sealedAt (.phys key) = none ∧ s1.pkgUp (keyPkg key) = true ∧ s1.poisoned key sz = true)
      (fun _ s1 t _ => s1.consume t.core key)) ∧
    (∀ c w, i.runs (fun _ _ t r => t.pair = false ∧
        accessCheck (t.regionAt h.toNat) h.toNat (r x) sz (rR ||| rW ||| rA) .plain = some (c, w))
      (fun s _ t _ => s.trap s.cur t c w))

/-- R123: an atomic is one read and one write of its word, which a global address reaches by translation, with nothing between them: the
old value is on its way to gT, and the word holds the operation's result; every other byte stays as the translation leaves it, and every
full/empty bit stays. -/
def Sys2Proof.Claims.AtomicPerformed : Prop :=
  ∀ (i : Instr) (op sz : Nat) (g : GReg) (h : HReg) (x v : GReg) (new : Word → Word → Word → Word) (res : Word → Word)
    (s s1 : State) (t : Strand) (o : CoreOp) (rest : List CoreOp) (a : Addr) (key : Nat) (w c : Word),
    amoForm i = some (op, sz, g, h, x, v, new, res) → s.memWf → s.strand? s.ua = some t → t.ops = o :: rest →
    t.opFault = none → t.pair = false → o.kind = .amo (BitVec.ofNat 6 op) a w c → s.reaches (dieOf o.core) a accRW key s1 →
    s.pkgUp (keyPkg key) = true → s1.poisoned key sz = false →
    ∃ s', exec .remoteAccessArrival s = .next s' ∧
      s'.strand? s.ua = some { t with
        ops := rest
        rets := t.rets ++ [{ kind := .load, sn := o.sn, dests := [(o.dest, res (s1.valueAt key sz))] }] } ∧
      (∀ b, Memory.read s'.mem b =
        if key ≤ b ∧ b < key + sz then byteOf (new (s1.valueAt key sz) w c) (b - key) else Memory.read s1.mem b) ∧
      s'.memWf ∧ s'.full = s.full ∧ ∀ j, j ≠ s.ua → s'.strand? j = s.strand? j

/-- An atomic issues as a load and a store and is one read and one write of its word. The reading of log entry 15 is the model's own. -/
def Obligations.Atomics : Prop :=
  Claims.AtomicsIssue ∧ Claims.AtomicPerformed

/-! ## Vectors -/

/-- R92, R95, R106: a vector form issues by taking a place of the strand's sequencer, behind the entries that are there; `vbcast`
and `vins` capture their scalar at issue, and `vext` makes gD wait. -/
def Sys2Proof.Claims.VectorIssue : Prop :=
  (∀ i, vregForm i = true → i.runs (fun _ _ _ _ => True)
    (fun _ s1 t _ => s1.setStrand s1.cur { t with pc := t.pc + 4, seq := t.seq ++ [.one { instr := i, pc := t.pc }] })) ∧
  (∀ i g, (∃ d y, i = Instr.vbcast d g y) ∨ (∃ d l y, i = Instr.vins d g l y) → i.runs (fun _ _ _ _ => True)
    (fun _ s1 t v => s1.setStrand s1.cur { t with
      pc := t.pc + 4, seq := t.seq ++ [.one { instr := i, pc := t.pc, scal := v (g.setWidth 5) }] })) ∧
  (∀ g a l y, (Instr.vext g a l y).runs (fun _ _ _ _ => True)
    (fun _ s1 t _ => let x := s1.lateDest t (g.setWidth 5)
      x.1.setStrand x.1.cur { x.2.1 with
        pc := x.2.1.pc + 4
        seq := x.2.1.seq ++ [.one { instr := .vext g a l y, pc := x.2.1.pc, dest := x.2.2 }] }))

/-- R92, R111, R119: `ldv`, `stv` and `ksend` are checked at issue: one that passes counts on LD or ST and takes a sequencer place
with its region and offset; one that fails its check raises the trap and takes none. -/
def Sys2Proof.Claims.SequencedAccessesIssue : Prop :=
  (∀ d h x k o, (Instr.ldv d h x k o).runs
    (fun _ _ t v => accessCheck (t.regionAt h.toNat) h.toNat (accessOffset (v x) o 16) 16 rR .vec = none)
    (fun _ s1 t v => s1.fresh.2.setStrand s1.cur { t.countOn s1.serial [.ld] with
      pc := t.pc + 4
      seq := t.seq ++ [.one { instr := .ldv d h x k o, pc := t.pc, region := t.regionAt h.toNat
                              off := accessOffset (v x) o 16, sn := s1.serial }] })) ∧
  (∀ d h x k o, (Instr.stv d h x k o).runs
    (fun _ _ t v => accessCheck (t.regionAt h.toNat) h.toNat (accessOffset (v x) o 16) 16 rW .vec = none)
    (fun _ s1 t v => s1.fresh.2.setStrand s1.cur { t.countOn s1.serial [.st] with
      pc := t.pc + 4
      seq := t.seq ++ [.one { instr := .stv d h x k o, pc := t.pc, region := t.regionAt h.toNat
                              off := accessOffset (v x) o 16, sn := s1.serial }] })) ∧
  (∀ a b y, (Instr.ksend a b y).runs (fun _ s1 t _ => ksendCheck s1 t = none)
    (fun _ s1 t _ => s1.fresh.2.setStrand s1.cur { t.countOn s1.serial [.st] with
      pc := t.pc + 4, seq := t.seq ++ [.one { instr := .ksend a b y, pc := t.pc, sn := s1.serial }] })) ∧
  (∀ d h x k o c w, (Instr.ldv d h x k o).runs
    (fun _ _ t v => accessCheck (t.regionAt h.toNat) h.toNat (accessOffset (v x) o 16) 16 rR .vec = some (c, w))
    (fun s _ t _ => s.trap s.cur t c w)) ∧
  (∀ d h x k o c w, (Instr.stv d h x k o).runs
    (fun _ _ t v => accessCheck (t.regionAt h.toNat) h.toNat (accessOffset (v x) o 16) 16 rW .vec = some (c, w))
    (fun s _ t _ => s.trap s.cur t c w)) ∧
  (∀ a b y c w, (Instr.ksend a b y).runs (fun _ s1 t _ => ksendCheck s1 t = some (c, w)) (fun s _ t _ => s.trap s.cur t c w)) ∧
  (∀ (s : State) (t : Strand), ksendCheck s t = none ↔
    t.kbins.getLsbD 63 = true ∧ bits t.kbins 32 15 ≠ 0 ∧
      0x8000 * (s.group t.group).bank0 ≤ 8 * bits t.kbins 3 15 ∧
      8 * (bits t.kbins 3 15 + bits t.kbins 32 15) ≤ 0x8000 * ((s.group t.group).bank0 + (s.group t.group).nbank))

/-- Vector forms, vector accesses and ksend take a place of the sequencer, or raise the trap of their check. The readings of log
entries 15 and 18 are the model's own. -/
def Obligations.VectorForms : Prop :=
  Claims.VectorIssue ∧ Claims.SequencedAccessesIssue

/-- R48, R92, R96, R106, R113, R119: the sequencer performs the oldest entry. A form on v registers writes vD and adds its flags to FRM;
a subnormal lane raises SUBNORMAL at the entry's own address and empties the sequencer; `vext` delivers its lane, sign-extended for s
types, to gD; `ldv` and `stv` move 16 bytes once the strand's earlier accesses are performed, and wait until then; a global address is
translated, or the entry held with its fault once the die has a place for it; `ldv` raises PEERLOST at a sealed core; `ksend` sends its
lanes, one operation each, and leaves with the last of them. -/
def Sys2Proof.Claims.SequencerPerforms : Prop :=
  ∀ (s : State) (t : Strand) (e : SeqEntry) (rest : List SeqItem), s.strand? s.ua = some t → t.seq = .one e :: rest →
    t.seqFault = none → t.taken = none →
    (∀ d q fl, vregForm e.instr = true ∨ (∃ d g y, e.instr = .vbcast d g y) ∨ (∃ d g l y, e.instr = .vins d g l y) →
      subnormalVal e.instr t = 0 → vecResult e.instr t e.scal = some (d, q, fl) →
      exec .vseqEntryPerform s = .next (s.setStrand s.ua { t.setV d q with frm := t.frm ||| fl.bits, seq := rest })) ∧
    (vregForm e.instr = true → subnormalVal e.instr t ≠ 0 →
      ∃ u, exec .vseqEntryPerform s = .next (s.trap s.ua u .subnormal (BitVec.ofNat 64 (subnormalVal e.instr t))) ∧
        u.seq = [] ∧ u.pc = e.pc ∧ u.vtrap = true ∧ u.gr = t.gr ∧ u.vr = t.vr ∧ u.frm = t.frm ∧ u.th = t.th ∧
        u.tvec = t.tvec) ∧
    (∀ g a l y, e.instr = .vext g a l y → ∀ r, e.dest = .gpr r →
      exec .vseqEntryPerform s = .next (s.setStrand s.ua { t.setG r (vextVal y (t.v a) l.toNat) with
        pend := t.pend &&& ~~~ BitVec.twoPow 32 r.toNat, seq := rest })) ∧
    (∀ y q (l : Nat), l < y.lanes → vextVal y q l = if y.isSint then wrap64 (BitVec.ofNat y.width (lane q y.width l)).toInt
      else BitVec.ofNat 64 (lane q y.width l)) ∧
    (∀ d h x k o, e.instr = .ldv d h x k o ∨ e.instr = .stv d h x k o → t.ops ≠ [] → exec .vseqEntryPerform s = .next s) ∧
    (∀ a b y, e.instr = .ksend a b y → t.ops ≠ [] → exec .vseqEntryPerform s = .next s) ∧
    (∀ d h x k o key s1, e.instr = .ldv d h x k o → t.ops = [] → s.reaches (dieOf t.core) (e.region.addr e.off.toNat) accR key s1 →
      s.sealedAt (.phys key) = none → s.pkgUp (keyPkg key) = true →
      (s1.poisoned key 16 = false → exec .vseqEntryPerform s = .next (s1.setStrand s.ua
        { (t.setV d (BitVec.ofNat 128 (s1.readNat key 16))).uncount e.sn with seq := rest })) ∧
      (s1.poisoned key 16 = true →
        exec .vseqEntryPerform s = .next ((s1.setStrand s.ua { t with taken := some e.sn }).consume t.core key))) ∧
    (∀ need asid va c, (∃ d h x k o, e.instr = .ldv d h x k o ∧ need = accR ∨ e.instr = .stv d h x k o ∧ need = accW) → t.ops = [] →
      e.region.addr e.off.toNat = .virt asid va → s.translate (dieOf t.core) asid va need = .error c →
      (s.recRoom (dieOf t.core) = false → exec .vseqEntryPerform s = .next s) ∧
      (s.recRoom (dieOf t.core) = true → ∃ s' u f, exec .vseqEntryPerform s = .next s' ∧ s'.strand? s.ua = some u ∧
        u = { t with taken := some e.sn, seqFault := some f } ∧ f.va = va ∧ f.acc = need ∧ f.cause = c ∧ f.pc = e.pc ∧
        s'.mem = s.mem)) ∧
    (∀ d h x k o key, e.instr = .ldv d h x k o → e.region.addr e.off.toNat = .phys key → t.ops = [] →
      ∀ c, s.sealedAt (.phys key) = some c →
        exec .vseqEntryPerform s = .next (s.seqTrapAt s.ua t e 0 0 .peerlost (peerLostVal c))) ∧
    (∀ d h x k o key s1, e.instr = .stv d h x k o → t.ops = [] → s.reaches (dieOf t.core) (e.region.addr e.off.toNat) accW key s1 →
      s.sealedAt (.phys key) = none → s.pkgUp (keyPkg key) = true → s.memWf →
      ∃ s', exec .vseqEntryPerform s = .next s' ∧ s'.strand? s.ua = some { t.uncount e.sn with seq := rest } ∧
        (∀ a, Memory.read s'.mem a =
          if key ≤ a ∧ a < key + 16 then (t.v d).extractLsb' (8 * (a - key)) 8 else Memory.read s1.mem a) ∧ s'.full = s.full) ∧
    (∀ a b y, e.instr = .ksend a b y → t.ops = [] → ksendLanes s t (t.v a) (t.v b) ≠ [] →
      ∃ u, exec .vseqEntryPerform s = .next (s.setStrand s.ua u) ∧ u.seq = t.seq ∧ u.taken = some e.sn ∧ u.outst = t.outst ∧
        u.ops.map (fun o => (o.sn, o.kind)) = (indexed 0 (ksendLanes s t (t.v a) (t.v b))).map fun x =>
          (e.sn, OpKind.lane x.2.1 (y == .f32) x.2.2 (decide (x.1 + 1 = (ksendLanes s t (t.v a) (t.v b)).length)))) ∧
    (∀ a b y, e.instr = .ksend a b y → t.ops = [] → ksendLanes s t (t.v a) (t.v b) = [] →
      exec .vseqEntryPerform s = .next (s.setStrand s.ua { t.uncount e.sn with seq := rest }))

/-- R102, R103, R105: on integer lanes each form gives its table's integer, lane by lane, and no flag: sums, products and shifts wrap,
the saturating forms give the nearest value, comparisons give all ones or 0; `vsel` takes a lane of vA where the lane of vC is not
0, else one of vB, on every type. -/
def Sys2Proof.Claims.IntegerLanes : Prop :=
  ∀ (d a b c : VReg) (y : Ty) (t : Strand) (x : Word) (k : Nat), k < y.lanes →
    (y.isFlt = false → ∀ i f, (i, f) ∈ [(Instr.vadd d a b y, fun m n => laneWrap y (laneValue y m + laneValue y n)),
        (.vsub d a b y, fun m n => laneWrap y (laneValue y m - laneValue y n)),
        (.vmul d a b y, fun m n => laneWrap y (laneValue y m * laneValue y n)),
        (.vmin d a b y, fun m n => if laneValue y m ≤ laneValue y n then m else n),
        (.vmax d a b y, fun m n => if laneValue y m ≤ laneValue y n then n else m),
        (.vand d a b y, fun m n => m &&& n), (.vor d a b y, fun m n => m ||| n), (.vxor d a b y, fun m n => m ^^^ n),
        (.vshl d a b y, fun m n => m * 2 ^ (n % y.width) % 2 ^ y.width),
        (.vshr d a b y, fun m n => laneWrap y (laneValue y m / 2 ^ (n % y.width))),
        (.vcmpeq d a b y, fun m n => if m = n then 2 ^ y.width - 1 else 0),
        (.vcmplt d a b y, fun m n => if laneValue y m < laneValue y n then 2 ^ y.width - 1 else 0),
        (.vcmple d a b y, fun m n => if laneValue y m ≤ laneValue y n then 2 ^ y.width - 1 else 0),
        (.vaddsat d a b y, fun m n => laneSat y (laneValue y m + laneValue y n)),
        (.vsubsat d a b y, fun m n => laneSat y (laneValue y m - laneValue y n)),
        (.vmulh d a b y, fun m n => laneWrap y (laneValue y m * laneValue y n / 2 ^ y.width)),
        (.vdiv d a b y, fun m n => if n = 0 then 2 ^ y.width - 1 else laneWrap y ((laneValue y m).tdiv (laneValue y n))),
        (.vabs d a y, fun m _ => laneWrap y (laneValue y m).natAbs), (.vneg d a y, fun m _ => laneWrap y (-laneValue y m))] →
      ∃ q, vecResult i t x = some (d, q, {}) ∧
        lane q y.width k = f (lane (t.v a) y.width k) (lane (t.v b) y.width k)) ∧
    (y.isFlt = false → ∃ q, vecResult (.vfma d a b c y) t x = some (d, q, {}) ∧
      lane q y.width k = laneWrap y (laneValue y (lane (t.v a) y.width k) * laneValue y (lane (t.v b) y.width k) +
        laneValue y (lane (t.v c) y.width k))) ∧
    (y.isFlt = false → y.isDot = true → ∃ q, vecResult (.vdot d a b c y) t x = some (d, q, {}) ∧
      ∀ j, j < 4 → lane q 32 j = laneWrap .z32 (lane (t.v c) 32 j + ((List.range (32 / y.width)).map fun n =>
        laneValue y (lane (t.v a) y.width (32 / y.width * j + n)) *
          laneValue y (lane (t.v b) y.width (32 / y.width * j + n))).sum)) ∧
    ∃ q, vecResult (.vsel d a b c y) t x = some (d, q, {}) ∧
      lane q y.width k = if lane (t.v c) y.width k = 0 then lane (t.v b) y.width k else lane (t.v a) y.width k

/-- R43, R44, R47, R50, R55, R101, R103 to R105: on float lanes every lane is the one operation of its own lanes, rounded once by
FRM.RM, and the flags are those of all lanes together. −0 equals +0; a NaN makes every comparison false, with NV but for `vcmpeq`, and
`vmin` and `vmax` the canonical NaN; `vabs` and `vneg` change the sign bit alone. `vcvt` converts its low lanes and clears what is
above. -/
def Sys2Proof.Claims.FloatLanes : Prop :=
  ∀ (d a b c : VReg) (y : Ty) (f : FFmt) (t : Strand) (x : Word) (rm : Rm), ffmt? y = some f → rm = Rm.ofFrm t.frm →
    (∀ (i : Instr) (g : Nat → Nat → Nat → Nat × FFlags), (i, g) ∈ [
        (Instr.vadd d a b y, fun m n _ => let r := fadd rm (f.value m) (f.value n); withNv (roundVal f rm false false r.1) r.2),
        (.vsub d a b y, fun m n _ =>
          let r := fadd rm (f.value m) (f.value n).negate; withNv (roundVal f rm false false r.1) r.2),
        (.vmul d a b y, fun m n _ => let r := fmul (f.value m) (f.value n); withNv (roundVal f rm false false r.1) r.2),
        (.vdiv d a b y, fun m n _ => let r := fdiv (f.value m) (f.value n); withNv (roundVal f rm false false r.1) r.2),
        (.vfma d a b c y, fun m n o => f.fma rm m n o),
        (.vmin d a b y, fun m n _ =>
          (if f.isNan m || f.isNan n then f.cnan else if floatKey f m ≤ floatKey f n then m else n, {})),
        (.vmax d a b y, fun m n _ =>
          (if f.isNan m || f.isNan n then f.cnan else if floatKey f m ≤ floatKey f n then n else m, {})),
        (.vcmpeq d a b y, fun m n _ =>
          (if f.isNan m || f.isNan n then 0 else if m = n ∨ f.mag m = 0 ∧ f.mag n = 0 then 2 ^ y.width - 1 else 0, {})),
        (.vcmplt d a b y, fun m n _ =>
          (if f.isNan m || f.isNan n then 0
           else if floatKey f m < floatKey f n ∧ ¬(f.mag m = 0 ∧ f.mag n = 0) then 2 ^ y.width - 1 else 0,
           { nv := f.isNan m || f.isNan n })),
        (.vcmple d a b y, fun m n _ =>
          (if f.isNan m || f.isNan n then 0
           else if floatKey f m ≤ floatKey f n ∨ f.mag m = 0 ∧ f.mag n = 0 then 2 ^ y.width - 1 else 0,
           { nv := f.isNan m || f.isNan n })),
        (.vabs d a y, fun m _ _ => (m % 2 ^ (y.width - 1), {})),
        (.vneg d a y, fun m _ _ => (m ^^^ 2 ^ (y.width - 1), {})),
        (.vrcp d a y, fun m _ _ => special .rcp f rm m), (.vrsqrt d a y, fun m _ _ => special .rsqrt f rm m),
        (.vsqrt d a y, fun m _ _ => special .sqrt f rm m), (.vexp2 d a y, fun m _ _ => special .exp2 f rm m),
        (.vlog2 d a y, fun m _ _ => special .log2 f rm m), (.vtanh d a y, fun m _ _ => special .tanh f rm m),
        (.vsigm d a y, fun m _ _ => special .sigm f rm m)] →
      ∃ q fl, vecResult i t x = some (d, q, fl) ∧
        ∀ r : Nat → Nat × FFlags, (∀ k, r k = g (lane (t.v a) y.width k) (lane (t.v b) y.width k) (lane (t.v c) y.width k)) →
          (∀ k, k < y.lanes → lane q y.width k = (r k).1 % 2 ^ y.width) ∧
          (fl.nv = (List.range y.lanes).any fun k => (r k).2.nv) ∧ (fl.of_ = (List.range y.lanes).any fun k => (r k).2.of_) ∧
          (fl.uf = (List.range y.lanes).any fun k => (r k).2.uf) ∧ fl.nx = (List.range y.lanes).any fun k => (r k).2.nx) ∧
    (y.isDot = true → ∃ q fl, vecResult (.vdot d a b c y) t x = some (d, q, fl) ∧
      ∀ j, j < 4 → lane q 32 j = (dotLane y rm ((List.range (32 / y.width)).map fun n =>
        (lane (t.v a) y.width (32 / y.width * j + n), lane (t.v b) y.width (32 / y.width * j + n))) (lane (t.v c) 32 j)).1 %
          2 ^ 32) ∧
    ∀ (st dt : Ty) (k3 : BitVec 3), ∃ q fl, vecResult (.vcvt d a st k3 dt) t x = some (d, q, fl) ∧
      (∀ k, k < 128 / max st.width dt.width → lane q dt.width k =
        (cvt st dt (match (k3.extractLsb' 1 2).toNat with | 0 => rm | 1 => .rne | 2 => .rtz | _ => .rna) (k3.getLsbD 0)
          (lane (t.v a) st.width k)).1 % 2 ^ dt.width) ∧
      ∀ k, 128 / max st.width dt.width ≤ k → k < dt.lanes → lane q dt.width k = 0

/-- R106: the lane-moving forms copy lanes as they are and set no flag: `vbcast`, `vins`, `vshuf`, `vzip`, `vunzip`, `vcompress`,
`vexpand`, `vpopc` and `vfirst`. -/
def Sys2Proof.Claims.LaneMoves : Prop :=
  ∀ (d a b : VReg) (y : Ty) (t : Strand) (x : Word) (L M : Nat → Nat), L = lane (t.v a) y.width → M = lane (t.v b) y.width →
    (∀ g, ∃ q, vecResult (.vbcast d g y) t x = some (d, q, {}) ∧ ∀ k, k < y.lanes → lane q y.width k = x.toNat % 2 ^ y.width) ∧
    (∀ g l, l.toNat < y.lanes → ∃ q, vecResult (.vins d g l y) t x = some (d, q, {}) ∧
      ∀ k, k < y.lanes → lane q y.width k = if k = l.toNat then x.toNat % 2 ^ y.width else lane (t.v d) y.width k) ∧
    (∃ q, vecResult (.vshuf d a b y) t x = some (d, q, {}) ∧
      ∀ k, k < y.lanes → lane q y.width k = if M k < y.lanes then L (M k) else 0) ∧
    (∀ h, ∃ q, vecResult (.vzip d a b h y) t x = some (d, q, {}) ∧ ∀ k, k < y.lanes / 2 →
      lane q y.width (2 * k) = L (h.toNat * (y.lanes / 2) + k) ∧ lane q y.width (2 * k + 1) = M (h.toNat * (y.lanes / 2) + k)) ∧
    (∀ o, ∃ q, vecResult (.vunzip d a b o y) t x = some (d, q, {}) ∧ ∀ k, k < y.lanes / 2 →
      lane q y.width k = L (2 * k + o.toNat) ∧ lane q y.width (y.lanes / 2 + k) = M (2 * k + o.toNat)) ∧
    (∃ q, vecResult (.vcompress d a b y) t x = some (d, q, {}) ∧
      (∀ j, j < y.lanes → M j ≠ 0 → lane q y.width ((List.range j).countP fun i => M i ≠ 0) = L j) ∧
      ∀ k, k < y.lanes → (List.range y.lanes).countP (fun i => M i ≠ 0) ≤ k → lane q y.width k = 0) ∧
    (∃ q, vecResult (.vexpand d a b y) t x = some (d, q, {}) ∧ ∀ j, j < y.lanes →
      lane q y.width j = if M j ≠ 0 then L ((List.range j).countP fun i => M i ≠ 0) else 0) ∧
    (∃ q, vecResult (.vpopc d a y) t x = some (d, q, {}) ∧ lane q y.width 0 = (List.range y.lanes).countP (fun i => L i ≠ 0) ∧
      ∀ k, 0 < k → k < y.lanes → lane q y.width k = 0) ∧
    ∃ q, vecResult (.vfirst d a y) t x = some (d, q, {}) ∧ (∀ k, 0 < k → k < y.lanes → lane q y.width k = 0) ∧
      (∀ j, j < y.lanes → L j ≠ 0 → (∀ i, i < j → L i = 0) → lane q y.width 0 = j) ∧
      ((∀ j, j < y.lanes → L j = 0) → lane q y.width 0 = y.lanes)

/-- R107, R108: the reductions leave their result in lane 0 and 0 elsewhere: `vredsum` sums in the fixed tree, `vredmax` and `vredmin`
give the largest or smallest lane, or the canonical NaN. `vsort`, `vmerge` and `vsrch` order by key, with NaN last and equal keys in
source order, and set no flag. -/
def Sys2Proof.Claims.ReductionsAndSorts : Prop :=
  ∀ (d a b : VReg) (y : Ty) (t : Strand) (x : Word) (L M : Nat → Nat) (key : Nat → Int), L = lane (t.v a) y.width →
    M = lane (t.v b) y.width → key = laneKey y →
    (∀ m, (∀ f, ffmt? y = some f → key m = if f.isNan m then 2 ^ 64 else floatKey f m) ∧
      (y.isFlt = false → m < 2 ^ y.width → key m = laneValue y m)) ∧
    (∃ q fl, vecResult (.vredsum d a y) t x = some (d, q, fl) ∧ (∀ k, 0 < k → k < y.lanes → lane q y.width k = 0) ∧
      (y.isFlt = false → fl = {} ∧ lane q y.width 0 = ((List.range y.lanes).map L).sum % 2 ^ y.width) ∧
      ∀ f, ffmt? y = some f → lane q y.width 0 = pairTree (fun m n =>
        (roundVal f (Rm.ofFrm t.frm) false false (fadd (Rm.ofFrm t.frm) (f.value m) (f.value n)).1).1) L (Nat.log2 y.lanes) 0 %
          2 ^ y.width) ∧
    (∀ larger i, (larger, i) ∈ [(true, Instr.vredmax d a y), (false, .vredmin d a y)] →
      ∃ q, vecResult i t x = some (d, q, {}) ∧ (∀ k, 0 < k → k < y.lanes → lane q y.width k = 0) ∧
        (∀ f j, ffmt? y = some f → j < y.lanes → f.isNan (L j) = true → lane q y.width 0 = f.cnan) ∧
        ((∀ f j, ffmt? y = some f → j < y.lanes → f.isNan (L j) = false) →
          (∃ j, j < y.lanes ∧ lane q y.width 0 = L j) ∧
          ∀ j, j < y.lanes → if larger then key (L j) ≤ key (lane q y.width 0) else key (lane q y.width 0) ≤ key (L j))) ∧
    (∀ m, ∃ (q : Quad) (p : List Nat), vecResult (.vsort d a m y) t x = some (d, q, {}) ∧ p.Perm (List.range y.lanes) ∧
      p.Pairwise (fun i j => (if m.getLsbD 0 then key (L j) < key (L i) else key (L i) < key (L j)) ∨ key (L i) = key (L j) ∧ i < j) ∧
      ∀ k, k < y.lanes → lane q y.width k = if m.getLsbD 1 then p.getD k 0 else L (p.getD k 0)) ∧
    (∀ h, ∃ (q : Quad) (p : List Nat), vecResult (.vmerge d a b h y) t x = some (d, q, {}) ∧ p.Perm (List.range (2 * y.lanes)) ∧
      ∀ N : Nat → Nat, N = (fun i => if i < y.lanes then L i else M (i - y.lanes)) →
        p.Pairwise (fun i j => key (N i) < key (N j) ∨ key (N i) = key (N j) ∧ i < j) ∧
        ∀ k, k < y.lanes → lane q y.width k = N (p.getD (if h = 0 then k else y.lanes + k) 0)) ∧
    ∀ m, ∃ q, vecResult (.vsrch d a b m y) t x = some (d, q, {}) ∧ ∀ k, k < y.lanes → lane q y.width k =
      (List.range y.lanes).countP fun j => if m = 0 then decide (key (L j) < key (M k)) else decide (key (L j) ≤ key (M k))

/-- R48: bit i of the mask says that lane i of some operand is subnormal, and bits 16 to 18 say which of VA, VB and VC hold one. A form
that interprets no bf16 or f32 lanes has none. -/
def Sys2Proof.Claims.SubnormalMask : Prop :=
  ∀ (t : Strand) (sub : Ty → Quad → Nat → Prop), (∀ y q k, sub y q k ↔
      (y = .f32 ∧ lane q 32 k % 2 ^ 31 ≠ 0 ∧ lane q 32 k % 2 ^ 31 < 2 ^ 23) ∨
      (y = .bf16 ∧ lane q 16 k % 2 ^ 15 ≠ 0 ∧ lane q 16 k % 2 ^ 15 < 2 ^ 7)) →
    (∀ (d a b c : VReg) (y z : Ty) (k3 : BitVec 3) (m : BitVec 2) (h : BitVec 1) (i : Instr) (va vb vc : Nat × Ty × Nat × Quad)
      (ops : List (Nat × Ty × Nat × Quad)), va = (0, y, y.lanes, t.v a) → vb = (1, y, y.lanes, t.v b) → vc = (2, y, y.lanes, t.v c) →
      (i, ops) ∈ [(Instr.vfma d a b c y, [va, vb, vc]), (.vadd d a b y, [va, vb]), (.vsub d a b y, [va, vb]),
        (.vmul d a b y, [va, vb]), (.vdiv d a b y, [va, vb]), (.vmin d a b y, [va, vb]), (.vmax d a b y, [va, vb]),
        (.vcmpeq d a b y, [va, vb]), (.vcmplt d a b y, [va, vb]), (.vcmple d a b y, [va, vb]), (.vmerge d a b h y, [va, vb]),
        (.vsrch d a b h y, [va, vb]), (.vrcp d a y, [va]), (.vrsqrt d a y, [va]), (.vsqrt d a y, [va]), (.vexp2 d a y, [va]),
        (.vlog2 d a y, [va]), (.vtanh d a y, [va]), (.vsigm d a y, [va]), (.vredsum d a y, [va]), (.vredmax d a y, [va]),
        (.vredmin d a y, [va]), (.vsort d a m y, [va]), (.vcvt d a y k3 z, [(0, y, 128 / max y.width z.width, t.v a)]),
        (.vdot d a b c y, if y.isFlt then [va, vb, (2, .f32, 4, t.v c)] else [])] →
      ∀ n, (subnormalVal i t).testBit n = true ↔ ∃ x ∈ ops, (n < x.2.2.1 ∧ sub x.2.1 x.2.2.2 n) ∨
        (n = 16 + x.1 ∧ ∃ k, k < x.2.2.1 ∧ sub x.2.1 x.2.2.2 k)) ∧
    ∀ i, interpretsTrapFlt i = false → subnormalVal i t = 0

/-- The sequencer performs its oldest entry: results, flags, traps, accesses; what the lanes of every form receive. The readings of
log entries 18, 19 and 57 are the model's own. -/
def Obligations.SequencerPerforms : Prop :=
  Claims.SequencerPerforms ∧ Claims.IntegerLanes ∧ Claims.FloatLanes ∧ Claims.LaneMoves ∧ Claims.ReductionsAndSorts ∧
    Claims.SubnormalMask

/-- R18, R111, R323: the lanes that a `ksend` sends, in lane order: none for the key 0xFFFFFFFF; otherwise the hash names a core of the
group's rectangle, on the strand's own half in paired mode, and a bin there. -/
def Sys2Proof.Claims.KeyedLanes : Prop :=
  ∀ (s : State) (t : Strand) (a b : Quad) (g : Group) (L : Nat → List (Nat × BitVec 32)), g = s.group t.group →
    (∀ i k h c n, k = lane a 32 i → h = k * bits t.khash 32 32 % 2 ^ 32 / 2 ^ bits t.khash 16 5 → n = g.w * g.h → c = h % n →
      L i = if k = 0xFFFFFFFF then []
        else [(scratchKey (g.core0 + c % g.w + 16 * (c / g.w) + if t.pair = true ∧ 8 ≤ t.core % 16 then 8 else 0)
          (8 * (bits t.kbins 3 15 + h / n % bits t.kbins 32 15)), BitVec.ofNat 32 (lane b 32 i))]) →
    ksendLanes s t a b = L 0 ++ L 1 ++ L 2 ++ L 3

/-- R92, R112, R113, R314, R317, R318: a lane of a `ksend` reaches its bin in one step: an integer lane adds to the low 32 bits and
saturates, which sets bit 32; the last lane ends the count of its `ksend`, which leaves the sequencer; every other byte and every
full/empty bit stays. At a sealed core the lane is discarded and counted; a poisoned word of a bin is consumed. -/
def Sys2Proof.Claims.KeyedSends : Prop :=
  (∀ (w : Word) (v : BitVec 32),
    (∀ n : Int, n = (w.setWidth 32).toInt + v.toInt →
      ((binAdd false w v).setWidth 32).toInt = max (-2 ^ 31) (min (2 ^ 31 - 1) n) ∧
      ((binAdd false w v).getLsbD 32 = true ↔ w.getLsbD 32 = true ∨ n < -2 ^ 31 ∨ 2 ^ 31 ≤ n)) ∧
    ∀ k, 32 < k → (binAdd false w v).getLsbD k = w.getLsbD k) ∧
  ∀ (s : State) (t : Strand) (o : CoreOp) (rest : List CoreOp) (key : Nat) (flt last : Bool) (v : BitVec 32), s.memWf →
    s.strand? s.ua = some t → t.ops = o :: rest → o.kind = .lane key flt v last → t.opFault = none → t.st ≠ .ended →
    ∀ u, u = (if last then
        (if t.taken = some o.sn then { t.uncount o.sn with ops := rest }.seqNext else { t.uncount o.sn with ops := rest })
      else { t with ops := rest }) →
    (s.poisoned key 8 = false → s.sealedAt (.phys key) = none →
      ∃ s', exec .ksendLaneAccumulate s = .next s' ∧ s'.strand? s.ua = some u ∧
        (∀ a, Memory.read s'.mem a =
          if key ≤ a ∧ a < key + 8 then byteOf (binAdd flt (s.valueAt key 8) v) (a - key) else Memory.read s.mem a) ∧
        s'.full = s.full ∧ s'.memWf) ∧
    (∀ c, s.sealedAt (.phys key) = some c → vget (s.die (dieOf c)).errs 11 0 ≠ BitVec.allOnes 64 →
      ∃ s', exec .ksendLaneAccumulate s = .next s' ∧ s'.strand? s.ua = some u ∧ s'.mem = s.mem ∧ s'.full = s.full ∧
        vget (s'.die (dieOf c)).errs 11 0 = vget (s.die (dieOf c)).errs 11 0 + 1) ∧
    (s.poisoned key 8 = true → s.sealedAt (.phys key) = none →
      exec .ksendLaneAccumulate s = .next ((s.setStrand s.ua u).consume t.core key))

/-- The lanes of a ksend and how each reaches its bin. The reading of log entry 70 is the model's own. -/
def Obligations.KeyedSends : Prop := Claims.KeyedLanes ∧ Claims.KeyedSends

/-- R72, R93, R94, R98, R138: `vbegin` fetches its body and reads its operands once. A body word outside the image bound raises BOUND,
an illegal one ILLEGAL, and the first failing check of an access or keyed send, in repetition-then-position order over the offsets
off(j, k), raises the trap of that check; none of these takes a place. A count of 0 only goes on behind the body. Otherwise, once
there is room and no fence holds its classes, the loop takes its L + 1 places, with one further count on each of its classes; until
then the strand waits. -/
def Sys2Proof.Claims.LoopsIssue : Prop :=
  (∀ (a b : GReg) (l : BitVec 4) (s s1 : State) (t : Strand) (got : List (GReg × Word)),
    s.issued (.vbegin a b l) (s.bodyReads a l) = some (t, s1, got) →
    (∀ v, s1.fetchBody t.settled (t.pc + 4) l.toNat = .bound v →
      exec (.vbegin a b l) s = .next (s.trap s.cur t.settled .bound v)) ∧
    (∀ pc c, s1.fetchBody t.settled (t.pc + 4) l.toNat = .xfault pc c →
      exec (.vbegin a b l) s = .next (s.fetchFault s.cur t.settled pc c)) ∧
    (∀ key, s1.fetchBody t.settled (t.pc + 4) l.toNat = .poisoned key →
      exec (.vbegin a b l) s = .next (s.consume t.core key)) ∧
    (s1.fetchBody t.settled (t.pc + 4) l.toNat = .away → exec (.vbegin a b l) s = .next s) ∧
    ∀ ws s2, s1.fetchBody t.settled (t.pc + 4) l.toNat = .words ws s2 →
    (∀ w, ws.find? (fun w => (bodyInstr? w.1).isNone) = some w →
      exec (.vbegin a b l) s = .next (s.trap s.cur t.settled .illegal (w.1.setWidth 64))) ∧
    (ws.find? (fun w => (bodyInstr? w.1).isNone) = none →
      (popVal t got a = 0 → exec (.vbegin a b l) s = .next (s2.setStrand s2.cur { t.settled with
          pc := t.pc + 4 + 4 * BitVec.ofNat 64 ws.length, vrep := 0, vtrap := false })) ∧
      ∀ body cnt str, body = (ws.filterMap fun w => (bodyInstr? w.1).map fun i => bodyEntry t.settled (popVal t got) i w.2) →
        cnt = popVal t got a → str = popVal t got b → cnt ≠ 0 →
        (∀ (j k : Nat) (e : SeqEntry) c w, j < cnt.toNat → body[k]? = some e → e.check s2 t.settled (e.offAt str j) = some (c, w) →
          (∀ (j1 k1 : Nat) (e1 : SeqEntry), j1 < j ∨ j1 = j ∧ k1 < k → body[k1]? = some e1 → e1.check s2 t.settled (e1.offAt str j1) = none) →
          exec (.vbegin a b l) s = .next (s.trap s.cur t.settled c w)) ∧
        ((∀ (j k : Nat) (e : SeqEntry), j < cnt.toNat → body[k]? = some e → e.check s2 t.settled (e.offAt str j) = none) →
          (16 < t.seqUsed + ws.length + 1 ∨ t.fenced (bodyClasses body) = true → exec (.vbegin a b l) s = .next s) ∧
          (t.seqUsed + ws.length + 1 ≤ 16 → t.fenced (bodyClasses body) = false →
            ∀ ld st, ld = (bodyClasses body).contains .ld → st = (bodyClasses body).contains .st →
              exec (.vbegin a b l) s = .next (s2.fresh.2.fresh.2.setStrand s2.cur { t.settled with
                pc := t.pc + 4 + 4 * BitVec.ofNat 64 ws.length
                vtrap := false
                outst := t.outst ++ (if ld then [(s2.serial, .ld)] else []) ++ (if st then [(s2.serial + 1, .st)] else [])
                seq := t.seq ++ [.loop body cnt str 0 0 t.pc (if ld then some s2.serial else none)
                  (if st then some (s2.serial + 1) else none)] }))))) ∧
  (∀ (s : State) (t : Strand) (pc : Word) (n : Nat), s.fetchBody t pc 0 = .words [] s ∧
    (t.imgsz ≠ 0 → t.imgsz.toNat ≤ (pc - t.image).toNat → s.fetchBody t pc (n + 1) = .bound (pc - t.image)) ∧
    (∀ c, s.fetchAt t pc = .xfault c → s.fetchBody t pc (n + 1) = .xfault pc c) ∧
    (∀ key, s.fetchAt t pc = .poisoned key → s.fetchBody t pc (n + 1) = .poisoned key) ∧
    (s.fetchAt t pc = .away → s.fetchBody t pc (n + 1) = .away) ∧
    ∀ w s1, s.fetchAt t pc = .word w s1 →
      (∀ v, s1.fetchBody t (pc + 4) n = .bound v → s.fetchBody t pc (n + 1) = .bound v) ∧
      (∀ p c, s1.fetchBody t (pc + 4) n = .xfault p c → s.fetchBody t pc (n + 1) = .xfault p c) ∧
      (∀ key, s1.fetchBody t (pc + 4) n = .poisoned key → s.fetchBody t pc (n + 1) = .poisoned key) ∧
      (s1.fetchBody t (pc + 4) n = .away → s.fetchBody t pc (n + 1) = .away) ∧
      ∀ ws s2, s1.fetchBody t (pc + 4) n = .words ws s2 → s.fetchBody t pc (n + 1) = .words ((w, pc) :: ws) s2) ∧
  (∀ (t : Strand) (rd : GReg → Word) (e : SeqEntry) (s : State) (off : Word) (pc : Word) (i : Instr) (d : VReg) (h : HReg) (x : GReg)
      (k : BitVec 2) (o : BitVec 9), e = bodyEntry t rd i pc →
    (i = .ldv d h x k o ∨ i = .stv d h x k o → e.region = t.regionAt h.toNat ∧ e.off = accessOffset (rd x) o 16) ∧
    (i = .ldv d h x k o → e.check s t off = accessCheck (t.regionAt h.toNat) h.toNat off 16 rR .vec ∧ e.ctr? = some .ld) ∧
    (i = .stv d h x k o → e.check s t off = accessCheck (t.regionAt h.toNat) h.toNat off 16 rW .vec ∧ e.ctr? = some .st) ∧
    (∀ a b y, i = .ksend a b y → e.check s t off = ksendCheck s t ∧ e.ctr? = some .st) ∧
    (vregForm i = true → e.check s t off = none ∧ e.ctr? = none)) ∧
  (∀ (e : SeqEntry) (str : Word) (j : Nat), e.offAt str j = wrap64 (e.off.toInt + j * str.toInt)) ∧
  ∀ (w : BitVec 32) (i : Instr), bodyInstr? w = some i ↔ decode w = .ok i ∧ i.wf = true ∧ isVector i = true ∧
    ∀ g a l y, i ≠ .vext g a l y

/-- R92, R94 to R96, R99, R100, R112, R113: the sequencer performs the words of a loop in order, CNT times. A form on v registers is
performed; an `ldv` or `stv` moves 16 bytes at off(j, k), which a global address reaches by translation, and one that does not translate
is held with its fault; a `ksend` sends its lanes; each access has a count of its own; the loop's
further count on a class ends as its last access of the class is taken, and an access waits while its counter stands at 255. A trap
ends the loop, with REP and POS of its entry. `vsync` goes on when the sequencer is empty and until then issues nothing. `vstat` gives
its word. -/
def Sys2Proof.Claims.LoopsRun : Prop :=
  Instr.vsync.runs (fun _ _ t _ => t.seq = []) (fun s s1 t _ => s1.setStrand s.cur { t with pc := t.pc + 4 }) ∧
  Instr.vsync.runs (fun _ _ t _ => t.seq ≠ []) (fun s _ _ _ => s) ∧
  (∀ d, (Instr.vstat d).runs (fun _ _ t _ => loopRep? t.seq = none)
    (fun s s1 t _ => s1.finish s.cur t d
      (BitVec.ofNat 64 (t.vrep.toNat * 2 ^ 32 + (if t.vtrap then 2 ^ 20 else 0) + t.vpos.toNat * 2 ^ 16 + t.seqUsed)))) ∧
  (∀ d rep, (Instr.vstat d).runs (fun _ _ t _ => loopRep? t.seq = some rep)
    (fun s s1 t _ => s1.finish s.cur t d
      (BitVec.ofNat 64 (rep.toNat % 2 ^ 32 * 2 ^ 32 + (if t.vtrap then 2 ^ 20 else 0) + t.vpos.toNat * 2 ^ 16 + 32 + t.seqUsed)))) ∧
  ∀ (s : State) (t : Strand) (body : List SeqEntry) (cnt str rep : Word) (pos : Nat) (pc : Word) (ca cb : Option Nat)
    (rest : List SeqItem) (e : SeqEntry), s.strand? s.ua = some t → t.seqFault = none → t.taken = none →
    t.seq = .loop body cnt str rep pos pc ca cb :: rest → body[pos]? = some e →
    ∀ (next : Option Nat → Option Nat → List SeqItem), (∀ x y, next x y =
      if pos + 1 < body.length then .loop body cnt str rep (pos + 1) pc x y :: rest
      else if rep + 1 = cnt then rest else .loop body cnt str (rep + 1) 0 pc x y :: rest) →
    (∀ d q fl, vregForm e.instr = true → subnormalVal e.instr t = 0 → vecResult e.instr t e.scal = some (d, q, fl) →
      exec .vseqEntryPerform s = .next (s.setStrand s.ua { t.setV d q with
        frm := t.frm ||| fl.bits, vrep := rep.setWidth 32, seq := next ca cb })) ∧
    (vregForm e.instr = true → subnormalVal e.instr t ≠ 0 →
      ∃ u, exec .vseqEntryPerform s = .next (s.trap s.ua u .subnormal (BitVec.ofNat 64 (subnormalVal e.instr t))) ∧
        u.seq = [] ∧ u.pc = e.pc ∧ u.vtrap = true ∧ u.vrep = rep.setWidth 32 ∧ u.vpos = BitVec.ofNat 4 pos) ∧
    (∀ d h x k o c, e.instr = .ldv d h x k o ∨ e.instr = .stv d h x k o → e.ctr? = some c →
      t.ops ≠ [] ∨ t.countFull [c] = true → exec .vseqEntryPerform s = .next s) ∧
    (∀ need asid va c k, (∃ d h x m o, e.instr = .ldv d h x m o ∧ need = accR ∨ e.instr = .stv d h x m o ∧ need = accW) → t.ops = [] →
      e.ctr? = some k → t.countFull [k] = false → s.recRoom (dieOf t.core) = true →
      e.region.addr (e.offAt str rep.toNat).toNat = .virt asid va → s.translate (dieOf t.core) asid va need = .error c →
      ∃ s' u f, exec .vseqEntryPerform s = .next s' ∧ s'.strand? s.ua = some u ∧ u.seqFault = some f ∧ f.va = va ∧ f.acc = need ∧
        f.cause = c ∧ f.pc = e.pc ∧ u.taken = some s.serial ∧ u.vr = t.vr ∧ u.gr = t.gr ∧ u.pc = t.pc ∧ s'.mem = s.mem) ∧
    (∀ d h x k o key s1, e.instr = .ldv d h x k o →
      (∀ c, t.ops = [] → t.countFull [.ld] = false → e.region.addr (e.offAt str rep.toNat).toNat = .phys key →
        s.sealedAt (.phys key) = some c →
        exec .vseqEntryPerform s = .next (s.seqTrapAt s.ua t e (rep.setWidth 32) pos .peerlost (peerLostVal c))) ∧
      (s.reaches (dieOf t.core) (e.region.addr (e.offAt str rep.toNat).toNat) accR key s1 →
        t.ops = [] → t.countFull [.ld] = false → s.sealedAt (.phys key) = none → s.pkgUp (keyPkg key) = true →
        s1.poisoned key 16 = false → (∀ x ∈ t.outst, x.1 < s.serial) →
        ∃ s' u, exec .vseqEntryPerform s = .next s' ∧ s'.strand? s.ua = some u ∧ s'.mem = s1.mem ∧ s'.full = s.full ∧
          u.vr = (t.setV d (BitVec.ofNat 128 (s1.readNat key 16))).vr ∧ u.gr = t.gr ∧ u.pc = t.pc ∧ u.taken = none ∧
          u.vrep = rep.setWidth 32 ∧ ∀ more, more = moreOf body pos (decide (rep + 1 = cnt)) .ld →
            u.seq = next (if more then ca else none) cb ∧
            u.outst = t.outst.filter fun x => more || !(some x.1 == ca))) ∧
    (∀ d h x k o key s1, e.instr = .stv d h x k o →
      s.reaches (dieOf t.core) (e.region.addr (e.offAt str rep.toNat).toNat) accW key s1 → t.ops = [] →
      t.countFull [.st] = false → s.sealedAt (.phys key) = none → s.pkgUp (keyPkg key) = true → s.memWf →
      (∀ x ∈ t.outst, x.1 < s.serial) →
      ∃ s' u, exec .vseqEntryPerform s = .next s' ∧ s'.strand? s.ua = some u ∧ s'.full = s.full ∧
        (∀ a, Memory.read s'.mem a =
          if key ≤ a ∧ a < key + 16 then (t.v d).extractLsb' (8 * (a - key)) 8 else Memory.read s1.mem a) ∧
        u.vr = t.vr ∧ u.gr = t.gr ∧ u.pc = t.pc ∧ u.taken = none ∧ u.vrep = rep.setWidth 32 ∧
        ∀ more, more = moreOf body pos (decide (rep + 1 = cnt)) .st →
          u.seq = next ca (if more then cb else none) ∧
          u.outst = t.outst.filter fun x => more || !(some x.1 == cb)) ∧
    (∀ a b y, e.instr = .ksend a b y → t.ops = [] → t.countFull [.st] = false → ksendLanes s t (t.v a) (t.v b) ≠ [] →
      cb ≠ some s.serial → ∃ s' u, exec .vseqEntryPerform s = .next s' ∧ s'.strand? s.ua = some u ∧ s'.mem = s.mem ∧ u.vr = t.vr ∧ u.gr = t.gr ∧
        u.pc = t.pc ∧ u.taken = some s.serial ∧ (s.serial, Ctr.st) ∈ u.outst ∧
        (u.seq = .loop body cnt str rep pos pc ca (if moreOf body pos (decide (rep + 1 = cnt)) .st then cb else none) :: rest) ∧
        u.ops.map (fun o => (o.sn, o.kind)) = (indexed 0 (ksendLanes s t (t.v a) (t.v b))).map fun x =>
          (s.serial, OpKind.lane x.2.1 (y == .f32) x.2.2 (decide (x.1 + 1 = (ksendLanes s t (t.v a) (t.v b)).length))))

/-- Vbegin takes its body or raises its traps, the sequencer runs it CNT times, vsync waits, vstat gives the status word. The readings
of log entries 19 and 64 are the model's own. -/
def Obligations.Loops : Prop :=
  Claims.LoopsIssue ∧ Claims.LoopsRun

/-! ## Queue ports, handles, counters and fences -/

/-- R87, R88, R90, R320: `qbind` binds its register index to its port and gives the old field, or all ones where another group owns
the port; `qunbind` unbinds and gives the old field, and the last binding frees the port with what it holds; a result that the new
bindings send to a port waits for earlier operations, or parks while the port has no room, and one for a pending register waits, with
nothing done. `qpeek` gives the head without taking it, parks while there is none, and raises PEERLOST where its home core is sealed;
`qstat` gives the port's status word, 0 for a free port or another group's. -/
def Sys2Proof.Claims.QueuePorts : Prop :=
  (∀ (i : Instr) (d : GReg) (f : State → Strand → (GReg → Word) → Option (State × Strand × Word)),
    ((∃ a b, i = .qbind d a b ∧ ∀ s1 t v, f s1 t v =
        if s1.portOpen t (idx3 (v b)) then
          some ((s1.bindField s1.cur t (idx3 (v a)) (idx3 (v b))).1, (s1.bindField s1.cur t (idx3 (v a)) (idx3 (v b))).2,
            (qField t.qbind (idx3 (v a))).setWidth 64)
        else some (s1, t, BitVec.allOnes 64)) ∨
      ∃ a, i = .qunbind d a ∧ ∀ s1 t v, f s1 t v = some ((s1.unbindField s1.cur t (idx3 (v a))).1,
        (s1.unbindField s1.cur t (idx3 (v a))).2, (qField t.qbind (idx3 (v a))).setWidth 64)) →
    ∀ q u w, i.runs (fun s s1 t v => f s1 t v = some (q, u, w) ∧ s1.cur = s.cur ∧ q.pushBlocked s.cur { u with claim := s.claimed } [d] = none ∧
        u.isPend d = false ∧ (u.bound? d = none ∨ u.seqMem = false ∧ u.ops = []))
      (fun s _ _ _ => ((s.claimed.map fun on => q.wakePort u.homeCore on).getD q).finish s.cur u d w) ∧
    (∀ p, i.runs (fun s s1 t v => f s1 t v = some (q, u, w) ∧ s1.cur = s.cur ∧
        q.pushBlocked s.cur { u with claim := s.claimed } [d] = some p)
      (fun s _ t _ => s.park s.cur { t with claim := s.claimed } (.push p))) ∧
    i.runs (fun s s1 t v => f s1 t v = some (q, u, w) ∧ s1.cur = s.cur ∧
        q.pushBlocked s.cur { u with claim := s.claimed } [d] = none ∧
        (u.isPend d = true ∨ u.bound? d ≠ none ∧ (u.seqMem = true ∨ u.ops ≠ [])))
      (fun s _ _ _ => s)) ∧
  (∀ d a w tag rest, (Instr.qpeek d a).runs
    (fun _ s1 t v => (s1.core t.homeCore).sealed = false ∧ s1.portOpen t (idx3 (v a)) = true ∧ (s1.port t (idx3 (v a))).vals = ⟨some w, tag⟩ :: rest)
    (fun s s1 t _ => s1.finish s.cur t d w)) ∧
  (∀ d a, (Instr.qpeek d a).runs
    (fun _ s1 t v => (s1.core t.homeCore).sealed = false ∧ s1.portOpen t (idx3 (v a)) = true ∧ ((s1.port t (idx3 (v a))).vals.head?.bind fun e => e.val) = none)
    (fun s _ t v => (s.claimGone s.cur).setStrand s.cur { t with st := .parked (.pop (idx3 (v a))), parkedAt := s.cycle })) ∧
  (∀ d a, (Instr.qpeek d a).runs
    (fun _ s1 t v => (s1.core t.homeCore).sealed = false ∧ s1.portOpen t (idx3 (v a)) = false)
    (fun s s1 t _ => s1.finish s.cur t d 0)) ∧
  (∀ d a, (Instr.qpeek d a).runs (fun _ s1 t _ => (s1.core t.homeCore).sealed = true)
    (fun s _ t _ => s.trap s.cur t .peerlost (peerLostVal t.homeCore))) ∧
  (∀ d a, (Instr.qstat d a).runs (fun _ s1 t v => (s1.port t (idx3 (v a))).owner = some t.group)
    (fun s s1 t v => s1.finish s.cur t d (s1.portStatus t (idx3 (v a))))) ∧
  (∀ d a, (Instr.qstat d a).runs (fun _ s1 t v => (s1.port t (idx3 (v a))).owner ≠ some t.group)
    (fun s s1 t _ => s1.finish s.cur t d 0)) ∧
  (∀ (s : State) (t : Strand) (p : Nat), s.portOpen t p = true → (s.port t p).vals.length ≤ 16 → s.bindings t.homeCore p < 256 →
    bits (s.portStatus t p) 0 5 = (s.port t p).vals.length ∧ bits (s.portStatus t p) 5 3 = 0 ∧
    bits (s.portStatus t p) 8 8 = s.bindings t.homeCore p ∧
    ((s.portStatus t p).getLsbD 16 = true ↔ ∃ e ∈ (s.port t p).vals, e.val = none ∧ .port p e.tag ∈ s.engineDests) ∧
    ((s.portStatus t p).getLsbD 17 = true ↔ (s.port t p).owner = some t.group) ∧
    ((s.portStatus t p).getLsbD 18 = true ↔ ∃ x ∈ s.strands, x.2.st = .parked (.push p) ∧ x.2.homeCore = t.homeCore) ∧
    ((s.portStatus t p).getLsbD 19 = true ↔ ∃ x ∈ s.strands, x.2.st = .parked (.pop p) ∧ x.2.homeCore = t.homeCore) ∧
    bits (s.portStatus t p) 20 44 = 0) ∧
  ∀ (s : State) (sid : Nat) (t : Strand) (i p : Nat), i < 8 → p < 8 →
    qField (s.bindField sid t i p).2.qbind i = BitVec.ofNat 4 (8 + p) ∧
    qField (s.unbindField sid t i).2.qbind i = 0 ∧
    (∀ j, j < 8 → j ≠ i → qField (s.bindField sid t i p).2.qbind j = qField t.qbind j ∧
      qField (s.unbindField sid t i).2.qbind j = qField t.qbind j) ∧
    ((s.bindField sid t i p).1.port t p).owner = some t.group ∧
    (qBound (qField t.qbind i) = true → (s.port t (qPort (qField t.qbind i))).owner = some t.group →
      (s.setStrand sid (s.unbindField sid t i).2).portBound t.homeCore (qPort (qField t.qbind i)) t.group = false →
      (s.unbindField sid t i).1.port t (qPort (qField t.qbind i)) = {})

/-- R89: a core is wedged when it has a live strand and every one of them, and every port, has stood still on a port operation for
4,096 cycles; then the strand that has been parked on a push for the longest, or where none is, the one parked longest on a pop of a
port that no engine feeds, takes QWEDGE with its port, and the period starts again. Nothing happens on a core that is not wedged. -/
def Sys2Proof.Claims.WedgedCore : Prop :=
  ∀ s : State,
    (s.wedged s.ua = true ↔ s.liveOn s.ua ≠ [] ∧ (s.core s.ua).portTime + 4096 ≤ s.cycle ∧
      ∀ x ∈ s.liveOn s.ua, (∃ p, x.2.st = .parked (.push p) ∨ x.2.st = .parked (.pop p)) ∧ x.2.parkedAt + 4096 ≤ s.cycle) ∧
    (s.wedged s.ua = false → exec .qwedge s = .next s) ∧
    ∀ pushers poppers, pushers = ((s.liveOn s.ua).filter fun x => match x.2.st with | .parked (.push _) => true | _ => false) →
      poppers = ((s.liveOn s.ua).filter fun x => match x.2.st with | .parked (.pop p) => !s.portFed s.ua p | _ => false) →
      (∀ sid t p, s.wedged s.ua = true → (oldest pushers = some (sid, t) ∧ t.st = .parked (.push p) ∨
          oldest pushers = none ∧ oldest poppers = some (sid, t) ∧ t.st = .parked (.pop p)) →
        exec .qwedge s =
          .next ((s.modCore s.ua fun k => { k with portTime := s.cycle }).trap sid t .qwedge (BitVec.ofNat 64 p))) ∧
      (s.wedged s.ua = true → pushers = [] → poppers = [] → exec .qwedge s = .next s) ∧
      ∀ l x, oldest l = some x → x ∈ l ∧ ∀ y ∈ l, x.2.parkedAt ≤ y.2.parkedAt

/-- Qbind, qunbind, qpeek and qstat act on the ports of the home core; a wedged core raises QWEDGE. The readings of log entries 17, 24
and 63 are the model's own. -/
def Obligations.QueuePorts : Prop :=
  Claims.QueuePorts ∧ Claims.WedgedCore

/-- R116, R124, R258: `hsub` makes a handle inside its source: the base moved by the offset, the bound LEN, the rights of both; an
empty source gives an empty handle, and a range that leaves the source raises BOUND. With D a bank handle becomes one of a core of the
group's rectangle in peer space, and any other source raises SPACE. `hrd` gives a dword of an entry, as a migrated strand's handles
are rebased; `hclr` empties one. -/
def Obligations.Handles : Prop :=
  (∀ d a b, ∀ h, (Instr.hsub d a b).runs
    (fun _ s1 t v => subHandle (t.handle a.toNat) (v (b.setWidth 5 <<< 1)) (v ((b.setWidth 5 <<< 1) ||| 1))
      (fun c => if c < (s1.group t.group).w * (s1.group t.group).h then some (s1.rectCore t c) else none) = .ok h)
    (fun s s1 t _ => s1.setStrand s.cur { t with pc := t.pc + 4, handles := vset t.handles d.toNat h })) ∧
  (∀ d a b, ∀ c w, (Instr.hsub d a b).runs
    (fun _ s1 t v => subHandle (t.handle a.toNat) (v (b.setWidth 5 <<< 1)) (v ((b.setWidth 5 <<< 1) ||| 1))
      (fun c => if c < (s1.group t.group).w * (s1.group t.group).h then some (s1.rectCore t c) else none) = .error (c, w))
    (fun s _ t _ => s.trap s.cur t c w)) ∧
  (∀ d a b, (Instr.hrd d a b).runs (fun _ _ _ _ => True) (fun s s1 t v => s1.finish s.cur t d
    (match (v b).toNat % 4 with
     | 0 => (t.shown (t.handle a.toNat)).base | 1 => (t.shown (t.handle a.toNat)).ctl | 2 => (t.shown (t.handle a.toNat)).tgt
     | _ => 0))) ∧
  (∀ (t : Strand) (h : Handle), (t.home = none ∨ h.isEmpty = true ∨ h.space ≠ 0 ∧ h.space ≠ 1 → t.shown h = h) ∧
    ∀ c k, t.home = some (c, k) → h.isEmpty = false →
      (h.space = 0 → (t.shown h).base = h.base + BitVec.ofNat 64 (0x1000 * t.slot) - BitVec.ofNat 64 (0x1000 * t.slot0) ∧
        (t.shown h).ctl = h.ctl) ∧
      (h.space = 1 → (t.shown h).base = h.base ∧ (t.shown h).space = 5 ∧ (t.shown h).bound = h.bound ∧
        (t.shown h).rights = h.rights ∧ (c < 2 ^ 16 → (t.shown h).die * 256 + bits (t.shown h).tgt 0 8 = c))) ∧
  (∀ d, (Instr.hclr d).runs (fun _ _ _ _ => True)
    (fun s s1 t _ => s1.setStrand s.cur { t with pc := t.pc + 4, handles := vset t.handles d.toNat {} })) ∧
  ∀ (src : Handle) (off d : Word) (rect : Nat → Option Nat),
    (src.isEmpty = true → subHandle src off d rect = .ok {}) ∧
    (src.isEmpty = false → (off.toNat ≥ 2 ^ 40 ∨ off.toNat + bits d 0 40 > src.bound) →
      subHandle src off d rect = .error (.bound, off)) ∧
    (src.isEmpty = false → off.toNat < 2 ^ 40 → off.toNat + bits d 0 40 ≤ src.bound →
      (d.getLsbD 56 = false → ∃ h, subHandle src off d rect = .ok h ∧ h.base = src.base + off ∧ h.bound = bits d 0 40 ∧
        h.rights = src.rights &&& d.extractLsb' 43 5 ∧ h.space = src.space ∧ h.tgt = src.tgt ∧
        h.ctl.extractLsb' 48 2 = (if d.getLsbD 63 then d.extractLsb' 61 2 else src.ctl.extractLsb' 48 2) ∧
        h.ctl.extractLsb' 50 14 = src.ctl.extractLsb' 50 14) ∧
      (d.getLsbD 56 = true → src.space ≠ 1 → src.space ≠ 5 → subHandle src off d rect = .error (.space, off)) ∧
      (d.getLsbD 56 = true → (src.space = 1 ∨ src.space = 5) → rect (bits d 48 8) = none →
        subHandle src off d rect = .error (.bound, off)) ∧
      ∀ c, d.getLsbD 56 = true → (src.space = 1 ∨ src.space = 5) → rect (bits d 48 8) = some c → c < 2 ^ 16 →
        ∃ h, subHandle src off d rect = .ok h ∧ h.base = src.base + off ∧ h.bound = bits d 0 40 ∧
          h.rights = src.rights &&& d.extractLsb' 43 5 ∧ h.space = 5 ∧ bits h.tgt 0 16 = c)

/-- R139, R141: `wait` goes on once every counter it names is down to its field, and until then issues nothing; `xfence` goes on
at once and records the operations of its before-set that are not yet performed. -/
def Sys2Proof.Claims.WaitsAndFences : Prop :=
  (∀ l st cp mx dx cl, (Instr.wait l st cp mx dx cl).runs
    (fun _ _ t _ => ∀ c n, (c, n) ∈ [(Ctr.ld, l), (.st, st), (.cp, cp), (.mx, mx), (.dx, dx), (.cl, cl)] →
      n = 15 ∨ (t.outst.countP fun x => x.2 = c) ≤ n.toNat)
    (fun s s1 t _ => s1.setStrand s.cur { t with pc := t.pc + 4 })) ∧
  (∀ l st cp mx dx cl, (Instr.wait l st cp mx dx cl).runs
    (fun _ _ t _ => ∃ c n, (c, n) ∈ [(Ctr.ld, l), (.st, st), (.cp, cp), (.mx, mx), (.dx, dx), (.cl, cl)] ∧
      n ≠ 15 ∧ n.toNat < (t.outst.countP fun x => x.2 = c))
    (fun s _ _ _ => s)) ∧
  (∀ b a sc, (Instr.xfence b a sc).runs (fun _ _ t _ => ∃ x ∈ t.outst, b.getLsbD x.2.bit = true)
    (fun s s1 t _ => s1.setStrand s.cur { t with
      pc := t.pc + 4
      fences := (t.fences.filter fun f => !f.wait.isEmpty) ++
        [{ wait := (t.outst.filter fun x => b.getLsbD x.2.bit).map fun x => x.1, aset := a }] })) ∧
  (∀ b a sc, (Instr.xfence b a sc).runs (fun _ _ t _ => ∀ x ∈ t.outst, b.getLsbD x.2.bit = false)
    (fun s s1 t _ => s1.setStrand s.cur { t with pc := t.pc + 4, fences := t.fences.filter fun f => !f.wait.isEmpty }))

/-- R131, R132, R140, R181, R182, R220, R254, R255, R339: a command that answers a word, and that a synchronising operation, with W
a store too, or an earlier waiting command of its class holds, waits with its strand: it counts, its register is pending, and the strand
goes on. It begins, the oldest first, when what held it is performed; then it answers at once, or goes on as its engine does. -/
def Sys2Proof.Claims.LateCommands : Prop :=
  (∀ (i : Instr) (d : GReg) (w : BitVec 1), i ∈ [Instr.cpcancel d w, .cpstat d w, .dstat d w] → i.runs
    (fun _ _ t _ => t.mustDefer i (w = 1) = true) (fun s s1 t _ => s1.defer s.cur t i d 0 (t.gate (w = 1)))) ∧
  (∀ (d : GReg) (w : BitVec 1), (Instr.dflush d w).runs
    (fun s s1 t _ => t.mustDefer (.dflush d w) (w = 1) = true ∨ s1.dxTurn s.cur s1.serial = false)
    (fun s s1 t _ => s1.defer s.cur t (.dflush d w) d 0 (t.gate (w = 1)))) ∧
  (∀ (i : Instr) (a d : GReg) (w : BitVec 1), i ∈ [Instr.wstat a d w, .clstat a d w] → i.runs
    (fun _ _ t _ => t.mustDefer i (w = 1) = true) (fun s s1 t v => s1.defer s.cur t i d (v a) (t.gate (w = 1)))) ∧
  (∀ (t : Strand) (i : Instr) (w : Bool), t.mustDefer i w = true ↔
    (∃ o ∈ t.ops, o.kind.isSync = true ∨ (w = true ∧ o.kind.isStore = true)) ∨
      ∃ x ∈ t.late, ∃ c ∈ countsOf x.instr, c ∈ countsOf i) ∧
  (∀ (s : State) (sid : Nat) (t : Strand) (i : Instr) (d : GReg) (arg : Word) (after : List Nat), t.bound? d = none → d ≠ 0 →
    ∃ u, s.defer sid t i d arg after = s.fresh.2.setStrand sid u ∧ u = { t with
      pc := t.pc + 4, pend := u.pend, outst := t.outst ++ (countsOf i).map fun c => (s.serial, c)
      late := t.late ++ [{ sn := s.serial, instr := i, arg, after, dest := .gpr d }] } ∧
      u.pend.getLsbD d.toNat = true ∧ ∀ r : GReg, r ≠ d → u.pend.getLsbD r.toNat = t.pend.getLsbD r.toNat) ∧
  (∀ (s : State) (sid : Nat) (t : Strand) (free : LateCmd → Prop),
    (∀ x, free x ↔ s.mayBegin sid x.after = true ∧ ∀ c ∈ countsOf x.instr,
      (∀ y ∈ t.late, c ∈ countsOf y.instr → x.sn ≤ y.sn) ∧ (c = .dx → s.dxTurn sid x.sn = true)) →
    (s.lateReady sid t = none ↔ ∀ x ∈ t.late, ¬free x) ∧
    ∀ x, s.lateReady sid t = some x → ∃ l r, t.late = l ++ x :: r ∧ free x ∧ ∀ y ∈ l, ¬free y) ∧
  (∀ (s : State) (sid : Nat) (rest : List Move), s.agenda = .begin sid :: rest →
    step s = .next (({ s with agenda := rest } : State).beginLate sid)) ∧
  ∀ (s s1 : State) (sid : Nat) (t : Strand) (x : LateCmd), s.strand? sid = some t → s.lateReady sid t = some x →
    s1 = s.setStrand sid { t with late := t.late.filter fun y => !(y.sn == x.sn) } →
    (∀ d w, x.instr = .cpcancel d w →
      ((s1.core t.core).cancellable sid (some x.sn) = [] → s.beginLate sid = (s1.deliver sid x.dest 0).uncount sid x.sn) ∧
      ((s1.core t.core).cancellable sid (some x.sn) ≠ [] → s.beginLate sid = s1.beginCancel sid t.core x.sn x.dest)) ∧
    (∀ d w, x.instr = .cpstat d w → s.beginLate sid = s1.deliver sid x.dest (s1.cpStatus sid t.core)) ∧
    (∀ d w, x.instr = .dstat d w → s.beginLate sid = s1.deliver sid x.dest (s1.dxStatus sid t)) ∧
    (∀ d w, x.instr = .dflush d w → s.beginLate sid = s1.beginFlush sid x.sn x.dest) ∧
    (∀ a d w s2, x.instr = .wstat a d w → s2 = s1.walkDiscard sid t.core x.arg →
      s.beginLate sid = s2.deliver sid x.dest (s2.walkStatus sid t.core)) ∧
    ∀ a d w s2, x.instr = .clstat a d w → s2 = s1.leaveColls sid x.arg →
      s.beginLate sid = s2.deliver sid x.dest (s2.clStatus t)

/-- Wait goes on once its counters are down; xfence records its before-set; a command that answers a word waits with its strand. The
readings of log entries 14 and 28 are the model's own. -/
def Obligations.WaitsAndFences : Prop :=
  Claims.WaitsAndFences ∧ Claims.LateCommands

/-! ## Traps and system registers -/

/-- R62, R70, R88, R307, R309: a trap of a strand with a handler that is not in it saves cause, PC and value, sets TH and goes on at
TVEC; a claim that the strand had on a side of a queue port goes, and nothing else changes but that a strand parked behind it may be
woken. A strand without a handler, or in it, halts: it is ended, and a STRANDHALT record with PC, value and the tenant of its ASID
takes the last place of its die; while the die has no place, nothing happens. -/
def Sys2Proof.Claims.TrapEntry : Prop :=
  ∀ (s : State) (sid : Nat) (t : Strand) (c : Cause) (v : Word),
    (t.th = false → t.tvec ≠ 0 → s.trap sid t c v = (s.claimGone sid).setStrand sid { t with
      tcause := c.code, tpc := t.pc, tval := v, th := true, pc := t.tvec, st := .run, claim := none }) ∧
    ((∀ w, s.strand? sid = some w → w.claim = none) → s.claimGone sid = s) ∧
    (s.claimGone sid = { s with strands := (s.claimGone sid).strands }) ∧
    (∀ w on j x, s.strand? sid = some w → w.claim = some on → Tab.wf s.strands = true → j ≠ sid → s.strand? j = some x →
      ¬(x.st = .parked on ∧ x.homeCore = w.homeCore ∧ s.portServes w.homeCore on = true) →
      (s.claimGone sid).strand? j = some x) ∧
    ((t.th = true ∨ t.tvec = 0) → ¬ (s.die (dieOf t.core)).frecs.length < 64 → s.trap sid t c v = s) ∧
    ((t.th = true ∨ t.tvec = 0) → (s.die (dieOf t.core)).frecs.length < 64 → (s.strand? sid).isSome →
      (∃ u, (s.trap sid t c v).strand? sid = some u ∧ u.st = .ended ∧ u.loc = .gone) ∧
      ∃ r, ((s.trap sid t c v).die (dieOf t.core)).frecs = (s.die (dieOf t.core)).frecs ++ [r] ∧
        r.d0 = t.pc ∧ r.d2 = t.selfWord ∧ r.d3 = v ∧ bits r.d1 0 8 = 0x10 ∧ bits r.d1 8 8 = c.code.toNat ∧
        bits r.d1 20 4 = 15 ∧ bits r.d1 36 12 = t.asid.toNat ∧ ∀ tenant : Nat,
          tenant = (Memory.read s.mem (s.asidtab.toNat + 16 * t.asid.toNat + 8)).toNat % 64 →
          bits r.d1 30 6 = tenant ∧ r.tenant = if t.asid = 0 then none else some tenant)

/-- R37, R70, R76, R228: `trap` raises SOFT and `brk` BREAK with their immediates, an illegal word ILLEGAL with the word, and a fetch
outside the image bound BOUND with its distance from the image. -/
def Sys2Proof.Claims.TrapForms : Prop :=
  (∀ n, (Instr.trap n).runs (fun _ _ _ _ => True) (fun s _ t _ => s.trap s.cur t .soft (n.setWidth 64))) ∧
  (∀ n, (Instr.brk n).runs (fun _ _ _ _ => True) (fun s _ t _ => s.trap s.cur t .brk (n.setWidth 64))) ∧
  (∀ w, (Instr.illegalWord w).runs (fun _ _ _ _ => True) (fun s _ t _ => s.trap s.cur t .illegal (w.setWidth 64))) ∧
  Instr.fetchBound.runs (fun _ _ _ _ => True) (fun s _ t _ => s.trap s.cur t .bound (t.pc - t.image))

/-- Taking a trap saves cause, PC and value and goes on at TVEC, or halts the strand; trap, brk, illegal words and fetches out of
bounds take it. The reading of log entry 46 is the model's own. -/
def Obligations.TrapEntry : Prop :=
  Claims.TrapEntry ∧ Claims.TrapForms

/-- R76, R77, R148: `eret` goes back to TPC and clears TH, and outside a handler raises ILLEGAL; `idle` makes the strand IDLE, or
goes on and clears a recorded wake; `tmr` and `prio` exchange the timer and the priority with gA, which never goes below BASE. -/
def Sys2Proof.Claims.TrapReturnTimerPriority : Prop :=
  Instr.eret.runs (fun _ _ t _ => t.th = true)
    (fun s s1 t _ => { s1.setStrand s.cur { t with th := false, pc := t.tpc } with barHolds := keyErase s.cur s1.barHolds }) ∧
  Instr.eret.runs (fun _ _ t _ => t.th = false)
    (fun s _ t _ => s.trap s.cur t .illegal (((encode .eret).getD 0).setWidth 64)) ∧
  Instr.idle.runs (fun _ _ t _ => t.wake = true) (fun s s1 t _ => s1.setStrand s.cur { t with pc := t.pc + 4, wake := false }) ∧
  Instr.idle.runs (fun _ _ t _ => t.wake = false)
    (fun s s1 t _ => s1.setStrand s.cur { t with st := .idle, parkedAt := s.cycle }) ∧
  (∀ d a, (Instr.tmr d a).runs (fun _ _ _ _ => True)
    (fun s s1 t v => s1.finish s.cur { t with tmr := v a, tmrDue := false } d t.tmr)) ∧
  (∀ d a, (Instr.prio d a).runs (fun _ _ _ _ => True)
    (fun s s1 t v => s1.finish s.cur { t with
      prioP := BitVec.ofNat 2 (max (min (v a).toNat 3) t.prioBase.toNat) } d (t.prioP.setWidth 64)))

/-- R71, R97: TIMER is taken by a strand whose timer is due, in a slot, outside its handler, with nothing held, whatever its sequencer
does: TPC is the instruction not yet issued, or the one after `idle`; the timer is disarmed. A strand whose timer is not due takes
none. -/
def Sys2Proof.Claims.TimerTrap : Prop :=
  ∀ (s : State) (t : Strand), s.strand? s.ua = some t →
    (t.tmrDue = true → t.th = false → t.place?.isSome → t.opFault = none → t.seqFault = none → t.hold = none → t.susp = none →
      t.mig = none → (t.st = .run ∨ t.st = .idle ∨ (∃ k b, t.st = .parked (.word k b)) ∨
        (∃ p, t.st = .parked (.push p)) ∨ ∃ p, t.st = .parked (.pop p)) →
      exec .timer s = .next (s.trap s.ua { t with
        tmrDue := false, tmr := 0, pc := if t.st = .idle then t.pc + 4 else t.pc } .timer 0)) ∧
    (t.tmrDue = false → exec .timer s = .next s)

/-- Eret, idle, tmr and prio, and when TIMER is taken. The reading of log entry 20 is the model's own. -/
def Obligations.TrapReturnAndTimer : Prop :=
  Claims.TrapReturnTimerPriority ∧ Claims.TimerTrap

/-- R35, R45, R61, R74, R75, R77, R138, R295: `sysrd` gives the register as R74 lists it; FRM waits for an empty sequencer. `syswr`
writes the fields of its register that can be written, and no other register; FRM, KHASH and KBINS wait for an empty sequencer. -/
def Sys2Proof.Claims.SystemRegisters : Prop :=
  (∀ d n, (Instr.sysrd d n).runs (fun _ _ t _ => (sysRegSup n.toNat = true → t.sup = true) ∧ (n = 5 → t.seq = []))
    (fun s s1 t _ => s1.finish s.cur t d (s1.sysRead t n.toNat))) ∧
  (∀ (s : State) (t : Strand) (k : Core) (cl : Cluster), k = s.core t.core → cl = s.cluster (clusterOf t.core) →
    (∀ n v, (n, v) ∈ [(0x01, t.tvec), (0x02, t.tcause.setWidth 64), (0x03, t.tpc), (0x04, t.tval), (0x05, t.frm.setWidth 64),
        (0x06, t.tmr), (0x07, BitVec.ofNat 64 (4 * t.prioBase.toNat + t.prioP.toNat)), (0x08, t.qbind.setWidth 64), (0x09, t.khash),
        (0x0A, t.kbins), (0x0C, BitVec.ofNat 64 (t.asid.toNat + 2 ^ 12 * (s.asidGen t.asid).toNat)), (0x0D, s.tickp.setWidth 64),
        (0x10, k.ctxbase), (0x11, k.ctxn.setWidth 64), (0x12, k.slottab0), (0x13, k.slottab1),
        (0x14, BitVec.ofNat 64 (2 ^ 16 * k.parkswap.toNat + if k.wc then 1 else 0)), (0x15, cl.qring), (0x16, cl.qrlim),
        (0x18, 0), (0x19, (s.die (dieOf t.core)).hintdrop)] → s.sysRead t n = v) ∧
    (t.slot < 8 → ∀ v, v = s.sysRead t 0 → bits v 13 3 = t.slot ∧ v.getLsbD 12 = t.home.isSome ∧ v.getLsbD 11 = t.pair ∧
      bits v 9 2 = t.cls.toNat ∧ v.getLsbD 8 = t.sup ∧ v.getLsbD 1 = t.tw ∧ v.getLsbD 0 = t.th ∧ bits v 2 6 = 0 ∧ bits v 16 48 = 0) ∧
    (∀ v, v = s.sysRead t 0xB → (∀ c lo, (c, lo) ∈ [(Ctr.ld, 0), (.st, 8), (.cp, 16), (.mx, 24), (.dx, 32), (.cl, 40)] →
      bits v lo 8 = min (t.outst.countP fun x => x.2 = c) 255) ∧ bits v 48 16 = 0) ∧
    ∀ v i x, v = s.sysRead t 0x17 → i < 8 → x = vget k.slots i .free →
      bits v (4 * i) 2 = (match x with | .free => 0 | .live _ | .coming _ => 1 | .swap _ | .enter _ => 2 | .reserved _ => 3) ∧
      (∀ sid u, x = .live sid → s.strand? sid = some u → bits v (4 * i + 2) 2 = u.cls.toNat)) ∧
  (∀ d, (Instr.sysrd d 5).runs (fun _ _ t _ => t.seq ≠ []) (fun s _ _ _ => s)) ∧
  (∀ a, (Instr.syswr a 0).runs (fun _ _ _ _ => True)
    (fun s s1 t v => s1.setStrand s.cur { t with pc := t.pc + 4, th := (v a).getLsbD 0, tw := (v a).getLsbD 1 })) ∧
  (∀ a, (Instr.syswr a 1).runs (fun _ _ _ _ => True)
    (fun s s1 t v => s1.setStrand s.cur { t with pc := t.pc + 4, tvec := v a &&& ~~~ 3 })) ∧
  (∀ a, (Instr.syswr a 2).runs (fun _ _ _ _ => True)
    (fun s s1 t v => s1.setStrand s.cur { t with pc := t.pc + 4, tcause := (v a).setWidth 8 })) ∧
  (∀ a, (Instr.syswr a 3).runs (fun _ _ _ _ => True)
    (fun s s1 t v => s1.setStrand s.cur { t with pc := t.pc + 4, tpc := v a &&& ~~~ 3 })) ∧
  (∀ a, (Instr.syswr a 4).runs (fun _ _ _ _ => True)
    (fun s s1 t v => s1.setStrand s.cur { t with pc := t.pc + 4, tval := v a })) ∧
  (∀ a, (Instr.syswr a 0x10).runs (fun _ _ t _ => t.sup = true)
    (fun s s1 t v => (s1.modCore t.core fun k => { k with ctxbase := v a &&& 0x00FFFFFFFFFFE000 }).setStrand s.cur
      { t with pc := t.pc + 4 })) ∧
  (∀ a, (Instr.syswr a 0x11).runs (fun _ _ t _ => t.sup = true)
    (fun s s1 t v => (s1.modCore t.core fun k => { k with ctxn := (v a).setWidth 13 }).setStrand s.cur
      { t with pc := t.pc + 4 })) ∧
  (∀ a, (Instr.syswrTmr a).runs (fun _ _ _ _ => True)
    (fun s s1 t v => s1.setStrand s.cur { t with pc := t.pc + 4, tmr := v a, tmrDue := false })) ∧
  (∀ a, (Instr.syswrFrm a).runs (fun _ _ t _ => t.seq = [])
    (fun s s1 t v => s1.setStrand s.cur { t with pc := t.pc + 4, frm := (v a).setWidth 8 &&& 0xF3 })) ∧
  (∀ a, (Instr.syswrPrio a).runs (fun _ _ _ _ => True)
    (fun s s1 t v => s1.setStrand s.cur { t with
      pc := t.pc + 4, prioP := BitVec.ofNat 2 (max ((v a).toNat % 4) t.prioBase.toNat) })) ∧
  (∀ a, (Instr.syswrKhashKbins a 9).runs (fun _ _ t _ => t.seq = [])
    (fun s s1 t v => s1.setStrand s.cur { t with pc := t.pc + 4, khash := v a &&& 0xFFFFFFFF001F0000 })) ∧
  (∀ a, (Instr.syswrKhashKbins a 10).runs (fun _ _ t _ => t.seq = [])
    (fun s s1 t v => s1.setStrand s.cur { t with pc := t.pc + 4, kbins := v a &&& 0x80007FFF0003FFF8 })) ∧
  (∀ a i, (i = Instr.syswrFrm a ∨ ∃ n, i = .syswrKhashKbins a n) → i.runs (fun _ _ t _ => t.seq ≠ []) (fun s _ _ _ => s)) ∧
  (∀ a, (Instr.syswrSlottab a 0x12).runs (fun _ _ t _ => t.sup = true)
    (fun s s1 t v => (s1.modCore t.core fun k => { k with slottab0 := v a }).setStrand s.cur { t with pc := t.pc + 4 })) ∧
  (∀ a, (Instr.syswrSlottab a 0x13).runs (fun _ _ t _ => t.sup = true)
    (fun s s1 t v => (s1.modCore t.core fun k => { k with slottab1 := v a }).setStrand s.cur { t with pc := t.pc + 4 })) ∧
  (∀ a, (Instr.syswrSlottab a 0x14).runs (fun _ _ t _ => t.sup = true)
    (fun s s1 t v => (s1.modCore t.core fun k => { k with wc := (v a).getLsbD 0, parkswap := (v a).extractLsb' 16 16 }).setStrand
      s.cur { t with pc := t.pc + 4 }))

/-- R35, R67, R75, R87, R150: `syswr` to QBIND binds and unbinds like `qbind` and `qunbind`; QRING and QRLIM are written while the
sub-rings are empty and the spill engine is IDLE, and otherwise keep their value; a write of SWAPREQ swaps the strand of its slot out,
one slot of a core at a time and after the wake of one whose operations a fault holds (R306). A register of the supervisor raises
ILLEGAL in any other strand, before any operand is read or found wanting (R37). The word that would write a read-only register, or one
that R74 does not list, is an illegal word: it raises ILLEGAL with the word. -/
def Sys2Proof.Claims.SupervisorWrites : Prop :=
  (∀ a, (Instr.syswrQbind a).runs (fun _ _ _ _ => True) (fun s s1 t v =>
    let x := (List.range 8).foldl (fun x i => x.1.rebindField s.cur x.2 i (qField ((v a).setWidth 32) i)) (s1, t)
    x.1.setStrand s.cur { x.2 with pc := x.2.pc + 4 })) ∧
  (∀ a, (Instr.syswrQring a 0x15).runs
    (fun _ s1 t _ => t.sup = true ∧ (s1.cluster (clusterOf t.core)).spill = .idle ∧
      ((s1.cluster (clusterOf t.core)).qrlim = 0 ∨ ∀ p, p < 4 → s1.ringCount (clusterOf t.core) p = 0))
    (fun s s1 t v => (s1.modCluster (clusterOf t.core) fun x => { x with qring := v a &&& 0x00FFFFFFFFFFF000 }).setStrand
      s.cur { t with pc := t.pc + 4 })) ∧
  (∀ a, (Instr.syswrQring a 0x16).runs
    (fun _ s1 t _ => t.sup = true ∧ (s1.cluster (clusterOf t.core)).spill = .idle ∧
      ((s1.cluster (clusterOf t.core)).qrlim = 0 ∨ ∀ p, p < 4 → s1.ringCount (clusterOf t.core) p = 0))
    (fun s s1 t v => (s1.modCluster (clusterOf t.core) fun x => { x with qrlim := v a &&& 0xFFFF }).setStrand
      s.cur { t with pc := t.pc + 4 })) ∧
  (∀ a n, (Instr.syswrQring a n).runs
    (fun _ s1 t _ => t.sup = true ∧ ((s1.cluster (clusterOf t.core)).spill ≠ .idle ∨
      (s1.cluster (clusterOf t.core)).qrlim ≠ 0 ∧ ∃ p, p < 4 ∧ s1.ringCount (clusterOf t.core) p ≠ 0))
    (fun s s1 t _ => s1.setStrand s.cur { t with pc := t.pc + 4 })) ∧
  (∀ a, (Instr.swapreq a).runs (fun _ _ t _ => t.sup = true)
    (fun s s1 t v => (s1.requestSwap t.core (bits (v a) 0 3)).setStrand s.cur { t with
      pc := t.pc + 4
      loc := (((s1.requestSwap t.core (bits (v a) 0 3)).strand? s.cur).map fun u => u.loc).getD t.loc })) ∧
  (∀ (s : State) (sid c k : Nat), k < 8 →
    ((∀ i, vget (s.core c).slots k .free ≠ .live i) → s.requestSwap c k = s) ∧
    (vget (s.core c).slots k .free = .live sid → (s.core c).swapReq = [] →
      (∀ u, s.strand? sid = some u → u.loc = .slot c k → u.partner = none → (u.opFault.isSome ∨ u.seqFault.isSome ∨ u.mig.isSome ∨
          ∃ i x, i < 8 ∧ (vget (s.core c).slots i .free = .swap x ∨ vget (s.core c).slots i .free = .enter x)) →
        s.requestSwap c k = s.modCore c fun x => { x with swapReq := [k] }) ∧
      ∀ u, s.strand? sid = some u → u.loc = .slot c k → u.partner = none → u.claim = none → u.opFault = none → u.seqFault = none →
        u.mig = none → (∀ i x, i < 8 → vget (s.core c).slots i .free ≠ .swap x ∧ vget (s.core c).slots i .free ≠ .enter x) →
        (s.requestSwap c k).strand? sid = some { u with loc := .swapOut c k } ∧
          vget ((s.requestSwap c k).core c).slots k .free = .swap sid ∧ ((s.requestSwap c k).core c).swapReq = [] ∧
          (s.requestSwap c k).mem = s.mem ∧ (∀ j, j ≠ sid → (s.requestSwap c k).strand? j = s.strand? j))) ∧
  (∀ (a : GReg) (n : SysNum) (w : BitVec 32), n.toNat ∈ [0xB, 0xC, 0xD, 0xE, 0xF, 0x17, 0x19] ∨ 0x1A ≤ n.toNat →
    w = 0x30#6 ++ 0x0#5 ++ a ++ 0x1#4 ++ n → instrOf w = .illegalWord w ∧
      (Instr.illegalWord w).runs (fun _ _ _ _ => True) (fun s _ t _ => s.trap s.cur t .illegal (w.setWidth 64))) ∧
  ∀ i, (∃ a n, sysRegSup n.toNat = true ∧ (i = Instr.sysrd a n ∨ i = .syswr a n)) ∨
      (∃ a n, i = .syswrSlottab a n ∨ i = .syswrQring a n) ∨ (∃ a, i = .swapreq a) →
    ∀ (s s1 : State) (t : Strand) (got : List (GReg × Word)), s.issued (.illegalWord ((encode i).getD 0)) = some (t, s1, got) →
      t.sup = false → exec i s = .next (s.trap s.cur t.settled .illegal (((encode i).getD 0).setWidth 64))

/-- Sysrd and syswr of every system register, and ILLEGAL for a register of the supervisor. The readings of log entries 21, 24, 56 and
72 are the model's own. -/
def Obligations.SystemRegisters : Prop :=
  Claims.SystemRegisters ∧ Claims.SupervisorWrites

/-! ## Pre-emption, task records and barriers -/

/-- R62, R64, R65, R67, R68, R225, R314: PARKSWAP pre-empts the victim that R67 orders first when no slot is free, a record waits and
a strand has been parked for too long; a quiet strand in SWAP, whose accesses to its slice are performed, goes to the context cache,
its slice to the memory context area, and its slot is free; with a full cache the oldest context without engine operations goes to
memory. A context that may return, and that no more urgent group is to have the slot before, takes the first free slot, by way of
SWAP, with its slice; one in memory comes into the cache first, with the values that its entry now holds, and a poisoned word of it
seals the core. The readings of log entries 22, 25, 60, 61, 62 and 70 are the model's own. -/
def Obligations.Preemption : Prop :=
  ∀ (s : State),
    (∀ sid t, (s.core s.ua).parkswap ≠ 0 → s.hasFree s.ua = false → s.taskWaits s.ua = true → s.parkedLong s.ua = true →
      victimOf (s.parkVictims s.ua) = some (sid, t) →
      exec .parkswapPreempt s = .next (s.beginSwap sid)) ∧
    ((s.core s.ua).parkswap = 0 ∨ s.hasFree s.ua = true ∨ s.taskWaits s.ua = false ∨ s.parkedLong s.ua = false →
      exec .parkswapPreempt s = .next s) ∧
    (∀ (l : List (Nat × Strand)) (x : Nat × Strand), victimOf l = some x → x ∈ l ∧ ∀ y ∈ l,
      (x.2.st = .run → y.2.st = .run) ∧ ((x.2.st = .run ↔ y.2.st = .run) → y.2.prioP ≤ x.2.prioP ∧
        (y.2.prioP = x.2.prioP → x.2.lastAt ≤ y.2.lastAt ∧ (y.2.lastAt = x.2.lastAt → x.2.slot ≤ y.2.slot)))) ∧
    (∀ t : Strand, t.lastAt = match t.lastIssue with | none => 0 | some n => n + 1) ∧
    (∀ sid, s.maySwap sid = false → s.beginSwap sid = s) ∧
    (∀ sid t s1 va, vget (s.core s.ua).slots s.ub .free = .swap sid → s.strand? sid = some t → t.loc = .swapOut s.ua s.ub →
      t.quiet = true → (∀ o ∈ t.ops, ∀ key, o.kind.key? = some key → inSlice s.ua s.ub key = false) →
      (s.core s.ua).cache.length < 8 → va = (s.core s.ua).ctxbase.toNat + 8192 * t.ctx + 0x1000 →
      s.writeVirt (dieOf s.ua) 0 va (s.readBytes (scratchKey s.ua (0x1000 * s.ub)) 4096) = .ok s1 →
      exec .swapOutComplete s = .next
        ((((s1.carryPoison s 4096 (fun _ o => some (scratchKey s.ua (0x1000 * s.ub + o))) (atVirt (dieOf s.ua) 0 va)).setStrand sid
          { t with loc := .cached s.ua, st := t.st.saved s.ua s.ub, sliceFull := s.sliceBits s.ua s.ub, ready := s.cycle + 1 }).modCore s.ua fun k => { k with
          slots := vset k.slots s.ub .free, cache := k.cache ++ [sid] }).nextSwap s.ua)) ∧
    (∀ sid t, vget (s.core s.ua).slots s.ub .free = .swap sid → s.strand? sid = some t →
      (t.quiet = false ∨ 8 ≤ (s.core s.ua).cache.length ∨ ∃ o ∈ t.ops, ∃ key, o.kind.key? = some key ∧ inSlice s.ua s.ub key = true) →
      exec .swapOutComplete s = .next s) ∧
    (∀ t : Strand, t.quiet = true → t.seq = [] ∧ t.pend = 0 ∧ t.rets = [] ∧ ∀ x ∈ t.outst, x.2 ≠ .ld) ∧
    (∀ c k key full, StrandSt.saved c k (.parked (.word key full)) =
      .parked (if scratchKey c (0x1000 * k) ≤ key ∧ key < scratchKey c (0x1000 * k) + 0x1000 then .own (key - scratchKey c (0x1000 * k)) full
        else .word key full)) ∧
    (∀ c t, s.returns c t = true ↔ (t.wake = true ∨ t.st = .run ∨ t.st = .idle) ∧ t.ready ≤ s.cycle ∧
      ∀ q ∈ s.queues, q.prio < t.prioP.toNat → ∀ e, q.entries.head? = some e → c ∉ (s.chance q.prio e).cores) ∧
    (∀ sid t s1, (s.core s.ua).cache.length = 8 → (∃ k j, k < 8 ∧ vget (s.core s.ua).slots k .free = .swap j) →
      ((s.core s.ua).cache.find? fun i => ((s.strand? i).map Strand.evictable).getD false) = some sid →
      s.strand? sid = some t →
      s.writeVirt (dieOf s.ua) 0 ((s.core s.ua).ctxbase.toNat + 8192 * t.ctx) t.ctxEntry = .ok s1 →
      exec .contextEvict s = .next
        ((s1.setStrand sid { t with loc := .stored s.ua, fences := [] }).modCore s.ua fun k => { k with
          cache := keyErase sid k.cache })) ∧
    (∀ k sid, (s.core s.ua).entering = none → (s.core s.ua).freeSlot = some k → (s.core s.ua).swapBusy = false →
      ((s.core s.ua).cache.find? fun i => (s.strand? i).any fun t => s.returns s.ua t) = some sid →
      exec .swapIn s = .next
        ((s.modStrand sid fun t => { t with loc := .swapIn s.ua k }).modCore s.ua fun y => { y with
            slots := vset y.slots k (.enter sid), cache := keyErase sid y.cache })) ∧
    (∀ k sid t b s1, (s.core s.ua).entering = none → (s.core s.ua).freeSlot = some k → (s.core s.ua).swapBusy = false →
      ((s.core s.ua).cache.find? fun i => (s.strand? i).any fun t => s.returns s.ua t) = none → (s.core s.ua).cache.length < 8 →
      (s.strands.find? fun y => decide (y.2.loc = .stored s.ua) && s.returns s.ua y.2) = some (sid, t) →
      s.readVirt (dieOf s.ua) 0 ((s.core s.ua).ctxbase.toNat + 8192 * t.ctx) 4096 = .ok (b, s1) →
      ∀ s2, s2 = ((s1.setStrand sid { t.fromEntry b with loc := .cached s.ua }).modCore s.ua fun y => { y with cache := y.cache ++ [sid] }) →
        exec .swapIn s = .next
          (if s1.badVirt (dieOf s.ua) 0 ((s.core s.ua).ctxbase.toNat + 8192 * t.ctx) 4096 then s2.seal s.ua else s2)) ∧
    (∀ k sid t b s1 va, (s.core s.ua).entering = some (k, sid) → s.strand? sid = some t →
      va = (s.core s.ua).ctxbase.toNat + 8192 * t.ctx + 0x1000 → s.readVirt (dieOf s.ua) 0 va 4096 = .ok (b, s1) →
      exec .swapIn s = .next
        ((((((s1.writeBytes (scratchKey s.ua (0x1000 * k)) b).putSliceBits s.ua k t.sliceFull).carryPoison s 4096
          (atVirt (dieOf s.ua) 0 va) fun _ o => some (scratchKey s.ua (0x1000 * k + o))).setStrand sid
          (t.returned s.ua k s.cycle)).modCore s.ua fun y => { y with slots := vset y.slots k (.live sid) }).nextSwap s.ua)) ∧
    (∀ (t : Strand) (c k n : Nat),
      (t.returned c k n).loc = .slot c k ∧ (t.returned c k n).gr = t.gr ∧ (t.returned c k n).vr = t.vr ∧
      (t.st = .idle → t.wake = true → (t.returned c k n).st = .run ∧ (t.returned c k n).pc = t.pc + 4) ∧
      (t.st = .idle → t.wake = false → (t.returned c k n).st = .idle ∧ (t.returned c k n).pc = t.pc) ∧
      (∀ on, t.st = .parked on → t.wake = true → (t.returned c k n).st = .run ∧ (t.returned c k n).pc = t.pc)) ∧
    ∀ (t : Strand) (b : List Byte) (u : Strand), u = t.fromEntry b →
      (∀ i, 0 < i → i < 32 → vget u.gr i 0 = dwordAt b i) ∧
      (∀ i, i < 16 → vget u.vr i 0 = BitVec.ofNat 128 (natOfBytes ((b.drop (0x100 + 16 * i)).take 16))) ∧
      u.pc = dwordAt b 0x40 ∧ u.th = (dwordAt b 0x41).getLsbD 0 ∧ u.tval = dwordAt b 0x44 ∧ u.tmr = dwordAt b 0x45 ∧
      u.tvec = dwordAt b 0x42 &&& ~~~ 3 ∧ u.tpc = dwordAt b 0x43 &&& ~~~ 3 ∧ u.qbind = (dwordAt b 0).setWidth 32 ∧
      u.wake = (t.wake || (dwordAt b 0).getLsbD 50) ∧ u.frm = (dwordAt b 0).extractLsb' 40 8 &&& 0xF3

/-- R138, R143, R152 to R156, R336: `spawn`, `spawnd` and `tqpush` read their record of 64 bytes at h0 + g(A) and send it, marked with
the strand's ASID and priority, reserved bits clear: it counts on ST, and gD waits for the reply; they wait for the strand's earlier
accesses and for a link to the bytes. `tqpop` counts on LD. A record outside h0's region, or not aligned, raises the trap of its
check, and so does the descriptor of `spawnd`, before it. `spawnd` sends to the core that owns its byte. -/
def Sys2Proof.Claims.TaskRecordsIssue : Prop :=
  (∀ d a b s2 bs, (Instr.spawn d a b).runs
    (fun _ s1 t v => recordCheck t (v a) rR = none ∧ t.ops = [] ∧
      s1.allUp (dieOf t.core) (t.regionAt 0) (v a).toNat 64 accR = true ∧
      s1.readSpan (dieOf t.core) (t.regionAt 0) (v a).toNat 64 = .ok (bs, s2))
    (fun _ _ t v => s2.sendRecord t d ((taskOf bs).setLoc (targetLoc (taskOf bs).loc (v b))) none)) ∧
  (∀ d a b s2 s3 bs c, (Instr.spawnd d a b).runs
    (fun _ s1 t v => accessCheck (t.regionAt (bits (v b) 40 5)) (bits (v b) 40 5) (v b &&& 0xFFFFFFFFFF) 1 rR .plain = none ∧
      recordCheck t (v a) rR = none ∧ t.ops = [] ∧
      s1.ownerCore t (t.regionAt (bits (v b) 40 5)) (v b &&& 0xFFFFFFFFFF).toNat = .ok (c, s2) ∧
      s2.allUp (dieOf t.core) (t.regionAt 0) (v a).toNat 64 accR = true ∧
      s2.readSpan (dieOf t.core) (t.regionAt 0) (v a).toNat 64 = .ok (bs, s3))
    (fun _ _ t v => s3.sendRecord t d ((taskOf bs).setLoc (targetLoc (taskOf bs).loc
      (locWord c (bits (taskOf bs).loc 0 3) ||| (if (v b).getLsbD 45 then 0x2000000 else 0)))) none)) ∧
  (∀ d a s2 bs, (Instr.tqpush d a).runs
    (fun _ s1 t v => recordCheck t (v a) rR = none ∧ t.ops = [] ∧
      s1.allUp (dieOf t.core) (t.regionAt 0) (v a).toNat 64 accR = true ∧
      s1.readSpan (dieOf t.core) (t.regionAt 0) (v a).toNat 64 = .ok (bs, s2))
    (fun _ _ t _ => s2.sendRecord t d (taskOf bs) (some (clusterOf t.homeCore)))) ∧
  (∀ d a, (Instr.tqpop d a).runs (fun _ _ t v => recordCheck t (v a) rW = none)
    (fun s s1 t v => (s1.lateDest t d).1.enqueue s.cur (s1.lateDest t d).2.1 [.ld]
      (.pop t.homeCore (t.regionAt 0) (v a).toNat) (s1.lateDest t d).2.2)) ∧
  (∀ i a need, ((∃ d b, i = Instr.spawn d a b ∧ need = rR) ∨ (∃ d, i = .tqpush d a ∧ need = rR) ∨
      (∃ d, i = .tqpop d a ∧ need = rW)) →
    ∀ c w, i.runs (fun _ _ t v => recordCheck t (v a) need = some (c, w)) (fun s _ t _ => s.trap s.cur t c w)) ∧
  (∀ d a b c w, (Instr.spawnd d a b).runs
    (fun _ _ t v => ∀ x, x = accessCheck (t.regionAt (bits (v b) 40 5)) (bits (v b) 40 5) (v b &&& 0xFFFFFFFFFF) 1 rR .plain →
      x = some (c, w) ∨ x = none ∧ recordCheck t (v a) rR = some (c, w))
    (fun s _ t _ => s.trap s.cur t c w)) ∧
  (∀ d a b e, (Instr.spawnd d a b).runs
    (fun _ s1 t v => accessCheck (t.regionAt (bits (v b) 40 5)) (bits (v b) 40 5) (v b &&& 0xFFFFFFFFFF) 1 rR .plain = none ∧
      recordCheck t (v a) rR = none ∧ t.ops = [] ∧
      s1.ownerCore t (t.regionAt (bits (v b) 40 5)) (v b &&& 0xFFFFFFFFFF).toNat = .error e)
    (fun s _ t _ => s.spanFail s.cur t e)) ∧
  (∀ (t : Strand) (o : Word) need, recordCheck t o need = none ↔
    accessCheck (t.regionAt 0) 0 o 64 need .plain = none ∧ o.toNat % 64 = 0) ∧
  (∀ (r : TaskRec) (t : Strand), (r.mark t).asid = t.asid ∧ (r.mark t).prio = max r.prio t.prioP.toNat ∧
    ∀ i, i < 8 → i ≠ 6 → vget (r.mark t) i 0 = vget r i 0) ∧
  (∀ i a need, ((∃ d b, i = Instr.spawn d a b ∧ need = rR) ∨ (∃ d, i = .tqpush d a ∧ need = rR)) →
    i.runs (fun _ s1 t v => recordCheck t (v a) need = none ∧
        (t.ops ≠ [] ∨ s1.allUp (dieOf t.core) (t.regionAt 0) (v a).toNat 64 accR = false)) (fun s _ _ _ => s)) ∧
  ∀ (bs : List Byte) (i : Nat), i < 8 → vget (taskOf bs) i 0 = dwordAt bs i &&&
    (if i = 6 then 0xFFFFF807FFFFBFFF else if i = 7 then 0xFFFFFFFF02FFFF07 else BitVec.allOnes 64)

/-- R80, R138, R143: a record that is sent is the last operation of its strand, behind the earlier ones: it counts on ST, its register
is pending, and the strand goes on; a result for g0 goes nowhere. -/
def Sys2Proof.Claims.RecordsSent : Prop :=
  ∀ (s : State) (t : Strand) (d : GReg) (r : TaskRec) (own : Option Nat), t.bound? d = none →
    ∃ u, s.sendRecord t d r own = s.fresh.2.setStrand s.cur u ∧
      u = { t with
        pc := t.pc + 4, pend := u.pend, outst := t.outst ++ [(s.serial, .st)]
        ops := t.ops ++ [{ sn := s.serial, core := t.core, pc := t.pc, kind := .push (r.mark t) own
                           dest := if d = 0 then .drop else .gpr d, since := s.cycle }] } ∧
      (u.pend.getLsbD d.toNat = true ∨ d = 0) ∧ ∀ q : GReg, q ≠ d ∨ d = 0 → u.pend.getLsbD q.toNat = t.pend.getLsbD q.toNat

/-- R154, R302: the core that owns a byte: of a slice or a bank run the strand's home core, of a peer region its core, of a cluster
window the core by 256-byte stripes, of a chip window the slice's core by pages of 4 KiB, of a global address its home slice's core on
the die of its physical address. -/
def Sys2Proof.Claims.OwnerCores : Prop :=
  ∀ (s s1 : State) (t : Strand) (r : Region) (o pa c : Nat),
    (r.space = 4 → s.translate (dieOf t.core) r.asid (r.base + o) accR = .ok (pa, s1) →
      s.ownerCore t r o = .ok (sliceCore (pa / 2 ^ 44) (homeSlice r.asid (r.base + o)), s1)) ∧
    (r.space = 4 → s.translate (dieOf t.core) r.asid (r.base + o) accR = .error c →
      s.ownerCore t r o = .error (.xlate c (r.base + o))) ∧
    (r.space = 2 → s.ownerCore t r o = .ok (clusterCore r.unit ((r.base + o) / 256 % 16), s)) ∧
    (r.space = 3 → s.ownerCore t r o = .ok (sliceCore r.unit ((r.base + o) / 4096 % 64), s)) ∧
    (r.space = 5 → s.ownerCore t r o = .ok (r.unit, s)) ∧
    (r.space = 0 ∨ r.space = 1 → s.ownerCore t r o = .ok (t.homeCore, s))

/-- Spawn, spawnd, tqpush and tqpop send their record, or raise the trap of a check. The readings of log entries 15, 26 and 66 are the
model's own. -/
def Obligations.TaskRecordsIssue : Prop :=
  Claims.TaskRecordsIssue ∧ Claims.RecordsSent ∧ Claims.OwnerCores

/-- R142 to R144, R148, R149, R152, R153, R155: a record that no refusal stops enters its bank behind the others with the bank's next
number, and 0 is on its way to gD; while its sub-ring holds records it goes there, or gives FULL where the ring is full; at a full
bank it stalls and the spill engine starts, and one that the engine could not help gives FULL. A refused one enters nothing and its
status is on its way: NOTARGET, BADREC or SEALED. A WAKE record wakes the strand of its slot if the ASIDs agree (an IDLE one goes on
behind its `idle`; one in SWAP, or on its way to a new slot, has the wake recorded), and gives NOSTRAND otherwise. The readings of log
entries 26 and 67 are the model's own. -/
def Obligations.RecordsArrive : Prop :=
  ∀ (s : State) (t : Strand) (o : CoreOp) (rest : List CoreOp) (r : TaskRec) (own : Option Nat) (reply : Nat → Strand) (cl : Nat),
    s.strand? s.ua = some t → t.ops = o :: rest → o.kind = .push r own → t.opFault = none → t.pair = false →
    (∀ st, reply st = { t with
      ops := rest, rets := t.rets ++ [{ kind := .bank, sn := o.sn, dests := [(o.dest, BitVec.ofNat 64 st)] }] }) →
    cl = own.getD (clusterOf r.core) →
    (r.kind ≠ 2 → s.refusal? r own = none → (s.pkgUp (r.core / 2048) = true ∨ own.isSome = true) → o.sn ∉ (s.cluster cl).fulls →
      ((s.subring cl r.prio).2 = 0 → (s.cluster cl).bank.length < 4096 →
        ∃ s', exec .taskRecordInsert s = .next s' ∧
          (s'.cluster cl).bank = (s.cluster cl).bank ++
            [{ task := r.setLoc (putBits r.loc 32 32 (s.cluster cl).nextSeq), id := s.serial }] ∧
          (s'.cluster cl).nextSeq = (s.cluster cl).nextSeq + 1 ∧ o.sn ∉ (s'.cluster cl).stalled ∧
          s'.strand? s.ua = some (reply 0) ∧ s'.mem = (s.readHdrs cl).mem ∧ ((s.cluster cl).qrlim = 0 → s'.mem = s.mem)) ∧
      ((s.cluster cl).qrlim.toNat ≤ (s.subring cl r.prio).2 → 0 < (s.subring cl r.prio).2 →
        exec .taskRecordInsert s = .next ((s.readHdrs cl).inserted s.ua o cl 1)) ∧
      (∀ head count q, s.subring cl r.prio = (head, count) → 0 < count → count < (s.cluster cl).qrlim.toNat →
        q = r.setLoc (putBits r.loc 32 32 (s.cluster cl).nextSeq) →
        exec .taskRecordInsert s = .next (((((s.putOn (cl / 16) ((s.cluster cl).ringPlace r.prio ((head + count) %
          (s.cluster cl).qrlim.toNat)) q.bytes).putSubring cl r.prio head (count + 1)).modCluster cl fun y => { y with
            nextSeq := (s.cluster cl).nextSeq + 1 })).inserted s.ua o cl 0)) ∧
      ((s.subring cl r.prio).2 = 0 → 4096 ≤ (s.cluster cl).bank.length →
        exec .taskRecordInsert s = .next (s.modCluster cl fun y => { y with spill := .spill, stalled := keyInsert o.sn y.stalled }))) ∧
    (r.kind ≠ 2 → s.refusal? r own = none → (s.pkgUp (r.core / 2048) = true ∨ own.isSome = true) → o.sn ∈ (s.cluster cl).fulls →
      exec .taskRecordInsert s = .next (s.inserted s.ua o cl 1)) ∧
    (∀ (a : State) st, a.strand? s.ua = some t → a.inserted s.ua o cl st = (a.modCluster cl fun y => { y with
      stalled := keyErase o.sn y.stalled, fulls := keyErase o.sn y.fulls }).setStrand s.ua (reply st)) ∧
    ((∀ k, own = some k → clusterOf r.core ≠ k → (r.any = false ∨ r.kind = 2) → s.refusal? r own = some 3) ∧
      (own = none → s.inDomain (r.core / 2048) = false → s.refusal? r own = some 3) ∧
      (own = none → s.inDomain (r.core / 2048) = true →
        (r.bad = true → s.refusal? r own = some 5) ∧
        (r.bad = false → (s.core r.core).sealed = true → (r.any = false ∨ r.kind = 2) → s.refusal? r own = some 2) ∧
        (r.bad = false → (s.core r.core).sealed = false → s.refusal? r own = none))) ∧
    (∀ st, s.refusal? r own = some st →
      (r.kind = 2 → exec .wakeRecordDelivery s = .next (s.setStrand s.ua (reply st))) ∧
      (r.kind ≠ 2 → exec .taskRecordInsert s = .next (s.inserted s.ua o cl st))) ∧
    (r.kind = 2 → s.refusal? r own = none → (s.pkgUp (r.core / 2048) = true ∨ own.isSome = true) →
      (∀ i u, vget (s.core r.core).slots (bits r.loc 0 3) .free = .live i → i ≠ s.ua → s.strand? i = some u →
        (u.asid = r.asid → u.place?.isSome → u.st = .idle →
          ∃ s', exec .wakeRecordDelivery s = .next s' ∧
            s'.strand? i = some { u with st := .run, pc := u.pc + 4, ready := s.cycle + 1 } ∧
            s'.strand? s.ua = some (reply 0)) ∧
        (u.asid = r.asid → u.place?.isSome → ∀ on, u.st = .parked on →
          ∃ s', exec .wakeRecordDelivery s = .next s' ∧ s'.strand? i = some { u with st := .run, ready := s.cycle + 1 }) ∧
        (u.asid ≠ r.asid → exec .wakeRecordDelivery s = .next (s.setStrand s.ua (reply 4)))) ∧
      (∀ i u c k, (vget (s.core r.core).slots (bits r.loc 0 3) .free = .swap i ∧ u.loc = .swapOut c k ∨
          vget (s.core r.core).slots (bits r.loc 0 3) .free = .enter i ∧ u.loc = .swapIn c k ∨
          vget (s.core r.core).slots (bits r.loc 0 3) .free = .coming i ∧ u.loc = .transit c k) → i ≠ s.ua → s.strand? i = some u →
        u.asid = r.asid → ∃ s', exec .wakeRecordDelivery s = .next s' ∧ s'.strand? i = some { u with wake := true }) ∧
      (vget (s.core r.core).slots (bits r.loc 0 3) .free = .free →
        exec .wakeRecordDelivery s = .next (s.setStrand s.ua (reply 4))))

/-- R144, R149, R156, R321, R336: a `tqpop` takes the record of its choice once a link leads to its bytes: for a supervisor the oldest
orphan, which becomes an ordinary record and gives 2; else the most urgent, then oldest SOFT record of its ASID for its core, which
leaves with 1; it writes the record's 64 bytes, and gives 0 where the bank has none for it. The spill engine moves the newest records
of the least urgent level that has some and room in its sub-ring, and where none has, the stalled insertions are to give FULL; the
refill moves the oldest of the most urgent sub-ring back, with the numbers they have. The reading of log entry 26 is the model's own.
-/
def Obligations.BankRemovals : Prop :=
  ∀ s : State,
    (∀ t o rest home r off, s.strand? s.ua = some t → t.ops = o :: rest → o.kind = .pop home r off → t.opFault = none →
      t.pair = false →
      (s.allUp (dieOf o.core) r off 64 accW = false → exec .queueBankRemoval s = .next s) ∧
      (s.allUp (dieOf o.core) r off 64 accW = true →
        (s.popChoice t home = none → exec .queueBankRemoval s = .next (s.setStrand s.ua { t with
          ops := rest, rets := t.rets ++ [{ kind := .bank, sn := o.sn, dests := [(o.dest, 0)] }] })) ∧
        (∀ x s1, s.popChoice t home = some (x, 1) → s.writeSpan (dieOf o.core) r off x.task.bytes = .ok s1 →
          exec .queueBankRemoval s = .next ((s1.modCluster (clusterOf home) fun y => { y with
            bank := y.bank.filter fun z => !(z.id == x.id) }).bankReply s.ua o 1)) ∧
        (∀ x s1, s.popChoice t home = some (x, 2) → s.writeSpan (dieOf o.core) r off x.task.bytes = .ok s1 →
          exec .queueBankRemoval s = .next ((s1.modCluster (clusterOf home) fun y => { y with
            bank := y.bank.map fun z => if z.id = x.id then
              { z with orphan := false, task := z.task.setLoc (z.task.loc ||| 0x2000000) } else z }).bankReply s.ua o 2)))) ∧
    (∀ (t : Strand) (home : Nat) (bank : List BankRec) (mine : BankRec → Prop), bank = (s.cluster (clusterOf home)).bank →
      (∀ x, mine x ↔ x.task.kind = 1 ∧ x.task.asid = t.asid ∧ (x.task.any = true ∨ x.task.core = home)) →
      (s.popChoice t home = none ↔ (t.sup = true → ∀ x ∈ bank, x.orphan = false) ∧ ∀ x ∈ bank, ¬mine x) ∧
      ∀ x v, s.popChoice t home = some (x, v) →
        (v = 2 ∧ t.sup = true ∧ x.orphan = true ∧ ∃ l r, bank = l ++ x :: r ∧ ∀ y ∈ l, y.orphan = false) ∨
        (v = 1 ∧ (t.sup = true → ∀ y ∈ bank, y.orphan = false) ∧ mine x ∧ ∃ l r, bank = l ++ x :: r ∧
          (∀ y ∈ l, mine y → x.task.prio < y.task.prio) ∧ ∀ y ∈ r, mine y → x.task.prio ≤ y.task.prio)) ∧
    (∀ cl p, (s.spillLevel cl = some p ↔ p < 4 ∧ ∀ ok : Nat → Prop,
        (∀ q, ok q ↔ (∃ r ∈ (s.cluster cl).bank, r.running = none ∧ r.orphan = false ∧ r.task.prio = q) ∧
          (s.subring cl q).2 < (s.cluster cl).qrlim.toNat) → ok p ∧ ∀ q, p < q → q < 4 → ¬ok q) ∧
      (s.refillLevel cl = some p ↔ p < 4 ∧ 0 < (s.subring cl p).2 ∧ ∀ q, q < p → (s.subring cl q).2 = 0)) ∧
    ((s.cluster s.ua).spill ≠ .spill → exec .spill s = .next s) ∧
    ((s.cluster s.ua).spill = .spill → s.spillLevel s.ua = none → ∃ s', exec .spill s = .next s' ∧
      (s'.cluster s.ua).spill = .idle ∧ (s'.cluster s.ua).stalled = [] ∧ (s'.cluster s.ua).bank = (s.cluster s.ua).bank ∧
      ∀ n, n ∈ (s'.cluster s.ua).fulls ↔ n ∈ (s.cluster s.ua).stalled ∨ n ∈ (s.cluster s.ua).fulls) ∧
    (∀ p h n out, (s.cluster s.ua).spill = .spill → s.spillLevel s.ua = some p →
      n = min 64 (min ((s.cluster s.ua).qrlim.toNat - (s.subring s.ua p).2)
        ((s.cluster s.ua).bank.filter fun r => spillable p r).length) →
      out = ((s.cluster s.ua).bank.filter fun r => spillable p r).drop
        (((s.cluster s.ua).bank.filter fun r => spillable p r).length - n) →
      h = ((s.subring s.ua p).1 + (s.cluster s.ua).qrlim.toNat - n) % (s.cluster s.ua).qrlim.toNat →
      exec .spill s = .next
        ((((s.readHdrs s.ua).putRing s.ua p h out).putSubring s.ua p h ((s.subring s.ua p).2 + n)).modCluster
          s.ua fun y => { y with spill := .idle, stalled := []
                                 bank := y.bank.filter fun r => !(out.any fun z => z.id == r.id) })) ∧
    ((s.cluster s.ua).spill = .idle → s.refillDue s.ua = false → exec .refill s = .next s) ∧
    (∀ p n l s1, (s.cluster s.ua).spill ≠ .spill → (s.cluster s.ua).bank.length < 3840 →
      s.refillLevel s.ua = some p →
      n = min 64 (min (s.subring s.ua p).2 (3840 - (s.cluster s.ua).bank.length)) →
      (s.readHdrs s.ua).getRing s.ua p (s.subring s.ua p).1 n = (l, s1) →
      ∃ s', exec .refill s = .next s' ∧
        (s'.cluster s.ua).bank = (s.cluster s.ua).bank ++ ((indexed 0 (l.map fun r =>
            if (s.core r.core).sealed then r.setLoc (r.loc ||| 0x2000000) else r)).map fun z =>
              ({ task := z.2, id := s.serial + z.1 } : BankRec)) ∧
        s'.serial = s.serial + n ∧ (s'.cluster s.ua).nextSeq = (s.cluster s.ua).nextSeq)

/-- R79, R117, R143, R144, R146, R147: the dispatcher starts the best record that fits its core: most urgent, then oldest. Its strand
begins at ENTRY as a group of one core and one strand, with the record's registers, handles, priority, class and ASID, and no image
bound; the record leaves the bank, or with RETAIN stays RUNNING. A record whose handle table does not exist leaves the bank with a
TASKBAD record; where nothing fits, nothing happens. A record fits that is a STRAND record, not RUNNING and no orphan, for any core or
this one, where the core has a FREE slot and a context number, and its banks and windows are free. -/
def Sys2Proof.Claims.Dispatcher : Prop :=
  ∀ (s : State),
    (bestRecord (fun r => s.canStart s.ua r) (s.cluster (clusterOf s.ua)).bank = none → exec .dispatcherStart s = .next s) ∧
    (∀ x hs, bestRecord (fun r => s.canStart s.ua r) (s.cluster (clusterOf s.ua)).bank = some x →
      ∀ s1, s.taskHandles (dieOf s.ua) (s.asidTenant x.task.asid) (bits x.task.ctl 16 16) = .ok (hs, s1) →
      exec .dispatcherStart s = .next (s1.startTask s.ua x (s.asidTenant x.task.asid) hs)) ∧
    (∀ x, bestRecord (fun r => s.canStart s.ua r) (s.cluster (clusterOf s.ua)).bank = some x →
      s.taskHandles (dieOf s.ua) (s.asidTenant x.task.asid) (bits x.task.ctl 16 16) = .error () → s.recRoom (dieOf s.ua) = true →
      ∃ s' r, exec .dispatcherStart s = .next s' ∧
        (s'.die (dieOf s.ua)).frecs = (s.die (dieOf s.ua)).frecs ++ [r] ∧ bits r.d1 0 8 = 0x11 ∧
        (s'.cluster (clusterOf s.ua)).bank =
          (s.cluster (clusterOf s.ua)).bank.filter fun z => !(z.id == x.id)) ∧
    (∀ (c : Nat) (x : BankRec) (tenant : BitVec 6) (hs : List Handle) (a : Allot) (k : Nat),
      s.fits c x.task.need = some a → (s.core c).freeSlot = some k →
      ∃ s' sid gid u g, s.startTask c x tenant hs = s' ∧ s'.strand? sid = some u ∧ Tab.get? s'.groups gid = some g ∧
        u.group = gid ∧ u.loc = .transit c k ∧ vget (s'.core c).slots k .free = .coming sid ∧
        u.pc = vget x.task 0 0 ∧ u.asid = x.task.asid ∧ u.tenant = tenant ∧ u.prioP = BitVec.ofNat 2 x.task.prio ∧
        u.prioBase = BitVec.ofNat 2 x.task.prio ∧ u.cls = BitVec.ofNat 2 x.task.need.cls ∧ u.image = 0 ∧ u.imgsz = 0 ∧
        u.wid = vget x.task 5 0 ∧ u.grp = 0 ∧ u.th = false ∧ u.tvec = 0 ∧ u.frm = 0 ∧ u.qbind = 0 ∧ u.st = .run ∧
        (∀ r, r < 32 → vget u.gr r 0 = match r with
          | 1 => vget x.task 5 0 | 4 => vget x.task 1 0 | 5 => vget x.task 2 0 | 6 => vget x.task 3 0 | 7 => vget x.task 4 0
          | 30 => 0x1000 | _ => 0) ∧
        u.handles = startHandles g c k (hs.drop 4) ∧
        g.w = 1 ∧ g.h = 1 ∧ g.s = 1 ∧ g.core0 = c ∧ g.task = true ∧ g.bank0 = a.bank0 ∧ g.nbank = x.task.need.nbank ∧
        g.cl0 = a.cl0 ∧ g.clw = x.task.need.clw ∧ g.ch0 = a.ch0 ∧ g.chw = x.task.need.chw ∧
        (x.task.ctl.getLsbD 15 = false → (s'.cluster (clusterOf c)).bank =
          (s.cluster (clusterOf c)).bank.filter fun z => !(z.id == x.id)) ∧
        (x.task.ctl.getLsbD 15 = true → (s'.cluster (clusterOf c)).bank =
          (s.cluster (clusterOf c)).bank.map fun z => if z.id = x.id then { z with running := some sid } else z)) ∧
    (∀ (c : Nat) (r : BankRec) (n : Need), n = r.task.need → (s.canStart c r = true ↔
      r.task.kind = 0 ∧ r.running = none ∧ r.orphan = false ∧ (r.task.any = true ∨ r.task.core = c) ∧
      (s.die (dieOf c)).parked = false ∧ (s.core c).sealed = false ∧ (∃ k, k < 8 ∧ vget (s.core c).slots k .free = .free) ∧
      ((s.core c).ctxUsed.filter fun m => decide (m < (s.core c).ctxLimit)).length < (s.core c).ctxLimit ∧
      (n.nbank = 0 ∨ ∃ b, 1 ≤ b ∧ b + n.nbank ≤ 7 ∧ ∀ j, j < n.nbank → ∀ x ∈ s.groups, x.2.ended = false → c ∈ x.2.allCores →
        ¬(x.2.bank0 ≤ b + j ∧ b + j < x.2.bank0 + x.2.nbank)) ∧
      (n.clw = 0 ∨ ∃ o, o + n.clw ≤ 128 ∧ ∀ x ∈ s.groups, x.2.ended = false → (∃ k ∈ x.2.allCores, clusterOf k = clusterOf c) →
        o + n.clw ≤ x.2.cl0 ∨ x.2.cl0 + x.2.clw ≤ o) ∧
      (n.chw = 0 ∨ ∃ o, o + n.chw ≤ 128 ∧ ∀ x ∈ s.groups, x.2.ended = false → dieOf x.2.core0 = dieOf c →
        o + n.chw ≤ x.2.ch0 ∨ x.2.ch0 + x.2.chw ≤ o))) ∧
    ∀ (p : BankRec → Bool) (l : List BankRec) (x : BankRec), bestRecord p l = some x →
      p x = true ∧ ∃ l1 l2, l = l1 ++ x :: l2 ∧ (∀ y ∈ l1, p y = true → x.task.prio < y.task.prio) ∧
        ∀ y ∈ l2, p y = true → x.task.prio ≤ y.task.prio

/-- R158, R160: `quit` waits until no operation of the strand is outstanding and ends it; `yield` gives 1 and leaves the slot
with a wake recorded where a record no less urgent may start and no slot is free, and gives 0 otherwise. -/
def Sys2Proof.Claims.QuitAndYield : Prop :=
  Instr.quit.runs (fun _ _ t _ => t.outst = []) (fun s s1 t _ => (s1.setStrand s.cur t).endStrand s.cur) ∧
  Instr.quit.runs (fun _ _ t _ => t.outst ≠ []) (fun s _ _ _ => s) ∧
  (∀ d, (Instr.yield d).runs
    (fun _ s1 t _ => s1.hasFree t.core = false ∧
      ∃ r ∈ (s1.cluster (clusterOf t.core)).bank, s1.mayStart t.core r = true ∧ r.task.prio ≤ t.prioP.toNat)
    (fun s s1 t _ => (s1.finish s.cur { t with wake := true } d 1).requestSwap t.core t.slot)) ∧
  (∀ d, (Instr.yield d).runs
    (fun _ s1 t _ => s1.hasFree t.core = true ∨
      ∀ r ∈ (s1.cluster (clusterOf t.core)).bank, s1.mayStart t.core r = true → t.prioP.toNat < r.task.prio)
    (fun s s1 t _ => s1.finish s.cur t d 0)) ∧
  ∀ (s : State) (sid : Nat) (t : Strand), s.strand? sid = some t →
    ∃ u, (s.endStrand sid).strand? sid = some u ∧ u.st = .ended ∧ u.loc = .gone ∧ u.qbind = 0 ∧ u.pend = 0 ∧ u.seq = [] ∧
      u.rets = [] ∧ ∀ o ∈ u.ops, o.kind.isStore = true

/-- The dispatcher starts the best record; quit ends its strand and yield leaves the slot. The readings of log entries 26, 46, 56 and
73 are the model's own. -/
def Obligations.DispatcherAndQuit : Prop :=
  Claims.Dispatcher ∧ Claims.QuitAndYield

/-- R162, R164 to R166, R170: the barrier instructions of a group's register. `barv` arrives; `bwait` waits for a phase; `barw`
arrives and waits; `bset` sets rectangle and mask; `bto` exchanges the time-out. UNSET, SEALED, NOTMASK, BUSY and BADSET are given
at once, and a pending status is taken. -/
def Sys2Proof.Claims.Barriers : Prop :=
  ∀ (d a b : GReg) (i : BitVec 2),
    (∀ j, (j, barWord 0 0 4) ∈ [(Instr.bset d a b i, barWord 0 0 4), (.barv d i, barWord 0 0 4), (.bwait d a i, barWord 0 0 4),
        (.barw d i, barWord 0 0 4)] →
      j.runs (fun _ s1 t _ => (s1.barReg t i).held ≠ some t.group) (fun s s1 t _ => s1.finish s.cur t d (barWord 0 0 4))) ∧
    (Instr.bto d a i).runs (fun _ s1 t _ => (s1.barReg t i).held ≠ some t.group)
      (fun s s1 t _ => s1.finish s.cur t d (BitVec.allOnes 64)) ∧
    (Instr.bto d a i).runs (fun _ s1 t _ => (s1.barReg t i).held = some t.group)
      (fun s s1 t v => (s1.modBar t.homeCore i.toNat fun r => { r with tmo := (v a).setWidth 32 }).finish s.cur t d
        ((s1.barReg t i).tmo.setWidth 64)) ∧
    (Instr.barv d i).runs (fun _ s1 t _ => (s1.barReg t i).held = some t.group ∧ (s1.barReg t i).sealed = true)
      (fun s s1 t _ => s1.finish s.cur t d (barWord (s1.barReg t i).ph 0 2)) ∧
    (Instr.barv d i).runs (fun _ s1 t _ => (s1.barReg t i).held = some t.group ∧ (s1.barReg t i).sealed = false ∧
        (s1.barReg t i).mask.getLsbD t.rank = false)
      (fun s s1 t _ => s1.finish s.cur t d (barWord (s1.barReg t i).ph 0 3)) ∧
    (Instr.barv d i).runs (fun _ s1 t _ => (s1.barReg t i).held = some t.group ∧ (s1.barReg t i).sealed = false ∧
        (s1.barReg t i).mask.getLsbD t.rank = true ∧ (s1.barReg t i).arrived.getLsbD t.rank = true)
      (fun s _ t _ => s.park s.cur t (.barrier i.toNat)) ∧
    (Instr.barv d i).runs (fun _ s1 t _ => (s1.barReg t i).held = some t.group ∧ (s1.barReg t i).sealed = false ∧
        (s1.barReg t i).mask.getLsbD t.rank = true ∧ (s1.barReg t i).arrived.getLsbD t.rank = false)
      (fun s s1 t _ => (s1.arriveAt s.cur t i.toNat).1.finish s.cur (s1.arriveAt s.cur t i.toNat).2 d
        (barWord (s1.barReg t i).ph 0 0)) ∧
    (∀ j, j = Instr.bwait d a i ∨ j = .barw d i → ∀ w,
      j.runs (fun _ s1 t _ => (s1.barReg t i).held = some t.group ∧ (s1.barReg t i).ended? t.rank = some w)
        (fun s s1 t _ => (s1.modBar t.homeCore i.toNat fun r => { r with waits := Tab.erase r.waits t.rank }).finish s.cur t d w)) ∧
    (Instr.bwait d a i).runs (fun _ s1 t v => (s1.barReg t i).held = some t.group ∧ (s1.barReg t i).ended? t.rank = none ∧
        (s1.barReg t i).sealed = false ∧ (s1.barReg t i).ph ≠ (v a).extractLsb' 16 16)
      (fun s s1 t v => s1.finish s.cur t d (barWord ((v a).extractLsb' 16 16) (s1.barReg t i).size 0)) ∧
    (Instr.bwait d a i).runs (fun _ s1 t v => (s1.barReg t i).held = some t.group ∧ (s1.barReg t i).ended? t.rank = none ∧
        (s1.barReg t i).sealed = false ∧ (s1.barReg t i).ph = (v a).extractLsb' 16 16)
      (fun s _ t _ => (s.modBar t.homeCore i.toNat fun r => { r with
        waits := Tab.set r.waits t.rank { ph := r.ph, tmo := r.tmo, at_ := s.cycle, status := none } }).park s.cur t
          (.barrier i.toNat)) ∧
    (Instr.bwait d a i).runs (fun _ s1 t _ => (s1.barReg t i).held = some t.group ∧ (s1.barReg t i).ended? t.rank = none ∧
        (s1.barReg t i).sealed = true)
      (fun s s1 t v => s1.finish s.cur t d (barWord ((v a).extractLsb' 16 16) 0 2)) ∧
    (Instr.barw d i).runs (fun _ s1 t _ => (s1.barReg t i).held = some t.group ∧ (s1.barReg t i).ended? t.rank = none ∧
        (s1.barReg t i).sealed = true)
      (fun s s1 t _ => s1.finish s.cur t d (barWord (s1.barReg t i).ph 0 2)) ∧
    (Instr.barw d i).runs (fun _ s1 t _ => (s1.barReg t i).held = some t.group ∧ (s1.barReg t i).ended? t.rank = none ∧
        (s1.barReg t i).sealed = false ∧ (s1.barReg t i).mask.getLsbD t.rank = false)
      (fun s s1 t _ => s1.finish s.cur t d (barWord (s1.barReg t i).ph 0 3)) ∧
    (Instr.barw d i).runs (fun _ s1 t _ => (s1.barReg t i).held = some t.group ∧ (s1.barReg t i).ended? t.rank = none ∧
        (s1.barReg t i).sealed = false ∧ (s1.barReg t i).mask.getLsbD t.rank = true ∧
        (s1.barReg t i).arrived.getLsbD t.rank = true)
      (fun s _ t _ => s.park s.cur t (.barrier i.toNat)) ∧
    (Instr.barw d i).runs (fun _ s1 t _ => (s1.barReg t i).held = some t.group ∧ (s1.barReg t i).ended? t.rank = none ∧
        (s1.barReg t i).sealed = false ∧ (s1.barReg t i).mask.getLsbD t.rank = true ∧
        (s1.barReg t i).arrived.getLsbD t.rank = false)
      (fun s _ t _ => ((s.arriveAt s.cur t i.toNat).1.modBar t.homeCore i.toNat fun r => { r with
        waits := Tab.set r.waits t.rank { ph := r.ph, tmo := r.tmo, at_ := s.cycle, status := none } }).park s.cur
            (s.arriveAt s.cur t i.toNat).2 (.barrier i.toNat)) ∧
    (Instr.bset d a b i).runs (fun _ s1 t _ => (s1.barReg t i).held = some t.group ∧
        ((s1.barReg t i).arrived ≠ 0 ∨ (s1.barReg t i).waits ≠ []))
      (fun s s1 t _ => s1.finish s.cur t d (barWord 0 0 6)) ∧
    (Instr.bset d a b i).runs (fun _ s1 t v => (s1.barReg t i).held = some t.group ∧
        (s1.barReg t i).arrived = 0 ∧ (s1.barReg t i).waits = [] ∧
        (bits (v a) 0 4 + bits (v a) 8 4 ≥ (s1.group t.group).w ∨ bits (v a) 4 4 + bits (v a) 12 4 ≥ (s1.group t.group).h ∨
          bits (v b) 0 8 ≥ 2 ^ (s1.group t.group).s ∨
          (t.homeCore - s1.rectCore t 0) % 16 < bits (v a) 0 4 ∨
          bits (v a) 0 4 + bits (v a) 8 4 < (t.homeCore - s1.rectCore t 0) % 16 ∨
          (t.homeCore - s1.rectCore t 0) / 16 < bits (v a) 4 4 ∨
          bits (v a) 4 4 + bits (v a) 12 4 < (t.homeCore - s1.rectCore t 0) / 16))
      (fun s s1 t _ => s1.finish s.cur t d (barWord 0 0 5)) ∧
    (Instr.bset d a b i).runs (fun _ s1 t v => (s1.barReg t i).held = some t.group ∧
        (s1.barReg t i).arrived = 0 ∧ (s1.barReg t i).waits = [] ∧
        bits (v a) 0 4 + bits (v a) 8 4 < (s1.group t.group).w ∧ bits (v a) 4 4 + bits (v a) 12 4 < (s1.group t.group).h ∧
        bits (v b) 0 8 < 2 ^ (s1.group t.group).s ∧
        bits (v a) 0 4 ≤ (t.homeCore - s1.rectCore t 0) % 16 ∧
        (t.homeCore - s1.rectCore t 0) % 16 ≤ bits (v a) 0 4 + bits (v a) 8 4 ∧
        bits (v a) 4 4 ≤ (t.homeCore - s1.rectCore t 0) / 16 ∧
        (t.homeCore - s1.rectCore t 0) / 16 ≤ bits (v a) 4 4 + bits (v a) 12 4)
      (fun s s1 t v => (s1.modBar t.homeCore i.toNat fun r => { r with
        x0 := (v a).extractLsb' 0 4, y0 := (v a).extractLsb' 4 4, wm1 := (v a).extractLsb' 8 4, hm1 := (v a).extractLsb' 12 4
        mask := (v b).setWidth 8, sealed := false }).finish s.cur t d (barWord (s1.barReg t i).ph 0 0))

/-- R159, R163 to R168: an arrival is recorded in its own cycle if the strand's earlier accesses are performed, and otherwise from the
cycle after the last of them on; a phase is released when every core of the rectangle is complete and the release has travelled: on
every one of them the phase counts up, the arrivals clear, and the waits of the phase end with DONE, whose strands may issue in that
cycle. A wait ends with TIMEOUT when its time is over, behind a release and a seal that come in the same cycle, with the count of the
complete cores; and with SEALED at a seal; and its strand is woken. -/
def Sys2Proof.Claims.BarrierEvents : Prop :=
  ∀ s : State,
    (∀ t a rest, s.strand? s.ua = some t → t.arrivals = a :: rest →
      ∀ f : Arrival → Arrival, (∀ x, f x = if x.clear = none ∧ ∀ n ∈ x.after, n ∉ t.unperformed then
          { x with clear := some (s.cycle + 1) } else x) →
      (a.clear = none ∨ (∃ n, a.clear = some n ∧ s.cycle < n) →
        exec .barrierArrivalRecord s = .next (s.setStrand s.ua { t with arrivals := f a :: rest.map f })) ∧
      (∀ n, a.clear = some n → n ≤ s.cycle → t.st ≠ .ended →
        exec .barrierArrivalRecord s = .next ((s.setStrand s.ua { t with arrivals := rest.map f }).modBar a.home a.b fun r => { r with
          recorded := r.recorded ||| BitVec.twoPow 8 a.rank, recAt := s.cycle }))) ∧
    (∀ sid t i, i < 4 → (s.arriveAt sid t i).2 = { t with arrivals := t.arrivals ++ [{
        home := t.homeCore, b := i, rank := t.rank, since := s.cycle
        after := (t.ops.map fun o => o.sn) ++ t.taken.toList ++ (t.seq.map SeqItem.sns).flatten
        clear := if t.ops = [] ∧ t.taken = none ∧ (t.seq.map SeqItem.sns).flatten = [] then some s.cycle else none }] } ∧
      (s.arriveAt sid t i).1.strand? sid = some (s.arriveAt sid t i).2 ∧
      vget ((s.arriveAt sid t i).1.core t.homeCore).bars i {} = { vget (s.core t.homeCore).bars i {} with
        arrived := (vget (s.core t.homeCore).bars i {}).arrived ||| BitVec.twoPow 8 t.rank }) ∧
    (∀ r cs, r = vget (s.core s.ua).bars s.ub {} → cs = s.barRect s.ua s.ub → s.ub < 4 → cs.Nodup → cs ≠ [] →
      (∀ k b, k ∈ cs → b = vget (s.core k).bars s.ub {} → (s.core k).sealed = false ∧ b.held = r.held ∧ b.x0 = r.x0 ∧ b.y0 = r.y0 ∧
        b.wm1 = r.wm1 ∧ b.hm1 = r.hm1 ∧ b.mask &&& b.recorded = b.mask ∧
        b.recAt + 2 * (r.wm1.toNat + r.hm1.toNat + (if r.wm1 ≠ 0 ∧ r.hm1 ≠ 0 then 2 else 0)) + 2 ≤ s.cycle) →
      (∃ k ∈ cs, (vget (s.core k).bars s.ub {}).recorded ≠ 0) →
      ∃ s', exec .barrierRelease s = .next s' ∧
        (∀ k b, k ∈ cs → b = vget (s.core k).bars s.ub {} → vget (s'.core k).bars s.ub {} = { b with
          ph := b.ph + 1, arrived := 0, recorded := 0
          waits := b.waits.map fun (w : Nat × WaitRec) => if w.2.status.isNone && w.2.ph = b.ph then
            (w.1, { w.2 with status := some (barWord b.ph ((b.wm1.toNat + 1) * (b.hm1.toNat + 1)) 0) }) else w }) ∧
        ∀ j u, s.strand? j = some u → u.st = .parked (.barrier s.ub) → u.homeCore ∈ cs → u.place?.isSome →
          s'.strand? j = some { u with st := .run, ready := s.cycle }) ∧
    ((∃ k ∈ s.barRect s.ua s.ub, (s.core k).sealed = false ∧
        (vget (s.core k).bars s.ub {}).mask &&& (vget (s.core k).bars s.ub {}).recorded ≠ (vget (s.core k).bars s.ub {}).mask) →
      exec .barrierRelease s = .next s) ∧
    (∀ t i w r, s.strand? s.ua = some t → t.st = .parked (.barrier i) → i < 4 → r = vget (s.core t.homeCore).bars i {} →
      Tab.get? r.waits t.rank = some w → w.status = none → w.tmo ≠ 0 →
      (s.cycle < w.at_ + w.tmo.toNat ∨ r.sealDue = true ∨ s.releaseDue t.homeCore i = true → exec .barrierTimeout s = .next s) ∧
      (w.at_ + w.tmo.toNat ≤ s.cycle → r.sealDue = false → s.releaseDue t.homeCore i = false → t.place?.isSome →
        ∃ s' n, exec .barrierTimeout s = .next s' ∧
          Tab.get? (vget (s'.core t.homeCore).bars i {}).waits t.rank = some { w with status := some (barWord w.ph n 1) } ∧
          s'.strand? s.ua = some { t with st := .run, ready := s.cycle + 1 } ∧
          ((∀ k b, k ∈ s.barRect t.homeCore i → b = vget (s.core k).bars i {} → (s.core k).sealed = false ∧ b.held = r.held ∧
              b.x0 = r.x0 ∧ b.y0 = r.y0 ∧ b.wm1 = r.wm1 ∧ b.hm1 = r.hm1) →
            n = (s.barRect t.homeCore i).countP fun k => let b := vget (s.core k).bars i {}
              decide (b.mask &&& b.recorded = b.mask) &&
                decide (b.recAt + (r.wm1.toNat + r.hm1.toNat + (if r.wm1 ≠ 0 ∧ r.hm1 ≠ 0 then 2 else 0)) ≤ s.cycle)))) ∧
    ((vget (s.core s.ua).bars s.ub {}).sealDue = false → exec .barrierSeal s = .next s) ∧
    ((vget (s.core s.ua).bars s.ub {}).sealDue = true → s.ub < 4 →
      ∃ s', exec .barrierSeal s = .next s' ∧
        vget (s'.core s.ua).bars s.ub {} = { vget (s.core s.ua).bars s.ub {} with
          sealed := true, sealDue := false
          waits := (vget (s.core s.ua).bars s.ub {}).waits.map fun (w : Nat × WaitRec) =>
            if w.2.status.isNone then (w.1, { w.2 with status := some (barWord w.2.ph 0 2) }) else w } ∧
        ∀ j u, s.strand? j = some u → u.st = .parked (.barrier s.ub) → u.homeCore = s.ua → u.place?.isSome →
          s'.strand? j = some { u with st := .run, ready := s.cycle + 1 })

/-- The barrier instructions, and how arrivals, releases, time-outs and seals end waits. The reading of log entry 27 is the model's
own. -/
def Obligations.Barriers : Prop :=
  Claims.Barriers ∧ Claims.BarrierEvents

/-! ## Launches, chains and ticks -/

/-- R232, R233, R238, R336: `launch` and `chplay` read their header or patch in one step, after every earlier access and once a link
leads to the bytes, and send it: they count on ST and gD waits; a region that does not hold it raises the trap of its check. A tiled
header is followed by the tile records that its g(T) counts, up to 4,096; of more, or of none, nothing is read. The header is marked
with the strand's ASID and tenant, without SUP, and no more urgent than the strand. `trig` marks a strand of a launch behind its
accesses, and in any other strand does nothing. The readings of log entries 15 and 31 are the model's own. -/
def Obligations.LaunchInstructions : Prop :=
  (∀ g h x b s2, (Instr.launch g h x).runs
    (fun _ s1 t v => regionCheck (t.regionAt h.toNat) h.toNat (v x).toNat 128 rR = none ∧ (v x).toNat % 8 = 0 ∧ t.ops = [] ∧
      s1.allUp (dieOf t.core) (t.regionAt h.toNat) (v x).toNat 128 accR = true ∧
      s1.readSpan (dieOf t.core) (t.regionAt h.toNat) (v x).toNat 128 = .ok (b, s2) ∧
      ((headerOf b).tiled = false ∨ (v g).toNat = 0 ∨ 4096 < (v g).toNat))
    (fun s _ t v => (s2.lateDest t g).1.fresh.2.setStrand s.cur
      { (s2.lateDest t g).2.1.countOn (s2.lateDest t g).1.serial [.st] with
        pc := (s2.lateDest t g).2.1.pc + 4
        msgs := (s2.lateDest t g).2.1.msgs ++ [.launch (s2.lateDest t g).1.serial s.cycle
          ((headerOf b).mark (s2.lateDest t g).2.1) []
          ((List.range (headerOf b).nhnd).map fun i => (s2.lateDest t g).2.1.handle (4 + i))
          ((headerOf b).tiled && decide (4096 < (v g).toNat)) (dieOf (s2.lateDest t g).2.1.core) (s2.lateDest t g).2.2] })) ∧
  (∀ g h x b s2 tb s3, (Instr.launch g h x).runs
    (fun _ s1 t v => regionCheck (t.regionAt h.toNat) h.toNat (v x).toNat 128 rR = none ∧ (v x).toNat % 8 = 0 ∧ t.ops = [] ∧
      s1.allUp (dieOf t.core) (t.regionAt h.toNat) (v x).toNat 128 accR = true ∧
      s1.readSpan (dieOf t.core) (t.regionAt h.toNat) (v x).toNat 128 = .ok (b, s2) ∧ (headerOf b).tiled = true ∧
      1 ≤ (v g).toNat ∧ (v g).toNat ≤ 4096 ∧
      regionCheck (t.regionAt h.toNat) h.toNat ((v x).toNat + 0x80) (16 * (v g).toNat) rR = none ∧
      s2.allUp (dieOf t.core) (t.regionAt h.toNat) ((v x).toNat + 0x80) (16 * (v g).toNat) accR = true ∧
      s2.readSpan (dieOf t.core) (t.regionAt h.toNat) ((v x).toNat + 0x80) (16 * (v g).toNat) = .ok (tb, s3))
    (fun s _ t v => (s3.lateDest t g).1.fresh.2.setStrand s.cur
      { (s3.lateDest t g).2.1.countOn (s3.lateDest t g).1.serial [.st] with
        pc := (s3.lateDest t g).2.1.pc + 4
        msgs := (s3.lateDest t g).2.1.msgs ++ [.launch (s3.lateDest t g).1.serial s.cycle
          ((headerOf b).mark (s3.lateDest t g).2.1) (tilesOf (v g).toNat tb)
          ((List.range (headerOf b).nhnd).map fun i => (s3.lateDest t g).2.1.handle (4 + i)) false
          (dieOf (s3.lateDest t g).2.1.core) (s3.lateDest t g).2.2] })) ∧
  (∀ g h x c w, (Instr.launch g h x).runs
    (fun _ _ t v => regionCheck (t.regionAt h.toNat) h.toNat (v x).toNat 128 rR = some (c, w))
    (fun s _ t _ => s.trap s.cur t c w)) ∧
  (∀ g h x, (Instr.launch g h x).runs
    (fun _ _ t v => regionCheck (t.regionAt h.toNat) h.toNat (v x).toNat 128 rR = none ∧ (v x).toNat % 8 ≠ 0)
    (fun s _ t v => s.trap s.cur t .align (v x))) ∧
  (∀ g h x, (Instr.launch g h x).runs
    (fun _ s1 t v => regionCheck (t.regionAt h.toNat) h.toNat (v x).toNat 128 rR = none ∧ (v x).toNat % 8 = 0 ∧
      (t.ops ≠ [] ∨ s1.allUp (dieOf t.core) (t.regionAt h.toNat) (v x).toNat 128 accR = false))
    (fun s _ _ _ => s)) ∧
  (∀ g h x, (Instr.chplay g h x).runs
    (fun _ s1 t v => (∀ a, s1.chainAt t.tenant.toNat (v g).toNat = some a → s1.chainPsize a = 0) ∧ t.ops = [])
    (fun s s1 t v => (s1.lateDest t g).1.fresh.2.setStrand s.cur
      { (s1.lateDest t g).2.1.countOn (s1.lateDest t g).1.serial [.st] with
        pc := (s1.lateDest t g).2.1.pc + 4
        msgs := (s1.lateDest t g).2.1.msgs ++ [.chplay (s1.lateDest t g).1.serial s.cycle (v g) [] (s1.lateDest t g).2.2] })) ∧
  (∀ g h x a b s2, (Instr.chplay g h x).runs
    (fun _ s1 t v => s1.chainAt t.tenant.toNat (v g).toNat = some a ∧ s1.chainPsize a ≠ 0 ∧ t.ops = [] ∧
      regionCheck (t.regionAt h.toNat) h.toNat (v x).toNat (s1.chainPsize a) rR = none ∧
      s1.allUp (dieOf t.core) (t.regionAt h.toNat) (v x).toNat (s1.chainPsize a) accR = true ∧
      s1.readSpan (dieOf t.core) (t.regionAt h.toNat) (v x).toNat (s1.chainPsize a) = .ok (b, s2))
    (fun s _ t v => (s2.lateDest t g).1.fresh.2.setStrand s.cur
      { (s2.lateDest t g).2.1.countOn (s2.lateDest t g).1.serial [.st] with
        pc := (s2.lateDest t g).2.1.pc + 4
        msgs := (s2.lateDest t g).2.1.msgs ++ [.chplay (s2.lateDest t g).1.serial s.cycle (v g) b (s2.lateDest t g).2.2] })) ∧
  (∀ g h x a c w, (Instr.chplay g h x).runs
    (fun _ s1 t v => s1.chainAt t.tenant.toNat (v g).toNat = some a ∧ s1.chainPsize a ≠ 0 ∧
      regionCheck (t.regionAt h.toNat) h.toNat (v x).toNat (s1.chainPsize a) rR = some (c, w))
    (fun s _ t _ => s.trap s.cur t c w)) ∧
  (∀ g h x a, (Instr.chplay g h x).runs
    (fun _ s1 t v => s1.chainAt t.tenant.toNat (v g).toNat = some a ∧ s1.chainPsize a ≠ 0 ∧
      regionCheck (t.regionAt h.toNat) h.toNat (v x).toNat (s1.chainPsize a) rR = none ∧
      (t.ops ≠ [] ∨ s1.allUp (dieOf t.core) (t.regionAt h.toNat) (v x).toNat (s1.chainPsize a) accR = false))
    (fun s _ _ _ => s)) ∧
  Instr.trig.runs (fun _ _ t _ => t.lnch = true) (fun s s1 t _ => s1.enqueue s.cur t [.st] .trig .drop) ∧
  Instr.trig.runs (fun _ _ t _ => t.lnch = false) (fun s s1 t _ => s1.setStrand s.cur { t with pc := t.pc + 4 }) ∧
  ∀ (h : Header) (t : Strand), bits (h.mark t).ctl 0 12 = t.asid.toNat ∧ bits (h.mark t).ctl 12 6 = t.tenant.toNat ∧
    bits (h.mark t).ctl 30 1 = 0 ∧ bits (h.mark t).ctl 18 2 = max (bits h.ctl 18 2) t.prioP.toNat ∧
    ∀ i, i ≠ 11 → vget (h.mark t) i 0 = vget h i 0

/-- R224, R225, R231, R232, R330: a launch reaches the placer. One with a bad tile count, a bad header or a bad record is refused
with its status, and so is one whose device queue holds 64 entries; any other is queued behind those of its tenant and level, and
the strand's status word says how many groups it will have. Of a tiled launch the first bad record gives status 3 with its index,
and records without rows place nothing. The next header of a host ring goes to its queue, with HEAD one further, or gives the event
of its status; an empty ring, or one without a descriptor, gives nothing. Reserved bits of its handle list are not kept (R7, R116). -/
def Sys2Proof.Claims.LaunchesArrive : Prop :=
  (∀ (s : State) (t : Strand) (sn at_ : Nat) (h : Header) (tiles : List Tile) (hs : List Handle) (bad : Bool) (die : Nat)
    (dest : Dest) (rest : List Msg), s.ua = 0 → s.strand? s.ub = some t → t.pair = false →
    t.msgs = .launch sn at_ h tiles hs bad die dest :: rest →
    (∀ e, s.acceptLaunch h tiles hs bad (.strand die) false true (bits h.ctl 12 6) (bits h.ctl 18 2) false = .error e →
      exec .launchEnqueue s = .next (s.setStrand s.ub { t with
        msgs := rest
        rets := t.rets ++ [{ kind := .launch, sn, dests := [(dest, BitVec.ofNat 64 (e.2 * 2 ^ 16 + e.1))] }] })) ∧
    (∀ n s1, s.acceptLaunch h tiles hs bad (.strand die) false true (bits h.ctl 12 6) (bits h.ctl 18 2) false = .ok (n, s1) →
      n < 2 ^ 32 →
      exec .launchEnqueue s = .next (s1.setStrand s.ub { t with
        msgs := rest
        rets := t.rets ++ [{ kind := .launch, sn, dests := [(dest, BitVec.ofNat 64 (n * 2 ^ 32))] }] }))) ∧
  (∀ (s : State) (h : Header) (tiles : List Tile) (hs : List Handle) (src : LaunchFrom) (fh dev sup : Bool) (t p : Nat),
    s.acceptLaunch h tiles hs true src fh dev t p sup = .error (3, 4096) ∧
    ∀ byStrand : Bool, (byStrand = true ↔ dev = true ∧ fh = false ∧ ∃ d, src = .strand d) →
    (h.refused s.tickp.toNat byStrand = true → s.acceptLaunch h tiles hs false src fh dev t p sup = .error (2, 0)) ∧
    (h.refused s.tickp.toNat byStrand = false → h.tiled = false → h.product h.bnd 6 ≠ 0 →
      (dev = true → s.devFull t p = true → s.acceptLaunch h tiles hs false src fh dev t p sup = .error (1, 0)) ∧
      (dev = false ∨ s.devFull t p = false →
        ∃ s1, s.acceptLaunch h tiles hs false src fh dev t p sup = .ok (h.product h.bnd 6, s1) ∧
          s1.queue t p = s.queue t p ++ [.launch s.serial] ∧
          (∃ l, Tab.get? s1.launches s.serial = some l ∧ l.hdr = h ∧ l.total = h.product h.bnd 6 ∧ l.next = 0) ∧
          (∀ t' p', t' ≠ t ∨ p' ≠ p → s1.queue t' p' = s.queue t' p'))) ∧
    (h.refused s.tickp.toNat byStrand = false → h.tiled = true →
      (∀ j, h.badTile tiles 0 = some j → s.acceptLaunch h tiles hs false src fh dev t p sup = .error (3, j)) ∧
      (h.badTile tiles 0 = none → (dev = false ∨ s.devFull t p = false) →
        ∃ s1, s.acceptLaunch h tiles hs false src fh dev t p sup = .ok ((tiles.filter fun x => x.rows ≠ 0).length, s1) ∧
          ∃ l, Tab.get? s1.launches s.serial = some l ∧ l.hdr = h ∧ l.tiles = tiles.filter (fun x => x.rows ≠ 0) ∧
            l.total = l.tiles.length ∧ l.next = 0)) ∧
    (h.badTile tiles 0 = none ↔ ∀ x ∈ tiles, x.rows.toNat ≤ 32 ∧ x.expert.toNat < h.ext h.bnd ∧
      x.tile.toNat < if h.bnd = 4 then 1 else h.ext (h.bnd + 1))) ∧
  (∀ s : State, s.ua = 1 →
    (s.desc? (if s.ub / 4 < 64 then some (s.ub / 4) else none) = none → exec .launchEnqueue s = .next s) ∧
    (∀ d, s.desc? (if s.ub / 4 < 64 then some (s.ub / 4) else none) = some d →
      (s.descValid d = false ∨ (s.ringAt (d + 0x20 + 16 * (s.ub % 4))).count = 0) → exec .launchEnqueue s = .next s) ∧
    (∀ (d : Nat) (r : Ring) (h0 h : Header) (s1 s2 : State), s.desc? (if s.ub / 4 < 64 then some (s.ub / 4) else none) = some d →
      s.descValid d = true → r = s.ringAt (d + 0x20 + 16 * (s.ub % 4)) → r.count ≠ 0 →
      h0 = headerOf (wordsBytes ((List.range 16).map fun j => s.sysDword (r.entry r.head 128 + 8 * j))) →
      h = (if s.ub / 4 < 64 then vset h0 11 (putBits (putBits h0.ctl 12 6 (s.ub / 4)) 30 1 0) else h0) →
      s1 = s.putHead (d + 0x20 + 16 * (s.ub % 4)) ((r.head + 1) % 2 ^ 32) → s2 = s1.touchHdr (r.entry r.head 128) h →
      (∀ n s3, s2.acceptLaunch h [] (s1.hlist h) false .host true false (bits h.ctl 12 6) (s.ub % 4) (h.ctl.getLsbD 30) = .ok (n, s3) →
        exec .launchEnqueue s = .next s3) ∧
      (∀ st i, s2.acceptLaunch h [] (s1.hlist h) false .host true false (bits h.ctl 12 6) (s.ub % 4) (h.ctl.getLsbD 30) =
          .error (st, i) →
        exec .launchEnqueue s = .next (s2.sendEvent (some (bits h.ctl 12 6)) .launchref 0 st (s.ub % 4)))) ∧
    (∀ (h : Header) (i : Nat) (x : Handle), (s.hlist h)[i]? = some x → ∀ ctl, ctl = s.sysDword (bits (vget h 13 0) 0 56 + 32 * i + 8) →
      x.ctl = ctl &&& 0x003FFFFFFFFFFFFF ∧
      x.tgt = s.sysDword (bits (vget h 13 0) 0 56 + 32 * i + 16) &&& 0xFFFF ∧
      x.base = s.sysDword (bits (vget h 13 0) 0 56 + 32 * i) &&& if bits ctl 40 3 = 4 then 0x00FFFFFFFFFFFFFF else BitVec.allOnes 64)) ∧
  ∀ s : State, s.ua ≥ 2 → (s.waitHdrs[s.ub]? = none → exec .launchEnqueue s = .next s) ∧
    (∀ w s1 n, s.waitHdrs[s.ub]? = some w → w.src = .host →
      (∀ v ∈ s.waitHdrs.take s.ub, v.tenant ≠ w.tenant ∨ bits v.hdr.ctl 18 2 ≠ bits w.hdr.ctl 18 2) →
      s.acceptLaunch w.hdr [] w.handles false .host w.fromHost true w.tenant.toNat (bits w.hdr.ctl 18 2) w.sup = .ok (n, s1) →
      ∃ s2, exec .launchEnqueue s = .next s2 ∧ s2.waitHdrs = s.waitHdrs.eraseIdx s.ub ∧ s2.queues = s1.queues ∧
        s2.mem = s1.mem)

/-- R236 to R238: the oldest `chplay` of a strand reaches its chain: there is status 3 without one, and otherwise the status of
the request; the status then reaches gD as any result does. -/
def Sys2Proof.Claims.ChainReplies : Prop :=
  ∀ (s : State) (t : Strand), s.strand? s.ua = some t →
    (∀ sn at_ k patch dest rest, s.ub % 2 = 1 → t.pair = false → t.msgs = .chplay sn at_ k patch dest :: rest →
      (s.chainAt t.tenant.toNat k.toNat = none →
        exec .chainReply s = .next (s.setStrand s.ua { t with
          msgs := rest, rets := t.rets ++ [{ kind := .chain, sn, dests := [(dest, 3)] }] })) ∧
      ∀ a s1, s.chainAt t.tenant.toNat k.toNat = some a → s1 = s.touchChain a t.tenant.toNat → ∃ s', exec .chainReply s = .next s' ∧
        s'.strand? s.ua = some { t with
          msgs := rest
          rets := t.rets ++ [{ kind := .chain, sn, dests := [(dest, BitVec.ofNat 64
            (if (s1.sysDword (a + 0x18)).getLsbD 32 then 0 else min (s1.chainState a) 2))] }] }) ∧
    (∀ r d v, s.ub % 2 = 0 → t.rets[s.ub / 2]? = some r → r.kind = .chain → r.dests = [(.gpr d, v)] → d ≠ 0 → t.st ≠ .ended →
      (∀ w ∈ s.twins, w.west ≠ s.ua) →
      ∃ s' u, exec .chainReply s = .next s' ∧ s'.strand? s.ua = some u ∧ u.g d = v ∧ u.pend.getLsbD d.toNat = false ∧
        u.rets = t.rets.eraseIdx (s.ub / 2) ∧ ∀ q, q ≠ d → u.g q = t.g q)

/-- A launch reaches the placer and is queued or refused with its status; chplay has its reply. The readings of log entries 31 and 32
are the model's own. -/
def Obligations.LaunchesArrive : Prop :=
  Claims.LaunchesArrive ∧ Claims.ChainReplies

/-- R67, R225, R226, R228: the placer serves the queue of its choice: the launch's next group is placed and counted, its queue
keeps its place until the launch is wholly placed, and the tenant's turn passes; or strands leave their slots for it; with nothing
to serve nothing happens. A placed strand begins with its slice zero and empty, in a LIVE slot. -/
def Sys2Proof.Claims.GroupsServed : Prop :=
  (∀ (s : State), s.serve = none → exec .groupPlace s = .next s ∧ exec .resumeGroupPlace s = .next s) ∧
  (∀ (s s1 : State) p t l a cs o x, s.serve = some (p, t, .launch l, .place a cs o s1) → Tab.get? s1.launches l = some x →
    (x.next + 1 < x.total → exec .groupPlace s = .next ((s1.placeGroup l x a).served p t)) ∧
    (x.next + 1 ≥ x.total → exec .groupPlace s = .next (((s1.placeGroup l x a).served p t).popQueue t p)) ∧
    Tab.get? (s1.placeGroup l x a).launches l =
      some { x with next := x.next + 1, placed := x.placed + 1, groups := x.groups ++ [s1.serial] }) ∧
  (∀ (s : State) p t l vs cs, s.serve = some (p, t, .launch l, .preempt vs cs) →
    exec .groupPlace s = .next (vs.foldl (fun s i => s.beginSwap i) s)) ∧
  (∀ (s s1 : State) p t va asid pl die sup cmp tok a cs plan,
    s.serve = some (p, t, .resume va asid pl die sup cmp tok, .place a cs (some plan) s1) →
    exec .resumeGroupPlace s = .next (((s1.placeResumed va asid t sup cmp plan a).served p t).popQueue t p)) ∧
  ∀ (s : State) (t : Strand) (c k : Nat), s.memWf → s.strand? s.ua = some t → t.loc = .transit c k → k < 8 →
    vget (s.core c).slots k .free = .coming s.ua → (s.group t.group).restore = none → t.mig = none →
    ∃ s', exec .strandStart s = .next s' ∧
      s'.strand? s.ua = some { t with loc := .slot c k, lastSlot := k, ready := s.cycle + 1 } ∧
      vget (s'.core c).slots k .free = .live s.ua ∧
      (∀ n, n < 0x1000 → Memory.read s'.mem (scratchKey c (0x1000 * k) + n) = 0) ∧
      (∀ n, n < 0x200 → s'.isFull (scratchKey c (0x1000 * k) + 8 * n) = false) ∧
      (∀ b, (b < scratchKey c (0x1000 * k) ∨ scratchKey c (0x1000 * k) + 0x1000 ≤ b) →
        Memory.read s'.mem b = Memory.read s.mem b)

/-- R17, R18, R79, R87, R117, R173, R192, R226, R228, R231, R323: a group placed for a launch holds what was found for it, and one
strand for each of its indices, in paired mode with a partner 8 columns east. Each begins at IMAGE + ENTRY with its work identifier in
g1, the launch's arguments in g4 to g7, of a tiled launch its record's ROWBASE, FLAGS and ROWS, 0x1000 in g30 and 0 elsewhere; with
the launch's handles, priority, class, ASID and tenant; with QBIND as QPRE, but for ports of another group; and with its staged
registers reset, but for `mx.rmask` of a tiled launch. -/
def Sys2Proof.Claims.GroupStrands : Prop :=
  ∀ (s s' : State) (lid : Nat) (l : Launch) (a : Allot) (h : Header) (n : Need) (tile : Option Tile) (fs : List Nat) (x : Group)
    (starts : Nat → Nat → Strand → Prop), h = l.hdr → n = h.need → s' = s.placeGroup lid l a →
    tile = (if h.tiled then l.tiles[l.next]? else none) →
    fs = (match tile with | some y => [y.expert.toNat, y.tile.toNat] | none => h.digits h.bnd 6 l.next) →
    (∀ i c u, starts i c u ↔ ∃ k wid, wid = h.wid (h.digits 0 h.bnd i ++ fs) ∧ u.loc = .transit c k ∧ u.slot0 = k ∧
      u.handles = startHandles x c k l.handles ∧ u.wid = wid ∧ u.grp = x.gidx ∧ u.group = s.serial ∧ u.rank = i % n.s ∧ u.index = i ∧
      (∀ r, r < 32 → vget u.gr r 0 = match r with
        | 1 => wid | 4 => vget h 2 0 | 5 => vget h 3 0
        | 6 => (match tile with | some y => y.rowbase | none => vget h 4 0)
        | 7 => (match tile with | some y => BitVec.ofNat 64 (y.flags.toNat * 256 + y.rows.toNat) | none => vget h 5 0)
        | 30 => 0x1000 | _ => 0) ∧
      u.image = vget h 0 0 &&& 0x00FFFFFFFFFFFFFF ∧ u.pc = u.image + BitVec.ofNat 64 h.entry ∧ u.imgsz = h.imgsz ∧
      u.prioP = l.prio ∧ u.prioBase = l.prio ∧ u.cls = BitVec.ofNat 2 n.cls ∧ u.sup = l.sup ∧ u.pair = n.paired ∧
      u.asid = l.asid ∧ u.tenant = l.tenant ∧ u.lnch = true ∧ u.st = .run ∧ u.th = false ∧ u.tw = false ∧ u.tvec = 0 ∧
      u.tcause = 0 ∧ u.tpc = 0 ∧ u.tval = 0 ∧ u.tmr = 0 ∧ u.frm = 0 ∧ u.home = none ∧
      (∀ j f o, j < 8 → f = qField ((vget h 12 0).setWidth 32) j → o = (vget (s.core c).ports (qPort f) {}).owner →
        (qBound f = false ∨ o = none ∨ o = some s.serial → qField u.qbind j = f) ∧
        (qBound f = true → o ≠ none → o ≠ some s.serial → qField u.qbind j = 0)) ∧
      u.cp = ({} : Strand).resetStaged.cp ∧ u.wk = ({} : Strand).resetStaged.wk ∧ u.dx = ({} : Strand).resetStaged.dx ∧
      u.pl = ({} : Strand).resetStaged.pl ∧ u.cl = ({} : Strand).resetStaged.cl ∧
      u.mx = vset ({} : Strand).resetStaged.mx 2
        (match tile with | some y => BitVec.ofNat 64 (2 ^ y.rows.toNat - 1) | none => 0xFFFFFFFF)) →
    Tab.get? s'.groups s.serial = some x →
    x.core0 = a.core0 ∧ x.w = n.w ∧ x.h = n.h ∧ x.s = n.s ∧ x.launch = some lid ∧ x.tenant = l.tenant ∧ x.asid = l.asid ∧
    x.bank0 = a.bank0 ∧ x.nbank = n.nbank ∧ x.cl0 = a.cl0 ∧ x.clw = n.clw ∧ x.ch0 = a.ch0 ∧ x.chw = n.chw ∧ x.bars = a.bars ∧
    x.nacc = n.nacc ∧ x.paired = n.paired ∧ x.prio = l.prio ∧ x.strands.length = n.w * n.h * n.s ∧
    x.gidx = BitVec.ofNat 64 (match tile with | some y => y.expert.toNat + h.ext h.bnd * y.tile.toNat | none => l.next) ∧
    ∀ i c, i < n.w * n.h * n.s → c = a.core0 + i / n.s % n.w + 16 * (i / n.s / n.w) →
      ∃ sid u, x.strands[i]? = some (some sid) ∧ s'.strand? sid = some u ∧ starts i c u ∧
        (n.paired = true → ∃ pid v, u.partner = some pid ∧ v.partner = some sid ∧ s'.strand? pid = some v ∧ starts i (c + 8) v) ∧
        (n.paired = false → u.partner = none)

/-- The placer serves a queue and places a group, whose strands begin as the launch says. The readings of log entries 21, 24, 52 and
58 are the model's own. -/
def Obligations.GroupsArePlaced : Prop :=
  Claims.GroupsServed ∧ Claims.GroupStrands

/-- R229, R234: a launch whose groups have all been placed and have ended, and whose strands' engines are done, retires: its
completion word, its dependants and its chain follow, and it is gone; while engines still work, it waits; one whose groups have all
triggered has its dependants submitted; one with a group still to place does neither. -/
def Sys2Proof.Claims.LaunchesRetire : Prop :=
  ∀ (s : State) (l : Launch), Tab.get? s.launches s.ua = some l →
    (l.next < l.total → exec .launchRetire s = .next s) ∧
    (l.total ≤ l.next → (∀ g ∈ l.groups, (s.group g).ended = true) → s.launchQuiet l = true →
      ∃ s', exec .launchRetire s = .next s' ∧
        s' = { (s.launchWordOut l (l.err || l.groups.any fun g => (s.group g).err)).launchFollows s.ua l with
          launches := Tab.erase ((s.launchWordOut l (l.err || l.groups.any fun g => (s.group g).err)).launchFollows s.ua
            l).launches s.ua }.chainRetired l.src s.ua) ∧
    (l.total ≤ l.next → (∃ g ∈ l.groups, (s.group g).ended = false) ∨ s.launchQuiet l = false →
      (∀ g ∈ l.groups, s.groupTriggered g = true) → exec .launchRetire s = .next (s.launchFollows s.ua l)) ∧
    (l.depsDone = true → s.launchFollows s.ua l = s) ∧
    (s.launchQuiet l = true ↔ ∀ x ∈ s.strands, x.2.group ∈ l.groups → s.engineBusy x.1 = false) ∧
    (l.total ≤ l.next → (∃ g ∈ l.groups, s.groupTriggered g = false) → exec .launchRetire s = .next s)

/-- R229: the completion word of a launch is filled, with ERR and the number of its groups, through its handle; with NONE nothing
is written. -/
def Sys2Proof.Claims.LaunchCompletionWord : Prop :=
  ∀ (s : State) (l : Launch) (err : Bool) (key : Nat),
    ((vget l.hdr 14 0).getLsbD 63 = true → s.launchWordOut l err = s) ∧
    (∀ t, (vget l.hdr 14 0).getLsbD 63 = false →
      t = ({ loc := .slot (((l.groups.head?).map fun g => (s.group g).core0).getD 0) 0, asid := l.asid } : Strand) →
      accessCheck (t.region ((l.handles[bits (vget l.hdr 14 0) 40 5 - 4]?).getD {})) 0
        (BitVec.ofNat 64 (bits (vget l.hdr 14 0) 0 40)) 8 (rW ||| rA) .sync = none →
      (t.region ((l.handles[bits (vget l.hdr 14 0) 40 5 - 4]?).getD {})).addr (bits (vget l.hdr 14 0) 0 40) = .phys key →
      s.launchWordOut l err =
        s.fillWord key (BitVec.ofNat 64 ((if err then 2 ^ 63 else 0) + l.placed % 2 ^ 48)))

/-- A launch whose groups have ended retires, its completion word is filled and its dependants follow. The readings of log entries 31
and 65 are the model's own. -/
def Obligations.LaunchesRetire : Prop :=
  Claims.LaunchesRetire ∧ Claims.LaunchCompletionWord

/-- R235, R237, R264, R332: in Run a tick starts once TICKP nanoseconds have passed since the last one: the count goes up, TICKP takes
the value set for it, the IDLE strands with TW wake, and the chains with TICK are played, without a patch; at every WIN-th tick the
engines give up their counters. A request starts an idle or reentrant chain, waits behind a running one, or finds it waiting already.
Before that time nothing happens. At an edge of its window a launch's placement is allowed or stopped. The reading of log entry 35 is
the model's own. -/
def Obligations.Ticks : Prop :=
  ∀ s : State,
    (s.tickTime < s.tickp.toNat * 693 → exec .tickStart s = .next s) ∧
    (s.power ≠ .run → exec .tickStart s = .next s) ∧
    (s.power = .run → s.tickp.toNat * 693 ≤ s.tickTime → s.winColl = none →
      ∃ s1 s2 : State, s1.ticks = s.ticks + 1 ∧ s1.tickTime = s.tickTime - s.tickp.toNat * 693 ∧ s1.winTicks = s.winTicks + 1 ∧
        s1.tickp = s.tickpNext ∧ s1.strands = s.tickWakes.strands ∧ s1.mem = s.mem ∧
        (∀ j l, Tab.get? s.launches j = some l → ∃ l', Tab.get? s1.launches j = some l' ∧
          l' = { l with open_ := !l.hdr.noWindow &&
            ({ s with tickTime := s.tickTime - s.tickp.toNat * 693 }).windowOpen l.hdr }) ∧
        s2 = s1.tickChains.foldl (fun s x => (s.chainRequest x.2.2 x.1 x.2.1 none).2) s1 ∧
        (s2.winTicks % max 1 s2.plWin.toNat ≠ 0 → exec .tickStart s = .next s2) ∧
        (s2.winTicks % max 1 s2.plWin.toNat = 0 →
          exec .tickStart s = .next { s2.takeCounts.2 with winColl := some s2.takeCounts.1 })) ∧
    (∀ tn k a, (tn, k, a) ∈ s.tickChains → s.chainAt tn k = some a ∧ (s.sysDword (a + 0x18)).getLsbD 33 = true) ∧
    (∀ a tn k (s1 : State), s1 = s.touchChain a tn → ((s1.sysDword (a + 0x18)).getLsbD 32 = true ∨ s1.chainState a = 0 →
        s.chainRequest a tn k none = (0, s1.startReplay a tn k)) ∧
      ((s1.sysDword (a + 0x18)).getLsbD 32 = false → s1.chainState a = 1 →
        s.chainRequest a tn k none = (1, s1.putChainState a 2 false)) ∧
      ((s1.sysDword (a + 0x18)).getLsbD 32 = false → 2 ≤ s1.chainState a → s.chainRequest a tn k none = (2, s1))) ∧
    (Tab.wf s.strands = true → ∀ j t, s.strand? j = some t →
      (t.st = .idle → t.tw = true → t.place?.isSome →
        s.tickWakes.strand? j = some { t with st := .run, pc := t.pc + 4, ready := s.cycle + 1 }) ∧
      (t.st = .idle → t.tw = true → t.place? = none → t.loc ≠ .gone → s.tickWakes.strand? j = some { t with wake := true }) ∧
      (t.st ≠ .idle ∨ t.tw = false ∨ t.loc = .gone → s.tickWakes.strand? j = some t)) ∧
    exec .tickWindowEdge s = .next (s.modLaunch s.ua fun l => { l with
      open_ := !l.hdr.noWindow && ((l.hdr.window == (0, 0)) || decide (l.hdr.window.1 ≤ s.tickTime / 693 / 1000 ∧
        s.tickTime / 693 / 1000 < l.hdr.window.2)) })

/-! ## Skeins -/

/-- R281, R282, R291: `susp` makes its strand wait for the suspension of its group at the address: gD waits and nothing of the strand
issues further. It gives 2 where the group suspends to another address, 3 in paired mode, 4 where a core of the group is sealed, and
raises the trap of its check. `sver` reads the first 16 bytes of a header as a load. -/
def Sys2Proof.Claims.SuspAndSver : Prop :=
  (∀ d h x, (Instr.susp d h x).runs
    (fun _ s1 t v =>
      skeinCheck (t.regionAt h.toNat) h.toNat (v x) (s1.group t.group).shape.size (rR ||| rW ||| rS) = none ∧ t.pair = false ∧
      t.home = none ∧ (∀ c ∈ (s1.group t.group).allCores, (s1.core c).sealed = false) ∧
      ∀ a, (s1.group t.group).suspAddr = some a → a.1 = (t.regionAt h.toNat).base + (v x).toNat)
    (fun s s1 t v => ((s1.lateDest t d).1.setStrand s.cur { (s1.lateDest t d).2.1 with susp := some (s1.lateDest t d).2.2 }).modGroup
      (s1.lateDest t d).2.1.group fun y => { y with
        suspAddr := some ((t.regionAt h.toNat).base + (v x).toNat, (s1.lateDest t d).2.1.asid) })) ∧
  (∀ d h x a, (Instr.susp d h x).runs
    (fun _ s1 t v =>
      skeinCheck (t.regionAt h.toNat) h.toNat (v x) (s1.group t.group).shape.size (rR ||| rW ||| rS) = none ∧ t.pair = false ∧
      t.home = none ∧ (∀ c ∈ (s1.group t.group).allCores, (s1.core c).sealed = false) ∧
      (s1.group t.group).suspAddr = some a ∧ a.1 ≠ (t.regionAt h.toNat).base + (v x).toNat)
    (fun s s1 t _ => s1.finish s.cur t d 2)) ∧
  (∀ d h x, (Instr.susp d h x).runs
    (fun _ s1 t v =>
      skeinCheck (t.regionAt h.toNat) h.toNat (v x) (s1.group t.group).shape.size (rR ||| rW ||| rS) = none ∧ t.pair = true)
    (fun s s1 t _ => s1.finish s.cur t d 3)) ∧
  (∀ d h x c, (Instr.susp d h x).runs
    (fun _ s1 t v =>
      skeinCheck (t.regionAt h.toNat) h.toNat (v x) (s1.group t.group).shape.size (rR ||| rW ||| rS) = none ∧ t.pair = false ∧
      t.home = none ∧ c ∈ (s1.group t.group).allCores ∧ (s1.core c).sealed = true)
    (fun s s1 t _ => s1.finish s.cur t d 4)) ∧
  (∀ d h x c w, (Instr.susp d h x).runs
    (fun _ s1 t v =>
      skeinCheck (t.regionAt h.toNat) h.toNat (v x) (s1.group t.group).shape.size (rR ||| rW ||| rS) = some (c, w))
    (fun s _ t _ => s.trap s.cur t c w)) ∧
  (∀ p h x, (Instr.sver p h x).runs
    (fun _ _ t v => skeinCheck (t.regionAt h.toNat) h.toNat (v x) 64 (rR ||| rS) = none)
    (fun s s1 t v =>
      let a := s1.lateDest t (p.setWidth 5 <<< 1)
      let b := a.1.lateDest a.2.1 ((p.setWidth 5 <<< 1) ||| 1)
      b.1.enqueue s.cur b.2.1 [.ld] (.sver ((t.regionAt h.toNat).base + (v x).toNat) b.2.2) a.2.2)) ∧
  (∀ p h x c w, (Instr.sver p h x).runs
    (fun _ _ t v => skeinCheck (t.regionAt h.toNat) h.toNat (v x) 64 (rR ||| rS) = some (c, w))
    (fun s _ t _ => s.trap s.cur t c w)) ∧
  ∀ (r : Region) (h : Nat) (o : Word) (sz : Nat) (need : Rights), skeinCheck r h o sz need = none ↔
    need &&& ~~~ r.rights = 0 ∧ r.space = 4 ∧ o.toNat < 2 ^ 40 ∧ o.toNat + sz ≤ r.bound ∧ (r.base + o.toNat) % 64 = 0

/-- R281, R286, R287, R289: `resume` and `sdrop` read the header and compare in one step, and hold the strand until their reply.
Another ASID gives 1 and a right that is missing 2; a header that is not SUSPENDED at the version raises SKEINSTALE, and for `sdrop`
an unresolved copy SKEINBUSY. For `resume` a skein that leaves its handle raises BOUND, a bad target gives 3 and a full queue 4.
Accepted, `resume` writes the next version, queues the group, and takes over the copies recorded for the skein; `sdrop` writes DROPPED.
Each waits for its strand's accesses, and a page fault of the header parks the strand. -/
def Sys2Proof.Claims.SkeinHeld : Prop :=
  (∀ d h x b s2, (Instr.sdrop d h x).runs (fun _ s1 t v => s1.skeinHeader s2 t h (v x) b ∧ (skHdr b).asid ≠ t.asid)
    (fun _ _ t _ => s2.skeinStatus t d 1)) ∧
  (∀ d h x b s2, (Instr.sdrop d h x).runs
    (fun _ s1 t v => s1.skeinHeader s2 t h (v x) b ∧ (skHdr b).asid = t.asid ∧ (skHdr b).ctl.getLsbD 10 = false)
    (fun _ _ t _ => s2.skeinStatus t d 2)) ∧
  (∀ d h x b s2, (Instr.sdrop d h x).runs
    (fun _ s1 t v => s1.skeinHeader s2 t h (v x) b ∧ (skHdr b).asid = t.asid ∧ (skHdr b).ctl.getLsbD 10 = true ∧
      ((skHdr b).state ≠ 2 ∨ (skHdr b).ver ≠ v d))
    (fun s _ _ _ => s.skeinTrap .skeinstale (skHdr b).ver)) ∧
  (∀ d h x b s2, (Instr.sdrop d h x).runs
    (fun _ s1 t v => s1.skeinHeader s2 t h (v x) b ∧ (skHdr b).asid = t.asid ∧ (skHdr b).ctl.getLsbD 10 = true ∧
      (skHdr b).state = 2 ∧ (skHdr b).ver = v d ∧ 0 < (skHdr b).unres)
    (fun s _ _ _ => s.skeinTrap .skeinbusy (BitVec.ofNat 64 (skHdr b).unres))) ∧
  (∀ d h x b s2 s3, (Instr.sdrop d h x).runs
    (fun _ s1 t v => s1.skeinHeader s2 t h (v x) b ∧ (skHdr b).asid = t.asid ∧ (skHdr b).ctl.getLsbD 10 = true ∧
      (skHdr b).state = 2 ∧ (skHdr b).ver = v d ∧ (skHdr b).unres = 0 ∧
      s2.skeinWrites s3 t ((t.regionAt h.toNat).base + (v x).toNat + 8) (wordBytes (putBits (skHdr b).ctl 0 2 0)))
    (fun _ _ t _ => s3.skeinStatus t d 0)) ∧
  (∀ p h x b s2, (Instr.resume p h x).runs
    (fun _ s1 t v => s1.resumeHeader s2 t h (v x) b ∧ (skHdr b).asid ≠ t.asid)
    (fun _ _ t _ => s2.skeinStatus t (p.setWidth 5 <<< 1) 1)) ∧
  (∀ p h x b s2, (Instr.resume p h x).runs
    (fun _ s1 t v => s1.resumeHeader s2 t h (v x) b ∧ (skHdr b).asid = t.asid ∧ (skHdr b).ctl.getLsbD 8 = false)
    (fun _ _ t _ => s2.skeinStatus t (p.setWidth 5 <<< 1) 2)) ∧
  (∀ p h x b s2, (Instr.resume p h x).runs
    (fun _ s1 t v => s1.resumeHeader s2 t h (v x) b ∧ (skHdr b).asid = t.asid ∧ (skHdr b).ctl.getLsbD 8 = true ∧
      ((skHdr b).state ≠ 2 ∨ (skHdr b).ver ≠ v (p.setWidth 5 <<< 1)))
    (fun s _ _ _ => s.skeinTrap .skeinstale (skHdr b).ver)) ∧
  (∀ p h x b s2, (Instr.resume p h x).runs
    (fun _ s1 t v => s1.resumeHeader s2 t h (v x) b ∧ (skHdr b).asid = t.asid ∧ (skHdr b).ctl.getLsbD 8 = true ∧
      (skHdr b).state = 2 ∧ (skHdr b).ver = v (p.setWidth 5 <<< 1) ∧
      (t.regionAt h.toNat).bound < (v x).toNat + (skHdr b).bytesTotal)
    (fun s _ _ v => s.skeinTrap .bound (v x))) ∧
  (∀ p h x b s2, (Instr.resume p h x).runs
    (fun _ s1 t v => s1.resumeHeader s2 t h (v x) b ∧ (skHdr b).asid = t.asid ∧ (skHdr b).ctl.getLsbD 8 = true ∧
      (skHdr b).state = 2 ∧ (skHdr b).ver = v (p.setWidth 5 <<< 1) ∧
      (v x).toNat + (skHdr b).bytesTotal ≤ (t.regionAt h.toNat).bound ∧
      (s2.inDomain (bits (v ((p.setWidth 5 <<< 1) ||| 1)) 11 5) = false ∨
        ((v ((p.setWidth 5 <<< 1) ||| 1)).getLsbD 16 = false ∧
          (skShape (skHdr b).foot).offMesh (bits (v ((p.setWidth 5 <<< 1) ||| 1)) 0 8) = true)))
    (fun _ _ t _ => s2.skeinStatus t (p.setWidth 5 <<< 1) 3)) ∧
  (∀ p h x b s2, (Instr.resume p h x).runs
    (fun _ s1 t v => s1.resumeHeader s2 t h (v x) b ∧ (skHdr b).asid = t.asid ∧ (skHdr b).ctl.getLsbD 8 = true ∧
      (skHdr b).state = 2 ∧ (skHdr b).ver = v (p.setWidth 5 <<< 1) ∧
      (v x).toNat + (skHdr b).bytesTotal ≤ (t.regionAt h.toNat).bound ∧
      s2.inDomain (bits (v ((p.setWidth 5 <<< 1) ||| 1)) 11 5) = true ∧
      ((v ((p.setWidth 5 <<< 1) ||| 1)).getLsbD 16 = true ∨
        (skShape (skHdr b).foot).offMesh (bits (v ((p.setWidth 5 <<< 1) ||| 1)) 0 8) = false) ∧
      s2.devFull t.tenant.toNat (skHdr b).prio = true)
    (fun _ _ t _ => s2.skeinStatus t (p.setWidth 5 <<< 1) 4)) ∧
  (∀ p h x b s2 s3, (Instr.resume p h x).runs
    (fun _ s1 t v => s1.resumeHeader s2 t h (v x) b ∧ (skHdr b).asid = t.asid ∧ (skHdr b).ctl.getLsbD 8 = true ∧
      (skHdr b).state = 2 ∧ (skHdr b).ver = v (p.setWidth 5 <<< 1) ∧
      (v x).toNat + (skHdr b).bytesTotal ≤ (t.regionAt h.toNat).bound ∧
      s2.inDomain (bits (v ((p.setWidth 5 <<< 1) ||| 1)) 11 5) = true ∧
      ((v ((p.setWidth 5 <<< 1) ||| 1)).getLsbD 16 = true ∨
        (skShape (skHdr b).foot).offMesh (bits (v ((p.setWidth 5 <<< 1) ||| 1)) 0 8) = false) ∧
      s2.devFull t.tenant.toNat (skHdr b).prio = false ∧
      s2.skeinWrites s3 t ((t.regionAt h.toNat).base + (v x).toNat) (wordsBytes [(skHdr b).ver + 1, putBits (skHdr b).ctl 0 2 3]))
    (fun _ _ t v => ((s3.fresh.2.setQueue t.tenant.toNat (skHdr b).prio (s3.fresh.2.queue t.tenant.toNat (skHdr b).prio ++
      [.resume ((t.regionAt h.toNat).base + (v x).toNat) t.asid (v ((p.setWidth 5 <<< 1) ||| 1)) (dieOf t.core) t.sup s3.serial
        0])).claimCopies ((t.regionAt h.toNat).base + (v x).toNat) t.asid s3.serial).skeinStatus t (p.setWidth 5 <<< 1) 0)) ∧
  (∀ i h x, (∃ d, i = Instr.sdrop d h x) ∨ (∃ p, i = .resume p h x) ∨ (∃ p, i = .sclone p h x) →
    ∀ c w, i.runs (fun _ _ t v => t.pair = false ∧ t.clone = none ∧ skeinCheck (t.regionAt h.toNat) h.toNat (v x) 64 (rR ||| rW ||| rS) =
      some (c, w)) (fun s _ t _ => s.trap s.cur t c w)) ∧
  (∀ i h x, (∃ d, i = Instr.sdrop d h x) ∨ (∃ p, i = .resume p h x) →
    i.runs (fun _ _ t v => t.pair = false ∧ t.ops ≠ [] ∧
      skeinCheck (t.regionAt h.toNat) h.toNat (v x) 64 (rR ||| rW ||| rS) = none) (fun s _ _ _ => s)) ∧
  (∀ d h x cause va, (Instr.sdrop d h x).runs
    (fun _ s1 t v => skeinCheck (t.regionAt h.toNat) h.toNat (v x) 64 (rR ||| rW ||| rS) = none ∧ t.pair = false ∧ t.ops = [] ∧
      s1.allUp (dieOf t.core) (t.regionAt h.toNat) (v x).toNat 64 accR = true ∧
      s1.readSpan (dieOf t.core) (t.regionAt h.toNat) (v x).toNat 64 = .error (.xlate cause va))
    (fun s _ t _ => s.skeinPark t va accR cause)) ∧
  ∀ (s : State) (t : Strand) (d : GReg) (st : Nat), d ≠ 0 → t.bound? d = none →
    s.skeinStatus t d st = s.fresh.2.setStrand s.cur { t.countOn s.serial [.st] with
      pc := t.pc + 4, pend := t.pend ||| BitVec.twoPow 32 d.toNat, hold := some s.serial
      rets := t.rets ++ [{ kind := .skein, sn := s.serial, dests := [(.gpr d, BitVec.ofNat 64 st)] }] }

/-- R281, R290: `sclone` reads the source's header once. Another ASID gives 1, a right that is missing 2, a destination that is
SUSPENDED or BUILDING 3, and ranges that overlap 4; a source that is not SUSPENDED raises SKEINSTALE, an unresolved copy SKEINBUSY, a
destination that leaves the handle BOUND, and one out of alignment ALIGN. Otherwise the destination is taken to BUILDING, version 0,
the bytes after the header are copied, and the header is written with version 0 and the rights that are kept; a copy that a page
fault has stopped goes on from there with the header that was read. -/
def Sys2Proof.Claims.SkeinCopied : Prop :=
  (∀ p h x b s2, (Instr.sclone p h x).runs
    (fun _ s1 t v => s1.cloneHeader s2 t h (v x) (bits (v (p.setWidth 5 <<< 1)) 0 40) b ∧ (skHdr b).asid ≠ t.asid)
    (fun _ _ t _ => s2.skeinStatus t (p.setWidth 5 <<< 1) 1)) ∧
  (∀ p h x b s2, (Instr.sclone p h x).runs
    (fun _ s1 t v => s1.cloneHeader s2 t h (v x) (bits (v (p.setWidth 5 <<< 1)) 0 40) b ∧ (skHdr b).asid = t.asid ∧
      (skHdr b).ctl.getLsbD 9 = false)
    (fun _ _ t _ => s2.skeinStatus t (p.setWidth 5 <<< 1) 2)) ∧
  (∀ p h x b s2, (Instr.sclone p h x).runs
    (fun _ s1 t v => s1.cloneHeader s2 t h (v x) (bits (v (p.setWidth 5 <<< 1)) 0 40) b ∧ (skHdr b).asid = t.asid ∧
      (skHdr b).ctl.getLsbD 9 = true ∧ (skHdr b).state ≠ 2)
    (fun s _ _ _ => s.skeinTrap .skeinstale (skHdr b).ver)) ∧
  (∀ p h x b s2, (Instr.sclone p h x).runs
    (fun _ s1 t v => s1.cloneHeader s2 t h (v x) (bits (v (p.setWidth 5 <<< 1)) 0 40) b ∧ (skHdr b).asid = t.asid ∧
      (skHdr b).ctl.getLsbD 9 = true ∧ (skHdr b).state = 2 ∧ 0 < (skHdr b).unres)
    (fun s _ _ _ => s.skeinTrap .skeinbusy (BitVec.ofNat 64 (skHdr b).unres))) ∧
  (∀ p h x b s2, (Instr.sclone p h x).runs
    (fun _ s1 t v => s1.cloneHeader s2 t h (v x) (bits (v (p.setWidth 5 <<< 1)) 0 40) b ∧ (skHdr b).asid = t.asid ∧
      (skHdr b).ctl.getLsbD 9 = true ∧ (skHdr b).state = 2 ∧ (skHdr b).unres = 0 ∧
      (t.regionAt h.toNat).bound < bits (v (p.setWidth 5 <<< 1)) 0 40 + (skHdr b).bytesTotal)
    (fun s _ _ v => s.skeinTrap .bound (BitVec.ofNat 64 (bits (v (p.setWidth 5 <<< 1)) 0 40)))) ∧
  (∀ p h x b s2, (Instr.sclone p h x).runs
    (fun _ s1 t v => s1.cloneHeader s2 t h (v x) (bits (v (p.setWidth 5 <<< 1)) 0 40) b ∧ (skHdr b).asid = t.asid ∧
      (skHdr b).ctl.getLsbD 9 = true ∧ (skHdr b).state = 2 ∧ (skHdr b).unres = 0 ∧
      bits (v (p.setWidth 5 <<< 1)) 0 40 + (skHdr b).bytesTotal ≤ (t.regionAt h.toNat).bound ∧
      (v x).toNat < bits (v (p.setWidth 5 <<< 1)) 0 40 + (skHdr b).bytesTotal ∧
      bits (v (p.setWidth 5 <<< 1)) 0 40 < (v x).toNat + (skHdr b).bytesTotal)
    (fun _ _ t _ => s2.skeinStatus t (p.setWidth 5 <<< 1) 4)) ∧
  (∀ p h x b db s2 s3, (Instr.sclone p h x).runs
    (fun _ s1 t v => s1.cloneHeader s2 t h (v x) (bits (v (p.setWidth 5 <<< 1)) 0 40) b ∧ (skHdr b).asid = t.asid ∧
      (skHdr b).ctl.getLsbD 9 = true ∧ (skHdr b).state = 2 ∧ (skHdr b).unres = 0 ∧
      bits (v (p.setWidth 5 <<< 1)) 0 40 + (skHdr b).bytesTotal ≤ (t.regionAt h.toNat).bound ∧
      (bits (v (p.setWidth 5 <<< 1)) 0 40 + (skHdr b).bytesTotal ≤ (v x).toNat ∨
        (v x).toNat + (skHdr b).bytesTotal ≤ bits (v (p.setWidth 5 <<< 1)) 0 40) ∧
      s2.skeinReads s3 t h (bits (v (p.setWidth 5 <<< 1)) 0 40) 64 db ∧
      ((skHdr db).state = 1 ∨ (skHdr db).state = 2))
    (fun _ _ t _ => s3.skeinStatus t (p.setWidth 5 <<< 1) 3)) ∧
  (∀ p h x b db body s0 s2 s3 s4 s5 s6 s7, (Instr.sclone p h x).runs
    (fun s s1 t v => s1.cloneHeader s2 t h (v x) (bits (v (p.setWidth 5 <<< 1)) 0 40) b ∧ (skHdr b).asid = t.asid ∧
      (skHdr b).ctl.getLsbD 9 = true ∧ (skHdr b).state = 2 ∧ (skHdr b).unres = 0 ∧
      bits (v (p.setWidth 5 <<< 1)) 0 40 + (skHdr b).bytesTotal ≤ (t.regionAt h.toNat).bound ∧
      (bits (v (p.setWidth 5 <<< 1)) 0 40 + (skHdr b).bytesTotal ≤ (v x).toNat ∨
        (v x).toNat + (skHdr b).bytesTotal ≤ bits (v (p.setWidth 5 <<< 1)) 0 40) ∧
      s2.skeinReads s3 t h (bits (v (p.setWidth 5 <<< 1)) 0 40) 64 db ∧
      (skHdr db).state ≠ 1 ∧ (skHdr db).state ≠ 2 ∧
      s3.skeinWrites s4 t ((t.regionAt h.toNat).base + bits (v (p.setWidth 5 <<< 1)) 0 40)
        (wordsBytes [0, putBits (skHdr db).ctl 0 2 1]) ∧
      s.writeVirt (dieOf t.core) t.asid ((t.regionAt h.toNat).base + bits (v (p.setWidth 5 <<< 1)) 0 40)
        (wordsBytes [0, putBits (skHdr db).ctl 0 2 1]) = .ok s0 ∧
      s4.skeinReads s5 t h ((v x).toNat + 0x40) ((skHdr b).bytesTotal - 0x40) body ∧
      s5.skeinWrites s6 t ((t.regionAt h.toNat).base + bits (v (p.setWidth 5 <<< 1)) 0 40 + 0x40) body ∧
      s6.skeinWrites s7 t ((t.regionAt h.toNat).base + bits (v (p.setWidth 5 <<< 1)) 0 40)
        (SkHdr.bytes { skHdr b with ver := 0, ctl := putBits (putBits (skHdr b).ctl 8 3
          (bits (skHdr b).ctl 8 3 &&& bits (v ((p.setWidth 5 <<< 1) ||| 1)) 0 3)) 48 16 0 }))
    (fun _ _ t _ => s7.skeinStatus t (p.setWidth 5 <<< 1) 0)) ∧
  (∀ p h x b body s5 s6 s7, (Instr.sclone p h x).runs
    (fun _ s1 t v => t.clone = some (t.pc, b) ∧ t.pair = false ∧ t.ops = [] ∧
      s1.skeinReads s5 t h ((v x).toNat + 0x40) ((skHdr b).bytesTotal - 0x40) body ∧
      s5.skeinWrites s6 t ((t.regionAt h.toNat).base + bits (v (p.setWidth 5 <<< 1)) 0 40 + 0x40) body ∧
      s6.skeinWrites s7 t ((t.regionAt h.toNat).base + bits (v (p.setWidth 5 <<< 1)) 0 40)
        (SkHdr.bytes { skHdr b with ver := 0, ctl := putBits (putBits (skHdr b).ctl 8 3
          (bits (skHdr b).ctl 8 3 &&& bits (v ((p.setWidth 5 <<< 1) ||| 1)) 0 3)) 48 16 0 }))
    (fun _ _ t _ => s7.skeinStatus { t with clone := none } (p.setWidth 5 <<< 1) 0)) ∧
  ∀ p h x, (Instr.sclone p h x).runs
    (fun _ _ t v => t.pair = false ∧ t.clone = none ∧
      skeinCheck (t.regionAt h.toNat) h.toNat (v x) 64 (rR ||| rW ||| rS) = none ∧
      ((t.regionAt h.toNat).base + bits (v (p.setWidth 5 <<< 1)) 0 40) % 64 ≠ 0)
    (fun s _ t v => s.trap s.cur t .align (BitVec.ofNat 64 (bits (v (p.setWidth 5 <<< 1)) 0 40)))

/-- Susp, sver, resume, sdrop and sclone: their statuses, their traps and what they write. The readings of log entries 36 and 37 are
the model's own. -/
def Obligations.SkeinInstructions : Prop :=
  Claims.SuspAndSver ∧ Claims.SkeinHeld ∧ Claims.SkeinCopied

/-- R281, R284: the reply of a held instruction releases its strand, with its status or its trap. A suspension begins once its
group is ready and links lead to the skein: a header that is SUSPENDED or BUILDING releases the strands with 1, and any other is
written BUILDING with the next version. Then it ends: gD of every arrived strand becomes 0, the sections and after them the header,
SUSPENDED at that version with all rights, are written, and every arrived strand ends. A header that a seal left BUILDING is
rewritten DROPPED, its reserved bits 0. -/
def Sys2Proof.Claims.Suspensions : Prop :=
  ∀ s : State,
    (∀ t r d v, s.strand? s.ua = some t → t.rets[s.ub]? = some r → r.kind = .skein → t.hold = some r.sn → r.trap = none →
      r.dests = [(.gpr d, v)] → d ≠ 0 → t.st ≠ .ended →
      ∃ u, exec .skeinStatusReply s = .next (s.setStrand s.ua u) ∧ u.hold = none ∧ u.g d = v ∧
        u.rets = t.rets.eraseIdx s.ub ∧ u.pend.getLsbD d.toNat = false ∧ u.pc = t.pc) ∧
    (∀ t r c v, s.strand? s.ua = some t → t.rets[s.ub]? = some r → r.kind = .skein → t.hold = some r.sn →
      r.trap = some (c, v) → r.dests = [] → t.st ≠ .ended → t.claim = none → t.th = false → t.tvec ≠ 0 →
      ∃ u, exec .skeinStatusReply s = .next (s.setStrand s.ua u) ∧ u.hold = none ∧ u.pc = t.tvec ∧ u.tpc = t.pc ∧ u.tval = v ∧
        u.tcause = c.code ∧ u.th = true ∧ u.gr = t.gr) ∧
    (∀ va asid, (s.group s.ua).tok = 0 → (s.group s.ua).drop = none → (s.group s.ua).ended = false → (s.group s.ua).suspAddr = some (va, asid) →
      (s.virtUp (dieOf (s.group s.ua).core0) asid va (s.group s.ua).shape.size accRW = false → exec .suspensionComplete s = .next s) ∧
      ((s.group s.ua).building = none → s.readyToSuspend s.ua (s.group s.ua) = false → exec .suspensionComplete s = .next s) ∧
      (s.virtUp (dieOf (s.group s.ua).core0) asid va (s.group s.ua).shape.size accRW = true → (s.group s.ua).building = none →
        s.readyToSuspend s.ua (s.group s.ua) = true → exec .suspensionComplete s = .next (s.beginSusp s.ua va asid)) ∧
      (∀ ver, s.virtUp (dieOf (s.group s.ua).core0) asid va (s.group s.ua).shape.size accRW = true →
        (s.group s.ua).building = some ver → exec .suspensionComplete s = .next (s.endSusp s.ua va asid ver))) ∧
    (∀ g va asid b s1, s.readVirt (dieOf (s.group g).core0) asid va 64 = .ok (b, s1) →
      ((skHdr b).state = 1 ∨ (skHdr b).state = 2 → s.beginSusp g va asid = s1.suspRelease g 1) ∧
      (∀ s2 x, (skHdr b).state ≠ 1 → (skHdr b).state ≠ 2 → s1.writeVirt (dieOf (s.group g).core0) asid va
          (wordsBytes [(skHdr b).ver + 1, putBits (skHdr b).ctl 0 2 1]) = .ok s2 → Tab.get? s.groups g = some x →
        ∃ x', Tab.get? (s.beginSusp g va asid).groups g = some x' ∧ x'.building = some ((skHdr b).ver + 1) ∧
          (s.beginSusp g va asid).mem = s2.mem)) ∧
    (∀ g i t d, s.strand? i = some t → t.group = g → t.susp = some (.gpr d) → t.st ≠ .ended → d ≠ 0 →
      ∃ u, (s.suspGive g).strand? i = some u ∧ u.g d = 0) ∧
    (∀ g va asid ver s2 s3, (s.suspGive g).recordedAt va asid = [] →
      (s.suspGive g).writeVirt (dieOf (s.group g).core0) asid (va + 0x40) ((s.suspGive g).sections g (s.group g) []) = .ok s2 →
      s2.writeVirt (dieOf (s.group g).core0) asid va ((s.group g).skeinHdr ver 0 0).bytes = .ok s3 →
      ∃ s4 : State, s.endSusp g va asid ver = s4.suspEnd g [] ∧ s4.mem = s3.mem ∧ s4.strands = s3.strands ∧
        ∀ x, Tab.get? s3.groups g = some x → Tab.get? s4.groups g = some { x with building := none, suspAddr := none }) ∧
    (∀ g recs i t, s.strand? i = some t → t.group = g → t.susp.isSome →
      ∃ u, (s.suspEnd g recs).strand? i = some u ∧ u.st = .ended ∧ u.susp = none) ∧
    (∀ (x : Group) (ver : Word) (n u : Nat), n < 2 ^ 16 → u < 2 ^ 16 → x.shape.size < 2 ^ 40 →
      (x.skeinHdr ver n u).ver = ver ∧ (x.skeinHdr ver n u).state = 2 ∧ (x.skeinHdr ver n u).asid = x.asid ∧
      bits (x.skeinHdr ver n u).ctl 8 3 = 7 ∧ bits (x.skeinHdr ver n u).ctl 32 16 = n ∧ (x.skeinHdr ver n u).unres = u ∧
      (x.skeinHdr ver n u).bytesTotal = x.shape.size) ∧
    ∀ va asid b s1 s2 x, (s.group s.ua).tok = 0 → (s.group s.ua).drop = some (va, asid) → Tab.get? s.groups s.ua = some x →
      s.virtUp (dieOf x.core0) asid va 64 accRW = true → s.readVirt (dieOf x.core0) asid (va + 8) 8 = .ok (b, s1) →
      s1.writeVirt (dieOf x.core0) asid (va + 8) (wordBytes (putBits (wordOf b &&& 0xFFFFFFFF00FFF703) 0 2 0)) = .ok s2 →
      ∃ s', exec .suspensionComplete s = .next s' ∧ s'.mem = s2.mem ∧ (s'.group s.ua).drop = none

/-- R63, R276, R278 to R280: what the sections of a skein hold when a suspension writes them, at the offsets of R276. The frame of a
strand is its register image with the PC after its `susp`, and that of one that had ended is zero; its annex holds what identifies it,
ENDED and SUP, and its handles; its slice, the banks and the windows are there byte for byte, each with the bits of its words. A core
block holds the formats of the run's banks, the barrier registers that the group holds and the ports that it owns. -/
def Sys2Proof.Claims.SkeinSections : Prop :=
  (∀ (s : State) (g : Nat) (x : Group) (table b : List Byte) (f : SkShape), f = x.shape → table.length ≤ 640 * f.c →
    b = List.replicate 64 0 ++ s.sections g x table →
    b.length = f.size ∧
    (∀ i sid t, i < f.n → s.member x i = some (sid, t) →
      (b.drop (f.frm i)).take 576 = ({ t.advance with st := .run } : Strand).image576 ∧
      (b.drop (f.slc i)).take 4160 = s.captured (fun o => scratchKey t.core (0x1000 * t.slot + o)) 4096) ∧
    (∀ i, i < f.n → s.member x i = none →
      (b.drop (f.frm i)).take 576 = List.replicate 576 0 ∧ (b.drop (f.slc i)).take 4160 = List.replicate 4160 0) ∧
    (∀ i sid t a, i < f.n → x.strands[i]? = some (some sid) → s.strand? sid = some t → a = b.drop (f.anx i) →
      dwordAt a 0 = t.wid ∧ dwordAt a 1 = t.grp ∧ dwordAt a 2 = t.image ∧ bits (dwordAt a 3) 0 32 = t.imgsz.toNat ∧
      (dwordAt a 3).getLsbD 32 = decide (t.st = .ended) ∧ (dwordAt a 3).getLsbD 33 = t.sup ∧
      ∀ n, n < 32 → some ((a.drop (0x40 + 32 * n)).take 32) =
        ((if t.st = .ended then t.handles.toList else t.handlesNow)[n]?).map Handle.bytes) ∧
    (∀ c a k, c < f.c → a = b.drop (f.cbk c) → k = s.core (x.core c) →
      (∀ j, j < f.nbank → f.nbank ≤ 8 → bits (dwordAt a 0) (8 * j) 8 = (vget k.bfmt (x.bank0 + j) 0).toNat) ∧
      (∀ i, i < 4 → (dwordAt (a.drop (0x40 + 16 * i)) 1).getLsbD 16 = decide ((vget k.bars i {}).held = some g)) ∧
      (∀ i r, i < 4 → r = vget k.bars i {} → r.held = some g → ∃ d, d = a.drop (0x40 + 16 * i) ∧
        bits (dwordAt d 0) 0 4 = r.x0.toNat ∧ bits (dwordAt d 0) 4 4 = r.y0.toNat ∧ bits (dwordAt d 0) 8 4 = r.wm1.toNat ∧
        bits (dwordAt d 0) 12 4 = r.hm1.toNat ∧ bits (dwordAt d 0) 16 16 = r.ph.toNat ∧ bits (dwordAt d 0) 32 32 = r.tmo.toNat ∧
        bits (dwordAt d 1) 0 8 = r.mask.toNat ∧ bits (dwordAt d 1) 8 8 = r.arrived.toNat) ∧
      (∀ i, i < 8 → (dwordAt (a.drop (0x80 + 136 * i)) 0).getLsbD 63 = decide ((vget k.ports i {}).owner = some g)) ∧
      ∀ i p, i < 8 → p = vget k.ports i {} → p.owner = some g → p.vals.length ≤ 16 →
        bits (dwordAt (a.drop (0x80 + 136 * i)) 0) 0 5 = p.vals.length ∧
        ∀ n v, p.vals[n]?.bind (fun e => e.val) = some v → dwordAt (a.drop (0x80 + 136 * i)) (n + 1) = v) ∧
    (b.drop (f.ops 0)).take (640 * f.c) = table ++ List.replicate (640 * f.c - table.length) 0 ∧
    (∀ c j, c < f.c → j < f.nbank → (b.drop (f.img (c * f.nbank + j))).take 33280 = s.captured (x.bankKey c j) 0x8000) ∧
    (b.drop f.cli).take (4160 * f.clw) = s.captured x.clKey (4096 * f.clw) ∧
    (b.drop f.chi).take (266240 * f.chw) = s.captured x.chKey (2 ^ 18 * f.chw)) ∧
  (∀ (s : State) (key : Nat → Nat) (n : Nat), n % 64 = 0 →
    (∀ o, o < n → (s.captured key n)[o]? = some (Memory.read s.mem (key o))) ∧
    ∀ w, w < n / 8 → (((s.captured key n)[n + w / 8]?).getD 0).getLsbD (w % 8) = s.isFull (key (8 * w))) ∧
  ∀ (t : Strand) (b : List Byte), b = t.image576 → b.length = 576 ∧
    (∀ i, 0 < i → i < 32 → dwordAt b i = vget t.gr i 0) ∧
    (∀ i, i < 16 → natOfBytes ((b.drop (0x100 + 16 * i)).take 16) = (vget t.vr i 0).toNat) ∧
    dwordAt b 0x40 = t.pc ∧ dwordAt b 0x41 = t.status ∧ dwordAt b 0x42 = t.tvec ∧ dwordAt b 0x43 = t.tpc ∧ dwordAt b 0x44 = t.tval ∧
    dwordAt b 0x45 = t.tmr ∧ dwordAt b 0x46 = t.khash ∧ dwordAt b 0x47 = t.kbins

/-- R286: what a restore writes, from the skein's bytes. A strand's registers come from its frame and what identifies it from its annex,
SUP only under a supervisor's `resume`; h0 to h3 are those of the new placement, and the others are moved: a global or empty handle is
kept, and one of the strand's slice keeps its place in the new one. A strand that had ended keeps its annex. A held barrier register, an
owned port and the formats of the run's banks come from the core blocks, and the captured memory from its images. -/
def Sys2Proof.Claims.SkeinRestored : Prop :=
  (∀ (s s' : State) (g : Nat) (x : Group) (va : Nat) (h : SkHdr) (b : List Byte) (f : SkShape) (o : OldPlace), f = skShape h.foot →
    s' = s.restoreGroup g x va h b → 0 < x.w → x.w ≤ 16 → (x.strands.filterMap id).Nodup →
    o = oldPlace h ((List.range f.n).map fun i => bits (dwordAt (b.drop (f.frm i)) 0x41) 13 3) →
    (∀ i sid t r a, i < f.n → s.member x i = some (sid, t) → r = b.drop (f.frm i) → a = b.drop (f.anx i) →
      ∃ u, s'.strand? sid = some u ∧ u.st = .run ∧ u.loc = .slot t.core t.slot ∧ u.ready = s.cycle + 1 ∧
        (∀ n, 0 < n → n < 32 → vget u.gr n 0 = dwordAt r n) ∧
        (∀ n, n < 16 → vget u.vr n 0 = BitVec.ofNat 128 (natOfBytes ((r.drop (0x100 + 16 * n)).take 16))) ∧
        u.pc = dwordAt r 0x40 ∧ u.th = (dwordAt r 0x41).getLsbD 0 ∧ u.tval = dwordAt r 0x44 ∧ u.tmr = dwordAt r 0x45 ∧
        u.tvec = dwordAt r 0x42 &&& ~~~ 3 ∧ u.tpc = dwordAt r 0x43 &&& ~~~ 3 ∧ u.qbind = (dwordAt r 0).setWidth 32 ∧
        u.frm = (dwordAt r 0).extractLsb' 40 8 &&& 0xF3 ∧ u.wake = (t.wake || (dwordAt r 0).getLsbD 50) ∧
        u.wid = dwordAt a 0 ∧ u.grp = dwordAt a 1 ∧ u.image = dwordAt a 2 ∧ u.imgsz = (dwordAt a 3).setWidth 32 ∧
        u.sup = (x.supResume && (dwordAt r 0x41).getLsbD 8) ∧ u.pair = false ∧
        vget u.handles 0 {} = handle0 t.slot t.core ∧ vget u.handles 1 {} = handle1 x.bank0 x.nbank t.core ∧
        vget u.handles 2 {} = handle2 x.cl0 x.clw t.core ∧ vget u.handles 3 {} = handle3 x.ch0 x.chw t.core ∧
        ∀ n, 4 ≤ n → n < 32 → vget u.handles n {} = s.moveHandle x o i (Handle.ofBytes ((a.drop (0x40 + 32 * n)).take 32))) ∧
    (∀ i sid t a, i < f.n → x.strands[i]? = some (some sid) → s.strand? sid = some t → t.st = .ended → a = b.drop (f.anx i) →
      ∃ u, s'.strand? sid = some u ∧ u.st = .ended ∧ u.wid = dwordAt a 0 ∧ u.grp = dwordAt a 1 ∧ u.image = dwordAt a 2 ∧
        u.imgsz = (dwordAt a 3).setWidth 32 ∧ u.sup = (x.supResume && (dwordAt a 3).getLsbD 33)) ∧
    (∀ c a k k', c < f.c → a = b.drop (f.cbk c) → k = s.core (x.core c) → k' = s'.core (x.core c) →
      (∀ n d, n < 4 → d = a.drop (0x40 + 16 * n) →
        ((dwordAt d 1).getLsbD 16 = false → vget k'.bars n {} = vget k.bars n {}) ∧
        ((dwordAt d 1).getLsbD 16 = true → ∃ r, vget k'.bars n {} = r ∧ r.held = some g ∧ r.x0.toNat = bits (dwordAt d 0) 0 4 ∧
          r.y0.toNat = bits (dwordAt d 0) 4 4 ∧ r.wm1.toNat = bits (dwordAt d 0) 8 4 ∧ r.hm1.toNat = bits (dwordAt d 0) 12 4 ∧
          r.ph.toNat = bits (dwordAt d 0) 16 16 ∧ r.tmo.toNat = bits (dwordAt d 0) 32 32 ∧ r.mask.toNat = bits (dwordAt d 1) 0 8 ∧
          r.arrived.toNat = bits (dwordAt d 1) 8 8)) ∧
      (∀ n d, n < 8 → d = a.drop (0x80 + 136 * n) →
        ((dwordAt d 0).getLsbD 63 = false → vget k'.ports n {} = vget k.ports n {}) ∧
        ((dwordAt d 0).getLsbD 63 = true → (vget k'.ports n {}).owner = some g ∧ (vget k'.ports n {}).vals.map (fun e => e.val) =
          (List.range (min 16 (bits (dwordAt d 0) 0 5))).map fun i => some (dwordAt d (i + 1)))) ∧
      ∀ j, j < x.nbank → x.bank0 + j < 8 → vget k'.bfmt (x.bank0 + j) 0 = BitVec.ofNat 5 (bits (dwordAt a 0) (8 * j) 5)) ∧
    s'.mem = ((s.images x).foldl (fun s y => s.uncapture y.2.2 y.2.1 (b.drop y.1)) s).mem ∧
    s'.full = ((s.images x).foldl (fun s y => s.uncapture y.2.2 y.2.1 (b.drop y.1)) s).full) ∧
  (∀ (s : State) (base n : Nat) (b : List Byte), s.memWf → b.length = n + n / 64 → base % 8 = 0 → n % 64 = 0 →
    (∀ o, o < n → some (Memory.read (s.uncapture (fun o => base + o) n b).mem (base + o)) = b[o]?) ∧
    (∀ w, w < n / 8 → (s.uncapture (fun o => base + o) n b).isFull (base + 8 * w) = ((b[n + w / 8]?).getD 0).getLsbD (w % 8)) ∧
    ∀ a, a < base ∨ base + n ≤ a → Memory.read (s.uncapture (fun o => base + o) n b).mem a = Memory.read s.mem a) ∧
  (∀ (s : State) (x : Group) (o : OldPlace) (i : Nat) (h : Handle),
    (h.isEmpty = true ∨ h.space = 4 → s.moveHandle x o i h = h) ∧
    (∀ sid t k, h.isEmpty = false → h.space = 0 → 0 < o.s → s.member x i = some (sid, t) → o.slots[i]? = some k →
      0x1000 * k ≤ h.base.toNat → h.base.toNat + h.bound ≤ 0x1000 * k + 0x1000 →
      s.moveHandle x o i h = { base := BitVec.ofNat 64 (h.base.toNat - 0x1000 * k + 0x1000 * t.slot), ctl := h.ctl
                               tgt := handleTgt (dieOf (x.core (i / o.s))) (x.core (i / o.s) % 256) }) ∧
    (h.isEmpty = false → h.space = 1 → o.bank0 * 0x8000 ≤ h.base.toNat → h.base.toNat + h.bound ≤ 0x8000 * (o.bank0 + o.nbank) →
      s.moveHandle x o i h = { base := BitVec.ofNat 64 (h.base.toNat - 0x8000 * o.bank0 + 0x8000 * x.bank0), ctl := h.ctl
                               tgt := handleTgt (dieOf (x.core (i / o.s))) (x.core (i / o.s) % 256) }) ∧
    (h.isEmpty = false → h.space = 1 → h.base.toNat < o.bank0 * 0x8000 ∨ 0x8000 * (o.bank0 + o.nbank) < h.base.toNat + h.bound →
      s.moveHandle x o i h = {})) ∧
  ∀ s : State,
    ((s.group s.ua).restore = none → exec .groupRestoreEnd s = .next s) ∧
    ∀ va asid g x, g = s.ua → x = s.group g → x.restore = some (va, asid) → x.tok = 0 → x.ended = false →
      (s.virtUp (dieOf x.core0) asid va x.shape.size accR = false → exec .groupRestoreEnd s = .next s) ∧
      ∀ b s1 s2 s3, s.virtUp (dieOf x.core0) asid va x.shape.size accR = true →
        s.readVirt (dieOf x.core0) asid va x.shape.size = .ok (b, s1) →
        s2 = (s1.restoreGroup g x va (skHdr b) b).modGroup g (fun y => { y with restore := none }) →
        s3 = (s2.heldVals.filter fun v => decide (v.cmp = x.cmp)).foldl (fun s v => s.newWord g v.area.toNat v.idx v.off v.val) s2 →
        exec .groupRestoreEnd s = .next ((s1.badCores x va).foldl (fun s c => s.seal c)
          { s3 with heldVals := s3.heldVals.filter fun v => !decide (v.cmp = x.cmp) })

/-- R287: a recorded copy that has ended is resolved at its header, once links lead to the skein and to its completion word, and leaves
its channel; while its suspension goes on it is not. -/
def Sys2Proof.Claims.CopiesResolve : Prop :=
  ∀ (s : State) (h : Option Nat) (x : CopyCmd) (va : Nat) (asid : BitVec 12) (idx : Nat),
    ((s.core s.ua).commands.find? fun y => y.2.recorded.isSome && (s.core s.ua).cmdDone y.1 y.2 &&
        (if s.ub ≥ 4 then y.1.isNone else decide (y.1 = some s.ub))) = some (h, x) → x.recorded = some (va, asid, idx) →
      ((s.group x.group).building.isSome ∨ x.tok ≠ 0 → exec .recordedCopyResolve s = .next s) ∧
      ∀ s1, (s.group x.group).building = none → x.tok = 0 → s.virtUp (dieOf s.ua) asid va 64 accRW = true →
        s.wordUp (dieOf s.ua) x.sid x.cw (staged x.regs 6) = true → s.resolveCopy s.ua x va asid idx = .ok s1 →
        exec .recordedCopyResolve s = .next (s1.modCore s.ua fun k => k.dropCmd x.sn)

/-- Held instructions have their reply; a suspension begins and ends, and its sections hold the group; a restore ends, and puts the
group back; a recorded copy is resolved. The readings of log entries 36, 37 and 70 are the model's own. -/
def Obligations.SkeinEvents : Prop :=
  Claims.Suspensions ∧ Claims.SkeinSections ∧ Claims.SkeinRestored ∧ Claims.CopiesResolve

/-! ## Engine registers and copies -/

/-- R33, R125, R173, R183, R192, R242, R243, R251, R263: `erd` gives gD the register; `ewr` writes its field, the other bits are
ignored, and `cp.dh` and `cp.dslot` choose the kind of the destination. `cp.bfmt` acts on a bank that the group holds, `mx.scval` on a
slot that it holds, with the index going on modulo 32, `dx.ohi` on an entry that no other ASID holds, `dx.xrel` on a receive entry of
the strand's ASID, behind its accesses; each raises ENGINE otherwise. The supervisor's registers act on the die or on the distaff,
whose region registers refuse a write with ENGINE 0x405; for any other strand their instructions are ILLEGAL. No other staged register
changes. -/
def Sys2Proof.Claims.EngineRegisters : Prop :=
  (∀ e r d, (Instr.erd e r d).runs
    (fun _ s1 t _ => (engRegSup e r.toNat = true → t.sup = true) ∧ s1.noScale t e r.toNat = false)
    (fun s s1 t _ => s1.finish s.cur t d (s1.engRead t e r.toNat))) ∧
  (∀ d, (Instr.erd .mx 4 d).runs (fun _ s1 t _ => s1.noScale t .mx 4 = true)
    (fun s _ t _ => s.trap s.cur t .engine 0x108)) ∧
  (∀ e a r, engRegSup e r.toNat = false → (Instr.ewr e a r).runs (fun _ _ _ _ => True)
    (fun s s1 t v => s1.setStrand s.cur (t.advance.putSet e r.toNat (v a &&& engMask e r.toNat)))) ∧
  (∀ a, (Instr.ewr .dx a 0x20).runs (fun _ _ t _ => t.sup = true)
    (fun s s1 t v => (s1.modDie (dieOf t.core) fun x => { x with xtab := v a &&& engMask .dx 0x20 }).setStrand s.cur t.advance)) ∧
  (∀ a, (Instr.ewr .dx a 0x21).runs (fun _ _ t _ => t.sup = true)
    (fun s s1 t v => (s1.modDie (dieOf t.core) fun x => { x with gown := v a &&& engMask .dx 0x21 }).setStrand s.cur t.advance)) ∧
  (∀ a, (Instr.ewr .pl a 0x24).runs (fun _ _ t _ => t.sup = true)
    (fun s s1 t v => ({ s1 with plIdle := (v a).setWidth 48 }).setStrand s.cur t.advance)) ∧
  (∀ a, (Instr.ewr .pl a 0x25).runs (fun _ _ t _ => t.sup = true)
    (fun s s1 t v => ({ s1 with plWin := (v a).setWidth 8 }).setStrand s.cur t.advance)) ∧
  (∀ r a, (Instr.ewrCpDest r a).runs (fun _ _ _ _ => True)
    (fun s s1 t v => s1.setStrand s.cur
      { t.advance.putSet .cp r.toNat (v a &&& engMask .cp r.toNat) with cpSlot := decide (r = 4) })) ∧
  (∀ r a, (Instr.ewrCpBfmt r a).runs (fun _ s1 t v => s1.holdsBank t.group t.core (r.toNat - 0x30) = true ∧ (v a).getLsbD 3 = false)
    (fun s s1 t v => (s1.modCore t.core fun k => { k with bfmt := vset k.bfmt (r.toNat - 0x30) ((v a).setWidth 5) }).setStrand s.cur
      t.advance)) ∧
  (∀ r a, (Instr.ewrCpBfmt r a).runs (fun _ s1 t v => s1.holdsBank t.group t.core (r.toNat - 0x30) = false ∨ (v a).getLsbD 3 = true)
    (fun s _ t _ => s.trap s.cur t .engine 6)) ∧
  (∀ a, (Instr.ewrMxScsel a).runs (fun _ s1 t v => ((s1.core t.core).slotOf t.group (bits (v a) 0 8)).isSome)
    (fun s s1 t v => s1.setStrand s.cur (t.advance.putSet .mx 3 (v a &&& 0x1FFF)))) ∧
  (∀ a, (Instr.ewrMxScsel a).runs (fun _ s1 t v => (s1.core t.core).slotOf t.group (bits (v a) 0 8) = none)
    (fun s _ t _ => s.trap s.cur t .engine 0x108)) ∧
  (∀ a y, (Instr.ewrMxScval a).runs (fun _ s1 t _ => (s1.core t.core).slotOf t.group (bits (staged t.mx 3) 0 8) = some y)
    (fun s s1 t v => (s1.modCore t.core fun k => { k with
      opslots := Tab.set k.opslots (bits (staged t.mx 3) 0 8) { y with scales := vset y.scales (bits (staged t.mx 3) 8 5) ((v a).setWidth 32) } }).setStrand s.cur
      (t.advance.putSet .mx 3 (putBits (staged t.mx 3) 8 5 (bits (staged t.mx 3) 8 5 + 1))))) ∧
  (∀ a, (Instr.ewrMxScval a).runs (fun _ s1 t _ => (s1.core t.core).slotOf t.group (bits (staged t.mx 3) 0 8) = none)
    (fun s _ t _ => s.trap s.cur t .engine 0x108)) ∧
  (∀ a, (Instr.ewrDxOhi a).runs (fun _ s1 t _ => ∀ o, Tab.get? (s1.die (dieOf t.core)).ovr (bits (staged t.dx 0x0E) 0 8) = some o →
      o.v = true → o.asid = t.asid)
    (fun s s1 t v => (s1.modDie (dieOf t.core) fun x => { x with
      ovr := Tab.set x.ovr (bits (staged t.dx 0x0E) 0 8) {
        v := (v a).getLsbD 63, asid := t.asid, expert := (v a).extractLsb' 32 9, layer := (v a).setWidth 16
        mask := (staged t.dx 0x0F).extractLsb' 32 32, id := (staged t.dx 0x0F).setWidth 32 } }).setStrand s.cur t.advance)) ∧
  (∀ a o, (Instr.ewrDxOhi a).runs (fun _ s1 t _ => Tab.get? (s1.die (dieOf t.core)).ovr (bits (staged t.dx 0x0E) 0 8) = some o ∧
      o.v = true ∧ o.asid ≠ t.asid)
    (fun s _ t _ => s.trap s.cur t .engine 0x304)) ∧
  (∀ a e, (Instr.ewrDxXrel a).runs (fun _ s1 t v => s1.rcvEntry (bits (v a) 16 8) (bits (v a) 0 10) = some e ∧ e.asid = t.asid)
    (fun s s1 t v => s1.enqueue s.cur t [] (.xrel (bits (v a) 16 8) (bits (v a) 0 10)) .drop)) ∧
  (∀ a, (Instr.ewrDxXrel a).runs (fun _ s1 t v => ∀ e, s1.rcvEntry (bits (v a) 16 8) (bits (v a) 0 10) = some e → e.asid ≠ t.asid)
    (fun s _ t _ => s.trap s.cur t .engine 0x305)) ∧
  (∀ r a g, (Instr.ewrPlRegion r a).runs (fun _ s1 t v => t.sup = true ∧
      (g = if r = 0x20 then { s1.plRegion (bits (staged t.pl 0x0B) 0 6) with rgn := v a &&& engMask .pl r.toNat }
        else if r = 0x21 then { s1.plRegion (bits (staged t.pl 0x0B) 0 6) with wb := v a &&& engMask .pl r.toNat }
        else if r = 0x22 then { s1.plRegion (bits (staged t.pl 0x0B) 0 6) with wsz := v a &&& engMask .pl r.toNat }
        else { s1.plRegion (bits (staged t.pl 0x0B) 0 6) with pol := v a &&& engMask .pl r.toNat }) ∧
      s1.regionRefused (bits (staged t.pl 0x0B) 0 6) g = false)
    (fun s s1 t _ => (s1.setRegion (bits (staged t.pl 0x0B) 0 6) g).setStrand s.cur t.advance)) ∧
  (∀ r a g, (Instr.ewrPlRegion r a).runs (fun _ s1 t v => t.sup = true ∧
      (g = if r = 0x20 then { s1.plRegion (bits (staged t.pl 0x0B) 0 6) with rgn := v a &&& engMask .pl r.toNat }
        else if r = 0x21 then { s1.plRegion (bits (staged t.pl 0x0B) 0 6) with wb := v a &&& engMask .pl r.toNat }
        else if r = 0x22 then { s1.plRegion (bits (staged t.pl 0x0B) 0 6) with wsz := v a &&& engMask .pl r.toNat }
        else { s1.plRegion (bits (staged t.pl 0x0B) 0 6) with pol := v a &&& engMask .pl r.toNat }) ∧
      s1.regionRefused (bits (staged t.pl 0x0B) 0 6) g = true)
    (fun s _ t _ => s.trap s.cur t .engine 0x405)) ∧
  (∀ i, (∃ e r d, engRegSup e r.toNat = true ∧ (i = Instr.erd e r d ∨ i = .ewr e d r)) ∨ (∃ r a, i = .ewrPlRegion r a) →
    ∀ (s s1 : State) (t : Strand) (got : List (GReg × Word)), s.issued (.illegalWord ((encode i).getD 0)) = some (t, s1, got) →
      t.sup = false → exec i s = .next (s.trap s.cur t.settled .illegal (((encode i).getD 0).setWidth 64))) ∧
  ∀ (t : Strand) (e f : Eng) (r q : Nat) (v : Word), r < 32 → (e ≠ f ∨ q ≠ r) → q < 32 →
    staged ((t.putSet e r v).set f) q = staged (t.set f) q ∧ staged ((t.putSet e r v).set e) r = v

/-- R33, R125, R173, R183, R192, R200, R243: the values that `erd` reads. A staged register reads as it stands; `cp.dslot` with the
kind of the destination, a bank's format, the selected scale, the engine error word, the use of operand units, and an override
entry, which another ASID reads as 0. -/
def Sys2Proof.Claims.EngineReads : Prop :=
  ∀ (s : State) (t : Strand),
    (∀ e r, r < 32 → (e = .cp → r ≠ 4) → (e = .mx → r ≠ 4 ∧ r ≠ 14 ∧ r ≠ 15) → (e = .dx → r < 16) →
      s.engRead t e r = staged (t.set e) r) ∧
    (∀ i, i < 63 → (s.engRead t .cp 4).getLsbD i = (staged t.cp 4).getLsbD i) ∧
    ((staged t.cp 4).getLsbD 63 = false → (s.engRead t .cp 4).getLsbD 63 = t.cpSlot) ∧
    (∀ b, 1 ≤ b → b ≤ 6 → s.engRead t .cp (0x30 + b) = (vget (s.core t.core).bfmt b 0).setWidth 64) ∧
    (∀ y, (s.core t.core).slotOf t.group (bits (staged t.mx 3) 0 8) = some y →
      s.engRead t .mx 4 = (vget y.scales (bits (staged t.mx 3) 8 5) 0).setWidth 64) ∧
    (bits (s.engRead t .mx 14) 0 8 = (s.core t.core).errCnt.toNat ∧
      (s.engRead t .mx 14).getLsbD 8 = (s.core t.core).errScl ∧
      (s.engRead t .mx 14).getLsbD 10 = (vget (s.core t.core).accs 0 {}).err ∧
      (s.engRead t .mx 14).getLsbD 11 = (vget (s.core t.core).accs 1 {}).err ∧
      ∀ i, i = 9 ∨ 12 ≤ i → (s.engRead t .mx 14).getLsbD i = false) ∧
    (((((s.core t.core).opslots.filter fun x => x.2.group = t.group).map fun x => x.2.units).sum < 256) →
      bits (s.engRead t .mx 15) 0 8 = ((List.range 128).filter fun u => !(s.core t.core).unitUsed u).length ∧
      bits (s.engRead t .mx 15) 16 8 = (((s.core t.core).opslots.filter fun x => x.2.group = t.group).map fun x => x.2.units).sum ∧
      bits (s.engRead t .mx 15) 24 2 = ((s.core t.core).accs.toList.filter fun a => a.held = some t.group).length ∧
      (0 < bits (s.engRead t .mx 15) 8 8 → ∃ u, u + bits (s.engRead t .mx 15) 8 8 ≤ 128 ∧
        ∀ j, j < bits (s.engRead t .mx 15) 8 8 → (s.core t.core).unitUsed (u + j) = false) ∧
      ∀ u n, bits (s.engRead t .mx 15) 8 8 < n → u + n ≤ 128 → ∃ j, j < n ∧ (s.core t.core).unitUsed (u + j) = true) ∧
    (Tab.get? (s.die (dieOf t.core)).ovr (bits (staged t.dx 0x0E) 0 8) = none → s.engRead t .dx 16 = 0) ∧
    (∀ o, Tab.get? (s.die (dieOf t.core)).ovr (bits (staged t.dx 0x0E) 0 8) = some o →
      (o.v = true → o.asid ≠ t.asid → s.engRead t .dx 16 = 0) ∧
      (o.v = false ∨ o.asid = t.asid → (s.engRead t .dx 16).getLsbD 63 = o.v ∧ bits (s.engRead t .dx 16) 48 12 = o.asid.toNat ∧
        bits (s.engRead t .dx 16) 32 9 = o.expert.toNat ∧ bits (s.engRead t .dx 16) 0 16 = o.layer.toNat))

/-- Erd and ewr of every engine register, what a read gives, and the traps of the registers that act on what another holds. The
reading of log entry 55 is the model's own. -/
def Obligations.EngineRegisters : Prop :=
  Claims.EngineRegisters ∧ Claims.EngineReads

/-- R173, R177, R180 to R182: `cpgo` queues the copy with everything it uses as it stands, counts on CP, and on MX for a follow-on;
its refusals raise the trap of their check with nothing queued. `cphint` queues a hint that writes no completion word. `cpcancel`
cancels the strand's commands, and gives 0 at once where there are none. `cpstat` counts what the core's queue and channels hold. A
full command queue holds issue. Where nothing has to be waited for, the last two act as they issue. The readings of log entries 28 and
75 are the model's own. -/
def Obligations.CopiesIssue : Prop :=
  (∀ w sf sl df, (Instr.cpgo w).runs
    (fun _ s1 t v => t.cwCheck (staged t.cp 5) (staged t.cp 6) = none ∧
      s1.endFmt (t.regionAt (bits (staged t.cp 0) 0 5)) (staged t.cp 1).toNat = (sf, sl) ∧
      df = (if t.cpSlot then 15 else (s1.endFmt (t.regionAt (bits (staged t.cp 2) 0 5)) (staged t.cp 3).toNat).1) ∧
      s1.cpRefusal t v sf df = none ∧ (s1.core t.core).copyq.length < 16 ∧ (staged t.cp 7).getLsbD 63 = false)
    (fun s s1 t _ => ((s1.fresh.2.fresh.2).modCore t.core fun k => { k with copyq := k.copyq ++ [{
        sn := s1.serial, sid := s.cur, pc := t.pc, hint := false, regs := t.cp
        src := t.regionAt (bits (staged t.cp 0) 0 5), dst := t.regionAt (bits (staged t.cp 2) 0 5)
        cw := t.regionAt (bits (staged t.cp 5) 0 5)
        slotDst := if t.cpSlot then some (bits (staged t.cp 4) 0 8) else none
        srcFmt := sf, srcSl := sl, dstFmt := df, after := t.gate (w = 1), fol := none
        folSn := s1.fresh.2.serial, group := t.group }] }).setStrand s.cur
      ((t.countOn s1.serial [.cp]).named s1.serial).advance)) ∧
  (∀ w sf sl, (Instr.cpgo w).runs
    (fun _ s1 t v => t.cwCheck (staged t.cp 5) (staged t.cp 6) = none ∧
      s1.endFmt (t.regionAt (bits (staged t.cp 0) 0 5)) (staged t.cp 1).toNat = (sf, sl) ∧ t.cpSlot = true ∧
      s1.cpRefusal t v sf 15 = none ∧ (s1.core t.core).copyq.length < 16 ∧ (staged t.cp 7).getLsbD 63 = true ∧
      t.countFull [.mx] = false ∧ t.fenced [.mx] = false)
    (fun s s1 t v => ((s1.fresh.2.fresh.2).modCore t.core fun k => { k with copyq := k.copyq ++ [{
        sn := s1.serial, sid := s.cur, pc := t.pc, hint := false, regs := t.cp
        src := t.regionAt (bits (staged t.cp 0) 0 5), dst := t.regionAt (bits (staged t.cp 2) 0 5)
        cw := t.regionAt (bits (staged t.cp 5) 0 5)
        slotDst := some (bits (staged t.cp 4) 0 8)
        srcFmt := sf, srcSl := sl, dstFmt := 15, after := t.gate (w = 1)
        fol := some ((staged t.cp 7).setWidth 32, v ((staged t.cp 7).extractLsb' 11 5), v ((staged t.cp 7).extractLsb' 6 5))
        folSn := s1.fresh.2.serial, group := t.group }] }).setStrand s.cur
      (((t.countOn s1.serial [.cp]).named s1.serial).countOn s1.fresh.2.serial [.mx]).advance)) ∧
  (∀ w c x, (Instr.cpgo w).runs (fun _ _ t _ => t.cwCheck (staged t.cp 5) (staged t.cp 6) = some (c, x))
    (fun s _ t _ => s.trap s.cur t c x)) ∧
  (∀ w code, (Instr.cpgo w).runs
    (fun _ s1 t v => t.cwCheck (staged t.cp 5) (staged t.cp 6) = none ∧
      s1.cpRefusal t v (s1.endFmt (t.regionAt (bits (staged t.cp 0) 0 5)) (staged t.cp 1).toNat).1
        (if t.cpSlot then 15 else (s1.endFmt (t.regionAt (bits (staged t.cp 2) 0 5)) (staged t.cp 3).toNat).1) = some code)
    (fun s _ t _ => s.trap s.cur t .engine (BitVec.ofNat 64 code))) ∧
  (∀ w, (Instr.cphint w).runs
    (fun _ s1 t _ => cpBytes t.cp < 2 ^ 48 ∧ (t.handle (bits (staged t.cp 0) 0 5)).badFmt = false ∧
      (s1.core t.core).copyq.length < 16)
    (fun s s1 t _ => (s1.fresh.2.modCore t.core fun k => { k with copyq := k.copyq ++ [{
        sn := s1.serial, sid := s.cur, pc := t.pc, hint := true, regs := vset t.cp 6 bit63
        src := t.regionAt (bits (staged t.cp 0) 0 5), dst := t.regionAt (bits (staged t.cp 0) 0 5)
        cw := t.regionAt (bits (staged t.cp 0) 0 5), slotDst := none, srcFmt := 15, srcSl := false, dstFmt := 15
        after := t.gate (w = 1), fol := none, folSn := 0, group := t.group }] }).setStrand s.cur
      (t.countOn s1.serial [.cp]).advance)) ∧
  (∀ w, (Instr.cpgo w).runs
    (fun _ s1 t v => t.cwCheck (staged t.cp 5) (staged t.cp 6) = none ∧
      s1.cpRefusal t v (s1.endFmt (t.regionAt (bits (staged t.cp 0) 0 5)) (staged t.cp 1).toNat).1
        (if t.cpSlot then 15 else (s1.endFmt (t.regionAt (bits (staged t.cp 2) 0 5)) (staged t.cp 3).toNat).1) = none ∧
      (16 ≤ (s1.core t.core).copyq.length ∨
        ((staged t.cp 7).getLsbD 63 = true ∧ (t.countFull [.mx] = true ∨ t.fenced [.mx] = true))))
    (fun s _ _ _ => s)) ∧
  (∀ w, (Instr.cphint w).runs
    (fun _ s1 t _ => cpBytes t.cp < 2 ^ 48 ∧ (t.handle (bits (staged t.cp 0) 0 5)).badFmt = false ∧
      16 ≤ (s1.core t.core).copyq.length)
    (fun s _ _ _ => s)) ∧
  (∀ w, (Instr.cphint w).runs (fun _ _ t _ => 2 ^ 48 ≤ cpBytes t.cp) (fun s _ t _ => s.trap s.cur t .engine 1)) ∧
  (∀ w, (Instr.cphint w).runs
    (fun _ _ t _ => cpBytes t.cp < 2 ^ 48 ∧ (t.handle (bits (staged t.cp 0) 0 5)).badFmt = true)
    (fun s _ t _ => s.trap s.cur t .engine 3)) ∧
  (∀ d w, (Instr.cpcancel d w).runs
    (fun s s1 t _ => t.mustDefer (.cpcancel d w) (w = 1) = false ∧ (s1.core t.core).cancellable s.cur = [])
    (fun s s1 t _ => s1.finish s.cur t d 0)) ∧
  (∀ d w, (Instr.cpcancel d w).runs
    (fun s s1 t _ => t.mustDefer (.cpcancel d w) (w = 1) = false ∧ (s1.core t.core).cancellable s.cur ≠ [])
    (fun s s1 t _ => ((s1.lateDest t d).1.fresh.2.setStrand s.cur
        ((s1.lateDest t d).2.1.countOn (s1.lateDest t d).1.serial [.cp]).advance).beginCancel s.cur (s1.lateDest t d).2.1.core
        (s1.lateDest t d).1.serial (s1.lateDest t d).2.2)) ∧
  (∀ d w, (Instr.cpstat d w).runs (fun _ _ t _ => t.mustDefer (.cpstat d w) (w = 1) = false)
    (fun s s1 t _ => s1.finish s.cur t d (s1.cpStatus s.cur t.core))) ∧
  (∀ (s : State) (sid c : Nat), s.cpStatus sid c = BitVec.ofNat 64 (min 16 (s.core c).copyq.length * 2 ^ 16
      + (((s.core c).chans.toList.filter fun h => decide (h.st ≠ .free) && (h.cmd.map fun x => x.sid) = some sid).length) * 2 ^ 12
      + (((s.core c).chans.toList.filter fun h => h.st = .stall).length) * 2 ^ 8
      + ((s.core c).chans.toList.filter fun h => h.st ≠ .free).length)) ∧
  ∀ (s : State) (c sid sn : Nat) (dest : Dest) (k k' : Core), k = s.core c → k' = (s.beginCancel sid c sn dest).core c →
    k'.copyq = k.copyq.map (fun x => if x.ownedBy sid (some sn) && !x.err then x.cancel else x) ∧
    (∀ h x, h < 4 → (vget k.chans h {}).cmd = some x →
      vget k'.chans h {} = if x.ownedBy sid (some sn) = true ∧
          ((vget k.chans h {}).st = .start ∨ (vget k.chans h {}).st = .move ∨ (vget k.chans h {}).st = .stall) ∧
          x.run < x.total then { st := .finish, cmd := some x.cancel } else vget k.chans h {}) ∧
    k'.cancels = k.cancels ++ [(sid, sn, (k.cancellable sid (some sn)).map fun x => x.sn, (k.cancellable sid (some sn)).length, dest)] ∧
    ∀ x : CopyCmd, x.cancel.word = BitVec.ofNat 64 (2 ^ 63 + (if x.fdrop || x.fol.isSome then 2 ^ 62 else 0) + 4 * 2 ^ 56
      + (x.bytes + x.off) % 2 ^ 48)

/-- R171, R174, R175, R176, R178, R184, R336: a free channel takes the oldest command that may begin, in each strand's order; it
leaves START; a run whose check fails ends the copy with its CAUSE, and one that does not translate stalls with a record COPYFAULT;
otherwise, where links lead to its ends, the bytes up to the next 32-byte boundary of the destination are moved, converted where both
ends have formats that differ, or into an operand slot. A source on a sealed core or with a poisoned word, or a sealed destination,
ends it. When no run is left the follow-on goes to the array or is discarded; then the completion word is written and the channel is
free. -/
def Sys2Proof.Claims.CopyChannels : Prop :=
  (∀ (s : State) (x : CopyCmd), s.copyReady [] ((s.core s.ua).copyq.take 16) = some x → ∃ a b, (s.core s.ua).copyq.take 16 = a ++ x :: b ∧
    x.err = false ∧ s.mayBegin x.sid x.after = true ∧ s.inTurn x.sid .cp x.sn = true ∧ (∀ y ∈ a, y.err = true ∨ y.sid ≠ x.sid) ∧
    ∀ h, h < 4 → (vget (s.core s.ua).chans h {}).st = .free → (∀ j, j < h → (vget (s.core s.ua).chans j {}).st ≠ .free) →
      exec .copyChannelTake s = .next ((s.modCore s.ua fun k => { k with
        copyq := k.copyq.filter fun y => !(y.sn == x.sn) }).putChan s.ua h { st := .start, cmd := some x })) ∧
  (∀ (s : State) (c h : Nat) (x : CopyCmd) (ch : Chan), s.ua = c → s.ub = h → h < 4 → s.chan c h = ch → ch.cmd = some x →
    (ch.st = .start → exec .copyStartElapse s = .next (s.putChan c h { ch with st := .move })) ∧
    (ch.st = .move → x.run < x.total → x.hint = false → x.off = 0 →
      (∀ cause, s.copyCheck c x = some cause →
        exec .copyRun s = .next (s.failCopy c h x cause)) ∧
      (∀ cause va need, s.copyCheck c x = none → s.copyXlate c x = some (cause, va, need) → x.pl = none →
        exec .copyRun s = .next (match s.engFault c x.sid 0 2 va need cause x.pc (.copy c h) with
          | some (tok, s1) => s1.putChan c h { st := .stall, cmd := some x, tok }
          | none => s))) ∧
    (ch.st = .move → x.run < x.total → x.hint = false → (x.off = 0 → s.copyCheck c x = none ∧ s.copyXlate c x = none) →
      (∀ s', s.askRead x.sid x.sn (s.copyReads c x) = some s' → exec .copyRun s = .next s') ∧
      (∀ src dst o d n len, src = s.follow x.sid x.src → dst = s.follow x.sid x.dst → s.pairOut x.sid src = false → converts x.srcFmt x.dstFmt = false →
        o = (cpOffsets x.regs x.run).1.toNat + x.off → d = (cpOffsets x.regs x.run).2.toNat + x.off → len = cpCount x.regs 0 →
        n = min (32 - ((if x.slotDst.isSome then 0 else dst.base) + d) % 32) (len - x.off) →
        (s.runUp (dieOf c) src o accR = false ∨ (x.slotDst = none ∧ s.runUp (dieOf c) dst d accW = false) →
          exec .copyRun s = .next s) ∧
        (s.runUp (dieOf c) src o accR = true → (x.slotDst = none → s.runUp (dieOf c) dst d accW = true) →
          (∀ k, s.readSpan (dieOf c) src o n = .error (.peer k) → exec .copyRun s = .next (s.failCopy c h x 5)) ∧
          (∀ k, s.readSpan (dieOf c) src o n = .error (.bad k) → exec .copyRun s = .next (s.failCopy c h x 6)) ∧
          ∀ b s1, s.readSpan (dieOf c) src o n = .ok (b, s1) →
            (∀ ws part s2 y, x.slotDst = none → x.split (dst.base % 8) len (dst.base % 8 + d)
              (if x.mayMeet src dst then s1.mixOverlap x (dieOf c) src dst d b else b) = (ws, part) → s1.copyPut x (dieOf c) dst ws = .ok (s2, y) →
              exec .copyRun s = .next (if y.isSome then s2.failCopy c h { x with part } 5 else s2.putChan c h { st := .move, cmd := some (
                if len ≤ x.off + n then { x with run := x.run + 1, off := 0, bytes := x.bytes + len, part }
                else { x with off := x.off + n, part }) })) ∧
            ∀ k, x.slotDst = some k → exec .copyRun s = .next (
              (s1.writeBytes (operandKey c (2048 * k + d)) b).putChan c h { st := .move, cmd := some (
                if len ≤ x.off + n then { x with run := x.run + 1, off := 0, bytes := x.bytes + len }
                else { x with off := x.off + n }) }))) ∧
      ∀ src dst n b out s1 s2 o d len ws part (a e : Ty), converts x.srcFmt x.dstFmt = true →
        Ty.ofCode? x.srcFmt = some a → Ty.ofCode? x.dstFmt = some e → x.slotDst = none →
        src = s.follow x.sid x.src → dst = s.follow x.sid x.dst → s.pairOut x.sid src = false →
        o = (cpOffsets x.regs x.run).1.toNat + x.off * (a.width / 8) / (e.width / 8) → d = (cpOffsets x.regs x.run).2.toNat + x.off →
        s.runUp (dieOf c) src o accR = true → s.runUp (dieOf c) dst d accW = true →
        len = cpCount x.regs 0 * (e.width / 8) / (a.width / 8) →
        n = (if (dst.base + d) % (e.width / 8) = 0 then min (32 - (dst.base + d) % 32) (len - x.off) else len - x.off) →
        s.readSpan (dieOf c) src o (n * (a.width / 8) / (e.width / 8)) = .ok (b, s1) →
        s1.cvtRun x a e src o (elems (a.width / 8) (n * (a.width / 8) / (e.width / 8) / (a.width / 8)) b) = .ok out →
        x.split (dst.base % 8) len (dst.base % 8 + d)
          (if x.mayMeet src dst then s1.mixOverlap x (dieOf c) src dst d out else out) = (ws, part) → s1.copyPut x (dieOf c) dst ws = .ok (s2, none) →
        exec .copyRun s = .next (s2.putChan c h { st := .move, cmd := some (
          if len ≤ x.off + n then { x with run := x.run + 1, off := 0, bytes := x.bytes + len, part }
          else { x with off := x.off + n, part }) })) ∧
    (ch.st = .move → x.total ≤ x.run → x.fol = none →
      exec .copyLastByteLands s = .next (s.putChan c h { st := .finish, cmd := some x })) ∧
    (∀ w va vb n grouped mx, ch.st = .move → x.total ≤ x.run → x.fol = some (w, va, vb) → followOn? w = some (n, grouped) →
      mx = ((s.strand? x.sid).map fun t => t.mx).getD (Vector.replicate 32 0) →
      ((s.core c).mmCheck x.group (bits (staged mx 0) 0 4) n grouped va vb = none → (s.core c).mxq.length < 8 →
        exec .copyLastByteLands s = .next ((s.modCore c fun k => { k with mxq := k.mxq ++ [{
          sn := x.folSn, sid := x.sid, group := x.group, pc := x.pc, after := []
          kind := (s.core c).mmKind x.group mx n grouped va vb }] }).putChan c h
            { st := .finish, cmd := some { x with fol := none } })) ∧
      (((s.core c).mmCheck x.group (bits (staged mx 0) 0 4) n grouped va vb).isSome →
        exec .copyLastByteLands s = .next ((s.uncount x.sid x.folSn).putChan c h
          { st := .finish, cmd := some { x with fol := none, fdrop := true } }))) ∧
    (ch.st = .finish → x.recorded = none → x.pl = none → s.wordUp (dieOf c) x.sid x.cw (staged x.regs 6) = false →
      exec .copyCompletionWrite s = .next s) ∧
    (ch.st = .finish → x.recorded = none → x.pl = none → s.wordUp (dieOf c) x.sid x.cw (staged x.regs 6) = true →
      exec .copyCompletionWrite s = .next ((s.putChan c h {}).endCopy c x))) ∧
  (∀ (s : State) (x : CopyCmd), 4 ≤ s.ub → ((s.core s.ua).copyq.find? fun y => y.err && y.recorded.isNone && y.pl.isNone) = some x →
    s.wordUp (dieOf s.ua) x.sid x.cw (staged x.regs 6) = true →
    exec .copyCompletionWrite s = .next ((s.modCore s.ua fun k => { k with
      copyq := k.copyq.filter fun y => !(y.sn == x.sn) }).endCopy s.ua x)) ∧
  ∀ (s s0 : State) (c : Nat) (x : CopyCmd) (key : Nat), s0 = s.landPart c x → (x.part = [] → s0 = s) ∧
    ((staged x.regs 6).getLsbD 63 = true → (s.endCopy c x).mem = s0.mem ∧ (s.endCopy c x).full = s0.full) ∧
    ((staged x.regs 6).getLsbD 63 = false → s0.pairOut x.sid x.cw = false → s0.pairHeld x.sid x.sn = false →
      (s0.follow x.sid x.cw).addr (bits (staged x.regs 6) 0 40) = .phys key →
      (s.endCopy c x).mem = (s0.fillWord key x.word).mem ∧ (s.endCopy c x).full = (s0.fillWord key x.word).full)

/-- R136: how the bytes of a step of a copy are written. Each is written in the step or kept by the command, and so are those kept
before; a write touches a word that the command covers by its runs whole or not at all, so that such a word is written in one step. -/
def Sys2Proof.Claims.CopyWords : Prop :=
  ∀ (x : CopyCmd) (base len a : Nat) (out : List Byte) (ws : List (Nat × List Byte)) (part : List (Nat × Byte)),
    x.split base len a out = (ws, part) →
    (∀ j v, out[j]? = some v → (a + j, v) ∈ part ∨ ∃ p l, (p, l) ∈ ws ∧ p ≤ a + j ∧ l[a + j - p]? = some v) ∧
    (∀ y, y ∈ x.part → y.1 < a ∨ a + out.length ≤ y.1 → y ∈ part ∨ ∃ p l, (p, l) ∈ ws ∧ p ≤ y.1 ∧ y.1 < p + l.length) ∧
    (∀ p l w, (p, l) ∈ ws → x.covers base len w = true →
      (∀ j, j < 8 → p ≤ 8 * w + j ∧ 8 * w + j < p + l.length) ∨ ∀ j, j < 8 → ¬ (p ≤ 8 * w + j ∧ 8 * w + j < p + l.length)) ∧
    ∀ w, x.covers base len w = true ↔ ∀ j, j < 8 → ∃ i, i < x.total ∧
      base + (cpOffsets x.regs i).2.toNat ≤ 8 * w + j ∧ 8 * w + j < base + (cpOffsets x.regs i).2.toNat + len

/-- R126, R175: a copy that converts gives each element of its source as `cvt` does, to the nearest with saturation; an element of a
scaled bank is multiplied by its scale first and the exact product converted once. -/
def Sys2Proof.Claims.CopyConversion : Prop :=
  (∀ (s : State) (x : CopyCmd) (a e : Ty) (r : Region) (o : Nat) (l : List Nat),
    (x.src.fmtBank (staged x.regs 1).toNat = none ∨ (a ≠ .e4m3 ∧ a ≠ .e5m2)) →
      s.cvtRun x a e r o l = .ok ((l.map fun b => bytesOfNat (e.width / 8) (cvt a e .rne true b).1).flatten)) ∧
  (∀ (s : State) (x : CopyCmd) (a e : Ty) (r : Region) (o : Nat) (l : List Nat),
    (x.src.fmtBank (staged x.regs 1).toNat).isSome → (a = .e4m3 ∨ a = .e5m2) →
      (∀ j, j < l.length → s.poisoned (scaleKey r (o + j) x.srcSl) 4 = false) →
      s.cvtRun x a e r o l = .ok ((l.zipIdx.map fun b => bytesOfNat (e.width / 8)
        (cvtElem a e (some (BitVec.ofNat 32 (s.readNat (scaleKey r (o + b.2) x.srcSl) 4))) b.1)).flatten)) ∧
  ∀ (r : Region) (o : Nat) (sl : Bool),
    scaleKey r o sl = scratchKey r.unit ((r.base + o) % 2 ^ 18 / 0x8000 * 0x8000 + 0x7C00 +
      4 * (if sl then (if (r.base + o) % 0x8000 < 16384 then 0 else 1) else (r.base + o) % 0x8000 / 128))

/-- R174, R314, R318: the bytes of a run in a scratchpad. Reading them changes nothing and gives the bytes as they stand; writing them
leaves every other byte and every full/empty bit as it was. A sealed core's bytes end a read, and are discarded by a write, which counts
on its die. -/
def Sys2Proof.Claims.ScratchpadRuns : Prop :=
  ∀ (s : State) (d : Nat) (r : Region) (o n : Nat) (b : List Byte), s.memWf → r.space = 1 ∨ r.space = 5 → b.length = n →
    r.base + o + n ≤ 2 ^ 18 → r.unit < 2 ^ 16 →
    ((s.core r.unit).sealed = false →
      (s.poisoned (scratchKey r.unit (r.base + o)) n = false →
        s.readSpan d r o n = .ok ((List.range n).map fun j => Memory.read s.mem (scratchKey r.unit (r.base + o) + j), s)) ∧
      ∃ s', s.engWrite d r o b = .ok (s', none) ∧ s'.memWf ∧ s' = { s with mem := s'.mem, poison := s'.poison } ∧
        ∀ a, Memory.read s'.mem a = if scratchKey r.unit (r.base + o) ≤ a ∧ a < scratchKey r.unit (r.base + o) + n then
          (b[a - scratchKey r.unit (r.base + o)]?).getD 0 else Memory.read s.mem a) ∧
    ((s.core r.unit).sealed = true → 0 < n →
      s.readSpan d r o n = .error (.peer r.unit) ∧
      s.engWrite d r o b = .ok (s.countErr (dieOf r.unit) 11, some r.unit))

/-- A channel takes, starts, moves and ends a copy, and writes its completion word; elements are converted. The readings of log
entries 5, 28, 29 and 57 are the model's own. -/
def Obligations.CopyChannels : Prop :=
  Claims.CopyChannels ∧ Claims.CopyWords ∧ Claims.CopyConversion ∧ Claims.ScratchpadRuns

/-- R121, R306, R307, R309: a global access of the core path that does not translate makes no trap: the strand's operations stay, the
fault is known under a fresh token, and the record COREFAULT takes a place of the die, once one is free. The oldest record leaves for
the ring of the tenant of its address space, or the system's, while the ring has room, and a record that waits takes its place. A wake
message makes a strand that parked on a word RUN. The readings of log entries 18, 43 and 46 are the model's own. -/
def Obligations.FaultsAndWakes : Prop :=
  (∀ (s : State) (t : Strand) (o : CoreOp) (rest : List CoreOp) (asid : BitVec 12) (va c : Nat),
    s.strand? s.ua = some t → t.pair = false → t.ops = o :: rest → t.opFault = none →
    (o.kind.span? t.asid).bind (fun x => (s.spanFault (dieOf o.core) x o.kind.need).map fun f => (x.1, f)) = some (asid, va, c) →
    ((s.die (dieOf o.core)).frecs.length < 64 →
      s.stalls.length + 2 < 2 ^ 32 →
      ∃ s' tok, exec .coreTranslationFault s = .next s' ∧ 0 < tok ∧ tok < 2 ^ 32 ∧ Tab.get? s.stalls tok = none ∧
        s'.strand? s.ua = some { t with opFault := some {
          va, acc := accField o.kind.need, cause := c, pc := o.pc, tok } } ∧
        (s'.die (dieOf o.core)).frecs = (s.die (dieOf o.core)).frecs ++ [{
          tenant := if asid = 0 then none else some (s.asidTenant asid).toNat
          d0 := BitVec.ofNat 64 (va % 2 ^ 56)
          d1 := faultD1 (s.asidGen asid) asid (s.asidTenant asid) 15 (accField o.kind.need) c 1
          d2 := BitVec.ofNat 64 (tok * 2 ^ 32) ||| t.selfWord
          d3 := o.pc }] ∧
        Tab.get? s'.stalls tok = some (.core s.ua) ∧ s'.mem = s.mem ∧ s'.full = s.full ∧
        ∀ j, j ≠ s.ua → s'.strand? j = s.strand? j) ∧
    (64 ≤ (s.die (dieOf o.core)).frecs.length → exec .coreTranslationFault s = .next s)) ∧
  (∀ (s : State) (r : FaultRec) (rest : List FaultRec), (s.die s.ua).frecs = r :: rest →
    ∀ s1, s1 = s.modDie s.ua (fun x => { x with frecs := rest ++ x.frecWait.take 1, frecWait := x.frecWait.drop 1 }) →
      (s.desc? r.tenant = none → exec .faultRecordWrite s = .next s1) ∧
      ∀ d, s.desc? r.tenant = some d →
        (s.descValid d s.ua = false → exec .faultRecordWrite s = .next s1) ∧
        (s.descValid d s.ua = true → (s.ringAt (d + 0x70) s.ua).isFull = true → exec .faultRecordWrite s = .next s) ∧
        (s.descValid d s.ua = true → (s.ringAt (d + 0x70) s.ua).isFull = false →
          exec .faultRecordWrite s = .next (s1.produce d 0x70 32 r.bytes s.ua))) ∧
  ∀ (s : State) (t : Strand), s.strand? s.ua = some t →
    (t.wakeMsg = true → (∃ k b, t.st = .parked (.word k b) ∨ t.st = .parked (.own k b)) → t.place?.isSome →
      ∃ s', exec .wakeMessage s = .next s' ∧ s'.strand? s.ua = some { t with wakeMsg := false, st := .run, ready := s.cycle + 1 } ∧
        s'.mem = s.mem) ∧
    (t.wakeMsg = true → (∃ k b, t.st = .parked (.word k b) ∨ t.st = .parked (.own k b)) → t.place? = none → t.loc ≠ .gone →
      ∃ s', exec .wakeMessage s = .next s' ∧ s'.strand? s.ua = some { t with wakeMsg := false, wake := true } ∧ s'.mem = s.mem) ∧
    (t.wakeMsg = true → (∀ k b, t.st ≠ .parked (.word k b) ∧ t.st ≠ .parked (.own k b)) →
      exec .wakeMessage s = .next (s.setStrand s.ua { t with wakeMsg := false })) ∧
    (t.wakeMsg = false → exec .wakeMessage s = .next s)

/-! ## The matrix array -/

/-- R188, R194: `oclaim` claims the lowest free run of units for the group, zero and with scales 1.0, and gives its first unit, or
all ones where there is none; `orel` releases a slot of the group that no command names and gives 1, waits while one does, and gives 0
for any other number. -/
def Sys2Proof.Claims.OperandSlots : Prop :=
  (∀ a d u s2, (Instr.oclaim a d).runs (fun _ s1 t v => s1.claimUnits t.core t.group (v a).toNat = some (u, s2))
    (fun s _ t _ => s2.finish s.cur t d (BitVec.ofNat 64 u))) ∧
  (∀ a d, (Instr.oclaim a d).runs (fun _ s1 t v => s1.claimUnits t.core t.group (v a).toNat = none)
    (fun s s1 t _ => s1.finish s.cur t d (BitVec.allOnes 64))) ∧
  (∀ a d, (Instr.orel a d).runs (fun _ s1 t v => (s1.core t.core).slotOf t.group (bits (v a) 0 8) = none)
    (fun s s1 t _ => s1.finish s.cur t d 0)) ∧
  (∀ a d, (Instr.orel a d).runs (fun _ s1 t v => ((s1.core t.core).slotOf t.group (bits (v a) 0 8)).isSome ∧
      (s1.core t.core).slotBusy (bits (v a) 0 8) = true)
    (fun s _ _ _ => s)) ∧
  (∀ a d, (Instr.orel a d).runs (fun _ s1 t v => ((s1.core t.core).slotOf t.group (bits (v a) 0 8)).isSome ∧
      (s1.core t.core).slotBusy (bits (v a) 0 8) = false)
    (fun s s1 t v => (s1.modCore t.core fun k => { k with opslots := Tab.erase k.opslots (bits (v a) 0 8) }).finish s.cur t d 1)) ∧
  ∀ (s : State) (c g n : Nat),
    (n < 1 ∨ 128 < n → s.claimUnits c g n = none) ∧
    (s.claimUnits c g n = none → 1 ≤ n → n ≤ 128 → ∀ u, u + n ≤ 128 → ∃ j, j < n ∧ (s.core c).unitUsed (u + j) = true) ∧
    ∀ u s2, s.memWf → s.claimUnits c g n = some (u, s2) →
      u + n ≤ 128 ∧ (∀ j, j < n → (s.core c).unitUsed (u + j) = false) ∧
      (∀ u', u' < u → ∃ j, j < n ∧ (s.core c).unitUsed (u' + j) = true) ∧
      Tab.get? (s2.core c).opslots u = some { units := n, group := g, scales := Vector.replicate 32 0x3F800000 } ∧
      (∀ m, m ≠ u → Tab.get? (s2.core c).opslots m = Tab.get? (s.core c).opslots m) ∧
      ∀ a, Memory.read s2.mem a =
        if operandKey c (2048 * u) ≤ a ∧ a < operandKey c (2048 * u) + 2048 * n then 0 else Memory.read s.mem a

/-- R191, R195, R196, R198, R200: `mm`, `mmg`, `mclr`, `mchk` and `mdrain` whose checks pass take a place of the array's queue
with what they use, count on MX, and the strand goes on; g(B) of `mchk` and `mdrain` waits. A refused form raises the trap of its
check; a full queue, or for `mdrain` an earlier command of its accumulator, holds issue. -/
def Sys2Proof.Claims.MatrixIssue : Prop :=
  (∀ i a b n w grouped, (i, grouped) ∈ [(Instr.mm a b n w, false), (.mmg a b n w, true)] →
    i.runs (fun _ s1 t v => (s1.core t.core).mmCheck t.group (bits (staged t.mx 0) 0 4) n.toNat grouped (v a) (v b) = none ∧
        (s1.core t.core).mxq.length < 8)
      (fun s s1 t v => (s1.fresh.2.modCore t.core fun k => { k with mxq := k.mxq ++ [{
          sn := s1.serial, sid := s.cur, group := t.group, pc := t.pc, after := t.gate (w = 1)
          kind := (s1.core t.core).mmKind t.group t.mx n.toNat grouped (v a) (v b) }] }).setStrand s.cur
        ((t.countOn s1.serial [.mx]).named s1.serial).advance) ∧
    (∀ code, i.runs
      (fun _ s1 t v => (s1.core t.core).mmCheck t.group (bits (staged t.mx 0) 0 4) n.toNat grouped (v a) (v b) = some code)
      (fun s _ t _ => s.trap s.cur t .engine (BitVec.ofNat 64 (0x100 + code))))) ∧
  (∀ n w p, (Instr.mclr n w).runs (fun _ s1 t _ => (s1.core t.core).accOf t.group n.toNat = some p ∧ (s1.core t.core).mxq.length < 8)
    (fun s s1 t _ => (s1.fresh.2.modCore t.core fun k => { k with mxq := k.mxq ++ [{
        sn := s1.serial, sid := s.cur, group := t.group, pc := t.pc, after := t.gate (w = 1), kind := .clr p }] }).setStrand s.cur
      ((t.countOn s1.serial [.mx]).named s1.serial).advance)) ∧
  (∀ b w, (Instr.mchk b w).runs (fun _ s1 t _ => (s1.core t.core).mxq.length < 8)
    (fun s s1 t _ => ((s1.lateDest t b).1.fresh.2.modCore t.core fun k => { k with mxq := k.mxq ++ [{
        sn := (s1.lateDest t b).1.serial, sid := s.cur, group := t.group, pc := t.pc, after := t.gate (w = 1), kind := .chk
        dest := (s1.lateDest t b).2.2 }] }).setStrand s.cur
      (((s1.lateDest t b).2.1.countOn (s1.lateDest t b).1.serial [.mx]).named (s1.lateDest t b).1.serial).advance)) ∧
  (∀ b n w p f sl df, (Instr.mdrain b n w).runs
    (fun _ s1 t _ => (s1.core t.core).accOf t.group n.toNat = some p ∧
      (∀ x ∈ (s1.core t.core).mxq, x.kind.acc? ≠ some p) ∧
      s1.endFmt (t.regionAt (bits (staged t.mx 5) 0 5)) (bits (staged t.mx 6) 0 40) = (f, sl) ∧
      s1.drainCheck t f sl p n.toNat = none ∧ drainFmt f = some df ∧ (s1.core t.core).mxq.length < 8)
    (fun s s1 t _ => ((s1.lateDest t b).1.fresh.2.modCore t.core fun k => { k with mxq := k.mxq ++ [{
        sn := (s1.lateDest t b).1.serial, sid := s.cur, group := t.group, pc := t.pc, after := t.gate (w = 1)
        kind := .drain p df sl t.mx (t.regionAt (bits (staged t.mx 5) 0 5)) (t.regionAt (bits (staged t.mx 9) 0 5))
        dest := (s1.lateDest t b).2.2 }] }).setStrand s.cur
      (((s1.lateDest t b).2.1.countOn (s1.lateDest t b).1.serial [.mx]).named (s1.lateDest t b).1.serial).advance)) ∧
  (∀ b n w p c x, (Instr.mdrain b n w).runs
    (fun _ s1 t _ => (s1.core t.core).accOf t.group n.toNat = some p ∧
      (∀ x ∈ (s1.core t.core).mxq, x.kind.acc? ≠ some p) ∧
      s1.drainCheck t (s1.endFmt (t.regionAt (bits (staged t.mx 5) 0 5)) (bits (staged t.mx 6) 0 40)).1
        (s1.endFmt (t.regionAt (bits (staged t.mx 5) 0 5)) (bits (staged t.mx 6) 0 40)).2 p n.toNat = some (c, x))
    (fun s _ t _ => s.trap s.cur t c x)) ∧
  (∀ b n w p, (Instr.mdrain b n w).runs
    (fun _ s1 t _ => (s1.core t.core).accOf t.group n.toNat = some p ∧ ∃ x ∈ (s1.core t.core).mxq, x.kind.acc? = some p)
    (fun s _ _ _ => s)) ∧
  (∀ i n, (∃ w, i = Instr.mclr n w ∨ ∃ b, i = .mdrain b n w) →
    i.runs (fun _ s1 t _ => (s1.core t.core).accOf t.group n.toNat = none) (fun s _ t _ => s.trap s.cur t .engine 0x104)) ∧
  (∀ i, (∃ b w, i = Instr.mchk b w) → i.runs (fun _ s1 t _ => 8 ≤ (s1.core t.core).mxq.length) (fun s _ _ _ => s)) ∧
  (∀ n w p, (Instr.mclr n w).runs (fun _ s1 t _ => (s1.core t.core).accOf t.group n.toNat = some p ∧ 8 ≤ (s1.core t.core).mxq.length)
    (fun s _ _ _ => s)) ∧
  (∀ b n w p, (Instr.mdrain b n w).runs
    (fun _ s1 t _ => (s1.core t.core).accOf t.group n.toNat = some p ∧ 8 ≤ (s1.core t.core).mxq.length ∧
      (∀ x ∈ (s1.core t.core).mxq, x.kind.acc? ≠ some p) ∧
      s1.drainCheck t (s1.endFmt (t.regionAt (bits (staged t.mx 5) 0 5)) (bits (staged t.mx 6) 0 40)).1
        (s1.endFmt (t.regionAt (bits (staged t.mx 5) 0 5)) (bits (staged t.mx 6) 0 40)).2 p n.toNat = none)
    (fun s _ _ _ => s)) ∧
  ∀ i a b n grouped, (∃ w, (i, grouped) ∈ [(Instr.mm a b n w, false), (.mmg a b n w, true)]) →
    i.runs (fun _ s1 t v => 8 ≤ (s1.core t.core).mxq.length ∧
        (s1.core t.core).mmCheck t.group (bits (staged t.mx 0) 0 4) n.toNat grouped (v a) (v b) = none)
      (fun s _ _ _ => s)

/-- Oclaim and orel act at once; mm, mmg, mclr, mchk and mdrain take a place of the queue or raise their trap. The readings of log
entries 30 and 76 are the model's own. -/
def Obligations.MatrixInstructions : Prop :=
  Claims.OperandSlots ∧ Claims.MatrixIssue

/-- R53, R54, R190 to R192, R195, R196, R199 to R201: when the array is free it takes a command that may begin and performs it. `mm`
adds its block to each element that is not masked and no other, and seals the core where an operand is poisoned; `mclr` clears, `mchk`
takes the error word and clears its counts. A command that ends stops counting, `mchk` gives its word, and a drain its status. A drain
waits for its accumulator, after a page fault goes on with its rows, and a merge drain waits until the merge word holds its position;
each waits for a link to what it reaches. -/
def Sys2Proof.Claims.MatrixPerforms : Prop :=
  (∀ (s : State) (c : Nat) (x : MxCmd), c = s.ua → (s.core c).mxq[s.ub]? = some x → s.mxReady (s.core c) x = true →
    (∀ y ∈ (s.core c).mxq, y.begun = true → y.waiting = true) →
    ((∃ y ∈ (s.core c).mxq, y.begun = true ∧ y.kind.acc? = x.kind.acc?) → x.kind.acc?.isSome → exec .matrixCommandBegin s = .next s) ∧
    ((∀ y ∈ (s.core c).mxq, y.begun = true → x.kind.acc? = none ∨ y.kind.acc? ≠ x.kind.acc?) →
      (∀ p fmt n m a sa bs, x.kind = .mm p fmt n m a sa bs →
        (s.mmPoisoned c fmt n m a bs = false → exec .matrixCommandBegin s =
          .next ((s.runMm c p fmt n m a sa bs).modMx c x.sn fun y => { y with
            begun := true, steps := (s.mmCompares c fmt n m a bs).1, sums := (s.mmCompares c fmt n m a bs).2 })) ∧
        (s.mmPoisoned c fmt n m a bs = true → exec .matrixCommandBegin s = .next (s.seal c))) ∧
      (∀ p, x.kind = .clr p → ∃ s', exec .matrixCommandBegin s = .next s' ∧
        (∀ i j, (vget (s'.core c).accs p {}).get i j = 0) ∧ (p < 2 → (vget (s'.core c).accs p {}).err = false) ∧
        ∀ q, q ≠ p → vget (s'.core c).accs q {} = vget (s.core c).accs q {}) ∧
      (x.kind = .chk → (∀ y ∈ (s.core c).mxq, y.begun = false) → ∃ s', exec .matrixCommandBegin s = .next s' ∧
        (s'.core c).errCnt = 0 ∧ (s'.core c).errScl = false ∧
        (∀ y ∈ (s'.core c).mxq, y.sn = x.sn → y.begun = true ∧ y.val = (s.core c).errWord)) ∧
      (∀ p df sl regs dst bias, x.kind = .drain p df sl regs dst bias →
        ((staged regs 0x0B).getLsbD 4 = true → exec .matrixCommandBegin s =
          .next (s.modMx c x.sn fun y => { y with begun := true, waiting := true })) ∧
        ((staged regs 0x0B).getLsbD 4 = false → s.askRead x.sid x.sn (s.drainReads x) = none →
          exec .matrixCommandBegin s = .next (s.runDrain c { x with turn := true })) ∧
        ∀ s', (staged regs 0x0B).getLsbD 4 = false → s.askRead x.sid x.sn (s.drainReads x) = some s' →
          exec .matrixCommandBegin s = .next s'))) ∧
  (∀ (s : State) (c p fmt n : Nat) (m : BitVec 32) (a : Nat) (sa : Vector (BitVec 32) 32) (bs : List (Nat × BitVec 32)) (i j : Nat),
    p < 2 → i < 32 → j < 128 →
    (vget ((s.runMm c p fmt n m a sa bs).core c).accs p {}).get i j =
      match bs[i / 8]? with
      | some (b, sb) =>
        if m.getLsbD i = true ∧ b ≠ 0xFF ∧ j < n then
          blockAdd fmt ((vget (s.core c).accs p {}).get i j)
            ((List.range 128).map fun k => s.tileElem (operandKey c (2048 * a)) (tileWidth fmt) (128 * i + k))
            ((List.range 128).map fun k => s.tileElem (operandKey c (2048 * b)) (tileWidth fmt) (128 * k + j)) (vget sa i 0) sb
        else (vget (s.core c).accs p {}).get i j
      | none => (vget (s.core c).accs p {}).get i j) ∧
  (∀ (s : State) (c : Nat) (x : MxCmd), c = s.ua →
    ((s.core c).mxq.find? fun y => y.begun && !y.waiting && !y.kind.isWalk && !s.pairHeld y.sid y.sn) = some x →
    ((∃ p fmt n m a sa bs, x.kind = .mm p fmt n m a sa bs) ∨ (∃ p, x.kind = .clr p) →
      exec .matrixCommandComplete s = .next ((s.modCore c fun k => { k with mxq := k.mxq.filter fun y => !(y.sn == x.sn) }).uncount
        x.sid x.sn)) ∧
    (x.kind = .chk → exec .matrixCommandComplete s =
      .next (((s.modCore c fun k => { k with mxq := k.mxq.filter fun y => !(y.sn == x.sn) }).deliver x.sid x.dest x.val).uncount
        x.sid x.sn)) ∧
    (∀ p df sl regs dst bias t, x.kind = .drain p df sl regs dst bias → s.strand? x.sid = some t → t.st ≠ .ended →
      exec .matrixCommandComplete s = .next ((s.modCore c fun k => { k with
        mxq := k.mxq.filter fun y => !(y.sn == x.sn) }).setStrand x.sid { t with rets := t.rets ++ [{
          kind := .drain, sn := x.sn, dests := [(x.dest, BitVec.ofNat 64 ((if x.cause ≠ 0 then 2 ^ 63 + x.cause * 2 ^ 56 else 0)
            + (if (vget (s.core c).accs p {}).err = true then 2 ^ 62 else 0)
            + x.bytes % 2 ^ 48))] }] }))) ∧
  (∀ (s : State) (c : Nat) (x : MxCmd), c = s.ua → (s.core c).mxq[s.ub]? = some x → x.begun = true → x.waiting = true →
    (s.core c).arrayFree = true →
    (x.turn = true → x.tok = 0 → s.askRead x.sid x.sn (s.drainReads x) = none → exec .drainResume s = .next (s.runDrain c x)) ∧
    (x.tok ≠ 0 → exec .drainResume s = .next s) ∧
    ∀ p df sl regs dst bias b s1, x.kind = .drain p df sl regs dst bias → x.turn = false →
      s.askRead x.sid x.sn (s.drainReads x) = none →
      s.runUp (dieOf c) (s.follow x.sid dst) (bits (staged regs 0x0D) 0 40) accR = true →
      s.readSpan (dieOf c) (s.follow x.sid dst) (bits (staged regs 0x0D) 0 40) 8 = .ok (b, s1) →
      (natOfBytes b = bits (staged regs 0x0C) 0 16 → exec .mergeDrainTurn s = .next (s1.runDrain c { x with turn := true })) ∧
      (natOfBytes b < bits (staged regs 0x0C) 0 16 → exec .mergeDrainTurn s = .next s)) ∧
  (∀ (s : State) (sid sn : Nat) (l : List (Region × Nat × Nat)), s.askRead sid sn l = none ↔ ∀ y ∈ l, s.pairOut sid y.1 = false) ∧
  (∀ (s : State) (c p : Nat) (x : MxCmd) (regs : Vector Word 32) (dst bias : Region) (sl : Bool) (i : Nat) (l : List Nat),
    x.kind = .drain p 11 sl regs dst bias → (drainRegs regs 4).rows = i :: l → x.row ≤ i →
    s.drainUp c x.sid 11 (drainRegs regs 4) dst bias (some i) = false →
    s.runDrain c x = s.modMx c x.sn fun _ => { x with begun := true, waiting := true, turn := true, tok := 0 }) ∧
  ∀ (s s1 : State) (c p : Nat) (x : MxCmd) (regs : Vector Word 32) (dst bias : Region) (sl : Bool) (i n : Nat),
    x.kind = .drain p 11 sl regs dst bias → (drainRegs regs 4).rows = [i] → x.row ≤ i → staged regs 0x0B = 0 →
    n = bits (staged regs 1) 0 7 + 1 → s.drainUp c x.sid 11 (drainRegs regs 4) dst bias (some i) = true →
    s.engPut x.sid x.sn (dieOf c) (s.follow x.sid dst) (bits (staged regs 6) 0 40 + i * (drainRegs regs 4).stride)
      (((List.range n).map fun j => bytesOfNat 4 ((vget (s.core c).accs p {}).get i j).toNat).flatten)
      = .ok (s1, none) →
    s.runDrain c x = s1.modMx c x.sn fun y => { x with
      begun := true, waiting := false, turn := true, row := 32, bytes := x.bytes + 4 * n, tok := y.tok }

/-- R52, R58, R126, R198, R199, R201: a drained row. Each element has its bias added and passes its activation, and a merge drain adds
it to what stands at its place; it is converted to the destination's format: f32 as it stands, e4m3 under the row's scale, the
smallest power of two that brings the row in range, the others to the nearest with saturation. An e4m3 or e5m2 row writes its scale.
After the last row of a merge drain the merge word goes on, and the last contribution fills it. -/
def Sys2Proof.Claims.DrainedRows : Prop :=
  (∀ (s s1 s2 s3 : State) (c sid sn : Nat) (acc : Accum) (df : Nat) (r : DrainRegs) (dst bias : Region) (i : Nat)
    (bs olds ys : List (BitVec 32)) (dst' : Region), dst' = s.follow sid dst →
    (if r.bias then s.readF32s (dieOf c) (s.follow sid bias) r.bo r.n = .ok (bs, s1) else bs = [] ∧ s1 = s) →
    (if r.merge = true ∧ r.p ≠ 0 then s1.readF32s (dieOf c) dst' (r.off + i * r.stride) r.n = .ok (olds, s2) else olds = [] ∧ s2 = s1) →
    ys = ((List.range r.n).map fun n =>
      let y := activate r.act (if r.bias then addF32 (acc.get i n) ((bs[n]?).getD 0) else acc.get i n)
      if r.merge = true ∧ r.p ≠ 0 then addF32 ((olds[n]?).getD 0) y else y) →
    s2.engPut sid sn (dieOf c) dst' (r.off + i * r.stride) (((drainRow df ys).1.map fun e => bytesOfNat (fmtWidth df) e).flatten)
      = .ok (s3, none) →
    (df ≠ 8 → df ≠ 9 → s.drainOne c sid sn acc df r dst bias i = .ok s3 (r.n * fmtWidth df) false) ∧
    ∀ s4, df = 8 ∨ df = 9 →
      s3.engPut sid sn (dieOf c) dst' (drainScaleOff dst' r (r.off + i * r.stride) i) (bytesOfNat 4 (drainRow df ys).2.toNat)
        = .ok (s4, none) →
      s.drainOne c sid sn acc df r dst bias i = .ok s4 (r.n * fmtWidth df) false) ∧
  (∀ ys : List (BitVec 32), drainRow 11 ys = (ys.map fun v => v.toNat, 0x3F800000) ∧
    drainRow 8 ys = (ys.map fun v => rowElem (rowExp ys) v, BitVec.ofNat 32 ((rowExp ys + 127).toNat * 2 ^ 23)) ∧
    ∀ df y, (df, y) ∈ [(0, Ty.s8), (1, .s16), (2, .s32), (9, .e5m2), (10, .bf16)] →
      drainRow df ys = (ys.map fun v => (cvt .f32 y .rne true v.toNat).1, 0x3F800000)) ∧
  (∀ ys : List (BitVec 32), -126 ≤ rowExp ys ∧ rowExp ys ≤ 127 ∧
    ((∀ y ∈ ys, ∀ neg m e, FFmt.f32.value y.toNat = .fin neg m e → m = 0) → rowExp ys = 0) ∧
    (rowExp ys < 127 → ∀ y ∈ ys, ∀ neg m e, FFmt.f32.value y.toNat = .fin neg m e → m ≠ 0 → underScale m e (rowExp ys) = true) ∧
    ∀ c, -126 ≤ c → c < rowExp ys → (∃ y ∈ ys, ∃ neg m e, FFmt.f32.value y.toNat = .fin neg m e ∧ m ≠ 0) →
      ∃ y ∈ ys, ∃ neg m e, FFmt.f32.value y.toNat = .fin neg m e ∧ underScale m e c = false) ∧
  ∀ (s : State) (c sid sn : Nat) (r : DrainRegs) (dst : Region), s.pairOut sid dst = false → s.pairHeld sid sn = false →
    (∀ key, (s.follow sid dst).addr r.mw = .phys key →
      (r.p + 1 < r.m → s.mergeWord c sid sn r dst = s.storeAt key (wordBytes (BitVec.ofNat 64 (r.p + 1)))) ∧
      (r.m ≤ r.p + 1 → s.mergeWord c sid sn r dst = (s.dropReads sid sn).fillWord key (BitVec.ofNat 64 r.m))) ∧
    ∀ asid va s1, (s.follow sid dst).addr r.mw = .virt asid va → r.p + 1 < r.m →
      s.writeVirt (dieOf c) asid va (wordBytes (BitVec.ofNat 64 (r.p + 1))) = .ok s1 → s.mergeWord c sid sn r dst = s1

/-- R197, R198, R200, R206, R324: a mismatch in what the array compares counts, up to 255, at the array and at the die, and in an `mm`
sets ERR of its accumulator; elsewhere there is nothing to compare. An `mm` that performs a row compares its steps, and its checksums
where a row of s8 or e4m3 has no NaN; a walk's pass compares too. A drain of an accumulator with ERR raises CHECKSUM, with the count
and the accumulator, unless NOTRAP is set. -/
def Sys2Proof.Claims.MatrixChecks : Prop :=
  (∀ (s : State) (c p : Nat) (scl : Bool),
    ((s.core c).compares p scl = false → s.mismatch c p scl = s) ∧
    ((s.core c).compares p scl = true →
      (p < 2 → (vget ((s.mismatch c p scl).core c).accs p {}).err = true) ∧
      (2 ≤ p → ((s.mismatch c p scl).core c).accs = (s.core c).accs) ∧
      (vget ((s.mismatch c p scl).core c).accs p {}).el = (vget (s.core c).accs p {}).el ∧
      ((s.mismatch c p scl).core c).errCnt.toNat = min 255 ((s.core c).errCnt.toNat + 1) ∧
      ((s.mismatch c p scl).core c).errScl = ((s.core c).errScl || scl) ∧
      (∃ k, s.mismatch c p scl = (s.setCore c k).countErr (dieOf c) 8))) ∧
  (∀ (k : Core) (p : Nat) (scl : Bool), p < 2 → (k.compares p scl = true ↔ ∃ x ∈ k.mxq, x.begun = true ∧
      (∃ fmt n m a sa bs, x.kind = .mm p fmt n m a sa bs) ∧ (if scl = true then x.steps else x.sums) = true)) ∧
  (∀ (k : Core) (p : Nat) (scl : Bool), 2 ≤ p → (k.compares p scl = true ↔ ∃ w, k.table = some w ∧
      (if scl = true then w.steps else w.sums) = true)) ∧
  (∀ (s : State) (c fmt n : Nat) (m : BitVec 32) (a : Nat) (bs : List (Nat × BitVec 32)),
    ((s.mmCompares c fmt n m a bs).1 = true ↔ ∃ i b sb, i < 32 ∧ bs[i / 8]? = some (b, sb) ∧ m.getLsbD i = true ∧ b ≠ 0xFF) ∧
    ((s.mmCompares c fmt n m a bs).2 = true ↔ fmt ≠ 10 ∧ ∃ i b sb, i < 32 ∧ bs[i / 8]? = some (b, sb) ∧ m.getLsbD i = true ∧ b ≠ 0xFF ∧
      (fmt = 8 → ∀ k, k < 128 → FFmt.e4m3.isNan (s.tileElem (operandKey c (2048 * a)) 1 (128 * i + k)) = false ∧
        ∀ j, j < n → FFmt.e4m3.isNan (s.tileElem (operandKey c (2048 * b)) 1 (128 * k + j)) = false))) ∧
  ∀ (s : State) (t : Strand) (f : Nat) (sl : Bool) (p n : Nat),
    (∀ v, s.drainCheck t f sl p n = some (.checksum, v) → (vget (s.core t.core).accs p {}).err = true ∧
      (staged t.mx 0x0B).getLsbD 3 = false ∧ v = BitVec.ofNat 64 ((s.core t.core).errCnt.toNat * 256 + n)) ∧
    (s.drainCheck t f sl p n = none → (vget (s.core t.core).accs p {}).err = false ∨ (staged t.mx 0x0B).getLsbD 3 = true)

/-- The array performs a command that may begin, element by element, and ends it; drained elements, merge adds and checksums. The
readings of log entries 30, 53 and 69 are the model's own. -/
def Obligations.MatrixPerforms : Prop :=
  Claims.MatrixPerforms ∧ Claims.DrainedRows ∧ Claims.MatrixChecks

/-! ## Walks -/

/-- R214, R217, R219, R220: `walk` whose checks pass takes a place of the matrix queue with what it captures and counts on MX; with a
held table of the strand it goes on with that table, or with NEW = 1 discards it first. A walk that can trap holds its strand. A check
that fails raises its trap; a full queue holds issue. `wstat` discards a held table first when g(A) asks for it, and gives the word of
the strand's latest walk on the core. The reading of log entry 30 is the model's own. -/
def Obligations.WalksIssue : Prop :=
  (∀ w df held s2, (Instr.walk w).runs
    (fun s s1 t _ => s1.heldTable t.core s.cur = held ∧ (held = none ∨ (staged t.wk 9).getLsbD 1 = true) ∧ s1.walkCheck t = none ∧
      (s1.core t.core).mxq.length < 8 ∧
      drainFmt (s1.endFmt (t.regionAt (bits (staged t.wk 6) 0 5)) (bits (staged t.wk 7) 0 40)).1 = some df ∧
      s2 = match held with
        | some h => s1.discardTable t.core h
        | none => s1)
    (fun s _ t _ => (s2.fresh.2.modCore t.core fun k => { k with mxq := k.mxq ++ [{
        sn := s2.serial, sid := s.cur, group := t.group, pc := t.pc, after := t.gate (w = 1)
        kind := .walk {
          regs := t.wk, nh := t.regionAt (bits (staged t.wk 0) 0 5), ih := t.regionAt (bits (staged t.wk 3) 0 5)
          oh := t.regionAt (bits (staged t.wk 6) 0 5), cw := t.regionAt (bits (staged t.wk 0x0D) 0 5), df } }] }).setStrand s.cur
      { ((t.countOn s2.serial [.mx]).named s2.serial).advance with
        wstat := 0
        hold := if (t.regionAt (bits (staged t.wk 0) 0 5)).space = 4 ∨ (staged t.wk 9).getLsbD 0 = true then some s2.serial
          else t.hold })) ∧
  (∀ w c x, (Instr.walk w).runs
    (fun s s1 t _ => (s1.heldTable t.core s.cur = none ∨ (staged t.wk 9).getLsbD 1 = true) ∧ s1.walkCheck t = some (c, x))
    (fun s _ t _ => s.trap s.cur t c x)) ∧
  (∀ w h, (Instr.walk w).runs (fun s s1 t _ => s1.heldTable t.core s.cur = some h ∧ (staged t.wk 9).getLsbD 1 = false)
    (fun s s1 t _ => (s1.fresh.2.modCore t.core fun k => { k with
        table := some { h with
          held := false, trap := false, cmd := { h.cmd with sn := s1.serial, pc := t.pc, after := t.gate (w = 1) } } }).setStrand s.cur
      { ((t.countOn s1.serial [.mx]).named s1.serial).advance with hold := some s1.serial })) ∧
  (∀ w, (Instr.walk w).runs
    (fun s s1 t _ => (s1.heldTable t.core s.cur = none ∨ (staged t.wk 9).getLsbD 1 = true) ∧ s1.walkCheck t = none ∧
      8 ≤ (s1.core t.core).mxq.length)
    (fun s _ _ _ => s)) ∧
  (∀ a d w, (Instr.wstat a d w).runs
    (fun s s1 t v => t.mustDefer (.wstat a d w) (w = 1) = false ∧ (s1.heldTable t.core s.cur = none ∨ (v a).getLsbD 0 = false) ∧
      ∃ u, s1.strand? s.cur = some u ∧ u.wstat = t.wstat)
    (fun s s1 t _ => s1.finish s.cur t d (s1.walkStatus s.cur t.core))) ∧
  (∀ a d w h, (Instr.wstat a d w).runs
    (fun s s1 t v => t.mustDefer (.wstat a d w) (w = 1) = false ∧ s1.heldTable t.core s.cur = some h ∧ (v a).getLsbD 0 = true ∧
      (s1.strand? s.cur).isSome)
    (fun s s1 t _ => (s1.discardTable t.core h).finish s.cur { t with wstat := h.status false false } d
      (if ∃ x ∈ (s1.core t.core).mxq, x.sid = s.cur ∧ x.kind.isWalk = true then 1 else h.status false false))) ∧
  (∀ (s : State) (sid c : Nat),
    ((∃ x ∈ (s.core c).mxq, x.sid = sid ∧ x.kind.isWalk = true) → s.walkStatus sid c = 1) ∧
    ((∀ x ∈ (s.core c).mxq, x.sid = sid → x.kind.isWalk = false) →
      (∀ h, (s.core c).table = some h → h.cmd.sid = sid → s.walkStatus sid c = h.status h.held (!h.held)) ∧
      ∀ t, (∀ h, (s.core c).table = some h → h.cmd.sid ≠ sid) → s.strand? sid = some t → s.walkStatus sid c = t.wstat)) ∧
  (∀ (s : State) (c : Nat) (h : WalkTable),
    ((s.discardTable c h).core c).table = none ∧
    ∃ s1 : State, s.discardTable c h = s1.modStrand h.cmd.sid (fun t => { t with wstat := h.status false false }) ∧
      s1.mem = (s.walkWord h.cmd (h.word 4)).mem ∧ s1.full = (s.walkWord h.cmd (h.word 4)).full) ∧
  ∀ (h : WalkTable) (held busy : Bool), h.passes < 2 ^ 16 → h.rows.length ≤ 32 →
    bits (h.status held busy) 48 16 = h.passes ∧ bits (h.status held busy) 32 8 = (h.rows.filter fun r => r.st = 3).length ∧
    bits (h.status held busy) 24 8 = (h.rows.filter fun r => r.st = 1).length ∧
    bits (h.status held busy) 16 8 = (h.rows.filter fun r => r.st = 0).length ∧
    (∀ (i : Nat) (r : WalkRow), h.rows[i]? = some r → r.st = 3 → (∀ (j : Nat) (q : WalkRow), j < i → h.rows[j]? = some q → q.st ≠ 3) →
      bits (h.status held busy) 4 4 = r.cause.toNat) ∧
    ((∀ r ∈ h.rows, r.st ≠ 3) → bits (h.status held busy) 4 4 = 0) ∧
    ((h.status held busy).getLsbD 3 = true ↔ ∃ r ∈ h.rows, r.nan = true) ∧
    (h.status held busy).getLsbD 2 = h.trap ∧ (h.status held busy).getLsbD 1 = held ∧ (h.status held busy).getLsbD 0 = busy

/-- R203, R208 to R213, R215: a walk that may begin takes the free table with its rows ACTIVE or MASKED, and claims its cache. A step
takes the rows with the smallest depth and then the smallest node: a failed check of the node puts them in FAULT, a pass at a leaf in
LEAF with their records written at once, and a choice moves them to a child; a node that is fetched stands in the cache. With TRAPROW
the first step that puts a row in FAULT holds the table and raises WALKCHILD; a node that does not translate makes the record
WALKFAULT, holds the table and raises XLATE. When no row is ACTIVE the records of the FAULT and MASKED rows, the cache slot, the
completion word and the count follow. Each waits for links to what it reaches. The reading of log entry 30 is the model's own. -/
def Obligations.WalkSteps : Prop :=
  (∀ (s : State) (c : Nat) (x : MxCmd) (w : WalkCmd), c = s.ua → (s.core c).mxq[s.ub]? = some x → x.kind = .walk w →
    ((s.core c).table.isSome → exec .walkBegin s = .next s) ∧
    (∀ s', (s.core c).table = none → s.mxReady (s.core c) x = true → s.askRead x.sid x.sn (s.walkInputs x.sid w) = some s' →
      exec .walkBegin s = .next s') ∧
    ((s.core c).table = none → s.mxReady (s.core c) x = true → s.askRead x.sid x.sn (s.walkInputs x.sid w) = none →
      ((∃ y ∈ s.walkInputs x.sid w, s.allUp (dieOf c) y.1 y.2.1 y.2.2 accR = false) → exec .walkBegin s = .next s) ∧
      ((∀ y ∈ s.walkInputs x.sid w, s.allUp (dieOf c) y.1 y.2.1 y.2.2 accR = true) →
        (bits (staged w.regs 0x0C) 0 8 ≠ 0xFF → ∀ rows s1, s.walkRows c x.sid w 0 (bits (staged w.regs 2) 0 6) = (rows, s1) →
          exec .walkBegin s = .next (s1.modCore c fun k => { k with
            mxq := k.mxq.filter fun y => !(y.sn == x.sn)
            table := some { cmd := { x with begun := true }, rows }
            ncache := if (staged w.regs 9).getLsbD 3 then k.ncache
              else k.ncache.filter fun y => !(y.1 == bits (staged w.regs 0x0C) 0 8) })) ∧
        (∀ u s1, bits (staged w.regs 0x0C) 0 8 = 0xFF → s.claimUnits c x.group 2 = some (u, s1) →
          ∃ w' t s', w' = { w with cacheClaimed := true, regs := vset w.regs 0x0C (BitVec.ofNat 64 u) } ∧
            exec .walkBegin s = .next s' ∧ (s'.core c).table = some t ∧ t.cmd = { x with kind := .walk w', begun := true } ∧
            t.rows = (s1.walkRows c x.sid w' 0 (bits (staged w.regs 2) 0 6)).1 ∧
            s'.mem = (s1.walkRows c x.sid w' 0 (bits (staged w.regs 2) 0 6)).2.mem ∧
            (s'.core c).mxq = ((s.core c).mxq.filter fun y => !(y.sn == x.sn)) ∧ (s'.core c).opslots = (s1.core c).opslots) ∧
        (bits (staged w.regs 0x0C) 0 8 = 0xFF → s.claimUnits c x.group 2 = none → ∃ s' t, exec .walkBegin s = .next s' ∧
          (s'.core c).table = some t ∧ t.cmd = { x with begun := true } ∧ (s'.core c).opslots = (s.core c).opslots)))) ∧
  (∀ (s : State) (c sid : Nat) (w : WalkCmd) (i n : Nat) (r : WalkRow) (s1 : State), s.walkRow c sid w i = (r, s1) →
    r.node = (staged w.regs 1).setWidth 32 ∧ r.depth = 0 ∧ ((staged w.regs 0x0F).getLsbD i = false → r.st = 2) ∧
    ((staged w.regs 0x0F).getLsbD i = true → r.st = 0 ∨ r.st = 3 ∧ (r.cause = 6 ∨ r.cause = 7)) ∧
    (∀ b, (walkCtl w.regs).ifmt ≠ 8 → s.readSpan (dieOf c) (s.follow sid w.ih) (bits (staged w.regs 4) 0 40 + i * walkIstr w.regs)
        (128 * tileWidth (walkCtl w.regs).ifmt) = .ok (b, s1) → r.input = b ∧ r.scale = 0x3F800000) ∧
    s.walkRows c sid w i (n + 1) = (r :: (s1.walkRows c sid w (i + 1) n).1, (s1.walkRows c sid w (i + 1) n).2)) ∧
  (∀ (rows : List WalkRow),
    (nextNode rows = none ↔ ∀ r ∈ rows, r.st ≠ 0) ∧
    ∀ d o, nextNode rows = some (d, o) → (∃ r ∈ rows, r.st = 0 ∧ r.depth = d ∧ r.node = o) ∧
      ∀ r ∈ rows, r.st = 0 → d < r.depth ∨ (d = r.depth ∧ o.toNat ≤ r.node.toNat)) ∧
  (∀ (s : State) (c : Nat) (t : WalkTable) (w : WalkCmd) (d : Nat) (o : BitVec 32), c = s.ua → (s.core c).table = some t →
    t.cmd.kind = .walk w → nextNode t.rows = some (d, o) →
    (s.walkRuns (s.core c) t = false → exec .walkPass s = .next s) ∧
    (s.walkRuns (s.core c) t = true ↔ t.held = false ∧ t.cmd.cause = 0 ∧ s.mayBegin t.cmd.sid t.cmd.after = true ∧
      ∀ y ∈ (s.core c).mxq, y.sid = t.cmd.sid → y.sn < t.cmd.sn → y.begun = true) ∧
    (∀ s', s.walkRuns (s.core c) t = true → s.askRead t.cmd.sid t.cmd.sn (s.walkFetch c t w o) = some s' → exec .walkPass s = .next s') ∧
    (s.walkRuns (s.core c) t = true → s.askRead t.cmd.sid t.cmd.sn (s.walkFetch c t w o) = none →
      (∀ e s1, s.fetchNode c t.cmd w o.toNat = .cause e s1 → (staged w.regs 9).getLsbD 0 = false →
        exec .walkPass s = .next (s1.modCore c fun k => { k with
          table := some { t with rows := t.rows.map fun r =>
            if r.st = 0 ∧ r.depth = d ∧ r.node = o then { r with st := 3, cause := BitVec.ofNat 4 e } else r } })) ∧
      (∀ e s1 u i, s.fetchNode c t.cmd w o.toNat = .cause e s1 → (staged w.regs 9).getLsbD 0 = true →
        s.strand? t.cmd.sid = some u → u.st ≠ .ended → u.th = false → u.tvec ≠ 0 →
        (∃ r, t.rows[i]? = some r ∧ r.st = 0 ∧ r.depth = d ∧ r.node = o) →
        (∀ j r, j < i → t.rows[j]? = some r → ¬(r.st = 0 ∧ r.depth = d ∧ r.node = o)) →
        exec .walkPass s = .next (s1.walkStop c { t with rows := t.rows.map fun r =>
            if r.st = 0 ∧ r.depth = d ∧ r.node = o then { r with st := 3, cause := BitVec.ofNat 4 e } else r } .walkchild
          (BitVec.ofNat 64 (o.toNat * 2 ^ 32 + e % 16 * 2 ^ 8 + i)))) ∧
      (∀ cause va u tok s1, s.fetchNode c t.cmd w o.toNat = .xlate cause va →
        s.strand? t.cmd.sid = some u → u.st ≠ .ended → u.th = false → u.tvec ≠ 0 →
        s.engFault c t.cmd.sid 2 5 va accR cause t.cmd.pc (.walk t.cmd.sid) = some (tok, s1) →
        ∃ s', exec .walkPass s = .next s' ∧ s'.strands = (s1.walkStop c t .xlate (BitVec.ofNat 64 va)).strands ∧
          s'.cores = (s1.walkStop c t .xlate (BitVec.ofNat 64 va)).cores ∧ s'.mem = (s1.walkStop c t .xlate (BitVec.ofNat 64 va)).mem ∧
          t.cmd.sid ∈ s'.barHolds) ∧
      (∀ cause va, s.fetchNode c t.cmd w o.toNat = .xlate cause va →
        64 ≤ (s.die (dieOf c)).frecs.length → (s.strand? t.cmd.sid).isSome → exec .walkPass s = .next s) ∧
      (s.fetchNode c t.cmd w o.toNat = .wait → exec .walkPass s = .next s) ∧
      ∀ n m s1, s.fetchNode c t.cmd w o.toNat = .ok n m s1 →
        ((s.core c).arrayFree = false → exec .walkPass s = .next s) ∧
        ∀ (here bad : WalkRow → Bool) (rows : List WalkRow) (l : List Nat) (t' : WalkTable) (s2 : State) (hit : Bool),
          here = (fun r => decide (r.st = 0 ∧ r.depth = d ∧ r.node = o)) →
          bad = (fun r => decide (n.feedY = true ∧ (r.depth = 0 ∨ r.y.length ≠ n.k))) →
          rows = (t.rows.map fun r =>
            if here r = false then r
            else if bad r = true then { r with st := 3, cause := 4 }
            else if n.leaf = true then { r with y := r.result n m.mat m.scale, st := 1, leafid := n.leafid }
            else r.choose n m.hdr (walkCtl w.regs).dlim (r.result n m.mat m.scale)) →
          l = ((List.range rows.length).filter fun i =>
            (t.rows[i]?).any (fun r => decide (r.st = 0)) && (rows[i]?).any fun r => decide (r.st = 1)) →
          s1.walkRecords c t.cmd w rows l = (s2, hit) →
          t' = { t with
            rows, err := t.err || hit
            passes := if t.rows.any (fun r => here r && !bad r) then t.passes + 1 else t.passes
            steps := t.rows.any fun r => here r && !bad r
            sums := (t.rows.filter fun r => here r && !bad r).any fun r => r.compares n m.mat } →
          (s.core c).arrayFree = true →
          (s.recordsUp c t.cmd w l = false → exec .walkPass s = .next s) ∧
          (s.recordsUp c t.cmd w l = true →
            ((staged w.regs 9).getLsbD 0 = false → exec .walkPass s = .next (s2.modCore c fun k => { k with table := some t' })) ∧
            ((∀ (i : Nat) (r : WalkRow), rows[i]? = some r → r.st = 3 → ∃ q : WalkRow, t.rows[i]? = some q ∧ q.st ≠ 0) →
              exec .walkPass s = .next (s2.modCore c fun k => { k with table := some t' })) ∧
            ∀ i u r, (staged w.regs 9).getLsbD 0 = true → s.strand? t.cmd.sid = some u → u.st ≠ .ended → u.th = false → u.tvec ≠ 0 →
              rows[i]? = some r → r.st = 3 → (∃ q, t.rows[i]? = some q ∧ q.st = 0) →
              (∀ (j : Nat) (r : WalkRow), j < i → rows[j]? = some r → r.st = 3 → ∃ q : WalkRow, t.rows[j]? = some q ∧ q.st ≠ 0) →
              exec .walkPass s = .next (s2.walkStop c t' .walkchild (BitVec.ofNat 64 (r.node.toNat * 2 ^ 32 + r.cause.toNat * 2 ^ 8 + i)))))) ∧
  (∀ (s s1 : State) (c : Nat) (x : MxCmd) (w : WalkCmd) (off : Nat) (n : NodeCtl) (m : NodeImage) (y : OpSlot),
    s.fetchNode c x w off = .ok n m s1 → (s1.core c).slotOf x.group (bits (staged w.regs 0x0C) 0 8) = some y →
    ∃ b, b.take 64 = m.hdr ∧ (b.length ≤ 2048 * y.units → ∃ l, (s1.core c).ncache = l ++ [(bits (staged w.regs 0x0C) 0 8, off, b)])) ∧
  (∀ (r : WalkRow) (c : NodeCtl) (h : List Byte) (dlim : Nat) (y : List (BitVec 32)),
    (dlim < r.depth + 1 → (r.choose c h dlim y).st = 3 ∧ (r.choose c h dlim y).cause = 5 ∧
      (r.choose c h dlim y).node = r.node ∧ (r.choose c h dlim y).path = r.path) ∧
    (r.depth + 1 ≤ dlim → (r.choose c h dlim y).st = r.st ∧ (r.choose c h dlim y).depth = r.depth + 1 ∧
      (r.choose c h dlim y).node = nodeChild h (heddle c h y).1 ∧
      (r.choose c h dlim y).path = r.path * 8 + BitVec.ofNat 48 (heddle c h y).1) ∧
    (r.choose c h dlim y).nan = (r.nan || (heddle c h y).2)) ∧
  (∀ (s : State) (c : Nat) (t : WalkTable) (w : WalkCmd), c = s.ua → s.ub = 0 → (s.core c).table = some t → t.cmd.kind = .walk w →
    (t.held = true → exec .walkEnd s = .next s) ∧
    (s.walkWordUp c t.cmd = false → exec .walkEnd s = .next s) ∧
    (t.held = false → s.walkWordUp c t.cmd = true → t.cmd.cause ≠ 0 →
      exec .walkEnd s = .next ((s.discardTable c t).endCount t.cmd.sid t.cmd.sn)) ∧
    (t.held = false → t.cmd.cause = 0 → (∃ r ∈ t.rows, r.st = 0) → exec .walkEnd s = .next s) ∧
    (s.walkRuns (s.core c) t = true → s.walkWordUp c t.cmd = true → (∀ r ∈ t.rows, r.st ≠ 0) → ∀ l s1 hit,
      l = ((List.range t.rows.length).filter fun i => match t.rows[i]? with
          | some r => decide (r.st ≠ 1)
          | none => false) → s.recordsUp c t.cmd w l = true → s.walkRecords c t.cmd w t.rows l = (s1, hit) →
      exec .walkEnd s = .next ((((s1.freeTable c t).walkWord t.cmd (t.word (if t.err = true ∨ hit = true then 5 else 0))).modStrand
        t.cmd.sid fun u => { u with
          wstat := t.status false false, hold := if u.hold = some t.cmd.sn then none else u.hold }).endCount t.cmd.sid t.cmd.sn))) ∧
  (∀ (s : State) (x : MxCmd), s.ub ≠ 0 → ((s.core s.ua).mxq.find? fun x => x.kind.isWalk && decide (x.cause ≠ 0)) = some x →
    s.walkWordUp s.ua x = true →
    exec .walkEnd s = .next (((s.modCore s.ua fun k => { k with mxq := k.mxq.filter fun y => !(y.sn == x.sn) }).walkWord x
      (BitVec.ofNat 64 (2 ^ 63 + 4 * 2 ^ 56))).endCount x.sid x.sn)) ∧
  (∀ (s : State) (c : Nat) (t : WalkTable) (u : Strand) (cause : Cause) (v : Word), s.strand? t.cmd.sid = some u → u.st ≠ .ended →
    u.th = false → u.tvec ≠ 0 → u.claim = none → ∃ s' u', s.walkStop c t cause v = s' ∧
      (s'.core c).table = some { t with held := true, trap := true } ∧ s'.mem = s.mem ∧
      s'.strand? t.cmd.sid = some u' ∧ u'.tcause = cause.code ∧ u'.tpc = t.cmd.pc ∧ u'.tval = v ∧ u'.th = true ∧ u'.pc = u.tvec ∧
      u'.hold = none ∧ u'.outst = (u.uncount t.cmd.sn).outst ∧ u'.gr = u.gr) ∧
  ∀ (s s1 : State) (c : Nat) (x : MxCmd) (w : WalkCmd) (i : Nat) (r : WalkRow) (hit : Option Nat),
    s.engPut x.sid x.sn (dieOf c) (s.follow x.sid w.oh) (bits (staged w.regs 7) 0 40 + i * walkS w.regs w.df)
      (bytesOfNat 4 r.node.toNat ++ bytesOfNat 2 (if r.st = 1 then r.leafid.toNat else 0) ++ bytesOfNat 1 r.depth ++
        bytesOfNat 1 (r.cause.toNat * 16 + (if r.nan = true then 4 else 0) + r.st.toNat) ++ bytesOfNat 8 r.path.toNat ++
        if r.st = 1 then ((drainRow w.df r.y).1.map fun e => bytesOfNat (fmtWidth w.df) e).flatten else []) = .ok (s1, hit) →
    s.walkRecord c x w i r = (s1, hit.isSome)

/-- R207: the heddle's choice for each rule, and the bit NAN, which stays set. SIGN: 1 if y[0] > 0, else 0. ARGMAX: the index of the
largest entry that is not a NaN, the lower one of equal entries; 0 if all are NaN. THRESH: how many thresholds are at most y[0]. BITS:
the sign bits. A NaN among the entries used sets NAN. -/
def Obligations.HeddleRules : Prop :=
  ∀ (c : NodeCtl) (h : List Byte) (y : List (BitVec 32)) (y0 : BitVec 32) (nan : Nat → Bool) (cmp : Nat → Nat → Int),
    y.head? = some y0 → (∀ j, nan j = (FFmt.f32.value ((y[j]?).getD 0).toNat).isNan) →
    (∀ j k, cmp j k = (FFmt.f32.value ((y[j]?).getD 0).toNat).cmp (FFmt.f32.value ((y[k]?).getD 0).toNat)) →
    (c.rule = 0 → (nan 0 = true → heddle c h y = (0, true)) ∧
      (nan 0 = false → heddle c h y = (if (FFmt.f32.value y0.toNat).cmp (.fin false 0 0) > 0 then 1 else 0, false))) ∧
    (c.rule = 1 → c.par ≤ y.length →
      ((∃ j, j < c.par ∧ nan j = false) → (heddle c h y).1 < c.par ∧ nan (heddle c h y).1 = false ∧
        (∀ j, j < c.par → nan j = false → cmp j (heddle c h y).1 ≤ 0) ∧
        ∀ j, j < (heddle c h y).1 → nan j = false → cmp j (heddle c h y).1 < 0) ∧
      ((∀ j, j < c.par → nan j = true) → (heddle c h y).1 = 0) ∧
      ((heddle c h y).2 = true ↔ ∃ j, j < c.par ∧ nan j = true)) ∧
    (c.rule = 2 → (nan 0 = true → heddle c h y = (0, true)) ∧
      (nan 0 = false → heddle c h y =
        ((List.range c.par).countP fun j => (FFmt.bf16.value (nodeT h (j + 1))).cmp (FFmt.f32.value y0.toNat) ≤ 0, false))) ∧
    (c.rule = 3 → (heddle c h y).1 < 2 ^ c.par ∧
      (∀ j, j < c.par → (heddle c h y).1.testBit j = ((y[j]?).getD 0).getLsbD 31) ∧
      ((heddle c h y).2 = true ↔ ∃ j, j < c.par ∧ nan j = true)) ∧
    ∀ (r : WalkRow) (dlim : Nat), (r.choose c h dlim y).nan = (r.nan || (heddle c h y).2)

/-! ## Token dispatch -/

/-- R252, R254, R255: `dsend` whose checks pass joins the die's engine with what it uses and counts on DX; a refused one raises the
trap of its check. `dflush` sends the strand's held lists and waits for its earlier commands. `dstat` gives the strand's counts. The
reading of log entry 33 is the model's own. -/
def Obligations.DispatchIssues : Prop :=
  (∀ w, (Instr.dsend w).runs
    (fun _ s1 t _ => t.pair = false ∧ (s1.die (dieOf t.core)).dxRefusal t.asid (dxRegs t.dx) = none ∧ t.dxChecks (dxRegs t.dx) = none)
    (fun s s1 t _ => (s1.fresh.2.modDie (dieOf t.core) fun y => { y with
        dxSerial := y.dxSerial + 1
        dxq := y.dxq ++ [{
          sn := s1.serial, sid := s.cur, pc := t.pc, regs := t.dx, src := t.regionAt (bits (staged t.dx 1) 0 5)
          ids := t.regionAt (bits (staged t.dx 6) 0 5), cw := t.regionAt (bits (staged t.dx 0x0C) 0 5), asid := t.asid
          after := t.gate (w = 1), serial := (s1.die (dieOf t.core)).dxSerial }] }).setStrand s.cur
      (t.countOn s1.serial [.dx]).advance)) ∧
  (∀ w code, (Instr.dsend w).runs (fun _ s1 t _ => (s1.die (dieOf t.core)).dxRefusal t.asid (dxRegs t.dx) = some code)
    (fun s _ t _ => s.trap s.cur t .engine (BitVec.ofNat 64 (0x300 + code)))) ∧
  (∀ w c x, (Instr.dsend w).runs
    (fun _ s1 t _ => (s1.die (dieOf t.core)).dxRefusal t.asid (dxRegs t.dx) = none ∧ t.dxChecks (dxRegs t.dx) = some (c, x))
    (fun s _ t _ => s.trap s.cur t c x)) ∧
  (∀ d w, (Instr.dflush d w).runs
    (fun s s1 t _ => t.mustDefer (.dflush d w) (w = 1) = false ∧ s1.dxTurn s.cur s1.serial = true)
    (fun s s1 t _ => ((s1.lateDest t d).1.fresh.2.setStrand s.cur
        ((s1.lateDest t d).2.1.countOn (s1.lateDest t d).1.serial [.dx]).advance).beginFlush s.cur (s1.lateDest t d).1.serial
        (s1.lateDest t d).2.2)) ∧
  (∀ (s : State) (sid sn : Nat) (dest : Dest) (t : Strand) (l : List Nat), s.strand? sid = some t → t.pair = false →
    l = (((s.die (dieOf t.core)).dxq.filter fun x => x.sid == sid && decide (x.sn < sn)).map fun x => x.sn) → l ≠ [] →
    s.beginFlush sid sn dest = (s.sendLists (dieOf t.core) fun l => l.hold && l.sid == sid).modDie (dieOf t.core) fun x =>
      { x with flushes := x.flushes ++ [{ sn, sid, cmds := l, dropped := t.dxDropped, dest }] }) ∧
  (∀ (s : State) (d sn n : Nat) (f : Flush), (s.die d).flushes = [f] → f.cmds = [sn] →
    s.settleFlushes d sn n = (((s.modDie d fun x => { x with flushes := [] }).deliver f.sid f.dest
      (BitVec.ofNat 64 (f.dropped + n))).uncount f.sid f.sn)) ∧
  (∀ d w, (Instr.dstat d w).runs (fun s s1 t _ => t.mustDefer (.dstat d w) (w = 1) = false ∧
      (∃ u, s1.strand? s.cur = some u ∧ u.pair = false))
    (fun s s1 t _ => s1.finish s.cur t d (BitVec.ofNat 64 (t.drops.toNat * 2 ^ 48 + t.denies.toNat * 2 ^ 32
      + ((s1.die (dieOf t.core)).dxq.filter fun y => y.sid == s.cur).length % 256 * 2 ^ 16
      + ((s1.die (dieOf t.core)).lists.filter fun l => l.sid == s.cur).length % 256 * 2 ^ 8
      + (if ((s1.die (dieOf t.core)).gate.map fun g => g.2.2) = some t.asid then 1 else 0)))))

/-- R244 to R246, R249, R261: a token's choices by hash, and their receivers. A forced expert is choice 0. A token enters the list of
its first choice with a receiver; where it passed over one without, that list goes out at once. -/
def Sys2Proof.Claims.TokenChoices : Prop :=
  (∀ (r : DxRegs) (ovr : Option Nat) (id : BitVec 32) (h : Word), 0 < r.e →
    h = ((id.setWidth 64 ^^^ (BitVec.ofNat 64 r.layer <<< 32)) * r.mult) >>> r.shift →
    (hashChoices r ovr id).2 = ovr.isSome ∧
    (∀ f, f = ovr.getD (h.toNat % r.e) →
      ((hashChoices r ovr id).1.map fun c => c.1) =
        if r.k = 2 then [f, (f + 1 + (h.toNat / 2 ^ 16) % (r.e - 1)) % r.e] else [f])) ∧
  (∀ (s : State) (d : Nat) (x : DxCmd) (r : DxRegs) (ib row : List Byte) (s1 s2 : State),
    d = s.ua → s.dxReady d s.ub = some x → r = dxRegs x.regs → r.mode = 0 → x.next < r.n →
    s.allUp d (s.follow x.sid x.ids) (r.io + 4 * x.next) 4 accR = true →
    s.allUp d (s.follow x.sid x.src) (r.so + x.next * r.str) r.rb accR = true →
    s.readSpan d (s.follow x.sid x.ids) (r.io + 4 * x.next) 4 = .ok (ib, s1) →
    s1.readSpan d (s1.follow x.sid x.src) (r.so + x.next * r.str) r.rb = .ok (row, s2) →
    ∀ id cs s3, id = BitVec.ofNat 32 (natOfBytes ib) →
      cs = hashChoices r (if r.noovr then none else (s2.die d).override x.asid r.layer id) id →
      s3 = { s2 with serial := s2.serial + r.e } →
      ∃ k : Token, k.cmd = x.sn ∧ k.idx = x.next ∧ k.id = id ∧ k.bytes = row ∧ k.choices = cs.1 ∧ k.ovr = cs.2 ∧
        k.reps = (cs.1.map fun c => s3.replica d x.asid r.layer r.e id c.1) ∧
        exec .dsendHashChoose s = .next ((((s3.countToken d x.asid r.layer ((cs.1.head?).getD (0, 0)).1).modDx d x.sn fun y =>
          { y with next := y.next + 1 }).listToken d x k 0).endChoosing d x)) ∧
  (∀ (s : State) (x : DxCmd) (r : DxRegs), s.dxReady s.ua s.ub = some x → r = dxRegs x.regs → r.mode = 0 → x.next < r.n →
    (s.allUp s.ua (s.follow x.sid x.ids) (r.io + 4 * x.next) 4 accR = false ∨
      s.allUp s.ua (s.follow x.sid x.src) (r.so + x.next * r.str) r.rb accR = false) → exec .dsendHashChoose s = .next s) ∧
  (∀ (s : State) (x : DxCmd), s.dxReady s.ua s.ub = some x → (dxRegs x.regs).mode = 1 → x.next < (dxRegs x.regs).n →
    exec .dsendScoredChoose s = .next (s.chooseToken s.ua x fun s' r ovr _ row => s'.scoredChoices s.ua r ovr row)) ∧
  ∀ (s : State) (d : Nat) (x : DxCmd) (k : Token) (c : Nat),
    ((∀ i, c ≤ i → i < k.choices.length → (k.reps[i]?).join = none) → s.listToken d x k c = s.dropToken d x.sn false) ∧
    ∀ i dest, c ≤ i → i < k.choices.length → (k.reps[i]?).join = some dest →
      (∀ j, c ≤ j → j < i → (k.reps[j]?).join = none) →
      ∀ s1, s1 = s.enterList d x.sid x.asid dest (dxRegs x.regs).rb (dxRegs x.regs).hold { k with choice := i } →
        (c = i → s.listToken d x k c = s1) ∧
        (∀ l, c < i → (s1.die d).openList x.sid dest = some l → (∃ j ∈ l.toks, j.cmd = k.cmd ∧ j.idx = k.idx) →
          s.listToken d x k c = s1.sendList d l) ∧
        (c < i → (s1.die d).openList x.sid dest = none → s.listToken d x k c = s1)

/-- R245, R249 to R251, R253: what the engine of a die does after a choice. A list goes out after 256 cycles; a request is answered with
the rows that the entry has left; granted tokens leave for their rows and denied ones take their next choice; a row is written, then
counted with its counter made full; a release empties the counter once nothing is on its way; a gate is copied whole; a command whose
tokens have all been counted or dropped ends with its word. -/
def Sys2Proof.Claims.DispatchEngine : Prop :=
  ∀ (s : State) (d : Nat), d = s.ua →
    (∀ l, (s.die d).lists[s.ub]? = some l → l.sent = false → l.hold = true →
      (∀ k ∈ l.toks, ∀ x, s.dxCmd? k.cmd = some x → x.2.stop = false) →
      exec .sendListHoldTimeout s = .next (if l.since + 256 ≤ s.cycle then s.sendList d l else s)) ∧
    (∀ l k rest e, (s.die d).reqs[s.ub]? = some l → s.pkgUp (d / 8) = true → l.toks = k :: rest → s.rcvEntry d l.dest.2.2 = some e →
      e.asid = l.asid → 16 + l.rb ≤ e.rstr → (s.die d).releasing.contains l.dest.2.2 = false →
      ∃ s', exec .receiveRequest s = .next s' ∧
        Tab.getD (s'.die d).used l.dest.2.2 0 = Tab.getD (s.die d).used l.dest.2.2 0 +
          min l.toks.length (e.cap - Tab.getD (s.die d).used l.dest.2.2 0) ∧
        ∀ src x, s.dxCmd? k.cmd = some (src, x) → (s'.die src).grants = (s.die src).grants ++ [{
          lst := l, base := Tab.getD (s.die d).used l.dest.2.2 0, buf := e.buf, rstr := e.rstr, cnt := e.cnt
          count := min l.toks.length (e.cap - Tab.getD (s.die d).used l.dest.2.2 0) }]) ∧
    (∀ l k rest, (s.die d).reqs[s.ub]? = some l → s.pkgUp (d / 8) = true → l.toks = k :: rest →
      (s.rcvEntry d l.dest.2.2 = none ∨ (∃ e, s.rcvEntry d l.dest.2.2 = some e ∧ (e.asid ≠ l.asid ∨ e.rstr < 16 + l.rb)) ∨
        (s.die d).releasing.contains l.dest.2.2 = true) →
      ∃ s', exec .receiveRequest s = .next s' ∧ (s'.die d).used = (s.die d).used ∧
        ∀ src x, s.dxCmd? k.cmd = some (src, x) →
          (s'.die src).grants = (s.die src).grants ++ [{ lst := l, base := 0, count := 0 }]) ∧
    (∀ m, (s.die d).grants[s.ub]? = some m → m.lst.toks.length ≤ m.count →
      exec .grantReply s = .next ((m.lst.toks.zipIdx).foldl (fun s x => s.sendRow m x.2 x.1)
        (s.modDie d fun y => { y with grants := y.grants.eraseIdx s.ub, lists := y.lists.erase m.lst }))) ∧
    (∀ m k, (s.die d).grants[s.ub]? = some m → m.count = 0 → m.lst.toks = [k] →
      exec .grantReply s = .next ((((s.modDie d fun y => { y with
          grants := y.grants.eraseIdx s.ub, lists := y.lists.erase m.lst }).modPair m.lst.sid fun t =>
            { t with denies := satInc t.denies }).retryToken d k).sendLists d fun l => l.toks.any fun j =>
              k.cmd == j.cmd && k.idx == j.idx)) ∧
    (∀ m k j d' x, s.dxCmd? k.cmd = some (d', x) → s.sendRow m j k =
      s.modDie (m.lst.dest.1 * 8 + m.lst.dest.2.1) fun z => { z with rows := z.rows ++ [{
        tok := k, x := m.lst.dest.2.2, off := m.buf + m.rstr * (m.base + j), cnt := m.cnt
        bytes := k.header (dxRegs x.regs).layer x.serial m.lst.dest ++ k.bytes }] }) ∧
    (∀ y, s.memWf → (s.die d).rows[s.ub]? = some y → y.committed = false → y.off + y.bytes.length ≤ 2 ^ 25 →
      ∃ s', exec .rowCommit s = .next s' ∧ s'.full = s.full ∧
        ∀ a, Memory.read s'.mem a = if chipKey d y.off ≤ a ∧ a < chipKey d y.off + y.bytes.length
          then (y.bytes[a - chipKey d y.off]?).getD 0 else Memory.read s.mem a) ∧
    (∀ y key, (s.die d).rows[s.ub]? = some y → y.committed = true → key = chipKey d (y.cnt % 2 ^ 25) → s.poisoned key 8 = false →
      key % 8 = 0 → s.memWf →
      ∃ s', exec .arrivalCount s = .next s' ∧ s'.isFull key = true ∧ s'.valueAt key 8 = s.valueAt key 8 + 1) ∧
    (∀ x e, (s.die d).releasing[s.ub]? = some x → s.rcvEntry d x = some e → e.cnt % 8 = 0 → s.memWf →
      (∀ y ∈ (s.die d).rows, y.x ≠ x) → (∀ z ∈ s.dies, z.2.grants = []) →
      ∃ s', exec .receiveRelease s = .next s' ∧ s'.isFull (chipKey d (e.cnt % 2 ^ 25)) = false ∧
        s'.valueAt (chipKey d (e.cnt % 2 ^ 25)) 8 = 0 ∧ Tab.get? (s'.die d).used x = none) ∧
    (∀ x, s.dxReady d s.ub = some x → (dxRegs x.regs).mode = 2 →
      s.allUp d (s.follow x.sid x.src) (dxRegs x.regs).so (gateBytes (dxRegs x.regs).e (dxRegs x.regs).d) accR = false →
      exec .gateLoad s = .next s) ∧
    (∀ x b s1, s.dxReady d s.ub = some x → (dxRegs x.regs).mode = 2 →
      s.allUp d (s.follow x.sid x.src) (dxRegs x.regs).so (gateBytes (dxRegs x.regs).e (dxRegs x.regs).d) accR = true →
      s.readSpan d (s.follow x.sid x.src) (dxRegs x.regs).so (gateBytes (dxRegs x.regs).e (dxRegs x.regs).d) = .ok (b, s1) →
      exec .gateLoad s = .next (((s1.writeBytes (gateKey d 0) b).modDie d fun y => { y with
        gate := some ((dxRegs x.regs).e, (dxRegs x.regs).d, x.asid) }).modDx d x.sn fun y => { y with done := true, err := false })) ∧
    (∀ x, (s.die d).dxq[s.ub]? = some x → x.stop = false → x.isOver = false → exec .dsendCompletion s = .next s) ∧
    (∀ x, (s.die d).dxq[s.ub]? = some x → s.wordUp d x.sid x.cw (staged x.regs 0x0D) = false →
      exec .dsendCompletion s = .next s) ∧
    (∀ x, (s.die d).dxq[s.ub]? = some x → x.isOver = true → s.wordUp d x.sid x.cw (staged x.regs 0x0D) = true →
      (s.dxReady d s.ub).isSome ∨ x.done = true ∨ x.stop = true → (s.modDie d fun y => { y with
        dxq := y.dxq.eraseIdx s.ub }).pairOf x.sid x.sn = none →
      ∀ n, n = x.dropped + (if x.stop = true then (dxRegs x.regs).n - x.next else 0) →
      exec .dsendCompletion s = .next ((((s.modDie d fun y => { y with dxq := y.dxq.eraseIdx s.ub }).modPair x.sid fun t =>
        { t with dxDropped := t.dxDropped + n }).engEnd x.sid x.sn x.cw (staged x.regs 0x0D) x.word).settleFlushes d x.sn n)) ∧
    ∀ x : DxCmd, (dxRegs x.regs).mode ≠ 2 → x.stop = false →
      (x.isOver = true ↔ (dxRegs x.regs).n ≤ x.next ∧ x.sent + x.dropped = x.next)

/-- A token’s choices, and lists, grants, rows, counters and completions of the dispatch engine. The readings of log entries 8 and 33
are the model's own. -/
def Obligations.TokenDispatch : Prop :=
  Claims.TokenChoices ∧ Claims.DispatchEngine

/-! ## Migration -/

/-- R257, R258: `migrate` gives 5 for a wrong size, 4 for HOME in a strand that is at home, 2 for a sealed home, 3 for a bad target,
and goes on; otherwise it asks for the target's grant, or goes home, and the strand does not issue until it has an answer. A target
with a free slot and a free context number grants, and the strand leaves; otherwise it gives 1, and a sealed one 2. A strand that
arrives is RUN in its new slot and `migrate` gives 0. The readings of log entries 34 and 44 are the model's own. -/
def Obligations.Migration : Prop :=
  (∀ d a b, (Instr.migrate d a b).runs
    (fun _ _ t v => t.outst = [] ∧ t.ops = [] ∧ t.rets = [] ∧ t.seq = [] ∧ t.late = [] ∧ (4096 < bits (v b) 0 13 ∨ bits (v b) 0 13 % 8 ≠ 0))
    (fun s s1 t _ => s1.finish s.cur t d 5)) ∧
  (∀ d a b, (Instr.migrate d a b).runs
    (fun _ _ t v => t.outst = [] ∧ t.ops = [] ∧ t.rets = [] ∧ t.seq = [] ∧ t.late = [] ∧ bits (v b) 0 13 ≤ 4096 ∧ bits (v b) 0 13 % 8 = 0 ∧
      (v a).getLsbD 63 = true ∧ t.home = none)
    (fun s s1 t _ => s1.finish s.cur t d 4)) ∧
  (∀ d a b, (Instr.migrate d a b).runs
    (fun _ s1 t v => t.outst = [] ∧ t.ops = [] ∧ t.rets = [] ∧ t.seq = [] ∧ t.late = [] ∧ bits (v b) 0 13 ≤ 4096 ∧ bits (v b) 0 13 % 8 = 0 ∧
      (v a).getLsbD 63 = true ∧ ∃ c k, t.home = some (c, k) ∧ (s1.core c).sealed = true)
    (fun s s1 t _ => s1.finish s.cur t d 2)) ∧
  (∀ d a b c k, (Instr.migrate d a b).runs
    (fun _ s1 t v => t.outst = [] ∧ t.ops = [] ∧ t.rets = [] ∧ t.seq = [] ∧ t.late = [] ∧ bits (v b) 0 13 ≤ 4096 ∧ bits (v b) 0 13 % 8 = 0 ∧
      (v a).getLsbD 63 = true ∧ t.home = some (c, k) ∧ (s1.core c).sealed = false)
    (fun s s1 t v => ((s1.lateDest t d).1.setStrand s.cur { (s1.lateDest t d).2.1 with
      mig := some (c, true, bits (v b) 0 13, (s1.lateDest t d).2.2) }).depart s.cur c k (bits (v b) 0 13) true)) ∧
  (∀ d a b, (Instr.migrate d a b).runs
    (fun _ s1 t v => t.outst = [] ∧ t.ops = [] ∧ t.rets = [] ∧ t.seq = [] ∧ t.late = [] ∧ bits (v b) 0 13 ≤ 4096 ∧ bits (v b) 0 13 % 8 = 0 ∧
      (v a).getLsbD 63 = false ∧ s1.badTarget t (v a) = true)
    (fun s s1 t _ => s1.finish s.cur t d 3)) ∧
  (∀ d a b, (Instr.migrate d a b).runs
    (fun _ s1 t v => t.outst = [] ∧ t.ops = [] ∧ t.rets = [] ∧ t.seq = [] ∧ t.late = [] ∧ bits (v b) 0 13 ≤ 4096 ∧ bits (v b) 0 13 % 8 = 0 ∧
      (v a).getLsbD 63 = false ∧ s1.badTarget t (v a) = false)
    (fun s s1 t v => (s1.lateDest t d).1.fresh.2.setStrand s.cur { (s1.lateDest t d).2.1.countOn (s1.lateDest t d).1.serial [.dx] with
      mig := some (t.migTarget (v a), false, bits (v b) 0 13, (s1.lateDest t d).2.2) })) ∧
  (∀ d a b, (Instr.migrate d a b).runs (fun _ _ t _ => t.outst ≠ [] ∨ t.late ≠ [] ∨ t.ops ≠ [] ∨ t.rets ≠ [] ∨ t.seq ≠ [])
    (fun s _ _ _ => s)) ∧
  (∀ (s : State) (t : Strand) (c n : Nat) (dest : Dest), s.strand? s.ua = some t → t.partner = none → t.place?.isSome →
    t.mig = some (c, false, n, dest) →
    (s.pkgUp (c / 2048) = false → exec .migrateGrant s = .next s) ∧ (s.pkgUp (c / 2048) = true →
    ((s.core c).sealed = true → exec .migrateGrant s = .next (s.migRefused s.ua 2)) ∧
    ((s.core c).sealed = false → (s.core c).freeSlot = none ∨ (s.core c).freeCtx = none →
      exec .migrateGrant s = .next (s.migRefused s.ua 1)) ∧
    (∀ k x, (s.core c).sealed = false → (s.core c).freeSlot = some k → (s.core c).freeCtx = some x →
      exec .migrateGrant s = .next (s.depart s.ua c k n false)))) ∧
  (∀ (s : State) (t : Strand) (c n st : Nat) (h : Bool) (d : GReg), s.strand? s.ua = some t → t.mig = some (c, h, n, .gpr d) → d ≠ 0 →
    ∃ u, (s.migRefused s.ua st).strand? s.ua = some u ∧ u.pc = t.pc + 4 ∧ u.mig = none ∧ u.g d = BitVec.ofNat 64 st ∧
      ∀ q, q ≠ d → u.g q = t.g q) ∧
  (∀ (s : State) (t : Strand) (c k k' n : Nat) (c' : Nat), s.memWf → s.strand? s.ua = some t → t.loc = .slot c' k' → c ≠ c' → k < 8 →
    k' < 8 → t.home = none → s.heldTable c' s.ua = none → n % 8 = 0 → n ≤ 4096 →
    ∃ u, (s.depart s.ua c k n false).strand? s.ua = some u ∧ u.loc = .transit c k ∧ u.home = some (c', k') ∧ u.pc = t.pc + 4 ∧
      u.gr = t.gr ∧ u.vr = t.vr ∧ vget ((s.depart s.ua c k n false).core c').slots k' .free = .reserved s.ua ∧
      (∀ o, o < 4096 → Memory.read (s.depart s.ua c k n false).mem (scratchKey c (0x1000 * k) + o) =
        if o < n then Memory.read s.mem (scratchKey c' (0x1000 * k') + o) else 0)) ∧
  ∀ (s : State) (t : Strand) (c k n c' : Nat) (h : Bool) (dest : Dest), s.strand? s.ua = some t → t.loc = .transit c k →
    t.mig = some (c', h, n, dest) → ∃ s', exec .migrateArrive s = .next s' ∧
      (k < 8 → vget (s'.core c).slots k .free = .live s.ua) ∧
      (∀ d, dest = .gpr d → d ≠ 0 → ∃ u, s'.strand? s.ua = some u ∧ u.loc = .slot c k ∧ u.st = .run ∧ u.mig = none ∧ u.outst = [] ∧
        u.g d = 0 ∧ u.home = (if h then none else t.home) ∧ ∀ q, q ≠ d → u.g q = t.g q)

/-! ## The distaff -/

/-- R270 to R274: `plrd` and `plswitch` send their message to the distaff, count on DX and wait for its reply; `plswitch` reads its list
first. `plstat` gives the state word of the strand's region, or 0. `plmerge` captures the replicas that it merges and counts on DX; each
check that fails raises its trap. The reading of log entry 35 is the model's own. -/
def Obligations.DistaffIssues : Prop :=
  (∀ a d, (Instr.plrd a d).runs (fun _ _ _ _ => True)
    (fun s s1 t v => (s1.lateDest t d).1.fresh.2.setStrand s.cur
      { ((s1.lateDest t d).2.1.countOn (s1.lateDest t d).1.serial [.dx]).advance with
        msgs := (s1.lateDest t d).2.1.msgs ++ [.plrd (s1.lateDest t d).1.serial s.cycle (v a) (s1.lateDest t d).2.2] })) ∧
  (∀ d b n s2, (Instr.plswitch d).runs
    (fun _ s1 t _ => t.sup = true ∧ n = bits (staged t.pl 0x0A) 0 9 ∧ 0 < n ∧ n ≤ 256 ∧ t.ops = [] ∧
      regionCheck (t.regionAt (bits (staged t.pl 8) 0 5)) (bits (staged t.pl 8) 0 5) (bits (staged t.pl 9) 0 40) (32 * n) rR = none ∧
      s1.allUp (dieOf t.core) (t.regionAt (bits (staged t.pl 8) 0 5)) (bits (staged t.pl 9) 0 40) (32 * n) accR = true ∧
      s1.readSpan (dieOf t.core) (t.regionAt (bits (staged t.pl 8) 0 5)) (bits (staged t.pl 9) 0 40) (32 * n) = .ok (b, s2))
    (fun s _ t _ => (s2.lateDest t d).1.fresh.2.setStrand s.cur
      { ((s2.lateDest t d).2.1.countOn (s2.lateDest t d).1.serial [.dx]).advance with
        msgs := (s2.lateDest t d).2.1.msgs ++ [.plswitch (s2.lateDest t d).1.serial s.cycle (bits (staged t.pl 0x0B) 0 6)
          (changesOf b n) false (s2.lateDest t d).2.2] })) ∧
  (∀ d, (Instr.plswitch d).runs
    (fun _ _ t _ => t.sup = true ∧ t.ops = [] ∧ (bits (staged t.pl 0x0A) 0 9 = 0 ∨ 256 < bits (staged t.pl 0x0A) 0 9))
    (fun s s1 t _ => (s1.lateDest t d).1.fresh.2.setStrand s.cur
      { ((s1.lateDest t d).2.1.countOn (s1.lateDest t d).1.serial [.dx]).advance with
        msgs := (s1.lateDest t d).2.1.msgs ++ [.plswitch (s1.lateDest t d).1.serial s.cycle (bits (staged t.pl 0x0B) 0 6)
          [] true (s1.lateDest t d).2.2] })) ∧
  (∀ d c x, (Instr.plswitch d).runs
    (fun _ _ t _ => t.sup = true ∧ 0 < bits (staged t.pl 0x0A) 0 9 ∧ bits (staged t.pl 0x0A) 0 9 ≤ 256 ∧
      regionCheck (t.regionAt (bits (staged t.pl 8) 0 5)) (bits (staged t.pl 8) 0 5) (bits (staged t.pl 9) 0 40)
        (32 * bits (staged t.pl 0x0A) 0 9) rR = some (c, x))
    (fun s _ t _ => s.trap s.cur t c x)) ∧
  (∀ d k g, (Instr.plstat d).runs (fun _ s1 t _ => s1.regionOf t.asid = some (k, g))
    (fun s s1 t _ => s1.finish s.cur t d (BitVec.ofNat 64 (g.cv.toNat * 2 ^ 48
      + (if g.st = .stable then 0 else (g.cv + 1).toNat * 2 ^ 32) + (if g.v then 2 ^ 31 else 0) + (if g.auto then 2 ^ 30 else 0)
      + g.st.code * 2 ^ 26 + g.last.toNat * 2 ^ 24 + g.lent.toNat)))) ∧
  (∀ d, (Instr.plstat d).runs (fun _ s1 t _ => s1.regionOf t.asid = none) (fun s s1 t _ => s1.finish s.cur t d 0)) ∧
  (∀ w k g ver, (Instr.plmerge w).runs
    (fun _ s1 t _ => t.pair = false ∧ s1.regionOf t.asid = some (k, g) ∧ bits (staged t.pl 0) 0 13 < g.size ∧
      ver = (if (staged t.pl 1).getLsbD 16 then g.cv else (staged t.pl 1).setWidth 16) ∧
      (ver = g.cv ∨ g.st = .draining ∧ ver = g.cv - 1) ∧ bits (staged t.pl 5) 0 40 ≠ 0 ∧ bits (staged t.pl 5) 0 40 % 4 = 0 ∧
      (t.handle (bits (staged t.pl 2) 0 5)).space = 4 ∧
      (∀ x ∈ (s1.mergeReps g (bits (staged t.pl 0) 0 13) ver).zipIdx,
        regionCheck (t.regionAt (bits (staged t.pl 2) 0 5)) (bits (staged t.pl 2) 0 5) (gradOff t.pl g.nx x.1)
          (bits (staged t.pl 5) 0 40) (if x.2 = 0 then rR ||| rW else rR) = none) ∧
      t.cwCheck (staged t.pl 6) (staged t.pl 7) = none)
    (fun s s1 t _ => (s1.fresh.2.modDie (dieOf t.core) fun y => { y with merges := y.merges ++ [{
        sn := s1.serial, sid := s.cur, pc := t.pc, regs := t.pl, g := t.regionAt (bits (staged t.pl 2) 0 5)
        cw := t.regionAt (bits (staged t.pl 6) 0 5), ver, reps := s1.mergeReps g (bits (staged t.pl 0) 0 13) ver
        nx := g.nx, after := t.gate (w = 1) }] }).setStrand s.cur (t.countOn s1.serial [.dx]).advance)) ∧
  (∀ w, (Instr.plmerge w).runs
    (fun _ s1 t _ => ∀ k g, s1.regionOf t.asid = some (k, g) → g.size ≤ bits (staged t.pl 0) 0 13)
    (fun s _ t _ => s.trap s.cur t .engine 0x401)) ∧
  ∀ w k g ver code, (Instr.plmerge w).runs
    (fun _ s1 t _ => s1.regionOf t.asid = some (k, g) ∧ bits (staged t.pl 0) 0 13 < g.size ∧
      ver = (if (staged t.pl 1).getLsbD 16 then g.cv else (staged t.pl 1).setWidth 16) ∧
      code = (if ver ≠ g.cv ∧ ¬(g.st = .draining ∧ ver = g.cv - 1) then 0x402
        else if bits (staged t.pl 5) 0 40 = 0 ∨ bits (staged t.pl 5) 0 40 % 4 ≠ 0 then 0x403
        else if (t.handle (bits (staged t.pl 2) 0 5)).space ≠ 4 then 0x404 else 0) ∧ code ≠ 0)
    (fun s _ t _ => s.trap s.cur t .engine (BitVec.ofNat 64 code))

/-- R264, R266, R267, R271, R273, R274: the distaff answers a strand's oldest request: `plrd` with the dword of the entry or the
window record, or all ones; `plswitch` with BUSY or BADLIST, or publishes the staged version. An engine applies a version that is
published and acknowledges; when the eighth has, the version is current and `plswitch` has its reply; when no token of the one before
is live the region is STABLE. A window's end replaces the records. A weights copy that ends publishes, or is reported. A merge sums
and writes its word. -/
def Sys2Proof.Claims.DistaffSteps : Prop :=
  (∀ (s : State) (t : Strand) sn at_ a dest rest, s.strand? s.ua = some t → t.pair = false → s.ub % 2 = 1 →
    t.msgs = .plrd sn at_ a dest :: rest → s.msgTurn s.ua sn t = true →
    (∀ v k g, s.regionOf t.asid = some (k, g) → bits a 0 13 < g.size →
      (bits a 14 2 = 0 ∧ v = (s.plEntry (g.base + bits a 0 13)).1 ∨ bits a 14 2 = 1 ∧ v = (s.plEntry (g.base + bits a 0 13)).2 ∨
        bits a 14 2 = 2 ∧ a.getLsbD 16 = false ∧ v = Tab.getD s.winRec (g.base + bits a 0 13) 0 ∨
        bits a 14 2 = 3 ∧ v = BitVec.allOnes 64) →
      exec .distaffReply s = .next (s.setStrand s.ua { t with
        msgs := rest, rets := t.rets ++ [{ kind := .distaff, sn, dests := [(dest, v)] }] })) ∧
    (∀ v k g, s.regionOf t.asid = some (k, g) → bits a 0 13 < g.size → bits a 14 2 = 2 → a.getLsbD 16 = true →
      v = Tab.getD s.winRec (g.base + bits a 0 13) 0 →
      exec .distaffReply s = .next (({ s with winRec := Tab.set s.winRec (g.base + bits a 0 13) (putBits v 63 1 0) } : State).setStrand s.ua
        { t with msgs := rest, rets := t.rets ++ [{ kind := .distaff, sn, dests := [(dest, v)] }] })) ∧
    ((∀ k g, s.regionOf t.asid = some (k, g) → g.size ≤ bits a 0 13) → exec .distaffReply s = .next (s.setStrand s.ua { t with
      msgs := rest, rets := t.rets ++ [{ kind := .distaff, sn, dests := [(dest, BitVec.allOnes 64)] }] }))) ∧
  (∀ (s : State) (t : Strand) m rest sn, s.strand? s.ua = some t → t.pair = false → s.ub % 2 = 1 → t.msgs = m :: rest →
    ((∃ at_ a dest, m = .plrd sn at_ a dest) ∨ ∃ at_ k recs bad dest, m = .plswitch sn at_ k recs bad dest) →
    s.msgTurn s.ua sn t = false → exec .distaffReply s = .next s) ∧
  (∀ (s : State) (t : Strand) sn at_ k recs bad dest rest, s.strand? s.ua = some t → t.pair = false → s.ub % 2 = 1 →
    t.msgs = .plswitch sn at_ k recs bad dest :: rest → s.msgTurn s.ua sn t = true →
    (bad = true ∨ (s.plRegion k).v = false ∨ (s.plRegion k).st ≠ .stable → ∃ st, st = (if bad then 2 else 1) ∧
      exec .distaffReply s = .next (s.setStrand s.ua { t with msgs := rest, rets := t.rets ++ [{
        kind := .distaff, sn, dests := [(dest, BitVec.ofNat 64 ((s.plRegion k).cv.toNat * 2 ^ 48 + st))] }] })) ∧
    (bad = false → (s.plRegion k).v = true → (s.plRegion k).st = .stable →
      ((∃ c ∈ recs, (s.plRegion k).size ≤ bits c.2.1 0 13 ∨ plEntryBad c.2.2 = true) ∨ ¬(recs.map fun c => bits c.2.1 0 13).Nodup →
        exec .distaffReply s = .next (s.setStrand s.ua { t with msgs := rest, rets := t.rets ++ [{
          kind := .distaff, sn, dests := [(dest, BitVec.ofNat 64 ((s.plRegion k).cv.toNat * 2 ^ 48 + 2))] }] })) ∧
      ((∀ c ∈ recs, bits c.2.1 0 13 < (s.plRegion k).size ∧ plEntryBad c.2.2 = false) → (recs.map fun c => bits c.2.1 0 13).Nodup →
        ∃ s', exec .distaffReply s = .next s' ∧ (s'.plRegion k).st = .publishing ∧ (s'.plRegion k).acks = [] ∧
          (s'.plRegion k).cv = (s.plRegion k).cv ∧ (s'.plRegion k).reply = some (s.ua, sn, dest) ∧
          (∀ c ∈ recs, Tab.get? (s'.plRegion k).staged (bits c.2.1 0 13) = some c.2.2) ∧ s'.pltab = s.pltab ∧
          s'.strand? s.ua = some { t with msgs := rest }))) ∧
  (∀ (s : State) (t : Strand) r d v, s.ub % 2 = 0 → s.strand? s.ua = some t → t.rets[s.ub / 2]? = some r → r.kind = .distaff →
    r.dests = [(.gpr d, v)] → d ≠ 0 → t.st ≠ .ended → (∀ w ∈ s.twins, w.west ≠ s.ua) →
    ∃ s' u, exec .distaffReply s = .next s' ∧ s'.strand? s.ua = some u ∧ u.g d = v ∧ u.pend.getLsbD d.toNat = false ∧
      ∀ q, q ≠ d → u.g q = t.g q) ∧
  (∀ (s : State) (g : PlRegion), g = s.plRegion s.ub →
    (g.st ≠ .publishing ∨ g.acks.contains s.ua = true → exec .versionApply s = .next s) ∧
    (g.st = .publishing → g.acks.contains s.ua = false → s.ua / 8 = s.pkg.toNat →
      (g.acks.length < 7 → exec .versionApply s = .next (s.setRegion s.ub { g with acks := keyInsert s.ua g.acks })) ∧
      (g.acks.length = 7 → ∃ s', exec .versionApply s = .next s' ∧ (s'.plRegion s.ub).st = .draining ∧
        (s'.plRegion s.ub).cv = g.cv + 1 ∧ (s'.plRegion s.ub).reply = none ∧
        ∀ sid sn dest t, g.reply = some (sid, sn, dest) → s.strand? sid = some t → s'.strand? sid = some { t with
          rets := t.rets ++ [{ kind := .distaff, sn, dests := [(dest, BitVec.ofNat 64 ((g.cv + 1).toNat * 2 ^ 48))] }] }))) ∧
  (∀ (s : State) (g : PlRegion), g = s.plRegion s.ua →
    (g.st ≠ .draining ∨ s.plLive s.ua (g.cv - 1) = true → exec .regionDrained s = .next s) ∧
    (g.st = .draining → s.plLive s.ua (g.cv - 1) = false → exec .regionDrained s =
      .next ((s.setRegion s.ua { g with st := .stable, old := [] }).sendEvent (some (s.asidTenant g.asid).toNat) .retired 0 0 s.ua))) ∧
  (∀ (s : State), s.winColl = none → exec .windowEnd s = .next s) ∧
  (∀ (s : State) (l : Tab (Nat × Bool)), s.winColl = some l → (∀ x ∈ s.regions, x.2.auto = false) →
    ∃ s', exec .windowEnd s = .next s' ∧ s'.winColl = none ∧ s'.regions = s.regions ∧ s'.pltab = s.pltab ∧
      ∀ i c, (i, c) ∈ l → (∀ c', (i, c') ∈ l → c' = c) → ∃ w, Tab.get? s'.winRec i = some w ∧
        bits w 0 48 = min c.1 (2 ^ 48 - 1) ∧ w.getLsbD 62 = (c.2 || decide (2 ^ 48 ≤ c.1)) ∧
        w.getLsbD 63 = ((Tab.getD s.winRec i 0).getLsbD 63 || w.getLsbD 62)) ∧
  (∀ (s : State) (g : PlRegion) (c : Nat) (h : Nat) (x : CopyCmd), g = s.plRegion s.ua → s.weightsDone s.ua = some (c, some h, x) →
    g.st = .building →
    (x.err = false → exec .replicaCopyEnd s = .next ((s.putChan c h {}).setRegion s.ua g.publish)) ∧
    (x.err = true → (s.die (dieOf c)).frecs.length < 64 → ∃ s', exec .replicaCopyEnd s = .next s' ∧
      s'.plRegion s.ua = { g with st := .stable, staged := [], last := 3 } ∧
      (s'.die (dieOf c)).frecs.length = (s.die (dieOf c)).frecs.length + 1)) ∧
  ∀ (s : State) (d : Nat) (m : MergeCmd), d = s.ua → (s.die d).merges[s.ub]? = some m → m.tok = 0 → s.mayBegin m.sid m.after = true →
    s.pairReady m.sid m.sn = true → s.dxTurn m.sid m.sn = true → (∀ x ∈ (s.die d).merges.take s.ub, x.sid ≠ m.sid) →
    (s.mergeUp d m (bits (staged m.regs 5) 0 40) = false → exec .plmergeCompletion s = .next s) ∧
    (s.mergeUp d m (bits (staged m.regs 5) 0 40) = true → m.reps.length ≤ 1 →
      exec .plmergeCompletion s = .next (s.endMerge d m false)) ∧
    (∀ c va need, s.mergeUp d m (bits (staged m.regs 5) 0 40) = true → 1 < m.reps.length →
      s.mergeXlate d m (bits (staged m.regs 5) 0 40) = some (c, va, need) →
      exec .plmergeCompletion s = .next (match s.engFault (d * 256 + 7) m.sid 4 6 va need c m.pc (.merge d m.sn) with
        | none => s
        | some (tok, s1) => s1.modDie d fun y => { y with
            merges := y.merges.map fun x => if x.sn = m.sn then { x with tok } else x })) ∧
    (s.mergeUp d m (bits (staged m.regs 5) 0 40) = true → 1 < m.reps.length →
      s.mergeXlate d m (bits (staged m.regs 5) 0 40) = none →
      exec .plmergeCompletion s = .next ((s.mergeElems d m 0 (bits (staged m.regs 5) 0 40 / 4)).1.endMerge d m
        (!(s.mergeElems d m 0 (bits (staged m.regs 5) 0 40 / 4)).2))) ∧
    (∀ o r l b s1 gs s2, s.readSpan d m.g (gradOff m.regs m.nx r + o) 4 = .ok (b, s1) → s1.gradsAt d m o l = .ok (gs, s2) →
      s.gradsAt d m o (r :: l) = .ok (BitVec.ofNat 32 (natOfBytes b) :: gs, s2)) ∧
    ∀ k n g rest s' s1 h, s.gradsAt d m (4 * k) m.reps = .ok (g :: rest, s') →
      s'.engWrite d m.g (gradOff m.regs m.nx (m.reps.headD (0, 0, 0)) + 4 * k) (bytesOfNat 4 (rest.foldl addF32 g).toNat) =
        .ok (s1, h) →
      s.mergeElems d m k (n + 1) = s1.mergeElems d m (k + 1) n

/-- R265, R266: at a window's end a STABLE region with V and AUTO takes at most one action. It replicates, of the entries without PIN,
with fewer than four replicas and a load above HOT that some die can take, the one of the largest load, then of the lowest index: on
the die of the smallest load, then the lowest, that holds no replica of it and is loaded at most IDLE, in its lowest free slot. Only
where none replicates it retires, of the entries without PIN and SAT, with more than one replica and a load below COLD, from the one
of the smallest load, then of the lowest index. Replicating stages the next version with the new replica last and queues the copy of
replica 0's weights at core (7, 0) of the die; retiring stages it without the last replica and publishes. -/
def Sys2Proof.Claims.ControlLoop : Prop :=
  (∀ (s s1 : State) (l : Tab (Nat × Bool)) (k : Nat) (g : PlRegion), s.winColl = some l → s.regions = [(k, g)] → g.v = true →
    g.auto = true → g.st = .stable → exec .windowEnd { s with regions := [] } = .next { s1 with regions := [] } → s1.regions = [(k, g)] →
    exec .windowEnd s = .next (match s1.plAction g (s1.ownDies.map fun d => (d, s1.dieLoad d)) with
      | some a => s1.plAct k g a
      | none => s1)) ∧
  (∀ (rc : Word) (e : Word × Word), plLoad rc e =
    if rc.getLsbD 62 then 2 ^ 48 - 1 else bits rc 0 48 / (bits e.2 60 2 + 1)) ∧
  (∀ (s : State) (g : PlRegion) (loads : List (Nat × Nat)) (load : Nat → Word × Word → Nat) (cand : Nat → Word × Word → Prop),
    loads = (s.ownDies.map fun d => (d, s.dieLoad d)) → Tab.wf s.pltab = true →
    (∀ i e, load i e = plLoad (Tab.getD s.winRec (g.base + i) 0) e) →
    (∀ i e, cand i e ↔ (i, e) ∈ s.regionEntries g ∧ plPin e = false ∧ plCount e < 4 ∧ bits g.pol 32 32 < load i e ∧
      (s.replicaPlace g loads e).isSome) →
    (∀ i p, s.plAction g loads = some (i, some p) → ∃ e, cand i e ∧ s.replicaPlace g loads e = some p ∧
      ∀ j f, cand j f → load j f < load i e ∨ (load j f = load i e ∧ i ≤ j)) ∧
    (∀ i, s.plAction g loads = some (i, none) → (∀ j f, ¬cand j f) ∧ ∃ e, (i, e) ∈ s.regionEntries g ∧ plPin e = false ∧
      1 < plCount e ∧ (Tab.getD s.winRec (g.base + i) 0).getLsbD 62 = false ∧ load i e < bits g.pol 0 32 ∧
      ∀ j f, (j, f) ∈ s.regionEntries g → plPin f = false → 1 < plCount f → (Tab.getD s.winRec (g.base + j) 0).getLsbD 62 = false →
        load j f < bits g.pol 0 32 → load i e < load j f ∨ (load i e = load j f ∧ i ≤ j)) ∧
    (s.plAction g loads = none → (∀ j f, ¬cand j f) ∧ ∀ j f, (j, f) ∈ s.regionEntries g → plPin f = false → 1 < plCount f →
      (Tab.getD s.winRec (g.base + j) 0).getLsbD 62 = false → bits g.pol 0 32 ≤ load j f) ∧
    ∀ e d x, s.replicaPlace g loads e = some (d, x) → d ∈ s.ownDies ∧ (∀ r ∈ plReps e, r.1 * 8 + r.2.1 ≠ d) ∧
      s.dieLoad d ≤ s.plIdle.toNat ∧ s.freeSlotOf g d = some x ∧
      ∀ d', d' ∈ s.ownDies → (∀ r ∈ plReps e, r.1 * 8 + r.2.1 ≠ d') → s.dieLoad d' ≤ s.plIdle.toNat → (s.freeSlotOf g d').isSome →
        s.dieLoad d < s.dieLoad d' ∨ (s.dieLoad d = s.dieLoad d' ∧ d ≤ d')) ∧
  (∀ (s : State) (g : PlRegion) (d x : Nat), s.freeSlotOf g d = some x → x < g.nx ∧
    (∀ y ∈ s.regionEntries g, ∀ r ∈ plReps y.2, r.1 * 8 + r.2.1 = d → r.2.2 ≠ x) ∧
    ∀ z, z < x → ∃ y ∈ s.regionEntries g, ∃ r ∈ plReps y.2, r.1 * 8 + r.2.1 = d ∧ r.2.2 = z) ∧
  (∀ (s : State) (k i d x : Nat) (g : PlRegion) (e : Word × Word), e = s.plEntry (g.base + i) → plCount e < 4 → d < 256 → x < 1024 →
    i < 8192 → (s.core (d * 256 + 7)).sealed = false →
    ∃ e' cmd, (s.plAct k g (i, some (d, x))).plRegion k =
        { g with st := .building, staged := [(i, e')], last := 1, lent := BitVec.ofNat 13 i } ∧
      plCount e' = plCount e + 1 ∧ plV e' = plV e ∧ plPin e' = plPin e ∧ (∀ j, j < plCount e → plRep e' j = plRep e j) ∧
      plRep e' (plCount e) = (d / 8, d % 8, x) ∧
      ((s.plAct k g (i, some (d, x))).core (d * 256 + 7)).copyq = (s.core (d * 256 + 7)).copyq ++ [cmd] ∧ cmd.pl = some k ∧
      cmd.err = false ∧ cmd.src.space = 4 ∧ cmd.dst.space = 4 ∧ cmd.src.asid = g.asid ∧ cmd.dst.asid = g.asid ∧
      cmd.src.base = g.wb.toNat + g.slotNo (plRep e 0) * g.slotSize ∧ cmd.src.bound = g.slotSize ∧
      cmd.dst.base = g.wb.toNat + g.slotNo (d / 8, d % 8, x) * g.slotSize ∧ cmd.dst.bound = g.slotSize) ∧
  ∀ (s : State) (k i : Nat) (g : PlRegion) (e : Word × Word), e = s.plEntry (g.base + i) → 1 < plCount e →
    ∃ e', s.plAct k g (i, none) = s.setRegion k
        { g with st := .publishing, acks := [], staged := [(i, e')], last := 2, lent := BitVec.ofNat 13 i } ∧
      plCount e' + 1 = plCount e ∧ plV e' = plV e ∧ plPin e' = plPin e ∧ ∀ j, j < plCount e' → plRep e' j = plRep e j

/-- The distaff answers, publishes and retires versions, ends windows, replicates and retires replicas, and merges gradients. The
reading of log entry 35 is the model's own. -/
def Obligations.DistaffSteps : Prop :=
  Claims.DistaffSteps ∧ Claims.ControlLoop

/-! ## Collectives -/

/-- R338, R339: `clred` whose checks pass is on its way to its home die and counts on CL; a check that fails raises its trap. `clstat`
whose way is free gives the open collectives of the die and the strand's outstanding commands; with bit 0 of g(A) it first ends every
open collective that the strand has joined with CAUSE 4. -/
def Sys2Proof.Claims.CollectivesIssue : Prop :=
  (∀ w, (Instr.clred w).runs
    (fun _ _ t _ => t.pair = false ∧ bits (staged t.cl 2) 4 4 ≤ 2 ∧ bits (staged t.cl 2) 0 4 ∈ [2, 10, 11] ∧
      bits (staged t.cl 1) 0 16 < bits (staged t.cl 1) 16 16 ∧
      regionCheck (t.regionAt (bits (staged t.cl 4) 0 5)) (bits (staged t.cl 4) 0 5) (bits (staged t.cl 5) 0 40)
        (bits (staged t.cl 3) 0 13 * (if bits (staged t.cl 2) 0 4 = 10 then 2 else 4)) rR = none ∧
      regionCheck (t.regionAt (bits (staged t.cl 6) 0 5)) (bits (staged t.cl 6) 0 5) (bits (staged t.cl 7) 0 40)
        (bits (staged t.cl 3) 0 13 * (if bits (staged t.cl 2) 0 4 = 10 then 2 else 4)) rW = none ∧
      t.cwCheck (staged t.cl 8) (staged t.cl 9) = none)
    (fun s s1 t _ => (s1.fresh.2.modDie (dieOf t.core) fun y => { y with clq := y.clq ++ [{
        sn := s1.serial, sid := s.cur, core := t.core, pc := t.pc, regs := t.cl, src := t.regionAt (bits (staged t.cl 4) 0 5)
        dst := t.regionAt (bits (staged t.cl 6) 0 5), cw := t.regionAt (bits (staged t.cl 8) 0 5), asid := t.asid
        after := t.gate (w = 1) }] }).setStrand s.cur (t.countOn s1.serial [.cl]).advance)) ∧
  (∀ w, (Instr.clred w).runs (fun _ _ t _ => 2 < bits (staged t.cl 2) 4 4 ∨ bits (staged t.cl 2) 0 4 ∉ [2, 10, 11])
    (fun s _ t _ => s.trap s.cur t .engine 0x501)) ∧
  (∀ w, (Instr.clred w).runs
    (fun _ _ t _ => bits (staged t.cl 2) 4 4 ≤ 2 ∧ bits (staged t.cl 2) 0 4 ∈ [2, 10, 11] ∧
      bits (staged t.cl 1) 16 16 ≤ bits (staged t.cl 1) 0 16)
    (fun s _ t _ => s.trap s.cur t .engine 0x502)) ∧
  (∀ w c x, (Instr.clred w).runs
    (fun _ _ t _ => bits (staged t.cl 2) 4 4 ≤ 2 ∧ bits (staged t.cl 2) 0 4 ∈ [2, 10, 11] ∧
      bits (staged t.cl 1) 0 16 < bits (staged t.cl 1) 16 16 ∧
      firstFail [regionCheck (t.regionAt (bits (staged t.cl 4) 0 5)) (bits (staged t.cl 4) 0 5) (bits (staged t.cl 5) 0 40)
          (bits (staged t.cl 3) 0 13 * (if bits (staged t.cl 2) 0 4 = 10 then 2 else 4)) rR,
        regionCheck (t.regionAt (bits (staged t.cl 6) 0 5)) (bits (staged t.cl 6) 0 5) (bits (staged t.cl 7) 0 40)
          (bits (staged t.cl 3) 0 13 * (if bits (staged t.cl 2) 0 4 = 10 then 2 else 4)) rW,
        t.cwCheck (staged t.cl 8) (staged t.cl 9)] = some (c, x))
    (fun s _ t _ => s.trap s.cur t c x)) ∧
  (∀ a d w, (Instr.clstat a d w).runs (fun _ _ t v => t.gate (w = 1) = [] ∧ (v a).getLsbD 0 = false)
    (fun s s1 t _ => s1.finish s.cur t d (BitVec.ofNat 64 ((s1.die (dieOf t.core)).colls.length * 2 ^ 16 + t.count .cl % 2 ^ 16)))) ∧
  (∀ a d w, (Instr.clstat a d w).runs (fun _ _ t v => t.gate (w = 1) = [] ∧ t.pair = false ∧ (v a).getLsbD 0 = true)
    (fun s s1 t _ => ({ s1 with dies := s1.dies.map fun (x : Nat × Die) =>
        (x.1, x.2.endColls (fun c => c.members.any fun m => m.sid == s.cur) 4) }).finish s.cur t d
      (BitVec.ofNat 64 ((({ s1 with dies := s1.dies.map fun (x : Nat × Die) =>
        (x.1, x.2.endColls (fun c => c.members.any fun m => m.sid == s.cur) 4) }).die (dieOf t.core)).colls.length * 2 ^ 16
          + t.count .cl % 2 ^ 16)))) ∧
  ∀ (x : Die) (p : Coll → Bool) (cause : Nat), (∀ c, c ∈ (x.endColls p cause).colls ↔ c ∈ x.colls ∧ p c = false) ∧
    ∀ m, m ∈ (x.endColls p cause).clq ↔ m ∈ x.clq ∨ ∃ c ∈ x.colls, p c = true ∧ ∃ z ∈ c.members, m = { z with cause, fin := true }

/-- R131, R132, R338: a member begins, after the strand's earlier ones, by reading its source; then it goes to its home die, the die
of index (tag mod D) of the domain's, package-major. A source that cannot be read ends it alone: with CAUSE 6 for an uncorrectable word,
CAUSE 5 for a sealed core. A member that is done writes its word; one whose destination is still to be written writes that first. -/
def Sys2Proof.Claims.CollectiveSteps : Prop :=
  (∀ (s : State) (d : Nat) (x : ClCmd), d = s.ua → (s.die d).clq[s.ub]? = some x → x.fin = false → x.tok = 0 →
    (x.begun = false → s.mayBegin x.sid x.after = true → s.pairReady x.sid x.sn = true →
      (∀ y ∈ (s.die d).clq.take s.ub, y.sid = x.sid → y.begun = true ∨ y.fin = true) →
      ∀ r, r = s.readSpan (dieOf x.core) (s.follow x.sid x.src) (bits (staged x.regs 5) 0 40)
          (bits (staged x.regs 3) 0 13 * clWidth (bits (staged x.regs 2) 0 4)) →
        (∀ up, up = s.allUp (dieOf x.core) (s.follow x.sid x.src) (bits (staged x.regs 5) 0 40)
            (bits (staged x.regs 3) 0 13 * clWidth (bits (staged x.regs 2) 0 4)) accR →
          (up = false → exec .clredArrive s = .next s) ∧
          (∀ b s1, up = true → r = .ok (b, s1) → exec .clredArrive s = .next (s1.putCl d { x with begun := true, vec := b })) ∧
          (∀ k, up = true → r = .error (.bad k) → exec .clredArrive s = .next (s.putCl d { x with fin := true, cause := 6 })) ∧
          (∀ c, up = true → r = .error (.peer c) → exec .clredArrive s = .next (s.putCl d { x with fin := true, cause := 5 })))) ∧
    (x.begun = false → s.mayBegin x.sid x.after = false ∨ (∃ y ∈ (s.die d).clq.take s.ub, y.sid = x.sid ∧ y.begun = false ∧ y.fin = false) →
      exec .clredArrive s = .next s) ∧
    (x.begun = true → ∀ h, h = s.clHome (bits (staged x.regs 0) 0 32) →
      (s.pkgUp (h / 8) = true → exec .clredArrive s = .next (s.joinColl d h x)) ∧
      (s.pkgUp (h / 8) = false → exec .clredArrive s = .next s))) ∧
  (∀ (s : State) (tag i : Nat), i = tag % (8 * s.domain.length) → s.pkg.toNat < 32 →
    ∃ p, s.domain[i / 8]? = some p ∧ s.clHome tag = p * 8 + i % 8) ∧
  (∀ (s : State) (p : Nat), p ∈ s.domain ↔ p < 32 ∧ (p = s.pkg.toNat ∨ vget s.route p 0xFF ≠ 0xFF)) ∧
  (∀ (s : State) (d : Nat) (x : ClCmd), d = s.ua → (s.die d).clq[s.ub]? = some x →
    (x.fin = false → exec .clredCompletion s = .next s) ∧
    (x.fin = true → x.tok = 0 → x.cause ≠ 0 ∨ x.written = true → s.wordUp (dieOf x.core) x.sid x.cw (staged x.regs 9) = false →
      exec .clredCompletion s = .next s) ∧
    (x.fin = true → x.tok = 0 → x.cause ≠ 0 ∨ x.written = true → s.wordUp (dieOf x.core) x.sid x.cw (staged x.regs 9) = true →
      exec .clredCompletion s = .next ((s.modDie d fun y => { y with clq := y.clq.eraseIdx s.ub }).engEnd x.sid x.sn x.cw
        (staged x.regs 9) (BitVec.ofNat 64 ((if x.cause = 0 then 0 else 2 ^ 63 + x.cause * 2 ^ 56) + x.bytes)))) ∧
    (x.fin = true → x.tok = 0 → x.cause = 0 → x.written = false → (s.writeCl x).2.written = true →
      exec .clredCompletion s = .next ((s.writeCl x).1.putCl d (s.writeCl x).2))) ∧
  ∀ (s : State) (sid sn : Nat) (cw : Region) (cwr v : Word) (key : Nat), s.pairOf sid sn = none →
    (cwr.getLsbD 63 = false → s.isEast sid = false → (s.follow sid cw).addr (bits cwr 0 40) = .phys key →
      (s.engEnd sid sn cw cwr v).mem = (s.fillWord key v).mem ∧ (s.engEnd sid sn cw cwr v).full = (s.fillWord key v).full) ∧
    (cwr.getLsbD 63 = true → (s.engEnd sid sn cw cwr v).mem = s.mem ∧ (s.engEnd sid sn cw cwr v).full = s.full)

/-- R19, R338: the first member of an ASID and tag opens its collective, where the home die has fewer than 256 open, and fixes M, n,
OP and TY; a later one that differs in any of them, or repeats a position, ends alone with CAUSE 7. When the positions of all M have
come the collective leaves the die, and its result is written to the destination of each: of each element, the tree over the members'
elements in the order of their positions. The tree pairs neighbours, an odd last member passing up unchanged. -/
def Sys2Proof.Claims.CollectiveJoins : Prop :=
  (∀ (s s1 : State) (d h : Nat) (x : ClCmd) (c1 : Coll),
    s1 = s.modDie d (fun y => { y with clq := y.clq.filter fun z => !(z.sn == x.sn) }) →
    c1 = { asid := x.asid, tag := (staged x.regs 0).setWidth 32, m := bits (staged x.regs 1) 16 16, n := bits (staged x.regs 3) 0 13,
           op := bits (staged x.regs 2) 4 4, ty := bits (staged x.regs 2) 0 4, members := [x] } →
    ((s.die h).colls.find? (fun c => decide (c.asid = c1.asid) && decide (c.tag = c1.tag)) = none →
      (256 ≤ (s.die h).colls.length → s.joinColl d h x = s) ∧
      ((s.die h).colls.length < 256 → c1.m ≠ 1 → s.joinColl d h x = s1.modDie h fun y => { y with colls := y.colls ++ [c1] }) ∧
      ((s.die h).colls.length < 256 → c1.m = 1 →
        s.joinColl d h x = (s1.modDie h fun y => { y with colls := y.colls ++ [c1] }).closeColl h c1)) ∧
    ∀ c, (s.die h).colls.find? (fun c => decide (c.asid = c1.asid) && decide (c.tag = c1.tag)) = some c →
      (c1.m ≠ c.m ∨ c1.n ≠ c.n ∨ c1.op ≠ c.op ∨ c1.ty ≠ c.ty ∨
          (∃ z ∈ c.members, bits (staged z.regs 1) 0 16 = bits (staged x.regs 1) 0 16) →
        s.joinColl d h x = s.putCl d { x with fin := true, cause := 7 }) ∧
      (c1.m = c.m → c1.n = c.n → c1.op = c.op → c1.ty = c.ty →
          (∀ z ∈ c.members, bits (staged z.regs 1) 0 16 ≠ bits (staged x.regs 1) 0 16) →
        ∀ c2 s2, c2 = { c with members := c.members ++ [x] } →
          s2 = s1.modDie h (fun y => { y with colls := y.colls.map fun z => if z.asid = c2.asid ∧ z.tag = c2.tag then c2 else z }) →
          (c.members.length + 1 ≠ c.m → s.joinColl d h x = s2) ∧
          (c.members.length + 1 = c.m → s.joinColl d h x = s2.closeColl h c2))) ∧
  (∀ (s : State) (h : Nat) (c : Coll), s.closeColl h c =
    c.members.foldl (fun s m => (s.writeCl { m with vec := c.result, fin := true }).1.modDie h fun y => { y with
        clq := y.clq ++ [(s.writeCl { m with vec := c.result, fin := true }).2] })
      (s.modDie h fun y => { y with colls := y.colls.filter fun z => !(z.asid == c.asid && z.tag == c.tag) })) ∧
  (∀ (s : State) (x : ClCmd) (d o : Nat) (r : Region), d = dieOf x.core → r = s.follow x.sid x.dst → o = bits (staged x.regs 7) 0 40 →
    s.pairOf x.sid x.sn = none →
    (s.allUp d r o x.vec.length accW = false → s.writeCl x = (s, x)) ∧
    (∀ f, s.spanXlate d r o accW x.vec.length = some f → s.writeCl x = (s, x)) ∧
    (∀ s1, s.allUp d r o x.vec.length accW = true → s.spanXlate d r o accW x.vec.length = none →
      s.engWrite d r o x.vec = .ok (s1, none) →
      s.writeCl x = (s1, { x with written := true, cause := 0, bytes := x.vec.length })) ∧
    ∀ s1 k, s.allUp d r o x.vec.length accW = true → s.spanXlate d r o accW x.vec.length = none →
      s.engWrite d r o x.vec = .ok (s1, some k) →
      s.writeCl x = (s1, { x with written := true, cause := 5, bytes := s.engKept d r o x.vec.length })) ∧
  (∀ (c : Coll) (at_ : Nat → ClCmd) (k : Nat), 0 < c.m → k < c.n →
    (∀ p, p < c.m → (c.members.find? fun z => bits (staged z.regs 1) 0 16 == p) = some (at_ p) ∧
      (at_ p).vec.length = c.n * clWidth c.ty) →
    (elemsOf (clWidth c.ty) c.result c.n)[k]? = (treeFold (clNode c.op c.ty) ((List.range c.m).map fun p =>
      natOfBytes (((at_ p).vec.drop (k * clWidth c.ty)).take (clWidth c.ty))) c.m).head?.map fun v => v % 2 ^ (8 * clWidth c.ty)) ∧
  (∀ (ty a b : Nat) (y : Ty), clTy? ty = some y →
    clNode 1 ty a b = pickLane y true a b ∧ clNode 2 ty a b = pickLane y false a b ∧
    (ty = 2 → clNode 0 ty a b = (a + b) % 2 ^ 32) ∧ (ty ≠ 2 → clNode 0 ty a b = ((fmtOf y).add .rne a b).1)) ∧
  (∀ (α : Type) (f : α → α → α) (a b c d e : α),
    treeFold f [a] 1 = [a] ∧ treeFold f [a, b] 2 = [f a b] ∧ treeFold f [a, b, c] 3 = [f (f a b) c] ∧
    treeFold f [a, b, c, d] 4 = [f (f a b) (f c d)] ∧ treeFold f [a, b, c, d, e] 5 = [f (f (f a b) (f c d)) e]) ∧
  ∀ (α : Type) (f : α → α → α) (l : List α), l ≠ [] → ∃ r, treeFold f l l.length = [r]

/-- Clred and clstat issue; members open and join a collective, whose tree in position order is written to each, with its word. The
reading of log entry 39 is the model's own. -/
def Obligations.Collectives : Prop :=
  Claims.CollectivesIssue ∧ Claims.CollectiveSteps ∧ Claims.CollectiveJoins

/-! ## Errors, seals and pairs -/

/-- R131, R137, R314, R316 to R318, R323, R326: a scrubber that finds a corrected error counts it, one that finds an uncorrectable
error poisons the word and counts it, and neither changes a byte. A seal leaves its core sealed and empty. Copies of a pair's message
that agree are merged, and so are the messages, the reads of a step and the commands of its engines; copies that differ, a copy whose
partner has ended, and one held for 65,536 cycles are a mismatch, which counts PAIRMIS and seals both cores. A word that is poisoned
already is not counted again. The readings of log entries 29, 38, 40, 50, 68 and 71 are the model's own. -/
def Obligations.ErrorsAndPairs : Prop :=
  (∀ (i : Instr) (ce ue : Nat), (i, ce, ue) ∈ [(Instr.l2Scrub, 1, 2), (.dramScrub, 5, 6)] → ∀ s : State,
    (s.ub % 4 = 0 → exec i s = .next s) ∧
    (s.ub % 4 = 1 → exec i s = .next (s.countErr (s.ub / 4) ce)) ∧
    (s.ub % 4 = 2 → ∃ s', exec i s = .next s' ∧ s'.mem = s.mem ∧ s'.full = s.full ∧ s'.poisoned (s.ua / 8 * 8) 8 = true ∧
      (∀ k, k / 8 ≠ s.ua / 8 → s'.poisoned (k / 8 * 8) 8 = s.poisoned (k / 8 * 8) 8) ∧
      (s.poison.contains (s.ua / 8) = false → vget (s.die (s.ub / 4)).errs ue 0 ≠ BitVec.allOnes 64 →
        vget (s'.die (s.ub / 4)).errs ue 0 = vget (s.die (s.ub / 4)).errs ue 0 + 1) ∧
      (s.poison.contains (s.ua / 8) = true → s' = s)) ∧
    (s.ub % 4 = 3 → exec i s = .next ((s.countErr (s.ub / 4) ce).countErr (s.ub / 4) 7))) ∧
  (∀ (s : State) (c : Nat), (s.core c).sealed = false →
    ((s.sealOne c).core c).sealed = true ∧ ((s.sealOne c).core c).slots = Vector.replicate 8 .free ∧
    ((s.sealOne c).core c).ports = Vector.replicate 8 {} ∧ ((s.sealOne c).core c).mxq = [] ∧
    ((s.sealOne c).core c).table = none ∧ ((s.sealOne c).core c).opslots = [] ∧ ((s.sealOne c).core c).cache = []) ∧
  (∀ (s : State) (t u : Strand) (p : Nat), s.strand? s.ua = some t → t.pair = true → t.core % 16 < 8 → t.partner = some p →
    s.strand? p = some u →
    (t.st = .ended → s.hasMerged s.ua t = false → s.hasMerged p u = true → exec .pairMergeCompare s = .next (s.pairMismatch s.ua p)) ∧
    (u.st = .ended → s.hasMerged s.ua t = true → s.hasMerged p u = false → exec .pairMergeCompare s = .next (s.pairMismatch s.ua p)) ∧
    (∀ a b ra rb, t.ops = a :: ra → u.ops = b :: rb → s.merges t a.kind = true → s.merges u b.kind = true →
      (a.kind.same b.kind = true → exec .pairMergeCompare s = .next (s.mergeOps s.ua p a b)) ∧
      (a.kind.same b.kind = false → exec .pairMergeCompare s = .next (s.pairMismatch s.ua p))) ∧
    (t.ops = [] → ∀ a b ra rb, t.msgs = a :: ra → u.msgs = b :: rb →
      (a.same b = true → exec .pairMergeCompare s = .next (s.mergeMsgs s.ua p a b)) ∧
      (a.same b = false → exec .pairMergeCompare s = .next (s.pairMismatch s.ua p))) ∧
    (t.ops = [] → t.msgs = [] → t.st ≠ .ended → u.st ≠ .ended →
      (∀ a b, s.pairMatch s.ua p t u = some (a, b) → exec .pairMergeCompare s = .next
        (if a.act ≠ b.act then s.pairMismatch s.ua p else if a.act.isRead = true then s.mergeReads a b else s.mergeWrites a b)) ∧
      (∀ a b, s.pairMatch s.ua p t u = none → s.heldMsg t = some a → s.heldMsg u = some b → a ≠ b →
        exec .pairMergeCompare s = .next (s.pairMismatch s.ua p)) ∧
      (∀ a b, s.pairMatch s.ua p t u = none → s.heldMsg t = none → s.pairDue s.ua p = some (a, b) →
        s.mayBegin s.ua a.after = false ∨ s.mayBegin p b.after = false → exec .pairMergeCompare s = .next s) ∧
      ∀ a b, s.pairMatch s.ua p t u = none → s.heldMsg t = none → s.pairDue s.ua p = some (a, b) →
        s.mayBegin s.ua a.after = true → s.mayBegin p b.after = true → exec .pairMergeCompare s = .next
          (if s.pairSame a b = true then s.pairAgree a b else s.pairMismatch s.ua p)) ∧
    (∀ a ra, t.ops = a :: ra → s.merges t a.kind = true → u.ops = [] → a.since + 65536 ≤ s.cycle →
      exec .pairTimeout s = .next (s.pairMismatch s.ua p)) ∧
    (∀ m rm, t.msgs = m :: rm → u.msgs = [] → m.since + 65536 ≤ s.cycle → exec .pairTimeout s = .next (s.pairMismatch s.ua p)) ∧
    (t.ops = [] → u.ops = [] → t.msgs = [] → u.msgs = [] → s.pairCmds = [] → s.pairWrites = [] → s.heldMsg t = none →
      s.heldMsg u = none → exec .pairTimeout s = .next s ∧ exec .pairMergeCompare s = .next s)) ∧
  (∀ (s s0 : State) (a b : PairWrite), s0 = { s with pairWrites := (s.pairWrites.erase a).erase b } →
    (s.actUp a.act = false → s.mergeWrites a b = s) ∧
    ((∀ k ∈ s0.cores, s0.engGo a.sid a.sn k.1 = none) → s.mergeReads a b = s) ∧
    ∀ s1, (s0.cores.findSome? fun k => s0.engGo a.sid a.sn k.1) = some s1 →
      ((∀ k ∈ s1.cores, s1.engGo b.sid b.sn k.1 = none) → s.mergeReads a b = s) ∧
      ∀ s2, (s1.cores.findSome? fun k => s1.engGo b.sid b.sn k.1) = some s2 → s.mergeReads a b = s2) ∧
  ∀ (s : State) (w e : Nat) (t u : Strand), s.strand? w = some t → s.strand? e = some u →
    (∀ c k, t.loc = .slot c k → c % 16 < 8 → s.pairMismatch w e = ((s.countErr (dieOf c) 9).sealOne c).sealOne (c + 8)) ∧
    (∀ c k, t.loc = .gone → u.loc = .slot c k → 8 ≤ c % 16 →
      s.pairMismatch w e = ((s.countErr (dieOf c) 9).sealOne (c - 8)).sealOne c) ∧
    ∀ c x, t.loc = .gone → u.loc = .gone → x = s.group t.group → c = x.core0 + t.index / x.s % x.w + 16 * (t.index / x.s / x.w) →
      c % 16 < 8 → s.pairMismatch w e = ((s.countErr (dieOf c) 9).sealOne c).sealOne (c + 8)

/-! ## The host -/

/-- R327, R328, R330: the host's accesses. Memory is read and written unless the package is Off or Wiping; then the window answers STATE
alone. Its registers SYSDESC, TENTAB and ASIDTAB are written in Ready and Run. A doorbell sets TAIL of a ring that the host produces, or
HEAD of one that the device produces; an index that moves backward, or overfills the ring, a descriptor without V, and a doorbell for
no ring send BADRING and change nothing. The readings of log entries 43 and 47 are the model's own. -/
def Obligations.HostAccesses : Prop :=
  (∀ (s : State) (pa n : Nat), s.acc = .read pa n → exec .hostAccess s = .next (
    if s.power ≠ .off ∧ s.power ≠ .wiping ∧ s.hostRange pa n = true then { s with toHost := s.toHost ++ [.data (s.readBytes pa n)] }
    else s)) ∧
  (∀ (s : State) (pa : Nat) (b : List Byte), s.acc = .write pa b → exec .hostAccess s = .next (
    if s.power ≠ .off ∧ s.power ≠ .wiping ∧ s.hostRange pa b.length = true then s.writeBytes pa b else s)) ∧
  (∀ (s : State) (off : Nat), s.acc = .winRead off → exec .hostAccess s = .next (
    if (s.power ≠ .off ∧ s.power ≠ .wiping) ∨ off = 0 then { s with toHost := s.toHost ++ [.data (wordBytes (s.winReg off))] }
    else s)) ∧
  (∀ (s : State) (off : Nat) (v : Word), s.acc = .winWrite off v →
    (s.power ≠ .ready → s.power ≠ .run → exec .hostAccess s = .next s) ∧
    (s.power = .ready ∨ s.power = .run →
      (off = 8 → exec .hostAccess s = .next { s with sysdesc := v }) ∧
      (off = 0x10 → exec .hostAccess s = .next { s with tentab := v }) ∧
      (off = 0x18 → exec .hostAccess s = .next { s with asidtab := v }) ∧
      (∀ t, doorbellOf off = some t → bits v 32 3 = 7 → exec .hostAccess s = .next (s.badRing t 7)))) ∧
  (∀ (s : State) (t : Option Nat) (ring : Nat), s.badRing t ring = s.sendEvent
    (if (∃ d, s.desc? t = some d ∧ s.descValid d = true) then t else none) .badring 0 0 ring) ∧
  (∀ (i : Instr) (ring : Nat), (i, ring) ∈ [(Instr.launchRingDoorbell, 0), (.launchRingDoorbell, 1), (.launchRingDoorbell, 2),
      (.launchRingDoorbell, 3), (.eventRingDoorbell, 4), (.faultRingDoorbell, 5), (.commandRingDoorbell, 6)] →
    ∀ (s : State) (off : Nat) (v : Word) (t : Option Nat), s.acc = .winWrite off v → s.power = .ready ∨ s.power = .run →
    doorbellOf off = some t → bits v 32 3 = ring →
    (s.desc? t = none → exec i s = .next (s.badRing t ring)) ∧
    (∀ d, s.desc? t = some d → s.descValid d = false ∨ (ring = 6 ∧ t ≠ none) → exec i s = .next (s.badRing t ring)) ∧
    ∀ d r, (ring = 6 → t = none) → s.desc? t = some d → s.descValid d = true →
      r = s.ringAt (d + (if ring < 4 then 0x20 + 16 * ring else if ring = 4 then 0x60 else if ring = 5 then 0x70 else 0x90)) →
      (ring ∉ [4, 5] → (bits v 0 32 + 2 ^ 32 - r.tail) % 2 ^ 32 < 2 ^ 31 → (bits v 0 32 + 2 ^ 32 - r.head) % 2 ^ 32 ≤ 2 ^ r.logn →
        exec i s = .next (s.putTail (d + ringOffset ring) (bits v 0 32))) ∧
      (ring ∈ [4, 5] → (bits v 0 32 + 2 ^ 32 - r.head) % 2 ^ 32 < 2 ^ 31 → (r.tail + 2 ^ 32 - bits v 0 32) % 2 ^ 32 ≤ 2 ^ r.logn →
        exec i s = .next (s.putHead (d + ringOffset ring) (bits v 0 32))) ∧
      (ring ∉ [4, 5] → 2 ^ 31 ≤ (bits v 0 32 + 2 ^ 32 - r.tail) % 2 ^ 32 → exec i s = .next (s.sendEvent t .badring 0 0 ring)) ∧
      (ring ∈ [4, 5] → 2 ^ 31 ≤ (bits v 0 32 + 2 ^ 32 - r.head) % 2 ^ 32 → exec i s = .next (s.sendEvent t .badring 0 0 ring)) ∧
      (ring ∉ [4, 5] → 2 ^ r.logn < (bits v 0 32 + 2 ^ 32 - r.head) % 2 ^ 32 → exec i s = .next (s.sendEvent t .badring 0 0 ring)) ∧
      (ring ∈ [4, 5] → 2 ^ r.logn < (r.tail + 2 ^ 32 - bits v 0 32) % 2 ^ 32 → exec i s = .next (s.sendEvent t .badring 0 0 ring)))

/-- R328, R332: the next command is the 64 bytes at HEAD of the command ring of a valid system descriptor, in Ready and Run. It ends
with HEAD past it and CMDDONE, whose words are its TAG and its status, 0 OK, 1 BUSY, 2 BADARG. -/
def Sys2Proof.Claims.CommandRing : Prop :=
  ∀ s : State,
    (∀ x, s.command? = some x ↔ (s.power = .ready ∨ s.power = .run) ∧ ∃ d, s.desc? none = some d ∧ s.descValid d = true ∧
      (s.ringAt (d + 0x90)).count ≠ 0 ∧
      s.readVirt s.ioDie 0 ((s.ringAt (d + 0x90)).entry (s.ringAt (d + 0x90)).head 64) 64 = .ok x) ∧
    ∀ b d x code, s.desc? none = some d → (x, code) ∈ [(CmdStatus.ok, 0), (.busy, 1), (.badArg, 2)] → s.endCommand b x =
      (s.putHead (d + 0x90) (((s.ringAt (d + 0x90)).head + 1) % 2 ^ 32)).sendEvent none .cmddone (bits (dwordAt b 0) 32 32) code 0

/-- R296, R305, R308, R311, R336, R340, R341: what each command of the address spaces, the tenants, the wakes, the tick, the tier, the
route and the measurements does. INVAL waits while a write of the address space, translated already, stands at a router. -/
def Sys2Proof.Claims.CommandEffects : Prop :=
  ∀ (s s1 : State) (b : List Byte), s.command? = some (b, s1) →
    (cmdOpc b = 1 → ∀ t, t = (dwordAt b 1).toNat →
      (64 ≤ t → exec .tenant s = .next (s1.endCommand b .badArg)) ∧
      (t < 64 → (∃ g ∈ s1.groups, g.2.ended = false ∧ g.2.tenant.toNat = t) → exec .tenant s = .next (s1.endCommand b .busy)) ∧
      (t < 64 → (∀ g ∈ s1.groups, g.2.ended = true ∨ g.2.tenant.toNat ≠ t) →
        exec .tenant s = .next (({ s1 with tenants := Tab.set s1.tenants t (dwordAt b 2) }).endCommand b .ok))) ∧
    (cmdOpc b = 2 → ∀ a root ten, a = (dwordAt b 1).toNat → root = dwordAt b 2 → ten = dwordAt b 3 → a < 4096 → ten.toNat < 64 →
      root.toNat < 2 ^ 52 → root.toNat % 1024 = 0 → s1.asidGen (BitVec.ofNat 12 a) ≠ 0xFF →
      exec .asidset s = .next ((s1.writeBytes (s1.asidtab.toNat + 16 * a) (wordBytes (bit63 ||| root |||
        (s1.asidGen (BitVec.ofNat 12 a) + 1).setWidth 64) ++ wordBytes (BitVec.ofNat 64 ten.toNat))).endCommand b .ok)) ∧
    (cmdOpc b = 2 → ∀ a root ten, a = (dwordAt b 1).toNat → root = dwordAt b 2 → ten = dwordAt b 3 → a < 4096 → ten.toNat < 64 →
      root.toNat < 2 ^ 52 → root.toNat % 1024 = 0 → s1.asidGen (BitVec.ofNat 12 a) = 0xFF →
      ∃ s2 : State, exec .asidset s = .next (s2.endCommand b .ok) ∧
        s2 = { s1.writeBytes (s1.asidtab.toNat + 16 * a) (wordBytes (bit63 ||| root) ++ wordBytes (BitVec.ofNat 64 ten.toNat)) with
          dies := s2.dies } ∧
        ∀ d, (∀ e, e ∈ (s2.die d).tlb ↔ e ∈ (s1.die d).tlb ∧ e.asid.toNat ≠ a) ∧
          ∀ e, e ∈ (s2.die d).wcache ↔ e ∈ (s1.die d).wcache ∧ e.asid.toNat ≠ a) ∧
    (cmdOpc b = 2 → (4096 ≤ (dwordAt b 1).toNat ∨ 64 ≤ (dwordAt b 3).toNat ∨ 2 ^ 52 ≤ (dwordAt b 2).toNat ∨
      (dwordAt b 2).toNat % 1024 ≠ 0) → exec .asidset s = .next (s1.endCommand b .badArg)) ∧
    (cmdOpc b = 3 → s.heldWrites (dwordAt b 1).toNat = true → exec .inval s = .next s) ∧
    (cmdOpc b = 3 → 4096 ≤ (dwordAt b 1).toNat → exec .inval s = .next (s1.endCommand b .badArg)) ∧
    (cmdOpc b = 3 → (dwordAt b 1).toNat < 4096 → s.heldWrites (dwordAt b 1).toNat = false → ∃ s2 : State, exec .inval s = .next (s2.endCommand b .ok) ∧ s2 = { s1 with dies := s2.dies } ∧
      ∀ d, (∀ e, e ∈ (s2.die d).tlb ↔ e ∈ (s1.die d).tlb ∧ ¬(e.asid.toNat = (dwordAt b 1).toNat ∧
          e.va < (dwordAt b 2).toNat + (dwordAt b 3).toNat ∧ (dwordAt b 2).toNat < e.va + e.size)) ∧
        ∀ e, e ∈ (s2.die d).wcache ↔ e ∈ (s1.die d).wcache ∧ ¬(e.asid.toNat = (dwordAt b 1).toNat ∧
          e.va < (dwordAt b 2).toNat + (dwordAt b 3).toNat ∧ (dwordAt b 2).toNat < e.va + levelSpan e.lvl)) ∧
    (cmdOpc b = 4 → (Tab.get? s1.stalls (dwordAt b 1).toNat = none → exec .wake s = .next (s1.endCommand b .ok)) ∧
      ∀ x, Tab.get? s1.stalls (dwordAt b 1).toNat = some x → exec .wake s = .next ((({ s1 with
        stalls := Tab.erase s1.stalls (dwordAt b 1).toNat }).resumeStalled (dwordAt b 1).toNat x).endCommand b .ok)) ∧
    (cmdOpc b = 6 → ((dwordAt b 1).toNat < 1000000 ∨ 1000000000 < (dwordAt b 1).toNat → exec .hostTick s = .next (s1.endCommand b .badArg)) ∧
      (1000000 ≤ (dwordAt b 1).toNat → (dwordAt b 1).toNat ≤ 1000000000 → exec .hostTick s =
        .next (({ s1 with tickpNext := BitVec.ofNat 32 (dwordAt b 1).toNat }).endCommand b .ok))) ∧
    (cmdOpc b = 7 → ∃ s2 : State, exec .victim s = .next (s2.endCommand b .ok) ∧ s2 = { s1 with dies := s2.dies } ∧
      ∀ d, d < 8 → (s2.die (s1.pkg.toNat * 8 + d)).victim = (dwordAt b 1).getLsbD d) ∧
    (cmdOpc b = 8 → (dwordAt b 1).toNat = s1.pkg.toNat → exec .route s =
      .next (({ s1 with route := Vector.ofFn fun i => (b.drop 16).getD i.val 0xFF }).endCommand b .ok)) ∧
    (cmdOpc b = 8 → (dwordAt b 1).toNat < 32 → (dwordAt b 1).toNat ≠ s1.pkg.toNat →
      ((∃ g ∈ s1.groups, g.2.ended = false) ∨ s1.waitHdrs ≠ [] → exec .route s = .next (s1.endCommand b .busy)) ∧
      ((∀ g ∈ s1.groups, g.2.ended = true) → s1.waitHdrs = [] → (∀ q ∈ s1.queues, q.entries = []) →
        ∃ s2 : State, exec .route s = .next (s2.endCommand b .ok) ∧ s2.pkg.toNat = (dwordAt b 1).toNat ∧
          s2.route = (Vector.ofFn fun i => (b.drop 16).getD i.val 0xFF))) ∧
    (cmdOpc b = 8 → 32 ≤ (dwordAt b 1).toNat → exec .route s = .next (s1.endCommand b .badArg)) ∧
    (cmdOpc b = 9 → s1.life = 0 ∨ s1.identity = none → exec .attest s = .next (s1.endCommand b .badArg)) ∧
    (cmdOpc b = 9 → s1.life ≠ 0 → ∀ k nonce body s2 s3, s1.identity = some k →
      s1.readVirt s1.ioDie 0 (dwordAt b 1).toNat 32 = .ok (nonce, s2) →
      body = wordBytes (BitVec.ofNat 64 (1 + s2.life.toNat * 2 ^ 16 + s2.step.toNat * 2 ^ 18)) ++ wordBytes Config.packageSerial ++
        nonce ++ digestBytes (vget s2.mr 0 0) ++ digestBytes (vget s2.mr 1 0) ++ digestBytes (vget s2.mr 2 0) ++
        digestBytes (vget s2.mr 3 0) ++ Slh.publicKey k ++ List.replicate 16 0 →
      s2.writeVirt s1.ioDie 0 (dwordAt b 2).toNat (body ++ Slh.sign k (padTo 32 (Config.signNonce body)) body) = .ok s3 →
      exec .attest s = .next (s3.endCommand b .ok)) ∧
    (cmdOpc b = 11 → (dwordAt b 1).toNat < 64 → exec .kill s = .next ((s1.killTenant (dwordAt b 1).toNat).endCommand b .ok)) ∧
    (cmdOpc b = 12 → ∀ data s2, s1.readVirt s1.ioDie 0 (dwordAt b 1).toNat (dwordAt b 2).toNat = .ok (data, s2) →
      exec .extend s = .next (({ s2 with mr := vset s2.mr 2 (extendMr (vget s2.mr 2 0) data) }).endCommand b .ok))

/-- The command ring and its commands. The readings of log entries 7, 9, 42, 49 and 71 are the model's own. -/
def Obligations.HostCommands : Prop :=
  Claims.CommandRing ∧ Claims.CommandEffects

/-- R333, R334: a wipe leaves the package in the state it names with no byte of memory, no full word, no poison, no strand, no group
and no cache of its own, its number 0 and its routes 0; it keeps the life-cycle state, the identity key pair, the firmware’s
verification and the measurement registers but MR2. What other packages hold stays, as log entry 44 reads it. -/
def Sys2Proof.Claims.Wipe : Prop :=
  ∀ (s : State) (p : Power), (s.wiped p).power = p ∧ (s.wiped p).launches = [] ∧ (s.wiped p).regions = [] ∧ (s.wiped p).life = s.life ∧
    (∀ i, i < 4 → vget (s.wiped p).mr i 0 = if i = 2 then 0 else vget s.mr i 0) ∧ (s.wiped p).identity = s.identity ∧
    (s.wiped p).fwOk = s.fwOk ∧ (s.wiped p).pkg = 0 ∧ (∀ i, i < 32 → vget (s.wiped p).route i 1 = 0) ∧
    (∀ a, keyPkg a = 0 → Memory.read (s.wiped p).mem a = 0 ∧ (s.wiped p).isFull a = false ∧
      (s.wiped p).poison.contains (a / 8) = false) ∧
    (Memory.wf s.mem = true → ∀ a, keyPkg a ≠ 0 → Memory.read (s.wiped p).mem a = Memory.read s.mem (swapPkg s.pkg.toNat 0 a)) ∧
    (∀ c, c < 2048 → (s.wiped p).core c = {}) ∧ (∀ r, r < 128 → Tab.get? (s.wiped p).clusters r = none) ∧
    (∀ d, d < 8 → ∃ w t h, (s.wiped p).die d = { power := w, temp := t, throttled := h }) ∧
    (∀ y, y ∈ (s.wiped p).strands ↔ y ∈ s.strands ∧ y.2.loc ≠ .gone ∧ y.2.core / 2048 ≠ s.pkg.toNat ∧ y.2.core / 2048 ≠ 0) ∧
    (∀ g, g ∈ (s.wiped p).groups ↔ g ∈ s.groups ∧ ∃ y ∈ (s.wiped p).strands, y.2.group = g.1) ∧
    (s.pkg = 0 → (∀ c, 2048 ≤ c → (s.wiped p).core c = s.core c) ∧
      (∀ d, 8 ≤ d → (s.wiped p).die d = s.die d) ∧
      ∀ a, keyPkg a ≠ 0 → (s.wiped p).isFull (a / 8 * 8) = s.isFull (a / 8 * 8) ∧
        (s.wiped p).poison.contains (a / 8) = s.poison.contains (a / 8))

/-- R315, R332 to R334, R340: the POWER commands and LIFECYCLE, power-on and the wipe's end. Which argument of POWER stands for which
state is the model's choice (log entry 11). -/
def Sys2Proof.Claims.PowerStates : Prop :=
  (∀ (s s1 : State) (b : List Byte), s.power = .ready ∨ s.power = .run → s.command? = some (b, s1) → s1.power = s.power →
    (cmdOpc b = 5 → powerArg b = 3 → (s.power = .ready → exec .powerReady s = .next (s1.endCommand b .badArg)) ∧
      (s.power = .run → (∃ g ∈ s1.groups, g.2.ended = false) → exec .powerReady s = .next (s1.endCommand b .busy)) ∧
      (s.power = .run → (∀ g ∈ s1.groups, g.2.ended = true) → exec .powerReady s = .next (({ s1 with
        power := .ready, ticks := 0, tickTime := 0, rr := Vector.replicate 4 0, winTicks := 0
        dies := s1.dies.map fun (d : Nat × Die) => (d.1, { d.2 with dxSerial := 0 }) }).endCommand b .ok))) ∧
    (cmdOpc b = 5 → powerArg b = 4 → (3 < stepArg b → exec .powerRun s = .next (s1.endCommand b .badArg)) ∧
      (stepArg b ≤ 3 → ∃ s2 : State, exec .powerRun s = .next (s2.endCommand b .ok) ∧ s2.power = .run ∧ s2.step.toNat = stepArg b ∧
        s2.mem = s1.mem ∧ s2.strands = s1.strands ∧ (s.power = .ready → s2.tickTime = 0) ∧
        ∀ d, d < 8 → (s2.die (s1.pkg.toNat * 8 + d)).dected = (Config.fuses (s1.pkg.toNat * 8 + d)).getLsbD (stepArg b))) ∧
    (cmdOpc b = 5 → powerArg b = 0 → exec .powerOff s = .next ((s1.endCommand b .ok).wiped .off)) ∧
    (cmdOpc b = 5 → powerArg b ∉ [0, 3, 4] → s.power = .run →
      ((∀ x ∈ s1.cores, (s1.maskDies (maskArg b)).contains (dieOf x.1) = true → x.2.slots = Vector.replicate 8 .free) →
        ∃ s2 : State, exec .powerPark s = .next (s2.endCommand b .ok) ∧ s2 = { s1 with dies := s2.dies } ∧
          ∀ d, d < 8 → (maskArg b).getLsbD d = true → (s2.die (s1.pkg.toNat * 8 + d)).parked = true) ∧
      ((∃ x ∈ s1.cores, (s1.maskDies (maskArg b)).contains (dieOf x.1) = true ∧ ∃ k, k < 8 ∧ vget x.2.slots k .free ≠ .free) →
        exec .powerPark s = .next (s1.endCommand b .busy)) ∧
      ∃ s2 : State, exec .powerUnpark s = .next (s2.endCommand b .ok) ∧ s2 = { s1 with dies := s2.dies } ∧
        ∀ d, d < 8 → (maskArg b).getLsbD d = true → (s2.die (s1.pkg.toNat * 8 + d)).parked = false) ∧
    (cmdOpc b = 10 → ((dwordAt b 1).toNat ≤ s1.life.toNat ∨ 2 < (dwordAt b 1).toNat → exec .lifecycle s = .next (s1.endCommand b .badArg)) ∧
      (s1.life.toNat < (dwordAt b 1).toNat → (dwordAt b 1).toNat ≤ 2 → ∃ s', exec .lifecycle s = .next s' ∧
        s'.power = .wiping ∧ s'.life.toNat = (dwordAt b 1).toNat ∧ (∀ a, keyPkg a = 0 → Memory.read s'.mem a = 0) ∧
        s'.identity = some (s1.identity.getD identitySeeds) ∧
        vget s'.mr 3 0 = extendMr (vget s1.mr 3 0) (Config.lifeMeasure s1.life.toNat (dwordAt b 1).toNat)))) ∧
  (∀ s : State, s.power = .wiped → exec .powerReady s = .next (if s.fwOk then { s with
      power := .ready, ticks := 0, tickTime := 0, rr := Vector.replicate 4 0, winTicks := 0
      dies := s.dies.map fun (d : Nat × Die) => (d.1, { d.2 with dxSerial := 0 }) } else s)) ∧
  (∀ s : State, s.power = .wiped ∨ s.power = .wiping → exec .powerOff s = .next (s.wiped .off)) ∧
  (∀ s : State, ∃ s', exec .powerOnReset s = .next s' ∧ s' = { s.wiped .wiping with fwOk := firmwareHolds, mr := s'.mr } ∧
    vget s'.mr 0 0 = extendMr 0 fwImage ∧
    vget s'.mr 1 0 = extendMr 0 Config.mgmtConfig ∧ vget s'.mr 2 0 = 0 ∧ vget s'.mr 3 0 = 0) ∧
  ∀ s : State, (s.power = .wiping → exec .wipeComplete s = .next (s.wiped .wiped)) ∧
    (s.power ≠ .wiping → exec .wipeComplete s = .next s)

/-- Power, life-cycle and the wipe. The readings of log entries 3, 6, 7, 11, 42 and 44 are the model's own. -/
def Obligations.PowerAndWipe : Prop :=
  Claims.Wipe ∧ Claims.PowerStates

/-- R335, R336: a junction at 95 °C sends THERMAL, at 105 °C the cores skip issue in alternate cycles, and below 100 °C on every die
they issue in every cycle again. A flit whose CRC holds ends a row of failures; one that fails is counted; after 16 failures no flit
comes, the link is down and LINKDOWN is sent. The readings of log entries 45 and 47 are the model's own. -/
def Obligations.HeatAndLinks : Prop :=
  ∀ s : State,
    (950 ≤ s.ub → (s.die s.ua).temp < 950 →
      exec .thermal s = .next ((s.modDie s.ua fun x => { x with temp := s.ub }).sendEvent none .thermal 0 0 s.ua)) ∧
    (1050 ≤ s.ub → 950 ≤ (s.die s.ua).temp → ∃ s', exec .thermalThrottle s = .next s' ∧ s' = { s with dies := s'.dies } ∧
      (s'.die s.ua).temp = s.ub ∧ ∀ d, d < 8 → (s'.die (s.pkg.toNat * 8 + d)).throttled = true) ∧
    (s.ub < 1000 → s.ub < (s.die s.ua).temp → ∃ s', exec .temperatureFall s = .next s' ∧ s' = { s with dies := s'.dies } ∧
      (s'.die s.ua).temp = s.ub ∧
      ((∀ d, d < 8 → s.pkg.toNat * 8 + d ≠ s.ua → (s.die (s.pkg.toNat * 8 + d)).temp < 1000) →
        ∀ d, d < 8 → (s'.die (s.pkg.toNat * 8 + d)).throttled = false)) ∧
    (∀ c, s.power = .run → (s.die (dieOf c)).throttled = true → s.cycle % 2 = 1 → s.issueTurn c = .next s) ∧
    (s.ua < 16 → s.linksDown.contains s.ua = false →
      (16 ≤ Tab.getD s.linkFails s.ua 0 → exec .linkFlit s = .next s) ∧
      (Tab.getD s.linkFails s.ua 0 < 16 → s.ub = 0 → exec .linkFlit s = .next { s with linkFails := Tab.erase s.linkFails s.ua }) ∧
      (Tab.getD s.linkFails s.ua 0 < 16 → s.ub ≠ 0 → ∃ s', exec .linkFlit s = .next s' ∧ Tab.getD s'.linkFails s.ua 0 = Tab.getD s.linkFails s.ua 0 + 1 ∧
        s'.mem = s.mem ∧ (s'.die (s.pkg.toNat * 8 + s.ua / 2)).flits = (s.die (s.pkg.toNat * 8 + s.ua / 2)).flits + 1)) ∧
    (s.linksDown.contains s.ua = false → 16 ≤ Tab.getD s.linkFails s.ua 0 → exec .linkdown s =
      .next (({ s with linksDown := keyInsert s.ua s.linksDown, linkFails := Tab.erase s.linkFails s.ua }).sendEvent none .linkdown
        0 0 s.ua)) ∧
    (Tab.getD s.linkFails s.ua 0 < 16 → exec .linkdown s = .next s)
end

