-- ==== Sys2Proof/Laws/Issue.lean ====
section
/-! SUPPORT. What `issue` does, said once: an instruction that issues is performed on the state with its pops made; one that does
not leaves the state as it is or parks its strand. -/

namespace Sys2Proof.Machine

/-- An instruction that issues is performed. -/
theorem issue_of_issued {i : Instr} {s s1 : State} {t : Strand} {got : List (GReg × Word)} {extra : List GReg}
    (h : s.issued i extra = some (t, s1, got)) (f : State → Strand → (GReg → Word) → State) (body : Bool := false) :
    issue i s f extra body = .next (f s1 t.settled (popVal t got)) := by
  unfold State.issued at h
  split at h
  · cases h
  · rename_i t hu
    split at h
    · cases h
    · rename_i hc
      simp only [Bool.or_eq_true, not_or, Bool.not_eq_true, Option.isSome_eq_false_iff, Option.isNone_iff_eq_none] at hc
      obtain ⟨⟨⟨⟨h1, h2⟩, h3⟩, h4⟩, h5⟩ := hc
      split at h
      · cases h
      · rename_i x y z hp
        split at h
        · cases h
        · rename_i hb
          cases h
          have h2' : t.place?.isNone = false := by
            cases hq : t.place? <;> simp_all
          simp only [issue, hu, h1, h2', h3, h4, Bool.or_self, Bool.false_eq_true, ↓reduceIte, Option.orElse]
          simp only [issue.go, h5, hp, Bool.false_eq_true, ↓reduceIte]
          rw [Option.not_isSome_iff_eq_none.mp hb]
          rfl

/-- The strand that issues is the one in focus; it is in a slot and RUN. -/
theorem issued_strand {i : Instr} {s s1 : State} {t : Strand} {got : List (GReg × Word)} {extra : List GReg}
    (h : s.issued i extra = some (t, s1, got)) : s.strand? s.cur = some t ∧ t.st = .run := by
  unfold State.issued at h
  split at h
  · cases h
  · rename_i t hu
    split at h
    · cases h
    · rename_i hc
      split at h
      · cases h
      · split at h
        · cases h
        · cases h
          simp only [Bool.or_eq_true, not_or, Bool.not_eq_true] at hc
          exact ⟨hu, by simpa using hc.1.1.1.1⟩

/-- A form that is not in paired mode does not wait for a partner (R323). -/
theorem joint_unpaired {i : Instr} {sh : Strand → Bool} {g : State → Host.Outcome State Fault Refusal} {s : State} {t : Strand}
    (h : s.strand? s.cur = some t) (hp : t.pair = false) : joint i sh g s = g s := by
  simp [joint, h, hp]

/-- A form whose message is not merged does not wait for a partner (R323). -/
theorem joint_unshared {i : Instr} {sh : Strand → Bool} {g : State → Host.Outcome State Fault Refusal} {s : State} {t : Strand}
    (h : s.strand? s.cur = some t) (hs : sh t = false) : joint i sh g s = g s := by
  simp [joint, h, hs]

/-- An access outside cluster and peer space does not hold issue for a partner (R323). -/
theorem joint_near {i : Instr} {g : State → Host.Outcome State Fault Refusal} {s : State} {t : Strand} {k : Nat}
    (h : s.strand? s.cur = some t) (hs : (t.regionAt k).trapCapable = false) :
    joint i (fun u => s.foreign u (u.regionAt k)) g s = g s :=
  joint_unshared h (by simp [State.foreign, hs])

@[simp] theorem settled_pc (t : Strand) : t.settled.pc = t.pc := rfl
@[simp] theorem settled_pair (t : Strand) : t.settled.pair = t.pair := rfl
@[simp] theorem settled_sup (t : Strand) : t.settled.sup = t.sup := rfl
@[simp] theorem settled_ops (t : Strand) : t.settled.ops = t.ops := rfl
@[simp] theorem settled_regionAt (t : Strand) (i : Nat) : t.settled.regionAt i = t.regionAt i := rfl
@[simp] theorem settled_core (t : Strand) : t.settled.core = t.core := rfl
@[simp] theorem settled_homeCore (t : Strand) : t.settled.homeCore = t.homeCore := rfl

end Sys2Proof.Machine
end

