-- ==== Sys2Proof/Laws/Memory.lean ====
section
/-! SUPPORT. The laws of tables and of memory: what is written is read back, nothing else changes, and every operation keeps
the canonical form. -/

namespace Sys2Proof.Machine

/-! ### Tables -/

@[simp] theorem Tab.get?_set_self {α : Type} (t : Tab α) (k : Nat) (v : α) : Tab.get? (Tab.set t k v) k = some v := by
  induction t with
  | nil => simp [Tab.set, Tab.get?]
  | cons x t ih =>
    obtain ⟨j, w⟩ := x
    simp only [Tab.set]
    split
    · simp [Tab.get?]
    · split
      · simp [Tab.get?]
      · rename_i h
        simp [Tab.get?, Ne.symm h, ih]

theorem Tab.get?_set_other {α : Type} (t : Tab α) {k m : Nat} (v : α) (h : m ≠ k) :
    Tab.get? (Tab.set t k v) m = Tab.get? t m := by
  induction t with
  | nil => simp [Tab.set, Tab.get?, h.symm]
  | cons x t ih =>
    obtain ⟨j, w⟩ := x
    simp only [Tab.set]
    split
    · simp [Tab.get?, h.symm]
    · split
      · rename_i h'
        simp [Tab.get?, ← h', h.symm]
      · simp [Tab.get?, ih]

@[simp] theorem Tab.getD_set_self {α : Type} (t : Tab α) (k : Nat) (v d : α) : Tab.getD (Tab.set t k v) k d = v := by
  simp [Tab.getD]

theorem Tab.getD_set_other {α : Type} (t : Tab α) {k m : Nat} (v d : α) (h : m ≠ k) :
    Tab.getD (Tab.set t k v) m d = Tab.getD t m d := by
  simp [Tab.getD, Tab.get?_set_other t v h]

theorem Tab.risesFrom_mono {α : Type} {t : Tab α} {n m : Nat} (h : m ≤ n) (ht : Tab.risesFrom t n = true) :
    Tab.risesFrom t m = true := by
  cases t with
  | nil => rfl
  | cons x t =>
    simp only [Tab.risesFrom, Bool.and_eq_true, decide_eq_true_eq] at *
    exact ⟨by omega, ht.2⟩

theorem Tab.risesFrom_set {α : Type} (t : Tab α) (k : Nat) (v : α) (n : Nat) (hn : n ≤ k)
    (ht : Tab.risesFrom t n = true) : Tab.risesFrom (Tab.set t k v) n = true := by
  induction t generalizing n with
  | nil => simp [Tab.set, Tab.risesFrom, hn]
  | cons x t ih =>
    obtain ⟨j, w⟩ := x
    simp only [Tab.risesFrom, Bool.and_eq_true, decide_eq_true_eq] at ht
    simp only [Tab.set]
    split
    · simp only [Tab.risesFrom, Bool.and_eq_true, decide_eq_true_eq]
      exact ⟨hn, by omega, ht.2⟩
    · split
      · rename_i h
        subst h
        simp only [Tab.risesFrom, Bool.and_eq_true, decide_eq_true_eq]
        exact ht
      · simp only [Tab.risesFrom, Bool.and_eq_true, decide_eq_true_eq]
        exact ⟨ht.1, ih (j + 1) (by omega) ht.2⟩

/-- A table in rising order stays so when an entry is set. -/
theorem Tab.wf_set {α : Type} {t : Tab α} (k : Nat) (v : α) (h : Tab.wf t = true) : Tab.wf (Tab.set t k v) = true :=
  Tab.risesFrom_set t k v 0 (Nat.zero_le k) h

/-! ### One byte -/

@[simp] theorem Memory.read_write_self (m : List Host.Cell) (k : Nat) (v : Byte) (hm : Memory.wf m = true) :
    Memory.read (Memory.write m k v) k = v := by
  have gen : ∀ (m : List Host.Cell) (n : Nat), Memory.wfFrom m n = true → k < n → Memory.read m k = unlisted := by
    intro m
    induction m with
    | nil => intros; rfl
    | cons x t ih =>
      obtain ⟨j, b⟩ := x
      intro n h hk
      simp only [Memory.wfFrom, Bool.and_eq_true, decide_eq_true_eq] at h
      simp only [Memory.read]
      rw [if_neg (by omega)]
      exact ih (j + 1) h.2 (by omega)
  have main : ∀ (m : List Host.Cell) (n : Nat), Memory.wfFrom m n = true →
      Memory.read (Memory.write m k v) k = v := by
    intro m
    induction m with
    | nil =>
      intro n _
      simp only [Memory.write]
      split
      · rename_i h; simp [Memory.read, h]
      · simp [Memory.read]
    | cons x t ih =>
      obtain ⟨j, b⟩ := x
      intro n h
      simp only [Memory.wfFrom, Bool.and_eq_true, decide_eq_true_eq] at h
      simp only [Memory.write]
      split
      · rename_i hk
        split
        · rename_i hv
          rw [hv]
          exact gen ((j, b) :: t) (j) (by simp [Memory.wfFrom, h.1.2, h.2]) hk
        · simp [Memory.read]
      · split
        · rename_i hk
          subst hk
          split
          · rename_i hv
            rw [hv]
            exact gen t (k + 1) h.2 (by omega)
          · simp [Memory.read]
        · rename_i h1 h2
          simp only [Memory.read]
          rw [if_neg (Ne.symm h2)]
          exact ih (j + 1) h.2
  exact main m 0 hm

theorem Memory.read_write_other (m : List Host.Cell) {k a : Nat} (v : Byte) (h : a ≠ k) :
    Memory.read (Memory.write m k v) a = Memory.read m a := by
  induction m with
  | nil =>
    simp only [Memory.write]
    split <;> simp [Memory.read, h.symm]
  | cons x t ih =>
    obtain ⟨j, b⟩ := x
    simp only [Memory.write]
    split
    · split <;> simp [Memory.read, h.symm]
    · split
      · rename_i hk
        subst hk
        split <;> simp [Memory.read, h.symm]
      · simp [Memory.read, ih]

theorem Memory.wfFrom_mono {m : List Host.Cell} {n k : Nat} (h : k ≤ n) (hm : Memory.wfFrom m n = true) :
    Memory.wfFrom m k = true := by
  cases m with
  | nil => rfl
  | cons x t =>
    simp only [Memory.wfFrom, Bool.and_eq_true, decide_eq_true_eq] at *
    exact ⟨⟨by omega, hm.1.2⟩, hm.2⟩

theorem Memory.wfFrom_write (m : List Host.Cell) (k : Nat) (v : Byte) (n : Nat) (hn : n ≤ k)
    (hm : Memory.wfFrom m n = true) : Memory.wfFrom (Memory.write m k v) n = true := by
  induction m generalizing n with
  | nil =>
    simp only [Memory.write]
    split
    · rfl
    · rename_i h; simp [Memory.wfFrom, hn, h]
  | cons x t ih =>
    obtain ⟨j, b⟩ := x
    simp only [Memory.wfFrom, Bool.and_eq_true, decide_eq_true_eq] at hm
    simp only [Memory.write]
    split
    · split
      · simp only [Memory.wfFrom, Bool.and_eq_true, decide_eq_true_eq]
        exact hm
      · rename_i hv
        simp only [Memory.wfFrom, Bool.and_eq_true, decide_eq_true_eq]
        exact ⟨⟨hn, hv⟩, ⟨by omega, hm.1.2⟩, hm.2⟩
    · split
      · rename_i hk
        subst hk
        split
        · exact Memory.wfFrom_mono (by omega) hm.2
        · rename_i hv
          simp only [Memory.wfFrom, Bool.and_eq_true, decide_eq_true_eq]
          exact ⟨⟨hn, hv⟩, hm.2⟩
      · simp only [Memory.wfFrom, Bool.and_eq_true, decide_eq_true_eq]
        exact ⟨hm.1, ih (j + 1) (by omega) hm.2⟩

/-- A write of a byte keeps the canonical form. -/
theorem Memory.wf_write {m : List Host.Cell} (k : Nat) (v : Byte) (h : Memory.wf m = true) :
    Memory.wf (Memory.write m k v) = true :=
  Memory.wfFrom_write m k v 0 (Nat.zero_le k) h

/-! ### Runs of bytes -/

theorem Memory.readN_eq (m : List Host.Cell) (k n : Nat) : Memory.readN m k n = Memory.readAll m k n := by
  induction m with
  | nil => rfl
  | cons x t ih =>
    obtain ⟨j, b⟩ := x
    simp only [Memory.readN]
    split
    · rename_i h
      rw [ih]
      clear ih
      induction n generalizing k with
      | zero => rfl
      | succ n ihn =>
        simp only [Memory.readAll, Memory.read]
        rw [if_neg (by omega), ihn (k + 1) (by omega)]
    · rfl

theorem Memory.writeN_eq (m : List Host.Cell) (k : Nat) (v : List Byte) : Memory.writeN m k v = Memory.writeAll m k v := by
  induction m with
  | nil => rfl
  | cons x t ih =>
    obtain ⟨j, b⟩ := x
    simp only [Memory.writeN]
    split
    · rename_i h
      rw [ih]
      clear ih
      induction v generalizing k t with
      | nil => rfl
      | cons c v ihv =>
        simp only [Memory.writeAll, Memory.write]
        rw [if_neg (by omega), if_neg (by omega)]
        exact ihv (k + 1) _ (by omega)
    · rfl

theorem Memory.wf_writeAll (v : List Byte) : ∀ {m : List Host.Cell} (k : Nat), Memory.wf m = true →
    Memory.wf (Memory.writeAll m k v) = true := by
  induction v with
  | nil => intro m k h; exact h
  | cons c v ih => intro m k h; exact ih (k + 1) (Memory.wf_write k c h)

/-- A write of bytes keeps the canonical form. -/
theorem Memory.wf_writeN {m : List Host.Cell} (k : Nat) (v : List Byte) (h : Memory.wf m = true) :
    Memory.wf (Memory.writeN m k v) = true := by
  rw [Memory.writeN_eq]; exact Memory.wf_writeAll v k h

theorem Memory.read_writeAll_below (v : List Byte) : ∀ (m : List Host.Cell) (k a : Nat), a < k →
    Memory.read (Memory.writeAll m k v) a = Memory.read m a := by
  induction v with
  | nil => intros; rfl
  | cons c v ih =>
    intro m k a h
    simp only [Memory.writeAll]
    rw [ih _ _ _ (by omega), Memory.read_write_other m c (by omega)]

theorem Memory.read_writeAll_above (v : List Byte) : ∀ (m : List Host.Cell) (k a : Nat), k + v.length ≤ a →
    Memory.read (Memory.writeAll m k v) a = Memory.read m a := by
  induction v with
  | nil => intros; rfl
  | cons c v ih =>
    intro m k a h
    simp only [Memory.writeAll, List.length_cons] at *
    rw [ih _ _ _ (by omega), Memory.read_write_other m c (by omega)]

theorem Memory.read_writeAll_in (v : List Byte) : ∀ (m : List Host.Cell) (k i : Nat), Memory.wf m = true →
    (h : i < v.length) → Memory.read (Memory.writeAll m k v) (k + i) = v[i] := by
  induction v with
  | nil => intro m k i _ h; simp at h
  | cons c v ih =>
    intro m k i hm h
    simp only [Memory.writeAll]
    cases i with
    | zero => rw [Memory.read_writeAll_below _ _ _ _ (by omega)]; simp [hm]
    | succ i =>
      have := ih (Memory.write m k c) (k + 1) i (Memory.wf_write k c hm) (by simpa using h)
      rw [show k + (i + 1) = k + 1 + i by omega, this]
      simp

/-- What a write of bytes leaves at an address: the byte written there, or what was there before. -/
theorem Memory.read_writeN (m : List Host.Cell) (k : Nat) (v : List Byte) (a : Nat) (hm : Memory.wf m = true) :
    Memory.read (Memory.writeN m k v) a =
      if h : k ≤ a ∧ a - k < v.length then v[a - k] else Memory.read m a := by
  rw [Memory.writeN_eq]
  split
  · rename_i h
    have := Memory.read_writeAll_in v m k (a - k) hm h.2
    rwa [show k + (a - k) = a by omega] at this
  · rename_i h
    by_cases h1 : a < k
    · exact Memory.read_writeAll_below v m k a h1
    · exact Memory.read_writeAll_above v m k a (by omega)

/-- A read of bytes is the bytes one by one. -/
theorem Memory.readN_get (m : List Host.Cell) (k n i : Nat) (h : i < n) :
    (Memory.readN m k n)[i]? = some (Memory.read m (k + i)) := by
  rw [Memory.readN_eq]
  induction n generalizing k i with
  | zero => omega
  | succ n ih =>
    simp only [Memory.readAll]
    cases i with
    | zero => simp
    | succ i => rw [List.getElem?_cons_succ, ih (k + 1) i (by omega), show k + 1 + i = k + (i + 1) by omega]

@[simp] theorem Memory.readN_length (m : List Host.Cell) (k n : Nat) : (Memory.readN m k n).length = n := by
  rw [Memory.readN_eq]
  induction n generalizing k with
  | zero => rfl
  | succ n ih => simp [Memory.readAll, ih]

end Sys2Proof.Machine
end

