-- ==== Sys2Proof/Laws/State.lean ====
section
/-! SUPPORT. One lemma for each field of `State` and of `Strand` and each update of it, so that no proof unfolds a record
update. -/

namespace Sys2Proof.Machine

/-! ### `State.setStrand` -/

@[simp] theorem State.setStrand_agenda (s : State) (i : Nat) (t : Strand) : (s.setStrand i t).agenda = s.agenda := rfl
@[simp] theorem State.setStrand_cur (s : State) (i : Nat) (t : Strand) : (s.setStrand i t).cur = s.cur := rfl
@[simp] theorem State.setStrand_ua (s : State) (i : Nat) (t : Strand) : (s.setStrand i t).ua = s.ua := rfl
@[simp] theorem State.setStrand_ub (s : State) (i : Nat) (t : Strand) : (s.setStrand i t).ub = s.ub := rfl
@[simp] theorem State.setStrand_acc (s : State) (i : Nat) (t : Strand) : (s.setStrand i t).acc = s.acc := rfl
@[simp] theorem State.setStrand_serial (s : State) (i : Nat) (t : Strand) : (s.setStrand i t).serial = s.serial := rfl
@[simp] theorem State.setStrand_now (s : State) (i : Nat) (t : Strand) : (s.setStrand i t).now = s.now := rfl
@[simp] theorem State.setStrand_cycle (s : State) (i : Nat) (t : Strand) : (s.setStrand i t).cycle = s.cycle := rfl
@[simp] theorem State.setStrand_mem (s : State) (i : Nat) (t : Strand) : (s.setStrand i t).mem = s.mem := rfl
@[simp] theorem State.setStrand_full (s : State) (i : Nat) (t : Strand) : (s.setStrand i t).full = s.full := rfl
@[simp] theorem State.setStrand_poison (s : State) (i : Nat) (t : Strand) : (s.setStrand i t).poison = s.poison := rfl
@[simp] theorem State.setStrand_groups (s : State) (i : Nat) (t : Strand) : (s.setStrand i t).groups = s.groups := rfl
@[simp] theorem State.setStrand_launches (s : State) (i : Nat) (t : Strand) : (s.setStrand i t).launches = s.launches := rfl
@[simp] theorem State.setStrand_cores (s : State) (i : Nat) (t : Strand) : (s.setStrand i t).cores = s.cores := rfl
@[simp] theorem State.setStrand_clusters (s : State) (i : Nat) (t : Strand) : (s.setStrand i t).clusters = s.clusters := rfl
@[simp] theorem State.setStrand_dies (s : State) (i : Nat) (t : Strand) : (s.setStrand i t).dies = s.dies := rfl
@[simp] theorem State.setStrand_queues (s : State) (i : Nat) (t : Strand) : (s.setStrand i t).queues = s.queues := rfl
@[simp] theorem State.setStrand_rr (s : State) (i : Nat) (t : Strand) : (s.setStrand i t).rr = s.rr := rfl
@[simp] theorem State.setStrand_waitHdrs (s : State) (i : Nat) (t : Strand) : (s.setStrand i t).waitHdrs = s.waitHdrs := rfl
@[simp] theorem State.setStrand_replays (s : State) (i : Nat) (t : Strand) : (s.setStrand i t).replays = s.replays := rfl
@[simp] theorem State.setStrand_heldVals (s : State) (i : Nat) (t : Strand) : (s.setStrand i t).heldVals = s.heldVals := rfl
@[simp] theorem State.setStrand_tickp (s : State) (i : Nat) (t : Strand) : (s.setStrand i t).tickp = s.tickp := rfl
@[simp] theorem State.setStrand_tickpNext (s : State) (i : Nat) (t : Strand) : (s.setStrand i t).tickpNext = s.tickpNext := rfl
@[simp] theorem State.setStrand_ticks (s : State) (i : Nat) (t : Strand) : (s.setStrand i t).ticks = s.ticks := rfl
@[simp] theorem State.setStrand_tickTime (s : State) (i : Nat) (t : Strand) : (s.setStrand i t).tickTime = s.tickTime := rfl
@[simp] theorem State.setStrand_sysdesc (s : State) (i : Nat) (t : Strand) : (s.setStrand i t).sysdesc = s.sysdesc := rfl
@[simp] theorem State.setStrand_tentab (s : State) (i : Nat) (t : Strand) : (s.setStrand i t).tentab = s.tentab := rfl
@[simp] theorem State.setStrand_asidtab (s : State) (i : Nat) (t : Strand) : (s.setStrand i t).asidtab = s.asidtab := rfl
@[simp] theorem State.setStrand_tenants (s : State) (i : Nat) (t : Strand) : (s.setStrand i t).tenants = s.tenants := rfl
@[simp] theorem State.setStrand_power (s : State) (i : Nat) (t : Strand) : (s.setStrand i t).power = s.power := rfl
@[simp] theorem State.setStrand_step (s : State) (i : Nat) (t : Strand) : (s.setStrand i t).step = s.step := rfl
@[simp] theorem State.setStrand_life (s : State) (i : Nat) (t : Strand) : (s.setStrand i t).life = s.life := rfl
@[simp] theorem State.setStrand_pkg (s : State) (i : Nat) (t : Strand) : (s.setStrand i t).pkg = s.pkg := rfl
@[simp] theorem State.setStrand_route (s : State) (i : Nat) (t : Strand) : (s.setStrand i t).route = s.route := rfl
@[simp] theorem State.setStrand_linksDown (s : State) (i : Nat) (t : Strand) : (s.setStrand i t).linksDown = s.linksDown := rfl
@[simp] theorem State.setStrand_linkFails (s : State) (i : Nat) (t : Strand) : (s.setStrand i t).linkFails = s.linkFails := rfl
@[simp] theorem State.setStrand_toHost (s : State) (i : Nat) (t : Strand) : (s.setStrand i t).toHost = s.toHost := rfl
@[simp] theorem State.setStrand_stalls (s : State) (i : Nat) (t : Strand) : (s.setStrand i t).stalls = s.stalls := rfl
@[simp] theorem State.setStrand_regions (s : State) (i : Nat) (t : Strand) : (s.setStrand i t).regions = s.regions := rfl
@[simp] theorem State.setStrand_pltab (s : State) (i : Nat) (t : Strand) : (s.setStrand i t).pltab = s.pltab := rfl
@[simp] theorem State.setStrand_winRec (s : State) (i : Nat) (t : Strand) : (s.setStrand i t).winRec = s.winRec := rfl
@[simp] theorem State.setStrand_plIdle (s : State) (i : Nat) (t : Strand) : (s.setStrand i t).plIdle = s.plIdle := rfl
@[simp] theorem State.setStrand_plWin (s : State) (i : Nat) (t : Strand) : (s.setStrand i t).plWin = s.plWin := rfl
@[simp] theorem State.setStrand_winTicks (s : State) (i : Nat) (t : Strand) : (s.setStrand i t).winTicks = s.winTicks := rfl
@[simp] theorem State.setStrand_winColl (s : State) (i : Nat) (t : Strand) : (s.setStrand i t).winColl = s.winColl := rfl
@[simp] theorem State.setStrand_mr (s : State) (i : Nat) (t : Strand) : (s.setStrand i t).mr = s.mr := rfl
@[simp] theorem State.setStrand_fwOk (s : State) (i : Nat) (t : Strand) : (s.setStrand i t).fwOk = s.fwOk := rfl
@[simp] theorem State.setStrand_identity (s : State) (i : Nat) (t : Strand) : (s.setStrand i t).identity = s.identity := rfl
@[simp] theorem State.setStrand_barHolds (s : State) (i : Nat) (t : Strand) : (s.setStrand i t).barHolds = s.barHolds := rfl
@[simp] theorem State.setStrand_twins (s : State) (i : Nat) (t : Strand) : (s.setStrand i t).twins = s.twins := rfl
@[simp] theorem State.setStrand_pairCmds (s : State) (i : Nat) (t : Strand) : (s.setStrand i t).pairCmds = s.pairCmds := rfl
@[simp] theorem State.setStrand_pairWrites (s : State) (i : Nat) (t : Strand) : (s.setStrand i t).pairWrites = s.pairWrites := rfl

/-! ### `State.setCore` -/

@[simp] theorem State.setCore_agenda (s : State) (c : Nat) (k : Core) : (s.setCore c k).agenda = s.agenda := rfl
@[simp] theorem State.setCore_cur (s : State) (c : Nat) (k : Core) : (s.setCore c k).cur = s.cur := rfl
@[simp] theorem State.setCore_ua (s : State) (c : Nat) (k : Core) : (s.setCore c k).ua = s.ua := rfl
@[simp] theorem State.setCore_ub (s : State) (c : Nat) (k : Core) : (s.setCore c k).ub = s.ub := rfl
@[simp] theorem State.setCore_acc (s : State) (c : Nat) (k : Core) : (s.setCore c k).acc = s.acc := rfl
@[simp] theorem State.setCore_serial (s : State) (c : Nat) (k : Core) : (s.setCore c k).serial = s.serial := rfl
@[simp] theorem State.setCore_now (s : State) (c : Nat) (k : Core) : (s.setCore c k).now = s.now := rfl
@[simp] theorem State.setCore_cycle (s : State) (c : Nat) (k : Core) : (s.setCore c k).cycle = s.cycle := rfl
@[simp] theorem State.setCore_mem (s : State) (c : Nat) (k : Core) : (s.setCore c k).mem = s.mem := rfl
@[simp] theorem State.setCore_full (s : State) (c : Nat) (k : Core) : (s.setCore c k).full = s.full := rfl
@[simp] theorem State.setCore_poison (s : State) (c : Nat) (k : Core) : (s.setCore c k).poison = s.poison := rfl
@[simp] theorem State.setCore_strands (s : State) (c : Nat) (k : Core) : (s.setCore c k).strands = s.strands := rfl
@[simp] theorem State.setCore_groups (s : State) (c : Nat) (k : Core) : (s.setCore c k).groups = s.groups := rfl
@[simp] theorem State.setCore_launches (s : State) (c : Nat) (k : Core) : (s.setCore c k).launches = s.launches := rfl
@[simp] theorem State.setCore_clusters (s : State) (c : Nat) (k : Core) : (s.setCore c k).clusters = s.clusters := rfl
@[simp] theorem State.setCore_dies (s : State) (c : Nat) (k : Core) : (s.setCore c k).dies = s.dies := rfl
@[simp] theorem State.setCore_queues (s : State) (c : Nat) (k : Core) : (s.setCore c k).queues = s.queues := rfl
@[simp] theorem State.setCore_rr (s : State) (c : Nat) (k : Core) : (s.setCore c k).rr = s.rr := rfl
@[simp] theorem State.setCore_waitHdrs (s : State) (c : Nat) (k : Core) : (s.setCore c k).waitHdrs = s.waitHdrs := rfl
@[simp] theorem State.setCore_replays (s : State) (c : Nat) (k : Core) : (s.setCore c k).replays = s.replays := rfl
@[simp] theorem State.setCore_heldVals (s : State) (c : Nat) (k : Core) : (s.setCore c k).heldVals = s.heldVals := rfl
@[simp] theorem State.setCore_tickp (s : State) (c : Nat) (k : Core) : (s.setCore c k).tickp = s.tickp := rfl
@[simp] theorem State.setCore_tickpNext (s : State) (c : Nat) (k : Core) : (s.setCore c k).tickpNext = s.tickpNext := rfl
@[simp] theorem State.setCore_ticks (s : State) (c : Nat) (k : Core) : (s.setCore c k).ticks = s.ticks := rfl
@[simp] theorem State.setCore_tickTime (s : State) (c : Nat) (k : Core) : (s.setCore c k).tickTime = s.tickTime := rfl
@[simp] theorem State.setCore_sysdesc (s : State) (c : Nat) (k : Core) : (s.setCore c k).sysdesc = s.sysdesc := rfl
@[simp] theorem State.setCore_tentab (s : State) (c : Nat) (k : Core) : (s.setCore c k).tentab = s.tentab := rfl
@[simp] theorem State.setCore_asidtab (s : State) (c : Nat) (k : Core) : (s.setCore c k).asidtab = s.asidtab := rfl
@[simp] theorem State.setCore_tenants (s : State) (c : Nat) (k : Core) : (s.setCore c k).tenants = s.tenants := rfl
@[simp] theorem State.setCore_power (s : State) (c : Nat) (k : Core) : (s.setCore c k).power = s.power := rfl
@[simp] theorem State.setCore_step (s : State) (c : Nat) (k : Core) : (s.setCore c k).step = s.step := rfl
@[simp] theorem State.setCore_life (s : State) (c : Nat) (k : Core) : (s.setCore c k).life = s.life := rfl
@[simp] theorem State.setCore_pkg (s : State) (c : Nat) (k : Core) : (s.setCore c k).pkg = s.pkg := rfl
@[simp] theorem State.setCore_route (s : State) (c : Nat) (k : Core) : (s.setCore c k).route = s.route := rfl
@[simp] theorem State.setCore_linksDown (s : State) (c : Nat) (k : Core) : (s.setCore c k).linksDown = s.linksDown := rfl
@[simp] theorem State.setCore_linkFails (s : State) (c : Nat) (k : Core) : (s.setCore c k).linkFails = s.linkFails := rfl
@[simp] theorem State.setCore_toHost (s : State) (c : Nat) (k : Core) : (s.setCore c k).toHost = s.toHost := rfl
@[simp] theorem State.setCore_stalls (s : State) (c : Nat) (k : Core) : (s.setCore c k).stalls = s.stalls := rfl
@[simp] theorem State.setCore_regions (s : State) (c : Nat) (k : Core) : (s.setCore c k).regions = s.regions := rfl
@[simp] theorem State.setCore_pltab (s : State) (c : Nat) (k : Core) : (s.setCore c k).pltab = s.pltab := rfl
@[simp] theorem State.setCore_winRec (s : State) (c : Nat) (k : Core) : (s.setCore c k).winRec = s.winRec := rfl
@[simp] theorem State.setCore_plIdle (s : State) (c : Nat) (k : Core) : (s.setCore c k).plIdle = s.plIdle := rfl
@[simp] theorem State.setCore_plWin (s : State) (c : Nat) (k : Core) : (s.setCore c k).plWin = s.plWin := rfl
@[simp] theorem State.setCore_winTicks (s : State) (c : Nat) (k : Core) : (s.setCore c k).winTicks = s.winTicks := rfl
@[simp] theorem State.setCore_winColl (s : State) (c : Nat) (k : Core) : (s.setCore c k).winColl = s.winColl := rfl
@[simp] theorem State.setCore_mr (s : State) (c : Nat) (k : Core) : (s.setCore c k).mr = s.mr := rfl
@[simp] theorem State.setCore_fwOk (s : State) (c : Nat) (k : Core) : (s.setCore c k).fwOk = s.fwOk := rfl
@[simp] theorem State.setCore_identity (s : State) (c : Nat) (k : Core) : (s.setCore c k).identity = s.identity := rfl
@[simp] theorem State.setCore_barHolds (s : State) (c : Nat) (k : Core) : (s.setCore c k).barHolds = s.barHolds := rfl
@[simp] theorem State.setCore_twins (s : State) (c : Nat) (k : Core) : (s.setCore c k).twins = s.twins := rfl
@[simp] theorem State.setCore_pairCmds (s : State) (c : Nat) (k : Core) : (s.setCore c k).pairCmds = s.pairCmds := rfl
@[simp] theorem State.setCore_pairWrites (s : State) (c : Nat) (k : Core) : (s.setCore c k).pairWrites = s.pairWrites := rfl

/-! ### `State.modCore` -/

@[simp] theorem State.modCore_agenda (s : State) (c : Nat) (f : Core → Core) : (s.modCore c f).agenda = s.agenda := rfl
@[simp] theorem State.modCore_cur (s : State) (c : Nat) (f : Core → Core) : (s.modCore c f).cur = s.cur := rfl
@[simp] theorem State.modCore_ua (s : State) (c : Nat) (f : Core → Core) : (s.modCore c f).ua = s.ua := rfl
@[simp] theorem State.modCore_ub (s : State) (c : Nat) (f : Core → Core) : (s.modCore c f).ub = s.ub := rfl
@[simp] theorem State.modCore_acc (s : State) (c : Nat) (f : Core → Core) : (s.modCore c f).acc = s.acc := rfl
@[simp] theorem State.modCore_serial (s : State) (c : Nat) (f : Core → Core) : (s.modCore c f).serial = s.serial := rfl
@[simp] theorem State.modCore_now (s : State) (c : Nat) (f : Core → Core) : (s.modCore c f).now = s.now := rfl
@[simp] theorem State.modCore_cycle (s : State) (c : Nat) (f : Core → Core) : (s.modCore c f).cycle = s.cycle := rfl
@[simp] theorem State.modCore_mem (s : State) (c : Nat) (f : Core → Core) : (s.modCore c f).mem = s.mem := rfl
@[simp] theorem State.modCore_full (s : State) (c : Nat) (f : Core → Core) : (s.modCore c f).full = s.full := rfl
@[simp] theorem State.modCore_poison (s : State) (c : Nat) (f : Core → Core) : (s.modCore c f).poison = s.poison := rfl
@[simp] theorem State.modCore_strands (s : State) (c : Nat) (f : Core → Core) : (s.modCore c f).strands = s.strands := rfl
@[simp] theorem State.modCore_groups (s : State) (c : Nat) (f : Core → Core) : (s.modCore c f).groups = s.groups := rfl
@[simp] theorem State.modCore_launches (s : State) (c : Nat) (f : Core → Core) : (s.modCore c f).launches = s.launches := rfl
@[simp] theorem State.modCore_clusters (s : State) (c : Nat) (f : Core → Core) : (s.modCore c f).clusters = s.clusters := rfl
@[simp] theorem State.modCore_dies (s : State) (c : Nat) (f : Core → Core) : (s.modCore c f).dies = s.dies := rfl
@[simp] theorem State.modCore_queues (s : State) (c : Nat) (f : Core → Core) : (s.modCore c f).queues = s.queues := rfl
@[simp] theorem State.modCore_rr (s : State) (c : Nat) (f : Core → Core) : (s.modCore c f).rr = s.rr := rfl
@[simp] theorem State.modCore_waitHdrs (s : State) (c : Nat) (f : Core → Core) : (s.modCore c f).waitHdrs = s.waitHdrs := rfl
@[simp] theorem State.modCore_replays (s : State) (c : Nat) (f : Core → Core) : (s.modCore c f).replays = s.replays := rfl
@[simp] theorem State.modCore_heldVals (s : State) (c : Nat) (f : Core → Core) : (s.modCore c f).heldVals = s.heldVals := rfl
@[simp] theorem State.modCore_tickp (s : State) (c : Nat) (f : Core → Core) : (s.modCore c f).tickp = s.tickp := rfl
@[simp] theorem State.modCore_tickpNext (s : State) (c : Nat) (f : Core → Core) : (s.modCore c f).tickpNext = s.tickpNext := rfl
@[simp] theorem State.modCore_ticks (s : State) (c : Nat) (f : Core → Core) : (s.modCore c f).ticks = s.ticks := rfl
@[simp] theorem State.modCore_tickTime (s : State) (c : Nat) (f : Core → Core) : (s.modCore c f).tickTime = s.tickTime := rfl
@[simp] theorem State.modCore_sysdesc (s : State) (c : Nat) (f : Core → Core) : (s.modCore c f).sysdesc = s.sysdesc := rfl
@[simp] theorem State.modCore_tentab (s : State) (c : Nat) (f : Core → Core) : (s.modCore c f).tentab = s.tentab := rfl
@[simp] theorem State.modCore_asidtab (s : State) (c : Nat) (f : Core → Core) : (s.modCore c f).asidtab = s.asidtab := rfl
@[simp] theorem State.modCore_tenants (s : State) (c : Nat) (f : Core → Core) : (s.modCore c f).tenants = s.tenants := rfl
@[simp] theorem State.modCore_power (s : State) (c : Nat) (f : Core → Core) : (s.modCore c f).power = s.power := rfl
@[simp] theorem State.modCore_step (s : State) (c : Nat) (f : Core → Core) : (s.modCore c f).step = s.step := rfl
@[simp] theorem State.modCore_life (s : State) (c : Nat) (f : Core → Core) : (s.modCore c f).life = s.life := rfl
@[simp] theorem State.modCore_pkg (s : State) (c : Nat) (f : Core → Core) : (s.modCore c f).pkg = s.pkg := rfl
@[simp] theorem State.modCore_route (s : State) (c : Nat) (f : Core → Core) : (s.modCore c f).route = s.route := rfl
@[simp] theorem State.modCore_linksDown (s : State) (c : Nat) (f : Core → Core) : (s.modCore c f).linksDown = s.linksDown := rfl
@[simp] theorem State.modCore_linkFails (s : State) (c : Nat) (f : Core → Core) : (s.modCore c f).linkFails = s.linkFails := rfl
@[simp] theorem State.modCore_toHost (s : State) (c : Nat) (f : Core → Core) : (s.modCore c f).toHost = s.toHost := rfl
@[simp] theorem State.modCore_stalls (s : State) (c : Nat) (f : Core → Core) : (s.modCore c f).stalls = s.stalls := rfl
@[simp] theorem State.modCore_regions (s : State) (c : Nat) (f : Core → Core) : (s.modCore c f).regions = s.regions := rfl
@[simp] theorem State.modCore_pltab (s : State) (c : Nat) (f : Core → Core) : (s.modCore c f).pltab = s.pltab := rfl
@[simp] theorem State.modCore_winRec (s : State) (c : Nat) (f : Core → Core) : (s.modCore c f).winRec = s.winRec := rfl
@[simp] theorem State.modCore_plIdle (s : State) (c : Nat) (f : Core → Core) : (s.modCore c f).plIdle = s.plIdle := rfl
@[simp] theorem State.modCore_plWin (s : State) (c : Nat) (f : Core → Core) : (s.modCore c f).plWin = s.plWin := rfl
@[simp] theorem State.modCore_winTicks (s : State) (c : Nat) (f : Core → Core) : (s.modCore c f).winTicks = s.winTicks := rfl
@[simp] theorem State.modCore_winColl (s : State) (c : Nat) (f : Core → Core) : (s.modCore c f).winColl = s.winColl := rfl
@[simp] theorem State.modCore_mr (s : State) (c : Nat) (f : Core → Core) : (s.modCore c f).mr = s.mr := rfl
@[simp] theorem State.modCore_fwOk (s : State) (c : Nat) (f : Core → Core) : (s.modCore c f).fwOk = s.fwOk := rfl
@[simp] theorem State.modCore_identity (s : State) (c : Nat) (f : Core → Core) : (s.modCore c f).identity = s.identity := rfl
@[simp] theorem State.modCore_barHolds (s : State) (c : Nat) (f : Core → Core) : (s.modCore c f).barHolds = s.barHolds := rfl
@[simp] theorem State.modCore_twins (s : State) (c : Nat) (f : Core → Core) : (s.modCore c f).twins = s.twins := rfl
@[simp] theorem State.modCore_pairCmds (s : State) (c : Nat) (f : Core → Core) : (s.modCore c f).pairCmds = s.pairCmds := rfl
@[simp] theorem State.modCore_pairWrites (s : State) (c : Nat) (f : Core → Core) : (s.modCore c f).pairWrites = s.pairWrites := rfl

/-! ### `State.modPort` -/

@[simp] theorem State.modPort_agenda (s : State) (c p : Nat) (f : Port → Port) : (s.modPort c p f).agenda = s.agenda := rfl
@[simp] theorem State.modPort_cur (s : State) (c p : Nat) (f : Port → Port) : (s.modPort c p f).cur = s.cur := rfl
@[simp] theorem State.modPort_ua (s : State) (c p : Nat) (f : Port → Port) : (s.modPort c p f).ua = s.ua := rfl
@[simp] theorem State.modPort_ub (s : State) (c p : Nat) (f : Port → Port) : (s.modPort c p f).ub = s.ub := rfl
@[simp] theorem State.modPort_acc (s : State) (c p : Nat) (f : Port → Port) : (s.modPort c p f).acc = s.acc := rfl
@[simp] theorem State.modPort_serial (s : State) (c p : Nat) (f : Port → Port) : (s.modPort c p f).serial = s.serial := rfl
@[simp] theorem State.modPort_now (s : State) (c p : Nat) (f : Port → Port) : (s.modPort c p f).now = s.now := rfl
@[simp] theorem State.modPort_cycle (s : State) (c p : Nat) (f : Port → Port) : (s.modPort c p f).cycle = s.cycle := rfl
@[simp] theorem State.modPort_mem (s : State) (c p : Nat) (f : Port → Port) : (s.modPort c p f).mem = s.mem := rfl
@[simp] theorem State.modPort_full (s : State) (c p : Nat) (f : Port → Port) : (s.modPort c p f).full = s.full := rfl
@[simp] theorem State.modPort_poison (s : State) (c p : Nat) (f : Port → Port) : (s.modPort c p f).poison = s.poison := rfl
@[simp] theorem State.modPort_strands (s : State) (c p : Nat) (f : Port → Port) : (s.modPort c p f).strands = s.strands := rfl
@[simp] theorem State.modPort_groups (s : State) (c p : Nat) (f : Port → Port) : (s.modPort c p f).groups = s.groups := rfl
@[simp] theorem State.modPort_launches (s : State) (c p : Nat) (f : Port → Port) : (s.modPort c p f).launches = s.launches := rfl
@[simp] theorem State.modPort_clusters (s : State) (c p : Nat) (f : Port → Port) : (s.modPort c p f).clusters = s.clusters := rfl
@[simp] theorem State.modPort_dies (s : State) (c p : Nat) (f : Port → Port) : (s.modPort c p f).dies = s.dies := rfl
@[simp] theorem State.modPort_queues (s : State) (c p : Nat) (f : Port → Port) : (s.modPort c p f).queues = s.queues := rfl
@[simp] theorem State.modPort_rr (s : State) (c p : Nat) (f : Port → Port) : (s.modPort c p f).rr = s.rr := rfl
@[simp] theorem State.modPort_waitHdrs (s : State) (c p : Nat) (f : Port → Port) : (s.modPort c p f).waitHdrs = s.waitHdrs := rfl
@[simp] theorem State.modPort_replays (s : State) (c p : Nat) (f : Port → Port) : (s.modPort c p f).replays = s.replays := rfl
@[simp] theorem State.modPort_heldVals (s : State) (c p : Nat) (f : Port → Port) : (s.modPort c p f).heldVals = s.heldVals := rfl
@[simp] theorem State.modPort_tickp (s : State) (c p : Nat) (f : Port → Port) : (s.modPort c p f).tickp = s.tickp := rfl
@[simp] theorem State.modPort_tickpNext (s : State) (c p : Nat) (f : Port → Port) : (s.modPort c p f).tickpNext = s.tickpNext := rfl
@[simp] theorem State.modPort_ticks (s : State) (c p : Nat) (f : Port → Port) : (s.modPort c p f).ticks = s.ticks := rfl
@[simp] theorem State.modPort_tickTime (s : State) (c p : Nat) (f : Port → Port) : (s.modPort c p f).tickTime = s.tickTime := rfl
@[simp] theorem State.modPort_sysdesc (s : State) (c p : Nat) (f : Port → Port) : (s.modPort c p f).sysdesc = s.sysdesc := rfl
@[simp] theorem State.modPort_tentab (s : State) (c p : Nat) (f : Port → Port) : (s.modPort c p f).tentab = s.tentab := rfl
@[simp] theorem State.modPort_asidtab (s : State) (c p : Nat) (f : Port → Port) : (s.modPort c p f).asidtab = s.asidtab := rfl
@[simp] theorem State.modPort_tenants (s : State) (c p : Nat) (f : Port → Port) : (s.modPort c p f).tenants = s.tenants := rfl
@[simp] theorem State.modPort_power (s : State) (c p : Nat) (f : Port → Port) : (s.modPort c p f).power = s.power := rfl
@[simp] theorem State.modPort_step (s : State) (c p : Nat) (f : Port → Port) : (s.modPort c p f).step = s.step := rfl
@[simp] theorem State.modPort_life (s : State) (c p : Nat) (f : Port → Port) : (s.modPort c p f).life = s.life := rfl
@[simp] theorem State.modPort_pkg (s : State) (c p : Nat) (f : Port → Port) : (s.modPort c p f).pkg = s.pkg := rfl
@[simp] theorem State.modPort_route (s : State) (c p : Nat) (f : Port → Port) : (s.modPort c p f).route = s.route := rfl
@[simp] theorem State.modPort_linksDown (s : State) (c p : Nat) (f : Port → Port) : (s.modPort c p f).linksDown = s.linksDown := rfl
@[simp] theorem State.modPort_linkFails (s : State) (c p : Nat) (f : Port → Port) : (s.modPort c p f).linkFails = s.linkFails := rfl
@[simp] theorem State.modPort_toHost (s : State) (c p : Nat) (f : Port → Port) : (s.modPort c p f).toHost = s.toHost := rfl
@[simp] theorem State.modPort_stalls (s : State) (c p : Nat) (f : Port → Port) : (s.modPort c p f).stalls = s.stalls := rfl
@[simp] theorem State.modPort_regions (s : State) (c p : Nat) (f : Port → Port) : (s.modPort c p f).regions = s.regions := rfl
@[simp] theorem State.modPort_pltab (s : State) (c p : Nat) (f : Port → Port) : (s.modPort c p f).pltab = s.pltab := rfl
@[simp] theorem State.modPort_winRec (s : State) (c p : Nat) (f : Port → Port) : (s.modPort c p f).winRec = s.winRec := rfl
@[simp] theorem State.modPort_plIdle (s : State) (c p : Nat) (f : Port → Port) : (s.modPort c p f).plIdle = s.plIdle := rfl
@[simp] theorem State.modPort_plWin (s : State) (c p : Nat) (f : Port → Port) : (s.modPort c p f).plWin = s.plWin := rfl
@[simp] theorem State.modPort_winTicks (s : State) (c p : Nat) (f : Port → Port) : (s.modPort c p f).winTicks = s.winTicks := rfl
@[simp] theorem State.modPort_winColl (s : State) (c p : Nat) (f : Port → Port) : (s.modPort c p f).winColl = s.winColl := rfl
@[simp] theorem State.modPort_mr (s : State) (c p : Nat) (f : Port → Port) : (s.modPort c p f).mr = s.mr := rfl
@[simp] theorem State.modPort_fwOk (s : State) (c p : Nat) (f : Port → Port) : (s.modPort c p f).fwOk = s.fwOk := rfl
@[simp] theorem State.modPort_identity (s : State) (c p : Nat) (f : Port → Port) : (s.modPort c p f).identity = s.identity := rfl
@[simp] theorem State.modPort_barHolds (s : State) (c p : Nat) (f : Port → Port) : (s.modPort c p f).barHolds = s.barHolds := rfl
@[simp] theorem State.modPort_twins (s : State) (c p : Nat) (f : Port → Port) : (s.modPort c p f).twins = s.twins := rfl
@[simp] theorem State.modPort_pairCmds (s : State) (c p : Nat) (f : Port → Port) : (s.modPort c p f).pairCmds = s.pairCmds := rfl
@[simp] theorem State.modPort_pairWrites (s : State) (c p : Nat) (f : Port → Port) : (s.modPort c p f).pairWrites = s.pairWrites := rfl

/-! ### `State.modCluster` -/

@[simp] theorem State.modCluster_agenda (s : State) (c : Nat) (f : Cluster → Cluster) : (s.modCluster c f).agenda = s.agenda := rfl
@[simp] theorem State.modCluster_cur (s : State) (c : Nat) (f : Cluster → Cluster) : (s.modCluster c f).cur = s.cur := rfl
@[simp] theorem State.modCluster_ua (s : State) (c : Nat) (f : Cluster → Cluster) : (s.modCluster c f).ua = s.ua := rfl
@[simp] theorem State.modCluster_ub (s : State) (c : Nat) (f : Cluster → Cluster) : (s.modCluster c f).ub = s.ub := rfl
@[simp] theorem State.modCluster_acc (s : State) (c : Nat) (f : Cluster → Cluster) : (s.modCluster c f).acc = s.acc := rfl
@[simp] theorem State.modCluster_serial (s : State) (c : Nat) (f : Cluster → Cluster) : (s.modCluster c f).serial = s.serial := rfl
@[simp] theorem State.modCluster_now (s : State) (c : Nat) (f : Cluster → Cluster) : (s.modCluster c f).now = s.now := rfl
@[simp] theorem State.modCluster_cycle (s : State) (c : Nat) (f : Cluster → Cluster) : (s.modCluster c f).cycle = s.cycle := rfl
@[simp] theorem State.modCluster_mem (s : State) (c : Nat) (f : Cluster → Cluster) : (s.modCluster c f).mem = s.mem := rfl
@[simp] theorem State.modCluster_full (s : State) (c : Nat) (f : Cluster → Cluster) : (s.modCluster c f).full = s.full := rfl
@[simp] theorem State.modCluster_poison (s : State) (c : Nat) (f : Cluster → Cluster) : (s.modCluster c f).poison = s.poison := rfl
@[simp] theorem State.modCluster_strands (s : State) (c : Nat) (f : Cluster → Cluster) : (s.modCluster c f).strands = s.strands := rfl
@[simp] theorem State.modCluster_groups (s : State) (c : Nat) (f : Cluster → Cluster) : (s.modCluster c f).groups = s.groups := rfl
@[simp] theorem State.modCluster_launches (s : State) (c : Nat) (f : Cluster → Cluster) : (s.modCluster c f).launches = s.launches := rfl
@[simp] theorem State.modCluster_cores (s : State) (c : Nat) (f : Cluster → Cluster) : (s.modCluster c f).cores = s.cores := rfl
@[simp] theorem State.modCluster_dies (s : State) (c : Nat) (f : Cluster → Cluster) : (s.modCluster c f).dies = s.dies := rfl
@[simp] theorem State.modCluster_queues (s : State) (c : Nat) (f : Cluster → Cluster) : (s.modCluster c f).queues = s.queues := rfl
@[simp] theorem State.modCluster_rr (s : State) (c : Nat) (f : Cluster → Cluster) : (s.modCluster c f).rr = s.rr := rfl
@[simp] theorem State.modCluster_waitHdrs (s : State) (c : Nat) (f : Cluster → Cluster) : (s.modCluster c f).waitHdrs = s.waitHdrs := rfl
@[simp] theorem State.modCluster_replays (s : State) (c : Nat) (f : Cluster → Cluster) : (s.modCluster c f).replays = s.replays := rfl
@[simp] theorem State.modCluster_heldVals (s : State) (c : Nat) (f : Cluster → Cluster) : (s.modCluster c f).heldVals = s.heldVals := rfl
@[simp] theorem State.modCluster_tickp (s : State) (c : Nat) (f : Cluster → Cluster) : (s.modCluster c f).tickp = s.tickp := rfl
@[simp] theorem State.modCluster_tickpNext (s : State) (c : Nat) (f : Cluster → Cluster) : (s.modCluster c f).tickpNext = s.tickpNext := rfl
@[simp] theorem State.modCluster_ticks (s : State) (c : Nat) (f : Cluster → Cluster) : (s.modCluster c f).ticks = s.ticks := rfl
@[simp] theorem State.modCluster_tickTime (s : State) (c : Nat) (f : Cluster → Cluster) : (s.modCluster c f).tickTime = s.tickTime := rfl
@[simp] theorem State.modCluster_sysdesc (s : State) (c : Nat) (f : Cluster → Cluster) : (s.modCluster c f).sysdesc = s.sysdesc := rfl
@[simp] theorem State.modCluster_tentab (s : State) (c : Nat) (f : Cluster → Cluster) : (s.modCluster c f).tentab = s.tentab := rfl
@[simp] theorem State.modCluster_asidtab (s : State) (c : Nat) (f : Cluster → Cluster) : (s.modCluster c f).asidtab = s.asidtab := rfl
@[simp] theorem State.modCluster_tenants (s : State) (c : Nat) (f : Cluster → Cluster) : (s.modCluster c f).tenants = s.tenants := rfl
@[simp] theorem State.modCluster_power (s : State) (c : Nat) (f : Cluster → Cluster) : (s.modCluster c f).power = s.power := rfl
@[simp] theorem State.modCluster_step (s : State) (c : Nat) (f : Cluster → Cluster) : (s.modCluster c f).step = s.step := rfl
@[simp] theorem State.modCluster_life (s : State) (c : Nat) (f : Cluster → Cluster) : (s.modCluster c f).life = s.life := rfl
@[simp] theorem State.modCluster_pkg (s : State) (c : Nat) (f : Cluster → Cluster) : (s.modCluster c f).pkg = s.pkg := rfl
@[simp] theorem State.modCluster_route (s : State) (c : Nat) (f : Cluster → Cluster) : (s.modCluster c f).route = s.route := rfl
@[simp] theorem State.modCluster_linksDown (s : State) (c : Nat) (f : Cluster → Cluster) : (s.modCluster c f).linksDown = s.linksDown := rfl
@[simp] theorem State.modCluster_linkFails (s : State) (c : Nat) (f : Cluster → Cluster) : (s.modCluster c f).linkFails = s.linkFails := rfl
@[simp] theorem State.modCluster_toHost (s : State) (c : Nat) (f : Cluster → Cluster) : (s.modCluster c f).toHost = s.toHost := rfl
@[simp] theorem State.modCluster_stalls (s : State) (c : Nat) (f : Cluster → Cluster) : (s.modCluster c f).stalls = s.stalls := rfl
@[simp] theorem State.modCluster_regions (s : State) (c : Nat) (f : Cluster → Cluster) : (s.modCluster c f).regions = s.regions := rfl
@[simp] theorem State.modCluster_pltab (s : State) (c : Nat) (f : Cluster → Cluster) : (s.modCluster c f).pltab = s.pltab := rfl
@[simp] theorem State.modCluster_winRec (s : State) (c : Nat) (f : Cluster → Cluster) : (s.modCluster c f).winRec = s.winRec := rfl
@[simp] theorem State.modCluster_plIdle (s : State) (c : Nat) (f : Cluster → Cluster) : (s.modCluster c f).plIdle = s.plIdle := rfl
@[simp] theorem State.modCluster_plWin (s : State) (c : Nat) (f : Cluster → Cluster) : (s.modCluster c f).plWin = s.plWin := rfl
@[simp] theorem State.modCluster_winTicks (s : State) (c : Nat) (f : Cluster → Cluster) : (s.modCluster c f).winTicks = s.winTicks := rfl
@[simp] theorem State.modCluster_winColl (s : State) (c : Nat) (f : Cluster → Cluster) : (s.modCluster c f).winColl = s.winColl := rfl
@[simp] theorem State.modCluster_mr (s : State) (c : Nat) (f : Cluster → Cluster) : (s.modCluster c f).mr = s.mr := rfl
@[simp] theorem State.modCluster_fwOk (s : State) (c : Nat) (f : Cluster → Cluster) : (s.modCluster c f).fwOk = s.fwOk := rfl
@[simp] theorem State.modCluster_identity (s : State) (c : Nat) (f : Cluster → Cluster) : (s.modCluster c f).identity = s.identity := rfl
@[simp] theorem State.modCluster_barHolds (s : State) (c : Nat) (f : Cluster → Cluster) : (s.modCluster c f).barHolds = s.barHolds := rfl
@[simp] theorem State.modCluster_twins (s : State) (c : Nat) (f : Cluster → Cluster) : (s.modCluster c f).twins = s.twins := rfl
@[simp] theorem State.modCluster_pairCmds (s : State) (c : Nat) (f : Cluster → Cluster) : (s.modCluster c f).pairCmds = s.pairCmds := rfl
@[simp] theorem State.modCluster_pairWrites (s : State) (c : Nat) (f : Cluster → Cluster) : (s.modCluster c f).pairWrites = s.pairWrites := rfl

/-! ### `State.modDie` -/

@[simp] theorem State.modDie_agenda (s : State) (d : Nat) (f : Die → Die) : (s.modDie d f).agenda = s.agenda := rfl
@[simp] theorem State.modDie_cur (s : State) (d : Nat) (f : Die → Die) : (s.modDie d f).cur = s.cur := rfl
@[simp] theorem State.modDie_ua (s : State) (d : Nat) (f : Die → Die) : (s.modDie d f).ua = s.ua := rfl
@[simp] theorem State.modDie_ub (s : State) (d : Nat) (f : Die → Die) : (s.modDie d f).ub = s.ub := rfl
@[simp] theorem State.modDie_acc (s : State) (d : Nat) (f : Die → Die) : (s.modDie d f).acc = s.acc := rfl
@[simp] theorem State.modDie_serial (s : State) (d : Nat) (f : Die → Die) : (s.modDie d f).serial = s.serial := rfl
@[simp] theorem State.modDie_now (s : State) (d : Nat) (f : Die → Die) : (s.modDie d f).now = s.now := rfl
@[simp] theorem State.modDie_cycle (s : State) (d : Nat) (f : Die → Die) : (s.modDie d f).cycle = s.cycle := rfl
@[simp] theorem State.modDie_mem (s : State) (d : Nat) (f : Die → Die) : (s.modDie d f).mem = s.mem := rfl
@[simp] theorem State.modDie_full (s : State) (d : Nat) (f : Die → Die) : (s.modDie d f).full = s.full := rfl
@[simp] theorem State.modDie_poison (s : State) (d : Nat) (f : Die → Die) : (s.modDie d f).poison = s.poison := rfl
@[simp] theorem State.modDie_strands (s : State) (d : Nat) (f : Die → Die) : (s.modDie d f).strands = s.strands := rfl
@[simp] theorem State.modDie_groups (s : State) (d : Nat) (f : Die → Die) : (s.modDie d f).groups = s.groups := rfl
@[simp] theorem State.modDie_launches (s : State) (d : Nat) (f : Die → Die) : (s.modDie d f).launches = s.launches := rfl
@[simp] theorem State.modDie_cores (s : State) (d : Nat) (f : Die → Die) : (s.modDie d f).cores = s.cores := rfl
@[simp] theorem State.modDie_clusters (s : State) (d : Nat) (f : Die → Die) : (s.modDie d f).clusters = s.clusters := rfl
@[simp] theorem State.modDie_queues (s : State) (d : Nat) (f : Die → Die) : (s.modDie d f).queues = s.queues := rfl
@[simp] theorem State.modDie_rr (s : State) (d : Nat) (f : Die → Die) : (s.modDie d f).rr = s.rr := rfl
@[simp] theorem State.modDie_waitHdrs (s : State) (d : Nat) (f : Die → Die) : (s.modDie d f).waitHdrs = s.waitHdrs := rfl
@[simp] theorem State.modDie_replays (s : State) (d : Nat) (f : Die → Die) : (s.modDie d f).replays = s.replays := rfl
@[simp] theorem State.modDie_heldVals (s : State) (d : Nat) (f : Die → Die) : (s.modDie d f).heldVals = s.heldVals := rfl
@[simp] theorem State.modDie_tickp (s : State) (d : Nat) (f : Die → Die) : (s.modDie d f).tickp = s.tickp := rfl
@[simp] theorem State.modDie_tickpNext (s : State) (d : Nat) (f : Die → Die) : (s.modDie d f).tickpNext = s.tickpNext := rfl
@[simp] theorem State.modDie_ticks (s : State) (d : Nat) (f : Die → Die) : (s.modDie d f).ticks = s.ticks := rfl
@[simp] theorem State.modDie_tickTime (s : State) (d : Nat) (f : Die → Die) : (s.modDie d f).tickTime = s.tickTime := rfl
@[simp] theorem State.modDie_sysdesc (s : State) (d : Nat) (f : Die → Die) : (s.modDie d f).sysdesc = s.sysdesc := rfl
@[simp] theorem State.modDie_tentab (s : State) (d : Nat) (f : Die → Die) : (s.modDie d f).tentab = s.tentab := rfl
@[simp] theorem State.modDie_asidtab (s : State) (d : Nat) (f : Die → Die) : (s.modDie d f).asidtab = s.asidtab := rfl
@[simp] theorem State.modDie_tenants (s : State) (d : Nat) (f : Die → Die) : (s.modDie d f).tenants = s.tenants := rfl
@[simp] theorem State.modDie_power (s : State) (d : Nat) (f : Die → Die) : (s.modDie d f).power = s.power := rfl
@[simp] theorem State.modDie_step (s : State) (d : Nat) (f : Die → Die) : (s.modDie d f).step = s.step := rfl
@[simp] theorem State.modDie_life (s : State) (d : Nat) (f : Die → Die) : (s.modDie d f).life = s.life := rfl
@[simp] theorem State.modDie_pkg (s : State) (d : Nat) (f : Die → Die) : (s.modDie d f).pkg = s.pkg := rfl
@[simp] theorem State.modDie_route (s : State) (d : Nat) (f : Die → Die) : (s.modDie d f).route = s.route := rfl
@[simp] theorem State.modDie_linksDown (s : State) (d : Nat) (f : Die → Die) : (s.modDie d f).linksDown = s.linksDown := rfl
@[simp] theorem State.modDie_linkFails (s : State) (d : Nat) (f : Die → Die) : (s.modDie d f).linkFails = s.linkFails := rfl
@[simp] theorem State.modDie_toHost (s : State) (d : Nat) (f : Die → Die) : (s.modDie d f).toHost = s.toHost := rfl
@[simp] theorem State.modDie_stalls (s : State) (d : Nat) (f : Die → Die) : (s.modDie d f).stalls = s.stalls := rfl
@[simp] theorem State.modDie_regions (s : State) (d : Nat) (f : Die → Die) : (s.modDie d f).regions = s.regions := rfl
@[simp] theorem State.modDie_pltab (s : State) (d : Nat) (f : Die → Die) : (s.modDie d f).pltab = s.pltab := rfl
@[simp] theorem State.modDie_winRec (s : State) (d : Nat) (f : Die → Die) : (s.modDie d f).winRec = s.winRec := rfl
@[simp] theorem State.modDie_plIdle (s : State) (d : Nat) (f : Die → Die) : (s.modDie d f).plIdle = s.plIdle := rfl
@[simp] theorem State.modDie_plWin (s : State) (d : Nat) (f : Die → Die) : (s.modDie d f).plWin = s.plWin := rfl
@[simp] theorem State.modDie_winTicks (s : State) (d : Nat) (f : Die → Die) : (s.modDie d f).winTicks = s.winTicks := rfl
@[simp] theorem State.modDie_winColl (s : State) (d : Nat) (f : Die → Die) : (s.modDie d f).winColl = s.winColl := rfl
@[simp] theorem State.modDie_mr (s : State) (d : Nat) (f : Die → Die) : (s.modDie d f).mr = s.mr := rfl
@[simp] theorem State.modDie_fwOk (s : State) (d : Nat) (f : Die → Die) : (s.modDie d f).fwOk = s.fwOk := rfl
@[simp] theorem State.modDie_identity (s : State) (d : Nat) (f : Die → Die) : (s.modDie d f).identity = s.identity := rfl
@[simp] theorem State.modDie_barHolds (s : State) (d : Nat) (f : Die → Die) : (s.modDie d f).barHolds = s.barHolds := rfl
@[simp] theorem State.modDie_twins (s : State) (d : Nat) (f : Die → Die) : (s.modDie d f).twins = s.twins := rfl
@[simp] theorem State.modDie_pairCmds (s : State) (d : Nat) (f : Die → Die) : (s.modDie d f).pairCmds = s.pairCmds := rfl
@[simp] theorem State.modDie_pairWrites (s : State) (d : Nat) (f : Die → Die) : (s.modDie d f).pairWrites = s.pairWrites := rfl

/-! ### `State.writeBytes` -/

@[simp] theorem State.writeBytes_agenda (s : State) (k : Nat) (b : List Byte) : (s.writeBytes k b).agenda = s.agenda := rfl
@[simp] theorem State.writeBytes_cur (s : State) (k : Nat) (b : List Byte) : (s.writeBytes k b).cur = s.cur := rfl
@[simp] theorem State.writeBytes_ua (s : State) (k : Nat) (b : List Byte) : (s.writeBytes k b).ua = s.ua := rfl
@[simp] theorem State.writeBytes_ub (s : State) (k : Nat) (b : List Byte) : (s.writeBytes k b).ub = s.ub := rfl
@[simp] theorem State.writeBytes_acc (s : State) (k : Nat) (b : List Byte) : (s.writeBytes k b).acc = s.acc := rfl
@[simp] theorem State.writeBytes_serial (s : State) (k : Nat) (b : List Byte) : (s.writeBytes k b).serial = s.serial := rfl
@[simp] theorem State.writeBytes_now (s : State) (k : Nat) (b : List Byte) : (s.writeBytes k b).now = s.now := rfl
@[simp] theorem State.writeBytes_cycle (s : State) (k : Nat) (b : List Byte) : (s.writeBytes k b).cycle = s.cycle := rfl
@[simp] theorem State.writeBytes_full (s : State) (k : Nat) (b : List Byte) : (s.writeBytes k b).full = s.full := rfl
@[simp] theorem State.writeBytes_strands (s : State) (k : Nat) (b : List Byte) : (s.writeBytes k b).strands = s.strands := rfl
@[simp] theorem State.writeBytes_groups (s : State) (k : Nat) (b : List Byte) : (s.writeBytes k b).groups = s.groups := rfl
@[simp] theorem State.writeBytes_launches (s : State) (k : Nat) (b : List Byte) : (s.writeBytes k b).launches = s.launches := rfl
@[simp] theorem State.writeBytes_cores (s : State) (k : Nat) (b : List Byte) : (s.writeBytes k b).cores = s.cores := rfl
@[simp] theorem State.writeBytes_clusters (s : State) (k : Nat) (b : List Byte) : (s.writeBytes k b).clusters = s.clusters := rfl
@[simp] theorem State.writeBytes_dies (s : State) (k : Nat) (b : List Byte) : (s.writeBytes k b).dies = s.dies := rfl
@[simp] theorem State.writeBytes_queues (s : State) (k : Nat) (b : List Byte) : (s.writeBytes k b).queues = s.queues := rfl
@[simp] theorem State.writeBytes_rr (s : State) (k : Nat) (b : List Byte) : (s.writeBytes k b).rr = s.rr := rfl
@[simp] theorem State.writeBytes_waitHdrs (s : State) (k : Nat) (b : List Byte) : (s.writeBytes k b).waitHdrs = s.waitHdrs := rfl
@[simp] theorem State.writeBytes_replays (s : State) (k : Nat) (b : List Byte) : (s.writeBytes k b).replays = s.replays := rfl
@[simp] theorem State.writeBytes_heldVals (s : State) (k : Nat) (b : List Byte) : (s.writeBytes k b).heldVals = s.heldVals := rfl
@[simp] theorem State.writeBytes_tickp (s : State) (k : Nat) (b : List Byte) : (s.writeBytes k b).tickp = s.tickp := rfl
@[simp] theorem State.writeBytes_tickpNext (s : State) (k : Nat) (b : List Byte) : (s.writeBytes k b).tickpNext = s.tickpNext := rfl
@[simp] theorem State.writeBytes_ticks (s : State) (k : Nat) (b : List Byte) : (s.writeBytes k b).ticks = s.ticks := rfl
@[simp] theorem State.writeBytes_tickTime (s : State) (k : Nat) (b : List Byte) : (s.writeBytes k b).tickTime = s.tickTime := rfl
@[simp] theorem State.writeBytes_sysdesc (s : State) (k : Nat) (b : List Byte) : (s.writeBytes k b).sysdesc = s.sysdesc := rfl
@[simp] theorem State.writeBytes_tentab (s : State) (k : Nat) (b : List Byte) : (s.writeBytes k b).tentab = s.tentab := rfl
@[simp] theorem State.writeBytes_asidtab (s : State) (k : Nat) (b : List Byte) : (s.writeBytes k b).asidtab = s.asidtab := rfl
@[simp] theorem State.writeBytes_tenants (s : State) (k : Nat) (b : List Byte) : (s.writeBytes k b).tenants = s.tenants := rfl
@[simp] theorem State.writeBytes_power (s : State) (k : Nat) (b : List Byte) : (s.writeBytes k b).power = s.power := rfl
@[simp] theorem State.writeBytes_step (s : State) (k : Nat) (b : List Byte) : (s.writeBytes k b).step = s.step := rfl
@[simp] theorem State.writeBytes_life (s : State) (k : Nat) (b : List Byte) : (s.writeBytes k b).life = s.life := rfl
@[simp] theorem State.writeBytes_pkg (s : State) (k : Nat) (b : List Byte) : (s.writeBytes k b).pkg = s.pkg := rfl
@[simp] theorem State.writeBytes_route (s : State) (k : Nat) (b : List Byte) : (s.writeBytes k b).route = s.route := rfl
@[simp] theorem State.writeBytes_linksDown (s : State) (k : Nat) (b : List Byte) : (s.writeBytes k b).linksDown = s.linksDown := rfl
@[simp] theorem State.writeBytes_linkFails (s : State) (k : Nat) (b : List Byte) : (s.writeBytes k b).linkFails = s.linkFails := rfl
@[simp] theorem State.writeBytes_toHost (s : State) (k : Nat) (b : List Byte) : (s.writeBytes k b).toHost = s.toHost := rfl
@[simp] theorem State.writeBytes_stalls (s : State) (k : Nat) (b : List Byte) : (s.writeBytes k b).stalls = s.stalls := rfl
@[simp] theorem State.writeBytes_regions (s : State) (k : Nat) (b : List Byte) : (s.writeBytes k b).regions = s.regions := rfl
@[simp] theorem State.writeBytes_pltab (s : State) (k : Nat) (b : List Byte) : (s.writeBytes k b).pltab = s.pltab := rfl
@[simp] theorem State.writeBytes_winRec (s : State) (k : Nat) (b : List Byte) : (s.writeBytes k b).winRec = s.winRec := rfl
@[simp] theorem State.writeBytes_plIdle (s : State) (k : Nat) (b : List Byte) : (s.writeBytes k b).plIdle = s.plIdle := rfl
@[simp] theorem State.writeBytes_plWin (s : State) (k : Nat) (b : List Byte) : (s.writeBytes k b).plWin = s.plWin := rfl
@[simp] theorem State.writeBytes_winTicks (s : State) (k : Nat) (b : List Byte) : (s.writeBytes k b).winTicks = s.winTicks := rfl
@[simp] theorem State.writeBytes_winColl (s : State) (k : Nat) (b : List Byte) : (s.writeBytes k b).winColl = s.winColl := rfl
@[simp] theorem State.writeBytes_mr (s : State) (k : Nat) (b : List Byte) : (s.writeBytes k b).mr = s.mr := rfl
@[simp] theorem State.writeBytes_fwOk (s : State) (k : Nat) (b : List Byte) : (s.writeBytes k b).fwOk = s.fwOk := rfl
@[simp] theorem State.writeBytes_identity (s : State) (k : Nat) (b : List Byte) : (s.writeBytes k b).identity = s.identity := rfl
@[simp] theorem State.writeBytes_barHolds (s : State) (k : Nat) (b : List Byte) : (s.writeBytes k b).barHolds = s.barHolds := rfl
@[simp] theorem State.writeBytes_twins (s : State) (k : Nat) (b : List Byte) : (s.writeBytes k b).twins = s.twins := rfl
@[simp] theorem State.writeBytes_pairCmds (s : State) (k : Nat) (b : List Byte) : (s.writeBytes k b).pairCmds = s.pairCmds := rfl
@[simp] theorem State.writeBytes_pairWrites (s : State) (k : Nat) (b : List Byte) : (s.writeBytes k b).pairWrites = s.pairWrites := rfl

/-! ### `State.setFull` -/

@[simp] theorem State.setFull_agenda (s : State) (k : Nat) (b : Bool) : (s.setFull k b).agenda = s.agenda := rfl
@[simp] theorem State.setFull_cur (s : State) (k : Nat) (b : Bool) : (s.setFull k b).cur = s.cur := rfl
@[simp] theorem State.setFull_ua (s : State) (k : Nat) (b : Bool) : (s.setFull k b).ua = s.ua := rfl
@[simp] theorem State.setFull_ub (s : State) (k : Nat) (b : Bool) : (s.setFull k b).ub = s.ub := rfl
@[simp] theorem State.setFull_acc (s : State) (k : Nat) (b : Bool) : (s.setFull k b).acc = s.acc := rfl
@[simp] theorem State.setFull_serial (s : State) (k : Nat) (b : Bool) : (s.setFull k b).serial = s.serial := rfl
@[simp] theorem State.setFull_now (s : State) (k : Nat) (b : Bool) : (s.setFull k b).now = s.now := rfl
@[simp] theorem State.setFull_cycle (s : State) (k : Nat) (b : Bool) : (s.setFull k b).cycle = s.cycle := rfl
@[simp] theorem State.setFull_mem (s : State) (k : Nat) (b : Bool) : (s.setFull k b).mem = s.mem := rfl
@[simp] theorem State.setFull_poison (s : State) (k : Nat) (b : Bool) : (s.setFull k b).poison = s.poison := rfl
@[simp] theorem State.setFull_strands (s : State) (k : Nat) (b : Bool) : (s.setFull k b).strands = s.strands := rfl
@[simp] theorem State.setFull_groups (s : State) (k : Nat) (b : Bool) : (s.setFull k b).groups = s.groups := rfl
@[simp] theorem State.setFull_launches (s : State) (k : Nat) (b : Bool) : (s.setFull k b).launches = s.launches := rfl
@[simp] theorem State.setFull_cores (s : State) (k : Nat) (b : Bool) : (s.setFull k b).cores = s.cores := rfl
@[simp] theorem State.setFull_clusters (s : State) (k : Nat) (b : Bool) : (s.setFull k b).clusters = s.clusters := rfl
@[simp] theorem State.setFull_dies (s : State) (k : Nat) (b : Bool) : (s.setFull k b).dies = s.dies := rfl
@[simp] theorem State.setFull_queues (s : State) (k : Nat) (b : Bool) : (s.setFull k b).queues = s.queues := rfl
@[simp] theorem State.setFull_rr (s : State) (k : Nat) (b : Bool) : (s.setFull k b).rr = s.rr := rfl
@[simp] theorem State.setFull_waitHdrs (s : State) (k : Nat) (b : Bool) : (s.setFull k b).waitHdrs = s.waitHdrs := rfl
@[simp] theorem State.setFull_replays (s : State) (k : Nat) (b : Bool) : (s.setFull k b).replays = s.replays := rfl
@[simp] theorem State.setFull_heldVals (s : State) (k : Nat) (b : Bool) : (s.setFull k b).heldVals = s.heldVals := rfl
@[simp] theorem State.setFull_tickp (s : State) (k : Nat) (b : Bool) : (s.setFull k b).tickp = s.tickp := rfl
@[simp] theorem State.setFull_tickpNext (s : State) (k : Nat) (b : Bool) : (s.setFull k b).tickpNext = s.tickpNext := rfl
@[simp] theorem State.setFull_ticks (s : State) (k : Nat) (b : Bool) : (s.setFull k b).ticks = s.ticks := rfl
@[simp] theorem State.setFull_tickTime (s : State) (k : Nat) (b : Bool) : (s.setFull k b).tickTime = s.tickTime := rfl
@[simp] theorem State.setFull_sysdesc (s : State) (k : Nat) (b : Bool) : (s.setFull k b).sysdesc = s.sysdesc := rfl
@[simp] theorem State.setFull_tentab (s : State) (k : Nat) (b : Bool) : (s.setFull k b).tentab = s.tentab := rfl
@[simp] theorem State.setFull_asidtab (s : State) (k : Nat) (b : Bool) : (s.setFull k b).asidtab = s.asidtab := rfl
@[simp] theorem State.setFull_tenants (s : State) (k : Nat) (b : Bool) : (s.setFull k b).tenants = s.tenants := rfl
@[simp] theorem State.setFull_power (s : State) (k : Nat) (b : Bool) : (s.setFull k b).power = s.power := rfl
@[simp] theorem State.setFull_step (s : State) (k : Nat) (b : Bool) : (s.setFull k b).step = s.step := rfl
@[simp] theorem State.setFull_life (s : State) (k : Nat) (b : Bool) : (s.setFull k b).life = s.life := rfl
@[simp] theorem State.setFull_pkg (s : State) (k : Nat) (b : Bool) : (s.setFull k b).pkg = s.pkg := rfl
@[simp] theorem State.setFull_route (s : State) (k : Nat) (b : Bool) : (s.setFull k b).route = s.route := rfl
@[simp] theorem State.setFull_linksDown (s : State) (k : Nat) (b : Bool) : (s.setFull k b).linksDown = s.linksDown := rfl
@[simp] theorem State.setFull_linkFails (s : State) (k : Nat) (b : Bool) : (s.setFull k b).linkFails = s.linkFails := rfl
@[simp] theorem State.setFull_toHost (s : State) (k : Nat) (b : Bool) : (s.setFull k b).toHost = s.toHost := rfl
@[simp] theorem State.setFull_stalls (s : State) (k : Nat) (b : Bool) : (s.setFull k b).stalls = s.stalls := rfl
@[simp] theorem State.setFull_regions (s : State) (k : Nat) (b : Bool) : (s.setFull k b).regions = s.regions := rfl
@[simp] theorem State.setFull_pltab (s : State) (k : Nat) (b : Bool) : (s.setFull k b).pltab = s.pltab := rfl
@[simp] theorem State.setFull_winRec (s : State) (k : Nat) (b : Bool) : (s.setFull k b).winRec = s.winRec := rfl
@[simp] theorem State.setFull_plIdle (s : State) (k : Nat) (b : Bool) : (s.setFull k b).plIdle = s.plIdle := rfl
@[simp] theorem State.setFull_plWin (s : State) (k : Nat) (b : Bool) : (s.setFull k b).plWin = s.plWin := rfl
@[simp] theorem State.setFull_winTicks (s : State) (k : Nat) (b : Bool) : (s.setFull k b).winTicks = s.winTicks := rfl
@[simp] theorem State.setFull_winColl (s : State) (k : Nat) (b : Bool) : (s.setFull k b).winColl = s.winColl := rfl
@[simp] theorem State.setFull_mr (s : State) (k : Nat) (b : Bool) : (s.setFull k b).mr = s.mr := rfl
@[simp] theorem State.setFull_fwOk (s : State) (k : Nat) (b : Bool) : (s.setFull k b).fwOk = s.fwOk := rfl
@[simp] theorem State.setFull_identity (s : State) (k : Nat) (b : Bool) : (s.setFull k b).identity = s.identity := rfl
@[simp] theorem State.setFull_barHolds (s : State) (k : Nat) (b : Bool) : (s.setFull k b).barHolds = s.barHolds := rfl
@[simp] theorem State.setFull_twins (s : State) (k : Nat) (b : Bool) : (s.setFull k b).twins = s.twins := rfl
@[simp] theorem State.setFull_pairCmds (s : State) (k : Nat) (b : Bool) : (s.setFull k b).pairCmds = s.pairCmds := rfl
@[simp] theorem State.setFull_pairWrites (s : State) (k : Nat) (b : Bool) : (s.setFull k b).pairWrites = s.pairWrites := rfl

/-! ### `State.modStrand` -/

@[simp] theorem State.modStrand_agenda (s : State) (i : Nat) (f : Strand → Strand) : (s.modStrand i f).agenda = s.agenda := by
  unfold State.modStrand; split <;> rfl
@[simp] theorem State.modStrand_cur (s : State) (i : Nat) (f : Strand → Strand) : (s.modStrand i f).cur = s.cur := by
  unfold State.modStrand; split <;> rfl
@[simp] theorem State.modStrand_ua (s : State) (i : Nat) (f : Strand → Strand) : (s.modStrand i f).ua = s.ua := by
  unfold State.modStrand; split <;> rfl
@[simp] theorem State.modStrand_ub (s : State) (i : Nat) (f : Strand → Strand) : (s.modStrand i f).ub = s.ub := by
  unfold State.modStrand; split <;> rfl
@[simp] theorem State.modStrand_acc (s : State) (i : Nat) (f : Strand → Strand) : (s.modStrand i f).acc = s.acc := by
  unfold State.modStrand; split <;> rfl
@[simp] theorem State.modStrand_serial (s : State) (i : Nat) (f : Strand → Strand) : (s.modStrand i f).serial = s.serial := by
  unfold State.modStrand; split <;> rfl
@[simp] theorem State.modStrand_now (s : State) (i : Nat) (f : Strand → Strand) : (s.modStrand i f).now = s.now := by
  unfold State.modStrand; split <;> rfl
@[simp] theorem State.modStrand_cycle (s : State) (i : Nat) (f : Strand → Strand) : (s.modStrand i f).cycle = s.cycle := by
  unfold State.modStrand; split <;> rfl
@[simp] theorem State.modStrand_mem (s : State) (i : Nat) (f : Strand → Strand) : (s.modStrand i f).mem = s.mem := by
  unfold State.modStrand; split <;> rfl
@[simp] theorem State.modStrand_full (s : State) (i : Nat) (f : Strand → Strand) : (s.modStrand i f).full = s.full := by
  unfold State.modStrand; split <;> rfl
@[simp] theorem State.modStrand_poison (s : State) (i : Nat) (f : Strand → Strand) : (s.modStrand i f).poison = s.poison := by
  unfold State.modStrand; split <;> rfl
@[simp] theorem State.modStrand_groups (s : State) (i : Nat) (f : Strand → Strand) : (s.modStrand i f).groups = s.groups := by
  unfold State.modStrand; split <;> rfl
@[simp] theorem State.modStrand_launches (s : State) (i : Nat) (f : Strand → Strand) : (s.modStrand i f).launches = s.launches := by
  unfold State.modStrand; split <;> rfl
@[simp] theorem State.modStrand_cores (s : State) (i : Nat) (f : Strand → Strand) : (s.modStrand i f).cores = s.cores := by
  unfold State.modStrand; split <;> rfl
@[simp] theorem State.modStrand_clusters (s : State) (i : Nat) (f : Strand → Strand) : (s.modStrand i f).clusters = s.clusters := by
  unfold State.modStrand; split <;> rfl
@[simp] theorem State.modStrand_dies (s : State) (i : Nat) (f : Strand → Strand) : (s.modStrand i f).dies = s.dies := by
  unfold State.modStrand; split <;> rfl
@[simp] theorem State.modStrand_queues (s : State) (i : Nat) (f : Strand → Strand) : (s.modStrand i f).queues = s.queues := by
  unfold State.modStrand; split <;> rfl
@[simp] theorem State.modStrand_rr (s : State) (i : Nat) (f : Strand → Strand) : (s.modStrand i f).rr = s.rr := by
  unfold State.modStrand; split <;> rfl
@[simp] theorem State.modStrand_waitHdrs (s : State) (i : Nat) (f : Strand → Strand) : (s.modStrand i f).waitHdrs = s.waitHdrs := by
  unfold State.modStrand; split <;> rfl
@[simp] theorem State.modStrand_replays (s : State) (i : Nat) (f : Strand → Strand) : (s.modStrand i f).replays = s.replays := by
  unfold State.modStrand; split <;> rfl
@[simp] theorem State.modStrand_heldVals (s : State) (i : Nat) (f : Strand → Strand) : (s.modStrand i f).heldVals = s.heldVals := by
  unfold State.modStrand; split <;> rfl
@[simp] theorem State.modStrand_tickp (s : State) (i : Nat) (f : Strand → Strand) : (s.modStrand i f).tickp = s.tickp := by
  unfold State.modStrand; split <;> rfl
@[simp] theorem State.modStrand_tickpNext (s : State) (i : Nat) (f : Strand → Strand) : (s.modStrand i f).tickpNext = s.tickpNext := by
  unfold State.modStrand; split <;> rfl
@[simp] theorem State.modStrand_ticks (s : State) (i : Nat) (f : Strand → Strand) : (s.modStrand i f).ticks = s.ticks := by
  unfold State.modStrand; split <;> rfl
@[simp] theorem State.modStrand_tickTime (s : State) (i : Nat) (f : Strand → Strand) : (s.modStrand i f).tickTime = s.tickTime := by
  unfold State.modStrand; split <;> rfl
@[simp] theorem State.modStrand_sysdesc (s : State) (i : Nat) (f : Strand → Strand) : (s.modStrand i f).sysdesc = s.sysdesc := by
  unfold State.modStrand; split <;> rfl
@[simp] theorem State.modStrand_tentab (s : State) (i : Nat) (f : Strand → Strand) : (s.modStrand i f).tentab = s.tentab := by
  unfold State.modStrand; split <;> rfl
@[simp] theorem State.modStrand_asidtab (s : State) (i : Nat) (f : Strand → Strand) : (s.modStrand i f).asidtab = s.asidtab := by
  unfold State.modStrand; split <;> rfl
@[simp] theorem State.modStrand_tenants (s : State) (i : Nat) (f : Strand → Strand) : (s.modStrand i f).tenants = s.tenants := by
  unfold State.modStrand; split <;> rfl
@[simp] theorem State.modStrand_power (s : State) (i : Nat) (f : Strand → Strand) : (s.modStrand i f).power = s.power := by
  unfold State.modStrand; split <;> rfl
@[simp] theorem State.modStrand_step (s : State) (i : Nat) (f : Strand → Strand) : (s.modStrand i f).step = s.step := by
  unfold State.modStrand; split <;> rfl
@[simp] theorem State.modStrand_life (s : State) (i : Nat) (f : Strand → Strand) : (s.modStrand i f).life = s.life := by
  unfold State.modStrand; split <;> rfl
@[simp] theorem State.modStrand_pkg (s : State) (i : Nat) (f : Strand → Strand) : (s.modStrand i f).pkg = s.pkg := by
  unfold State.modStrand; split <;> rfl
@[simp] theorem State.modStrand_route (s : State) (i : Nat) (f : Strand → Strand) : (s.modStrand i f).route = s.route := by
  unfold State.modStrand; split <;> rfl
@[simp] theorem State.modStrand_linksDown (s : State) (i : Nat) (f : Strand → Strand) : (s.modStrand i f).linksDown = s.linksDown := by
  unfold State.modStrand; split <;> rfl
@[simp] theorem State.modStrand_linkFails (s : State) (i : Nat) (f : Strand → Strand) : (s.modStrand i f).linkFails = s.linkFails := by
  unfold State.modStrand; split <;> rfl
@[simp] theorem State.modStrand_toHost (s : State) (i : Nat) (f : Strand → Strand) : (s.modStrand i f).toHost = s.toHost := by
  unfold State.modStrand; split <;> rfl
@[simp] theorem State.modStrand_stalls (s : State) (i : Nat) (f : Strand → Strand) : (s.modStrand i f).stalls = s.stalls := by
  unfold State.modStrand; split <;> rfl
@[simp] theorem State.modStrand_regions (s : State) (i : Nat) (f : Strand → Strand) : (s.modStrand i f).regions = s.regions := by
  unfold State.modStrand; split <;> rfl
@[simp] theorem State.modStrand_pltab (s : State) (i : Nat) (f : Strand → Strand) : (s.modStrand i f).pltab = s.pltab := by
  unfold State.modStrand; split <;> rfl
@[simp] theorem State.modStrand_winRec (s : State) (i : Nat) (f : Strand → Strand) : (s.modStrand i f).winRec = s.winRec := by
  unfold State.modStrand; split <;> rfl
@[simp] theorem State.modStrand_plIdle (s : State) (i : Nat) (f : Strand → Strand) : (s.modStrand i f).plIdle = s.plIdle := by
  unfold State.modStrand; split <;> rfl
@[simp] theorem State.modStrand_plWin (s : State) (i : Nat) (f : Strand → Strand) : (s.modStrand i f).plWin = s.plWin := by
  unfold State.modStrand; split <;> rfl
@[simp] theorem State.modStrand_winTicks (s : State) (i : Nat) (f : Strand → Strand) : (s.modStrand i f).winTicks = s.winTicks := by
  unfold State.modStrand; split <;> rfl
@[simp] theorem State.modStrand_winColl (s : State) (i : Nat) (f : Strand → Strand) : (s.modStrand i f).winColl = s.winColl := by
  unfold State.modStrand; split <;> rfl
@[simp] theorem State.modStrand_mr (s : State) (i : Nat) (f : Strand → Strand) : (s.modStrand i f).mr = s.mr := by
  unfold State.modStrand; split <;> rfl
@[simp] theorem State.modStrand_fwOk (s : State) (i : Nat) (f : Strand → Strand) : (s.modStrand i f).fwOk = s.fwOk := by
  unfold State.modStrand; split <;> rfl
@[simp] theorem State.modStrand_identity (s : State) (i : Nat) (f : Strand → Strand) : (s.modStrand i f).identity = s.identity := by
  unfold State.modStrand; split <;> rfl
@[simp] theorem State.modStrand_barHolds (s : State) (i : Nat) (f : Strand → Strand) : (s.modStrand i f).barHolds = s.barHolds := by
  unfold State.modStrand; split <;> rfl
@[simp] theorem State.modStrand_twins (s : State) (i : Nat) (f : Strand → Strand) : (s.modStrand i f).twins = s.twins := by
  unfold State.modStrand; split <;> rfl
@[simp] theorem State.modStrand_pairCmds (s : State) (i : Nat) (f : Strand → Strand) : (s.modStrand i f).pairCmds = s.pairCmds := by
  unfold State.modStrand; split <;> rfl
@[simp] theorem State.modStrand_pairWrites (s : State) (i : Nat) (f : Strand → Strand) : (s.modStrand i f).pairWrites = s.pairWrites := by
  unfold State.modStrand; split <;> rfl

/-! ### `State.modGroup` -/

@[simp] theorem State.modGroup_agenda (s : State) (g : Nat) (f : Group → Group) : (s.modGroup g f).agenda = s.agenda := by
  unfold State.modGroup; split <;> rfl
@[simp] theorem State.modGroup_cur (s : State) (g : Nat) (f : Group → Group) : (s.modGroup g f).cur = s.cur := by
  unfold State.modGroup; split <;> rfl
@[simp] theorem State.modGroup_ua (s : State) (g : Nat) (f : Group → Group) : (s.modGroup g f).ua = s.ua := by
  unfold State.modGroup; split <;> rfl
@[simp] theorem State.modGroup_ub (s : State) (g : Nat) (f : Group → Group) : (s.modGroup g f).ub = s.ub := by
  unfold State.modGroup; split <;> rfl
@[simp] theorem State.modGroup_acc (s : State) (g : Nat) (f : Group → Group) : (s.modGroup g f).acc = s.acc := by
  unfold State.modGroup; split <;> rfl
@[simp] theorem State.modGroup_serial (s : State) (g : Nat) (f : Group → Group) : (s.modGroup g f).serial = s.serial := by
  unfold State.modGroup; split <;> rfl
@[simp] theorem State.modGroup_now (s : State) (g : Nat) (f : Group → Group) : (s.modGroup g f).now = s.now := by
  unfold State.modGroup; split <;> rfl
@[simp] theorem State.modGroup_cycle (s : State) (g : Nat) (f : Group → Group) : (s.modGroup g f).cycle = s.cycle := by
  unfold State.modGroup; split <;> rfl
@[simp] theorem State.modGroup_mem (s : State) (g : Nat) (f : Group → Group) : (s.modGroup g f).mem = s.mem := by
  unfold State.modGroup; split <;> rfl
@[simp] theorem State.modGroup_full (s : State) (g : Nat) (f : Group → Group) : (s.modGroup g f).full = s.full := by
  unfold State.modGroup; split <;> rfl
@[simp] theorem State.modGroup_poison (s : State) (g : Nat) (f : Group → Group) : (s.modGroup g f).poison = s.poison := by
  unfold State.modGroup; split <;> rfl
@[simp] theorem State.modGroup_strands (s : State) (g : Nat) (f : Group → Group) : (s.modGroup g f).strands = s.strands := by
  unfold State.modGroup; split <;> rfl
@[simp] theorem State.modGroup_launches (s : State) (g : Nat) (f : Group → Group) : (s.modGroup g f).launches = s.launches := by
  unfold State.modGroup; split <;> rfl
@[simp] theorem State.modGroup_cores (s : State) (g : Nat) (f : Group → Group) : (s.modGroup g f).cores = s.cores := by
  unfold State.modGroup; split <;> rfl
@[simp] theorem State.modGroup_clusters (s : State) (g : Nat) (f : Group → Group) : (s.modGroup g f).clusters = s.clusters := by
  unfold State.modGroup; split <;> rfl
@[simp] theorem State.modGroup_dies (s : State) (g : Nat) (f : Group → Group) : (s.modGroup g f).dies = s.dies := by
  unfold State.modGroup; split <;> rfl
@[simp] theorem State.modGroup_queues (s : State) (g : Nat) (f : Group → Group) : (s.modGroup g f).queues = s.queues := by
  unfold State.modGroup; split <;> rfl
@[simp] theorem State.modGroup_rr (s : State) (g : Nat) (f : Group → Group) : (s.modGroup g f).rr = s.rr := by
  unfold State.modGroup; split <;> rfl
@[simp] theorem State.modGroup_waitHdrs (s : State) (g : Nat) (f : Group → Group) : (s.modGroup g f).waitHdrs = s.waitHdrs := by
  unfold State.modGroup; split <;> rfl
@[simp] theorem State.modGroup_replays (s : State) (g : Nat) (f : Group → Group) : (s.modGroup g f).replays = s.replays := by
  unfold State.modGroup; split <;> rfl
@[simp] theorem State.modGroup_heldVals (s : State) (g : Nat) (f : Group → Group) : (s.modGroup g f).heldVals = s.heldVals := by
  unfold State.modGroup; split <;> rfl
@[simp] theorem State.modGroup_tickp (s : State) (g : Nat) (f : Group → Group) : (s.modGroup g f).tickp = s.tickp := by
  unfold State.modGroup; split <;> rfl
@[simp] theorem State.modGroup_tickpNext (s : State) (g : Nat) (f : Group → Group) : (s.modGroup g f).tickpNext = s.tickpNext := by
  unfold State.modGroup; split <;> rfl
@[simp] theorem State.modGroup_ticks (s : State) (g : Nat) (f : Group → Group) : (s.modGroup g f).ticks = s.ticks := by
  unfold State.modGroup; split <;> rfl
@[simp] theorem State.modGroup_tickTime (s : State) (g : Nat) (f : Group → Group) : (s.modGroup g f).tickTime = s.tickTime := by
  unfold State.modGroup; split <;> rfl
@[simp] theorem State.modGroup_sysdesc (s : State) (g : Nat) (f : Group → Group) : (s.modGroup g f).sysdesc = s.sysdesc := by
  unfold State.modGroup; split <;> rfl
@[simp] theorem State.modGroup_tentab (s : State) (g : Nat) (f : Group → Group) : (s.modGroup g f).tentab = s.tentab := by
  unfold State.modGroup; split <;> rfl
@[simp] theorem State.modGroup_asidtab (s : State) (g : Nat) (f : Group → Group) : (s.modGroup g f).asidtab = s.asidtab := by
  unfold State.modGroup; split <;> rfl
@[simp] theorem State.modGroup_tenants (s : State) (g : Nat) (f : Group → Group) : (s.modGroup g f).tenants = s.tenants := by
  unfold State.modGroup; split <;> rfl
@[simp] theorem State.modGroup_power (s : State) (g : Nat) (f : Group → Group) : (s.modGroup g f).power = s.power := by
  unfold State.modGroup; split <;> rfl
@[simp] theorem State.modGroup_step (s : State) (g : Nat) (f : Group → Group) : (s.modGroup g f).step = s.step := by
  unfold State.modGroup; split <;> rfl
@[simp] theorem State.modGroup_life (s : State) (g : Nat) (f : Group → Group) : (s.modGroup g f).life = s.life := by
  unfold State.modGroup; split <;> rfl
@[simp] theorem State.modGroup_pkg (s : State) (g : Nat) (f : Group → Group) : (s.modGroup g f).pkg = s.pkg := by
  unfold State.modGroup; split <;> rfl
@[simp] theorem State.modGroup_route (s : State) (g : Nat) (f : Group → Group) : (s.modGroup g f).route = s.route := by
  unfold State.modGroup; split <;> rfl
@[simp] theorem State.modGroup_linksDown (s : State) (g : Nat) (f : Group → Group) : (s.modGroup g f).linksDown = s.linksDown := by
  unfold State.modGroup; split <;> rfl
@[simp] theorem State.modGroup_linkFails (s : State) (g : Nat) (f : Group → Group) : (s.modGroup g f).linkFails = s.linkFails := by
  unfold State.modGroup; split <;> rfl
@[simp] theorem State.modGroup_toHost (s : State) (g : Nat) (f : Group → Group) : (s.modGroup g f).toHost = s.toHost := by
  unfold State.modGroup; split <;> rfl
@[simp] theorem State.modGroup_stalls (s : State) (g : Nat) (f : Group → Group) : (s.modGroup g f).stalls = s.stalls := by
  unfold State.modGroup; split <;> rfl
@[simp] theorem State.modGroup_regions (s : State) (g : Nat) (f : Group → Group) : (s.modGroup g f).regions = s.regions := by
  unfold State.modGroup; split <;> rfl
@[simp] theorem State.modGroup_pltab (s : State) (g : Nat) (f : Group → Group) : (s.modGroup g f).pltab = s.pltab := by
  unfold State.modGroup; split <;> rfl
@[simp] theorem State.modGroup_winRec (s : State) (g : Nat) (f : Group → Group) : (s.modGroup g f).winRec = s.winRec := by
  unfold State.modGroup; split <;> rfl
@[simp] theorem State.modGroup_plIdle (s : State) (g : Nat) (f : Group → Group) : (s.modGroup g f).plIdle = s.plIdle := by
  unfold State.modGroup; split <;> rfl
@[simp] theorem State.modGroup_plWin (s : State) (g : Nat) (f : Group → Group) : (s.modGroup g f).plWin = s.plWin := by
  unfold State.modGroup; split <;> rfl
@[simp] theorem State.modGroup_winTicks (s : State) (g : Nat) (f : Group → Group) : (s.modGroup g f).winTicks = s.winTicks := by
  unfold State.modGroup; split <;> rfl
@[simp] theorem State.modGroup_winColl (s : State) (g : Nat) (f : Group → Group) : (s.modGroup g f).winColl = s.winColl := by
  unfold State.modGroup; split <;> rfl
@[simp] theorem State.modGroup_mr (s : State) (g : Nat) (f : Group → Group) : (s.modGroup g f).mr = s.mr := by
  unfold State.modGroup; split <;> rfl
@[simp] theorem State.modGroup_fwOk (s : State) (g : Nat) (f : Group → Group) : (s.modGroup g f).fwOk = s.fwOk := by
  unfold State.modGroup; split <;> rfl
@[simp] theorem State.modGroup_identity (s : State) (g : Nat) (f : Group → Group) : (s.modGroup g f).identity = s.identity := by
  unfold State.modGroup; split <;> rfl
@[simp] theorem State.modGroup_barHolds (s : State) (g : Nat) (f : Group → Group) : (s.modGroup g f).barHolds = s.barHolds := by
  unfold State.modGroup; split <;> rfl
@[simp] theorem State.modGroup_twins (s : State) (g : Nat) (f : Group → Group) : (s.modGroup g f).twins = s.twins := by
  unfold State.modGroup; split <;> rfl
@[simp] theorem State.modGroup_pairCmds (s : State) (g : Nat) (f : Group → Group) : (s.modGroup g f).pairCmds = s.pairCmds := by
  unfold State.modGroup; split <;> rfl
@[simp] theorem State.modGroup_pairWrites (s : State) (g : Nat) (f : Group → Group) : (s.modGroup g f).pairWrites = s.pairWrites := by
  unfold State.modGroup; split <;> rfl

/-! ### `State.modLaunch` -/

@[simp] theorem State.modLaunch_agenda (s : State) (l : Nat) (f : Launch → Launch) : (s.modLaunch l f).agenda = s.agenda := by
  unfold State.modLaunch; split <;> rfl
@[simp] theorem State.modLaunch_cur (s : State) (l : Nat) (f : Launch → Launch) : (s.modLaunch l f).cur = s.cur := by
  unfold State.modLaunch; split <;> rfl
@[simp] theorem State.modLaunch_ua (s : State) (l : Nat) (f : Launch → Launch) : (s.modLaunch l f).ua = s.ua := by
  unfold State.modLaunch; split <;> rfl
@[simp] theorem State.modLaunch_ub (s : State) (l : Nat) (f : Launch → Launch) : (s.modLaunch l f).ub = s.ub := by
  unfold State.modLaunch; split <;> rfl
@[simp] theorem State.modLaunch_acc (s : State) (l : Nat) (f : Launch → Launch) : (s.modLaunch l f).acc = s.acc := by
  unfold State.modLaunch; split <;> rfl
@[simp] theorem State.modLaunch_serial (s : State) (l : Nat) (f : Launch → Launch) : (s.modLaunch l f).serial = s.serial := by
  unfold State.modLaunch; split <;> rfl
@[simp] theorem State.modLaunch_now (s : State) (l : Nat) (f : Launch → Launch) : (s.modLaunch l f).now = s.now := by
  unfold State.modLaunch; split <;> rfl
@[simp] theorem State.modLaunch_cycle (s : State) (l : Nat) (f : Launch → Launch) : (s.modLaunch l f).cycle = s.cycle := by
  unfold State.modLaunch; split <;> rfl
@[simp] theorem State.modLaunch_mem (s : State) (l : Nat) (f : Launch → Launch) : (s.modLaunch l f).mem = s.mem := by
  unfold State.modLaunch; split <;> rfl
@[simp] theorem State.modLaunch_full (s : State) (l : Nat) (f : Launch → Launch) : (s.modLaunch l f).full = s.full := by
  unfold State.modLaunch; split <;> rfl
@[simp] theorem State.modLaunch_poison (s : State) (l : Nat) (f : Launch → Launch) : (s.modLaunch l f).poison = s.poison := by
  unfold State.modLaunch; split <;> rfl
@[simp] theorem State.modLaunch_strands (s : State) (l : Nat) (f : Launch → Launch) : (s.modLaunch l f).strands = s.strands := by
  unfold State.modLaunch; split <;> rfl
@[simp] theorem State.modLaunch_groups (s : State) (l : Nat) (f : Launch → Launch) : (s.modLaunch l f).groups = s.groups := by
  unfold State.modLaunch; split <;> rfl
@[simp] theorem State.modLaunch_cores (s : State) (l : Nat) (f : Launch → Launch) : (s.modLaunch l f).cores = s.cores := by
  unfold State.modLaunch; split <;> rfl
@[simp] theorem State.modLaunch_clusters (s : State) (l : Nat) (f : Launch → Launch) : (s.modLaunch l f).clusters = s.clusters := by
  unfold State.modLaunch; split <;> rfl
@[simp] theorem State.modLaunch_dies (s : State) (l : Nat) (f : Launch → Launch) : (s.modLaunch l f).dies = s.dies := by
  unfold State.modLaunch; split <;> rfl
@[simp] theorem State.modLaunch_queues (s : State) (l : Nat) (f : Launch → Launch) : (s.modLaunch l f).queues = s.queues := by
  unfold State.modLaunch; split <;> rfl
@[simp] theorem State.modLaunch_rr (s : State) (l : Nat) (f : Launch → Launch) : (s.modLaunch l f).rr = s.rr := by
  unfold State.modLaunch; split <;> rfl
@[simp] theorem State.modLaunch_waitHdrs (s : State) (l : Nat) (f : Launch → Launch) : (s.modLaunch l f).waitHdrs = s.waitHdrs := by
  unfold State.modLaunch; split <;> rfl
@[simp] theorem State.modLaunch_replays (s : State) (l : Nat) (f : Launch → Launch) : (s.modLaunch l f).replays = s.replays := by
  unfold State.modLaunch; split <;> rfl
@[simp] theorem State.modLaunch_heldVals (s : State) (l : Nat) (f : Launch → Launch) : (s.modLaunch l f).heldVals = s.heldVals := by
  unfold State.modLaunch; split <;> rfl
@[simp] theorem State.modLaunch_tickp (s : State) (l : Nat) (f : Launch → Launch) : (s.modLaunch l f).tickp = s.tickp := by
  unfold State.modLaunch; split <;> rfl
@[simp] theorem State.modLaunch_tickpNext (s : State) (l : Nat) (f : Launch → Launch) : (s.modLaunch l f).tickpNext = s.tickpNext := by
  unfold State.modLaunch; split <;> rfl
@[simp] theorem State.modLaunch_ticks (s : State) (l : Nat) (f : Launch → Launch) : (s.modLaunch l f).ticks = s.ticks := by
  unfold State.modLaunch; split <;> rfl
@[simp] theorem State.modLaunch_tickTime (s : State) (l : Nat) (f : Launch → Launch) : (s.modLaunch l f).tickTime = s.tickTime := by
  unfold State.modLaunch; split <;> rfl
@[simp] theorem State.modLaunch_sysdesc (s : State) (l : Nat) (f : Launch → Launch) : (s.modLaunch l f).sysdesc = s.sysdesc := by
  unfold State.modLaunch; split <;> rfl
@[simp] theorem State.modLaunch_tentab (s : State) (l : Nat) (f : Launch → Launch) : (s.modLaunch l f).tentab = s.tentab := by
  unfold State.modLaunch; split <;> rfl
@[simp] theorem State.modLaunch_asidtab (s : State) (l : Nat) (f : Launch → Launch) : (s.modLaunch l f).asidtab = s.asidtab := by
  unfold State.modLaunch; split <;> rfl
@[simp] theorem State.modLaunch_tenants (s : State) (l : Nat) (f : Launch → Launch) : (s.modLaunch l f).tenants = s.tenants := by
  unfold State.modLaunch; split <;> rfl
@[simp] theorem State.modLaunch_power (s : State) (l : Nat) (f : Launch → Launch) : (s.modLaunch l f).power = s.power := by
  unfold State.modLaunch; split <;> rfl
@[simp] theorem State.modLaunch_step (s : State) (l : Nat) (f : Launch → Launch) : (s.modLaunch l f).step = s.step := by
  unfold State.modLaunch; split <;> rfl
@[simp] theorem State.modLaunch_life (s : State) (l : Nat) (f : Launch → Launch) : (s.modLaunch l f).life = s.life := by
  unfold State.modLaunch; split <;> rfl
@[simp] theorem State.modLaunch_pkg (s : State) (l : Nat) (f : Launch → Launch) : (s.modLaunch l f).pkg = s.pkg := by
  unfold State.modLaunch; split <;> rfl
@[simp] theorem State.modLaunch_route (s : State) (l : Nat) (f : Launch → Launch) : (s.modLaunch l f).route = s.route := by
  unfold State.modLaunch; split <;> rfl
@[simp] theorem State.modLaunch_linksDown (s : State) (l : Nat) (f : Launch → Launch) : (s.modLaunch l f).linksDown = s.linksDown := by
  unfold State.modLaunch; split <;> rfl
@[simp] theorem State.modLaunch_linkFails (s : State) (l : Nat) (f : Launch → Launch) : (s.modLaunch l f).linkFails = s.linkFails := by
  unfold State.modLaunch; split <;> rfl
@[simp] theorem State.modLaunch_toHost (s : State) (l : Nat) (f : Launch → Launch) : (s.modLaunch l f).toHost = s.toHost := by
  unfold State.modLaunch; split <;> rfl
@[simp] theorem State.modLaunch_stalls (s : State) (l : Nat) (f : Launch → Launch) : (s.modLaunch l f).stalls = s.stalls := by
  unfold State.modLaunch; split <;> rfl
@[simp] theorem State.modLaunch_regions (s : State) (l : Nat) (f : Launch → Launch) : (s.modLaunch l f).regions = s.regions := by
  unfold State.modLaunch; split <;> rfl
@[simp] theorem State.modLaunch_pltab (s : State) (l : Nat) (f : Launch → Launch) : (s.modLaunch l f).pltab = s.pltab := by
  unfold State.modLaunch; split <;> rfl
@[simp] theorem State.modLaunch_winRec (s : State) (l : Nat) (f : Launch → Launch) : (s.modLaunch l f).winRec = s.winRec := by
  unfold State.modLaunch; split <;> rfl
@[simp] theorem State.modLaunch_plIdle (s : State) (l : Nat) (f : Launch → Launch) : (s.modLaunch l f).plIdle = s.plIdle := by
  unfold State.modLaunch; split <;> rfl
@[simp] theorem State.modLaunch_plWin (s : State) (l : Nat) (f : Launch → Launch) : (s.modLaunch l f).plWin = s.plWin := by
  unfold State.modLaunch; split <;> rfl
@[simp] theorem State.modLaunch_winTicks (s : State) (l : Nat) (f : Launch → Launch) : (s.modLaunch l f).winTicks = s.winTicks := by
  unfold State.modLaunch; split <;> rfl
@[simp] theorem State.modLaunch_winColl (s : State) (l : Nat) (f : Launch → Launch) : (s.modLaunch l f).winColl = s.winColl := by
  unfold State.modLaunch; split <;> rfl
@[simp] theorem State.modLaunch_mr (s : State) (l : Nat) (f : Launch → Launch) : (s.modLaunch l f).mr = s.mr := by
  unfold State.modLaunch; split <;> rfl
@[simp] theorem State.modLaunch_fwOk (s : State) (l : Nat) (f : Launch → Launch) : (s.modLaunch l f).fwOk = s.fwOk := by
  unfold State.modLaunch; split <;> rfl
@[simp] theorem State.modLaunch_identity (s : State) (l : Nat) (f : Launch → Launch) : (s.modLaunch l f).identity = s.identity := by
  unfold State.modLaunch; split <;> rfl
@[simp] theorem State.modLaunch_barHolds (s : State) (l : Nat) (f : Launch → Launch) : (s.modLaunch l f).barHolds = s.barHolds := by
  unfold State.modLaunch; split <;> rfl
@[simp] theorem State.modLaunch_twins (s : State) (l : Nat) (f : Launch → Launch) : (s.modLaunch l f).twins = s.twins := by
  unfold State.modLaunch; split <;> rfl
@[simp] theorem State.modLaunch_pairCmds (s : State) (l : Nat) (f : Launch → Launch) : (s.modLaunch l f).pairCmds = s.pairCmds := by
  unfold State.modLaunch; split <;> rfl
@[simp] theorem State.modLaunch_pairWrites (s : State) (l : Nat) (f : Launch → Launch) : (s.modLaunch l f).pairWrites = s.pairWrites := by
  unfold State.modLaunch; split <;> rfl

/-! ### Reading a unit after an update -/

@[simp] theorem State.strand?_setStrand_self (s : State) (i : Nat) (t : Strand) : (s.setStrand i t).strand? i = some t :=
  Tab.get?_set_self _ _ _

theorem State.strand?_setStrand_other (s : State) {i j : Nat} (t : Strand) (h : j ≠ i) :
    (s.setStrand i t).strand? j = s.strand? j := Tab.get?_set_other _ _ h

@[simp] theorem State.core_setStrand (s : State) (i c : Nat) (t : Strand) : (s.setStrand i t).core c = s.core c := rfl
@[simp] theorem State.group_setStrand (s : State) (i g : Nat) (t : Strand) : (s.setStrand i t).group g = s.group g := rfl
@[simp] theorem State.die_setStrand (s : State) (i d : Nat) (t : Strand) : (s.setStrand i t).die d = s.die d := rfl
@[simp] theorem State.cluster_setStrand (s : State) (i c : Nat) (t : Strand) : (s.setStrand i t).cluster c = s.cluster c :=
  rfl
@[simp] theorem State.readBytes_setStrand (s : State) (i : Nat) (t : Strand) (k n : Nat) :
    (s.setStrand i t).readBytes k n = s.readBytes k n := rfl

@[simp] theorem State.core_modCore_self (s : State) (c : Nat) (f : Core → Core) : (s.modCore c f).core c = f (s.core c) :=
  Tab.getD_set_self _ _ _ _

theorem State.core_modCore_other (s : State) {c d : Nat} (f : Core → Core) (h : d ≠ c) :
    (s.modCore c f).core d = s.core d := Tab.getD_set_other _ _ _ h

@[simp] theorem State.strand?_modCore (s : State) (c i : Nat) (f : Core → Core) : (s.modCore c f).strand? i = s.strand? i :=
  rfl

@[simp] theorem State.die_modDie_self (s : State) (d : Nat) (f : Die → Die) : (s.modDie d f).die d = f (s.die d) :=
  Tab.getD_set_self _ _ _ _

theorem State.die_modDie_other (s : State) {d e : Nat} (f : Die → Die) (h : e ≠ d) : (s.modDie d f).die e = s.die e :=
  Tab.getD_set_other _ _ _ h

@[simp] theorem State.strand?_modDie (s : State) (d i : Nat) (f : Die → Die) : (s.modDie d f).strand? i = s.strand? i := rfl

@[simp] theorem State.cluster_modCluster_self (s : State) (c : Nat) (f : Cluster → Cluster) :
    (s.modCluster c f).cluster c = f (s.cluster c) := Tab.getD_set_self _ _ _ _

theorem State.cluster_modCluster_other (s : State) {c d : Nat} (f : Cluster → Cluster) (h : d ≠ c) :
    (s.modCluster c f).cluster d = s.cluster d := Tab.getD_set_other _ _ _ h

@[simp] theorem State.strand?_modCluster (s : State) (c i : Nat) (f : Cluster → Cluster) :
    (s.modCluster c f).strand? i = s.strand? i := rfl

theorem State.strand?_modStrand_self (s : State) (i : Nat) (f : Strand → Strand) :
    (s.modStrand i f).strand? i = (s.strand? i).map f := by
  unfold State.modStrand
  split
  · rename_i t h; simp [h]
  · rename_i h; simp [h]

theorem State.strand?_modStrand_other (s : State) {i j : Nat} (f : Strand → Strand) (h : j ≠ i) :
    (s.modStrand i f).strand? j = s.strand? j := by
  unfold State.modStrand
  split
  · exact s.strand?_setStrand_other _ h
  · rfl

@[simp] theorem State.strand?_writeBytes (s : State) (k i : Nat) (b : List Byte) :
    (s.writeBytes k b).strand? i = s.strand? i := rfl

/-! ### `Strand.advance` -/

@[simp] theorem Strand.advance_gr (t : Strand)  : (t.advance).gr = t.gr := rfl
@[simp] theorem Strand.advance_vr (t : Strand)  : (t.advance).vr = t.vr := rfl
@[simp] theorem Strand.advance_tvec (t : Strand)  : (t.advance).tvec = t.tvec := rfl
@[simp] theorem Strand.advance_tpc (t : Strand)  : (t.advance).tpc = t.tpc := rfl
@[simp] theorem Strand.advance_tval (t : Strand)  : (t.advance).tval = t.tval := rfl
@[simp] theorem Strand.advance_tcause (t : Strand)  : (t.advance).tcause = t.tcause := rfl
@[simp] theorem Strand.advance_tmr (t : Strand)  : (t.advance).tmr = t.tmr := rfl
@[simp] theorem Strand.advance_frm (t : Strand)  : (t.advance).frm = t.frm := rfl
@[simp] theorem Strand.advance_prioP (t : Strand)  : (t.advance).prioP = t.prioP := rfl
@[simp] theorem Strand.advance_qbind (t : Strand)  : (t.advance).qbind = t.qbind := rfl
@[simp] theorem Strand.advance_khash (t : Strand)  : (t.advance).khash = t.khash := rfl
@[simp] theorem Strand.advance_kbins (t : Strand)  : (t.advance).kbins = t.kbins := rfl
@[simp] theorem Strand.advance_th (t : Strand)  : (t.advance).th = t.th := rfl
@[simp] theorem Strand.advance_tw (t : Strand)  : (t.advance).tw = t.tw := rfl
@[simp] theorem Strand.advance_sup (t : Strand)  : (t.advance).sup = t.sup := rfl
@[simp] theorem Strand.advance_pair (t : Strand)  : (t.advance).pair = t.pair := rfl
@[simp] theorem Strand.advance_cls (t : Strand)  : (t.advance).cls = t.cls := rfl
@[simp] theorem Strand.advance_wake (t : Strand)  : (t.advance).wake = t.wake := rfl
@[simp] theorem Strand.advance_wid (t : Strand)  : (t.advance).wid = t.wid := rfl
@[simp] theorem Strand.advance_grp (t : Strand)  : (t.advance).grp = t.grp := rfl
@[simp] theorem Strand.advance_asid (t : Strand)  : (t.advance).asid = t.asid := rfl
@[simp] theorem Strand.advance_tenant (t : Strand)  : (t.advance).tenant = t.tenant := rfl
@[simp] theorem Strand.advance_prioBase (t : Strand)  : (t.advance).prioBase = t.prioBase := rfl
@[simp] theorem Strand.advance_trig (t : Strand)  : (t.advance).trig = t.trig := rfl
@[simp] theorem Strand.advance_lnch (t : Strand)  : (t.advance).lnch = t.lnch := rfl
@[simp] theorem Strand.advance_image (t : Strand)  : (t.advance).image = t.image := rfl
@[simp] theorem Strand.advance_imgsz (t : Strand)  : (t.advance).imgsz = t.imgsz := rfl
@[simp] theorem Strand.advance_handles (t : Strand)  : (t.advance).handles = t.handles := rfl
@[simp] theorem Strand.advance_cp (t : Strand)  : (t.advance).cp = t.cp := rfl
@[simp] theorem Strand.advance_cpSlot (t : Strand)  : (t.advance).cpSlot = t.cpSlot := rfl
@[simp] theorem Strand.advance_mx (t : Strand)  : (t.advance).mx = t.mx := rfl
@[simp] theorem Strand.advance_wk (t : Strand)  : (t.advance).wk = t.wk := rfl
@[simp] theorem Strand.advance_dx (t : Strand)  : (t.advance).dx = t.dx := rfl
@[simp] theorem Strand.advance_pl (t : Strand)  : (t.advance).pl = t.pl := rfl
@[simp] theorem Strand.advance_cl (t : Strand)  : (t.advance).cl = t.cl := rfl
@[simp] theorem Strand.advance_drops (t : Strand)  : (t.advance).drops = t.drops := rfl
@[simp] theorem Strand.advance_denies (t : Strand)  : (t.advance).denies = t.denies := rfl
@[simp] theorem Strand.advance_dxDropped (t : Strand)  : (t.advance).dxDropped = t.dxDropped := rfl
@[simp] theorem Strand.advance_st (t : Strand)  : (t.advance).st = t.st := rfl
@[simp] theorem Strand.advance_loc (t : Strand)  : (t.advance).loc = t.loc := rfl
@[simp] theorem Strand.advance_ctx (t : Strand)  : (t.advance).ctx = t.ctx := rfl
@[simp] theorem Strand.advance_slot0 (t : Strand)  : (t.advance).slot0 = t.slot0 := rfl
@[simp] theorem Strand.advance_lastSlot (t : Strand)  : (t.advance).lastSlot = t.lastSlot := rfl
@[simp] theorem Strand.advance_sliceFull (t : Strand)  : (t.advance).sliceFull = t.sliceFull := rfl
@[simp] theorem Strand.advance_group (t : Strand)  : (t.advance).group = t.group := rfl
@[simp] theorem Strand.advance_index (t : Strand)  : (t.advance).index = t.index := rfl
@[simp] theorem Strand.advance_rank (t : Strand)  : (t.advance).rank = t.rank := rfl
@[simp] theorem Strand.advance_home (t : Strand)  : (t.advance).home = t.home := rfl
@[simp] theorem Strand.advance_homeCtx (t : Strand)  : (t.advance).homeCtx = t.homeCtx := rfl
@[simp] theorem Strand.advance_migPc (t : Strand)  : (t.advance).migPc = t.migPc := rfl
@[simp] theorem Strand.advance_partner (t : Strand)  : (t.advance).partner = t.partner := rfl
@[simp] theorem Strand.advance_pend (t : Strand)  : (t.advance).pend = t.pend := rfl
@[simp] theorem Strand.advance_lastIssue (t : Strand)  : (t.advance).lastIssue = t.lastIssue := rfl
@[simp] theorem Strand.advance_ready (t : Strand)  : (t.advance).ready = t.ready := rfl
@[simp] theorem Strand.advance_parkedAt (t : Strand)  : (t.advance).parkedAt = t.parkedAt := rfl
@[simp] theorem Strand.advance_claim (t : Strand)  : (t.advance).claim = t.claim := rfl
@[simp] theorem Strand.advance_wakeMsg (t : Strand)  : (t.advance).wakeMsg = t.wakeMsg := rfl
@[simp] theorem Strand.advance_tmrDue (t : Strand)  : (t.advance).tmrDue = t.tmrDue := rfl
@[simp] theorem Strand.advance_hold (t : Strand)  : (t.advance).hold = t.hold := rfl
@[simp] theorem Strand.advance_outst (t : Strand)  : (t.advance).outst = t.outst := rfl
@[simp] theorem Strand.advance_fences (t : Strand)  : (t.advance).fences = t.fences := rfl
@[simp] theorem Strand.advance_ops (t : Strand)  : (t.advance).ops = t.ops := rfl
@[simp] theorem Strand.advance_opFault (t : Strand)  : (t.advance).opFault = t.opFault := rfl
@[simp] theorem Strand.advance_rets (t : Strand)  : (t.advance).rets = t.rets := rfl
@[simp] theorem Strand.advance_msgs (t : Strand)  : (t.advance).msgs = t.msgs := rfl
@[simp] theorem Strand.advance_arrivals (t : Strand)  : (t.advance).arrivals = t.arrivals := rfl
@[simp] theorem Strand.advance_late (t : Strand)  : (t.advance).late = t.late := rfl
@[simp] theorem Strand.advance_engs (t : Strand)  : (t.advance).engs = t.engs := rfl
@[simp] theorem Strand.advance_seq (t : Strand)  : (t.advance).seq = t.seq := rfl
@[simp] theorem Strand.advance_seqFault (t : Strand)  : (t.advance).seqFault = t.seqFault := rfl
@[simp] theorem Strand.advance_taken (t : Strand)  : (t.advance).taken = t.taken := rfl
@[simp] theorem Strand.advance_vrep (t : Strand)  : (t.advance).vrep = t.vrep := rfl
@[simp] theorem Strand.advance_vtrap (t : Strand)  : (t.advance).vtrap = t.vtrap := rfl
@[simp] theorem Strand.advance_vpos (t : Strand)  : (t.advance).vpos = t.vpos := rfl
@[simp] theorem Strand.advance_clone (t : Strand)  : (t.advance).clone = t.clone := rfl
@[simp] theorem Strand.advance_susp (t : Strand)  : (t.advance).susp = t.susp := rfl
@[simp] theorem Strand.advance_mig (t : Strand)  : (t.advance).mig = t.mig := rfl
@[simp] theorem Strand.advance_wstat (t : Strand)  : (t.advance).wstat = t.wstat := rfl

/-! ### `Strand.settled` -/

@[simp] theorem Strand.settled_gr (t : Strand)  : (t.settled).gr = t.gr := rfl
@[simp] theorem Strand.settled_vr (t : Strand)  : (t.settled).vr = t.vr := rfl
@[simp] theorem Strand.settled_pc (t : Strand)  : (t.settled).pc = t.pc := rfl
@[simp] theorem Strand.settled_tvec (t : Strand)  : (t.settled).tvec = t.tvec := rfl
@[simp] theorem Strand.settled_tpc (t : Strand)  : (t.settled).tpc = t.tpc := rfl
@[simp] theorem Strand.settled_tval (t : Strand)  : (t.settled).tval = t.tval := rfl
@[simp] theorem Strand.settled_tcause (t : Strand)  : (t.settled).tcause = t.tcause := rfl
@[simp] theorem Strand.settled_tmr (t : Strand)  : (t.settled).tmr = t.tmr := rfl
@[simp] theorem Strand.settled_frm (t : Strand)  : (t.settled).frm = t.frm := rfl
@[simp] theorem Strand.settled_prioP (t : Strand)  : (t.settled).prioP = t.prioP := rfl
@[simp] theorem Strand.settled_qbind (t : Strand)  : (t.settled).qbind = t.qbind := rfl
@[simp] theorem Strand.settled_khash (t : Strand)  : (t.settled).khash = t.khash := rfl
@[simp] theorem Strand.settled_kbins (t : Strand)  : (t.settled).kbins = t.kbins := rfl
@[simp] theorem Strand.settled_th (t : Strand)  : (t.settled).th = t.th := rfl
@[simp] theorem Strand.settled_tw (t : Strand)  : (t.settled).tw = t.tw := rfl
@[simp] theorem Strand.settled_sup (t : Strand)  : (t.settled).sup = t.sup := rfl
@[simp] theorem Strand.settled_pair (t : Strand)  : (t.settled).pair = t.pair := rfl
@[simp] theorem Strand.settled_cls (t : Strand)  : (t.settled).cls = t.cls := rfl
@[simp] theorem Strand.settled_wake (t : Strand)  : (t.settled).wake = t.wake := rfl
@[simp] theorem Strand.settled_wid (t : Strand)  : (t.settled).wid = t.wid := rfl
@[simp] theorem Strand.settled_grp (t : Strand)  : (t.settled).grp = t.grp := rfl
@[simp] theorem Strand.settled_asid (t : Strand)  : (t.settled).asid = t.asid := rfl
@[simp] theorem Strand.settled_tenant (t : Strand)  : (t.settled).tenant = t.tenant := rfl
@[simp] theorem Strand.settled_prioBase (t : Strand)  : (t.settled).prioBase = t.prioBase := rfl
@[simp] theorem Strand.settled_trig (t : Strand)  : (t.settled).trig = t.trig := rfl
@[simp] theorem Strand.settled_lnch (t : Strand)  : (t.settled).lnch = t.lnch := rfl
@[simp] theorem Strand.settled_image (t : Strand)  : (t.settled).image = t.image := rfl
@[simp] theorem Strand.settled_imgsz (t : Strand)  : (t.settled).imgsz = t.imgsz := rfl
@[simp] theorem Strand.settled_handles (t : Strand)  : (t.settled).handles = t.handles := rfl
@[simp] theorem Strand.settled_cp (t : Strand)  : (t.settled).cp = t.cp := rfl
@[simp] theorem Strand.settled_cpSlot (t : Strand)  : (t.settled).cpSlot = t.cpSlot := rfl
@[simp] theorem Strand.settled_mx (t : Strand)  : (t.settled).mx = t.mx := rfl
@[simp] theorem Strand.settled_wk (t : Strand)  : (t.settled).wk = t.wk := rfl
@[simp] theorem Strand.settled_dx (t : Strand)  : (t.settled).dx = t.dx := rfl
@[simp] theorem Strand.settled_pl (t : Strand)  : (t.settled).pl = t.pl := rfl
@[simp] theorem Strand.settled_cl (t : Strand)  : (t.settled).cl = t.cl := rfl
@[simp] theorem Strand.settled_drops (t : Strand)  : (t.settled).drops = t.drops := rfl
@[simp] theorem Strand.settled_denies (t : Strand)  : (t.settled).denies = t.denies := rfl
@[simp] theorem Strand.settled_dxDropped (t : Strand)  : (t.settled).dxDropped = t.dxDropped := rfl
@[simp] theorem Strand.settled_st (t : Strand)  : (t.settled).st = t.st := rfl
@[simp] theorem Strand.settled_loc (t : Strand)  : (t.settled).loc = t.loc := rfl
@[simp] theorem Strand.settled_ctx (t : Strand)  : (t.settled).ctx = t.ctx := rfl
@[simp] theorem Strand.settled_slot0 (t : Strand)  : (t.settled).slot0 = t.slot0 := rfl
@[simp] theorem Strand.settled_lastSlot (t : Strand)  : (t.settled).lastSlot = t.lastSlot := rfl
@[simp] theorem Strand.settled_sliceFull (t : Strand)  : (t.settled).sliceFull = t.sliceFull := rfl
@[simp] theorem Strand.settled_group (t : Strand)  : (t.settled).group = t.group := rfl
@[simp] theorem Strand.settled_index (t : Strand)  : (t.settled).index = t.index := rfl
@[simp] theorem Strand.settled_rank (t : Strand)  : (t.settled).rank = t.rank := rfl
@[simp] theorem Strand.settled_home (t : Strand)  : (t.settled).home = t.home := rfl
@[simp] theorem Strand.settled_homeCtx (t : Strand)  : (t.settled).homeCtx = t.homeCtx := rfl
@[simp] theorem Strand.settled_migPc (t : Strand)  : (t.settled).migPc = t.migPc := rfl
@[simp] theorem Strand.settled_partner (t : Strand)  : (t.settled).partner = t.partner := rfl
@[simp] theorem Strand.settled_pend (t : Strand)  : (t.settled).pend = t.pend := rfl
@[simp] theorem Strand.settled_lastIssue (t : Strand)  : (t.settled).lastIssue = t.lastIssue := rfl
@[simp] theorem Strand.settled_ready (t : Strand)  : (t.settled).ready = t.ready := rfl
@[simp] theorem Strand.settled_parkedAt (t : Strand)  : (t.settled).parkedAt = t.parkedAt := rfl
@[simp] theorem Strand.settled_wakeMsg (t : Strand)  : (t.settled).wakeMsg = t.wakeMsg := rfl
@[simp] theorem Strand.settled_tmrDue (t : Strand)  : (t.settled).tmrDue = t.tmrDue := rfl
@[simp] theorem Strand.settled_hold (t : Strand)  : (t.settled).hold = t.hold := rfl
@[simp] theorem Strand.settled_outst (t : Strand)  : (t.settled).outst = t.outst := rfl
@[simp] theorem Strand.settled_fences (t : Strand)  : (t.settled).fences = t.fences := rfl
@[simp] theorem Strand.settled_ops (t : Strand)  : (t.settled).ops = t.ops := rfl
@[simp] theorem Strand.settled_opFault (t : Strand)  : (t.settled).opFault = t.opFault := rfl
@[simp] theorem Strand.settled_rets (t : Strand)  : (t.settled).rets = t.rets := rfl
@[simp] theorem Strand.settled_msgs (t : Strand)  : (t.settled).msgs = t.msgs := rfl
@[simp] theorem Strand.settled_arrivals (t : Strand)  : (t.settled).arrivals = t.arrivals := rfl
@[simp] theorem Strand.settled_late (t : Strand)  : (t.settled).late = t.late := rfl
@[simp] theorem Strand.settled_engs (t : Strand)  : (t.settled).engs = t.engs := rfl
@[simp] theorem Strand.settled_seq (t : Strand)  : (t.settled).seq = t.seq := rfl
@[simp] theorem Strand.settled_seqFault (t : Strand)  : (t.settled).seqFault = t.seqFault := rfl
@[simp] theorem Strand.settled_taken (t : Strand)  : (t.settled).taken = t.taken := rfl
@[simp] theorem Strand.settled_vrep (t : Strand)  : (t.settled).vrep = t.vrep := rfl
@[simp] theorem Strand.settled_vtrap (t : Strand)  : (t.settled).vtrap = t.vtrap := rfl
@[simp] theorem Strand.settled_vpos (t : Strand)  : (t.settled).vpos = t.vpos := rfl
@[simp] theorem Strand.settled_clone (t : Strand)  : (t.settled).clone = t.clone := rfl
@[simp] theorem Strand.settled_susp (t : Strand)  : (t.settled).susp = t.susp := rfl
@[simp] theorem Strand.settled_mig (t : Strand)  : (t.settled).mig = t.mig := rfl
@[simp] theorem Strand.settled_wstat (t : Strand)  : (t.settled).wstat = t.wstat := rfl

/-! ### `Strand.setV` -/

@[simp] theorem Strand.setV_gr (t : Strand) (r : BitVec 4) (q : Quad) : (t.setV r q).gr = t.gr := rfl
@[simp] theorem Strand.setV_pc (t : Strand) (r : BitVec 4) (q : Quad) : (t.setV r q).pc = t.pc := rfl
@[simp] theorem Strand.setV_tvec (t : Strand) (r : BitVec 4) (q : Quad) : (t.setV r q).tvec = t.tvec := rfl
@[simp] theorem Strand.setV_tpc (t : Strand) (r : BitVec 4) (q : Quad) : (t.setV r q).tpc = t.tpc := rfl
@[simp] theorem Strand.setV_tval (t : Strand) (r : BitVec 4) (q : Quad) : (t.setV r q).tval = t.tval := rfl
@[simp] theorem Strand.setV_tcause (t : Strand) (r : BitVec 4) (q : Quad) : (t.setV r q).tcause = t.tcause := rfl
@[simp] theorem Strand.setV_tmr (t : Strand) (r : BitVec 4) (q : Quad) : (t.setV r q).tmr = t.tmr := rfl
@[simp] theorem Strand.setV_frm (t : Strand) (r : BitVec 4) (q : Quad) : (t.setV r q).frm = t.frm := rfl
@[simp] theorem Strand.setV_prioP (t : Strand) (r : BitVec 4) (q : Quad) : (t.setV r q).prioP = t.prioP := rfl
@[simp] theorem Strand.setV_qbind (t : Strand) (r : BitVec 4) (q : Quad) : (t.setV r q).qbind = t.qbind := rfl
@[simp] theorem Strand.setV_khash (t : Strand) (r : BitVec 4) (q : Quad) : (t.setV r q).khash = t.khash := rfl
@[simp] theorem Strand.setV_kbins (t : Strand) (r : BitVec 4) (q : Quad) : (t.setV r q).kbins = t.kbins := rfl
@[simp] theorem Strand.setV_th (t : Strand) (r : BitVec 4) (q : Quad) : (t.setV r q).th = t.th := rfl
@[simp] theorem Strand.setV_tw (t : Strand) (r : BitVec 4) (q : Quad) : (t.setV r q).tw = t.tw := rfl
@[simp] theorem Strand.setV_sup (t : Strand) (r : BitVec 4) (q : Quad) : (t.setV r q).sup = t.sup := rfl
@[simp] theorem Strand.setV_pair (t : Strand) (r : BitVec 4) (q : Quad) : (t.setV r q).pair = t.pair := rfl
@[simp] theorem Strand.setV_cls (t : Strand) (r : BitVec 4) (q : Quad) : (t.setV r q).cls = t.cls := rfl
@[simp] theorem Strand.setV_wake (t : Strand) (r : BitVec 4) (q : Quad) : (t.setV r q).wake = t.wake := rfl
@[simp] theorem Strand.setV_wid (t : Strand) (r : BitVec 4) (q : Quad) : (t.setV r q).wid = t.wid := rfl
@[simp] theorem Strand.setV_grp (t : Strand) (r : BitVec 4) (q : Quad) : (t.setV r q).grp = t.grp := rfl
@[simp] theorem Strand.setV_asid (t : Strand) (r : BitVec 4) (q : Quad) : (t.setV r q).asid = t.asid := rfl
@[simp] theorem Strand.setV_tenant (t : Strand) (r : BitVec 4) (q : Quad) : (t.setV r q).tenant = t.tenant := rfl
@[simp] theorem Strand.setV_prioBase (t : Strand) (r : BitVec 4) (q : Quad) : (t.setV r q).prioBase = t.prioBase := rfl
@[simp] theorem Strand.setV_trig (t : Strand) (r : BitVec 4) (q : Quad) : (t.setV r q).trig = t.trig := rfl
@[simp] theorem Strand.setV_lnch (t : Strand) (r : BitVec 4) (q : Quad) : (t.setV r q).lnch = t.lnch := rfl
@[simp] theorem Strand.setV_image (t : Strand) (r : BitVec 4) (q : Quad) : (t.setV r q).image = t.image := rfl
@[simp] theorem Strand.setV_imgsz (t : Strand) (r : BitVec 4) (q : Quad) : (t.setV r q).imgsz = t.imgsz := rfl
@[simp] theorem Strand.setV_handles (t : Strand) (r : BitVec 4) (q : Quad) : (t.setV r q).handles = t.handles := rfl
@[simp] theorem Strand.setV_cp (t : Strand) (r : BitVec 4) (q : Quad) : (t.setV r q).cp = t.cp := rfl
@[simp] theorem Strand.setV_cpSlot (t : Strand) (r : BitVec 4) (q : Quad) : (t.setV r q).cpSlot = t.cpSlot := rfl
@[simp] theorem Strand.setV_mx (t : Strand) (r : BitVec 4) (q : Quad) : (t.setV r q).mx = t.mx := rfl
@[simp] theorem Strand.setV_wk (t : Strand) (r : BitVec 4) (q : Quad) : (t.setV r q).wk = t.wk := rfl
@[simp] theorem Strand.setV_dx (t : Strand) (r : BitVec 4) (q : Quad) : (t.setV r q).dx = t.dx := rfl
@[simp] theorem Strand.setV_pl (t : Strand) (r : BitVec 4) (q : Quad) : (t.setV r q).pl = t.pl := rfl
@[simp] theorem Strand.setV_cl (t : Strand) (r : BitVec 4) (q : Quad) : (t.setV r q).cl = t.cl := rfl
@[simp] theorem Strand.setV_drops (t : Strand) (r : BitVec 4) (q : Quad) : (t.setV r q).drops = t.drops := rfl
@[simp] theorem Strand.setV_denies (t : Strand) (r : BitVec 4) (q : Quad) : (t.setV r q).denies = t.denies := rfl
@[simp] theorem Strand.setV_dxDropped (t : Strand) (r : BitVec 4) (q : Quad) : (t.setV r q).dxDropped = t.dxDropped := rfl
@[simp] theorem Strand.setV_st (t : Strand) (r : BitVec 4) (q : Quad) : (t.setV r q).st = t.st := rfl
@[simp] theorem Strand.setV_loc (t : Strand) (r : BitVec 4) (q : Quad) : (t.setV r q).loc = t.loc := rfl
@[simp] theorem Strand.setV_ctx (t : Strand) (r : BitVec 4) (q : Quad) : (t.setV r q).ctx = t.ctx := rfl
@[simp] theorem Strand.setV_slot0 (t : Strand) (r : BitVec 4) (q : Quad) : (t.setV r q).slot0 = t.slot0 := rfl
@[simp] theorem Strand.setV_lastSlot (t : Strand) (r : BitVec 4) (q : Quad) : (t.setV r q).lastSlot = t.lastSlot := rfl
@[simp] theorem Strand.setV_sliceFull (t : Strand) (r : BitVec 4) (q : Quad) : (t.setV r q).sliceFull = t.sliceFull := rfl
@[simp] theorem Strand.setV_group (t : Strand) (r : BitVec 4) (q : Quad) : (t.setV r q).group = t.group := rfl
@[simp] theorem Strand.setV_index (t : Strand) (r : BitVec 4) (q : Quad) : (t.setV r q).index = t.index := rfl
@[simp] theorem Strand.setV_rank (t : Strand) (r : BitVec 4) (q : Quad) : (t.setV r q).rank = t.rank := rfl
@[simp] theorem Strand.setV_home (t : Strand) (r : BitVec 4) (q : Quad) : (t.setV r q).home = t.home := rfl
@[simp] theorem Strand.setV_homeCtx (t : Strand) (r : BitVec 4) (q : Quad) : (t.setV r q).homeCtx = t.homeCtx := rfl
@[simp] theorem Strand.setV_migPc (t : Strand) (r : BitVec 4) (q : Quad) : (t.setV r q).migPc = t.migPc := rfl
@[simp] theorem Strand.setV_partner (t : Strand) (r : BitVec 4) (q : Quad) : (t.setV r q).partner = t.partner := rfl
@[simp] theorem Strand.setV_pend (t : Strand) (r : BitVec 4) (q : Quad) : (t.setV r q).pend = t.pend := rfl
@[simp] theorem Strand.setV_lastIssue (t : Strand) (r : BitVec 4) (q : Quad) : (t.setV r q).lastIssue = t.lastIssue := rfl
@[simp] theorem Strand.setV_ready (t : Strand) (r : BitVec 4) (q : Quad) : (t.setV r q).ready = t.ready := rfl
@[simp] theorem Strand.setV_parkedAt (t : Strand) (r : BitVec 4) (q : Quad) : (t.setV r q).parkedAt = t.parkedAt := rfl
@[simp] theorem Strand.setV_claim (t : Strand) (r : BitVec 4) (q : Quad) : (t.setV r q).claim = t.claim := rfl
@[simp] theorem Strand.setV_wakeMsg (t : Strand) (r : BitVec 4) (q : Quad) : (t.setV r q).wakeMsg = t.wakeMsg := rfl
@[simp] theorem Strand.setV_tmrDue (t : Strand) (r : BitVec 4) (q : Quad) : (t.setV r q).tmrDue = t.tmrDue := rfl
@[simp] theorem Strand.setV_hold (t : Strand) (r : BitVec 4) (q : Quad) : (t.setV r q).hold = t.hold := rfl
@[simp] theorem Strand.setV_outst (t : Strand) (r : BitVec 4) (q : Quad) : (t.setV r q).outst = t.outst := rfl
@[simp] theorem Strand.setV_fences (t : Strand) (r : BitVec 4) (q : Quad) : (t.setV r q).fences = t.fences := rfl
@[simp] theorem Strand.setV_ops (t : Strand) (r : BitVec 4) (q : Quad) : (t.setV r q).ops = t.ops := rfl
@[simp] theorem Strand.setV_opFault (t : Strand) (r : BitVec 4) (q : Quad) : (t.setV r q).opFault = t.opFault := rfl
@[simp] theorem Strand.setV_rets (t : Strand) (r : BitVec 4) (q : Quad) : (t.setV r q).rets = t.rets := rfl
@[simp] theorem Strand.setV_msgs (t : Strand) (r : BitVec 4) (q : Quad) : (t.setV r q).msgs = t.msgs := rfl
@[simp] theorem Strand.setV_arrivals (t : Strand) (r : BitVec 4) (q : Quad) : (t.setV r q).arrivals = t.arrivals := rfl
@[simp] theorem Strand.setV_late (t : Strand) (r : BitVec 4) (q : Quad) : (t.setV r q).late = t.late := rfl
@[simp] theorem Strand.setV_engs (t : Strand) (r : BitVec 4) (q : Quad) : (t.setV r q).engs = t.engs := rfl
@[simp] theorem Strand.setV_seq (t : Strand) (r : BitVec 4) (q : Quad) : (t.setV r q).seq = t.seq := rfl
@[simp] theorem Strand.setV_seqFault (t : Strand) (r : BitVec 4) (q : Quad) : (t.setV r q).seqFault = t.seqFault := rfl
@[simp] theorem Strand.setV_taken (t : Strand) (r : BitVec 4) (q : Quad) : (t.setV r q).taken = t.taken := rfl
@[simp] theorem Strand.setV_vrep (t : Strand) (r : BitVec 4) (q : Quad) : (t.setV r q).vrep = t.vrep := rfl
@[simp] theorem Strand.setV_vtrap (t : Strand) (r : BitVec 4) (q : Quad) : (t.setV r q).vtrap = t.vtrap := rfl
@[simp] theorem Strand.setV_vpos (t : Strand) (r : BitVec 4) (q : Quad) : (t.setV r q).vpos = t.vpos := rfl
@[simp] theorem Strand.setV_clone (t : Strand) (r : BitVec 4) (q : Quad) : (t.setV r q).clone = t.clone := rfl
@[simp] theorem Strand.setV_susp (t : Strand) (r : BitVec 4) (q : Quad) : (t.setV r q).susp = t.susp := rfl
@[simp] theorem Strand.setV_mig (t : Strand) (r : BitVec 4) (q : Quad) : (t.setV r q).mig = t.mig := rfl
@[simp] theorem Strand.setV_wstat (t : Strand) (r : BitVec 4) (q : Quad) : (t.setV r q).wstat = t.wstat := rfl

/-! ### `Strand.setG` -/

@[simp] theorem Strand.setG_vr (t : Strand) (r : BitVec 5) (v : Word) : (t.setG r v).vr = t.vr := by
  unfold Strand.setG; split <;> rfl
@[simp] theorem Strand.setG_pc (t : Strand) (r : BitVec 5) (v : Word) : (t.setG r v).pc = t.pc := by
  unfold Strand.setG; split <;> rfl
@[simp] theorem Strand.setG_tvec (t : Strand) (r : BitVec 5) (v : Word) : (t.setG r v).tvec = t.tvec := by
  unfold Strand.setG; split <;> rfl
@[simp] theorem Strand.setG_tpc (t : Strand) (r : BitVec 5) (v : Word) : (t.setG r v).tpc = t.tpc := by
  unfold Strand.setG; split <;> rfl
@[simp] theorem Strand.setG_tval (t : Strand) (r : BitVec 5) (v : Word) : (t.setG r v).tval = t.tval := by
  unfold Strand.setG; split <;> rfl
@[simp] theorem Strand.setG_tcause (t : Strand) (r : BitVec 5) (v : Word) : (t.setG r v).tcause = t.tcause := by
  unfold Strand.setG; split <;> rfl
@[simp] theorem Strand.setG_tmr (t : Strand) (r : BitVec 5) (v : Word) : (t.setG r v).tmr = t.tmr := by
  unfold Strand.setG; split <;> rfl
@[simp] theorem Strand.setG_frm (t : Strand) (r : BitVec 5) (v : Word) : (t.setG r v).frm = t.frm := by
  unfold Strand.setG; split <;> rfl
@[simp] theorem Strand.setG_prioP (t : Strand) (r : BitVec 5) (v : Word) : (t.setG r v).prioP = t.prioP := by
  unfold Strand.setG; split <;> rfl
@[simp] theorem Strand.setG_qbind (t : Strand) (r : BitVec 5) (v : Word) : (t.setG r v).qbind = t.qbind := by
  unfold Strand.setG; split <;> rfl
@[simp] theorem Strand.setG_khash (t : Strand) (r : BitVec 5) (v : Word) : (t.setG r v).khash = t.khash := by
  unfold Strand.setG; split <;> rfl
@[simp] theorem Strand.setG_kbins (t : Strand) (r : BitVec 5) (v : Word) : (t.setG r v).kbins = t.kbins := by
  unfold Strand.setG; split <;> rfl
@[simp] theorem Strand.setG_th (t : Strand) (r : BitVec 5) (v : Word) : (t.setG r v).th = t.th := by
  unfold Strand.setG; split <;> rfl
@[simp] theorem Strand.setG_tw (t : Strand) (r : BitVec 5) (v : Word) : (t.setG r v).tw = t.tw := by
  unfold Strand.setG; split <;> rfl
@[simp] theorem Strand.setG_sup (t : Strand) (r : BitVec 5) (v : Word) : (t.setG r v).sup = t.sup := by
  unfold Strand.setG; split <;> rfl
@[simp] theorem Strand.setG_pair (t : Strand) (r : BitVec 5) (v : Word) : (t.setG r v).pair = t.pair := by
  unfold Strand.setG; split <;> rfl
@[simp] theorem Strand.setG_cls (t : Strand) (r : BitVec 5) (v : Word) : (t.setG r v).cls = t.cls := by
  unfold Strand.setG; split <;> rfl
@[simp] theorem Strand.setG_wake (t : Strand) (r : BitVec 5) (v : Word) : (t.setG r v).wake = t.wake := by
  unfold Strand.setG; split <;> rfl
@[simp] theorem Strand.setG_wid (t : Strand) (r : BitVec 5) (v : Word) : (t.setG r v).wid = t.wid := by
  unfold Strand.setG; split <;> rfl
@[simp] theorem Strand.setG_grp (t : Strand) (r : BitVec 5) (v : Word) : (t.setG r v).grp = t.grp := by
  unfold Strand.setG; split <;> rfl
@[simp] theorem Strand.setG_asid (t : Strand) (r : BitVec 5) (v : Word) : (t.setG r v).asid = t.asid := by
  unfold Strand.setG; split <;> rfl
@[simp] theorem Strand.setG_tenant (t : Strand) (r : BitVec 5) (v : Word) : (t.setG r v).tenant = t.tenant := by
  unfold Strand.setG; split <;> rfl
@[simp] theorem Strand.setG_prioBase (t : Strand) (r : BitVec 5) (v : Word) : (t.setG r v).prioBase = t.prioBase := by
  unfold Strand.setG; split <;> rfl
@[simp] theorem Strand.setG_trig (t : Strand) (r : BitVec 5) (v : Word) : (t.setG r v).trig = t.trig := by
  unfold Strand.setG; split <;> rfl
@[simp] theorem Strand.setG_lnch (t : Strand) (r : BitVec 5) (v : Word) : (t.setG r v).lnch = t.lnch := by
  unfold Strand.setG; split <;> rfl
@[simp] theorem Strand.setG_image (t : Strand) (r : BitVec 5) (v : Word) : (t.setG r v).image = t.image := by
  unfold Strand.setG; split <;> rfl
@[simp] theorem Strand.setG_imgsz (t : Strand) (r : BitVec 5) (v : Word) : (t.setG r v).imgsz = t.imgsz := by
  unfold Strand.setG; split <;> rfl
@[simp] theorem Strand.setG_handles (t : Strand) (r : BitVec 5) (v : Word) : (t.setG r v).handles = t.handles := by
  unfold Strand.setG; split <;> rfl
@[simp] theorem Strand.setG_cp (t : Strand) (r : BitVec 5) (v : Word) : (t.setG r v).cp = t.cp := by
  unfold Strand.setG; split <;> rfl
@[simp] theorem Strand.setG_cpSlot (t : Strand) (r : BitVec 5) (v : Word) : (t.setG r v).cpSlot = t.cpSlot := by
  unfold Strand.setG; split <;> rfl
@[simp] theorem Strand.setG_mx (t : Strand) (r : BitVec 5) (v : Word) : (t.setG r v).mx = t.mx := by
  unfold Strand.setG; split <;> rfl
@[simp] theorem Strand.setG_wk (t : Strand) (r : BitVec 5) (v : Word) : (t.setG r v).wk = t.wk := by
  unfold Strand.setG; split <;> rfl
@[simp] theorem Strand.setG_dx (t : Strand) (r : BitVec 5) (v : Word) : (t.setG r v).dx = t.dx := by
  unfold Strand.setG; split <;> rfl
@[simp] theorem Strand.setG_pl (t : Strand) (r : BitVec 5) (v : Word) : (t.setG r v).pl = t.pl := by
  unfold Strand.setG; split <;> rfl
@[simp] theorem Strand.setG_cl (t : Strand) (r : BitVec 5) (v : Word) : (t.setG r v).cl = t.cl := by
  unfold Strand.setG; split <;> rfl
@[simp] theorem Strand.setG_drops (t : Strand) (r : BitVec 5) (v : Word) : (t.setG r v).drops = t.drops := by
  unfold Strand.setG; split <;> rfl
@[simp] theorem Strand.setG_denies (t : Strand) (r : BitVec 5) (v : Word) : (t.setG r v).denies = t.denies := by
  unfold Strand.setG; split <;> rfl
@[simp] theorem Strand.setG_dxDropped (t : Strand) (r : BitVec 5) (v : Word) : (t.setG r v).dxDropped = t.dxDropped := by
  unfold Strand.setG; split <;> rfl
@[simp] theorem Strand.setG_st (t : Strand) (r : BitVec 5) (v : Word) : (t.setG r v).st = t.st := by
  unfold Strand.setG; split <;> rfl
@[simp] theorem Strand.setG_loc (t : Strand) (r : BitVec 5) (v : Word) : (t.setG r v).loc = t.loc := by
  unfold Strand.setG; split <;> rfl
@[simp] theorem Strand.setG_ctx (t : Strand) (r : BitVec 5) (v : Word) : (t.setG r v).ctx = t.ctx := by
  unfold Strand.setG; split <;> rfl
@[simp] theorem Strand.setG_slot0 (t : Strand) (r : BitVec 5) (v : Word) : (t.setG r v).slot0 = t.slot0 := by
  unfold Strand.setG; split <;> rfl
@[simp] theorem Strand.setG_lastSlot (t : Strand) (r : BitVec 5) (v : Word) : (t.setG r v).lastSlot = t.lastSlot := by
  unfold Strand.setG; split <;> rfl
@[simp] theorem Strand.setG_sliceFull (t : Strand) (r : BitVec 5) (v : Word) : (t.setG r v).sliceFull = t.sliceFull := by
  unfold Strand.setG; split <;> rfl
@[simp] theorem Strand.setG_group (t : Strand) (r : BitVec 5) (v : Word) : (t.setG r v).group = t.group := by
  unfold Strand.setG; split <;> rfl
@[simp] theorem Strand.setG_index (t : Strand) (r : BitVec 5) (v : Word) : (t.setG r v).index = t.index := by
  unfold Strand.setG; split <;> rfl
@[simp] theorem Strand.setG_rank (t : Strand) (r : BitVec 5) (v : Word) : (t.setG r v).rank = t.rank := by
  unfold Strand.setG; split <;> rfl
@[simp] theorem Strand.setG_home (t : Strand) (r : BitVec 5) (v : Word) : (t.setG r v).home = t.home := by
  unfold Strand.setG; split <;> rfl
@[simp] theorem Strand.setG_homeCtx (t : Strand) (r : BitVec 5) (v : Word) : (t.setG r v).homeCtx = t.homeCtx := by
  unfold Strand.setG; split <;> rfl
@[simp] theorem Strand.setG_migPc (t : Strand) (r : BitVec 5) (v : Word) : (t.setG r v).migPc = t.migPc := by
  unfold Strand.setG; split <;> rfl
@[simp] theorem Strand.setG_partner (t : Strand) (r : BitVec 5) (v : Word) : (t.setG r v).partner = t.partner := by
  unfold Strand.setG; split <;> rfl
@[simp] theorem Strand.setG_pend (t : Strand) (r : BitVec 5) (v : Word) : (t.setG r v).pend = t.pend := by
  unfold Strand.setG; split <;> rfl
@[simp] theorem Strand.setG_lastIssue (t : Strand) (r : BitVec 5) (v : Word) : (t.setG r v).lastIssue = t.lastIssue := by
  unfold Strand.setG; split <;> rfl
@[simp] theorem Strand.setG_ready (t : Strand) (r : BitVec 5) (v : Word) : (t.setG r v).ready = t.ready := by
  unfold Strand.setG; split <;> rfl
@[simp] theorem Strand.setG_parkedAt (t : Strand) (r : BitVec 5) (v : Word) : (t.setG r v).parkedAt = t.parkedAt := by
  unfold Strand.setG; split <;> rfl
@[simp] theorem Strand.setG_claim (t : Strand) (r : BitVec 5) (v : Word) : (t.setG r v).claim = t.claim := by
  unfold Strand.setG; split <;> rfl
@[simp] theorem Strand.setG_wakeMsg (t : Strand) (r : BitVec 5) (v : Word) : (t.setG r v).wakeMsg = t.wakeMsg := by
  unfold Strand.setG; split <;> rfl
@[simp] theorem Strand.setG_tmrDue (t : Strand) (r : BitVec 5) (v : Word) : (t.setG r v).tmrDue = t.tmrDue := by
  unfold Strand.setG; split <;> rfl
@[simp] theorem Strand.setG_hold (t : Strand) (r : BitVec 5) (v : Word) : (t.setG r v).hold = t.hold := by
  unfold Strand.setG; split <;> rfl
@[simp] theorem Strand.setG_outst (t : Strand) (r : BitVec 5) (v : Word) : (t.setG r v).outst = t.outst := by
  unfold Strand.setG; split <;> rfl
@[simp] theorem Strand.setG_fences (t : Strand) (r : BitVec 5) (v : Word) : (t.setG r v).fences = t.fences := by
  unfold Strand.setG; split <;> rfl
@[simp] theorem Strand.setG_ops (t : Strand) (r : BitVec 5) (v : Word) : (t.setG r v).ops = t.ops := by
  unfold Strand.setG; split <;> rfl
@[simp] theorem Strand.setG_opFault (t : Strand) (r : BitVec 5) (v : Word) : (t.setG r v).opFault = t.opFault := by
  unfold Strand.setG; split <;> rfl
@[simp] theorem Strand.setG_rets (t : Strand) (r : BitVec 5) (v : Word) : (t.setG r v).rets = t.rets := by
  unfold Strand.setG; split <;> rfl
@[simp] theorem Strand.setG_msgs (t : Strand) (r : BitVec 5) (v : Word) : (t.setG r v).msgs = t.msgs := by
  unfold Strand.setG; split <;> rfl
@[simp] theorem Strand.setG_arrivals (t : Strand) (r : BitVec 5) (v : Word) : (t.setG r v).arrivals = t.arrivals := by
  unfold Strand.setG; split <;> rfl
@[simp] theorem Strand.setG_late (t : Strand) (r : BitVec 5) (v : Word) : (t.setG r v).late = t.late := by
  unfold Strand.setG; split <;> rfl
@[simp] theorem Strand.setG_engs (t : Strand) (r : BitVec 5) (v : Word) : (t.setG r v).engs = t.engs := by
  unfold Strand.setG; split <;> rfl
@[simp] theorem Strand.setG_seq (t : Strand) (r : BitVec 5) (v : Word) : (t.setG r v).seq = t.seq := by
  unfold Strand.setG; split <;> rfl
@[simp] theorem Strand.setG_seqFault (t : Strand) (r : BitVec 5) (v : Word) : (t.setG r v).seqFault = t.seqFault := by
  unfold Strand.setG; split <;> rfl
@[simp] theorem Strand.setG_taken (t : Strand) (r : BitVec 5) (v : Word) : (t.setG r v).taken = t.taken := by
  unfold Strand.setG; split <;> rfl
@[simp] theorem Strand.setG_vrep (t : Strand) (r : BitVec 5) (v : Word) : (t.setG r v).vrep = t.vrep := by
  unfold Strand.setG; split <;> rfl
@[simp] theorem Strand.setG_vtrap (t : Strand) (r : BitVec 5) (v : Word) : (t.setG r v).vtrap = t.vtrap := by
  unfold Strand.setG; split <;> rfl
@[simp] theorem Strand.setG_vpos (t : Strand) (r : BitVec 5) (v : Word) : (t.setG r v).vpos = t.vpos := by
  unfold Strand.setG; split <;> rfl
@[simp] theorem Strand.setG_clone (t : Strand) (r : BitVec 5) (v : Word) : (t.setG r v).clone = t.clone := by
  unfold Strand.setG; split <;> rfl
@[simp] theorem Strand.setG_susp (t : Strand) (r : BitVec 5) (v : Word) : (t.setG r v).susp = t.susp := by
  unfold Strand.setG; split <;> rfl
@[simp] theorem Strand.setG_mig (t : Strand) (r : BitVec 5) (v : Word) : (t.setG r v).mig = t.mig := by
  unfold Strand.setG; split <;> rfl
@[simp] theorem Strand.setG_wstat (t : Strand) (r : BitVec 5) (v : Word) : (t.setG r v).wstat = t.wstat := by
  unfold Strand.setG; split <;> rfl

/-! ### `Strand.countOn` -/

@[simp] theorem Strand.countOn_gr (t : Strand) (n : Nat) (cs : List Ctr) : (t.countOn n cs).gr = t.gr := rfl
@[simp] theorem Strand.countOn_vr (t : Strand) (n : Nat) (cs : List Ctr) : (t.countOn n cs).vr = t.vr := rfl
@[simp] theorem Strand.countOn_pc (t : Strand) (n : Nat) (cs : List Ctr) : (t.countOn n cs).pc = t.pc := rfl
@[simp] theorem Strand.countOn_tvec (t : Strand) (n : Nat) (cs : List Ctr) : (t.countOn n cs).tvec = t.tvec := rfl
@[simp] theorem Strand.countOn_tpc (t : Strand) (n : Nat) (cs : List Ctr) : (t.countOn n cs).tpc = t.tpc := rfl
@[simp] theorem Strand.countOn_tval (t : Strand) (n : Nat) (cs : List Ctr) : (t.countOn n cs).tval = t.tval := rfl
@[simp] theorem Strand.countOn_tcause (t : Strand) (n : Nat) (cs : List Ctr) : (t.countOn n cs).tcause = t.tcause := rfl
@[simp] theorem Strand.countOn_tmr (t : Strand) (n : Nat) (cs : List Ctr) : (t.countOn n cs).tmr = t.tmr := rfl
@[simp] theorem Strand.countOn_frm (t : Strand) (n : Nat) (cs : List Ctr) : (t.countOn n cs).frm = t.frm := rfl
@[simp] theorem Strand.countOn_prioP (t : Strand) (n : Nat) (cs : List Ctr) : (t.countOn n cs).prioP = t.prioP := rfl
@[simp] theorem Strand.countOn_qbind (t : Strand) (n : Nat) (cs : List Ctr) : (t.countOn n cs).qbind = t.qbind := rfl
@[simp] theorem Strand.countOn_khash (t : Strand) (n : Nat) (cs : List Ctr) : (t.countOn n cs).khash = t.khash := rfl
@[simp] theorem Strand.countOn_kbins (t : Strand) (n : Nat) (cs : List Ctr) : (t.countOn n cs).kbins = t.kbins := rfl
@[simp] theorem Strand.countOn_th (t : Strand) (n : Nat) (cs : List Ctr) : (t.countOn n cs).th = t.th := rfl
@[simp] theorem Strand.countOn_tw (t : Strand) (n : Nat) (cs : List Ctr) : (t.countOn n cs).tw = t.tw := rfl
@[simp] theorem Strand.countOn_sup (t : Strand) (n : Nat) (cs : List Ctr) : (t.countOn n cs).sup = t.sup := rfl
@[simp] theorem Strand.countOn_pair (t : Strand) (n : Nat) (cs : List Ctr) : (t.countOn n cs).pair = t.pair := rfl
@[simp] theorem Strand.countOn_cls (t : Strand) (n : Nat) (cs : List Ctr) : (t.countOn n cs).cls = t.cls := rfl
@[simp] theorem Strand.countOn_wake (t : Strand) (n : Nat) (cs : List Ctr) : (t.countOn n cs).wake = t.wake := rfl
@[simp] theorem Strand.countOn_wid (t : Strand) (n : Nat) (cs : List Ctr) : (t.countOn n cs).wid = t.wid := rfl
@[simp] theorem Strand.countOn_grp (t : Strand) (n : Nat) (cs : List Ctr) : (t.countOn n cs).grp = t.grp := rfl
@[simp] theorem Strand.countOn_asid (t : Strand) (n : Nat) (cs : List Ctr) : (t.countOn n cs).asid = t.asid := rfl
@[simp] theorem Strand.countOn_tenant (t : Strand) (n : Nat) (cs : List Ctr) : (t.countOn n cs).tenant = t.tenant := rfl
@[simp] theorem Strand.countOn_prioBase (t : Strand) (n : Nat) (cs : List Ctr) : (t.countOn n cs).prioBase = t.prioBase := rfl
@[simp] theorem Strand.countOn_trig (t : Strand) (n : Nat) (cs : List Ctr) : (t.countOn n cs).trig = t.trig := rfl
@[simp] theorem Strand.countOn_lnch (t : Strand) (n : Nat) (cs : List Ctr) : (t.countOn n cs).lnch = t.lnch := rfl
@[simp] theorem Strand.countOn_image (t : Strand) (n : Nat) (cs : List Ctr) : (t.countOn n cs).image = t.image := rfl
@[simp] theorem Strand.countOn_imgsz (t : Strand) (n : Nat) (cs : List Ctr) : (t.countOn n cs).imgsz = t.imgsz := rfl
@[simp] theorem Strand.countOn_handles (t : Strand) (n : Nat) (cs : List Ctr) : (t.countOn n cs).handles = t.handles := rfl
@[simp] theorem Strand.countOn_cp (t : Strand) (n : Nat) (cs : List Ctr) : (t.countOn n cs).cp = t.cp := rfl
@[simp] theorem Strand.countOn_cpSlot (t : Strand) (n : Nat) (cs : List Ctr) : (t.countOn n cs).cpSlot = t.cpSlot := rfl
@[simp] theorem Strand.countOn_mx (t : Strand) (n : Nat) (cs : List Ctr) : (t.countOn n cs).mx = t.mx := rfl
@[simp] theorem Strand.countOn_wk (t : Strand) (n : Nat) (cs : List Ctr) : (t.countOn n cs).wk = t.wk := rfl
@[simp] theorem Strand.countOn_dx (t : Strand) (n : Nat) (cs : List Ctr) : (t.countOn n cs).dx = t.dx := rfl
@[simp] theorem Strand.countOn_pl (t : Strand) (n : Nat) (cs : List Ctr) : (t.countOn n cs).pl = t.pl := rfl
@[simp] theorem Strand.countOn_cl (t : Strand) (n : Nat) (cs : List Ctr) : (t.countOn n cs).cl = t.cl := rfl
@[simp] theorem Strand.countOn_drops (t : Strand) (n : Nat) (cs : List Ctr) : (t.countOn n cs).drops = t.drops := rfl
@[simp] theorem Strand.countOn_denies (t : Strand) (n : Nat) (cs : List Ctr) : (t.countOn n cs).denies = t.denies := rfl
@[simp] theorem Strand.countOn_dxDropped (t : Strand) (n : Nat) (cs : List Ctr) : (t.countOn n cs).dxDropped = t.dxDropped := rfl
@[simp] theorem Strand.countOn_st (t : Strand) (n : Nat) (cs : List Ctr) : (t.countOn n cs).st = t.st := rfl
@[simp] theorem Strand.countOn_loc (t : Strand) (n : Nat) (cs : List Ctr) : (t.countOn n cs).loc = t.loc := rfl
@[simp] theorem Strand.countOn_ctx (t : Strand) (n : Nat) (cs : List Ctr) : (t.countOn n cs).ctx = t.ctx := rfl
@[simp] theorem Strand.countOn_slot0 (t : Strand) (n : Nat) (cs : List Ctr) : (t.countOn n cs).slot0 = t.slot0 := rfl
@[simp] theorem Strand.countOn_lastSlot (t : Strand) (n : Nat) (cs : List Ctr) : (t.countOn n cs).lastSlot = t.lastSlot := rfl
@[simp] theorem Strand.countOn_sliceFull (t : Strand) (n : Nat) (cs : List Ctr) : (t.countOn n cs).sliceFull = t.sliceFull := rfl
@[simp] theorem Strand.countOn_group (t : Strand) (n : Nat) (cs : List Ctr) : (t.countOn n cs).group = t.group := rfl
@[simp] theorem Strand.countOn_index (t : Strand) (n : Nat) (cs : List Ctr) : (t.countOn n cs).index = t.index := rfl
@[simp] theorem Strand.countOn_rank (t : Strand) (n : Nat) (cs : List Ctr) : (t.countOn n cs).rank = t.rank := rfl
@[simp] theorem Strand.countOn_home (t : Strand) (n : Nat) (cs : List Ctr) : (t.countOn n cs).home = t.home := rfl
@[simp] theorem Strand.countOn_homeCtx (t : Strand) (n : Nat) (cs : List Ctr) : (t.countOn n cs).homeCtx = t.homeCtx := rfl
@[simp] theorem Strand.countOn_migPc (t : Strand) (n : Nat) (cs : List Ctr) : (t.countOn n cs).migPc = t.migPc := rfl
@[simp] theorem Strand.countOn_partner (t : Strand) (n : Nat) (cs : List Ctr) : (t.countOn n cs).partner = t.partner := rfl
@[simp] theorem Strand.countOn_pend (t : Strand) (n : Nat) (cs : List Ctr) : (t.countOn n cs).pend = t.pend := rfl
@[simp] theorem Strand.countOn_lastIssue (t : Strand) (n : Nat) (cs : List Ctr) : (t.countOn n cs).lastIssue = t.lastIssue := rfl
@[simp] theorem Strand.countOn_ready (t : Strand) (n : Nat) (cs : List Ctr) : (t.countOn n cs).ready = t.ready := rfl
@[simp] theorem Strand.countOn_parkedAt (t : Strand) (n : Nat) (cs : List Ctr) : (t.countOn n cs).parkedAt = t.parkedAt := rfl
@[simp] theorem Strand.countOn_claim (t : Strand) (n : Nat) (cs : List Ctr) : (t.countOn n cs).claim = t.claim := rfl
@[simp] theorem Strand.countOn_wakeMsg (t : Strand) (n : Nat) (cs : List Ctr) : (t.countOn n cs).wakeMsg = t.wakeMsg := rfl
@[simp] theorem Strand.countOn_tmrDue (t : Strand) (n : Nat) (cs : List Ctr) : (t.countOn n cs).tmrDue = t.tmrDue := rfl
@[simp] theorem Strand.countOn_hold (t : Strand) (n : Nat) (cs : List Ctr) : (t.countOn n cs).hold = t.hold := rfl
@[simp] theorem Strand.countOn_fences (t : Strand) (n : Nat) (cs : List Ctr) : (t.countOn n cs).fences = t.fences := rfl
@[simp] theorem Strand.countOn_ops (t : Strand) (n : Nat) (cs : List Ctr) : (t.countOn n cs).ops = t.ops := rfl
@[simp] theorem Strand.countOn_opFault (t : Strand) (n : Nat) (cs : List Ctr) : (t.countOn n cs).opFault = t.opFault := rfl
@[simp] theorem Strand.countOn_rets (t : Strand) (n : Nat) (cs : List Ctr) : (t.countOn n cs).rets = t.rets := rfl
@[simp] theorem Strand.countOn_msgs (t : Strand) (n : Nat) (cs : List Ctr) : (t.countOn n cs).msgs = t.msgs := rfl
@[simp] theorem Strand.countOn_arrivals (t : Strand) (n : Nat) (cs : List Ctr) : (t.countOn n cs).arrivals = t.arrivals := rfl
@[simp] theorem Strand.countOn_late (t : Strand) (n : Nat) (cs : List Ctr) : (t.countOn n cs).late = t.late := rfl
@[simp] theorem Strand.countOn_engs (t : Strand) (n : Nat) (cs : List Ctr) : (t.countOn n cs).engs = t.engs := rfl
@[simp] theorem Strand.countOn_seq (t : Strand) (n : Nat) (cs : List Ctr) : (t.countOn n cs).seq = t.seq := rfl
@[simp] theorem Strand.countOn_seqFault (t : Strand) (n : Nat) (cs : List Ctr) : (t.countOn n cs).seqFault = t.seqFault := rfl
@[simp] theorem Strand.countOn_taken (t : Strand) (n : Nat) (cs : List Ctr) : (t.countOn n cs).taken = t.taken := rfl
@[simp] theorem Strand.countOn_vrep (t : Strand) (n : Nat) (cs : List Ctr) : (t.countOn n cs).vrep = t.vrep := rfl
@[simp] theorem Strand.countOn_vtrap (t : Strand) (n : Nat) (cs : List Ctr) : (t.countOn n cs).vtrap = t.vtrap := rfl
@[simp] theorem Strand.countOn_vpos (t : Strand) (n : Nat) (cs : List Ctr) : (t.countOn n cs).vpos = t.vpos := rfl
@[simp] theorem Strand.countOn_clone (t : Strand) (n : Nat) (cs : List Ctr) : (t.countOn n cs).clone = t.clone := rfl
@[simp] theorem Strand.countOn_susp (t : Strand) (n : Nat) (cs : List Ctr) : (t.countOn n cs).susp = t.susp := rfl
@[simp] theorem Strand.countOn_mig (t : Strand) (n : Nat) (cs : List Ctr) : (t.countOn n cs).mig = t.mig := rfl
@[simp] theorem Strand.countOn_wstat (t : Strand) (n : Nat) (cs : List Ctr) : (t.countOn n cs).wstat = t.wstat := rfl

@[simp] theorem Strand.advance_pc (t : Strand) : t.advance.pc = t.pc + 4 := rfl
@[simp] theorem Strand.advance_g (t : Strand) (r : BitVec 5) : t.advance.g r = t.g r := rfl
@[simp] theorem Strand.settled_g (t : Strand) (r : BitVec 5) : t.settled.g r = t.g r := rfl

/-- g0 reads as zero (R28). -/
@[simp] theorem Strand.g_zero (t : Strand) : t.g 0 = 0 := rfl

theorem vget_vset_self {α : Type} {n : Nat} (v : Vector α n) (i : Nat) (x d : α) (h : i < n) : vget (vset v i x) i d = x := by
  simp [vget, vset, h]

theorem vget_vset_other {α : Type} {n : Nat} (v : Vector α n) {i j : Nat} (x d : α) (h : j ≠ i) :
    vget (vset v i x) j d = vget v j d := by
  simp [vget, vset, Ne.symm h]

theorem Strand.g_setG_self (t : Strand) (r : BitVec 5) (v : Word) (h : r ≠ 0) : (t.setG r v).g r = v := by
  unfold Strand.g Strand.setG
  rw [if_neg h, if_neg h]
  exact vget_vset_self _ _ _ _ r.isLt

theorem Strand.g_setG_other (t : Strand) {r q : BitVec 5} (v : Word) (h : q ≠ r) : (t.setG r v).g q = t.g q := by
  unfold Strand.setG
  split
  · rfl
  · simp only [Strand.g]
    split
    · rfl
    · exact vget_vset_other _ _ _ (fun he => h (BitVec.eq_of_toNat_eq he))

/-- A write to g0 is discarded (R28). -/
@[simp] theorem Strand.setG_zero (t : Strand) (v : Word) : t.setG 0 v = t := rfl

end Sys2Proof.Machine
end

