-- ==== Sys2Proof/Laws/Ops.lean ====
section
/-! SUPPORT. What each shared operation does, said once: memory and its form, taking a trap, parking, results, and issuing an
operation of the core path. -/

namespace Sys2Proof.Machine

/-! ### Memory -/

theorem Memory.wfFrom_filter (p : Host.Cell → Bool) : ∀ (m : List Host.Cell) (n : Nat), Memory.wfFrom m n = true →
    Memory.wfFrom (m.filter p) n = true := by
  intro m
  induction m with
  | nil => intro n h; exact h
  | cons c t ih =>
    intro n h
    obtain ⟨j, b⟩ := c
    simp only [Memory.wfFrom, Bool.and_eq_true, decide_eq_true_eq] at h
    obtain ⟨⟨h1, h2⟩, h3⟩ := h
    have h4 := ih _ h3
    by_cases hp : p (j, b) = true
    · simp only [List.filter_cons, hp, ↓reduceIte, Memory.wfFrom, Bool.and_eq_true, decide_eq_true_eq]
      exact ⟨⟨h1, h2⟩, h4⟩
    · simp only [List.filter_cons, hp, Bool.false_eq_true, ↓reduceIte]
      exact Memory.wfFrom_mono (by omega) h4

/-- Taking entries out keeps the canonical form. -/
theorem Memory.wf_filter {m : List Host.Cell} (p : Host.Cell → Bool) (h : Memory.wf m = true) : Memory.wf (m.filter p) = true :=
  Memory.wfFrom_filter p m 0 h

/-- Writing a list of cells keeps the canonical form. -/
theorem Memory.wf_foldl_write (f : Nat → Nat) (l : List Host.Cell) : ∀ m : List Host.Cell, Memory.wf m = true →
    Memory.wf (l.foldl (fun m c => Memory.write m (f c.1) c.2) m) = true := by
  induction l with
  | nil => intro m h; exact h
  | cons c t ih => intro m h; exact ih _ (Memory.wf_write _ _ h)

/-- A write of bytes keeps the canonical form. -/
theorem State.memWf_writeBytes {s : State} (k : Nat) (b : List Byte) (h : s.memWf) : (s.writeBytes k b).memWf :=
  Memory.wf_writeN k b h

/-- A byte after a write of bytes. -/
theorem State.read_writeBytes {s : State} (k : Nat) (b : List Byte) (a : Nat) (h : s.memWf) :
    Memory.read (s.writeBytes k b).mem a = if k ≤ a ∧ a < k + b.length then (b[a - k]?).getD 0 else Memory.read s.mem a := by
  refine (Memory.read_writeN s.mem k b a h).trans ?_
  by_cases h1 : k ≤ a ∧ a < k + b.length
  · have h2 : a - k < b.length := by omega
    simp [h1, h2]
  · have h2 : ¬(k ≤ a ∧ a - k < b.length) := by omega
    simp [h1, h2]

/-- A byte of a piecewise write keeps the canonical form. -/
theorem State.memWf_runByte {s : State} (k n : Nat) (b : Byte) (h : s.memWf) : (s.runByte k n b).memWf := by
  unfold State.runByte
  split
  · exact State.memWf_writeBytes k [b] h
  · exact State.memWf_writeBytes k [b] h

/-- Clearing a range keeps the canonical form. -/
theorem State.memWf_clearRange {s : State} (k n : Nat) (h : s.memWf) : (s.clearRange k n).memWf := Memory.wf_filter _ h

theorem Memory.read_filter_keep (p : Nat → Bool) (a : Nat) (hp : p a = true) : ∀ m : List Host.Cell,
    Memory.read (m.filter fun c => p c.1) a = Memory.read m a := by
  intro m
  induction m with
  | nil => rfl
  | cons c t ih =>
    obtain ⟨j, b⟩ := c
    by_cases hj : j = a
    · subst hj; simp [hp, Memory.read]
    · by_cases hq : p j = true
      · simp [hq, Memory.read, hj, ih]
      · simp [hq, Memory.read, hj, ih]

theorem Memory.read_filter_drop (p : Nat → Bool) (a : Nat) (hp : p a = false) : ∀ m : List Host.Cell,
    Memory.read (m.filter fun c => p c.1) a = unlisted := by
  intro m
  induction m with
  | nil => rfl
  | cons c t ih =>
    obtain ⟨j, b⟩ := c
    by_cases hq : p j = true
    · have hj : j ≠ a := fun e => by rw [e, hp] at hq; cases hq
      simp [hq, Memory.read, hj, ih]
    · simp [hq, ih]

/-- A byte after a range is cleared. -/
theorem State.read_clearRange (s : State) (k n a : Nat) :
    Memory.read (s.clearRange k n).mem a = if k ≤ a ∧ a < k + n then 0 else Memory.read s.mem a := by
  unfold State.clearRange
  by_cases h : k ≤ a ∧ a < k + n
  · rw [if_pos h]
    exact Memory.read_filter_drop (fun j => !(decide (k ≤ j) && decide (j < k + n))) a (by simp [h.1, h.2]) s.mem
  · rw [if_neg h]
    refine Memory.read_filter_keep (fun j => !(decide (k ≤ j) && decide (j < k + n))) a ?_ s.mem
    simp only [Bool.not_eq_true', Bool.and_eq_false_iff, decide_eq_false_iff_not]
    omega

@[simp] theorem State.mem_setFull (s : State) (k : Nat) (b : Bool) : (s.setFull k b).mem = s.mem := rfl

/-! ### Strands -/

/-- Two writes of a strand are the last one. -/
theorem Tab.set_set {α : Type} (t : Tab α) (k : Nat) (v w : α) : Tab.set (Tab.set t k v) k w = Tab.set t k w := by
  induction t with
  | nil => simp [Tab.set]
  | cons c t ih =>
    obtain ⟨j, u⟩ := c
    by_cases h1 : k < j
    · simp [Tab.set, h1]
    · by_cases h2 : k = j
      · subst h2; simp [Tab.set]
      · simp [Tab.set, h1, h2, ih]

theorem State.setStrand_setStrand (s : State) (i : Nat) (t u : Strand) : (s.setStrand i t).setStrand i u = s.setStrand i u := by
  simp [State.setStrand, Tab.set_set]

/-- A change of a strand that exists replaces it. -/
theorem State.modStrand_eq {s : State} {i : Nat} {t : Strand} (h : s.strand? i = some t) (f : Strand → Strand) :
    s.modStrand i f = s.setStrand i (f t) := by
  unfold State.modStrand; rw [h]

/-- A change of a strand that does not exist changes nothing. -/
theorem State.modStrand_none {s : State} {i : Nat} (h : s.strand? i = none) (f : Strand → Strand) : s.modStrand i f = s := by
  unfold State.modStrand; rw [h]

/-- Replacing a strand keeps the canonical form. -/
theorem State.canonical_setStrand {s : State} (i : Nat) (t : Strand) (h : s.canonical) : (s.setStrand i t).canonical :=
  ⟨h.1, Tab.wf_set i t h.2⟩

/-! ### Traps, parks, results -/

/-- A strand that holds no claim on a port gives none up (R88). -/
theorem State.claimGone_none {s : State} {sid : Nat} {t : Strand} (h : s.strand? sid = some t) (hc : t.claim = none) :
    s.claimGone sid = s := by
  unfold State.claimGone; simp [h, hc]

/-- A trap outside the handler: cause, PC and value are saved, TH is set and the handler begins; nothing else changes, but that a
claim of the strand on a port goes (R70, R88). -/
theorem State.trap_taken {s : State} {sid : Nat} {t : Strand} (c : Cause) (v : Word) (h : t.halts = false) :
    s.trap sid t c v = (s.claimGone sid).setStrand sid
      { t with tcause := c.code, tpc := t.pc, tval := v, th := true, pc := t.tvec, st := .run, claim := none } := by
  unfold State.trap; rw [h]; rfl

/-- A trap of a strand that halts waits while the die has no place for its record (R309). -/
theorem State.trap_waits {s : State} {sid : Nat} {t : Strand} (c : Cause) (v : Word) (h : t.halts = true)
    (hr : s.recRoom (dieOf t.core) = false) : s.trap sid t c v = s := by
  unfold State.trap; simp [h, hr]

/-- A strand that parks changes in its state alone, and the cycle and claim of its park; another claim that it held goes (R62,
R88). -/
theorem State.park_strand (s : State) (sid : Nat) (t : Strand) (on : ParkOn) :
    s.park sid t on = s.setStrand sid { t with st := .parked on } ∨ ∃ cl,
      s.park sid t on = (s.claimGone sid).setStrand sid { t with st := .parked on, parkedAt := s.cycle, claim := cl } := by
  unfold State.park
  split
  · exact .inl rfl
  · exact .inr ⟨_, rfl⟩

/-- A result for a register that is bound to no port (R80). -/
theorem State.finish_unbound {s : State} {sid : Nat} {t : Strand} {r : GReg} (v : Word) (h : t.bound? r = none) :
    s.finish sid t r v = s.setStrand sid ({ t with pc := t.pc + 4 }.setG r v) := by
  have h' : t.advance.bound? r = none := h
  unfold State.finish State.writeG; rw [h']; rfl

/-- A result for a register that is bound to a port (R88). -/
theorem State.finish_bound {s : State} {sid : Nat} {t : Strand} {r : GReg} {p : Nat} (v : Word) (h : t.bound? r = some p) :
    s.finish sid t r v = (s.setStrand sid t.advance).pushPort t.homeCore p { val := some v, tag := 0 } := by
  have h' : t.advance.bound? r = some p := h
  unfold State.finish State.writeG; rw [h']; rfl

/-- The place of a late result for a register bound to no port: the register, pending, or nothing for g0 (R80). -/
theorem State.lateDest_unbound {s : State} {t : Strand} {r : GReg} (h : t.bound? r = none) :
    s.lateDest t r = if r = 0 then (s, t, .drop) else (s, { t with pend := t.pend ||| BitVec.twoPow 32 r.toNat }, .gpr r) := by
  unfold State.lateDest; rw [h]

/-- A late result reaches its register, which is no longer pending; no other register changes (R80). -/
theorem State.deliver_gpr {s : State} {sid : Nat} {t : Strand} (r : GReg) (v : Word) (h : s.strand? sid = some t) :
    s.deliver sid (.gpr r) v = s.setStrand sid { t.setG r v with pend := t.pend &&& ~~~ BitVec.twoPow 32 r.toNat } := by
  unfold State.deliver; exact State.modStrand_eq h _

/-- An operation of the core path takes its place behind the strand's others, counts, and the strand goes on (R129, R138). -/
theorem State.enqueue_eq (s : State) (sid : Nat) (t : Strand) (cs : List Ctr) (k : OpKind) (d : Dest) :
    s.enqueue sid t cs k d = s.fresh.2.setStrand sid { t with
      outst := t.outst ++ cs.map fun c => (s.serial, c)
      ops := t.ops ++ [{ sn := s.serial, core := t.core, pc := t.pc, kind := k, dest := d, since := s.cycle }]
      pc := t.pc + 4 } := rfl

end Sys2Proof.Machine
end

