-- ==== Sys2Proof/Laws/PerInstr.lean ====
section
/-! SUPPORT. What holds of each instruction as syntax, one lemma per constructor. `RoundTrip`: the decoder reads the encoder's word
back as the instruction. -/

namespace Sys2Proof.Laws

set_option Elab.async false

/-- A field that lies in the upper part of two. -/
theorem extract_append_hi {m n : Nat} (x : BitVec m) (y : BitVec n) (o l : Nat) (h : n ≤ o) :
    (x ++ y).extractLsb' o l = x.extractLsb' (o - n) l := by
  ext i hi
  have : ¬(o + i < n) := by omega
  simp only [BitVec.getElem_extractLsb', BitVec.getLsbD_append, this, ↓reduceIte, Nat.sub_add_comm h]

/-- A field that lies in the lower part of two. -/
theorem extract_append_lo {m n : Nat} (x : BitVec m) (y : BitVec n) (o l : Nat) (h : o + l ≤ n) :
    (x ++ y).extractLsb' o l = y.extractLsb' o l := by
  ext i hi
  have : o + i < n := by omega
  simp only [BitVec.getElem_extractLsb', BitVec.getLsbD_append, this, ↓reduceIte]

/-- A field that is all there is. -/
theorem extract_all {m : Nat} (x : BitVec m) : x.extractLsb' 0 m = x := by
  ext i hi; simp

/-- A word whose fields give a well-formed instruction decodes to it. -/
theorem decode_of_fields {w : BitVec 32} {i : Instr} (h : decodeFields w = .ok i) (hw : i.wf = true) : decode w = .ok i := by
  rw [decode, h]; exact if_pos hw

/-- The types' codes name the types. -/
theorem decodeTy_code (y : Ty) : decodeTy y.code = .ok y := by cases y <;> rfl

/-- The word of an `ewr`. -/
theorem decode_ewr {e : Eng} {w : BitVec 32} (h1 : w.extractLsb' 26 6 = 0x2b#6) (h2 : w.extractLsb' 22 4 = e.code)
    (h3 : w.extractLsb' 16 6 = 0#6) (h4 : w.extractLsb' 0 1 = 0#1) : decodeFields w = decodeEwr e w := by
  unfold decodeFields
  rw [h1]
  change decodeEng w = _
  unfold decodeEng
  rw [h2]
  cases e
  · change decodeEngCp w = _; unfold decodeEngCp; rw [h3]; exact if_pos h4
  · change decodeEngMx w = _; unfold decodeEngMx; rw [h3]; exact if_pos h4
  · change decodeEngWk w = _; unfold decodeEngWk; rw [h3]; exact if_pos h4
  · change decodeEngDx w = _; unfold decodeEngDx; rw [h3]; exact if_pos h4
  · change decodeEngPl w = _; unfold decodeEngPl; rw [h3]; exact if_pos h4
  · change decodeEngCl w = _; unfold decodeEngCl; rw [h3]; exact if_pos h4

/-- A register whose write is no row of its own. -/
theorem decodeEwr_plain (e : Eng) (w : BitVec 32) (h : engRegOwnRow e (w.extractLsb' 1 10).toNat = false) :
    decodeEwr e w = .ok (.ewr e (w.extractLsb' 11 5) (w.extractLsb' 1 10)) := by
  have ne : ∀ k : BitVec 10, engRegOwnRow e k.toNat = true → w.extractLsb' 1 10 ≠ k := by
    intro k hk hh; rw [hh, hk] at h; cases h
  cases e <;> dsimp only [decodeEwr]
  · have h1 : ¬(w.extractLsb' 1 10 = 2 ∨ w.extractLsb' 1 10 = 4) := by
      rintro (h1 | h1)
      · exact ne _ rfl h1
      · exact ne _ rfl h1
    have h2 : ¬(0x31 ≤ (w.extractLsb' 1 10).toNat ∧ (w.extractLsb' 1 10).toNat ≤ 0x36) := by
      intro h2
      simp only [engRegOwnRow, h2.1, h2.2, decide_true, Bool.and_self, Bool.or_true] at h
      cases h
    simp only [if_neg h1, if_neg h2]
  · simp only [if_neg (ne 3 rfl), if_neg (ne 4 rfl)]
  · simp only [if_neg (ne 0x10 rfl), if_neg (ne 0x11 rfl)]
  · have h2 : ¬(0x20 ≤ (w.extractLsb' 1 10).toNat ∧ (w.extractLsb' 1 10).toNat ≤ 0x23) := by
      intro h2
      simp only [engRegOwnRow, h2.1, h2.2, decide_true, Bool.and_self] at h
      cases h
    simp only [if_neg h2]

theorem decodeEwr_cpDest (w : BitVec 32) (h : w.extractLsb' 1 10 = 2 ∨ w.extractLsb' 1 10 = 4) :
    decodeEwr .cp w = .ok (.ewrCpDest (w.extractLsb' 1 10) (w.extractLsb' 11 5)) := if_pos h

theorem decodeEwr_cpBfmt (w : BitVec 32) (h : 0x31 ≤ (w.extractLsb' 1 10).toNat ∧ (w.extractLsb' 1 10).toNat ≤ 0x36) :
    decodeEwr .cp w = .ok (.ewrCpBfmt (w.extractLsb' 1 10) (w.extractLsb' 11 5)) := by
  have h1 : ¬(w.extractLsb' 1 10 = 2 ∨ w.extractLsb' 1 10 = 4) := by
    rintro (h1 | h1) <;> rw [h1] at h <;> exact absurd h (by decide)
  exact (if_neg h1).trans (if_pos h)

theorem decodeEwr_plRegion (w : BitVec 32) (h : 0x20 ≤ (w.extractLsb' 1 10).toNat ∧ (w.extractLsb' 1 10).toNat ≤ 0x23) :
    decodeEwr .pl w = .ok (.ewrPlRegion (w.extractLsb' 1 10) (w.extractLsb' 11 5)) := if_pos h

/-- A system register whose write is no row of its own. -/
theorem decodeSyswr_plain (w : BitVec 32) (h : sysRegOwnRow (w.extractLsb' 0 12).toNat = false) :
    decodeSyswr w = .ok (.syswr (w.extractLsb' 16 5) (w.extractLsb' 0 12)) := by
  unfold decodeSyswr
  generalize w.extractLsb' 0 12 = n at h ⊢
  dsimp only
  generalize n.toNat = k at h ⊢
  split <;> first | rfl | (exact absurd h (by decide))

namespace RoundTrip

/-- R27 to R37: the word of the instruction, if it has one, decodes to it. -/
def Statement (i : Instr) : Prop :=
  i.wf = true → (∀ v, i ≠ .illegalWord v) → ∀ w, encode i = some w → decode w = .ok i

theorem add (d : GReg) (a : GReg) (b : GReg) : Statement (.add d a b) := by
  rintro hw - _ ⟨⟩
  refine decode_of_fields ?_ hw
  simp (disch := decide) only [decodeFields, decodeAlu, extract_append_hi, extract_append_lo, extract_all, Nat.reduceSub, BitVec.reduceExtractLsb', BitVec.reduceToNat] <;> rfl

theorem sub (d : GReg) (a : GReg) (b : GReg) : Statement (.sub d a b) := by
  rintro hw - _ ⟨⟩
  refine decode_of_fields ?_ hw
  simp (disch := decide) only [decodeFields, decodeAlu, extract_append_hi, extract_append_lo, extract_all, Nat.reduceSub, BitVec.reduceExtractLsb', BitVec.reduceToNat] <;> rfl

theorem and (d : GReg) (a : GReg) (b : GReg) : Statement (.and d a b) := by
  rintro hw - _ ⟨⟩
  refine decode_of_fields ?_ hw
  simp (disch := decide) only [decodeFields, decodeAlu, extract_append_hi, extract_append_lo, extract_all, Nat.reduceSub, BitVec.reduceExtractLsb', BitVec.reduceToNat] <;> rfl

theorem or (d : GReg) (a : GReg) (b : GReg) : Statement (.or d a b) := by
  rintro hw - _ ⟨⟩
  refine decode_of_fields ?_ hw
  simp (disch := decide) only [decodeFields, decodeAlu, extract_append_hi, extract_append_lo, extract_all, Nat.reduceSub, BitVec.reduceExtractLsb', BitVec.reduceToNat] <;> rfl

theorem xor (d : GReg) (a : GReg) (b : GReg) : Statement (.xor d a b) := by
  rintro hw - _ ⟨⟩
  refine decode_of_fields ?_ hw
  simp (disch := decide) only [decodeFields, decodeAlu, extract_append_hi, extract_append_lo, extract_all, Nat.reduceSub, BitVec.reduceExtractLsb', BitVec.reduceToNat] <;> rfl

theorem andn (d : GReg) (a : GReg) (b : GReg) : Statement (.andn d a b) := by
  rintro hw - _ ⟨⟩
  refine decode_of_fields ?_ hw
  simp (disch := decide) only [decodeFields, decodeAlu, extract_append_hi, extract_append_lo, extract_all, Nat.reduceSub, BitVec.reduceExtractLsb', BitVec.reduceToNat] <;> rfl

theorem shl (d : GReg) (a : GReg) (b : GReg) : Statement (.shl d a b) := by
  rintro hw - _ ⟨⟩
  refine decode_of_fields ?_ hw
  simp (disch := decide) only [decodeFields, decodeAlu, extract_append_hi, extract_append_lo, extract_all, Nat.reduceSub, BitVec.reduceExtractLsb', BitVec.reduceToNat] <;> rfl

theorem shr (d : GReg) (a : GReg) (b : GReg) : Statement (.shr d a b) := by
  rintro hw - _ ⟨⟩
  refine decode_of_fields ?_ hw
  simp (disch := decide) only [decodeFields, decodeAlu, extract_append_hi, extract_append_lo, extract_all, Nat.reduceSub, BitVec.reduceExtractLsb', BitVec.reduceToNat] <;> rfl

theorem sra (d : GReg) (a : GReg) (b : GReg) : Statement (.sra d a b) := by
  rintro hw - _ ⟨⟩
  refine decode_of_fields ?_ hw
  simp (disch := decide) only [decodeFields, decodeAlu, extract_append_hi, extract_append_lo, extract_all, Nat.reduceSub, BitVec.reduceExtractLsb', BitVec.reduceToNat] <;> rfl

theorem slt (d : GReg) (a : GReg) (b : GReg) : Statement (.slt d a b) := by
  rintro hw - _ ⟨⟩
  refine decode_of_fields ?_ hw
  simp (disch := decide) only [decodeFields, decodeAlu, extract_append_hi, extract_append_lo, extract_all, Nat.reduceSub, BitVec.reduceExtractLsb', BitVec.reduceToNat] <;> rfl

theorem sltu (d : GReg) (a : GReg) (b : GReg) : Statement (.sltu d a b) := by
  rintro hw - _ ⟨⟩
  refine decode_of_fields ?_ hw
  simp (disch := decide) only [decodeFields, decodeAlu, extract_append_hi, extract_append_lo, extract_all, Nat.reduceSub, BitVec.reduceExtractLsb', BitVec.reduceToNat] <;> rfl

theorem min (d : GReg) (a : GReg) (b : GReg) : Statement (.min d a b) := by
  rintro hw - _ ⟨⟩
  refine decode_of_fields ?_ hw
  simp (disch := decide) only [decodeFields, decodeAlu, extract_append_hi, extract_append_lo, extract_all, Nat.reduceSub, BitVec.reduceExtractLsb', BitVec.reduceToNat] <;> rfl

theorem max (d : GReg) (a : GReg) (b : GReg) : Statement (.max d a b) := by
  rintro hw - _ ⟨⟩
  refine decode_of_fields ?_ hw
  simp (disch := decide) only [decodeFields, decodeAlu, extract_append_hi, extract_append_lo, extract_all, Nat.reduceSub, BitVec.reduceExtractLsb', BitVec.reduceToNat] <;> rfl

theorem minu (d : GReg) (a : GReg) (b : GReg) : Statement (.minu d a b) := by
  rintro hw - _ ⟨⟩
  refine decode_of_fields ?_ hw
  simp (disch := decide) only [decodeFields, decodeAlu, extract_append_hi, extract_append_lo, extract_all, Nat.reduceSub, BitVec.reduceExtractLsb', BitVec.reduceToNat] <;> rfl

theorem maxu (d : GReg) (a : GReg) (b : GReg) : Statement (.maxu d a b) := by
  rintro hw - _ ⟨⟩
  refine decode_of_fields ?_ hw
  simp (disch := decide) only [decodeFields, decodeAlu, extract_append_hi, extract_append_lo, extract_all, Nat.reduceSub, BitVec.reduceExtractLsb', BitVec.reduceToNat] <;> rfl

theorem seq (d : GReg) (a : GReg) (b : GReg) : Statement (.seq d a b) := by
  rintro hw - _ ⟨⟩
  refine decode_of_fields ?_ hw
  simp (disch := decide) only [decodeFields, decodeAlu, extract_append_hi, extract_append_lo, extract_all, Nat.reduceSub, BitVec.reduceExtractLsb', BitVec.reduceToNat] <;> rfl

theorem addw (d : GReg) (a : GReg) (b : GReg) : Statement (.addw d a b) := by
  rintro hw - _ ⟨⟩
  refine decode_of_fields ?_ hw
  simp (disch := decide) only [decodeFields, decodeAlu, extract_append_hi, extract_append_lo, extract_all, Nat.reduceSub, BitVec.reduceExtractLsb', BitVec.reduceToNat] <;> rfl

theorem subw (d : GReg) (a : GReg) (b : GReg) : Statement (.subw d a b) := by
  rintro hw - _ ⟨⟩
  refine decode_of_fields ?_ hw
  simp (disch := decide) only [decodeFields, decodeAlu, extract_append_hi, extract_append_lo, extract_all, Nat.reduceSub, BitVec.reduceExtractLsb', BitVec.reduceToNat] <;> rfl

theorem shlw (d : GReg) (a : GReg) (b : GReg) : Statement (.shlw d a b) := by
  rintro hw - _ ⟨⟩
  refine decode_of_fields ?_ hw
  simp (disch := decide) only [decodeFields, decodeAlu, extract_append_hi, extract_append_lo, extract_all, Nat.reduceSub, BitVec.reduceExtractLsb', BitVec.reduceToNat] <;> rfl

theorem shrw (d : GReg) (a : GReg) (b : GReg) : Statement (.shrw d a b) := by
  rintro hw - _ ⟨⟩
  refine decode_of_fields ?_ hw
  simp (disch := decide) only [decodeFields, decodeAlu, extract_append_hi, extract_append_lo, extract_all, Nat.reduceSub, BitVec.reduceExtractLsb', BitVec.reduceToNat] <;> rfl

theorem sraw (d : GReg) (a : GReg) (b : GReg) : Statement (.sraw d a b) := by
  rintro hw - _ ⟨⟩
  refine decode_of_fields ?_ hw
  simp (disch := decide) only [decodeFields, decodeAlu, extract_append_hi, extract_append_lo, extract_all, Nat.reduceSub, BitVec.reduceExtractLsb', BitVec.reduceToNat] <;> rfl

theorem addi (d : GReg) (a : GReg) (i0 : BitVec 16) : Statement (.addi d a i0) := by
  rintro hw - _ ⟨⟩
  refine decode_of_fields ?_ hw
  simp (disch := decide) only [decodeFields, extract_append_hi, extract_append_lo, extract_all, Nat.reduceSub, BitVec.reduceExtractLsb', BitVec.reduceToNat] <;> rfl

theorem andi (d : GReg) (a : GReg) (i0 : BitVec 16) : Statement (.andi d a i0) := by
  rintro hw - _ ⟨⟩
  refine decode_of_fields ?_ hw
  simp (disch := decide) only [decodeFields, extract_append_hi, extract_append_lo, extract_all, Nat.reduceSub, BitVec.reduceExtractLsb', BitVec.reduceToNat] <;> rfl

theorem ori (d : GReg) (a : GReg) (i0 : BitVec 16) : Statement (.ori d a i0) := by
  rintro hw - _ ⟨⟩
  refine decode_of_fields ?_ hw
  simp (disch := decide) only [decodeFields, extract_append_hi, extract_append_lo, extract_all, Nat.reduceSub, BitVec.reduceExtractLsb', BitVec.reduceToNat] <;> rfl

theorem xori (d : GReg) (a : GReg) (i0 : BitVec 16) : Statement (.xori d a i0) := by
  rintro hw - _ ⟨⟩
  refine decode_of_fields ?_ hw
  simp (disch := decide) only [decodeFields, extract_append_hi, extract_append_lo, extract_all, Nat.reduceSub, BitVec.reduceExtractLsb', BitVec.reduceToNat] <;> rfl

theorem shli (d : GReg) (a : GReg) (n : BitVec 6) : Statement (.shli d a n) := by
  rintro hw - _ ⟨⟩
  refine decode_of_fields ?_ hw
  simp (disch := decide) only [decodeFields, decodeShiftImm, extract_append_hi, extract_append_lo, extract_all, Nat.reduceSub, BitVec.reduceExtractLsb', BitVec.reduceToNat] <;> rfl

theorem shri (d : GReg) (a : GReg) (n : BitVec 6) : Statement (.shri d a n) := by
  rintro hw - _ ⟨⟩
  refine decode_of_fields ?_ hw
  simp (disch := decide) only [decodeFields, decodeShiftImm, extract_append_hi, extract_append_lo, extract_all, Nat.reduceSub, BitVec.reduceExtractLsb', BitVec.reduceToNat] <;> rfl

theorem srai (d : GReg) (a : GReg) (n : BitVec 6) : Statement (.srai d a n) := by
  rintro hw - _ ⟨⟩
  refine decode_of_fields ?_ hw
  simp (disch := decide) only [decodeFields, decodeShiftImm, extract_append_hi, extract_append_lo, extract_all, Nat.reduceSub, BitVec.reduceExtractLsb', BitVec.reduceToNat] <;> rfl

theorem slti (d : GReg) (a : GReg) (i0 : BitVec 16) : Statement (.slti d a i0) := by
  rintro hw - _ ⟨⟩
  refine decode_of_fields ?_ hw
  simp (disch := decide) only [decodeFields, extract_append_hi, extract_append_lo, extract_all, Nat.reduceSub, BitVec.reduceExtractLsb', BitVec.reduceToNat] <;> rfl

theorem li (d : GReg) (i0 : BitVec 16) : Statement (.li d i0) := by
  rintro hw - _ ⟨⟩
  refine decode_of_fields ?_ hw
  simp (disch := decide) only [decodeFields, extract_append_hi, extract_append_lo, extract_all, Nat.reduceSub, BitVec.reduceExtractLsb', BitVec.reduceToNat] <;> rfl

theorem lis (d : GReg) (p : BitVec 2) (i0 : BitVec 16) : Statement (.lis d p i0) := by
  rintro hw - _ ⟨⟩
  refine decode_of_fields ?_ hw
  simp (disch := decide) only [decodeFields, extract_append_hi, extract_append_lo, extract_all, Nat.reduceSub, BitVec.reduceExtractLsb', BitVec.reduceToNat] <;> rfl

theorem mul (d : GReg) (a : GReg) (b : GReg) : Statement (.mul d a b) := by
  rintro hw - _ ⟨⟩
  refine decode_of_fields ?_ hw
  simp (disch := decide) only [decodeFields, decodeMulDiv, extract_append_hi, extract_append_lo, extract_all, Nat.reduceSub, BitVec.reduceExtractLsb', BitVec.reduceToNat] <;> rfl

theorem mulh (d : GReg) (a : GReg) (b : GReg) : Statement (.mulh d a b) := by
  rintro hw - _ ⟨⟩
  refine decode_of_fields ?_ hw
  simp (disch := decide) only [decodeFields, decodeMulDiv, extract_append_hi, extract_append_lo, extract_all, Nat.reduceSub, BitVec.reduceExtractLsb', BitVec.reduceToNat] <;> rfl

theorem mulhu (d : GReg) (a : GReg) (b : GReg) : Statement (.mulhu d a b) := by
  rintro hw - _ ⟨⟩
  refine decode_of_fields ?_ hw
  simp (disch := decide) only [decodeFields, decodeMulDiv, extract_append_hi, extract_append_lo, extract_all, Nat.reduceSub, BitVec.reduceExtractLsb', BitVec.reduceToNat] <;> rfl

theorem mulw (d : GReg) (a : GReg) (b : GReg) : Statement (.mulw d a b) := by
  rintro hw - _ ⟨⟩
  refine decode_of_fields ?_ hw
  simp (disch := decide) only [decodeFields, decodeMulDiv, extract_append_hi, extract_append_lo, extract_all, Nat.reduceSub, BitVec.reduceExtractLsb', BitVec.reduceToNat] <;> rfl

theorem div (d : GReg) (a : GReg) (b : GReg) : Statement (.div d a b) := by
  rintro hw - _ ⟨⟩
  refine decode_of_fields ?_ hw
  simp (disch := decide) only [decodeFields, decodeMulDiv, extract_append_hi, extract_append_lo, extract_all, Nat.reduceSub, BitVec.reduceExtractLsb', BitVec.reduceToNat] <;> rfl

theorem divu (d : GReg) (a : GReg) (b : GReg) : Statement (.divu d a b) := by
  rintro hw - _ ⟨⟩
  refine decode_of_fields ?_ hw
  simp (disch := decide) only [decodeFields, decodeMulDiv, extract_append_hi, extract_append_lo, extract_all, Nat.reduceSub, BitVec.reduceExtractLsb', BitVec.reduceToNat] <;> rfl

theorem rem (d : GReg) (a : GReg) (b : GReg) : Statement (.rem d a b) := by
  rintro hw - _ ⟨⟩
  refine decode_of_fields ?_ hw
  simp (disch := decide) only [decodeFields, decodeMulDiv, extract_append_hi, extract_append_lo, extract_all, Nat.reduceSub, BitVec.reduceExtractLsb', BitVec.reduceToNat] <;> rfl

theorem remu (d : GReg) (a : GReg) (b : GReg) : Statement (.remu d a b) := by
  rintro hw - _ ⟨⟩
  refine decode_of_fields ?_ hw
  simp (disch := decide) only [decodeFields, decodeMulDiv, extract_append_hi, extract_append_lo, extract_all, Nat.reduceSub, BitVec.reduceExtractLsb', BitVec.reduceToNat] <;> rfl

theorem divw (d : GReg) (a : GReg) (b : GReg) : Statement (.divw d a b) := by
  rintro hw - _ ⟨⟩
  refine decode_of_fields ?_ hw
  simp (disch := decide) only [decodeFields, decodeMulDiv, extract_append_hi, extract_append_lo, extract_all, Nat.reduceSub, BitVec.reduceExtractLsb', BitVec.reduceToNat] <;> rfl

theorem remw (d : GReg) (a : GReg) (b : GReg) : Statement (.remw d a b) := by
  rintro hw - _ ⟨⟩
  refine decode_of_fields ?_ hw
  simp (disch := decide) only [decodeFields, decodeMulDiv, extract_append_hi, extract_append_lo, extract_all, Nat.reduceSub, BitVec.reduceExtractLsb', BitVec.reduceToNat] <;> rfl

theorem clz (d : GReg) (a : GReg) : Statement (.clz d a) := by
  rintro hw - _ ⟨⟩
  refine decode_of_fields ?_ hw
  simp (disch := decide) only [decodeFields, decodeBits, extract_append_hi, extract_append_lo, extract_all, Nat.reduceSub, BitVec.reduceExtractLsb', BitVec.reduceToNat] <;> rfl

theorem ctz (d : GReg) (a : GReg) : Statement (.ctz d a) := by
  rintro hw - _ ⟨⟩
  refine decode_of_fields ?_ hw
  simp (disch := decide) only [decodeFields, decodeBits, extract_append_hi, extract_append_lo, extract_all, Nat.reduceSub, BitVec.reduceExtractLsb', BitVec.reduceToNat] <;> rfl

theorem popc (d : GReg) (a : GReg) : Statement (.popc d a) := by
  rintro hw - _ ⟨⟩
  refine decode_of_fields ?_ hw
  simp (disch := decide) only [decodeFields, decodeBits, extract_append_hi, extract_append_lo, extract_all, Nat.reduceSub, BitVec.reduceExtractLsb', BitVec.reduceToNat] <;> rfl

theorem bswap (d : GReg) (a : GReg) : Statement (.bswap d a) := by
  rintro hw - _ ⟨⟩
  refine decode_of_fields ?_ hw
  simp (disch := decide) only [decodeFields, decodeBits, extract_append_hi, extract_append_lo, extract_all, Nat.reduceSub, BitVec.reduceExtractLsb', BitVec.reduceToNat] <;> rfl

theorem bext (d : GReg) (a : GReg) (b : GReg) : Statement (.bext d a b) := by
  rintro hw - _ ⟨⟩
  refine decode_of_fields ?_ hw
  simp (disch := decide) only [decodeFields, decodeBits, extract_append_hi, extract_append_lo, extract_all, Nat.reduceSub, BitVec.reduceExtractLsb', BitVec.reduceToNat] <;> rfl

theorem bins (d : GReg) (a : GReg) (b : GReg) : Statement (.bins d a b) := by
  rintro hw - _ ⟨⟩
  refine decode_of_fields ?_ hw
  simp (disch := decide) only [decodeFields, decodeBits, extract_append_hi, extract_append_lo, extract_all, Nat.reduceSub, BitVec.reduceExtractLsb', BitVec.reduceToNat] <;> rfl

theorem sext (d : GReg) (a : GReg) (b : GReg) : Statement (.sext d a b) := by
  rintro hw - _ ⟨⟩
  refine decode_of_fields ?_ hw
  simp (disch := decide) only [decodeFields, decodeBits, extract_append_hi, extract_append_lo, extract_all, Nat.reduceSub, BitVec.reduceExtractLsb', BitVec.reduceToNat] <;> rfl

theorem zext (d : GReg) (a : GReg) (b : GReg) : Statement (.zext d a b) := by
  rintro hw - _ ⟨⟩
  refine decode_of_fields ?_ hw
  simp (disch := decide) only [decodeFields, decodeBits, extract_append_hi, extract_append_lo, extract_all, Nat.reduceSub, BitVec.reduceExtractLsb', BitVec.reduceToNat] <;> rfl

theorem beq (a : GReg) (b : GReg) (o : BitVec 13) : Statement (.beq a b o) := by
  rintro hw - _ ⟨⟩
  refine decode_of_fields ?_ hw
  simp (disch := decide) only [decodeFields, decodeBranch, extract_append_hi, extract_append_lo, extract_all, Nat.reduceSub, BitVec.reduceExtractLsb', BitVec.reduceToNat] <;> rfl

theorem bne (a : GReg) (b : GReg) (o : BitVec 13) : Statement (.bne a b o) := by
  rintro hw - _ ⟨⟩
  refine decode_of_fields ?_ hw
  simp (disch := decide) only [decodeFields, decodeBranch, extract_append_hi, extract_append_lo, extract_all, Nat.reduceSub, BitVec.reduceExtractLsb', BitVec.reduceToNat] <;> rfl

theorem blt (a : GReg) (b : GReg) (o : BitVec 13) : Statement (.blt a b o) := by
  rintro hw - _ ⟨⟩
  refine decode_of_fields ?_ hw
  simp (disch := decide) only [decodeFields, decodeBranch, extract_append_hi, extract_append_lo, extract_all, Nat.reduceSub, BitVec.reduceExtractLsb', BitVec.reduceToNat] <;> rfl

theorem bge (a : GReg) (b : GReg) (o : BitVec 13) : Statement (.bge a b o) := by
  rintro hw - _ ⟨⟩
  refine decode_of_fields ?_ hw
  simp (disch := decide) only [decodeFields, decodeBranch, extract_append_hi, extract_append_lo, extract_all, Nat.reduceSub, BitVec.reduceExtractLsb', BitVec.reduceToNat] <;> rfl

theorem bltu (a : GReg) (b : GReg) (o : BitVec 13) : Statement (.bltu a b o) := by
  rintro hw - _ ⟨⟩
  refine decode_of_fields ?_ hw
  simp (disch := decide) only [decodeFields, decodeBranch, extract_append_hi, extract_append_lo, extract_all, Nat.reduceSub, BitVec.reduceExtractLsb', BitVec.reduceToNat] <;> rfl

theorem bgeu (a : GReg) (b : GReg) (o : BitVec 13) : Statement (.bgeu a b o) := by
  rintro hw - _ ⟨⟩
  refine decode_of_fields ?_ hw
  simp (disch := decide) only [decodeFields, decodeBranch, extract_append_hi, extract_append_lo, extract_all, Nat.reduceSub, BitVec.reduceExtractLsb', BitVec.reduceToNat] <;> rfl

theorem jal (d : GReg) (o : BitVec 21) : Statement (.jal d o) := by
  rintro hw - _ ⟨⟩
  refine decode_of_fields ?_ hw
  simp (disch := decide) only [decodeFields, extract_append_hi, extract_append_lo, extract_all, Nat.reduceSub, BitVec.reduceExtractLsb', BitVec.reduceToNat] <;> rfl

theorem jalr (d : GReg) (a : GReg) (i0 : BitVec 16) : Statement (.jalr d a i0) := by
  rintro hw - _ ⟨⟩
  refine decode_of_fields ?_ hw
  simp (disch := decide) only [decodeFields, extract_append_hi, extract_append_lo, extract_all, Nat.reduceSub, BitVec.reduceExtractLsb', BitVec.reduceToNat] <;> rfl

theorem widf (d : GReg) (n : BitVec 5) : Statement (.widf d n) := by
  rintro hw - _ ⟨⟩
  refine decode_of_fields ?_ hw
  simp (disch := decide) only [decodeFields, decodeId, extract_append_hi, extract_append_lo, extract_all, Nat.reduceSub, BitVec.reduceExtractLsb', BitVec.reduceToNat] <;> rfl

theorem wid (d : GReg) : Statement (.wid d) := by
  rintro hw - _ ⟨⟩
  refine decode_of_fields ?_ hw
  simp (disch := decide) only [decodeFields, decodeId, extract_append_hi, extract_append_lo, extract_all, Nat.reduceSub, BitVec.reduceExtractLsb', BitVec.reduceToNat] <;> rfl

theorem self (d : GReg) : Statement (.self d) := by
  rintro hw - _ ⟨⟩
  refine decode_of_fields ?_ hw
  simp (disch := decide) only [decodeFields, decodeId, extract_append_hi, extract_append_lo, extract_all, Nat.reduceSub, BitVec.reduceExtractLsb', BitVec.reduceToNat] <;> rfl

theorem cyc (d : GReg) : Statement (.cyc d) := by
  rintro hw - _ ⟨⟩
  refine decode_of_fields ?_ hw
  simp (disch := decide) only [decodeFields, decodeId, extract_append_hi, extract_append_lo, extract_all, Nat.reduceSub, BitVec.reduceExtractLsb', BitVec.reduceToNat] <;> rfl

theorem tick (d : GReg) : Statement (.tick d) := by
  rintro hw - _ ⟨⟩
  refine decode_of_fields ?_ hw
  simp (disch := decide) only [decodeFields, decodeId, extract_append_hi, extract_append_lo, extract_all, Nat.reduceSub, BitVec.reduceExtractLsb', BitVec.reduceToNat] <;> rfl

theorem grp (d : GReg) : Statement (.grp d) := by
  rintro hw - _ ⟨⟩
  refine decode_of_fields ?_ hw
  simp (disch := decide) only [decodeFields, decodeId, extract_append_hi, extract_append_lo, extract_all, Nat.reduceSub, BitVec.reduceExtractLsb', BitVec.reduceToNat] <;> rfl

theorem ldb (t : GReg) (h : HReg) (x : GReg) (k : BitVec 2) (o : BitVec 9) : Statement (.ldb t h x k o) := by
  rintro hw - _ ⟨⟩
  refine decode_of_fields ?_ hw
  simp (disch := decide) only [decodeFields, extract_append_hi, extract_append_lo, extract_all, Nat.reduceSub, BitVec.reduceExtractLsb', BitVec.reduceToNat] <;> rfl

theorem ldbu (t : GReg) (h : HReg) (x : GReg) (k : BitVec 2) (o : BitVec 9) : Statement (.ldbu t h x k o) := by
  rintro hw - _ ⟨⟩
  refine decode_of_fields ?_ hw
  simp (disch := decide) only [decodeFields, extract_append_hi, extract_append_lo, extract_all, Nat.reduceSub, BitVec.reduceExtractLsb', BitVec.reduceToNat] <;> rfl

theorem ldh (t : GReg) (h : HReg) (x : GReg) (k : BitVec 2) (o : BitVec 9) : Statement (.ldh t h x k o) := by
  rintro hw - _ ⟨⟩
  refine decode_of_fields ?_ hw
  simp (disch := decide) only [decodeFields, extract_append_hi, extract_append_lo, extract_all, Nat.reduceSub, BitVec.reduceExtractLsb', BitVec.reduceToNat] <;> rfl

theorem ldhu (t : GReg) (h : HReg) (x : GReg) (k : BitVec 2) (o : BitVec 9) : Statement (.ldhu t h x k o) := by
  rintro hw - _ ⟨⟩
  refine decode_of_fields ?_ hw
  simp (disch := decide) only [decodeFields, extract_append_hi, extract_append_lo, extract_all, Nat.reduceSub, BitVec.reduceExtractLsb', BitVec.reduceToNat] <;> rfl

theorem ldw (t : GReg) (h : HReg) (x : GReg) (k : BitVec 2) (o : BitVec 9) : Statement (.ldw t h x k o) := by
  rintro hw - _ ⟨⟩
  refine decode_of_fields ?_ hw
  simp (disch := decide) only [decodeFields, extract_append_hi, extract_append_lo, extract_all, Nat.reduceSub, BitVec.reduceExtractLsb', BitVec.reduceToNat] <;> rfl

theorem ldwu (t : GReg) (h : HReg) (x : GReg) (k : BitVec 2) (o : BitVec 9) : Statement (.ldwu t h x k o) := by
  rintro hw - _ ⟨⟩
  refine decode_of_fields ?_ hw
  simp (disch := decide) only [decodeFields, extract_append_hi, extract_append_lo, extract_all, Nat.reduceSub, BitVec.reduceExtractLsb', BitVec.reduceToNat] <;> rfl

theorem ldd (t : GReg) (h : HReg) (x : GReg) (k : BitVec 2) (o : BitVec 9) : Statement (.ldd t h x k o) := by
  rintro hw - _ ⟨⟩
  refine decode_of_fields ?_ hw
  simp (disch := decide) only [decodeFields, extract_append_hi, extract_append_lo, extract_all, Nat.reduceSub, BitVec.reduceExtractLsb', BitVec.reduceToNat] <;> rfl

theorem ldv (t : VReg) (h : HReg) (x : GReg) (k : BitVec 2) (o : BitVec 9) : Statement (.ldv t h x k o) := by
  rintro hw - _ ⟨⟩
  refine decode_of_fields ?_ hw
  simp (disch := decide) only [decodeFields, extract_append_hi, extract_append_lo, extract_all, Nat.reduceSub, BitVec.reduceExtractLsb', BitVec.reduceToNat] <;> rfl

theorem stb (t : GReg) (h : HReg) (x : GReg) (k : BitVec 2) (o : BitVec 9) : Statement (.stb t h x k o) := by
  rintro hw - _ ⟨⟩
  refine decode_of_fields ?_ hw
  simp (disch := decide) only [decodeFields, extract_append_hi, extract_append_lo, extract_all, Nat.reduceSub, BitVec.reduceExtractLsb', BitVec.reduceToNat] <;> rfl

theorem sth (t : GReg) (h : HReg) (x : GReg) (k : BitVec 2) (o : BitVec 9) : Statement (.sth t h x k o) := by
  rintro hw - _ ⟨⟩
  refine decode_of_fields ?_ hw
  simp (disch := decide) only [decodeFields, extract_append_hi, extract_append_lo, extract_all, Nat.reduceSub, BitVec.reduceExtractLsb', BitVec.reduceToNat] <;> rfl

theorem stw (t : GReg) (h : HReg) (x : GReg) (k : BitVec 2) (o : BitVec 9) : Statement (.stw t h x k o) := by
  rintro hw - _ ⟨⟩
  refine decode_of_fields ?_ hw
  simp (disch := decide) only [decodeFields, extract_append_hi, extract_append_lo, extract_all, Nat.reduceSub, BitVec.reduceExtractLsb', BitVec.reduceToNat] <;> rfl

theorem std (t : GReg) (h : HReg) (x : GReg) (k : BitVec 2) (o : BitVec 9) : Statement (.std t h x k o) := by
  rintro hw - _ ⟨⟩
  refine decode_of_fields ?_ hw
  simp (disch := decide) only [decodeFields, extract_append_hi, extract_append_lo, extract_all, Nat.reduceSub, BitVec.reduceExtractLsb', BitVec.reduceToNat] <;> rfl

theorem stv (t : VReg) (h : HReg) (x : GReg) (k : BitVec 2) (o : BitVec 9) : Statement (.stv t h x k o) := by
  rintro hw - _ ⟨⟩
  refine decode_of_fields ?_ hw
  simp (disch := decide) only [decodeFields, extract_append_hi, extract_append_lo, extract_all, Nat.reduceSub, BitVec.reduceExtractLsb', BitVec.reduceToNat] <;> rfl

theorem ldf (t : GReg) (h : HReg) (x : GReg) : Statement (.ldf t h x) := by
  rintro hw - _ ⟨⟩
  refine decode_of_fields ?_ hw
  simp (disch := decide) only [decodeFields, decodeSync, extract_append_hi, extract_append_lo, extract_all, Nat.reduceSub, BitVec.reduceExtractLsb', BitVec.reduceToNat] <;> rfl

theorem ldfe (t : GReg) (h : HReg) (x : GReg) : Statement (.ldfe t h x) := by
  rintro hw - _ ⟨⟩
  refine decode_of_fields ?_ hw
  simp (disch := decide) only [decodeFields, decodeSync, extract_append_hi, extract_append_lo, extract_all, Nat.reduceSub, BitVec.reduceExtractLsb', BitVec.reduceToNat] <;> rfl

theorem stef (t : GReg) (h : HReg) (x : GReg) : Statement (.stef t h x) := by
  rintro hw - _ ⟨⟩
  refine decode_of_fields ?_ hw
  simp (disch := decide) only [decodeFields, decodeSync, extract_append_hi, extract_append_lo, extract_all, Nat.reduceSub, BitVec.reduceExtractLsb', BitVec.reduceToNat] <;> rfl

theorem stf (t : GReg) (h : HReg) (x : GReg) : Statement (.stf t h x) := by
  rintro hw - _ ⟨⟩
  refine decode_of_fields ?_ hw
  simp (disch := decide) only [decodeFields, decodeSync, extract_append_hi, extract_append_lo, extract_all, Nat.reduceSub, BitVec.reduceExtractLsb', BitVec.reduceToNat] <;> rfl

theorem sete (h : HReg) (x : GReg) : Statement (.sete h x) := by
  rintro hw - _ ⟨⟩
  refine decode_of_fields ?_ hw
  simp (disch := decide) only [decodeFields, decodeSync, extract_append_hi, extract_append_lo, extract_all, Nat.reduceSub, BitVec.reduceExtractLsb', BitVec.reduceToNat] <;> rfl

theorem fetest (t : GReg) (h : HReg) (x : GReg) : Statement (.fetest t h x) := by
  rintro hw - _ ⟨⟩
  refine decode_of_fields ?_ hw
  simp (disch := decide) only [decodeFields, decodeSync, extract_append_hi, extract_append_lo, extract_all, Nat.reduceSub, BitVec.reduceExtractLsb', BitVec.reduceToNat] <;> rfl

theorem amoadd (t : GReg) (h : HReg) (x : GReg) (v : GReg) : Statement (.amoadd t h x v) := by
  rintro hw - _ ⟨⟩
  refine decode_of_fields ?_ hw
  simp (disch := decide) only [decodeFields, decodeAmo, extract_append_hi, extract_append_lo, extract_all, Nat.reduceSub, BitVec.reduceExtractLsb', BitVec.reduceToNat] <;> rfl

theorem amoand (t : GReg) (h : HReg) (x : GReg) (v : GReg) : Statement (.amoand t h x v) := by
  rintro hw - _ ⟨⟩
  refine decode_of_fields ?_ hw
  simp (disch := decide) only [decodeFields, decodeAmo, extract_append_hi, extract_append_lo, extract_all, Nat.reduceSub, BitVec.reduceExtractLsb', BitVec.reduceToNat] <;> rfl

theorem amoor (t : GReg) (h : HReg) (x : GReg) (v : GReg) : Statement (.amoor t h x v) := by
  rintro hw - _ ⟨⟩
  refine decode_of_fields ?_ hw
  simp (disch := decide) only [decodeFields, decodeAmo, extract_append_hi, extract_append_lo, extract_all, Nat.reduceSub, BitVec.reduceExtractLsb', BitVec.reduceToNat] <;> rfl

theorem amoxor (t : GReg) (h : HReg) (x : GReg) (v : GReg) : Statement (.amoxor t h x v) := by
  rintro hw - _ ⟨⟩
  refine decode_of_fields ?_ hw
  simp (disch := decide) only [decodeFields, decodeAmo, extract_append_hi, extract_append_lo, extract_all, Nat.reduceSub, BitVec.reduceExtractLsb', BitVec.reduceToNat] <;> rfl

theorem amomin (t : GReg) (h : HReg) (x : GReg) (v : GReg) : Statement (.amomin t h x v) := by
  rintro hw - _ ⟨⟩
  refine decode_of_fields ?_ hw
  simp (disch := decide) only [decodeFields, decodeAmo, extract_append_hi, extract_append_lo, extract_all, Nat.reduceSub, BitVec.reduceExtractLsb', BitVec.reduceToNat] <;> rfl

theorem amomax (t : GReg) (h : HReg) (x : GReg) (v : GReg) : Statement (.amomax t h x v) := by
  rintro hw - _ ⟨⟩
  refine decode_of_fields ?_ hw
  simp (disch := decide) only [decodeFields, decodeAmo, extract_append_hi, extract_append_lo, extract_all, Nat.reduceSub, BitVec.reduceExtractLsb', BitVec.reduceToNat] <;> rfl

theorem amominu (t : GReg) (h : HReg) (x : GReg) (v : GReg) : Statement (.amominu t h x v) := by
  rintro hw - _ ⟨⟩
  refine decode_of_fields ?_ hw
  simp (disch := decide) only [decodeFields, decodeAmo, extract_append_hi, extract_append_lo, extract_all, Nat.reduceSub, BitVec.reduceExtractLsb', BitVec.reduceToNat] <;> rfl

theorem amomaxu (t : GReg) (h : HReg) (x : GReg) (v : GReg) : Statement (.amomaxu t h x v) := by
  rintro hw - _ ⟨⟩
  refine decode_of_fields ?_ hw
  simp (disch := decide) only [decodeFields, decodeAmo, extract_append_hi, extract_append_lo, extract_all, Nat.reduceSub, BitVec.reduceExtractLsb', BitVec.reduceToNat] <;> rfl

theorem amoswap (t : GReg) (h : HReg) (x : GReg) (v : GReg) : Statement (.amoswap t h x v) := by
  rintro hw - _ ⟨⟩
  refine decode_of_fields ?_ hw
  simp (disch := decide) only [decodeFields, decodeAmo, extract_append_hi, extract_append_lo, extract_all, Nat.reduceSub, BitVec.reduceExtractLsb', BitVec.reduceToNat] <;> rfl

theorem amocas (t : GReg) (h : HReg) (x : GReg) (v : GReg) : Statement (.amocas t h x v) := by
  rintro hw - _ ⟨⟩
  refine decode_of_fields ?_ hw
  simp (disch := decide) only [decodeFields, decodeAmo, extract_append_hi, extract_append_lo, extract_all, Nat.reduceSub, BitVec.reduceExtractLsb', BitVec.reduceToNat] <;> rfl

theorem amoaddw (t : GReg) (h : HReg) (x : GReg) (v : GReg) : Statement (.amoaddw t h x v) := by
  rintro hw - _ ⟨⟩
  refine decode_of_fields ?_ hw
  simp (disch := decide) only [decodeFields, decodeAmo, extract_append_hi, extract_append_lo, extract_all, Nat.reduceSub, BitVec.reduceExtractLsb', BitVec.reduceToNat] <;> rfl

theorem amofaddF32 (t : GReg) (h : HReg) (x : GReg) (v : GReg) : Statement (.amofaddF32 t h x v) := by
  rintro hw - _ ⟨⟩
  refine decode_of_fields ?_ hw
  simp (disch := decide) only [decodeFields, decodeAmo, extract_append_hi, extract_append_lo, extract_all, Nat.reduceSub, BitVec.reduceExtractLsb', BitVec.reduceToNat] <;> rfl

theorem hsub (d : HReg) (a : HReg) (b : BitVec 4) : Statement (.hsub d a b) := by
  rintro hw - _ ⟨⟩
  refine decode_of_fields ?_ hw
  simp (disch := decide) only [decodeFields, decodeHnd, extract_append_hi, extract_append_lo, extract_all, Nat.reduceSub, BitVec.reduceExtractLsb', BitVec.reduceToNat] <;> rfl

theorem hrd (d : GReg) (a : HReg) (b : GReg) : Statement (.hrd d a b) := by
  rintro hw - _ ⟨⟩
  refine decode_of_fields ?_ hw
  simp (disch := decide) only [decodeFields, decodeHnd, extract_append_hi, extract_append_lo, extract_all, Nat.reduceSub, BitVec.reduceExtractLsb', BitVec.reduceToNat] <;> rfl

theorem hclr (d : HReg) : Statement (.hclr d) := by
  rintro hw - _ ⟨⟩
  refine decode_of_fields ?_ hw
  simp (disch := decide) only [decodeFields, decodeHnd, extract_append_hi, extract_append_lo, extract_all, Nat.reduceSub, BitVec.reduceExtractLsb', BitVec.reduceToNat] <;> rfl

theorem vadd (d : VReg) (a : VReg) (b : VReg) (y : Ty) : Statement (.vadd d a b y) := by
  rintro hw - _ ⟨⟩
  refine decode_of_fields ?_ hw
  simp (disch := decide) only [decodeFields, decodeValu, extract_append_hi, extract_append_lo, extract_all, Nat.reduceSub, BitVec.reduceExtractLsb', BitVec.reduceToNat, decodeTy_code, Except.bind] <;> rfl

theorem vsub (d : VReg) (a : VReg) (b : VReg) (y : Ty) : Statement (.vsub d a b y) := by
  rintro hw - _ ⟨⟩
  refine decode_of_fields ?_ hw
  simp (disch := decide) only [decodeFields, decodeValu, extract_append_hi, extract_append_lo, extract_all, Nat.reduceSub, BitVec.reduceExtractLsb', BitVec.reduceToNat, decodeTy_code, Except.bind] <;> rfl

theorem vmul (d : VReg) (a : VReg) (b : VReg) (y : Ty) : Statement (.vmul d a b y) := by
  rintro hw - _ ⟨⟩
  refine decode_of_fields ?_ hw
  simp (disch := decide) only [decodeFields, decodeValu, extract_append_hi, extract_append_lo, extract_all, Nat.reduceSub, BitVec.reduceExtractLsb', BitVec.reduceToNat, decodeTy_code, Except.bind] <;> rfl

theorem vfma (d : VReg) (a : VReg) (b : VReg) (c : VReg) (y : Ty) : Statement (.vfma d a b c y) := by
  rintro hw - _ ⟨⟩
  refine decode_of_fields ?_ hw
  simp (disch := decide) only [decodeFields, decodeValu, extract_append_hi, extract_append_lo, extract_all, Nat.reduceSub, BitVec.reduceExtractLsb', BitVec.reduceToNat, decodeTy_code, Except.bind] <;> rfl

theorem vmin (d : VReg) (a : VReg) (b : VReg) (y : Ty) : Statement (.vmin d a b y) := by
  rintro hw - _ ⟨⟩
  refine decode_of_fields ?_ hw
  simp (disch := decide) only [decodeFields, decodeValu, extract_append_hi, extract_append_lo, extract_all, Nat.reduceSub, BitVec.reduceExtractLsb', BitVec.reduceToNat, decodeTy_code, Except.bind] <;> rfl

theorem vmax (d : VReg) (a : VReg) (b : VReg) (y : Ty) : Statement (.vmax d a b y) := by
  rintro hw - _ ⟨⟩
  refine decode_of_fields ?_ hw
  simp (disch := decide) only [decodeFields, decodeValu, extract_append_hi, extract_append_lo, extract_all, Nat.reduceSub, BitVec.reduceExtractLsb', BitVec.reduceToNat, decodeTy_code, Except.bind] <;> rfl

theorem vabs (d : VReg) (a : VReg) (y : Ty) : Statement (.vabs d a y) := by
  rintro hw - _ ⟨⟩
  refine decode_of_fields ?_ hw
  simp (disch := decide) only [decodeFields, decodeValu, extract_append_hi, extract_append_lo, extract_all, Nat.reduceSub, BitVec.reduceExtractLsb', BitVec.reduceToNat, decodeTy_code, Except.bind] <;> rfl

theorem vneg (d : VReg) (a : VReg) (y : Ty) : Statement (.vneg d a y) := by
  rintro hw - _ ⟨⟩
  refine decode_of_fields ?_ hw
  simp (disch := decide) only [decodeFields, decodeValu, extract_append_hi, extract_append_lo, extract_all, Nat.reduceSub, BitVec.reduceExtractLsb', BitVec.reduceToNat, decodeTy_code, Except.bind] <;> rfl

theorem vand (d : VReg) (a : VReg) (b : VReg) (y : Ty) : Statement (.vand d a b y) := by
  rintro hw - _ ⟨⟩
  refine decode_of_fields ?_ hw
  simp (disch := decide) only [decodeFields, decodeValu, extract_append_hi, extract_append_lo, extract_all, Nat.reduceSub, BitVec.reduceExtractLsb', BitVec.reduceToNat, decodeTy_code, Except.bind] <;> rfl

theorem vor (d : VReg) (a : VReg) (b : VReg) (y : Ty) : Statement (.vor d a b y) := by
  rintro hw - _ ⟨⟩
  refine decode_of_fields ?_ hw
  simp (disch := decide) only [decodeFields, decodeValu, extract_append_hi, extract_append_lo, extract_all, Nat.reduceSub, BitVec.reduceExtractLsb', BitVec.reduceToNat, decodeTy_code, Except.bind] <;> rfl

theorem vxor (d : VReg) (a : VReg) (b : VReg) (y : Ty) : Statement (.vxor d a b y) := by
  rintro hw - _ ⟨⟩
  refine decode_of_fields ?_ hw
  simp (disch := decide) only [decodeFields, decodeValu, extract_append_hi, extract_append_lo, extract_all, Nat.reduceSub, BitVec.reduceExtractLsb', BitVec.reduceToNat, decodeTy_code, Except.bind] <;> rfl

theorem vshl (d : VReg) (a : VReg) (b : VReg) (y : Ty) : Statement (.vshl d a b y) := by
  rintro hw - _ ⟨⟩
  refine decode_of_fields ?_ hw
  simp (disch := decide) only [decodeFields, decodeValu, extract_append_hi, extract_append_lo, extract_all, Nat.reduceSub, BitVec.reduceExtractLsb', BitVec.reduceToNat, decodeTy_code, Except.bind] <;> rfl

theorem vshr (d : VReg) (a : VReg) (b : VReg) (y : Ty) : Statement (.vshr d a b y) := by
  rintro hw - _ ⟨⟩
  refine decode_of_fields ?_ hw
  simp (disch := decide) only [decodeFields, decodeValu, extract_append_hi, extract_append_lo, extract_all, Nat.reduceSub, BitVec.reduceExtractLsb', BitVec.reduceToNat, decodeTy_code, Except.bind] <;> rfl

theorem vcmpeq (d : VReg) (a : VReg) (b : VReg) (y : Ty) : Statement (.vcmpeq d a b y) := by
  rintro hw - _ ⟨⟩
  refine decode_of_fields ?_ hw
  simp (disch := decide) only [decodeFields, decodeValu, extract_append_hi, extract_append_lo, extract_all, Nat.reduceSub, BitVec.reduceExtractLsb', BitVec.reduceToNat, decodeTy_code, Except.bind] <;> rfl

theorem vcmplt (d : VReg) (a : VReg) (b : VReg) (y : Ty) : Statement (.vcmplt d a b y) := by
  rintro hw - _ ⟨⟩
  refine decode_of_fields ?_ hw
  simp (disch := decide) only [decodeFields, decodeValu, extract_append_hi, extract_append_lo, extract_all, Nat.reduceSub, BitVec.reduceExtractLsb', BitVec.reduceToNat, decodeTy_code, Except.bind] <;> rfl

theorem vcmple (d : VReg) (a : VReg) (b : VReg) (y : Ty) : Statement (.vcmple d a b y) := by
  rintro hw - _ ⟨⟩
  refine decode_of_fields ?_ hw
  simp (disch := decide) only [decodeFields, decodeValu, extract_append_hi, extract_append_lo, extract_all, Nat.reduceSub, BitVec.reduceExtractLsb', BitVec.reduceToNat, decodeTy_code, Except.bind] <;> rfl

theorem vsel (d : VReg) (a : VReg) (b : VReg) (c : VReg) (y : Ty) : Statement (.vsel d a b c y) := by
  rintro hw - _ ⟨⟩
  refine decode_of_fields ?_ hw
  simp (disch := decide) only [decodeFields, decodeValu, extract_append_hi, extract_append_lo, extract_all, Nat.reduceSub, BitVec.reduceExtractLsb', BitVec.reduceToNat, decodeTy_code, Except.bind] <;> rfl

theorem vdot (d : VReg) (a : VReg) (b : VReg) (c : VReg) (y : Ty) : Statement (.vdot d a b c y) := by
  rintro hw - _ ⟨⟩
  refine decode_of_fields ?_ hw
  simp (disch := decide) only [decodeFields, decodeValu, extract_append_hi, extract_append_lo, extract_all, Nat.reduceSub, BitVec.reduceExtractLsb', BitVec.reduceToNat, decodeTy_code, Except.bind] <;> rfl

theorem vaddsat (d : VReg) (a : VReg) (b : VReg) (y : Ty) : Statement (.vaddsat d a b y) := by
  rintro hw - _ ⟨⟩
  refine decode_of_fields ?_ hw
  simp (disch := decide) only [decodeFields, decodeValu, extract_append_hi, extract_append_lo, extract_all, Nat.reduceSub, BitVec.reduceExtractLsb', BitVec.reduceToNat, decodeTy_code, Except.bind] <;> rfl

theorem vsubsat (d : VReg) (a : VReg) (b : VReg) (y : Ty) : Statement (.vsubsat d a b y) := by
  rintro hw - _ ⟨⟩
  refine decode_of_fields ?_ hw
  simp (disch := decide) only [decodeFields, decodeValu, extract_append_hi, extract_append_lo, extract_all, Nat.reduceSub, BitVec.reduceExtractLsb', BitVec.reduceToNat, decodeTy_code, Except.bind] <;> rfl

theorem vmulh (d : VReg) (a : VReg) (b : VReg) (y : Ty) : Statement (.vmulh d a b y) := by
  rintro hw - _ ⟨⟩
  refine decode_of_fields ?_ hw
  simp (disch := decide) only [decodeFields, decodeValu, extract_append_hi, extract_append_lo, extract_all, Nat.reduceSub, BitVec.reduceExtractLsb', BitVec.reduceToNat, decodeTy_code, Except.bind] <;> rfl

theorem vcvt (d : VReg) (a : VReg) (s0 : Ty) (c : BitVec 3) (y : Ty) : Statement (.vcvt d a s0 c y) := by
  rintro hw - _ ⟨⟩
  refine decode_of_fields ?_ hw
  simp (disch := decide) only [decodeFields, decodeVcvt, extract_append_hi, extract_append_lo, extract_all, Nat.reduceSub, BitVec.reduceExtractLsb', BitVec.reduceToNat, decodeTy_code, Except.bind] <;> rfl

theorem vrcp (d : VReg) (a : VReg) (y : Ty) : Statement (.vrcp d a y) := by
  rintro hw - _ ⟨⟩
  refine decode_of_fields ?_ hw
  simp (disch := decide) only [decodeFields, decodeVcvt, extract_append_hi, extract_append_lo, extract_all, Nat.reduceSub, BitVec.reduceExtractLsb', BitVec.reduceToNat, decodeTy_code, Except.bind] <;> rfl

theorem vrsqrt (d : VReg) (a : VReg) (y : Ty) : Statement (.vrsqrt d a y) := by
  rintro hw - _ ⟨⟩
  refine decode_of_fields ?_ hw
  simp (disch := decide) only [decodeFields, decodeVcvt, extract_append_hi, extract_append_lo, extract_all, Nat.reduceSub, BitVec.reduceExtractLsb', BitVec.reduceToNat, decodeTy_code, Except.bind] <;> rfl

theorem vsqrt (d : VReg) (a : VReg) (y : Ty) : Statement (.vsqrt d a y) := by
  rintro hw - _ ⟨⟩
  refine decode_of_fields ?_ hw
  simp (disch := decide) only [decodeFields, decodeVcvt, extract_append_hi, extract_append_lo, extract_all, Nat.reduceSub, BitVec.reduceExtractLsb', BitVec.reduceToNat, decodeTy_code, Except.bind] <;> rfl

theorem vdiv (d : VReg) (a : VReg) (b : VReg) (y : Ty) : Statement (.vdiv d a b y) := by
  rintro hw - _ ⟨⟩
  refine decode_of_fields ?_ hw
  simp (disch := decide) only [decodeFields, decodeVcvt, extract_append_hi, extract_append_lo, extract_all, Nat.reduceSub, BitVec.reduceExtractLsb', BitVec.reduceToNat, decodeTy_code, Except.bind] <;> rfl

theorem vexp2 (d : VReg) (a : VReg) (y : Ty) : Statement (.vexp2 d a y) := by
  rintro hw - _ ⟨⟩
  refine decode_of_fields ?_ hw
  simp (disch := decide) only [decodeFields, decodeVcvt, extract_append_hi, extract_append_lo, extract_all, Nat.reduceSub, BitVec.reduceExtractLsb', BitVec.reduceToNat, decodeTy_code, Except.bind] <;> rfl

theorem vlog2 (d : VReg) (a : VReg) (y : Ty) : Statement (.vlog2 d a y) := by
  rintro hw - _ ⟨⟩
  refine decode_of_fields ?_ hw
  simp (disch := decide) only [decodeFields, decodeVcvt, extract_append_hi, extract_append_lo, extract_all, Nat.reduceSub, BitVec.reduceExtractLsb', BitVec.reduceToNat, decodeTy_code, Except.bind] <;> rfl

theorem vtanh (d : VReg) (a : VReg) (y : Ty) : Statement (.vtanh d a y) := by
  rintro hw - _ ⟨⟩
  refine decode_of_fields ?_ hw
  simp (disch := decide) only [decodeFields, decodeVcvt, extract_append_hi, extract_append_lo, extract_all, Nat.reduceSub, BitVec.reduceExtractLsb', BitVec.reduceToNat, decodeTy_code, Except.bind] <;> rfl

theorem vsigm (d : VReg) (a : VReg) (y : Ty) : Statement (.vsigm d a y) := by
  rintro hw - _ ⟨⟩
  refine decode_of_fields ?_ hw
  simp (disch := decide) only [decodeFields, decodeVcvt, extract_append_hi, extract_append_lo, extract_all, Nat.reduceSub, BitVec.reduceExtractLsb', BitVec.reduceToNat, decodeTy_code, Except.bind] <;> rfl

theorem vbcast (d : VReg) (g : SReg) (y : Ty) : Statement (.vbcast d g y) := by
  rintro hw - _ ⟨⟩
  refine decode_of_fields ?_ hw
  simp (disch := decide) only [decodeFields, decodeVperm, extract_append_hi, extract_append_lo, extract_all, Nat.reduceSub, BitVec.reduceExtractLsb', BitVec.reduceToNat, decodeTy_code, Except.bind] <;> rfl

theorem vins (d : VReg) (g : SReg) (l : BitVec 4) (y : Ty) : Statement (.vins d g l y) := by
  rintro hw - _ ⟨⟩
  refine decode_of_fields ?_ hw
  simp (disch := decide) only [decodeFields, decodeVperm, extract_append_hi, extract_append_lo, extract_all, Nat.reduceSub, BitVec.reduceExtractLsb', BitVec.reduceToNat, decodeTy_code, Except.bind] <;> rfl

theorem vext (g : SReg) (a : VReg) (l : BitVec 4) (y : Ty) : Statement (.vext g a l y) := by
  rintro hw - _ ⟨⟩
  refine decode_of_fields ?_ hw
  simp (disch := decide) only [decodeFields, decodeVperm, extract_append_hi, extract_append_lo, extract_all, Nat.reduceSub, BitVec.reduceExtractLsb', BitVec.reduceToNat, decodeTy_code, Except.bind] <;> rfl

theorem vshuf (d : VReg) (a : VReg) (b : VReg) (y : Ty) : Statement (.vshuf d a b y) := by
  rintro hw - _ ⟨⟩
  refine decode_of_fields ?_ hw
  simp (disch := decide) only [decodeFields, decodeVperm, extract_append_hi, extract_append_lo, extract_all, Nat.reduceSub, BitVec.reduceExtractLsb', BitVec.reduceToNat, decodeTy_code, Except.bind] <;> rfl

theorem vzip (d : VReg) (a : VReg) (b : VReg) (h : BitVec 1) (y : Ty) : Statement (.vzip d a b h y) := by
  rintro hw - _ ⟨⟩
  refine decode_of_fields ?_ hw
  simp (disch := decide) only [decodeFields, decodeVperm, extract_append_hi, extract_append_lo, extract_all, Nat.reduceSub, BitVec.reduceExtractLsb', BitVec.reduceToNat, decodeTy_code, Except.bind] <;> rfl

theorem vunzip (d : VReg) (a : VReg) (b : VReg) (o : BitVec 1) (y : Ty) : Statement (.vunzip d a b o y) := by
  rintro hw - _ ⟨⟩
  refine decode_of_fields ?_ hw
  simp (disch := decide) only [decodeFields, decodeVperm, extract_append_hi, extract_append_lo, extract_all, Nat.reduceSub, BitVec.reduceExtractLsb', BitVec.reduceToNat, decodeTy_code, Except.bind] <;> rfl

theorem vredsum (d : VReg) (a : VReg) (y : Ty) : Statement (.vredsum d a y) := by
  rintro hw - _ ⟨⟩
  refine decode_of_fields ?_ hw
  simp (disch := decide) only [decodeFields, decodeVperm, extract_append_hi, extract_append_lo, extract_all, Nat.reduceSub, BitVec.reduceExtractLsb', BitVec.reduceToNat, decodeTy_code, Except.bind] <;> rfl

theorem vredmax (d : VReg) (a : VReg) (y : Ty) : Statement (.vredmax d a y) := by
  rintro hw - _ ⟨⟩
  refine decode_of_fields ?_ hw
  simp (disch := decide) only [decodeFields, decodeVperm, extract_append_hi, extract_append_lo, extract_all, Nat.reduceSub, BitVec.reduceExtractLsb', BitVec.reduceToNat, decodeTy_code, Except.bind] <;> rfl

theorem vredmin (d : VReg) (a : VReg) (y : Ty) : Statement (.vredmin d a y) := by
  rintro hw - _ ⟨⟩
  refine decode_of_fields ?_ hw
  simp (disch := decide) only [decodeFields, decodeVperm, extract_append_hi, extract_append_lo, extract_all, Nat.reduceSub, BitVec.reduceExtractLsb', BitVec.reduceToNat, decodeTy_code, Except.bind] <;> rfl

theorem vsort (d : VReg) (a : VReg) (m : BitVec 2) (y : Ty) : Statement (.vsort d a m y) := by
  rintro hw - _ ⟨⟩
  refine decode_of_fields ?_ hw
  simp (disch := decide) only [decodeFields, decodeVperm, extract_append_hi, extract_append_lo, extract_all, Nat.reduceSub, BitVec.reduceExtractLsb', BitVec.reduceToNat, decodeTy_code, Except.bind] <;> rfl

theorem vmerge (d : VReg) (a : VReg) (b : VReg) (h : BitVec 1) (y : Ty) : Statement (.vmerge d a b h y) := by
  rintro hw - _ ⟨⟩
  refine decode_of_fields ?_ hw
  simp (disch := decide) only [decodeFields, decodeVperm, extract_append_hi, extract_append_lo, extract_all, Nat.reduceSub, BitVec.reduceExtractLsb', BitVec.reduceToNat, decodeTy_code, Except.bind] <;> rfl

theorem vsrch (d : VReg) (a : VReg) (b : VReg) (m : BitVec 1) (y : Ty) : Statement (.vsrch d a b m y) := by
  rintro hw - _ ⟨⟩
  refine decode_of_fields ?_ hw
  simp (disch := decide) only [decodeFields, decodeVperm, extract_append_hi, extract_append_lo, extract_all, Nat.reduceSub, BitVec.reduceExtractLsb', BitVec.reduceToNat, decodeTy_code, Except.bind] <;> rfl

theorem vcompress (d : VReg) (a : VReg) (b : VReg) (y : Ty) : Statement (.vcompress d a b y) := by
  rintro hw - _ ⟨⟩
  refine decode_of_fields ?_ hw
  simp (disch := decide) only [decodeFields, decodeVperm, extract_append_hi, extract_append_lo, extract_all, Nat.reduceSub, BitVec.reduceExtractLsb', BitVec.reduceToNat, decodeTy_code, Except.bind] <;> rfl

theorem vexpand (d : VReg) (a : VReg) (b : VReg) (y : Ty) : Statement (.vexpand d a b y) := by
  rintro hw - _ ⟨⟩
  refine decode_of_fields ?_ hw
  simp (disch := decide) only [decodeFields, decodeVperm, extract_append_hi, extract_append_lo, extract_all, Nat.reduceSub, BitVec.reduceExtractLsb', BitVec.reduceToNat, decodeTy_code, Except.bind] <;> rfl

theorem vpopc (d : VReg) (a : VReg) (y : Ty) : Statement (.vpopc d a y) := by
  rintro hw - _ ⟨⟩
  refine decode_of_fields ?_ hw
  simp (disch := decide) only [decodeFields, decodeVperm, extract_append_hi, extract_append_lo, extract_all, Nat.reduceSub, BitVec.reduceExtractLsb', BitVec.reduceToNat, decodeTy_code, Except.bind] <;> rfl

theorem vfirst (d : VReg) (a : VReg) (y : Ty) : Statement (.vfirst d a y) := by
  rintro hw - _ ⟨⟩
  refine decode_of_fields ?_ hw
  simp (disch := decide) only [decodeFields, decodeVperm, extract_append_hi, extract_append_lo, extract_all, Nat.reduceSub, BitVec.reduceExtractLsb', BitVec.reduceToNat, decodeTy_code, Except.bind] <;> rfl

theorem ksend (a : VReg) (b : VReg) (y : Ty) : Statement (.ksend a b y) := by
  rintro hw - _ ⟨⟩
  refine decode_of_fields ?_ hw
  simp (disch := decide) only [decodeFields, decodeVperm, extract_append_hi, extract_append_lo, extract_all, Nat.reduceSub, BitVec.reduceExtractLsb', BitVec.reduceToNat, decodeTy_code, Except.bind] <;> rfl

theorem vbegin (a : GReg) (b : GReg) (l : BitVec 4) : Statement (.vbegin a b l) := by
  rintro hw - _ ⟨⟩
  refine decode_of_fields ?_ hw
  simp (disch := decide) only [decodeFields, decodeVseq, extract_append_hi, extract_append_lo, extract_all, Nat.reduceSub, BitVec.reduceExtractLsb', BitVec.reduceToNat] <;> rfl

theorem vstat (d : GReg) : Statement (.vstat d) := by
  rintro hw - _ ⟨⟩
  refine decode_of_fields ?_ hw
  simp (disch := decide) only [decodeFields, decodeVseq, extract_append_hi, extract_append_lo, extract_all, Nat.reduceSub, BitVec.reduceExtractLsb', BitVec.reduceToNat] <;> rfl

theorem qbind (d : GReg) (a : GReg) (b : GReg) : Statement (.qbind d a b) := by
  rintro hw - _ ⟨⟩
  refine decode_of_fields ?_ hw
  simp (disch := decide) only [decodeFields, decodeQue, extract_append_hi, extract_append_lo, extract_all, Nat.reduceSub, BitVec.reduceExtractLsb', BitVec.reduceToNat] <;> rfl

theorem qunbind (d : GReg) (a : GReg) : Statement (.qunbind d a) := by
  rintro hw - _ ⟨⟩
  refine decode_of_fields ?_ hw
  simp (disch := decide) only [decodeFields, decodeQue, extract_append_hi, extract_append_lo, extract_all, Nat.reduceSub, BitVec.reduceExtractLsb', BitVec.reduceToNat] <;> rfl

theorem qstat (d : GReg) (a : GReg) : Statement (.qstat d a) := by
  rintro hw - _ ⟨⟩
  refine decode_of_fields ?_ hw
  simp (disch := decide) only [decodeFields, decodeQue, extract_append_hi, extract_append_lo, extract_all, Nat.reduceSub, BitVec.reduceExtractLsb', BitVec.reduceToNat] <;> rfl

theorem qpeek (d : GReg) (a : GReg) : Statement (.qpeek d a) := by
  rintro hw - _ ⟨⟩
  refine decode_of_fields ?_ hw
  simp (disch := decide) only [decodeFields, decodeQue, extract_append_hi, extract_append_lo, extract_all, Nat.reduceSub, BitVec.reduceExtractLsb', BitVec.reduceToNat] <;> rfl

theorem wait (l : BitVec 4) (s0 : BitVec 4) (c : BitVec 4) (m : BitVec 4) (x : BitVec 4) (n : BitVec 4) : Statement (.wait l s0 c m x n) := by
  rintro hw - _ ⟨⟩
  refine decode_of_fields ?_ hw
  simp (disch := decide) only [decodeFields, extract_append_hi, extract_append_lo, extract_all, Nat.reduceSub, BitVec.reduceExtractLsb', BitVec.reduceToNat] <;> rfl

theorem xfence (b : BitVec 6) (a : BitVec 6) (s0 : BitVec 3) : Statement (.xfence b a s0) := by
  rintro hw - _ ⟨⟩
  refine decode_of_fields ?_ hw
  simp (disch := decide) only [decodeFields, extract_append_hi, extract_append_lo, extract_all, Nat.reduceSub, BitVec.reduceExtractLsb', BitVec.reduceToNat] <;> rfl

theorem spawn (d : GReg) (a : GReg) (b : GReg) : Statement (.spawn d a b) := by
  rintro hw - _ ⟨⟩
  refine decode_of_fields ?_ hw
  simp (disch := decide) only [decodeFields, decodeTask, extract_append_hi, extract_append_lo, extract_all, Nat.reduceSub, BitVec.reduceExtractLsb', BitVec.reduceToNat] <;> rfl

theorem spawnd (d : GReg) (a : GReg) (b : GReg) : Statement (.spawnd d a b) := by
  rintro hw - _ ⟨⟩
  refine decode_of_fields ?_ hw
  simp (disch := decide) only [decodeFields, decodeTask, extract_append_hi, extract_append_lo, extract_all, Nat.reduceSub, BitVec.reduceExtractLsb', BitVec.reduceToNat] <;> rfl

theorem yield (d : GReg) : Statement (.yield d) := by
  rintro hw - _ ⟨⟩
  refine decode_of_fields ?_ hw
  simp (disch := decide) only [decodeFields, decodeTask, extract_append_hi, extract_append_lo, extract_all, Nat.reduceSub, BitVec.reduceExtractLsb', BitVec.reduceToNat] <;> rfl

theorem migrate (d : GReg) (a : GReg) (b : GReg) : Statement (.migrate d a b) := by
  rintro hw - _ ⟨⟩
  refine decode_of_fields ?_ hw
  simp (disch := decide) only [decodeFields, decodeTask, extract_append_hi, extract_append_lo, extract_all, Nat.reduceSub, BitVec.reduceExtractLsb', BitVec.reduceToNat] <;> rfl

theorem tqpush (d : GReg) (a : GReg) : Statement (.tqpush d a) := by
  rintro hw - _ ⟨⟩
  refine decode_of_fields ?_ hw
  simp (disch := decide) only [decodeFields, decodeTask, extract_append_hi, extract_append_lo, extract_all, Nat.reduceSub, BitVec.reduceExtractLsb', BitVec.reduceToNat] <;> rfl

theorem tqpop (d : GReg) (a : GReg) : Statement (.tqpop d a) := by
  rintro hw - _ ⟨⟩
  refine decode_of_fields ?_ hw
  simp (disch := decide) only [decodeFields, decodeTask, extract_append_hi, extract_append_lo, extract_all, Nat.reduceSub, BitVec.reduceExtractLsb', BitVec.reduceToNat] <;> rfl

theorem tmr (d : GReg) (a : GReg) : Statement (.tmr d a) := by
  rintro hw - _ ⟨⟩
  refine decode_of_fields ?_ hw
  simp (disch := decide) only [decodeFields, decodeTask, extract_append_hi, extract_append_lo, extract_all, Nat.reduceSub, BitVec.reduceExtractLsb', BitVec.reduceToNat] <;> rfl

theorem prio (d : GReg) (a : GReg) : Statement (.prio d a) := by
  rintro hw - _ ⟨⟩
  refine decode_of_fields ?_ hw
  simp (disch := decide) only [decodeFields, decodeTask, extract_append_hi, extract_append_lo, extract_all, Nat.reduceSub, BitVec.reduceExtractLsb', BitVec.reduceToNat] <;> rfl

theorem bset (d : GReg) (a : GReg) (b : GReg) (i0 : BitVec 2) : Statement (.bset d a b i0) := by
  rintro hw - _ ⟨⟩
  refine decode_of_fields ?_ hw
  simp (disch := decide) only [decodeFields, decodeBar, extract_append_hi, extract_append_lo, extract_all, Nat.reduceSub, BitVec.reduceExtractLsb', BitVec.reduceToNat] <;> rfl

theorem barv (d : GReg) (i0 : BitVec 2) : Statement (.barv d i0) := by
  rintro hw - _ ⟨⟩
  refine decode_of_fields ?_ hw
  simp (disch := decide) only [decodeFields, decodeBar, extract_append_hi, extract_append_lo, extract_all, Nat.reduceSub, BitVec.reduceExtractLsb', BitVec.reduceToNat] <;> rfl

theorem bwait (d : GReg) (a : GReg) (i0 : BitVec 2) : Statement (.bwait d a i0) := by
  rintro hw - _ ⟨⟩
  refine decode_of_fields ?_ hw
  simp (disch := decide) only [decodeFields, decodeBar, extract_append_hi, extract_append_lo, extract_all, Nat.reduceSub, BitVec.reduceExtractLsb', BitVec.reduceToNat] <;> rfl

theorem barw (d : GReg) (i0 : BitVec 2) : Statement (.barw d i0) := by
  rintro hw - _ ⟨⟩
  refine decode_of_fields ?_ hw
  simp (disch := decide) only [decodeFields, decodeBar, extract_append_hi, extract_append_lo, extract_all, Nat.reduceSub, BitVec.reduceExtractLsb', BitVec.reduceToNat] <;> rfl

theorem bto (d : GReg) (a : GReg) (i0 : BitVec 2) : Statement (.bto d a i0) := by
  rintro hw - _ ⟨⟩
  refine decode_of_fields ?_ hw
  simp (disch := decide) only [decodeFields, decodeBar, extract_append_hi, extract_append_lo, extract_all, Nat.reduceSub, BitVec.reduceExtractLsb', BitVec.reduceToNat] <;> rfl

theorem susp (t : GReg) (h : HReg) (x : GReg) : Statement (.susp t h x) := by
  rintro hw - _ ⟨⟩
  refine decode_of_fields ?_ hw
  simp (disch := decide) only [decodeFields, decodeSkn, extract_append_hi, extract_append_lo, extract_all, Nat.reduceSub, BitVec.reduceExtractLsb', BitVec.reduceToNat] <;> rfl

theorem resume (t : BitVec 4) (h : HReg) (x : GReg) : Statement (.resume t h x) := by
  rintro hw - _ ⟨⟩
  refine decode_of_fields ?_ hw
  simp (disch := decide) only [decodeFields, decodeSkn, extract_append_hi, extract_append_lo, extract_all, Nat.reduceSub, BitVec.reduceExtractLsb', BitVec.reduceToNat] <;> rfl

theorem sdrop (t : GReg) (h : HReg) (x : GReg) : Statement (.sdrop t h x) := by
  rintro hw - _ ⟨⟩
  refine decode_of_fields ?_ hw
  simp (disch := decide) only [decodeFields, decodeSkn, extract_append_hi, extract_append_lo, extract_all, Nat.reduceSub, BitVec.reduceExtractLsb', BitVec.reduceToNat] <;> rfl

theorem sclone (t : BitVec 4) (h : HReg) (x : GReg) : Statement (.sclone t h x) := by
  rintro hw - _ ⟨⟩
  refine decode_of_fields ?_ hw
  simp (disch := decide) only [decodeFields, decodeSkn, extract_append_hi, extract_append_lo, extract_all, Nat.reduceSub, BitVec.reduceExtractLsb', BitVec.reduceToNat] <;> rfl

theorem sver (t : BitVec 4) (h : HReg) (x : GReg) : Statement (.sver t h x) := by
  rintro hw - _ ⟨⟩
  refine decode_of_fields ?_ hw
  simp (disch := decide) only [decodeFields, decodeSkn, extract_append_hi, extract_append_lo, extract_all, Nat.reduceSub, BitVec.reduceExtractLsb', BitVec.reduceToNat] <;> rfl

theorem launch (t : GReg) (h : HReg) (x : GReg) : Statement (.launch t h x) := by
  rintro hw - _ ⟨⟩
  refine decode_of_fields ?_ hw
  simp (disch := decide) only [decodeFields, decodeLnch, extract_append_hi, extract_append_lo, extract_all, Nat.reduceSub, BitVec.reduceExtractLsb', BitVec.reduceToNat] <;> rfl

theorem chplay (t : GReg) (h : HReg) (x : GReg) : Statement (.chplay t h x) := by
  rintro hw - _ ⟨⟩
  refine decode_of_fields ?_ hw
  simp (disch := decide) only [decodeFields, decodeLnch, extract_append_hi, extract_append_lo, extract_all, Nat.reduceSub, BitVec.reduceExtractLsb', BitVec.reduceToNat] <;> rfl

theorem ewr (e : Eng) (a : GReg) (r : EngReg) : Statement (.ewr e a r) := by
  rintro hw - _ ⟨⟩
  refine decode_of_fields ?_ hw
  refine (show decodeFields (0x2b#6 ++ e.code ++ 0x0#6 ++ a ++ r ++ 0x0#1) = decodeEwr e (0x2b#6 ++ e.code ++ 0x0#6 ++ a ++ r ++ 0x0#1) from ?_).trans ((decodeEwr_plain e _ ?_).trans ?_)
  · refine decode_ewr ?_ ?_ ?_ ?_ <;> simp (disch := decide) only [extract_append_hi, extract_append_lo, extract_all, Nat.reduceSub, BitVec.reduceExtractLsb', BitVec.reduceToNat] <;> rfl
  · simp only [Instr.wf, Bool.and_eq_true, Bool.not_eq_true'] at hw
    rw [extract_append_hi _ _ _ _ (by decide), extract_append_lo _ _ _ _ (by decide), extract_all]
    exact hw.2
  · simp (disch := decide) only [extract_append_hi, extract_append_lo, extract_all, Nat.reduceSub, BitVec.reduceExtractLsb', BitVec.reduceToNat]

theorem erd (e : Eng) (r : EngReg) (d : GReg) : Statement (.erd e r d) := by
  rintro hw - _ ⟨⟩
  refine decode_of_fields ?_ hw
  cases e <;> simp (disch := decide) only [decodeFields, decodeEng, decodeEngCp, decodeEngMx, decodeEngWk, decodeEngDx, decodeEngPl, decodeEngCl, Eng.code, extract_append_hi, extract_append_lo, extract_all, Nat.reduceSub, BitVec.reduceExtractLsb', BitVec.reduceToNat] <;> rfl

theorem ewrCpDest (r : EngReg) (a : GReg) : Statement (.ewrCpDest r a) := by
  rintro hw - _ ⟨⟩
  refine decode_of_fields ?_ hw
  refine (show decodeFields (0x2b#6 ++ Eng.code .cp ++ 0x0#6 ++ a ++ r ++ 0x0#1) = decodeEwr .cp (0x2b#6 ++ Eng.code .cp ++ 0x0#6 ++ a ++ r ++ 0x0#1) from ?_).trans ((decodeEwr_cpDest _ ?_).trans ?_)
  · refine decode_ewr ?_ ?_ ?_ ?_ <;> simp (disch := decide) only [extract_append_hi, extract_append_lo, extract_all, Nat.reduceSub, BitVec.reduceExtractLsb', BitVec.reduceToNat] <;> rfl
  · rw [extract_append_hi _ _ _ _ (by decide), extract_append_lo _ _ _ _ (by decide), extract_all]
    simp only [Instr.wf, Bool.or_eq_true, beq_iff_eq] at hw
    exact hw.imp (fun h => BitVec.eq_of_toNat_eq h) fun h => BitVec.eq_of_toNat_eq h
  · simp (disch := decide) only [extract_append_hi, extract_append_lo, extract_all, Nat.reduceSub, BitVec.reduceExtractLsb', BitVec.reduceToNat]

theorem ewrCpBfmt (r : EngReg) (a : GReg) : Statement (.ewrCpBfmt r a) := by
  rintro hw - _ ⟨⟩
  refine decode_of_fields ?_ hw
  refine (show decodeFields (0x2b#6 ++ Eng.code .cp ++ 0x0#6 ++ a ++ r ++ 0x0#1) = decodeEwr .cp (0x2b#6 ++ Eng.code .cp ++ 0x0#6 ++ a ++ r ++ 0x0#1) from ?_).trans ((decodeEwr_cpBfmt _ ?_).trans ?_)
  · refine decode_ewr ?_ ?_ ?_ ?_ <;> simp (disch := decide) only [extract_append_hi, extract_append_lo, extract_all, Nat.reduceSub, BitVec.reduceExtractLsb', BitVec.reduceToNat] <;> rfl
  · rw [extract_append_hi _ _ _ _ (by decide), extract_append_lo _ _ _ _ (by decide), extract_all]
    simpa only [Instr.wf, Bool.and_eq_true, decide_eq_true_eq] using hw
  · simp (disch := decide) only [extract_append_hi, extract_append_lo, extract_all, Nat.reduceSub, BitVec.reduceExtractLsb', BitVec.reduceToNat]

theorem ewrMxScsel (a : GReg) : Statement (.ewrMxScsel a) := by
  rintro hw - _ ⟨⟩
  refine decode_of_fields ?_ hw
  simp (disch := decide) only [decodeFields, decodeEng, decodeEngCp, decodeEngMx, decodeEngWk, decodeEngDx, decodeEngPl, decodeEngCl, Eng.code, decodeEwr, extract_append_hi, extract_append_lo, extract_all, Nat.reduceSub, BitVec.reduceExtractLsb', BitVec.reduceToNat] <;> rfl

theorem ewrMxScval (a : GReg) : Statement (.ewrMxScval a) := by
  rintro hw - _ ⟨⟩
  refine decode_of_fields ?_ hw
  simp (disch := decide) only [decodeFields, decodeEng, decodeEngCp, decodeEngMx, decodeEngWk, decodeEngDx, decodeEngPl, decodeEngCl, Eng.code, decodeEwr, extract_append_hi, extract_append_lo, extract_all, Nat.reduceSub, BitVec.reduceExtractLsb', BitVec.reduceToNat] <;> rfl

theorem ewrDxOhi (a : GReg) : Statement (.ewrDxOhi a) := by
  rintro hw - _ ⟨⟩
  refine decode_of_fields ?_ hw
  simp (disch := decide) only [decodeFields, decodeEng, decodeEngCp, decodeEngMx, decodeEngWk, decodeEngDx, decodeEngPl, decodeEngCl, Eng.code, decodeEwr, extract_append_hi, extract_append_lo, extract_all, Nat.reduceSub, BitVec.reduceExtractLsb', BitVec.reduceToNat] <;> rfl

theorem ewrDxXrel (a : GReg) : Statement (.ewrDxXrel a) := by
  rintro hw - _ ⟨⟩
  refine decode_of_fields ?_ hw
  simp (disch := decide) only [decodeFields, decodeEng, decodeEngCp, decodeEngMx, decodeEngWk, decodeEngDx, decodeEngPl, decodeEngCl, Eng.code, decodeEwr, extract_append_hi, extract_append_lo, extract_all, Nat.reduceSub, BitVec.reduceExtractLsb', BitVec.reduceToNat] <;> rfl

theorem ewrPlRegion (r : EngReg) (a : GReg) : Statement (.ewrPlRegion r a) := by
  rintro hw - _ ⟨⟩
  refine decode_of_fields ?_ hw
  refine (show decodeFields (0x2b#6 ++ Eng.code .pl ++ 0x0#6 ++ a ++ r ++ 0x0#1) = decodeEwr .pl (0x2b#6 ++ Eng.code .pl ++ 0x0#6 ++ a ++ r ++ 0x0#1) from ?_).trans ((decodeEwr_plRegion _ ?_).trans ?_)
  · refine decode_ewr ?_ ?_ ?_ ?_ <;> simp (disch := decide) only [extract_append_hi, extract_append_lo, extract_all, Nat.reduceSub, BitVec.reduceExtractLsb', BitVec.reduceToNat] <;> rfl
  · rw [extract_append_hi _ _ _ _ (by decide), extract_append_lo _ _ _ _ (by decide), extract_all]
    simpa only [Instr.wf, Bool.and_eq_true, decide_eq_true_eq] using hw
  · simp (disch := decide) only [extract_append_hi, extract_append_lo, extract_all, Nat.reduceSub, BitVec.reduceExtractLsb', BitVec.reduceToNat]

theorem cpgo (w : BitVec 1) : Statement (.cpgo w) := by
  rintro hw - _ ⟨⟩
  refine decode_of_fields ?_ hw
  simp (disch := decide) only [decodeFields, decodeEng, decodeEngCp, extract_append_hi, extract_append_lo, extract_all, Nat.reduceSub, BitVec.reduceExtractLsb', BitVec.reduceToNat] <;> rfl

theorem cphint (w : BitVec 1) : Statement (.cphint w) := by
  rintro hw - _ ⟨⟩
  refine decode_of_fields ?_ hw
  simp (disch := decide) only [decodeFields, decodeEng, decodeEngCp, extract_append_hi, extract_append_lo, extract_all, Nat.reduceSub, BitVec.reduceExtractLsb', BitVec.reduceToNat] <;> rfl

theorem cpcancel (d : GReg) (w : BitVec 1) : Statement (.cpcancel d w) := by
  rintro hw - _ ⟨⟩
  refine decode_of_fields ?_ hw
  simp (disch := decide) only [decodeFields, decodeEng, decodeEngCp, extract_append_hi, extract_append_lo, extract_all, Nat.reduceSub, BitVec.reduceExtractLsb', BitVec.reduceToNat] <;> rfl

theorem cpstat (d : GReg) (w : BitVec 1) : Statement (.cpstat d w) := by
  rintro hw - _ ⟨⟩
  refine decode_of_fields ?_ hw
  simp (disch := decide) only [decodeFields, decodeEng, decodeEngCp, extract_append_hi, extract_append_lo, extract_all, Nat.reduceSub, BitVec.reduceExtractLsb', BitVec.reduceToNat] <;> rfl

theorem oclaim (a : GReg) (d : GReg) : Statement (.oclaim a d) := by
  rintro hw - _ ⟨⟩
  refine decode_of_fields ?_ hw
  simp (disch := decide) only [decodeFields, decodeEng, decodeEngMx, extract_append_hi, extract_append_lo, extract_all, Nat.reduceSub, BitVec.reduceExtractLsb', BitVec.reduceToNat] <;> rfl

theorem orel (a : GReg) (d : GReg) : Statement (.orel a d) := by
  rintro hw - _ ⟨⟩
  refine decode_of_fields ?_ hw
  simp (disch := decide) only [decodeFields, decodeEng, decodeEngMx, extract_append_hi, extract_append_lo, extract_all, Nat.reduceSub, BitVec.reduceExtractLsb', BitVec.reduceToNat] <;> rfl

theorem mm (a : GReg) (b : GReg) (n : BitVec 1) (w : BitVec 1) : Statement (.mm a b n w) := by
  rintro hw - _ ⟨⟩
  refine decode_of_fields ?_ hw
  simp (disch := decide) only [decodeFields, decodeEng, decodeEngMx, extract_append_hi, extract_append_lo, extract_all, Nat.reduceSub, BitVec.reduceExtractLsb', BitVec.reduceToNat] <;> rfl

theorem mmg (a : GReg) (b : GReg) (n : BitVec 1) (w : BitVec 1) : Statement (.mmg a b n w) := by
  rintro hw - _ ⟨⟩
  refine decode_of_fields ?_ hw
  simp (disch := decide) only [decodeFields, decodeEng, decodeEngMx, extract_append_hi, extract_append_lo, extract_all, Nat.reduceSub, BitVec.reduceExtractLsb', BitVec.reduceToNat] <;> rfl

theorem mdrain (b : GReg) (n : BitVec 1) (w : BitVec 1) : Statement (.mdrain b n w) := by
  rintro hw - _ ⟨⟩
  refine decode_of_fields ?_ hw
  simp (disch := decide) only [decodeFields, decodeEng, decodeEngMx, extract_append_hi, extract_append_lo, extract_all, Nat.reduceSub, BitVec.reduceExtractLsb', BitVec.reduceToNat] <;> rfl

theorem mclr (n : BitVec 1) (w : BitVec 1) : Statement (.mclr n w) := by
  rintro hw - _ ⟨⟩
  refine decode_of_fields ?_ hw
  simp (disch := decide) only [decodeFields, decodeEng, decodeEngMx, extract_append_hi, extract_append_lo, extract_all, Nat.reduceSub, BitVec.reduceExtractLsb', BitVec.reduceToNat] <;> rfl

theorem mchk (b : GReg) (w : BitVec 1) : Statement (.mchk b w) := by
  rintro hw - _ ⟨⟩
  refine decode_of_fields ?_ hw
  simp (disch := decide) only [decodeFields, decodeEng, decodeEngMx, extract_append_hi, extract_append_lo, extract_all, Nat.reduceSub, BitVec.reduceExtractLsb', BitVec.reduceToNat] <;> rfl

theorem walk (w : BitVec 1) : Statement (.walk w) := by
  rintro hw - _ ⟨⟩
  refine decode_of_fields ?_ hw
  simp (disch := decide) only [decodeFields, decodeEng, decodeEngWk, extract_append_hi, extract_append_lo, extract_all, Nat.reduceSub, BitVec.reduceExtractLsb', BitVec.reduceToNat] <;> rfl

theorem wstat (a : GReg) (d : GReg) (w : BitVec 1) : Statement (.wstat a d w) := by
  rintro hw - _ ⟨⟩
  refine decode_of_fields ?_ hw
  simp (disch := decide) only [decodeFields, decodeEng, decodeEngWk, extract_append_hi, extract_append_lo, extract_all, Nat.reduceSub, BitVec.reduceExtractLsb', BitVec.reduceToNat] <;> rfl

theorem dsend (w : BitVec 1) : Statement (.dsend w) := by
  rintro hw - _ ⟨⟩
  refine decode_of_fields ?_ hw
  simp (disch := decide) only [decodeFields, decodeEng, decodeEngDx, extract_append_hi, extract_append_lo, extract_all, Nat.reduceSub, BitVec.reduceExtractLsb', BitVec.reduceToNat] <;> rfl

theorem dflush (d : GReg) (w : BitVec 1) : Statement (.dflush d w) := by
  rintro hw - _ ⟨⟩
  refine decode_of_fields ?_ hw
  simp (disch := decide) only [decodeFields, decodeEng, decodeEngDx, extract_append_hi, extract_append_lo, extract_all, Nat.reduceSub, BitVec.reduceExtractLsb', BitVec.reduceToNat] <;> rfl

theorem dstat (d : GReg) (w : BitVec 1) : Statement (.dstat d w) := by
  rintro hw - _ ⟨⟩
  refine decode_of_fields ?_ hw
  simp (disch := decide) only [decodeFields, decodeEng, decodeEngDx, extract_append_hi, extract_append_lo, extract_all, Nat.reduceSub, BitVec.reduceExtractLsb', BitVec.reduceToNat] <;> rfl

theorem plrd (a : GReg) (d : GReg) : Statement (.plrd a d) := by
  rintro hw - _ ⟨⟩
  refine decode_of_fields ?_ hw
  simp (disch := decide) only [decodeFields, decodeEng, decodeEngPl, extract_append_hi, extract_append_lo, extract_all, Nat.reduceSub, BitVec.reduceExtractLsb', BitVec.reduceToNat] <;> rfl

theorem plswitch (d : GReg) : Statement (.plswitch d) := by
  rintro hw - _ ⟨⟩
  refine decode_of_fields ?_ hw
  simp (disch := decide) only [decodeFields, decodeEng, decodeEngPl, extract_append_hi, extract_append_lo, extract_all, Nat.reduceSub, BitVec.reduceExtractLsb', BitVec.reduceToNat] <;> rfl

theorem plmerge (w : BitVec 1) : Statement (.plmerge w) := by
  rintro hw - _ ⟨⟩
  refine decode_of_fields ?_ hw
  simp (disch := decide) only [decodeFields, decodeEng, decodeEngPl, extract_append_hi, extract_append_lo, extract_all, Nat.reduceSub, BitVec.reduceExtractLsb', BitVec.reduceToNat] <;> rfl

theorem plstat (d : GReg) : Statement (.plstat d) := by
  rintro hw - _ ⟨⟩
  refine decode_of_fields ?_ hw
  simp (disch := decide) only [decodeFields, decodeEng, decodeEngPl, extract_append_hi, extract_append_lo, extract_all, Nat.reduceSub, BitVec.reduceExtractLsb', BitVec.reduceToNat] <;> rfl

theorem clred (w : BitVec 1) : Statement (.clred w) := by
  rintro hw - _ ⟨⟩
  refine decode_of_fields ?_ hw
  simp (disch := decide) only [decodeFields, decodeEng, decodeEngCl, extract_append_hi, extract_append_lo, extract_all, Nat.reduceSub, BitVec.reduceExtractLsb', BitVec.reduceToNat] <;> rfl

theorem clstat (a : GReg) (d : GReg) (w : BitVec 1) : Statement (.clstat a d w) := by
  rintro hw - _ ⟨⟩
  refine decode_of_fields ?_ hw
  simp (disch := decide) only [decodeFields, decodeEng, decodeEngCl, extract_append_hi, extract_append_lo, extract_all, Nat.reduceSub, BitVec.reduceExtractLsb', BitVec.reduceToNat] <;> rfl

theorem sysrd (d : GReg) (s0 : SysNum) : Statement (.sysrd d s0) := by
  rintro hw - _ ⟨⟩
  refine decode_of_fields ?_ hw
  simp (disch := decide) only [decodeFields, decodeSys, extract_append_hi, extract_append_lo, extract_all, Nat.reduceSub, BitVec.reduceExtractLsb', BitVec.reduceToNat] <;> rfl

theorem syswr (a : GReg) (s0 : SysNum) : Statement (.syswr a s0) := by
  rintro hw - _ ⟨⟩
  refine decode_of_fields ?_ hw
  refine (show decodeFields (0x30#6 ++ 0x0#5 ++ a ++ 0x1#4 ++ s0) = decodeSyswr (0x30#6 ++ 0x0#5 ++ a ++ 0x1#4 ++ s0) from ?_).trans ((decodeSyswr_plain _ ?_).trans ?_)
  · simp (disch := decide) only [decodeFields, decodeSys, extract_append_hi, extract_append_lo, extract_all, Nat.reduceSub, BitVec.reduceExtractLsb', BitVec.reduceToNat] <;> rfl
  · simp only [Instr.wf, Bool.and_eq_true, Bool.not_eq_true'] at hw
    rw [extract_append_lo _ _ _ _ (by decide), extract_all]
    exact hw.2
  · simp (disch := decide) only [extract_append_hi, extract_append_lo, extract_all, Nat.reduceSub, BitVec.reduceExtractLsb', BitVec.reduceToNat]

theorem syswrTmr (a : GReg) : Statement (.syswrTmr a) := by
  rintro hw - _ ⟨⟩
  refine decode_of_fields ?_ hw
  simp (disch := decide) only [decodeFields, decodeSys, decodeSyswr, extract_append_hi, extract_append_lo, extract_all, Nat.reduceSub, BitVec.reduceExtractLsb', BitVec.reduceToNat] <;> rfl

theorem syswrFrm (a : GReg) : Statement (.syswrFrm a) := by
  rintro hw - _ ⟨⟩
  refine decode_of_fields ?_ hw
  simp (disch := decide) only [decodeFields, decodeSys, decodeSyswr, extract_append_hi, extract_append_lo, extract_all, Nat.reduceSub, BitVec.reduceExtractLsb', BitVec.reduceToNat] <;> rfl

theorem syswrPrio (a : GReg) : Statement (.syswrPrio a) := by
  rintro hw - _ ⟨⟩
  refine decode_of_fields ?_ hw
  simp (disch := decide) only [decodeFields, decodeSys, decodeSyswr, extract_append_hi, extract_append_lo, extract_all, Nat.reduceSub, BitVec.reduceExtractLsb', BitVec.reduceToNat] <;> rfl

theorem syswrQbind (a : GReg) : Statement (.syswrQbind a) := by
  rintro hw - _ ⟨⟩
  refine decode_of_fields ?_ hw
  simp (disch := decide) only [decodeFields, decodeSys, decodeSyswr, extract_append_hi, extract_append_lo, extract_all, Nat.reduceSub, BitVec.reduceExtractLsb', BitVec.reduceToNat] <;> rfl

theorem syswrKhashKbins (a : GReg) (n : SysNum) : Statement (.syswrKhashKbins a n) := by
  rintro hw - _ ⟨⟩
  refine decode_of_fields ?_ hw
  simp only [Instr.wf, Bool.or_eq_true, beq_iff_eq] at hw
  have hn : n = 0x09 ∨ n = 0x0A := by
    rcases hw with h | h
    · exact .inl (BitVec.eq_of_toNat_eq h)
    · exact .inr ((BitVec.eq_of_toNat_eq h))
  rcases hn with rfl | rfl <;> simp (disch := decide) only [decodeFields, decodeSys, decodeSyswr, extract_append_hi, extract_append_lo, extract_all, Nat.reduceSub, BitVec.reduceExtractLsb', BitVec.reduceToNat] <;> rfl

theorem syswrSlottab (a : GReg) (n : SysNum) : Statement (.syswrSlottab a n) := by
  rintro hw - _ ⟨⟩
  refine decode_of_fields ?_ hw
  simp only [Instr.wf, Bool.or_eq_true, beq_iff_eq, or_assoc] at hw
  have hn : n = 0x12 ∨ n = 0x13 ∨ n = 0x14 := by
    rcases hw with h | h | h
    · exact .inl (BitVec.eq_of_toNat_eq h)
    · exact .inr (.inl (BitVec.eq_of_toNat_eq h))
    · exact .inr (.inr ((BitVec.eq_of_toNat_eq h)))
  rcases hn with rfl | rfl | rfl <;> simp (disch := decide) only [decodeFields, decodeSys, decodeSyswr, extract_append_hi, extract_append_lo, extract_all, Nat.reduceSub, BitVec.reduceExtractLsb', BitVec.reduceToNat] <;> rfl

theorem syswrQring (a : GReg) (n : SysNum) : Statement (.syswrQring a n) := by
  rintro hw - _ ⟨⟩
  refine decode_of_fields ?_ hw
  simp only [Instr.wf, Bool.or_eq_true, beq_iff_eq] at hw
  have hn : n = 0x15 ∨ n = 0x16 := by
    rcases hw with h | h
    · exact .inl (BitVec.eq_of_toNat_eq h)
    · exact .inr ((BitVec.eq_of_toNat_eq h))
  rcases hn with rfl | rfl <;> simp (disch := decide) only [decodeFields, decodeSys, decodeSyswr, extract_append_hi, extract_append_lo, extract_all, Nat.reduceSub, BitVec.reduceExtractLsb', BitVec.reduceToNat] <;> rfl

theorem swapreq (a : GReg) : Statement (.swapreq a) := by
  rintro hw - _ ⟨⟩
  refine decode_of_fields ?_ hw
  simp (disch := decide) only [decodeFields, decodeSys, decodeSyswr, extract_append_hi, extract_append_lo, extract_all, Nat.reduceSub, BitVec.reduceExtractLsb', BitVec.reduceToNat] <;> rfl

theorem trap (i0 : BitVec 12) : Statement (.trap i0) := by
  rintro hw - _ ⟨⟩
  refine decode_of_fields ?_ hw
  simp (disch := decide) only [decodeFields, decodeSys, extract_append_hi, extract_append_lo, extract_all, Nat.reduceSub, BitVec.reduceExtractLsb', BitVec.reduceToNat] <;> rfl

theorem brk (i0 : BitVec 12) : Statement (.brk i0) := by
  rintro hw - _ ⟨⟩
  refine decode_of_fields ?_ hw
  simp (disch := decide) only [decodeFields, decodeSys, extract_append_hi, extract_append_lo, extract_all, Nat.reduceSub, BitVec.reduceExtractLsb', BitVec.reduceToNat] <;> rfl

theorem illegalWord (w : BitVec 32) : Statement (.illegalWord w) := by
  intro _ h; exact absurd rfl (h _)

theorem divideResult : Statement .divideResult := by
  rintro _ - _ ⟨⟩

theorem loadDataReturn : Statement .loadDataReturn := by
  rintro _ - _ ⟨⟩

theorem remoteAccessArrival : Statement .remoteAccessArrival := by
  rintro _ - _ ⟨⟩

theorem coreTranslationFault : Statement .coreTranslationFault := by
  rintro _ - _ ⟨⟩

theorem faultRecordWrite : Statement .faultRecordWrite := by
  rintro _ - _ ⟨⟩

theorem wakeMessage : Statement .wakeMessage := by
  rintro _ - _ ⟨⟩

theorem ksendLaneAccumulate : Statement .ksendLaneAccumulate := by
  rintro _ - _ ⟨⟩

theorem vsync : Statement .vsync := by
  rintro hw - _ ⟨⟩
  refine decode_of_fields ?_ hw
  simp (disch := decide) only [decodeFields, decodeVseq, extract_append_hi, extract_append_lo, extract_all, Nat.reduceSub, BitVec.reduceExtractLsb', BitVec.reduceToNat] <;> rfl

theorem vseqEntryPerform : Statement .vseqEntryPerform := by
  rintro _ - _ ⟨⟩

theorem qwedge : Statement .qwedge := by
  rintro _ - _ ⟨⟩

theorem quit : Statement .quit := by
  rintro hw - _ ⟨⟩
  refine decode_of_fields ?_ hw
  simp (disch := decide) only [decodeFields, decodeTask, extract_append_hi, extract_append_lo, extract_all, Nat.reduceSub, BitVec.reduceExtractLsb', BitVec.reduceToNat] <;> rfl

theorem taskRecordInsert : Statement .taskRecordInsert := by
  rintro _ - _ ⟨⟩

theorem taskBankReply : Statement .taskBankReply := by
  rintro _ - _ ⟨⟩

theorem dispatcherStart : Statement .dispatcherStart := by
  rintro _ - _ ⟨⟩

theorem wakeRecordDelivery : Statement .wakeRecordDelivery := by
  rintro _ - _ ⟨⟩

theorem spill : Statement .spill := by
  rintro _ - _ ⟨⟩

theorem refill : Statement .refill := by
  rintro _ - _ ⟨⟩

theorem barrierArrivalRecord : Statement .barrierArrivalRecord := by
  rintro _ - _ ⟨⟩

theorem barrierRelease : Statement .barrierRelease := by
  rintro _ - _ ⟨⟩

theorem barrierTimeout : Statement .barrierTimeout := by
  rintro _ - _ ⟨⟩

theorem barrierSeal : Statement .barrierSeal := by
  rintro _ - _ ⟨⟩

theorem suspensionComplete : Statement .suspensionComplete := by
  rintro _ - _ ⟨⟩

theorem resumeGroupPlace : Statement .resumeGroupPlace := by
  rintro _ - _ ⟨⟩

theorem groupRestoreEnd : Statement .groupRestoreEnd := by
  rintro _ - _ ⟨⟩

theorem recordedCopyResolve : Statement .recordedCopyResolve := by
  rintro _ - _ ⟨⟩

theorem trig : Statement .trig := by
  rintro hw - _ ⟨⟩
  refine decode_of_fields ?_ hw
  simp (disch := decide) only [decodeFields, decodeLnch, extract_append_hi, extract_append_lo, extract_all, Nat.reduceSub, BitVec.reduceExtractLsb', BitVec.reduceToNat] <;> rfl

theorem launchEnqueue : Statement .launchEnqueue := by
  rintro _ - _ ⟨⟩

theorem launchStatus : Statement .launchStatus := by
  rintro _ - _ ⟨⟩

theorem groupPlace : Statement .groupPlace := by
  rintro _ - _ ⟨⟩

theorem strandStart : Statement .strandStart := by
  rintro _ - _ ⟨⟩

theorem launchRetire : Statement .launchRetire := by
  rintro _ - _ ⟨⟩

theorem tickStart : Statement .tickStart := by
  rintro _ - _ ⟨⟩

theorem tickWindowEdge : Statement .tickWindowEdge := by
  rintro _ - _ ⟨⟩

theorem copyChannelTake : Statement .copyChannelTake := by
  rintro _ - _ ⟨⟩

theorem copyStartElapse : Statement .copyStartElapse := by
  rintro _ - _ ⟨⟩

theorem copyRun : Statement .copyRun := by
  rintro _ - _ ⟨⟩

theorem copyLastByteLands : Statement .copyLastByteLands := by
  rintro _ - _ ⟨⟩

theorem copyCompletionWrite : Statement .copyCompletionWrite := by
  rintro _ - _ ⟨⟩

theorem matrixCommandBegin : Statement .matrixCommandBegin := by
  rintro _ - _ ⟨⟩

theorem matrixCommandComplete : Statement .matrixCommandComplete := by
  rintro _ - _ ⟨⟩

theorem drainResume : Statement .drainResume := by
  rintro _ - _ ⟨⟩

theorem mergeDrainTurn : Statement .mergeDrainTurn := by
  rintro _ - _ ⟨⟩

theorem drainStatusDeliver : Statement .drainStatusDeliver := by
  rintro _ - _ ⟨⟩

theorem walkBegin : Statement .walkBegin := by
  rintro _ - _ ⟨⟩

theorem walkPass : Statement .walkPass := by
  rintro _ - _ ⟨⟩

theorem walkEnd : Statement .walkEnd := by
  rintro _ - _ ⟨⟩

theorem dsendHashChoose : Statement .dsendHashChoose := by
  rintro _ - _ ⟨⟩

theorem dsendScoredChoose : Statement .dsendScoredChoose := by
  rintro _ - _ ⟨⟩

theorem gateLoad : Statement .gateLoad := by
  rintro _ - _ ⟨⟩

theorem sendListHoldTimeout : Statement .sendListHoldTimeout := by
  rintro _ - _ ⟨⟩

theorem receiveRequest : Statement .receiveRequest := by
  rintro _ - _ ⟨⟩

theorem grantReply : Statement .grantReply := by
  rintro _ - _ ⟨⟩

theorem rowCommit : Statement .rowCommit := by
  rintro _ - _ ⟨⟩

theorem arrivalCount : Statement .arrivalCount := by
  rintro _ - _ ⟨⟩

theorem dsendCompletion : Statement .dsendCompletion := by
  rintro _ - _ ⟨⟩

theorem receiveRelease : Statement .receiveRelease := by
  rintro _ - _ ⟨⟩

theorem migrateGrant : Statement .migrateGrant := by
  rintro _ - _ ⟨⟩

theorem migrateArrive : Statement .migrateArrive := by
  rintro _ - _ ⟨⟩

theorem windowEnd : Statement .windowEnd := by
  rintro _ - _ ⟨⟩

theorem replicaCopyEnd : Statement .replicaCopyEnd := by
  rintro _ - _ ⟨⟩

theorem versionApply : Statement .versionApply := by
  rintro _ - _ ⟨⟩

theorem regionDrained : Statement .regionDrained := by
  rintro _ - _ ⟨⟩

theorem clredArrive : Statement .clredArrive := by
  rintro _ - _ ⟨⟩

theorem clredCompletion : Statement .clredCompletion := by
  rintro _ - _ ⟨⟩

theorem eret : Statement .eret := by
  rintro hw - _ ⟨⟩
  refine decode_of_fields ?_ hw
  simp (disch := decide) only [decodeFields, decodeSys, extract_append_hi, extract_append_lo, extract_all, Nat.reduceSub, BitVec.reduceExtractLsb', BitVec.reduceToNat] <;> rfl

theorem idle : Statement .idle := by
  rintro hw - _ ⟨⟩
  refine decode_of_fields ?_ hw
  simp (disch := decide) only [decodeFields, decodeSys, extract_append_hi, extract_append_lo, extract_all, Nat.reduceSub, BitVec.reduceExtractLsb', BitVec.reduceToNat] <;> rfl

theorem timer : Statement .timer := by
  rintro _ - _ ⟨⟩

theorem parkswapPreempt : Statement .parkswapPreempt := by
  rintro _ - _ ⟨⟩

theorem swapOutComplete : Statement .swapOutComplete := by
  rintro _ - _ ⟨⟩

theorem contextEvict : Statement .contextEvict := by
  rintro _ - _ ⟨⟩

theorem swapIn : Statement .swapIn := by
  rintro _ - _ ⟨⟩

theorem l2Scrub : Statement .l2Scrub := by
  rintro _ - _ ⟨⟩

theorem dramScrub : Statement .dramScrub := by
  rintro _ - _ ⟨⟩

theorem pairMergeCompare : Statement .pairMergeCompare := by
  rintro _ - _ ⟨⟩

theorem pairTimeout : Statement .pairTimeout := by
  rintro _ - _ ⟨⟩

theorem hostAccess : Statement .hostAccess := by
  rintro _ - _ ⟨⟩

theorem launchRingDoorbell : Statement .launchRingDoorbell := by
  rintro _ - _ ⟨⟩

theorem eventRingDoorbell : Statement .eventRingDoorbell := by
  rintro _ - _ ⟨⟩

theorem faultRingDoorbell : Statement .faultRingDoorbell := by
  rintro _ - _ ⟨⟩

theorem commandRingDoorbell : Statement .commandRingDoorbell := by
  rintro _ - _ ⟨⟩

theorem tenant : Statement .tenant := by
  rintro _ - _ ⟨⟩

theorem asidset : Statement .asidset := by
  rintro _ - _ ⟨⟩

theorem inval : Statement .inval := by
  rintro _ - _ ⟨⟩

theorem wake : Statement .wake := by
  rintro _ - _ ⟨⟩

theorem powerReady : Statement .powerReady := by
  rintro _ - _ ⟨⟩

theorem powerRun : Statement .powerRun := by
  rintro _ - _ ⟨⟩

theorem powerPark : Statement .powerPark := by
  rintro _ - _ ⟨⟩

theorem powerUnpark : Statement .powerUnpark := by
  rintro _ - _ ⟨⟩

theorem powerOff : Statement .powerOff := by
  rintro _ - _ ⟨⟩

theorem hostTick : Statement .hostTick := by
  rintro _ - _ ⟨⟩

theorem victim : Statement .victim := by
  rintro _ - _ ⟨⟩

theorem route : Statement .route := by
  rintro _ - _ ⟨⟩

theorem attest : Statement .attest := by
  rintro _ - _ ⟨⟩

theorem lifecycle : Statement .lifecycle := by
  rintro _ - _ ⟨⟩

theorem kill : Statement .kill := by
  rintro _ - _ ⟨⟩

theorem extend : Statement .extend := by
  rintro _ - _ ⟨⟩

theorem powerOnReset : Statement .powerOnReset := by
  rintro _ - _ ⟨⟩

theorem wipeComplete : Statement .wipeComplete := by
  rintro _ - _ ⟨⟩

theorem thermal : Statement .thermal := by
  rintro _ - _ ⟨⟩

theorem thermalThrottle : Statement .thermalThrottle := by
  rintro _ - _ ⟨⟩

theorem linkFlit : Statement .linkFlit := by
  rintro _ - _ ⟨⟩

theorem linkdown : Statement .linkdown := by
  rintro _ - _ ⟨⟩

theorem fetchBound : Statement .fetchBound := by
  rintro _ - _ ⟨⟩

theorem queueBankRemoval : Statement .queueBankRemoval := by
  rintro _ - _ ⟨⟩

theorem skeinStatusReply : Statement .skeinStatusReply := by
  rintro _ - _ ⟨⟩

theorem distaffReply : Statement .distaffReply := by
  rintro _ - _ ⟨⟩

theorem chainReply : Statement .chainReply := by
  rintro _ - _ ⟨⟩

theorem plmergeCompletion : Statement .plmergeCompletion := by
  rintro _ - _ ⟨⟩

theorem temperatureFall : Statement .temperatureFall := by
  rintro _ - _ ⟨⟩

end RoundTrip

end Sys2Proof.Laws
end

