-- ==== Sys2Proof/Tests/Slice0.lean ====
section
/-! SUPPORT. Tests: words written out from the spec's encodings, terms that the operand limits refuse, one step of the spec's worked
examples, and states that meet the hypotheses of each statement. -/

open Sys2Proof Sys2Proof.Machine

namespace Sys2Proof.Tests

set_option Elab.async false

/-! ### Decoding (R26 to R36): each row's word, from its major opcode, its fields and its minor code -/

/-- Each word decodes to its instruction. -/
def decodesAll (l : List (BitVec 32 × Instr)) : Bool := l.all fun x => decide ((decode x.1).toOption = some x.2)

theorem test_decode_alu_1 : decodesAll [
    (0x058D7000, .add 12 13 14), (0x058D7001, .sub 12 13 14), (0x058D7002, .and 12 13 14), (0x058D7003, .or 12 13 14),
    (0x058D7004, .xor 12 13 14), (0x058D7005, .andn 12 13 14), (0x058D7006, .shl 12 13 14), (0x058D7007, .shr 12 13 14),
    (0x058D7008, .sra 12 13 14), (0x058D7009, .slt 12 13 14), (0x058D700A, .sltu 12 13 14), (0x058D700B, .min 12 13 14),
    (0x058D700C, .max 12 13 14), (0x058D700D, .minu 12 13 14), (0x058D700E, .maxu 12 13 14), (0x058D700F, .seq 12 13 14)] = true := by decide

theorem test_decode_alu_2 : decodesAll [
    (0x058D7010, .addw 12 13 14), (0x058D7011, .subw 12 13 14), (0x058D7012, .shlw 12 13 14),
    (0x058D7013, .shrw 12 13 14), (0x058D7014, .sraw 12 13 14)] = true := by decide

theorem test_decode_immediates : decodesAll [
    (0x098D0155, .addi 12 13 341), (0x0D8D0155, .andi 12 13 341), (0x118D0155, .ori 12 13 341),
    (0x158D0155, .xori 12 13 341), (0x198D0015, .shli 12 13 21), (0x198D4015, .shri 12 13 21),
    (0x198D8015, .srai 12 13 21), (0x1D8D0155, .slti 12 13 341), (0x21800155, .li 12 341), (0x25810155, .lis 12 1 341)] = true := by decide

theorem test_decode_muldiv : decodesAll [
    (0x298D7000, .mul 12 13 14), (0x298D7001, .mulh 12 13 14), (0x298D7002, .mulhu 12 13 14),
    (0x298D7003, .mulw 12 13 14), (0x298D7004, .div 12 13 14), (0x298D7005, .divu 12 13 14),
    (0x298D7006, .rem 12 13 14), (0x298D7007, .remu 12 13 14), (0x298D7008, .divw 12 13 14),
    (0x298D7009, .remw 12 13 14)] = true := by decide

theorem test_decode_bits : decodesAll [
    (0x2D8D0000, .clz 12 13), (0x2D8D0001, .ctz 12 13), (0x2D8D0002, .popc 12 13), (0x2D8D0003, .bswap 12 13),
    (0x2D8D7004, .bext 12 13 14), (0x2D8D7005, .bins 12 13 14), (0x2D8D7006, .sext 12 13 14),
    (0x2D8D7007, .zext 12 13 14)] = true := by decide

theorem test_decode_branches : decodesAll [
    (0x318D0155, .beq 12 13 341), (0x318D2155, .bne 12 13 341), (0x318D4155, .blt 12 13 341),
    (0x318D6155, .bge 12 13 341), (0x318D8155, .bltu 12 13 341), (0x318DA155, .bgeu 12 13 341)] = true := by decide

theorem test_decode_jumps : decodesAll [
    (0x35800155, .jal 12 341), (0x398D0155, .jalr 12 13 341)] = true := by decide

theorem test_decode_identity : decodesAll [
    (0x3D840000, .widf 12 4), (0x3D800001, .wid 12), (0x3D800002, .self 12), (0x3D800003, .cyc 12),
    (0x3D800004, .tick 12), (0x3D800005, .grp 12)] = true := by decide

theorem test_decode_loads : decodesAll [
    (0x418D7355, .ldb 12 13 14 1 341), (0x458D7355, .ldbu 12 13 14 1 341), (0x498D7355, .ldh 12 13 14 1 341),
    (0x4D8D7355, .ldhu 12 13 14 1 341), (0x518D7355, .ldw 12 13 14 1 341), (0x558D7355, .ldwu 12 13 14 1 341),
    (0x598D7355, .ldd 12 13 14 1 341), (0x5C6D7355, .ldv 3 13 14 1 341)] = true := by decide

theorem test_decode_stores : decodesAll [
    (0x618D7355, .stb 12 13 14 1 341), (0x658D7355, .sth 12 13 14 1 341), (0x698D7355, .stw 12 13 14 1 341),
    (0x6D8D7355, .std 12 13 14 1 341), (0x706D7355, .stv 3 13 14 1 341)] = true := by decide

theorem test_decode_sync : decodesAll [
    (0x758D7000, .ldf 12 13 14), (0x758D7001, .ldfe 12 13 14), (0x758D7002, .stef 12 13 14),
    (0x758D7003, .stf 12 13 14), (0x740C6804, .sete 12 13), (0x758D7005, .fetest 12 13 14)] = true := by decide

theorem test_decode_atomics : decodesAll [
    (0x798D72C0, .amoadd 12 13 14 11), (0x798D72C1, .amoand 12 13 14 11), (0x798D72C2, .amoor 12 13 14 11),
    (0x798D72C3, .amoxor 12 13 14 11), (0x798D72C4, .amomin 12 13 14 11), (0x798D72C5, .amomax 12 13 14 11),
    (0x798D72C6, .amominu 12 13 14 11), (0x798D72C7, .amomaxu 12 13 14 11), (0x798D72C8, .amoswap 12 13 14 11),
    (0x798D72C9, .amocas 12 13 14 11), (0x798D72CA, .amoaddw 12 13 14 11), (0x798D72CB, .amofaddF32 12 13 14 11)] = true := by decide

theorem test_decode_handles : decodesAll [
    (0x7D8D6000, .hsub 12 13 6), (0x7D8D7001, .hrd 12 13 14), (0x7D800002, .hclr 12)] = true := by decide

theorem test_decode_valu_1 : decodesAll [
    (0x80D58080, .vadd 3 5 6 .s32), (0x80D58081, .vsub 3 5 6 .s32), (0x80D58082, .vmul 3 5 6 .s32),
    (0x80D5A483, .vfma 3 5 6 9 .s32), (0x80D58084, .vmin 3 5 6 .s32), (0x80D58085, .vmax 3 5 6 .s32),
    (0x80D40086, .vabs 3 5 .s32), (0x80D40087, .vneg 3 5 .s32), (0x80D58088, .vand 3 5 6 .s32),
    (0x80D58089, .vor 3 5 6 .s32), (0x80D5808A, .vxor 3 5 6 .s32), (0x80D5808B, .vshl 3 5 6 .s32),
    (0x80D5808C, .vshr 3 5 6 .s32), (0x80D5808D, .vcmpeq 3 5 6 .s32), (0x80D5808E, .vcmplt 3 5 6 .s32),
    (0x80D5808F, .vcmple 3 5 6 .s32)] = true := by decide

theorem test_decode_valu_2 : decodesAll [
    (0x80D5A490, .vsel 3 5 6 9 .s32), (0x80D5A411, .vdot 3 5 6 9 .s8), (0x80D58092, .vaddsat 3 5 6 .s32),
    (0x80D58093, .vsubsat 3 5 6 .s32), (0x80D58094, .vmulh 3 5 6 .s32)] = true := by decide

theorem test_decode_vcvt : decodesAll [
    (0x84D6D600, .vcvt 3 5 .f32 5 .e4m3), (0x84D402C1, .vrcp 3 5 .f32), (0x84D402C2, .vrsqrt 3 5 .f32),
    (0x84D402C3, .vsqrt 3 5 .f32), (0x84D58084, .vdiv 3 5 6 .s32), (0x84D402C5, .vexp2 3 5 .f32),
    (0x84D402C6, .vlog2 3 5 .f32), (0x84D402C7, .vtanh 3 5 .f32), (0x84D402C8, .vsigm 3 5 .f32)] = true := by decide

theorem test_decode_vperm_1 : decodesAll [
    (0x88D40080, .vbcast 3 5 .s32), (0x88D40881, .vins 3 5 2 .s32), (0x88D40882, .vext 3 5 2 .s32),
    (0x88D58083, .vshuf 3 5 6 .s32), (0x88D58484, .vzip 3 5 6 1 .s32), (0x88D58485, .vunzip 3 5 6 1 .s32),
    (0x88D40086, .vredsum 3 5 .s32), (0x88D40087, .vredmax 3 5 .s32), (0x88D40088, .vredmin 3 5 .s32),
    (0x88D40489, .vsort 3 5 1 .s32), (0x88D5848A, .vmerge 3 5 6 1 .s32), (0x88D5848B, .vsrch 3 5 6 1 .s32),
    (0x88D5808C, .vcompress 3 5 6 .s32), (0x88D5808D, .vexpand 3 5 6 .s32), (0x88D4008E, .vpopc 3 5 .s32),
    (0x88D4008F, .vfirst 3 5 .s32)] = true := by decide

theorem test_decode_vperm_2 : decodesAll [
    (0x880D4090, .ksend 3 5 .s32)] = true := by decide

theorem test_decode_vseq : decodesAll [
    (0x8C0C6B00, .vbegin 12 13 6), (0x8C000001, .vsync), (0x8D800002, .vstat 12)] = true := by decide

theorem test_decode_queue : decodesAll [
    (0x918D7000, .qbind 12 13 14), (0x918D0001, .qunbind 12 13), (0x918D0002, .qstat 12 13), (0x918D0003, .qpeek 12 13)] = true := by decide

theorem test_decode_ordering : decodesAll [
    (0x94D5A6B4, .wait 3 5 6 9 10 13), (0x99555800, .xfence 21 21 3)] = true := by decide

theorem test_decode_task : decodesAll [
    (0x9D8D7000, .spawn 12 13 14), (0x9D8D7001, .spawnd 12 13 14), (0x9C000002, .quit), (0x9D800003, .yield 12),
    (0x9D8D7004, .migrate 12 13 14), (0x9D8D0005, .tqpush 12 13), (0x9D8D0006, .tqpop 12 13), (0x9D8D0007, .tmr 12 13),
    (0x9D8D0008, .prio 12 13)] = true := by decide

theorem test_decode_barrier : decodesAll [
    (0xA18D7080, .bset 12 13 14 1), (0xA1800081, .barv 12 1), (0xA18D0082, .bwait 12 13 1), (0xA1800083, .barw 12 1),
    (0xA18D0084, .bto 12 13 1)] = true := by decide

theorem test_decode_skein : decodesAll [
    (0xA58D7000, .susp 12 13 14), (0xA4CD7001, .resume 3 13 14), (0xA58D7002, .sdrop 12 13 14),
    (0xA4CD7003, .sclone 3 13 14), (0xA4CD7004, .sver 3 13 14)] = true := by decide

theorem test_decode_launch : decodesAll [
    (0xA98D7000, .launch 12 13 14), (0xA8000001, .trig), (0xA98D7002, .chplay 12 13 14)] = true := by decide

theorem test_decode_engines_1 : decodesAll [
    (0xAC80680E, .ewr .wk 13 7), (0xAC8101DC, .erd .wk 7 14), (0xAC020001, .cpgo 1), (0xAC030001, .cphint 1),
    (0xAC040019, .cpcancel 12 1), (0xAC050019, .cpstat 12 1), (0xAC42601A, .oclaim 12 13), (0xAC43601A, .orel 12 13),
    (0xAC446343, .mm 12 13 1 1), (0xAC456343, .mmg 12 13 1 1), (0xAC460303, .mdrain 12 1 1), (0xAC470003, .mclr 1 1),
    (0xAC480301, .mchk 12 1), (0xAC820001, .walk 1), (0xAC83601B, .wstat 12 13 1), (0xACC20001, .dsend 1)] = true := by decide

theorem test_decode_engines_2 : decodesAll [
    (0xACC30019, .dflush 12 1), (0xACC40019, .dstat 12 1), (0xAD02601A, .plrd 12 13), (0xAD030018, .plswitch 12),
    (0xAD040001, .plmerge 1), (0xAD050018, .plstat 12), (0xAD420001, .clred 1), (0xAD43601B, .clstat 12 13 1)] = true := by decide

theorem test_decode_system : decodesAll [
    (0xC1800003, .sysrd 12 3), (0xC00C1003, .syswr 12 3), (0xC0002155, .trap 341), (0xC0003000, .eret),
    (0xC0004155, .brk 341), (0xC0005000, .idle)] = true := by decide

/-! ### States for witnesses -/

/-- A handle of a space with a base, a bound, rights and an element format. -/
def hd (space base bound rights : Nat) (efmt : Nat := 15) (tgt : Nat := 0) : Handle :=
  { base := BitVec.ofNat 64 base, ctl := BitVec.ofNat 64 (bound + space * 2 ^ 40 + rights * 2 ^ 43 + efmt * 2 ^ 50)
    tgt := BitVec.ofNat 64 tgt }

/-- One strand, in Run: strand 0, in slot 0 of core 0. -/
def one (t : Strand) : State :=
  { State.reset with power := .run, strands := [(0, { t with loc := .slot 0 0 })]
                     cores := [(0, { slots := vset (Vector.replicate 8 Slot.free) 0 (.live 0) })] }

/-- A strand with handles h0 (its slice), h1 (the banks), h2 (cluster), h3 (chip), h4 (global) and h5 (peer: core 1), registers
g1 to g31 of which gN holds 64 × N, and a handler. -/
def man : Strand :=
  { handles := Vector.ofFn fun i => match i.val with
      | 0 => hd 0 0 0x1000 7
      | 1 => hd 1 0 0x40000 15
      | 2 => hd 2 0 0x10000 15
      | 3 => hd 3 0 0x10000 15
      | 4 => hd 4 0x40000000 0x10000 31
      | 5 => hd 5 0 0x40000 15 15 1
      | 6 => hd 4 0x40000000 0x10000 7 11
      | _ => {}
    gr := Vector.ofFn fun i => BitVec.ofNat 64 (64 * i.val)
    pc := 0x10000000, tvec := 0x4000, asid := 3, tenant := 2 }

/-- An instruction issues at a state, and what `p` says holds there. -/
def meets (i : Instr) (s : State) (p : State → State → Strand → (GReg → Word) → Bool) (extra : List GReg := []) : Bool :=
  match s.issued i extra with
  | some (t, s1, got) => p s s1 t.settled (popVal t got)
  | none => false

/-- With the 64-KiB page of an address mapped in every slice of die 0, with every right. -/
def mapPage (asid : BitVec 12) (va pa : Nat) (s : State) : State :=
  let s := s.mapFetch { asid, pc := BitVec.ofNat 64 va }
  s.modDie 0 fun x => { x with tlb := (List.range 64).map fun i => {
    slice := i, asid, gen := s.asidGen asid, va := va / 2 ^ 16 * 2 ^ 16, size := 2 ^ 16, pa, rights := 7, dirty := true } }

/-- With the page of the global handles h4 and h6 of `man` mapped. -/
def mapped (s : State) : State := mapPage 3 0x40000000 0x30000 s

/-! ### Words that the operand limits refuse (R28 to R37) -/

/-- An ill-formed term for each limit, and its neighbour that is well formed. -/
theorem test_wf_refuses : ([.widf 12 6, .vabs 1 2 .z8, .vneg 1 2 .z64, .vand 1 2 3 .f32, .vor 1 2 3 .bf16, .vxor 1 2 3 .e4m3, .vshl 1 2 3 .f32,
    .vshr 1 2 3 .e5m2, .vaddsat 1 2 3 .f32, .vsubsat 1 2 3 .bf16, .vmulh 1 2 3 .f32, .vdot 1 2 3 4 .s32, .vrcp 1 2 .s8, .vrsqrt 1 2 .z16,
    .vsqrt 1 2 .s32, .vexp2 1 2 .s64, .vlog2 1 2 .z8, .vtanh 1 2 .s16, .vsigm 1 2 .z32, .vins 1 2 2 .s64, .vext 12 3 4 .s32, .ksend 1 2 .z32,
    .vbegin 12 13 0, .xfence 0 1 1, .xfence 1 0 1, .xfence 1 1 6, .ewr .cp 13 0x10, .ewr .mx 13 0x0E, .ewr .cp 13 2, .ewr .cl 13 0x0A,
    .erd .cp 0x18 12, .erd .wk 0x10 12, .erd .pl 0x26 12, .erd .dx 0x12 12, .ewrCpDest 3 13, .ewrCpBfmt 0x37 13, .ewrPlRegion 0x24 13,
    .sysrd 12 0x0E, .sysrd 12 0x1A, .syswr 12 0x0B, .syswr 12 5, .syswr 12 0x0F, .syswrKhashKbins 12 0x0B, .syswrSlottab 12 0x15,
    .syswrQring 12 0x17] : List Instr).all (fun i => !i.wf) = true := by decide

theorem test_wf_admits : ([.widf 12 5, .vabs 1 2 .s8, .vneg 1 2 .bf16, .vand 1 2 3 .z64, .vshr 1 2 3 .s8, .vaddsat 1 2 3 .z8, .vdot 1 2 3 4 .e5m2,
    .vrcp 1 2 .e4m3, .vins 1 2 1 .s64, .vext 12 3 3 .s32, .ksend 1 2 .f32, .vbegin 12 13 15, .xfence 1 1 5, .ewr .cp 13 0x1F, .erd .mx 0x0F 12,
    .erd .dx 0x21 12, .ewrCpDest 4 13, .ewrCpBfmt 0x36 13, .ewrPlRegion 0x23 13, .sysrd 12 0x19, .syswr 12 0x10, .syswrKhashKbins 12 0x0A,
    .syswrSlottab 12 0x14, .syswrQring 12 0x16] : List Instr).all Instr.wf = true := by decide

/-! ### One step each, from the spec's worked examples -/

/-- What strand 0 is after an instruction. -/
def after (i : Instr) (t : Strand) (p : Strand → Bool) : Bool :=
  match exec i (one t) with
  | .next s => (s.strand? 0).any p
  | _ => false

/-- What strand 0 is after the sequencer has performed a vector instruction. -/
def performed (i : Instr) (t : Strand) (p : Strand → Bool) : Bool :=
  match exec .vseqEntryPerform (one { t with seq := [.one { instr := i, pc := 0 }] }) with
  | .next s => (s.strand? 0).any p
  | _ => false

/-- `bext` with pos 8 and len 12 (R84's worked example). -/
theorem test_bext : after (.bext 12 13 14) { man with gr := vset (vset man.gr 13 0xABCD00) 14 0x0C08 } (fun t => t.g 12 == 0xBCD && t.pc == 0x10000004) = true := by
  decide +kernel

/-- s8 lanes of 100 and 50: −106 and, saturated, 127 (R102). -/
theorem test_vadd_s8 : performed (.vadd 2 0 1 .s8) { man with vr := vset (vset man.vr 0 0x64) 1 0x32 } (fun t => vget t.vr 2 0 == 0x96) = true ∧
    performed (.vaddsat 2 0 1 .s8) { man with vr := vset (vset man.vr 0 0x64) 1 0x32 } (fun t => vget t.vr 2 0 == 0x7F) = true := by decide +kernel

/-- s16 lanes of −2 and 0x4000 give −1 (R102). -/
theorem test_vmulh_s16 : performed (.vmulh 2 0 1 .s16) { man with vr := vset (vset man.vr 0 0xFFFE) 1 0x4000 } (fun t => vget t.vr 2 0 == 0xFFFF) = true := by
  decide +kernel

/-- 300.0, 500.0, 0.001 and −∞ as e4m3, saturated, and the flags OF, UF and NX (R104's worked example). -/
theorem test_vcvt_e4m3 : performed (.vcvt 5 6 .f32 3 .e4m3) { man with vr := vset man.vr 6 0xFF8000003A83126F43FA000043960000 } (fun t =>
    vget t.vr 5 0 == 0xFE017E79 && t.frm.extractLsb' 4 4 == 7) = true := by decide +kernel

/-- The keys (7, −3, 7, 0), sorted with their places (R108's worked example). -/
theorem test_vsort : performed (.vsort 3 1 2 .s32) { man with vr := vset man.vr 1 0x0000000000000007FFFFFFFD00000007 } (fun t =>
    vget t.vr 3 0 == 0x00000002000000000000000300000001) = true := by decide +kernel

/-- `trap 5` in a strand that is not in its handler: TCAUSE, TPC, TVAL and TH are set, and the PC is TVEC; in a handler it halts (R70, R76). -/
theorem test_trap : after (.trap 5) man (fun t => t.tcause == Cause.soft.code && t.tpc == 0x10000000 && t.tval == 5 && t.th && t.pc == 0x4000) = true ∧
    after (.trap 5) { man with th := true } (fun t => t.st == .ended) = true := by decide +kernel

/-- `eret` goes on at TPC, out of the handler (R76). -/
theorem test_eret : after .eret { man with th := true, tpc := 0x8000, tcause := 5 } (fun t => !t.th && t.pc == 0x8000 && t.tcause == 5) = true := by
  decide +kernel

/-- A privileged read in a strand without privileges is ILLEGAL with its word (R35). -/
theorem test_sysrd_user : after (.sysrd 12 0x10) man (fun t => t.th && t.tcause == Cause.illegal.code) = true := by decide +kernel

/-- A release brings the handle's TVAL (R118): a store through h7, which is empty, lacks W. -/
theorem test_rights : after (.std 12 7 0 0 0) man (fun t => t.tcause == Cause.rights.code && t.tval == 0x207) = true := by decide +kernel

/-! ### Witnesses: results, branches, accesses -/

theorem witness_result_written : man.bound? 12 = none ∧ man.bound? 0 = none := by decide +kernel

theorem witness_result_pushed : Tab.wf (one man).strands = true ∧ ({ man with qbind := 0x00000F00 } : Strand).bound? 18 = some 7 ∧
    man.st = .run := by decide +kernel

/-- A strand that is parked on the pop of port 7 of the same core. -/
theorem witness_result_pushed_popper : (({ one man with strands := [(0, man), (1, { man with st := .parked (.pop 7), loc := .slot 0 1 })] }
    : State).strand? 1).map (fun u => (u.st, u.homeCore, u.place?.isSome)) = some (.parked (.pop 7), 0, true) := by decide +kernel

/-- Port 0 of core 0 holds the value 5, and g16 is bound to it. -/
def porter : State :=
  (one { man with qbind := 8 }).modPort 0 0 fun p => { p with owner := some 0, vals := [⟨some 5, 0⟩, ⟨some 6, 0⟩] }

theorem witness_pop_once : ({ man with qbind := 8 } : Strand).bound? 16 = some 0 ∧
    (porter.port { man with loc := .slot 0 0 } 0).vals = [⟨some 5, 0⟩, ⟨some 6, 0⟩] ∧
    porter.olderClaim 0 { man with qbind := 8, loc := .slot 0 0 } (.pop 0) = false := by decide +kernel

theorem witness_scalar : (scalarResult (.lis 12 3 7)).isSome ∧ ((one man).issued (.lis 12 3 7)).isSome ∧
    ((porter).issued (.add 16 16 16)).isSome := by decide +kernel

theorem witness_division : (divisionResult (.remw 12 13 0)).isSome ∧ ((one man).issued (.remw 12 13 0)).isSome := by decide +kernel

/-- At a bit of its range, and for a word that is not 0. -/
theorem witness_field_forms : 63 < 64 ∧ (0x8000 : Word) ≠ 0 ∧ trailingZeros 0x8000 64 = 15 := by decide +kernel

theorem witness_branches : (branchForm (.bgeu 12 13 0x1FFF)).isSome ∧ ((one man).issued (.bgeu 12 13 0x1FFF)).isSome := by decide +kernel

theorem witness_jumps : ((one man).issued (.jal 0 0)).isSome ∧
    meets (.jalr 31 2 0xFFFC) (one man) (fun _ _ _ v => wrap64 ((v 2).toInt + (0xFFFC : BitVec 16).toInt) % 4 == 0) = true ∧
    meets (.jalr 31 2 1) (one man) (fun _ _ _ v => wrap64 ((v 2).toInt + (1 : BitVec 16).toInt) % 4 != 0) = true := by decide +kernel

theorem witness_access_check :
    (rW &&& ~~~ (man.regionAt 7).rights ≠ 0) ∧
    (rW &&& ~~~ (man.regionAt 4).rights = 0 ∧ spaceAllows (man.regionAt 4).space .sync = false) ∧
    (spaceAllows (man.regionAt 1).space .sync = true ∧ rW &&& ~~~ (man.regionAt 1).rights = 0 ∧ 0x3FFF9 + 8 > (man.regionAt 1).bound) ∧
    (0x3FFF8 + 8 ≤ (man.regionAt 1).bound ∧ ((man.regionAt 1).base + 0x3FFF8) % 8 = 0 ∧ ((man.regionAt 1).base + 0x3FFF1) % 2 ≠ 0) := by
  decide

theorem witness_loads_and_stores :
    meets (.ldd 12 1 13 0 255) (one man) (fun _ _ t v =>
      accessCheck (t.regionAt 1) 1 (accessOffset (v 13) 255 8) 8 rR .plain == none && !(t.regionAt 1).trapCapable) = true ∧
    meets (.stb 12 1 13 0 0x100) (one man) (fun _ _ t v =>
      accessCheck (t.regionAt 1) 1 (accessOffset (v 13) 0x100 1) 1 rW .plain == none) = true ∧
    meets (.stw 12 7 13 0 0) (one man) (fun _ _ t v =>
      (accessCheck (t.regionAt 7) 7 (accessOffset (v 13) 0 4) 4 rW .plain).isSome) = true ∧
    meets (.ldd 12 7 13 0 0) (one man) (fun _ _ t v =>
      !t.pair && (accessCheck (t.regionAt 7) 7 (accessOffset (v 13) 0 8) 8 rR .plain).isSome) = true := by decide +kernel

/-- A strand with an access that is not yet performed. -/
def busy : Strand := { man with ops := [{ sn := 4, kind := .store (.phys (scratchKey 0 0)) 8 5, pc := 0 }] }

/-- A word of core 1 that is poisoned. -/
def poisoned1 : State := { one man with poison := [scratchKey 1 64 / 8, scratchKey 1 832 / 8] }

/-- Core 1, to which h5 points, is sealed. -/
def lost : State := (one man).modCore 1 fun k => { k with sealed := true }

theorem witness_held_reads :
    meets (.ldw 12 5 13 0 0) (one man) (fun _ s1 t v =>
      accessCheck (t.regionAt 5) 5 (accessOffset (v 13) 0 4) 4 rR .plain == none && (t.regionAt 5).trapCapable && t.ops.isEmpty &&
        s1.sealedAt ((t.regionAt 5).addr (accessOffset (v 13) 0 4).toNat) == none && s1.pkgUp 0 && !s1.poisoned (scratchKey 1 832) 4) = true ∧
    meets (.ldw 12 5 13 0 0) lost (fun _ s1 t v =>
        (s1.sealedAt ((t.regionAt 5).addr (accessOffset (v 13) 0 4).toNat)).isSome) = true ∧
    meets (.ldw 12 5 13 0 0) poisoned1 (fun _ s1 t _ => t.ops.isEmpty && s1.poisoned (scratchKey 1 832) 4) = true ∧
    meets (.ldw 12 5 13 0 0) (one busy) (fun _ _ t _ => !t.ops.isEmpty && !t.pair) = true := by decide +kernel

/-- A strand whose oldest access is `k`, at the last word of its core's scratchpad. -/
def doing (k : OpKind) : State := one { man with ops := [{ sn := 4, kind := k, dest := .gpr 12, pc := 0 }], outst := [(4, .ld)] }

theorem witness_access_performed : (doing (.load (.phys (scratchKey 0 0x3FFF8)) 8 false)).memWf ∧
    ((doing (.store (.phys (scratchKey 0 0x3FFF8)) 1 7)).strand? 0).map (fun t => (t.opFault, t.pair, t.st)) = some (none, false, .run) ∧
    (doing (.store (.phys (scratchKey 0 0x3FFF8)) 1 7)).sealedAt (.phys (scratchKey 0 0x3FFF8)) = none ∧
    (one man).pkgUp (keyPkg (scratchKey 0 0x3FFF8)) = true := by decide +kernel

theorem witness_results_arrive : ((one { man with rets := [{ kind := .divide, sn := 4, dests := [(.gpr 31, 5)] }] }).strand? 0).map
    (fun t => (t.rets[0]?).map fun r => (r.kind, r.dests)) = some (some (.divide, [(.gpr 31, 5)])) ∧ (one man).twins = [] := by decide +kernel

theorem witness_results_elsewhere :
    ((one { man with rets := [{ kind := .bank, sn := 4, dests := [(.drop, 5)] }] }).strand? 0).any (fun t =>
      t.st == .run && t.rets.any fun r => r.kind == .bank && r.dests == [(.drop, 5)]) = true ∧
    ((one { man with rets := [{ kind := .load, sn := 4, dests := [(.port 7 9, 5)] }] }).strand? 0).any (fun t =>
      t.rets.any fun r => r.kind == .load && r.dests == [(.port 7 9, 5)]) = true := by decide +kernel

theorem witness_skein_status :
    ((one { man with hold := some 4, rets := [{ kind := .skein, sn := 4, dests := [(.gpr 30, 5)] }] }).strand? 0).any (fun t =>
      t.hold == some 4 && t.st == .run && t.rets.any fun r => r.kind == .skein && r.dests == [(.gpr 30, 5)] && r.trap.isNone) = true := by
  decide +kernel

/-! ### Witnesses: synchronising operations, atomics, vectors -/

/-- The word at offset 64 of the banks (h1) is full. -/
def fullWord : State := (one man).setFull (scratchKey 0 64) true

theorem witness_sync_issue :
    meets (.stf 12 1 1) (one man) (fun _ _ t v => decide (syncWord t 1 (v 1) (rW ||| rA) (scratchKey 0 64))) = true ∧
    meets (.fetest 12 1 1) (one man) (fun _ _ t v =>
      decide (syncWord t 1 (v 1) (rR ||| rA) (scratchKey 0 64)) && !(t.regionAt 1).trapCapable) = true ∧
    meets (.fetest 12 5 1) (one man) (fun _ s1 t v => decide (syncWord t 5 (v 1) (rR ||| rA) (scratchKey 1 64)) &&
      (t.regionAt 5).trapCapable && decide (s1.holdEnds t (scratchKey 1 64))) = true ∧
    meets (.ldfe 12 1 1) fullWord (fun _ s1 t v => decide (syncWord t 1 (v 1) (rR ||| rW ||| rA) (scratchKey 0 64)) &&
      decide (s1.holdEnds t (scratchKey 0 64)) && s1.isFull (scratchKey 0 64)) = true ∧
    meets (.stef 12 1 1) (one man) (fun _ s1 t v => decide (syncWord t 1 (v 1) (rW ||| rA) (scratchKey 0 64)) &&
      decide (s1.holdEnds t (scratchKey 0 64)) && !s1.isFull (scratchKey 0 64)) = true ∧
    meets (.ldf 12 1 1) (one man) (fun _ s1 t v => decide (syncWord t 1 (v 1) (rR ||| rA) (scratchKey 0 64)) &&
      decide (s1.holdEnds t (scratchKey 0 64)) && !s1.isFull (scratchKey 0 64)) = true ∧
    meets (.ldf 12 5 1) lost (fun _ s1 t v => decide (syncWord t 5 (v 1) (rR ||| rA) (scratchKey 1 64)) &&
      s1.sealedAt (.phys (scratchKey 1 64)) == some 1) = true ∧
    (∀ i ∈ [Instr.ldf 12 5 1, .fetest 12 5 1], meets i poisoned1 (fun _ s1 t v => t.ops.isEmpty && s1.poisoned (scratchKey 1 64) 8 &&
      decide (syncWord t 5 (v 1) (rR ||| rA) (scratchKey 1 64)) && (s1.sealedAt (.phys (scratchKey 1 64))).isNone) = true) ∧
    (∀ i ∈ [Instr.ldf 12 5 1, .fetest 12 5 1], meets i (one busy) (fun _ _ t v => !t.ops.isEmpty && !t.pair &&
      decide (syncWord t 5 (v 1) (rR ||| rA) (scratchKey 1 64))) = true) ∧
    meets (.sete 4 1) (one man) (fun _ _ t v => (accessCheck (t.regionAt 4) 4 (v 1) 8 (rW ||| rA) .sync).isSome) = true := by decide +kernel

/-- A strand on core 0, and one on core 1, that are parked until the word at offset 64 of core 0 is full. -/
def waiting : State := { one man with strands := [(0, { man with loc := .slot 0 0, st := .parked (.word (scratchKey 0 64) true) }),
                                                  (1, { man with loc := .slot 1 0, st := .parked (.word (scratchKey 0 64) true) })] }

theorem witness_word_changes : waiting.memWf ∧ Tab.wf waiting.strands = true ∧ scratchKey 0 64 % 8 = 0 ∧
    waiting.sealedAt (.phys (scratchKey 0 64)) = none ∧ waiting.isFull (scratchKey 0 64) = false ∧
    keyCore? (scratchKey 0 64) = some 0 ∧ (waiting.strand? 0).map (fun t => t.core) = some 0 ∧
    (waiting.strand? 1).map (fun t => t.core) = some 1 := by decide +kernel

theorem witness_atomics :
    (amoForm (.amocas 12 1 1 13)).isSome ∧
    meets (.amocas 12 1 1 13) (one man) (fun _ _ t r =>
      accessCheck (t.regionAt 1) 1 (r 1) 8 (rR ||| rW ||| rA) .plain == none && !(t.regionAt 1).trapCapable) = true ∧
    meets (.amoaddw 12 5 1 13) (one man) (fun _ s1 t r =>
      accessCheck (t.regionAt 5) 5 (r 1) 4 (rR ||| rW ||| rA) .plain == none && (t.regionAt 5).trapCapable &&
        (t.regionAt 5).addr (r 1).toNat == .phys (scratchKey 1 64) && t.ops.isEmpty && s1.sealedAt (.phys (scratchKey 1 64)) == none &&
        s1.pkgUp (keyPkg (scratchKey 1 64)) && !s1.poisoned (scratchKey 1 64) 4) = true ∧
    meets (.amoaddw 12 5 1 13) (one busy) (fun _ _ t _ => !t.ops.isEmpty && (t.regionAt 5).trapCapable) = true ∧
    meets (.amoaddw 12 5 1 13) lost (fun _ s1 _ _ => s1.sealedAt (.phys (scratchKey 1 64)) == some 1) = true ∧
    meets (.amoaddw 12 5 1 13) poisoned1 (fun _ s1 t _ => t.ops.isEmpty && s1.poisoned (scratchKey 1 64) 4) = true ∧
    meets (.amoadd 12 0 1 13) (one man) (fun _ _ t r =>
      (accessCheck (t.regionAt 0) 0 (r 1) 8 (rR ||| rW ||| rA) .plain).isSome) = true ∧
    ((doing (.amo 9 (.phys (scratchKey 0 64)) 7 0)).strand? 0).map (fun t => (t.opFault, t.pair)) = some (none, false) := by decide +kernel

theorem witness_vector_issue : ((one man).issued (.vadd 1 2 3 .s32)).isSome ∧ vregForm (.vadd 1 2 3 .s32) = true ∧
    ((one man).issued (.vins 1 2 3 .s32)).isSome ∧ ((one man).issued (.vext 2 1 3 .s32)).isSome := by decide +kernel

/-- KBINS names the first bin of bank 1, which the group holds. -/
def binner : State := { one { man with kbins := BitVec.ofNat 64 (2 ^ 63 + 2 ^ 32 + 0x8000) } with
  groups := [(0, { bank0 := 1, nbank := 1, w := 1, h := 1, s := 1 })] }

theorem witness_sequenced_accesses :
    meets (.ldv 1 1 13 0 1) (one man) (fun _ _ t v => accessCheck (t.regionAt 1) 1 (accessOffset (v 13) 1 16) 16 rR .vec == none) = true ∧
    meets (.stv 1 1 13 0 1) (one man) (fun _ _ t v => accessCheck (t.regionAt 1) 1 (accessOffset (v 13) 1 16) 16 rW .vec == none) = true ∧
    meets (.ldv 1 5 13 0 1) (one man) (fun _ _ t v => (accessCheck (t.regionAt 5) 5 (accessOffset (v 13) 1 16) 16 rR .vec).isSome) = true ∧
    meets (.stv 1 5 13 0 1) (one man) (fun _ _ t v => (accessCheck (t.regionAt 5) 5 (accessOffset (v 13) 1 16) 16 rW .vec).isSome) = true ∧
    meets (.ksend 1 2 .s32) binner (fun _ s1 t _ => ksendCheck s1 t == none) = true ∧
    meets (.ksend 1 2 .s32) (one man) (fun _ s1 t _ => (ksendCheck s1 t).isSome) = true := by decide +kernel

/-- A strand whose sequencer holds one entry. -/
def queued (e : SeqEntry) (t : Strand := man) : State := one { t with seq := [.one e] }

/-- A v register with a subnormal f32 lane. -/
def tiny : Strand := { man with vr := Vector.replicate 16 1 }

theorem witness_sequencer :
    ((queued { instr := .vsync, pc := 0 }).strand? 0).map (fun t => (t.seqFault, t.taken)) = some (none, none) ∧
    subnormalVal (.vadd 1 2 3 .s32) man = 0 ∧ (vecResult (.vadd 1 2 3 .s32) man 0).isSome ∧
    vregForm (.vadd 1 2 3 .f32) = true ∧ subnormalVal (.vadd 1 2 3 .f32) tiny ≠ 0 ∧
    (man.regionAt 1).addr 64 = .phys (scratchKey 0 64) ∧ (one man).sealedAt (.phys (scratchKey 0 64)) = none ∧
    (one man).pkgUp (keyPkg (scratchKey 0 64)) = true ∧ lost.sealedAt (.phys (scratchKey 1 64)) = some 1 ∧ (one man).poisoned (scratchKey 0 64) 16 = false ∧
    ksendLanes binner man 0 0x5 ≠ [] ∧ ((queued { instr := .vsync, pc := 0 }).strand? 0).map (fun t => t.seqFault) = some none := by decide +kernel

theorem witness_integer_lanes : Ty.z8.isFlt = false ∧ 15 < Ty.z8.lanes ∧ Ty.s8.isDot = true := by decide +kernel

/-- A float type, its format, and a NaN among its lanes. -/
theorem witness_float_lanes : (ffmt? .e4m3).isSome = true ∧ 15 < Ty.e4m3.lanes ∧ (ffmt? .f32).isSome = true ∧ 3 < Ty.f32.lanes ∧
    (ffmt? .f32).any (fun f => f.isNan 0x7FC00000 && !f.isNan 0x3F800000) = true := by decide +kernel

theorem witness_lane_moves : 7 < Ty.bf16.lanes ∧ lane (tiny.v 0) 16 0 ≠ 0 ∧ lane (tiny.v 0) 16 1 = 0 := by decide +kernel

theorem witness_reductions : Nat.log2 Ty.s8.lanes = 4 ∧ Ty.s8.isFlt = false ∧ lane (tiny.v 0) 8 0 < 2 ^ Ty.s8.width ∧
    (ffmt? .bf16).any (fun f => f.isNan 0x7FC0 && !f.isNan 1) = true := by decide +kernel

theorem witness_keyed_sends : ((doing (.lane (scratchKey 0 64) false 5 true)).strand? 0).map (fun t => (t.opFault, t.st)) =
    some (none, .run) ∧ (one man).poisoned (scratchKey 0 64) 8 = false := by decide +kernel

/-- The word `w` lies behind the PC of a strand, and the PC's page is mapped. -/
def body (w : Nat) (t : Strand := man) : State :=
  let s := (one t).mapFetch t
  match s.translate 0 3 0x10000004 accX with
  | .ok (k, s1) => s1.writeBytes k (bytesOfNat 4 w)
  | .error _ => s

/-- The words of `vadd.s32 v2, v0, v1` (R102), and of `ldv` of v1 through h1 and through h5 (R111). -/
def vaddWord : Nat := 0x80804080
def ldvWord : Nat := 0x5C210000
def ldvPeer : Nat := 0x5C250000

/-- A loop of one word that is fetched and legal. -/
def looped (s : State) (p : State → Strand → Word → List SeqEntry → Bool) (a : GReg := 1) : Bool :=
  meets (.vbegin a 2 1) s (fun _ s1 t v => match s1.fetchBody t (t.pc + 4) 1 with
    | .words ws s2 => (ws.find? fun w => (bodyInstr? w.1).isNone).isNone &&
        p s2 t (v a) (ws.filterMap fun w => (bodyInstr? w.1).map fun i => bodyEntry t v i w.2)
    | _ => false) (s.bodyReads a 1)

theorem witness_loops_issue :
    (∀ w ∈ [vaddWord, ldvWord], looped (body w) (fun s2 t n b => decide (n ≠ 0) && firstFailure s2 t b 64 128 == none &&
      decide (t.seqUsed + 2 ≤ 16) && !t.fenced (bodyClasses b)) = true) ∧
    looped (body ldvPeer) (fun s2 t n b => decide (0 < n.toNat) && (b[0]?.bind fun e => e.check s2 t (e.offAt 128 0)).isSome) = true ∧
    looped (body vaddWord) (fun _ _ n _ => n == 0) 0 = true ∧
    looped (body vaddWord { man with seq := List.replicate 15 (.one { instr := .vadd 1 2 3 .s32, pc := 0 }) })
      (fun s2 t _ b => decide (16 < t.seqUsed + 2) && firstFailure s2 t b 64 128 == none) = true ∧
    looped (body ldvWord { man with outst := [(4, .st)], fences := [{ wait := [4], aset := 32 }] })
      (fun s2 t _ b => t.fenced (bodyClasses b) && firstFailure s2 t b 64 128 == none) = true ∧
    meets (.vbegin 1 2 1) (body 0) (fun _ s1 t _ => match s1.fetchBody t (t.pc + 4) 1 with
      | .words ws _ => (ws.find? fun w => (bodyInstr? w.1).isNone).isSome
      | _ => false) ((body 0).bodyReads 1 1) = true := by decide +kernel

theorem witness_loops_fetch :
    meets (.vbegin 1 2 1) (body vaddWord { man with image := 0x10000000, imgsz := 4 }) (fun _ s1 t _ =>
      match s1.fetchBody t (t.pc + 4) 1 with | .bound v => v == 4 | _ => false) = true ∧
    meets (.vbegin 1 2 1) (one man) (fun _ s1 t _ => match s1.fetchBody t (t.pc + 4) 1 with | .xfault .. => true | _ => false) = true ∧
    (match (body vaddWord).translate 0 3 0x10000004 accX with
     | .ok (k, _) => meets (.vbegin 1 2 1) { body vaddWord with poison := [k / 8] } (fun _ s1 t _ =>
         match s1.fetchBody t (t.pc + 4) 1 with | .poisoned _ => true | _ => false)
     | .error _ => false) = true ∧
    (match (body vaddWord).fetchAt man 0x10000004 with | .word w _ => w == 0x80804080 | _ => false) = true := by decide +kernel

/-- The sequencer of a strand holds a loop over one entry, in its first of two repetitions. -/
def looping (i : Instr) (r : Region := {}) (t : Strand := man) : State :=
  one { t with seq := [.loop [{ instr := i, pc := 0, region := r, off := 64 }] 2 16 0 0 0 none none] }

theorem witness_loops_run :
    meets .vsync (one man) (fun _ _ t _ => t.seq.isEmpty) = true ∧
    meets .vsync (queued { instr := .vadd 1 2 3 .s32, pc := 0 }) (fun _ _ t _ => !t.seq.isEmpty) = true ∧
    meets (.vstat 12) (one man) (fun _ _ t _ => loopRep? t.seq == none) = true ∧
    meets (.vstat 12) (looping (.vadd 1 2 3 .s32)) (fun _ _ t _ => loopRep? t.seq == some 0) = true ∧
    ((looping (.vadd 1 2 3 .s32)).strand? 0).any (fun t => t.seqFault == none && t.taken == none) = true ∧
    (vregForm (.vadd 1 2 3 .s32) = true ∧ subnormalVal (.vadd 1 2 3 .s32) man = 0 ∧ (vecResult (.vadd 1 2 3 .s32) man 0).isSome ∧
      subnormalVal (.vadd 1 2 3 .f32) tiny ≠ 0) ∧
    ((looping (.ldv 1 1 0 0 0) (man.regionAt 1)).strand? 0).any (fun t => t.ops.isEmpty && !t.countFull [.ld] && !t.countFull [.st] &&
      t.outst.isEmpty) = true ∧
    (man.regionAt 1).addr 80 = .phys (scratchKey 0 80) ∧ (man.regionAt 5).addr 64 = .phys (scratchKey 1 64) ∧
    lost.sealedAt (.phys (scratchKey 1 64)) = some 1 ∧ busy.ops ≠ [] ∧ (one man).pkgUp (keyPkg (scratchKey 0 80)) = true ∧
    (looping (.stv 1 1 0 0 0)).memWf ∧ ({ man with outst := List.replicate 255 (4, .ld) } : Strand).countFull [.ld] = true ∧
    ksendLanes binner man 0 0x5 ≠ [] ∧ (none : Option Nat) ≠ some (looping (.ksend 1 2 .s32)).serial := by decide +kernel

/-! ### Witnesses: ports, handles, fences, traps, system registers -/

theorem witness_queue_ports :
    meets (.qbind 12 13 2) (one man) (fun _ s1 t v => s1.portOpen t (idx3 (v 2))) = true ∧
    meets (.qbind 12 13 2) ((one man).modPort 0 0 fun p => { p with owner := some 9 }) (fun _ s1 t v => !s1.portOpen t (idx3 (v 2))) = true ∧
    meets (.qunbind 12 13) (one man) (fun _ _ _ _ => true) = true ∧
    meets (.qpeek 12 0) porter (fun _ s1 t v => !(s1.core t.homeCore).sealed && s1.portOpen t (idx3 (v 0)) &&
      (s1.port t (idx3 (v 0))).vals == [⟨some 5, 0⟩, ⟨some 6, 0⟩]) = true ∧
    meets (.qpeek 12 0) (one man) (fun _ s1 t v => !(s1.core t.homeCore).sealed && s1.portOpen t (idx3 (v 0)) && (s1.port t (idx3 (v 0))).vals.isEmpty) = true ∧
    meets (.qpeek 12 0) ((one man).modPort 0 0 fun p => { p with owner := some 9 })
      (fun _ s1 t v => !(s1.core t.homeCore).sealed && !s1.portOpen t (idx3 (v 0))) = true ∧
    meets (.qpeek 12 0) ((one man).modCore 0 fun k => { k with sealed := true }) (fun _ s1 t _ => (s1.core t.homeCore).sealed) = true ∧
    meets (.qstat 12 0) porter (fun _ s1 t v => (s1.port t (idx3 (v 0))).owner == some t.group) = true ∧
    meets (.qstat 12 0) (one man) (fun _ s1 t v => (s1.port t (idx3 (v 0))).owner != some t.group) = true := by decide +kernel

/-- A strand whose g2 and g3 hold 3 and 1, for the binding of g19 to port 1; that port holds `n` values. -/
def binder (n : Nat) (t : Strand := man) : State :=
  (one { t with gr := vset (vset man.gr 2 3) 3 1 }).modPort 0 1 fun p => { p with owner := some 0, vals := List.replicate n ⟨some 5, 0⟩ }

/-- What `qbind g19, g2, g3` makes of the port's room for its own result. -/
def bindsTo (s : State) (p : State → Strand → Option Nat → Bool) : Bool :=
  meets (.qbind 19 2 3) s fun s s1 t v => s1.portOpen t (idx3 (v 3)) && (s1.cur == s.cur) &&
    let x := s1.bindField s1.cur t (idx3 (v 2)) (idx3 (v 3))
    p x.1 x.2 (x.1.pushBlocked s.cur x.2 [19])

theorem witness_bindings :
    bindsTo (binder 15) (fun _ u b => b == none && u.bound? 19 == some 1 && !u.seqMem && u.ops.isEmpty) = true ∧
    bindsTo (binder 16) (fun _ _ b => b == some 1) = true ∧
    bindsTo (binder 0 busy) (fun _ u b => b == none && u.bound? 19 == some 1 && !u.ops.isEmpty) = true ∧
    meets (.qunbind 12 13) (one man) (fun s s1 t v =>
      (s1.unbindField s1.cur t (idx3 (v 13))).1.pushBlocked s.cur (s1.unbindField s1.cur t (idx3 (v 13))).2 [12] == none && t.bound? 12 == none) = true ∧
    (porter.portOpen { man with loc := .slot 0 0 } 0 = true ∧ (porter.port { man with loc := .slot 0 0 } 0).vals.length ≤ 16 ∧
      porter.bindings 0 0 < 256) := by decide +kernel

theorem witness_last_unbinding : qBound (qField (8 : BitVec 32) 0) = true ∧
    (porter.port { man with loc := .slot 0 0 } (qPort (qField (8 : BitVec 32) 0))).owner = some 0 ∧
    (porter.setStrand 0 (porter.unbindField 0 { man with qbind := 8, loc := .slot 0 0 } 0).2).portBound 0 0 0 = false := by decide +kernel

/-- A strand that has been parked on the push of port 3 for 4,096 cycles. -/
def wedge : State := { one { man with st := .parked (.push 3), parkedAt := 4 } with cycle := 4100 }

theorem witness_wedged : wedge.wedged 0 = true ∧ (one man).wedged 0 = false ∧
    (oldest ((wedge.liveOn 0).filter fun x => (x.2.portWait.map fun w => w.1) = some true)).map (fun x => (x.1, x.2.st)) =
      some (0, .parked (.push 3)) := by decide +kernel

/-- A strand whose g2 and g3 hold an offset and a descriptor: 0x80 bytes from 0x40 on, all rights; with SEL in the second. -/
def subber (sel : Bool) : State :=
  let d : Word := BitVec.ofNat 64 (0x80 + 31 * 2 ^ 43 + (if sel then 2 ^ 56 else 0))
  let s := one { man with gr := vset (vset man.gr 2 0x40) 3 d }
  { s with groups := [(0, { w := 1, h := 1 })] }

theorem witness_handles :
    meets (.hsub 20 1 1) (subber false) (fun _ s1 t v => match subHandle (t.handle 1) (v ((1 : BitVec 4).setWidth 5 <<< 1))
        (v (((1 : BitVec 4).setWidth 5 <<< 1) ||| 1))
        (fun c => if c < (s1.group t.group).w * (s1.group t.group).h then some (s1.rectCore t c) else none) with
      | .ok _ => true
      | .error _ => false) = true ∧
    meets (.hsub 20 4 1) (subber true) (fun _ s1 t v => match subHandle (t.handle 4) (v ((1 : BitVec 4).setWidth 5 <<< 1))
        (v (((1 : BitVec 4).setWidth 5 <<< 1) ||| 1))
        (fun c => if c < (s1.group t.group).w * (s1.group t.group).h then some (s1.rectCore t c) else none) with
      | .ok _ => false
      | .error _ => true) = true ∧
    ((one man).issued (.hrd 12 1 2)).isSome ∧ ((one man).issued (.hclr 20)).isSome ∧
    ({} : Handle).isEmpty = true ∧ (hd 1 0 0x40000 15).isEmpty = false ∧ (0x3FFFF + 1 ≤ (hd 1 0 0x40000 15).bound) ∧
    (0x40000 + 1 > (hd 1 0 0x40000 15).bound) ∧ (hd 5 0 0x40000 15).space = 5 ∧
    (({ man with home := some (5, 3) } : Strand).home = some (5, 3) ∧ (hd 0 0 0x1000 7).isEmpty = false ∧ (hd 0 0 0x1000 7).space = 0 ∧
      (hd 1 0 0x40000 15).space = 1 ∧ 5 < 2 ^ 16 ∧ man.home = none) := by decide +kernel

theorem witness_waits_and_fences :
    meets (.wait 0 15 0 0 0 0) (one { man with outst := [(4, .st)] }) (fun _ _ t _ =>
      [(Ctr.ld, (0 : BitVec 4)), (.cp, 0), (.mx, 0), (.dx, 0), (.cl, 0)].all fun x =>
        decide ((t.outst.countP fun y => y.2 = x.1) ≤ x.2.toNat)) = true ∧
    meets (.wait 15 0 15 15 15 15) (one { man with outst := [(4, .st)] }) (fun _ _ t _ =>
      decide (0 < (t.outst.countP fun y => y.2 = Ctr.st))) = true ∧
    meets (.xfence 16 8 1) (one { man with outst := [(4, .st)] }) (fun _ _ t _ =>
      t.outst.any fun x => (16 : BitVec 6).getLsbD x.2.bit) = true ∧
    meets (.xfence 16 8 1) (one man) (fun _ _ t _ => t.outst.all fun x => !(16 : BitVec 6).getLsbD x.2.bit) = true := by decide +kernel

/-- A strand with a synchronising store that is not yet performed, and one with a command that waits. -/
def syncing : Strand := { man with ops := [{ sn := 4, kind := .fill (scratchKey 0 0) 5, pc := 0 }] }
def deferred (i : Instr) : Strand := { man with late := [{ sn := 20, instr := i, after := [], dest := .gpr 12 }] }

/-- A copy of strand 0 in the queue. -/
def cmd0 : CopyCmd :=
  { sn := 9, sid := 0, pc := 0, hint := false, regs := man.resetStaged.cp, src := {}, dst := {}, cw := {}, slotDst := none, srcFmt := 15
    srcSl := false, dstFmt := 15, after := [], fol := none, folSn := 10 }

/-- The copy stands in the queue of core 0, and a command that answers a word waits. -/
def deferring (i : Instr) : State := (one (deferred i)).modCore 0 fun k => { k with copyq := [cmd0] }

theorem witness_late_commands :
    (∀ i ∈ [Instr.cpcancel 12 0, .cpstat 12 0, .dstat 12 0, .wstat 1 12 0, .clstat 1 12 0, .dflush 12 0], meets i (one syncing)
      (fun _ _ t _ => t.mustDefer i false) = true) ∧
    meets (.cpstat 12 1) (one busy) (fun _ _ t _ => t.mustDefer (.cpstat 12 1) true && !t.mustDefer (.cpstat 12 0) false) = true ∧
    meets (.cpcancel 13 0) (one (deferred (.cpcancel 12 0))) (fun _ _ t _ => t.mustDefer (.cpcancel 13 0) false) = true ∧
    (4 ∈ (busy.ops.map fun o => o.sn)) ∧ man.bound? 12 = none ∧
    (∀ i ∈ [Instr.cpcancel 12 1, .cpstat 12 1, .dstat 12 1, .wstat 1 12 1, .clstat 1 12 1, .dflush 12 1],
      ((one (deferred i)).lateReady 0 (deferred i)).isSome = true) ∧
    ((one man).core 0).cancellable 0 (some 20) = [] ∧
    ((deferring (.cpcancel 12 0)).core 0).cancellable 0 (some 20) ≠ [] ∧
    ({ deferring (.cpstat 12 0) with agenda := [.begin 0] } : State).agenda = [.begin 0] := by decide +kernel

theorem witness_trap_entry : man.th = false ∧ man.tvec ≠ 0 ∧ ({ man with tvec := 0 } : Strand).tvec = 0 ∧
    ((one man).die 0).frecs.length < 64 ∧ ((one man).strand? 0).isSome ∧
    ¬ (((one man).modDie 0 fun x => { x with frecs := List.replicate 64 ⟨none, 0, 0, 0, 0⟩ }).die 0).frecs.length < 64 ∧
    (((one { man with claim := some (.pop 7) }).strand? 0).map fun t => t.claim) = some (some (.pop 7)) ∧
    (waiting.strand? 1).map (fun t => t.st) ≠ some (.parked (.pop 7)) := by decide +kernel

theorem witness_trap_forms : ((one man).issued (.trap 5)).isSome ∧ ((one man).issued (.brk 5)).isSome ∧
    ((one man).issued (.illegalWord 0)).isSome ∧ ((one man).issued .fetchBound).isSome := by decide +kernel

theorem witness_trap_return : ((one { man with th := true }).issued .eret).isSome ∧ ((one man).issued .eret).isSome ∧
    ((one { man with wake := true }).issued .idle).isSome ∧ ((one man).issued (.tmr 12 13)).isSome ∧
    ((one man).issued (.prio 12 13)).isSome := by decide +kernel

theorem witness_timer : ({ man with tmrDue := true, st := .idle, loc := .slot 0 0 } : Strand).place?.isSome ∧
    man.opFault = none ∧ man.seqFault = none ∧ man.hold = none ∧ man.susp = none ∧ man.mig = none ∧ man.seqTrap = false := by decide +kernel

theorem witness_system_registers :
    meets (.sysrd 12 0x10) (one { man with sup := true }) (fun _ _ t _ => t.sup) = true ∧
    meets (.sysrd 12 5) (one man) (fun _ _ t _ => t.seq.isEmpty) = true ∧
    meets (.sysrd 12 5) (queued { instr := .vadd 1 2 3 .s32, pc := 0 }) (fun _ _ t _ => !t.seq.isEmpty) = true ∧
    meets (.syswrFrm 12) (queued { instr := .vadd 1 2 3 .s32, pc := 0 }) (fun _ _ t _ => !t.seq.isEmpty) = true ∧
    ((one man).issued (.syswr 12 1)).isSome ∧ ((one man).issued (.syswrTmr 12)).isSome ∧ ((one man).issued (.syswrPrio 12)).isSome ∧
    ((one man).issued (.syswrKhashKbins 12 10)).isSome ∧ ((one { man with sup := true }).issued (.syswrSlottab 12 0x14)).isSome := by
  decide

/-- A supervisor strand beside strand 1 in slot 1. -/
def warden : State := { one { man with sup := true, gr := vset man.gr 12 1 } with
  strands := [(0, { man with sup := true, gr := vset man.gr 12 1, loc := .slot 0 0 }), (1, { man with loc := .slot 0 1 })]
  cores := [(0, { slots := vset (vset (Vector.replicate 8 Slot.free) 0 (.live 0)) 1 (.live 1) })] }

theorem witness_supervisor_writes :
    ((one man).issued (.syswrQbind 12)).isSome ∧
    meets (.syswrQring 12 0x15) warden (fun _ s1 t _ => t.sup && decide ((s1.cluster (clusterOf t.core)).spill = .idle) &&
      decide ((s1.cluster (clusterOf t.core)).qrlim = 0)) = true ∧
    meets (.syswrQring 12 0x16) (warden.modCluster 0 fun x => { x with spill := .spill }) (fun _ s1 t _ =>
      t.sup && decide ((s1.cluster (clusterOf t.core)).spill ≠ .idle)) = true ∧
    meets (.swapreq 12) warden (fun s s1 t v => t.sup && vget (s1.core t.core).slots (bits (v 12) 0 3) .free == .live 1 &&
      (s1.strand? 1).any fun u => u.place?.isSome && u.opFault.isNone && u.seqFault.isNone && u.partner != some s.cur) = true ∧
    meets (.swapreq 0) warden (fun _ s1 t v => vget (s1.core t.core).slots (bits (v 12) 0 3) .free == .live 1) = true ∧
    meets (.swapreq 2) (one { man with sup := true, gr := vset man.gr 2 7 }) (fun _ s1 t v =>
      vget (s1.core t.core).slots (bits (v 2) 0 3) .free == .free) = true ∧
    ((one man).issued (.illegalWord ((encode (.sysrd 12 0x10)).getD 0))).isSome ∧ man.sup = false ∧ sysRegSup 0x3F = true := by decide +kernel

theorem witness_swap_requests :
    (vget (warden.core 0).slots 1 .free = .live 1 ∧ vget (warden.core 0).slots 2 .free = .free ∧ (warden.core 0).swapReq = [] ∧
      (warden.strand? 1).any (fun u => u.loc == .slot 0 1 && u.partner == none && u.claim == none && u.opFault == none && u.seqFault == none &&
        u.mig == none) = true ∧ (warden.core 0).swapBusy = false) ∧
    ((warden.modStrand 1 fun u => { u with opFault := some ⟨0, 4, 9, 0, 7⟩ }).strand? 1).any (fun u => u.loc == .slot 0 1 && u.opFault.isSome) = true ∧
    vget ((warden.modCore 0 fun k => { k with slots := vset k.slots 2 (.enter 7) }).core 0).slots 2 .free = .enter 7 := by decide +kernel

/-! ### Witnesses: pre-emption, task records, barriers -/

/-- With a page of the device's own address space mapped, at 0x20000. -/
def sysMapped (s : State) : State := mapPage 0 0x20000 0x20000 s

/-- A STRAND record for any core of its cluster, and with a KIND. -/
def rec (kind : Nat := 0) : TaskRec := vset (vset (Vector.replicate 8 0) 6 (BitVec.ofNat 64 (kind * 2 ^ 32 + 3))) 7 0x2000000

/-- Every slot of core 0 holds a live strand, one of them parked for long, and a record waits. -/
def crowded : State :=
  { one { man with st := .parked (.push 3) } with
    cycle := 1000
    cores := [(0, { slots := Vector.replicate 8 (.live 0), parkswap := 1 })]
    clusters := [(0, { bank := [{ task := rec, id := 0 }] })] }

/-- Strand 0 leaves slot 0 of core 0. -/
def leaving : State :=
  { one man with
    strands := [(0, { man with loc := .swapOut 0 0 })]
    cores := [(0, { slots := vset (Vector.replicate 8 .free) 0 (.swap 0), ctxbase := 0x20000 })] }

/-- The cache of core 0 is full, and a strand leaves its slot. -/
def cached8 : State :=
  { one man with
    strands := [(0, { man with loc := .cached 0 })]
    cores := [(0, { slots := vset (Vector.replicate 8 .free) 0 (.swap 9), cache := [0, 1, 2, 3, 4, 5, 6, 7], ctxbase := 0x20000 })] }

/-- A strand that may return to core 0, whose slots are free, and where its context is. -/
def returning (l : StrandLoc) : State := sysMapped
  { one man with
    strands := [(0, { man with loc := l })]
    cores := [(0, { cache := if l = .cached 0 then [0] else [], ctxbase := 0x20000 })] }

theorem witness_preemption :
    ((crowded.core 0).parkswap ≠ 0 ∧ crowded.hasFree 0 = false ∧ crowded.taskWaits 0 = true ∧ crowded.parkedLong 0 = true ∧
      (victimOf (crowded.parkVictims 0)).isSome) ∧ (cached8.maySwap 0 = false ∧ warden.maySwap 1 = true) ∧
    (one man).hasFree 0 = true ∧
    (vget (leaving.core 0).slots 0 .free = .swap 0 ∧ (leaving.strand? 0).map (fun t => (t.loc, t.quiet)) = some (.swapOut 0 0, true) ∧
      (leaving.core 0).cache.length < 8 ∧ ((sysMapped leaving).translate 0 0 0x21000 accW).toOption.isSome) ∧
    ((cached8.core 0).cache.length = 8 ∧ vget (cached8.core 0).slots 0 .free = .swap 9 ∧
      ((cached8.core 0).cache.find? fun i => ((cached8.strand? i).map Strand.evictable).getD false) = some 0) ∧
    (((returning (.cached 0)).core 0).entering = none ∧ ((returning (.cached 0)).core 0).freeSlot = some 0 ∧
      ((returning (.cached 0)).core 0).swapBusy = false ∧
      (((returning (.cached 0)).core 0).cache.find? fun i => (((returning (.cached 0)).strand? i).map Strand.mayReturn).getD false) = some 0) ∧
    ((((returning (.stored 0)).core 0).cache.find? fun i => (((returning (.stored 0)).strand? i).map Strand.mayReturn).getD false) = none ∧
      ((returning (.stored 0)).strands.find? fun y => decide (y.2.loc = .stored 0) && y.2.mayReturn).map (fun y => y.1) = some 0 ∧
      ((returning (.stored 0)).core 0).freeSlot = some 0) ∧
    (((returning (.swapIn 0 0)).modCore 0 fun k => { k with slots := vset k.slots 0 (.enter 0) }).core 0).entering = some (0, 0) := by decide +kernel

/-- The first and the last byte of the 4,096 that a return reads, which lie in one page. -/
theorem witness_contexts_are_read : (∀ a ∈ [0x20000, 0x20FFF], ((returning (.stored 0)).translate 0 0 a accR).toOption.isSome) ∧
    ∀ a ∈ [0x21000, 0x21FFF], ((returning (.swapIn 0 0)).translate 0 0 a accR).toOption.isSome := by decide +kernel

/-- A strand whose g2 names offset 64 of h1, for `spawnd`. -/
def spawner : State := one { man with gr := vset man.gr 2 (BitVec.ofNat 64 (2 ^ 40 + 64)) }

theorem witness_task_records :
    meets (.spawn 12 1 2) (one man) (fun _ s1 t v => recordCheck t (v 1) rR == none && t.ops.isEmpty &&
      (s1.readSpan (dieOf t.core) (t.regionAt 0) (v 1).toNat 64).toOption.isSome) = true ∧
    meets (.spawnd 12 1 2) spawner (fun _ s1 t v =>
      accessCheck (t.regionAt (bits (v 2) 40 5)) (bits (v 2) 40 5) (v 2 &&& 0xFFFFFFFFFF) 1 rR .plain == none &&
      recordCheck t (v 1) rR == none && t.ops.isEmpty &&
      (match s1.ownerCore t (t.regionAt (bits (v 2) 40 5)) (v 2 &&& 0xFFFFFFFFFF).toNat with
       | .ok (_, s2) => (s2.readSpan (dieOf t.core) (t.regionAt 0) (v 1).toNat 64).toOption.isSome
       | .error _ => false)) = true ∧
    meets (.tqpush 12 1) (one man) (fun _ _ t v => recordCheck t (v 1) rR == none && t.ops.isEmpty) = true ∧
    meets (.tqpop 12 1) (one man) (fun _ _ t v => recordCheck t (v 1) rW == none) = true ∧
    meets (.tqpop 12 1) (one { man with gr := vset man.gr 1 8 }) (fun _ _ t v => (recordCheck t (v 1) rW).isSome) = true ∧
    meets (.spawn 12 1 2) (one busy) (fun _ _ t v => recordCheck t (v 1) rR == none && !t.ops.isEmpty) = true := by decide +kernel

/-- Strand 1, in slot 1 of core 0, sends a WAKE record to strand 0, which is IDLE in slot 0. -/
def waker : State :=
  ({ one { man with st := .idle } with ua := 1 } : State).setStrand 1
    { man with loc := .slot 0 1, ops := [{ sn := 7, pc := 0, kind := .push (rec 2) none }] }

theorem witness_records_arrive :
    (rec.kind ≠ 2 ∧ (one man).refusal? rec none = none ∧ (one man).pkgUp (rec.core / 2048) = true ∧
      ((one man).subring 0 rec.prio).2 = 0 ∧ ((one man).cluster 0).bank.length < 4096) ∧
    (lost.refusal? (vset (rec 2) 7 0x100) none).isSome ∧
    ((rec 2).kind = 2 ∧ waker.refusal? (rec 2) none = none ∧ waker.pkgUp ((rec 2).core / 2048) = true ∧
      vget (waker.core (rec 2).core).slots (bits (rec 2).loc 0 3) .free = .live 0 ∧ 0 ≠ waker.ua ∧ (rec 2).asid = 3 ∧
      (waker.strand? 0).map (fun t => (t.asid, t.st, t.place?.isSome)) = some (3, .idle, true) ∧
      (waker.strand? 1).map (fun t => (t.opFault, t.pair)) = some (none, false) ∧ TaskRec.asid (vset (rec 2) 6 0x200000004) ≠ 3) ∧
    vget (leaving.core 1).slots (bits (rec 2).loc 0 3) .free = .free ∧
    (vget (leaving.core 0).slots 0 .free = .swap 0 ∧ (leaving.strand? 0).any (fun t => t.loc == .swapOut 0 0 && t.asid == (rec 2).asid) = true) ∧
    (clusterOf rec.core ≠ 1 ∧ TaskRec.any (vset rec 7 0) = false) ∧ ({ one man with route := Vector.replicate 32 0xFF } : State).inDomain 1 = false ∧ (one man).inDomain 0 = true ∧
    ((rec 3).bad = true ∧ rec.bad = false ∧ (lost.core 1).sealed = true ∧ TaskRec.core (vset rec 7 0x100) = 1) ∧
    ((doing (.push rec none)).strand? 0).map (fun t => (t.opFault, t.pair)) = some (none, false) := by decide +kernel

/-- The bank of cluster 0 holds a SOFT record of the strand's address space, an orphan, and one that is to be spilled. -/
def banked : State := (one { man with sup := true }).modCluster 0 fun x =>
  { x with bank := [{ task := rec 1, id := 0 }, { task := rec, id := 1, orphan := true }], qrlim := 4, spill := .spill }

theorem witness_bank_removals :
    (one man).popChoice man 0 = none ∧
    (banked.popChoice man 0).map (fun x => x.2) = some 1 ∧ (banked.popChoice { man with sup := true } 0).map (fun x => x.2) = some 2 ∧
    (banked.writeSpan 0 (man.regionAt 0) 64 (rec 1).bytes).toOption.isSome ∧
    ((one man).cluster 0).spill ≠ .spill ∧ (banked.cluster 0).spill = .spill ∧ banked.spillLevel 0 = some 0 ∧
    ((one man).cluster 0).spill = .idle ∧ (one man).refillDue 0 = false := by decide +kernel

/-- A sub-ring of cluster 0 holds one record. -/
def spilled : State :=
  let s := sysMapped ((one man).modCluster 0 fun x => { x with qrlim := 4, qring := 0x20000 })
  s.putSubring 0 0 0 1

theorem witness_refill : (spilled.cluster 0).spill ≠ .spill ∧ (spilled.cluster 0).bank.length < 3840 ∧
    spilled.refillLevel 0 = some 0 := by decide +kernel

theorem witness_records_spill :
    (0 < (spilled.subring 0 rec.prio).2 ∧ (spilled.subring 0 rec.prio).2 < (spilled.cluster 0).qrlim.toNat) ∧
    ((spilled.putSubring 0 0 0 4).cluster 0).qrlim.toNat ≤
      ((spilled.putSubring 0 0 0 4).subring 0 rec.prio).2 := by decide +kernel

set_option maxRecDepth 20000 in
theorem witness_bank_is_full : 4096 ≤ (List.replicate 4096 ({ task := rec, id := 0 } : BankRec)).length ∧
    ((one man).subring 0 rec.prio).2 = 0 := by decide +kernel

/-- A STRAND record without a handle table waits for a core. -/
def ready (htab : Nat) : State := (one man).modCluster 0 fun x =>
  { x with bank := [{ task := vset rec 6 (BitVec.ofNat 64 (htab * 2 ^ 16 + 3)), id := 7 }] }

theorem witness_dispatcher :
    bestRecord (fun r => (one man).canStart 0 r) ((one man).cluster 0).bank = none ∧
    ((bestRecord (fun r => (ready 0xFFFF).canStart 0 r) ((ready 0xFFFF).cluster (clusterOf 0)).bank).any fun x =>
      ((ready 0xFFFF).taskHandles 0 ((ready 0xFFFF).asidTenant x.task.asid) (bits x.task.ctl 16 16)).toOption.isSome) = true ∧
    ((bestRecord (fun r => (ready 0).canStart 0 r) ((ready 0).cluster (clusterOf 0)).bank).any fun x =>
      ((ready 0).taskHandles 0 ((ready 0).asidTenant x.task.asid) (bits x.task.ctl 16 16)).toOption.isNone) = true ∧
    (one man).recRoom 0 = true ∧
    (((one man).fits 0 rec.need).isSome ∧ ((one man).core 0).freeSlot = some 1 ∧ rec.ctl.getLsbD 15 = false ∧
      (TaskRec.ctl (vset rec 6 0x8003)).getLsbD 15 = true) := by decide +kernel

theorem witness_quit_and_yield :
    meets .quit (one man) (fun _ _ t _ => t.outst.isEmpty) = true ∧
    meets .quit (one { man with outst := [(4, .st)] }) (fun _ _ t _ => !t.outst.isEmpty) = true ∧
    meets (.yield 12) { crowded with strands := [(0, { man with loc := .slot 0 0 })] } (fun _ s1 t _ => !s1.hasFree t.core &&
      (s1.cluster (clusterOf t.core)).bank.any fun r => s1.mayStart t.core r && decide (r.task.prio ≤ t.prioP.toNat)) = true ∧
    meets (.yield 12) (one man) (fun _ s1 t _ => s1.hasFree t.core) = true := by decide +kernel

/-- The strand's group holds barrier register 1 of core 0. -/
def barred (r : BarReg) (t : Strand := man) : State :=
  let s := one t
  { s with groups := [(0, { w := 1, h := 1, s := 1 })] }.modCore 0 fun k => { k with bars := vset k.bars 1 { r with held := some 0 } }

theorem witness_barriers :
    meets (.barv 12 1) (one man) (fun _ s1 t _ => (s1.barReg t 1).held != some t.group) = true ∧
    meets (.bto 12 13 1) (barred {}) (fun _ s1 t _ => (s1.barReg t 1).held == some t.group) = true ∧
    meets (.barv 12 1) (barred { sealed := true }) (fun _ s1 t _ => (s1.barReg t 1).sealed) = true ∧
    meets (.barv 12 1) (barred {}) (fun _ s1 t _ => !(s1.barReg t 1).sealed && !(s1.barReg t 1).mask.getLsbD t.rank) = true ∧
    meets (.barv 12 1) (barred { mask := 1, arrived := 1 }) (fun _ s1 t _ =>
      (s1.barReg t 1).mask.getLsbD t.rank && (s1.barReg t 1).arrived.getLsbD t.rank) = true ∧
    meets (.barw 12 1) (barred { mask := 1 }) (fun _ s1 t _ => (s1.barReg t 1).ended? t.rank == none && !(s1.barReg t 1).sealed &&
      (s1.barReg t 1).mask.getLsbD t.rank && !(s1.barReg t 1).arrived.getLsbD t.rank) = true ∧
    meets (.bwait 12 13 1) (barred { waits := [(0, { ph := 0, tmo := 0, at_ := 0, status := some 5 })] }) (fun _ s1 t _ =>
      (s1.barReg t 1).ended? t.rank == some 5) = true ∧
    meets (.bwait 12 13 1) (barred { ph := 1 }) (fun _ s1 t v => (s1.barReg t 1).ended? t.rank == none &&
      (s1.barReg t 1).ph != (v 13).extractLsb' 16 16) = true ∧
    meets (.bwait 12 13 1) (barred {}) (fun _ s1 t v => (s1.barReg t 1).ph == (v 13).extractLsb' 16 16) = true ∧
    meets (.bset 12 0 1 1) (barred { arrived := 1 }) (fun _ s1 t _ => (s1.barReg t 1).arrived != 0) = true ∧
    meets (.bset 12 13 1 1) (barred {}) (fun _ s1 t v => (s1.barReg t 1).arrived == 0 && (s1.barReg t 1).waits.isEmpty &&
      decide (bits (v 13) 0 4 + bits (v 13) 8 4 ≥ (s1.group t.group).w)) = true ∧
    meets (.bset 12 0 0 1) (barred {}) (fun _ s1 t v => decide (bits (v 0) 0 4 + bits (v 0) 8 4 < (s1.group t.group).w ∧
      bits (v 0) 4 4 + bits (v 0) 12 4 < (s1.group t.group).h ∧ bits (v 0) 0 8 < 2 ^ (s1.group t.group).s ∧
      t.homeCore = s1.rectCore t 0)) = true := by decide +kernel

/-- A phase of register 1 that is complete, at a cycle. -/
def due (n : Nat) : State := { barred { mask := 1, recorded := 1 } with cycle := n }

/-- A strand that waits at register 1 with a time-out of nine cycles, at a cycle. -/
def timing (n : Nat) : State :=
  { barred { mask := 1, waits := [(0, { ph := 0, tmo := 9, at_ := 0, status := none })] } { man with st := .parked (.barrier 1) } with cycle := n }

theorem witness_barrier_events :
    ((one { man with arrivals := [{ home := 0, b := 1, rank := 0, after := [], since := 0 }] }).strand? 0).any (fun t =>
      !t.arrivals.isEmpty && t.st != .ended) = true ∧
    (4 ∈ ([4] : List Nat) ∧ 4 ∈ busy.unperformed) ∧
    ((due 2).barRect 0 1 = [0] ∧ ((due 2).core 0).sealed = false ∧ (vget ((due 2).core 0).bars 1 {}).recAt + 0 + 2 ≤ (due 2).cycle ∧
      (vget ((due 2).core 0).bars 1 {}).recorded ≠ 0 ∧ (1 : BitVec 8) &&& 1 = 1 ∧ (due 2).releaseDue 0 1 = true) ∧
    (0 ∈ (barred { mask := 1 }).barRect 0 1 ∧ ((barred { mask := 1 }).core 0).sealed = false ∧ (1 : BitVec 8) &&& 0 ≠ 1) ∧
    (Tab.get? (vget ((timing 9).core 0).bars 1 {}).waits 0 = some { ph := 0, tmo := 9, at_ := 0, status := none } ∧
      (timing 9).releaseDue 0 1 = false ∧ (vget ((timing 9).core 0).bars 1 {}).sealDue = false ∧ 0 + 9 ≤ (timing 9).cycle ∧
      (timing 8).cycle < 0 + 9 ∧ ((timing 9).strand? 0).any (fun t => t.st == .parked (.barrier 1) && t.place?.isSome) = true) ∧
    (vget ((barred { sealDue := true }).core 0).bars 1 {}).sealDue = true ∧
    (vget ((barred {}).core 0).bars 1 {}).sealDue = false := by decide +kernel

/-! ### Witnesses: launches and skeins -/

/-- A header that is not refused: one group of one strand, an image of one word, no completion word. -/
def hdr1 : Header := vset (vset (Vector.replicate 16 0) 1 (BitVec.ofNat 64 (4 * 2 ^ 32))) 14 (BitVec.ofNat 64 (2 ^ 63))

/-- Tenant 2 has one chain, at 0x21000, with a patch of 8 bytes. -/
def chained : State :=
  let s := sysMapped { one man with tentab := 0x1FE00 }
  ((s.putSysDword 0x20010 (BitVec.ofNat 64 (2 ^ 32))).putSysDword 0x20018 0x21000).putSysDword 0x21018 (BitVec.ofNat 64 (2 ^ 34 + 8))

theorem witness_launch_instructions :
    meets (.launch 12 1 1) (one man) (fun _ s1 t v => regionCheck (t.regionAt 1) 1 (v 1).toNat 128 rR == none &&
      decide ((v 1).toNat % 8 = 0) && t.ops.isEmpty && (match s1.readSpan (dieOf t.core) (t.regionAt 1) (v 1).toNat 128 with
        | .ok (b, _) => !(headerOf b).tiled
        | .error _ => false)) = true ∧
    meets (.launch 12 7 1) (one man) (fun _ _ t v => (regionCheck (t.regionAt 7) 7 (v 1).toNat 128 rR).isSome) = true ∧
    meets (.launch 12 1 1) (one { man with gr := vset man.gr 1 4 }) (fun _ _ t v =>
      regionCheck (t.regionAt 1) 1 (v 1).toNat 128 rR == none && decide ((v 1).toNat % 8 ≠ 0)) = true ∧
    meets (.chplay 12 1 1) (one man) (fun _ s1 t v => s1.chainAt t.tenant.toNat (v 12).toNat == none && t.ops.isEmpty) = true ∧
    meets (.chplay 0 1 1) chained (fun _ s1 t v => s1.chainAt t.tenant.toNat (v 0).toNat == some 0x21000 &&
      s1.chainPsize 0x21000 == 8 && regionCheck (t.regionAt 1) 1 (v 1).toNat 8 rR == none &&
      (s1.readSpan (dieOf t.core) (t.regionAt 1) (v 1).toNat 8).toOption.isSome) = true ∧
    meets .trig (one { man with lnch := true }) (fun _ _ t _ => t.lnch) = true ∧
    meets .trig (one man) (fun _ _ t _ => !t.lnch) = true := by decide +kernel

/-- The header of a tiled launch lies at offset 64 of h1, and two tile records behind it. -/
def tiledAt : State :=
  { one { man with gr := vset man.gr 12 2 } with power := .run }.writeBytes (scratchKey 0 64)
    (wordsBytes (vset hdr1 11 (BitVec.ofNat 64 (2 ^ 31))).toList ++ wordsBytes [0x100000000, 0, 0x100000000, 5])

set_option maxRecDepth 4000 in
theorem witness_tiled_launch : meets (.launch 12 1 1) tiledAt (fun _ s1 t v =>
    regionCheck (t.regionAt 1) 1 (v 1).toNat 128 rR == none && decide ((v 1).toNat % 8 = 0) && t.ops.isEmpty &&
    decide (1 ≤ (v 12).toNat ∧ (v 12).toNat ≤ 4096) && regionCheck (t.regionAt 1) 1 ((v 1).toNat + 0x80) (16 * (v 12).toNat) rR == none &&
    (match s1.readSpan (dieOf t.core) (t.regionAt 1) (v 1).toNat 128 with
      | .ok (b, s2) => (headerOf b).tiled && (s2.readSpan (dieOf t.core) (t.regionAt 1) ((v 1).toNat + 0x80) (16 * (v 12).toNat)).toOption.isSome
      | .error _ => false)) = true := by decide +kernel

/-- A strand whose message is `m`. -/
def sending (m : Msg) : State := one { man with msgs := [m] }

theorem witness_launch_accepted :
    ((sending (.launch 4 0 hdr1 [] [] false 0 (.gpr 12))).acceptLaunch hdr1 [] [] false (.strand 0) false true 2 0 false).toOption.map
      (fun x => x.1) = some 1 := by decide +kernel
theorem witness_launch_refused :
    ((one man).acceptLaunch (Vector.replicate 16 0) [] [] false (.strand 0) false true 2 0 false).toOption.isNone := by decide +kernel
theorem witness_launch_header :
    hdr1.refused (one man).tickp.toNat true = false ∧ hdr1.tiled = false ∧ hdr1.product hdr1.bnd 6 ≠ 0 ∧
    (one man).devFull 2 0 = false := by decide +kernel
set_option maxRecDepth 4000 in
theorem witness_launch_queue_full :
    ({ one man with queues := [⟨2, 0, List.replicate 64 (.launch 0)⟩] } : State).devFull 2 0 = true := by decide +kernel
theorem witness_descriptors :
     (one man).desc? none = none ∧ ({ one man with sysdesc := 0x20000 } : State).desc? none = some 0x20000 ∧
    ({ one man with sysdesc := 0x20000 } : State).descValid 0x20000 = false ∧ (one man).waitHdrs[0]? = none := by decide +kernel

/-- A tiled header, and tile records: a good one, one without rows, and one with too many. -/
def hdrT : Header := vset hdr1 11 (BitVec.ofNat 64 (2 ^ 31))
def tile1 (rows : BitVec 8) : Tile := { rows }

theorem witness_tiles : hdrT.refused 33333333 true = false ∧ hdrT.tiled = true ∧ hdrT.badTile [tile1 32, tile1 0] 0 = none ∧
    hdrT.badTile [tile1 32, tile1 33] 0 = some 1 := by decide +kernel

/-- The launch ring of tenant 2 at level 0 holds one header. -/
def hostRing (h : Header) : State :=
  let s := sysMapped { one man with tentab := 0x1FE00 }
  (((s.putSysDword 0x20000 0x8000000000000000).putSysDword 0x20020 (BitVec.ofNat 64 (2 ^ 60 + 0x28000))).putSysDword 0x20028
    (BitVec.ofNat 64 (2 ^ 32))).writeBytes 0x28000 (wordsBytes h.toList)

/-- What the launch of that header comes to. -/
def fromRing (s : State) : Except (Nat × Nat) (Nat × State) :=
  let r := s.ringAt 0x20020
  let h := headerOf (wordsBytes ((List.range 16).map fun j => s.sysDword (r.entry r.head 128 + 8 * j)))
  (s.putHead 0x20020 1).acceptLaunch (vset h 11 (putBits (putBits h.ctl 12 6 2) 30 1 0)) [] [] false .host true false 2 0 false

set_option maxRecDepth 4000 in
theorem witness_host_ring : (hostRing hdr1).desc? (some 2) = some 0x20000 ∧ (hostRing hdr1).descValid 0x20000 = true ∧
    ((hostRing hdr1).ringAt 0x20020).count = 1 ∧ (fromRing (hostRing hdr1)).toOption.isSome ∧
    (fromRing (hostRing (Vector.replicate 16 0))).toOption.isNone := by decide +kernel

/-- A dependant waits to be submitted. -/
def dependant : State :=
  { one man with waitHdrs := [{ hdr := hdr1, handles := [], src := .host, fromHost := false, tenant := 2, asid := 3, sup := false, die := 0 }] }

theorem witness_dependant : dependant.waitHdrs[0]?.any (fun w => w.src == .host &&
    (dependant.acceptLaunch w.hdr [] w.handles false .host w.fromHost true w.tenant.toNat (bits w.hdr.ctl 18 2) w.sup).toOption.isSome) = true := by
  decide +kernel

theorem witness_launch_host :
    ((one man).acceptLaunch hdr1 [] [] false .host true true 2 0 false).toOption.isSome := by decide +kernel

theorem witness_chain_replies :
    ((sending (.chplay 4 0 0 [] (.gpr 12))).strand? 0).map (fun t => t.pair) = some false ∧
    (sending (.chplay 4 0 0 [] (.gpr 12))).chainAt 2 0 = none ∧ chained.chainAt 2 0 = some 0x21000 ∧
    ((one { man with rets := [{ kind := .chain, sn := 4, dests := [(.gpr 12, 3)] }] }).strand? 0).map (fun t => t.rets.map fun r => r.kind) =
      some [.chain] := by decide +kernel

/-- A launch of two groups waits in the queue of tenant 2. -/
def queuedLaunch (h : Header) (n : Nat) : State :=
  { one man with queues := [⟨2, 0, [.launch 50]⟩]
                 launches := [(50, { hdr := h, tenant := 2, asid := 3, sup := false, prio := 0, src := .strand 0, fromHost := false
                                     total := n })] }

theorem witness_groups_are_placed :
    (one man).serve.isNone ∧
    (match (queuedLaunch hdr1 2).serve with
      | some (0, 2, .launch 50, .place _ _ none s1) => (Tab.get? s1.launches 50).any fun x => decide (x.next + 1 < x.total)
      | _ => false) = true ∧
    (match (queuedLaunch hdr1 1).serve with
      | some (0, 2, .launch 50, .place _ _ none s1) => (Tab.get? s1.launches 50).any fun x => decide (x.next + 1 ≥ x.total)
      | _ => false) = true := by decide +kernel

/-- A launch of a whole row of cores waits, and a less urgent strand stands in the only row that takes any. -/
def squeezed : State :=
  let s := queuedLaunch (vset hdr1 10 0x70F) 1
  { (s.modStrand 0 fun t => { t with prioP := 3 }) with
    cores := s.cores ++ (List.range 15).map fun y => (16 * (y + 1), ({ sealed := true } : Core))
    dies := [1, 2, 3, 4, 5, 6, 7].map fun d => (d, ({ parked := true } : Die)) }

set_option maxRecDepth 8000 in
theorem witness_launch_preempts : (match squeezed.serve with
    | some (0, 2, .launch 50, .preempt vs _) => vs == [0]
    | _ => false) = true := by decide +kernel

/-- A strand on its way to slot 0 of core 0. -/
def coming : State :=
  { one man with strands := [(0, { man with loc := .transit 0 0 })]
                 cores := [(0, { slots := vset (Vector.replicate 8 .free) 0 (.coming 0) })] }

theorem witness_strand_starts : coming.memWf ∧ (coming.strand? 0).map (fun t => (t.loc, t.mig)) = some (.transit 0 0, none) ∧
    vget (coming.core 0).slots 0 .free = .coming 0 ∧ (coming.group 0).restore = none := by decide +kernel

/-- A resumed group waits, whose skein is all zeros: one strand. -/
def queuedSkein : State := mapped { one man with queues := [⟨2, 0, [.resume 0x40000000 3 0x10000 0 false 0 0]⟩] }

theorem witness_resumed_group : (match queuedSkein.serve with
    | some (0, 2, .resume .., .place _ _ (some _) _) => true
    | _ => false) = true := by decide +kernel

/-- A launch with all its groups placed, one of which has ended or triggered. -/
def ending (ended trig : Bool) (next : Nat := 1) : State :=
  { one { man with trig := trig } with
    groups := [(7, { ended, strands := [some 0] })]
    launches := [(50, { hdr := hdr1, tenant := 2, asid := 3, sup := false, prio := 0, src := .host
                        fromHost := true, total := 1, next, groups := [7] })] }

theorem witness_launches_retire :
    (Tab.get? (ending true false).launches 50).map (fun l => (decide (l.total ≤ l.next), l.groups.all fun g =>
      ((ending true false).group g).ended)) = some (true, true) ∧
    (Tab.get? (ending false true 0).launches 50).map (fun l => decide (l.next < l.total)) = some true ∧
    ((ending false true).group 7).ended = false ∧ (ending false true).groupTriggered 7 = true ∧
    (ending false false).groupTriggered 7 = false := by decide +kernel

/-- A launch whose completion word is the word at offset 64 of its handle h4, in the chip scratchpad. -/
def wordLaunch : Launch :=
  { hdr := vset hdr1 14 (BitVec.ofNat 64 (4 * 2 ^ 40 + 64)), tenant := 2, asid := 3, sup := false, prio := 0, src := .host
    fromHost := true, handles := [hd 3 0 0x1000 15] }

theorem witness_completion_word : (vget hdr1 14 0).getLsbD 63 = true ∧ (vget wordLaunch.hdr 14 0).getLsbD 63 = false ∧
    accessCheck (({ loc := .slot 0 0, asid := 3 } : Strand).region (hd 3 0 0x1000 15)) 0 64 8 (rW ||| rA) .sync = none ∧
    (({ loc := .slot 0 0, asid := 3 } : Strand).region (hd 3 0 0x1000 15)).addr 64 = .phys (chipKey 0 64) := by decide +kernel

/-- The chain of tenant 2 has TICK set, and stands in STATE `n`; REENT with `r`. -/
def ticking (n : Nat) (r : Bool := false) : State :=
  ((chained.putSysDword 0x20000 0x8000000000000000).putSysDword 0x21018 (BitVec.ofNat 64 (2 ^ 34 + 2 ^ 33 + (if r then 2 ^ 32 else 0)))).putSysDword
    0x21020 (BitVec.ofNat 64 n)

theorem witness_chains_of_a_tick : (2, 0, 0x21000) ∈ (ticking 0).tickChains ∧ (ticking 0).chainState 0x21000 = 0 ∧
    (ticking 1).chainState 0x21000 = 1 ∧ 2 ≤ (ticking 2).chainState 0x21000 ∧
    ((ticking 2).sysDword 0x21018).getLsbD 32 = false ∧ ((ticking 1 true).sysDword 0x21018).getLsbD 32 = true := by decide +kernel

theorem witness_window_ends : (State.reset.winTicks + 1) % max 1 (State.reset.plWin.toNat) = 0 ∧
    (State.reset.winTicks + 1) % max 1 (2 : BitVec 8).toNat ≠ 0 := by decide +kernel

theorem witness_ticks : (one man).tickTime < (one man).tickp.toNat * 693 ∧ State.reset.power ≠ .run ∧ (one man).winColl = none ∧
    (one man).power = .run ∧ ({ one man with tickTime := 33333333 * 693 } : State).tickp.toNat * 693 ≤ 33333333 * 693 ∧
    ({ man with st := .idle, loc := .slot 0 0 } : Strand).place?.isSome := by decide +kernel

/-- The strand is the one of its group, of a rectangle of one core. -/
def grouped (f : Group → Group := fun g => g) (t : Strand := man) : State :=
  { one t with groups := [(0, f { w := 1, h := 1, s := 1, strands := [some 0] })] }

theorem witness_susp_and_sver :
    meets (.susp 12 4 1) (grouped) (fun _ s1 t v =>
      skeinCheck (t.regionAt 4) 4 (v 1) (s1.group t.group).shape.size (rR ||| rW ||| rS) == none && !t.pair && t.home.isNone &&
      ((s1.group t.group).allCores.all fun c => !(s1.core c).sealed) && (s1.group t.group).suspAddr == none) = true ∧
    meets (.susp 12 4 1) (grouped fun g => { g with suspAddr := some (0, 3) }) (fun _ s1 t v =>
      (s1.group t.group).suspAddr == some (0, 3) && decide (0 ≠ (t.regionAt 4).base + (v 1).toNat)) = true ∧
    meets (.susp 12 4 1) (grouped (fun g => g) { man with pair := true }) (fun _ s1 t v =>
      skeinCheck (t.regionAt 4) 4 (v 1) (s1.group t.group).shape.size (rR ||| rW ||| rS) == none && t.pair) = true ∧
    meets (.susp 12 4 1) (grouped fun g => { g with w := 2 } ) (fun _ s1 t _ => (s1.group t.group).allCores.contains 1) = true ∧
    meets (.susp 12 1 1) grouped (fun _ s1 t v =>
      (skeinCheck (t.regionAt 1) 1 (v 1) (s1.group t.group).shape.size (rR ||| rW ||| rS)).isSome) = true ∧
    meets (.sver 6 4 1) grouped (fun _ _ t v => skeinCheck (t.regionAt 4) 4 (v 1) 64 (rR ||| rS) == none) = true ∧
    meets (.sver 6 1 1) grouped (fun _ _ t v => (skeinCheck (t.regionAt 1) 1 (v 1) 64 (rR ||| rS)).isSome) = true := by decide +kernel

/-- A skein's header, at offset 64 of h4. -/
def skein (ver ctl : Nat) (foot : Nat := 0) : State :=
  (mapped (one { man with gr := vset (vset man.gr 12 (BitVec.ofNat 64 ver)) 13 0x10000 })).writeBytes 0x30040
    (SkHdr.bytes { ver := BitVec.ofNat 64 ver, ctl := BitVec.ofNat 64 ctl, foot := BitVec.ofNat 64 foot, widw := 0, orig := 0, ops := 0
                   img := 0, size := 64 })

/-- What a skein instruction through h4 reads at offset 64. -/
def headerIs (i : Instr) (s : State) (p : Strand → (GReg → Word) → SkHdr → Bool) : Bool :=
  meets i s fun _ s1 t v => skeinCheck (t.regionAt 4) 4 (v 1) 64 (rR ||| rW ||| rS) == none && !t.pair && t.ops.isEmpty &&
    match s1.readSpan (dieOf t.core) (t.regionAt 4) (v 1).toNat 64 with
    | .ok (b, _) => p t v (skHdr b)
    | .error _ => false

theorem witness_skein_held :
    headerIs (.sdrop 12 4 1) (skein 5 0) (fun t _ h => h.asid != t.asid) = true ∧
    headerIs (.sdrop 12 4 1) (skein 5 0x3002) (fun t _ h => h.asid == t.asid && !h.ctl.getLsbD 10) = true ∧
    headerIs (.sdrop 12 4 1) (skein 5 0x3401) (fun t _ h => h.asid == t.asid && h.ctl.getLsbD 10 && decide (h.state ≠ 2)) = true ∧
    headerIs (.sdrop 12 4 1) (skein 5 (0x3402 + 2 ^ 48)) (fun _ v h => h.ctl.getLsbD 10 && decide (h.state = 2) && h.ver == v 12 &&
      decide (0 < h.unres)) = true ∧
    headerIs (.sdrop 12 4 1) (skein 5 0x3402) (fun _ v h => h.ctl.getLsbD 10 && decide (h.state = 2) && h.ver == v 12 &&
      decide (h.unres = 0)) = true ∧
    headerIs (.resume 6 4 1) (skein 5 0x3101) (fun t _ h => h.asid == t.asid && h.ctl.getLsbD 8 && decide (h.state ≠ 2)) = true ∧
    headerIs (.resume 6 4 1) (skein 5 0x3102) (fun t v h => h.asid == t.asid && h.ctl.getLsbD 8 && decide (h.state = 2) &&
      h.ver == v 12 && decide ((v 1).toNat + h.bytesTotal ≤ (t.regionAt 4).bound) && (v 13).getLsbD 16) = true ∧
    headerIs (.sclone 6 4 1) (skein 0x1000 0x3201) (fun t v h => h.asid == t.asid && h.ctl.getLsbD 9 && decide (h.state ≠ 2) &&
      decide (((t.regionAt 4).base + bits (v 12) 0 40) % 64 = 0)) = true ∧
    headerIs (.sclone 6 4 1) (skein 0x1000 0x3202) (fun t v h => h.ctl.getLsbD 9 && decide (h.state = 2) && decide (h.unres = 0) &&
      decide (((t.regionAt 4).base + bits (v 12) 0 40) % 64 = 0 ∧ bits (v 12) 0 40 + h.bytesTotal ≤ (t.regionAt 4).bound ∧
        (v 1).toNat + h.bytesTotal ≤ bits (v 12) 0 40)) = true ∧
    meets (.sdrop 12 1 1) (one man) (fun _ _ t v => !t.pair && (skeinCheck (t.regionAt 1) 1 (v 1) 64 (rR ||| rW ||| rS)).isSome) = true ∧
    ((skein 5 0x3402).writeVirt 0 3 0x40000048 (wordBytes 0)).toOption.isSome ∧ man.bound? 12 = none := by decide +kernel

/-- A skein of `size` bytes at offset 64 of h4 that is SUSPENDED with all rights, and what g12 and g13 hold. -/
def whole (size a b : Nat) (ctl : Nat := 0x3702) : State :=
  (mapped (one { man with gr := vset (vset man.gr 12 (BitVec.ofNat 64 a)) 13 (BitVec.ofNat 64 b) })).writeBytes 0x30040
    (SkHdr.bytes { ver := 5, ctl := BitVec.ofNat 64 ctl, foot := 0, widw := 0, orig := 0, ops := 0, img := 0, size := BitVec.ofNat 64 size })

theorem witness_resume_answers :
    headerIs (.resume 6 4 1) (whole 64 5 0x10000 0) (fun t _ h => h.asid != t.asid) = true ∧
    headerIs (.resume 6 4 1) (whole 64 5 0x10000 0x3002) (fun t _ h => h.asid == t.asid && !h.ctl.getLsbD 8) = true ∧
    headerIs (.resume 6 4 1) (whole 64 6 0x10000) (fun _ v h => decide (h.state = 2) && h.ver != v 12) = true ∧
    headerIs (.resume 6 4 1) (whole 0xFFC1 5 0x10000) (fun t v h => h.ver == v 12 && decide ((t.regionAt 4).bound < (v 1).toNat + h.bytesTotal)) = true ∧
    headerIs (.resume 6 4 1) { whole 64 5 0x2800 with route := Vector.replicate 32 0xFF } (fun t v h => h.ver == v 12 &&
      decide ((v 1).toNat + h.bytesTotal ≤ (t.regionAt 4).bound) && bits (v 13) 11 5 == 5) = true ∧
    ({ whole 64 5 0x2800 with route := Vector.replicate 32 0xFF } : State).inDomain 5 = false ∧
    headerIs (.resume 6 4 1) (whole 64 5 0) (fun _ v h => h.ver == v 12 && !(skShape h.foot).offMesh (bits (v 13) 0 8)) = true ∧
    (skShape 0x0F).offMesh 1 = true ∧ (skShape 0).offMesh 255 = false ∧
    ((whole 64 5 0).resolveEnded 0x40000040 3).toOption.isSome := by decide +kernel

set_option maxRecDepth 4000 in
theorem witness_resume_full : ({ whole 64 5 0 with queues := [⟨2, 0, List.replicate 64 (.launch 0)⟩] } : State).devFull 2 0 = true := by
  decide +kernel

/-- A skein whose copy's place holds a header of STATE `n`. -/
def copyTo (n : Nat) (at_ : Nat := 0x1000) : State :=
  (whole 64 at_ 0).writeBytes (0x30000 + at_) (SkHdr.bytes { ver := 9, ctl := BitVec.ofNat 64 n, foot := 0, widw := 0, orig := 0, ops := 0
                                                             img := 0, size := 64 })

theorem witness_skein_copied :
    headerIs (.sclone 6 4 1) (whole 64 0x1000 0 0) (fun t _ h => h.asid != t.asid) = true ∧
    headerIs (.sclone 6 4 1) (whole 64 0x1000 0 0x3002) (fun _ _ h => !h.ctl.getLsbD 9) = true ∧
    headerIs (.sclone 6 4 1) (whole 64 0x1000 0 0x3703) (fun _ _ h => h.ctl.getLsbD 9 && decide (h.state ≠ 2)) = true ∧
    headerIs (.sclone 6 4 1) (whole 64 0x1000 0 (0x3702 + 2 ^ 48)) (fun _ _ h => h.ctl.getLsbD 9 && decide (0 < h.unres)) = true ∧
    headerIs (.sclone 6 4 1) (whole 64 0x10000 0) (fun t v h => decide (h.unres = 0) &&
      decide ((t.regionAt 4).bound < bits (v 12) 0 40 + h.bytesTotal)) = true ∧
    headerIs (.sclone 6 4 1) (whole 0x80 0x80 0) (fun _ v h =>
      decide ((v 1).toNat < bits (v 12) 0 40 + h.bytesTotal ∧ bits (v 12) 0 40 < (v 1).toNat + h.bytesTotal)) = true ∧
    headerIs (.sclone 6 4 1) (copyTo 2) (fun _ v h => decide ((v 1).toNat + h.bytesTotal ≤ bits (v 12) 0 40)) = true ∧
    ((copyTo 2).readVirt 0 3 0x40001000 64).toOption.any (fun x => (skHdr x.1).state == 2) = true ∧
    ((copyTo 0 0x80).readVirt 0 3 0x40000080 64).toOption.any (fun x => (skHdr x.1).state == 0) = true ∧
    headerIs (.sclone 6 4 1) (copyTo 0 0x80) (fun t v h => decide ((v 1).toNat + h.bytesTotal ≤ bits (v 12) 0 40) && t.clone == none) = true ∧
    ((copyTo 0).writeVirt 0 3 0x40001000 (wordsBytes [0, 1])).toOption.isSome ∧
    meets (.sclone 6 4 1) (whole 64 0x1008 0) (fun _ _ t v => decide (((t.regionAt 4).base + bits (v 12) 0 40) % 64 ≠ 0) &&
      skeinCheck (t.regionAt 4) 4 (v 1) 64 (rR ||| rW ||| rS) == none) = true ∧
    meets (.sclone 6 4 1) ((whole 64 0x1000 0).modStrand 0 fun t => { t with clone := some (t.pc, List.replicate 64 0) }) (fun _ s1 t v =>
      t.clone == some (t.pc, List.replicate 64 0) && t.ops.isEmpty &&
        (s1.writeVirt 0 3 ((t.regionAt 4).base + bits (v 12) 0 40) (List.replicate 64 0)).toOption.isSome) = true := by decide +kernel

/-- A strand whose group has arrived at the suspension to 0x40000040. -/
def suspending (f : Group → Group := fun g => g) (ctl : Nat := 0) : State :=
  let s := skein 5 ctl
  { s.setStrand 0 { man with loc := .slot 0 0, susp := some (.gpr 12) } with
    groups := [(0, f { w := 1, h := 1, s := 1, strands := [some 0], suspAddr := some (0x40000040, 3), asid := 3 })] }

theorem witness_skein_events :
    ((one { man with hold := some 4, rets := [{ kind := .skein, sn := 4, dests := [(.gpr 12, 1)] }] }).strand? 0).any (fun t =>
      t.hold == some 4 && t.rets.all fun r => r.kind == .skein && r.trap == none) = true ∧
    ((one { man with hold := some 4, rets := [{ kind := .skein, sn := 4, dests := [], trap := some (.skeinstale, 5) }] }).strand? 0).any
      (fun t => !t.th && t.rets.all fun r => r.trap == some (.skeinstale, 5)) = true ∧
    (suspending.readyToSuspend 0 (suspending.group 0) = true ∧ (suspending.group 0).building = none) ∧
    ((suspending fun g => { g with strands := [] }).group 0).tok = 0 ∧
    grouped.readyToSuspend 0 (grouped.group 0) = false ∧
    ((suspending fun g => { g with building := some 6 }).group 0).building = some 6 ∧
    (suspending.readVirt 0 3 0x40000040 64).toOption.map (fun x => (skHdr x.1).state) = some 0 ∧
    ((suspending (fun g => g) 2).readVirt 0 3 0x40000040 64).toOption.map (fun x => (skHdr x.1).state) = some 2 ∧
    ((suspending fun g => { g with restore := some (0x40000040, 3) }).group 0).restore = some (0x40000040, 3) ∧
    ((suspending).translate 0 3 0x40000040 accR).toOption.isSome ∧ suspending.heldVals = [] ∧
    (suspending.recordedAt 0x40000040 3 = [] ∧ (suspending.strand? 0).any (fun t => t.susp.isSome && t.group == 0) = true ∧
      (Group.shape (suspending.group 0)).size < 2 ^ 40) ∧
    (((suspending fun g => { g with drop := some (0x40000040, 3) }).group 0).drop = some (0x40000040, 3) ∧
      ((suspending fun g => { g with drop := some (0x40000040, 3) }).readVirt 0 3 0x40000048 8).toOption.isSome ∧
      ((suspending fun g => { g with drop := some (0x40000040, 3) }).writeVirt 0 3 0x40000048 (wordBytes 0)).toOption.isSome) := by
  decide +kernel

/-! ### Witnesses: engine registers and copies -/

/-- Registers of a staged set. -/
def stg (l : List (Nat × Nat)) (v : Vector Word 32 := Vector.replicate 32 0) : Vector Word 32 :=
  l.foldl (fun v x => vset v x.1 (BitVec.ofNat 64 x.2)) v

/-- `man`, with its engine registers as they are at its start, and a copy of 64 bytes staged in h1, from 0 to 256, without a
completion word. -/
def worker : Strand :=
  let t := man.resetStaged
  { t with cp := stg [(0, 1), (2, 1), (3, 256), (6, 2 ^ 63), (8, 64)] t.cp }

/-- Core 0 holds a slot 0 of 2 units and a slot 2 of 8 units, and accumulator 0, all of group 0. -/
def array (t : Strand := worker) (f : Core → Core := fun k => k) : State :=
  (one t).modCore 0 fun k => f { k with
    opslots := [(0, { units := 2, group := 0, scales := Vector.replicate 32 0x3F800000 }),
                (2, { units := 8, group := 0, scales := Vector.replicate 32 0x3F800000 })]
    accs := vset k.accs 0 { held := some 0 } }

/-- The strand's group holds bank 1. -/
def bankOf (t : Strand := worker) : State := { one t with groups := [(0, { w := 1, h := 1, s := 1, bank0 := 1, nbank := 1, strands := [some 0] })] }

/-- Entry 0 of the overrides of die 0 belongs to an ASID. -/
def overridden (asid : BitVec 12) : State :=
  (one worker).modDie 0 fun x => { x with ovr := [(0, { v := true, asid, expert := 1, layer := 0, mask := 0, id := 0 })] }

theorem witness_engine_registers :
    meets (.erd .cp 7 12) (one worker) (fun _ s1 t _ => !engRegSup .cp 7 && !s1.noScale t .cp 7) = true ∧
    meets (.erd .dx 0x20 12) (one { worker with sup := true }) (fun _ s1 t _ => t.sup && !s1.noScale t .dx 0x20) = true ∧
    meets (.erd .mx 4 12) (one worker) (fun _ s1 t _ => s1.noScale t .mx 4) = true ∧
    engRegSup .mx 0x0B = false ∧ ((one worker).issued (.ewr .mx 13 0x0B)).isSome ∧
    meets (.ewr .pl 13 0x25) (one { worker with sup := true }) (fun _ _ t _ => t.sup) = true ∧
    ((one worker).issued (.ewrCpDest 4 13)).isSome ∧
    meets (.ewrCpBfmt 0x31 12) bankOf (fun _ s1 t v => s1.holdsBank t.group t.core 1 && !(v 12).getLsbD 3) = true ∧
    meets (.ewrCpBfmt 0x31 12) (one worker) (fun _ s1 t _ => !s1.holdsBank t.group t.core 1) = true ∧
    meets (.ewrCpBfmt 0x31 12) (bankOf { worker with gr := vset man.gr 12 8 }) (fun _ s1 t v =>
      s1.holdsBank t.group t.core 1 && (v 12).getLsbD 3) = true ∧
    meets (.ewrMxScsel 0) array (fun _ s1 t v => ((s1.core t.core).slotOf t.group (bits (v 0) 0 8)).isSome) = true ∧
    meets (.ewrMxScsel 1) array (fun _ s1 t v => (s1.core t.core).slotOf t.group (bits (v 1) 0 8) == none) = true ∧
    meets (.ewrMxScval 1) (array { worker with mx := stg [(3, 0x1F02)] }) (fun _ s1 t _ =>
      ((s1.core t.core).slotOf t.group (bits (staged t.mx 3) 0 8)).isSome && bits (staged t.mx 3) 8 5 == 31) = true ∧
    meets (.ewrMxScval 1) (one worker) (fun _ s1 t _ => (s1.core t.core).slotOf t.group (bits (staged t.mx 3) 0 8) == none) = true ∧
    meets (.ewrDxOhi 1) (one worker) (fun _ s1 t _ => (Tab.get? (s1.die (dieOf t.core)).ovr (bits (staged t.dx 0x0E) 0 8)).isNone) = true ∧
    meets (.ewrDxXrel 0) (one { worker with asid := 0 }) (fun _ s1 t v =>
      (s1.rcvEntry (bits (v 0) 16 8) (bits (v 0) 0 10)).any fun e => e.asid == t.asid) = true ∧
    meets (.ewrDxXrel 1) (one worker) (fun _ s1 _ v => (s1.rcvEntry (bits (v 1) 16 8) (bits (v 1) 0 10)).isNone) = true ∧
    meets (.ewrDxXrel 0) (one worker) (fun _ s1 t v =>
      (s1.rcvEntry (bits (v 0) 16 8) (bits (v 0) 0 10)).any fun e => e.asid != t.asid) = true ∧
    meets (.ewrPlRegion 0x21 1) (one { worker with sup := true }) (fun _ s1 t v => t.sup &&
      !s1.regionRefused 0 { s1.plRegion (bits (staged t.pl 0x0B) 0 6) with wb := v 1 &&& engMask .pl 0x21 }) = true ∧
    (31 < 32 ∧ (Eng.cp ≠ .mx ∨ 0 ≠ 31) ∧ 0 < 32) ∧
    meets (.ewrDxOhi 1) (overridden 4) (fun _ s1 t _ => (Tab.get? (s1.die (dieOf t.core)).ovr (bits (staged t.dx 0x0E) 0 8)).any fun o =>
      o.v && o.asid != t.asid) = true ∧
    meets (.ewrPlRegion 0x20 1) ({ one { worker with sup := true } with regions := [(0, { st := .draining })] }) (fun _ s1 t v => t.sup &&
      s1.regionRefused 0 { s1.plRegion (bits (staged t.pl 0x0B) 0 6) with rgn := v 1 &&& engMask .pl 0x20 }) = true ∧
    ((one worker).issued (.illegalWord ((encode (.ewrPlRegion 0x20 1)).getD 0))).isSome ∧ worker.sup = false := by decide +kernel

theorem witness_engine_reads : (1 ≤ 6 ∧ (staged worker.cp 4).getLsbD 63 = false) ∧
    (((array).core 0).slotOf 0 2).isSome ∧
    (((((array).core 0).opslots.filter fun x => x.2.group = 0).map fun x => x.2.units).sum < 256) ∧
    Tab.get? ((one worker).die 0).ovr 0 = none ∧ (Tab.get? ((overridden 4).die 0).ovr 0).any (fun o => o.v && o.asid != 3) = true ∧
    (Tab.get? ((overridden 3).die 0).ovr 0).any (fun o => o.asid == 3) = true := by decide +kernel

/-- `mm g0, g13` for accumulator 0, as a follow-on. -/
def folWord : Word := bit63 ||| ((encode (.mm 0 13 0 0)).getD 0).setWidth 64

/-- A copy into slot 2 of the array, with a follow-on. -/
def follower : Strand :=
  { worker with cp := stg [(7, folWord.toNat), (4, 2), (3, 0)] worker.cp, cpSlot := true, gr := vset man.gr 13 2 }

/-- A captured copy: 64 bytes of h1, from 0 to 256. -/
def cmd1 : CopyCmd :=
  { sn := 9, sid := 0, pc := 0, hint := false, regs := worker.cp, src := { space := 1, bound := 0x40000, rights := 15, asid := 3 }
    dst := { space := 1, bound := 0x40000, rights := 15, asid := 3 }, cw := { space := 1, bound := 0x40000, rights := 15, asid := 3 }
    slotDst := none, srcFmt := 15, srcSl := false, dstFmt := 15, after := [], fol := none, folSn := 10 }

/-- The core's queue holds a copy of another strand and one of strand 0. -/
def copying (n : Nat := 1) : State := (one worker).modCore 0 fun k => { k with copyq := List.replicate n cmd1 }

theorem witness_copies_issue :
    meets (.cpgo 0) (one worker) (fun _ s1 t v => t.cwCheck (staged t.cp 5) (staged t.cp 6) == none &&
      s1.endFmt (t.regionAt (bits (staged t.cp 0) 0 5)) (staged t.cp 1).toNat == (15, false) && !t.cpSlot &&
      (s1.endFmt (t.regionAt (bits (staged t.cp 2) 0 5)) (staged t.cp 3).toNat).1 == 15 &&
      s1.cpRefusal t v 15 15 == none && (s1.core t.core).copyq.isEmpty && !(staged t.cp 7).getLsbD 63) = true ∧
    meets (.cpgo 0) (array follower) (fun _ s1 t v => t.cwCheck (staged t.cp 5) (staged t.cp 6) == none && t.cpSlot &&
      s1.cpRefusal t v (s1.endFmt (t.regionAt (bits (staged t.cp 0) 0 5)) (staged t.cp 1).toNat).1 15 == none &&
      (staged t.cp 7).getLsbD 63 && !t.countFull [.mx] && !t.fenced [.mx]) [0, 13] = true ∧
    meets (.cpgo 0) (one { worker with cp := stg [(6, 4)] worker.cp }) (fun _ _ t _ =>
      (t.cwCheck (staged t.cp 5) (staged t.cp 6)).isSome) = true ∧
    meets (.cpgo 0) (one { worker with cp := stg [(9, 0xFFFFFFFF), (10, 0x10000)] worker.cp }) (fun _ s1 t v =>
      t.cwCheck (staged t.cp 5) (staged t.cp 6) == none && s1.cpRefusal t v 15 15 == some 1) = true ∧
    meets (.cphint 0) (one worker) (fun _ s1 t _ => decide (cpBytes t.cp < 2 ^ 48) &&
      !(t.handle (bits (staged t.cp 0) 0 5)).badFmt && decide ((s1.core t.core).copyq.length < 16)) = true ∧
    meets (.cphint 1) (copying 16) (fun _ s1 t v => t.cwCheck (staged t.cp 5) (staged t.cp 6) == none &&
      decide (16 ≤ (s1.core t.core).copyq.length) && s1.cpRefusal t v 15 15 == none) = true ∧
    meets (.cpcancel 12 0) (one worker) (fun s s1 t _ => t.gate false == [] && ((s1.core t.core).cancellable s.cur).isEmpty) = true ∧
    meets (.cpcancel 12 1) copying (fun s s1 t _ => t.gate true == [] && !((s1.core t.core).cancellable s.cur).isEmpty) = true ∧
    ((copying 16).issued (.cpstat 12 0)).isSome := by decide +kernel

/-- Channel 0 of core 0 holds a copy. -/
def channel (st : ChanSt) (x : CopyCmd := cmd1) (f : State → State := fun s => s) : State := (f (array worker)).putChan 0 0 { st, cmd := some x }

/-- `cmd1` to the global page of h4. -/
def cmdGlobal : CopyCmd := { cmd1 with dst := { space := 4, base := 0x40000000, bound := 0x10000, rights := 31, asid := 3 } }

/-- `cmd1` to the bytes from 0x8100. -/
def cmdApart : CopyCmd := { cmd1 with src := { cmd1.src with bound := 0x8000 }, dst := { cmd1.dst with base := 0x8000, bound := 0x8000 } }

theorem witness_copy_channels :
    ((copying.copyReady [] (copying.core 0).copyq).map fun x => x.sn) = some 9 ∧ (vget (copying.core 0).chans 0 {}).st = .free ∧
    (cmd1.run < cmd1.total ∧ cmd1.hint = false ∧ cmd1.off = 0 ∧ (channel .start).chan 0 0 = { st := .start, cmd := some cmd1 }) ∧
    (channel .move { cmd1 with src := { cmd1.src with bound := 63 } }).copyCheck 0 { cmd1 with src := { cmd1.src with bound := 63 } } = some 1 ∧
    ((channel .move cmdGlobal).copyCheck 0 cmdGlobal = none ∧ ((channel .move cmdGlobal).copyXlate 0 cmdGlobal).isSome ∧ cmdGlobal.pl = none) ∧
    ((channel .move cmdApart).copyCheck 0 cmdApart = none ∧ (channel .move cmdApart).copyXlate 0 cmdApart = none ∧
      converts 15 15 = false ∧ cmdApart.mayMeet cmdApart.src cmdApart.dst = false ∧ cmdApart.src.space ≠ 0 ∧ cmdApart.slotDst = none ∧
      (channel .move cmdApart).runUp 0 cmdApart.src 0 accR = true ∧ (channel .move cmdApart).runUp 0 cmdApart.dst 256 accW = true ∧
      ((channel .move cmdApart).readSpan 0 cmdApart.src 0 32).toOption.isSome ∧
      ((channel .move cmdApart).engPut 0 9 0 cmdApart.dst 256 (List.replicate 32 1)).toOption.map (fun x => x.2) = some none) ∧
    (({ cmd1 with run := 1 }).total ≤ 1 ∧ cmd1.recorded = none) ∧
    (followOn? (folWord.setWidth 32) = some (0, false) ∧ ((array worker).core 0).mmCheck 0 0 0 false 0 2 = none ∧
      ((array worker).core 0).mxq.length < 8 ∧ (((array worker).core 0).mmCheck 0 0 0 false 0 1).isSome) ∧
    (((one worker).modCore 0 fun k => { k with copyq := [{ cmd1 with err := true }] }).core 0).copyq.find? (fun y =>
      y.err && y.recorded.isNone && y.pl.isNone) = some { cmd1 with err := true } ∧
    ((staged cmd1.regs 6).getLsbD 63 = true ∧ (staged (stg [(6, 64)] worker.cp) 6).getLsbD 63 = false ∧
      (one worker).pairOut 0 cmd1.cw = false ∧ (one worker).pairHeld 0 9 = false ∧ ((one worker).follow 0 cmd1.cw).addr 64 = .phys (scratchKey 0 64)) := by decide +kernel

/-- `cmdApart` into operand slot 2, and from f32 to bf16. -/
def cmdSlot : CopyCmd := { cmdApart with slotDst := some 2, dst := {} }
def cmdCvt : CopyCmd := { cmdApart with srcFmt := 11, dstFmt := 10 }

theorem witness_copies_elsewhere :
    ((channel .move cmdSlot).copyCheck 0 cmdSlot = none ∧ (channel .move cmdSlot).copyXlate 0 cmdSlot = none ∧ cmdSlot.dstFmt = 15 ∧
      (channel .move cmdSlot).runUp 0 cmdSlot.src 0 accR = true ∧ ((channel .move cmdSlot).readSpan 0 cmdSlot.src 0 32).toOption.isSome) ∧
    ((channel .move cmdCvt).copyCheck 0 cmdCvt = none ∧ (channel .move cmdCvt).copyXlate 0 cmdCvt = none ∧ converts 11 10 = true ∧
      Ty.ofCode? 11 = some .f32 ∧ Ty.ofCode? 10 = some .bf16 ∧ cmdCvt.slotDst = none ∧ cmdCvt.run + 1 = cmdCvt.total ∧
      cmdCvt.mayMeet cmdCvt.src cmdCvt.dst = false ∧ cpCount cmdCvt.regs 0 * 2 / 4 = 32 ∧
      ((channel .move cmdCvt).readSpan 0 cmdCvt.src 0 64).toOption.isSome ∧
      ((channel .move cmdCvt).cvtRun cmdCvt .f32 .bf16 cmdCvt.src 0 (List.replicate 16 0x3F800000)).toOption.isSome ∧
      ((channel .move cmdCvt).engPut 0 9 0 cmdCvt.dst 256 (List.replicate 32 1)).toOption.map (fun x => x.2) = some none) ∧
    (cmdCvt.src.fmtBank 0 = none ∧ (cmdCvt.src.fmtBank 0x8000).isSome ∧ (one man).poisoned (scaleKey cmdCvt.src 0x8000 false) 4 = false) := by
  decide +kernel

/-- A command whose word arrives at once cancels what is in queue and channel. -/
theorem witness_cancels : (copying.core 0).copyq.all (fun x => x.ownedBy 0 (some 20) && !x.err) = true ∧
    ((channel .move).chan 0 0).cmd.any (fun x => x.ownedBy 0 (some 20) && decide (x.run < x.total)) = true := by decide +kernel

theorem witness_scratchpad_runs : (one man).memWf ∧ (lost.core 1).sealed = true ∧ ((one man).core 0).sealed = false ∧
    (one man).poisoned (scratchKey 0 0x3FFFE) 2 = false ∧ 0 + 0x3FFFE + 2 ≤ 2 ^ 18 := by decide +kernel

/-- A strand whose oldest access reads the unmapped page at 0x50000000. -/
def faulting : State := doing (.load (.virt 3 0x50000000) 8 false)

/-- The record ring of tenant 2 or the system's has room, or is full. -/
def ringed (tail : Nat) : State :=
  let s := sysMapped { one man with sysdesc := 0x20000 }
  (((s.putSysDword 0x20000 0x8000000000000000).putSysDword 0x20070 (BitVec.ofNat 64 (2 ^ 60 + 0x28000))).putSysDword 0x20078
    (BitVec.ofNat 64 (tail * 2 ^ 32))).modDie 0 fun x =>
    { x with frecs := [{ tenant := none, d0 := 1, d1 := 2, d2 := 3, d3 := 4 }] }

theorem witness_faults_and_wakes :
    (faulting.strand? 0).any (fun t => !t.pair && t.opFault == none && t.ops.any fun o =>
      ((o.kind.span? t.asid).bind fun x => (faulting.spanFault (dieOf o.core) x o.kind.need).map fun f => (x.1, f)).isSome) = true ∧
    (faulting.die 0).frecs.length < 64 ∧
    ((faulting.modDie 0 fun x => { x with frecs := List.replicate 64 { tenant := none, d0 := 0, d1 := 0, d2 := 0, d3 := 0 } }).die 0).frecs.length = 64 ∧
    (one man).desc? none = none ∧
    ((ringed 0).desc? none = some 0x20000 ∧ (ringed 0).descValid 0x20000 = true ∧ ((ringed 15).ringAt 0x20070).isFull = false ∧
      ((ringed 16).ringAt 0x20070).isFull = true) ∧
    ((one { man with wakeMsg := true, st := .parked (.word 64 true) }).strand? 0).any (fun t => t.place?.isSome) = true ∧
    man.wakeMsg = false ∧ man.st = .run := by decide +kernel

/-! ### Witnesses: the matrix array and walks -/

/-- The strand with its matrix registers: format 0, all rows, 128 columns; drains to h1 at 0x8000, in rows of 512 bytes, as binary32;
g13 holds 2. -/
def drainer : Strand :=
  { worker with mx := stg [(5, 4), (6, 0x8000), (7, 512), (9, 1)] worker.mx, gr := vset man.gr 13 2
                handles := vset man.handles 4 (hd 1 0 0x40000 15 11) }

/-- A matrix command of strand 0. -/
def mxc (kind : MxKind) (sn : Nat := 9) : MxCmd := { sn, sid := 0, group := 0, pc := 0, kind, after := [] }

/-- `mm` of accumulator 0 with slots 0 and 2. -/
def mmc : MxKind := .mm 0 0 128 0xFFFFFFFF 0 (Vector.replicate 32 0x3F800000) [(2, 0x3F800000), (0xFF, 0), (0xFF, 0), (0xFF, 0)]

/-- Commands in the array's queue. -/
def mxQueue (l : List MxCmd) (t : Strand := drainer) : State := array t fun k => { k with mxq := l }

theorem witness_operand_slots :
    meets (.oclaim 1 12) (one { man with gr := vset man.gr 1 128 }) (fun _ s1 t v => (s1.claimUnits t.core t.group (v 1).toNat).isSome) = true ∧
    meets (.oclaim 0 12) (one man) (fun _ s1 t v => (s1.claimUnits t.core t.group (v 0).toNat).isNone) = true ∧
    meets (.orel 1 12) (one man) (fun _ s1 t v => (s1.core t.core).slotOf t.group (bits (v 1) 0 8) == none) = true ∧
    meets (.orel 13 12) (mxQueue [mxc mmc]) (fun _ s1 t v => ((s1.core t.core).slotOf t.group (bits (v 13) 0 8)).isSome &&
      (s1.core t.core).slotBusy (bits (v 13) 0 8)) = true ∧
    meets (.orel 13 12) (mxQueue []) (fun _ s1 t v => ((s1.core t.core).slotOf t.group (bits (v 13) 0 8)).isSome &&
      !(s1.core t.core).slotBusy (bits (v 13) 0 8)) = true ∧
    (one man).memWf ∧ ((one man).claimUnits 0 0 128).map (fun x => x.1) = some 0 ∧ ((array).claimUnits 0 0 118).map (fun x => x.1) = some 10 ∧
      ((array).claimUnits 0 0 119).isNone := by decide +kernel

/-- The array's queue is full. -/
def mxFull : State := mxQueue (List.replicate 8 (mxc .chk))

theorem witness_matrix_issue :
    meets (.mm 0 13 0 1) (mxQueue []) (fun _ s1 t v => (s1.core t.core).mmCheck t.group (bits (staged t.mx 0) 0 4) 0 false (v 0) (v 13) == none &&
      decide ((s1.core t.core).mxq.length < 8)) = true ∧
    meets (.mmg 0 13 0 0) (mxQueue [] { drainer with gr := vset man.gr 13 0xFFFFFF02 }) (fun _ s1 t v =>
      (s1.core t.core).mmCheck t.group (bits (staged t.mx 0) 0 4) 0 true (v 0) (v 13) == none) = true ∧
    meets (.mm 0 13 1 1) (mxQueue []) (fun _ s1 t v =>
      (s1.core t.core).mmCheck t.group (bits (staged t.mx 0) 0 4) 1 false (v 0) (v 13) == some 4) = true ∧
    meets (.mclr 0 0) (mxQueue []) (fun _ s1 t _ => (s1.core t.core).accOf t.group 0 == some 0 && decide ((s1.core t.core).mxq.length < 8)) = true ∧
    meets (.mchk 12 0) (mxQueue []) (fun _ s1 t _ => decide ((s1.core t.core).mxq.length < 8)) = true ∧
    meets (.mdrain 12 0 0) (mxQueue []) (fun _ s1 t _ => (s1.core t.core).accOf t.group 0 == some 0 && (s1.core t.core).mxq.isEmpty &&
      s1.endFmt (t.regionAt (bits (staged t.mx 5) 0 5)) (bits (staged t.mx 6) 0 40) == (15, false) &&
      s1.drainCheck t 15 false 0 0 == none && drainFmt 15 == some 11) = true ∧
    meets (.mdrain 12 0 0) (mxQueue [] { drainer with mx := stg [(6, 0x8001)] drainer.mx }) (fun _ s1 t _ =>
      (s1.core t.core).accOf t.group 0 == some 0 && (s1.core t.core).mxq.isEmpty &&
      s1.drainCheck t (s1.endFmt (t.regionAt (bits (staged t.mx 5) 0 5)) (bits (staged t.mx 6) 0 40)).1
        (s1.endFmt (t.regionAt (bits (staged t.mx 5) 0 5)) (bits (staged t.mx 6) 0 40)).2 0 0 == some (.engine, 0x106)) = true ∧
    meets (.mdrain 12 0 0) (mxQueue [mxc mmc]) (fun _ s1 t _ => (s1.core t.core).accOf t.group 0 == some 0 &&
      (s1.core t.core).mxq.any fun x => x.kind.acc? == some 0) = true ∧
    meets (.mclr 1 0) (mxQueue []) (fun _ s1 t _ => (s1.core t.core).accOf t.group 1 == none) = true ∧
    meets (.mchk 12 1) mxFull (fun _ s1 t _ => decide (8 ≤ (s1.core t.core).mxq.length)) = true ∧
    meets (.mm 0 13 0 1) mxFull (fun _ s1 t v => decide (8 ≤ (s1.core t.core).mxq.length) &&
      (s1.core t.core).mmCheck t.group (bits (staged t.mx 0) 0 4) 0 false (v 0) (v 13) == none) = true := by decide +kernel

/-- A plain drain of row 31 of accumulator 0 as binary32, to h1 at 0x8000. -/
def drainRow31 : MxKind :=
  .drain 0 11 false (stg [(2, 2 ^ 31)] drainer.mx) { space := 1, bound := 0x40000, rights := 15, asid := 3 } { space := 1 }

/-- A merge drain, the first of two. -/
def merging : MxCmd :=
  { mxc (.drain 0 11 false (stg [(0x0B, 16), (0x0C, 0x20000), (0x0D, 64)] drainer.mx) { space := 1, bound := 0x40000, rights := 15, asid := 3 }
      { space := 1 }) with begun := true, waiting := true }

theorem witness_matrix_performs :
    ((mxQueue [mxc mmc]).mxReady ((mxQueue [mxc mmc]).core 0) (mxc mmc) = true ∧ ((mxQueue [mxc mmc]).core 0).arrayFree = true) ∧
    (((mxQueue [merging, mxc mmc 10]).core 0).mxq[1]? = some (mxc mmc 10) ∧ merging.kind.acc? = mmc.acc? ∧ mmc.acc?.isSome ∧
      (mxQueue [merging, mxc mmc 10]).mxReady ((mxQueue [merging, mxc mmc 10]).core 0) (mxc mmc 10) = true) ∧
    ((mxQueue [mxc .chk]).mxReady ((mxQueue [mxc .chk]).core 0) (mxc .chk) = true) ∧
    (mxQueue [mxc (.clr 1)]).mxReady ((mxQueue [mxc (.clr 1)]).core 0) (mxc (.clr 1)) = true ∧
    (mxQueue [mxc drainRow31]).mxReady ((mxQueue [mxc drainRow31]).core 0) (mxc drainRow31) = true ∧
    (1 < 2 ∧ 31 < 32 ∧ 127 < 128) ∧
    (((mxQueue [{ mxc drainRow31 with begun := true }]).core 0).mxq.find? fun y => y.begun && !y.waiting && !y.kind.isWalk).isSome ∧
    drainer.st ≠ .ended ∧
    (merging.tok = 0 ∧ merging.turn = false ∧ ((mxQueue [merging]).core 0).arrayFree = true ∧
      ((mxQueue [merging]).readSpan 0 ((mxQueue [merging]).follow 0 { space := 1, bound := 0x40000, rights := 15, asid := 3 }) 64 8).toOption.map
        (fun x => natOfBytes x.1) = some 0 ∧ bits (0x20000 : Word) 0 16 = 0 ∧ 0 < bits (0x20001 : Word) 0 16) ∧
    ((drainRegs (stg [(2, 2 ^ 31)] drainer.mx) 4).rows = [31] ∧ staged (stg [(2, 2 ^ 31)] drainer.mx) 0x0B = 0 ∧
      bits (staged (stg [(2, 2 ^ 31)] drainer.mx) 1) 0 7 + 1 = 128) := by decide +kernel

theorem witness_multiplication : (mxQueue [mxc mmc]).mmPoisoned 0 0 128 0xFFFFFFFF 0 [(2, 0x3F800000)] = false ∧
    { mxQueue [mxc mmc] with poison := [operandKey 0 (2048 * 2) / 8] }.mmPoisoned 0 0 128 0xFFFFFFFF 0 [(2, 0x3F800000)] = true ∧
    ([(2, (0x3F800000 : BitVec 32))][31 / 8]? = none ∧ [(2, (0x3F800000 : BitVec 32))][7 / 8]?.isSome) := by decide +kernel

/-- A drain of binary32 in one row, a merge drain's second contribution, and an e4m3 row. -/
theorem witness_drained_rows :
    (drainRegs drainer.mx 4).bias = false ∧ (drainRegs drainer.mx 4).merge = false ∧
    (drainRegs (stg [(0x0B, 16), (0x0C, 0x20001)] drainer.mx) 4).merge = true ∧
    (drainRegs (stg [(0x0B, 16), (0x0C, 0x20001)] drainer.mx) 4).p = 1 ∧ (drainRegs (stg [(0x0B, 16), (0x0C, 0x20001)] drainer.mx) 4).m = 2 ∧
    ((one drainer).readF32s 0 { space := 1, bound := 0x40000, rights := 15 } 0x8000 128).toOption.isSome ∧
    ((one drainer).engPut 0 9 0 { space := 1, bound := 0x40000, rights := 15, asid := 3 } 0x8000 (List.replicate 128 1)).toOption.map
      (fun x => x.2) = some none ∧
    ((one drainer).pairOut 0 { space := 1 } = false ∧ (one drainer).pairHeld 0 9 = false ∧
      ((one drainer).follow 0 { space := 1 }).addr 64 = .phys (scratchKey 0 64)) ∧
    rowExp [0] = 0 ∧ rowExp [0x43E00000] = 0 ∧ rowExp [0x44600000] = 1 ∧
    FFmt.f32.value 0x43E00000 = .fin false 0xE00000 (-15) := by decide +kernel

/-- An accumulator that a multiplication fills, and one with ERR. -/
theorem witness_checksums : ((mxQueue [{ mxc mmc with begun := true, steps := true }]).core 0).compares 0 true = true ∧
    ((mxQueue [{ mxc mmc with begun := true, steps := true }]).core 0).compares 0 false = false ∧
    ((mxQueue [mxc mmc]).core 0).compares 0 true = false ∧
    ((mxQueue []).modCore 0 fun k => { k with accs := vset k.accs 0 { held := some 0, err := true } }).drainCheck
      { drainer with loc := .slot 0 0 } 15 false 0 0 = some (.checksum, 0) ∧
    (mxQueue []).drainCheck { drainer with loc := .slot 0 0 } 15 false 0 0 = none := by decide +kernel

/-- A walk's rows start at h1 offset 0; its inputs are at h1 offset 0x8000 and its records at h4 offset 0x9000, as binary32; 1 row. -/
def walker : Strand :=
  { drainer with wk := stg [(0, 1), (2, 1), (3, 1), (4, 0x8000), (6, 4), (7, 0x9000), (0x0E, 2 ^ 63)] worker.wk }

/-- What `walk` captures of `walker`. -/
def walkCmd : WalkCmd :=
  { regs := walker.wk, nh := { space := 1, bound := 0x40000, rights := 15, asid := 3 }, ih := { space := 1, bound := 0x40000, rights := 15, asid := 3 }
    oh := { space := 1, bound := 0x40000, rights := 15, efmt := 11, asid := 3 }, cw := { space := 1, bound := 0x40000, rights := 15, asid := 3 }, df := 11 }

/-- A walk with one row at node 0. -/
def tbl (st : BitVec 2 := 0) : WalkTable := { cmd := mxc (.walk walkCmd), rows := [{ st, node := 0, depth := 0 }] }

/-- The table of core 0 holds a walk. -/
def walking (w : WalkTable := tbl) : State := array walker fun k => { k with table := some w }

/-- The strand's table is held, `wk.ctl` holds a value, and g12 is odd. -/
def heldWalk (ctl : Nat) : State :=
  (array { walker with wk := stg [(9, ctl)] walker.wk, gr := vset man.gr 12 1 }).modCore 0 fun k => { k with table := some { tbl with held := true } }

theorem witness_walks_issue :
    meets (.walk 0) (array walker) (fun s s1 t _ => (s1.heldTable t.core s.cur).isNone && s1.walkCheck t == none &&
      decide ((s1.core t.core).mxq.length < 8) &&
      drainFmt (s1.endFmt (t.regionAt (bits (staged t.wk 6) 0 5)) (bits (staged t.wk 7) 0 40)).1 == some 11) = true ∧
    meets (.walk 0) (array { walker with wk := stg [(2, 33)] walker.wk }) (fun s s1 t _ => (s1.heldTable t.core s.cur).isNone &&
      s1.walkCheck t == some (.engine, 0x201)) = true ∧
    meets (.walk 1) (walking { tbl with held := true }) (fun s s1 t _ => (s1.heldTable t.core s.cur).isSome && !(staged t.wk 9).getLsbD 1) = true ∧
    meets (.walk 1) (mxQueue (List.replicate 8 (mxc .chk)) walker) (fun s s1 t _ => (s1.heldTable t.core s.cur).isNone && s1.walkCheck t == none &&
      decide (8 ≤ (s1.core t.core).mxq.length)) = true ∧
    meets (.walk 1) (heldWalk 3) (fun s s1 t _ => (s1.heldTable t.core s.cur).isSome && (staged t.wk 9).getLsbD 1 && s1.walkCheck t == none &&
      decide ((s1.core t.core).mxq.length < 8)) = true ∧
    meets (.wstat 1 12 0) walking (fun s s1 t v => !t.mustDefer (.wstat 1 12 0) false && (s1.heldTable t.core s.cur).isNone && !(v 1).getLsbD 0 &&
      (s1.strand? s.cur).any fun u => u.wstat == t.wstat) = true ∧
    meets (.wstat 12 13 0) (heldWalk 0) (fun s s1 t v => !t.mustDefer (.wstat 12 13 0) false && (s1.heldTable t.core s.cur).isSome &&
      (v 12).getLsbD 0) = true ∧
    ((walking).core 0).mxq = [] ∧ ((mxQueue [mxc (.walk walkCmd)] walker).core 0).mxq.any (fun x => x.sid == 0 && x.kind.isWalk) = true ∧
    meets (.wstat 1 12 1) (array walker) (fun s s1 t _ => (s1.core t.core).table.isNone && (s1.strand? s.cur).any fun u => u.wstat == t.wstat) = true ∧
    ({ tbl with passes := 65535 }).passes < 2 ^ 16 ∧ (List.replicate 32 ({} : WalkRow)).length ≤ 32 := by decide +kernel

/-- A leaf stands at node 0: 1 row and 1 column in format 0. -/
def atLeaf : State := walking.writeBytes (scratchKey 0 0) [0, 0, 0x10]

theorem witness_walk_steps :
    ((mxQueue [mxc (.walk walkCmd)] walker).core 0).table = none ∧
    (mxQueue [mxc (.walk walkCmd)] walker).mxReady ((mxQueue [mxc (.walk walkCmd)] walker).core 0) (mxc (.walk walkCmd)) = true ∧
    bits (staged (stg [(0x0C, 2)] walkCmd.regs) 0x0C) 0 8 ≠ 0xFF ∧
    ((staged walkCmd.regs 0x0F).getLsbD 31 = true ∧ (staged (stg [(0x0F, 0)] walkCmd.regs) 0x0F).getLsbD 31 = false) ∧
    nextNode [{ st := 0, depth := 2, node := 64 }, { st := 0, depth := 1, node := 128 }, { st := 0, depth := 1, node := 64 }] = some (1, 64) ∧
    (walking.mayBegin 0 [] = true ∧ nextNode tbl.rows = some (0, 0) ∧ (staged walkCmd.regs 9).getLsbD 0 = false) ∧
    (match walking.fetchNode 0 tbl.cmd walkCmd 0 with | .cause 4 _ => true | _ => false) = true ∧
    (match atLeaf.fetchNode 0 tbl.cmd walkCmd 0 with | .ok n _ _ => n.leaf && !n.feedY | _ => false) = true ∧
    (64 < 64 + 1 ∧ 63 + 1 ≤ 64) ∧
    ((tbl 1).rows.all (fun r => r.st = 1) = true ∧ (tbl 1).cmd.cause = 0 ∧ (tbl 1).held = false) ∧
    (((mxQueue [{ mxc (.walk walkCmd) with cause := 4 }]).core 0).mxq.find? fun x => x.kind.isWalk && decide (x.cause ≠ 0)).isSome := by decide +kernel

/-- A walk whose nodes are global and unmapped, and one that stops at the first row in FAULT. -/
def walkAt (nh : Region) (ctl : Nat) : WalkTable :=
  { tbl with cmd := { tbl.cmd with kind := .walk { walkCmd with nh, regs := stg [(9, ctl)] walkCmd.regs } } }
def walkFar : State := walking (walkAt { space := 4, base := 0x50000000, bound := 0x40000, rights := 15, asid := 3 } 0)

/-- What a fetch of node 0 gives the walk of core 0. -/
def nodeOf (s : State) : Option NodeOut :=
  ((s.core 0).table).bind fun t => match t.cmd.kind with
    | .walk w => some (s.fetchNode 0 t.cmd w 0)
    | _ => none

theorem witness_walk_stops :
    (walkFar.walkRuns (walkFar.core 0) (walkAt { space := 4, base := 0x50000000, bound := 0x40000, rights := 15, asid := 3 } 0) = true ∧
      (nodeOf walkFar).any (fun x => match x with | .xlate .. => true | _ => false) = true ∧
      (walkFar.engFault 0 0 2 5 0x50000000 accR 1 0 (.walk 0)).isSome ∧
      (walkFar.strand? 0).any (fun u => u.st != .ended && !u.th && u.tvec != 0 && u.claim == none) = true) ∧
    ((walking (walkAt walkCmd.nh 1)).walkRuns ((walking (walkAt walkCmd.nh 1)).core 0) (walkAt walkCmd.nh 1) = true ∧
      (nodeOf (walking (walkAt walkCmd.nh 1))).any (fun x => match x with | .cause 4 _ => true | _ => false) = true ∧
      (staged (stg [(9, 1)] walkCmd.regs) 9).getLsbD 0 = true ∧ (walkAt walkCmd.nh 1).rows[0]?.any (fun r => r.st == 0) = true) ∧
    64 ≤ (((walkFar.modDie 0 fun x => { x with frecs := List.replicate 64 ⟨none, 0, 0, 0, 0⟩ }).die 0).frecs.length) ∧
    (atLeaf.walkRuns (atLeaf.core 0) tbl = true ∧ (atLeaf.core 0).arrayFree = true ∧
      ((mxQueue [{ mxc mmc with begun := true }]).core 0).arrayFree = false) := by decide +kernel

theorem witness_walks_end :
    ({ tbl with held := true }.held = true ∧ ({ tbl with cmd := { tbl.cmd with cause := 4 } } : WalkTable).cmd.cause ≠ 0 ∧
      (walking (tbl 1)).walkRuns ((walking (tbl 1)).core 0) (tbl 1) = true) ∧
    (tbl.rows.any (fun r => r.st = 0) = true ∧ (tbl 3).rows.all (fun r => r.st ≠ 0) = true ∧
      ((List.range 1).filter fun i => match (tbl 3).rows[i]? with | some r => decide (r.st ≠ 1) | none => false) = [0]) ∧
    ((mxQueue [mxc (.walk { walkCmd with regs := stg [(0x0C, 0xFF)] walkCmd.regs })] walker).claimUnits 0 0 2).isSome ∧
    bits (staged (stg [(0x0C, 0xFF)] walkCmd.regs) 0x0C) 0 8 = 0xFF ∧ ((array walker).claimUnits 0 0 119).isNone ∧
    ((walking (tbl 3)).engPut 0 9 0 walkCmd.oh 0x9000 (List.replicate 24 0)).toOption.map (fun x => x.2) = some none := by decide +kernel

/-- A node of rule `r` with parameter `p`. -/
def node (r p : Nat) : NodeCtl := { ver := 0, leafid := 0, nch := 8, par := p, rule := r, feedY := false, leaf := false, fmt := 0, n := 8, k := 8 }

theorem witness_heddle_rules :
    ((node 0 0).rule = 0 ∧ (FFmt.f32.value 0x7FC00000).isNan = true ∧ (FFmt.f32.value 0x00000001).isNan = false) ∧
    (heddle (node 0 0) [] [0x00000001] = (1, false) ∧ heddle (node 0 0) [] [0] = (0, false)) ∧
    heddle (node 1 3) [] [0x7FC00000, 0x3F800000, 0x3F800000] = (1, true) ∧ heddle (node 1 2) [] [0x7FC00000, 0x7FC00000] = (0, true) ∧
    heddle (node 2 1) (List.replicate 16 0 ++ [0x80, 0x3F]) [0x3F800000] = (1, false) ∧
    heddle (node 3 3) [] [0x80000000, 0, 0xBF800000] = (5, false) := by decide +kernel

/-! ### Witnesses: token dispatch, migration, the distaff, collectives -/

/-- A dispatch of one token of 16 bytes in h1, whose number is at offset 64, over 4 experts, without a completion word. -/
def sender : Strand := { worker with dx := stg [(1, 1), (3, 1), (4, 16), (6, 1), (7, 64), (8, 3), (0x0D, 2 ^ 63)] worker.dx }

/-- What `dsend` captures of `sender`. -/
def dxc : DxCmd :=
  { sn := 9, sid := 0, pc := 0, regs := sender.dx, src := { space := 1, bound := 0x40000, rights := 15, asid := 3 }
    ids := { space := 1, bound := 0x40000, rights := 15, asid := 3 }, cw := { space := 1, bound := 0x40000, rights := 15, asid := 3 }
    asid := 3, after := [], serial := 0 }

/-- The die's engine holds a command. -/
def dispatching (x : DxCmd := dxc) (f : Die → Die := fun y => y) : State := (one sender).modDie 0 fun y => f { y with dxq := [x] }

theorem witness_dispatch_issues :
    meets (.dsend 0) (one sender) (fun _ s1 t _ => !t.pair && (s1.die (dieOf t.core)).dxRefusal t.asid (dxRegs t.dx) == none &&
      t.dxChecks (dxRegs t.dx) == none) = true ∧
    meets (.dsend 0) (one { sender with dx := stg [(0, 3)] sender.dx }) (fun _ s1 t _ =>
      (s1.die (dieOf t.core)).dxRefusal t.asid (dxRegs t.dx) == some 1) = true ∧
    meets (.dsend 1) (one { sender with dx := stg [(1, 7)] sender.dx }) (fun _ s1 t _ =>
      (s1.die (dieOf t.core)).dxRefusal t.asid (dxRegs t.dx) == none && (t.dxChecks (dxRegs t.dx)).isSome) = true ∧
    meets (.dflush 12 0) dispatching (fun s s1 t _ => !t.pair && t.gate false == [] && (s1.die (dieOf t.core)).dxq.any fun y => y.sid == s.cur) = true ∧
    meets (.dstat 12 1) dispatching (fun _ _ t _ => !t.pair) = true := by decide +kernel

/-- A token whose first choice, expert 2, has no receiver, and whose second is receive index 5 of die 1. -/
def tok2 : Token :=
  { cmd := 9, idx := 0, id := 7, choices := [(2, 0), (3, 0)], choice := 0, ovr := false, reps := [none, some (0, 1, 5)]
    bytes := List.replicate 16 1, region := 0, ver := 0 }

/-- A collect and a dispatch of an earlier number by the same strand. -/
def flushed : Flush := { sn := 12, sid := 0, cmds := [9], dropped := 3, dest := .gpr 12 }

theorem witness_flushes :
    meets (.dflush 12 0) dispatching (fun s s1 t _ => !t.mustDefer (.dflush 12 0) false && s1.dxTurn s.cur s1.serial) = true ∧
    meets (.dflush 12 0) { (dispatching { dxc with after := [4] }).modStrand 0 fun t => { t with ops := busy.ops } with serial := 12 } (fun s s1 _ _ =>
      !s1.dxTurn s.cur s1.serial) = true ∧
    meets (.dstat 12 1) dispatching (fun s s1 t _ => !t.mustDefer (.dstat 12 1) true && (s1.strand? s.cur).any fun u => !u.pair) = true ∧
    (((dispatching).strand? 0).any (fun t => !t.pair && (((dispatching).die (dieOf t.core)).dxq.filter fun x => x.sid == 0 && decide (x.sn < 12)).map
      (fun x => x.sn) == [9])) = true ∧
    ((dispatching dxc fun y => { y with flushes := [flushed] }).die 0).flushes = [flushed] ∧ flushed.cmds = [9] := by decide +kernel

theorem witness_token_choices :
    0 < (dxRegs sender.dx).e ∧ (dxRegs (stg [(0, 4)] sender.dx)).k = 2 ∧
    (dispatching.dxReady 0 0).isSome ∧ (dxRegs dxc.regs).mode = 0 ∧ dxc.next < (dxRegs dxc.regs).n ∧
    (dispatching.readSpan 0 (dispatching.follow 0 dxc.ids) ((dxRegs dxc.regs).io + 4 * 0) 4).toOption.isSome ∧
    (dispatching.readSpan 0 (dispatching.follow 0 dxc.src) ((dxRegs dxc.regs).so + 0) 16).toOption.isSome ∧
    ((dispatching { dxc with regs := stg [(0, 1)] dxc.regs }).dxReady 0 0).isSome ∧ (dxRegs (stg [(0, 1)] dxc.regs)).mode = 1 ∧
    (tok2.reps[0]?).join = none ∧ (tok2.reps[1]?).join = some (0, 1, 5) := by decide +kernel

/-- A list with one token for receive entry 0 of die 0, whose entry has place for two rows of 32 bytes and a counter at 4096. -/
def slist (n : Nat := 1) : SendList :=
  { sid := 0, asid := 3, dest := (0, 0, 0), rb := 16, toks := List.replicate n { tok2 with reps := [some (0, 0, 0)], choices := [(0, 0)] }, since := 5
    hold := true }

/-- Die 0 with a receive table of one entry, and the command. -/
def receiving (f : Die → Die := fun y => y) : State :=
  (dispatching dxc f).writeBytes (chipKey 0 0) (wordBytes (BitVec.ofNat 64 (3 * 2 ^ 40 + 0x8000)) ++
    wordBytes (BitVec.ofNat 64 (32 * 2 ^ 32 + 2)) ++ wordBytes 4096)

/-- A row of the list, for its die. -/
def rowMsg : RowMsg := { tok := tok2, x := 0, off := 0x8000, cnt := 4096, bytes := List.replicate 32 9 }

theorem witness_dispatch_engine :
    ((dispatching dxc fun y => { y with lists := [slist] }).die 0).lists[0]? = some slist ∧ slist.sent = false ∧
      (∀ k ∈ slist.toks, k.cmd = 9) ∧ ((dispatching).dxCmd? 9).any (fun x => !x.2.stop) = true ∧
    (((receiving fun y => { y with reqs := [slist 3] }).die 0).reqs[0]? = some (slist 3) ∧
      ((receiving).rcvEntry 0 0).any (fun e => e.asid == 3 && decide (16 + 16 ≤ e.rstr) && e.cap == 2 && decide (e.cnt % 8 = 0)) = true ∧
      ((receiving).die 0).releasing.contains 0 = false ∧ 0 / 8 = (one man).pkg.toNat) ∧
    (((receiving).rcvEntry 0 1).isNone ∧ ((receiving).rcvEntry 0 0).any (fun e => e.asid != 4 && decide (e.rstr < 16 + 32)) = true ∧
      ((receiving fun y => { y with releasing := [0] }).die 0).releasing.contains 0 = true) ∧
    (((receiving fun y => { y with grants := [{ lst := slist 2, base := 0, count := 2, buf := 0x8000, rstr := 32, cnt := 4096 }] }).die 0).grants.all
      fun m => decide (m.lst.toks.length ≤ m.count)) = true ∧
    (slist.toks.length = 1 ∧ ({ lst := slist, base := 0, count := 0 } : GrantMsg).count = 0) ∧
    ((receiving).memWf ∧ rowMsg.committed = false ∧ rowMsg.off + rowMsg.bytes.length ≤ 2 ^ 25 ∧ 0x1FFFFE0 + rowMsg.bytes.length ≤ 2 ^ 25) ∧
    ({ rowMsg with committed := true }.committed = true ∧ (receiving).poisoned (chipKey 0 (4096 % 2 ^ 25)) 8 = false ∧
      chipKey 0 (4096 % 2 ^ 25) % 8 = 0) ∧
    (((receiving fun y => { y with releasing := [0] }).die 0).rows = [] ∧ (receiving).dies.all (fun z => z.2.grants.isEmpty) = true) ∧
    (((dispatching { dxc with regs := stg [(0, 2), (8, 0), (0x0B, 128)] dxc.regs }).dxReady 0 0).isSome ∧ (dxRegs (stg [(0, 2)] dxc.regs)).mode = 2 ∧
      ((dispatching).readSpan 0 ((dispatching).follow 0 dxc.src) 0 (gateBytes 1 128)).toOption.isSome) ∧
    (dxc.stop = false ∧ dxc.isOver = false) ∧
    ({ dxc with next := 1, sent := 1 }.isOver = true ∧ ((dispatching { dxc with next := 1, sent := 1 }).dxReady 0 0).isSome ∧
      ((dispatching { dxc with next := 1, sent := 1 }).modDie 0 fun y => { y with dxq := [] }).pairOf 0 9 = none) := by decide +kernel

/-- A strand that is away from home: its home is slot 3 of core 5. -/
def away (gone : Bool := false) : State :=
  (one { man with home := some (5, 3), gr := vset (vset man.gr 12 bit63) 13 4096 }).modCore 5 fun k => { k with sealed := gone }

/-- `man` with g12 and g13 as `migrate`'s operands. -/
def mover (a b : Nat) : State := one { man with gr := vset (vset man.gr 12 (BitVec.ofNat 64 a)) 13 (BitVec.ofNat 64 b) }

/-- A strand that waits for its target's grant. -/
def asking (f : Core → Core := fun k => k) : State := (one { man with mig := some (1, false, 4096, .gpr 12) }).modCore 1 f

/-- A strand on its way to slot 2 of core 1. -/
def moving : State := one { man with mig := some (1, false, 4096, .gpr 12) } |>.setStrand 0 { man with
  loc := .transit 1 2, mig := some (1, false, 4096, .gpr 12), home := some (0, 0) }

theorem witness_migration :
    meets (.migrate 11 12 13) (mover 0 4100) (fun _ _ t v => t.outst.isEmpty && t.ops.isEmpty && t.rets.isEmpty && t.seq.isEmpty &&
      decide (4096 < bits (v 13) 0 13 ∧ bits (v 13) 0 13 % 8 ≠ 0)) = true ∧
    meets (.migrate 11 12 13) (mover (2 ^ 63) 4096) (fun _ _ t v => decide (bits (v 13) 0 13 ≤ 4096 ∧ bits (v 13) 0 13 % 8 = 0) &&
      (v 12).getLsbD 63 && t.home == none) = true ∧
    meets (.migrate 11 12 13) (away true) (fun _ s1 t v => (v 12).getLsbD 63 && t.home == some (5, 3) && (s1.core 5).sealed) = true ∧
    meets (.migrate 11 12 13) away (fun _ s1 t v => (v 12).getLsbD 63 && t.home == some (5, 3) && !(s1.core 5).sealed) = true ∧
    meets (.migrate 11 12 13) (mover 0 0) (fun _ s1 t v => !(v 12).getLsbD 63 && s1.badTarget t (v 12)) = true ∧
    meets (.migrate 11 12 13) (mover 0x100 0) (fun _ s1 t v => !(v 12).getLsbD 63 && !s1.badTarget t (v 12) && t.outst.isEmpty && t.ops.isEmpty &&
      t.rets.isEmpty && t.seq.isEmpty) = true ∧
    meets (.migrate 11 12 13) (one { man with outst := [(4, .st)] }) (fun _ _ t _ => !t.outst.isEmpty) = true ∧
    ((asking).strand? 0).any (fun t => t.partner == none && t.place?.isSome && t.mig == some (1, false, 4096, .gpr 12)) = true ∧
    1 / 2048 = (one man).pkg.toNat ∧ ((asking fun k => { k with sealed := true }).core 1).sealed = true ∧
    ((asking fun k => { k with slots := Vector.replicate 8 (.live 9) }).core 1).freeSlot = none ∧
    (((asking).core 1).freeSlot = some 0 ∧ ((asking).core 1).freeCtx = some 0 ∧ ((asking).core 1).sealed = false) ∧
    ((asking).memWf ∧ (asking).heldTable 0 0 = none ∧ 4096 % 8 = 0) ∧
    (moving.strand? 0).any (fun t => t.loc == .transit 1 2 && t.mig == some (1, false, 4096, .gpr 12)) = true := by decide +kernel

theorem witness_migration_waits :
    meets (.migrate 11 12 13) (one { man with late := [{ sn := 4, instr := .cpstat 12 0, after := [], dest := .gpr 12 }] }) (fun _ _ t _ =>
      !t.late.isEmpty) = true ∧
    ((asking).pkgUp (1 / 2048) = true ∧ ({ asking with pkg := 1, linksDown := [0] } : State).pkgUp (1 / 2048) = false) ∧
    (((asking).strand? 0).any fun t => t.loc == .slot 0 0 && t.home == none) = true ∧ (0 ≠ 1 ∧ 0 < 8 ∧ 7 < 8) := by decide +kernel

/-- Region 1 belongs to ASID 3: four entries of one layer from 8192 − 4 on, of slots of 4096 bytes. -/
def region (st : PlSt := .stable) : PlRegion :=
  { rgn := BitVec.ofNat 64 (2 ^ 63 + 3 * 2 ^ 40 + 3 * 2 ^ 16 + 8188), wsz := 4096, st, cv := 6 }

/-- The strand that asks, with privileges; its region exists. -/
def placed (t : Strand := man) (g : PlRegion := region) : State := { one t with regions := [(1, g)] }

/-- A strand that merges the gradients of entry 3: 64 bytes from offset 0 of h4. -/
def merger : Strand :=
  { worker with pl := stg [(0, 3), (1, 0x10000), (2, 4), (4, 64), (5, 64), (7, 2 ^ 63)] worker.pl }

theorem witness_distaff_issues :
    ((placed).issued (.plrd 13 12)).isSome ∧
    meets (.plswitch 12) (placed { worker with sup := true, pl := stg [(8, 1), (0x0A, 256)] worker.pl }) (fun _ _ t _ => t.sup && t.ops.isEmpty &&
      bits (staged t.pl 0x0A) 0 9 == 256 && regionCheck (t.regionAt (bits (staged t.pl 8) 0 5)) (bits (staged t.pl 8) 0 5)
        (bits (staged t.pl 9) 0 40) (32 * 256) rR == none) = true ∧
    meets (.plswitch 12) (placed { worker with sup := true, pl := stg [(8, 1), (0x0A, 1)] worker.pl }) (fun _ s1 t _ =>
      (s1.readSpan (dieOf t.core) (t.regionAt (bits (staged t.pl 8) 0 5)) (bits (staged t.pl 9) 0 40) 32).toOption.isSome) = true ∧
    meets (.plswitch 12) (placed { worker with sup := true, pl := stg [(8, 7), (0x0A, 1)] worker.pl }) (fun _ _ t _ =>
      (regionCheck (t.regionAt (bits (staged t.pl 8) 0 5)) (bits (staged t.pl 8) 0 5) (bits (staged t.pl 9) 0 40) 32 rR).isSome) = true ∧
    meets (.plstat 12) placed (fun _ s1 t _ => s1.regionOf t.asid == some (1, region)) = true ∧
    meets (.plstat 12) (one man) (fun _ s1 t _ => s1.regionOf t.asid == none) = true ∧
    meets (.plmerge 0) (placed merger) (fun _ s1 t _ => !t.pair && s1.regionOf t.asid == some (1, region) &&
      decide (bits (staged t.pl 0) 0 13 < region.size) && (staged t.pl 1).getLsbD 16 && decide (bits (staged t.pl 5) 0 40 = 64) &&
      decide ((t.handle (bits (staged t.pl 2) 0 5)).space = 4) &&
      ((s1.mergeReps region (bits (staged t.pl 0) 0 13) region.cv).zipIdx.all fun x =>
        regionCheck (t.regionAt (bits (staged t.pl 2) 0 5)) (bits (staged t.pl 2) 0 5) (gradOff t.pl region.nx x.1)
          (bits (staged t.pl 5) 0 40) (if x.2 = 0 then rR ||| rW else rR) == none) &&
      t.cwCheck (staged t.pl 6) (staged t.pl 7) == none) = true ∧
    meets (.plmerge 0) (placed { merger with pl := stg [(0, 4)] merger.pl }) (fun _ s1 t _ => s1.regionOf t.asid == some (1, region) &&
      decide (region.size ≤ bits (staged t.pl 0) 0 13)) = true ∧
    meets (.plmerge 0) (placed { merger with pl := stg [(1, 5)] merger.pl }) (fun _ _ t _ => decide ((staged t.pl 1).setWidth 16 ≠ region.cv)) = true ∧
    meets (.plmerge 1) (placed { merger with pl := stg [(5, 66)] merger.pl }) (fun _ _ t _ => decide (bits (staged t.pl 5) 0 40 % 4 ≠ 0)) = true ∧
    meets (.plmerge 1) (placed { merger with pl := stg [(2, 1)] merger.pl }) (fun _ _ t _ =>
      decide ((t.handle (bits (staged t.pl 2) 0 5)).space ≠ 4)) = true := by decide +kernel

theorem witness_empty_switches :
    meets (.plswitch 12) (placed { worker with sup := true }) (fun _ _ t _ => t.sup && t.ops.isEmpty && bits (staged t.pl 0x0A) 0 9 == 0) = true ∧
    meets (.plswitch 12) (placed { worker with sup := true, pl := stg [(0x0A, 257)] worker.pl }) (fun _ _ t _ => t.sup && t.ops.isEmpty &&
      decide (256 < bits (staged t.pl 0x0A) 0 9)) = true := by decide +kernel

/-- A strand with a message to the distaff. -/
def asks (m : Msg) (g : PlRegion := region) : State := { placed { man with msgs := [m] } g with ub := 1, ua := 0 }

/-- A merge of the gradients of two replicas at h4. -/
def mergeCmd (reps : List (Nat × Nat × Nat)) : MergeCmd :=
  { sn := 9, sid := 0, pc := 0, regs := merger.pl, g := { space := 4, base := 0x40000000, bound := 0x10000, rights := 31, asid := 3 }
    cw := { space := 1, bound := 0x40000, rights := 15, asid := 3 }, ver := 6, reps, nx := 1, after := [] }

/-- A token of version 5 of region 1 waits in a list. -/
def dispatchingUnder : State :=
  (placed man (region .draining)).modDie 0 fun y => { y with lists := [{ slist with toks := [{ tok2 with region := 1, ver := 5 }] }] }

/-- The weights of a new replica of region 1 are copied. -/
def weighted : State := (placed man (region .building)).putChan 0 0 { st := .finish, cmd := some { cmd1 with pl := some 1 } }

theorem witness_distaff_steps :
    ((asks (.plrd 4 0 3 (.gpr 12))).strand? 0).map (fun t => (t.pair, t.msgs)) = some (false, [.plrd 4 0 3 (.gpr 12)]) ∧
    (placed).regionOf 3 = some (1, region) ∧ bits (3 : Word) 0 13 < region.size ∧
    (bits (0x4003 : Word) 14 2 = 1 ∧ bits (0x8003 : Word) 14 2 = 2 ∧ (0x8003 : Word).getLsbD 16 = false ∧ bits (0xC003 : Word) 14 2 = 3) ∧
    ((placed man (region .draining)).plRegion 1).st ≠ .stable ∧ ((placed).plRegion 0).v = false ∧
    (((placed).plRegion 1).v = true ∧ ((placed).plRegion 1).st = .stable) ∧
    (region.size ≤ bits (4 : Word) 0 13 ∧ plEntryBad (0, 2 ^ 32) = true ∧ ¬([3, 3] : List Nat).Nodup) ∧
    (bits (3 : Word) 0 13 < region.size ∧ plEntryBad (0, bit63) = false) ∧
    (((placed { man with rets := [{ kind := .distaff, sn := 4, dests := [(.gpr 12, 9)] }] }).strand? 0).any fun t =>
      t.rets.all fun r => r.kind == .distaff && r.dests == [(.gpr 12, 9)]) = true ∧ (placed).twins = [] ∧
    ((placed man { region .publishing with acks := [0] }).plRegion 1).acks.contains 0 = true ∧
    ((placed man { region .publishing with acks := [0, 1, 2, 3, 4, 5, 6] }).plRegion 1).acks.length = 7 ∧ 7 / 8 = (one man).pkg.toNat ∧
    (placed man (region .draining)).plLive 1 5 = false ∧
    (dispatchingUnder.plLive 1 5 = true) ∧
    ((one man).winColl = none ∧ ({ placed with winColl := some [(8190, 2 ^ 48, false), (8191, 5, true)] } : State).regions.all fun x => !x.2.auto) ∧
    (weighted.weightsDone 1).map (fun x => (x.1, x.2.1)) = some (0, some 0) ∧ (weighted.plRegion 1).st = .building ∧
    ((one merger).mayBegin 0 [] = true ∧ (one merger).pairReady 0 9 = true ∧ (mergeCmd [(0, 0, 0)]).reps.length ≤ 1 ∧
      1 < (mergeCmd [(0, 0, 0), (0, 1, 0)]).reps.length ∧ (mapped (one merger)).mergeXlate 0 (mergeCmd [(0, 0, 0), (0, 1, 0)]) 64 = none ∧
      ((mapped (one merger)).gradsAt 0 (mergeCmd [(0, 0, 0), (0, 1, 0)]) 60 [(0, 0, 0), (0, 1, 0)]).toOption.isSome) := by decide +kernel

/-- A die holds a merge of strand 0, of number 9. -/
def merging0 : State := (placed merger).modDie 0 fun y => { y with merges := [mergeCmd [(0, 0, 0), (0, 1, 0)]] }

theorem witness_distaff_turns :
    ((asks (.plrd 4 0 3 (.gpr 12))).strand? 0).any (fun t => (asks (.plrd 4 0 3 (.gpr 12))).msgTurn 0 4 t) = true ∧
    ((asks (.plswitch 4 0 1 [] false (.gpr 12))).strand? 0).any (fun t => (asks (.plswitch 4 0 1 [] false (.gpr 12))).msgTurn 0 4 t) = true ∧
    ({ man with ops := [{ sn := 3, kind := .fill (scratchKey 0 0) 5, pc := 0 }], msgs := [.plrd 4 0 3 (.gpr 12)] } : Strand).msgs.length = 1 ∧
    (asks (.plrd 4 0 3 (.gpr 12))).msgTurn 0 4 { man with ops := [{ sn := 3, kind := .fill (scratchKey 0 0) 5, pc := 0 }] } = false ∧
    ((placed).regionOf 3 = some (1, region) ∧ bits (0x8003 : Word) 0 13 < region.size ∧ bits (0x18003 : Word) 14 2 = 2 ∧
      (0x18003 : Word).getLsbD 16 = true) ∧
    (one man).regionOf 3 = none ∧
    ((merging0.die 0).merges[0]?.any (fun m => m.tok == 0 && merging0.dxTurn m.sid m.sn && merging0.mayBegin m.sid m.after) = true ∧
      (merging0.die 0).merges.take 0 = []) := by decide +kernel

/-- Region 1 with AUTO: HOT is 100, COLD is 10, and it has two slots on each die. -/
def autoRegion : PlRegion := { region with rgn := region.rgn ||| (1 <<< 62), pol := BitVec.ofNat 64 (100 * 2 ^ 32 + 10), wsz := BitVec.ofNat 64 (2 ^ 48 + 4096) }

/-- An entry with replicas at slot 0 of dies 0, …, `n` − 1. -/
def entryOf (n : Nat) : Word × Word :=
  let r := ((List.range n).map fun d => d * 2 ^ 16 * 2 ^ (24 * d)).foldl (fun a b => a + b) 0
  (BitVec.ofNat 64 r, BitVec.ofNat 64 (2 ^ 63 + (n - 1) * 2 ^ 60 + r / 2 ^ 64))

/-- Entry 1 of the region has `n` replicas, and its record says `load`. -/
def loaded (n load : Nat) (f : State → State := fun s => s) : State :=
  f { placed man autoRegion with pltab := [(8189, entryOf n)], winRec := [(8189, BitVec.ofNat 64 load)] }

/-- What the control loop does with the region. -/
def loopActs (s : State) (g : PlRegion := autoRegion) : Option PlAction := s.plAction g (s.ownDies.map fun d => (d, s.dieLoad d))

theorem witness_control_loop :
    (autoRegion.v = true ∧ autoRegion.auto = true ∧ autoRegion.st = .stable ∧ (loaded 1 101).regions = [(1, autoRegion)] ∧
      (match exec .windowEnd { loaded 1 101 with winColl := some [(8189, 500, false)], regions := [] } with
        | .next s1 => { s1 with regions := [(1, autoRegion)] }.regions == [(1, autoRegion)]
        | _ => false) = true) ∧
    (loopActs (loaded 1 101) = some (1, some (1, 0)) ∧ loopActs (loaded 1 100) = none ∧ loopActs (loaded 2 9) = some (1, none) ∧
      loopActs (loaded 4 2000) = none ∧ loopActs (loaded 2 20) = none) ∧
    (Tab.wf (loaded 1 101).pltab = true ∧ (loaded 1 101).freeSlotOf autoRegion 0 = some 1 ∧ (loaded 1 101).freeSlotOf autoRegion 1 = some 0) ∧
    (plCount ((loaded 3 0).plEntry (autoRegion.base + 1)) < 4 ∧ 255 < 256 ∧ 1023 < 1024 ∧ 8191 < 8192 ∧
      ((loaded 3 0).core (255 * 256 + 7)).sealed = false ∧ 1 < plCount ((loaded 2 9).plEntry (autoRegion.base + 1))) := by decide +kernel

/-- A member 0 of a collective of 2: 8 binary32 numbers from h1 offset 0 to offset 0x8000, added, with tag 5. -/
def member : Strand :=
  { worker with cl := stg [(0, 5), (1, 2 * 2 ^ 16), (2, 11), (3, 8), (4, 1), (6, 1), (7, 0x8000), (9, 2 ^ 63)] worker.cl }

/-- What `clred` captures of `member`. -/
def clc : ClCmd :=
  { sn := 9, sid := 0, core := 0, pc := 0, regs := member.cl, src := { space := 1, bound := 0x40000, rights := 15, asid := 3 }
    dst := { space := 1, bound := 0x40000, rights := 15, asid := 3 }, cw := { space := 1, bound := 0x40000, rights := 15, asid := 3 }
    asid := 3, after := [] }

/-- Die 0 holds a member, and its home die the collective with a member. -/
def reducing (x : ClCmd := clc) (l : List Coll := []) : State :=
  ((one member).modDie 0 fun y => { y with clq := [x] }).modDie ((one member).clHome 5) fun y => { y with colls := l }

theorem witness_collectives :
    meets (.clred 0) (one member) (fun _ _ t _ => !t.pair && decide (bits (staged t.cl 2) 4 4 ≤ 2) && [2, 10, 11].contains (bits (staged t.cl 2) 0 4) &&
      decide (bits (staged t.cl 1) 0 16 < bits (staged t.cl 1) 16 16) &&
      regionCheck (t.regionAt (bits (staged t.cl 4) 0 5)) (bits (staged t.cl 4) 0 5) (bits (staged t.cl 5) 0 40) 32 rR == none &&
      regionCheck (t.regionAt (bits (staged t.cl 6) 0 5)) (bits (staged t.cl 6) 0 5) (bits (staged t.cl 7) 0 40) 32 rW == none &&
      t.cwCheck (staged t.cl 8) (staged t.cl 9) == none) = true ∧
    meets (.clred 1) (one { member with cl := stg [(2, 0x3B)] member.cl }) (fun _ _ t _ => decide (2 < bits (staged t.cl 2) 4 4)) = true ∧
    meets (.clred 1) (one { member with cl := stg [(2, 3)] member.cl }) (fun _ _ t _ => !([2, 10, 11].contains (bits (staged t.cl 2) 0 4))) = true ∧
    meets (.clred 1) (one { member with cl := stg [(1, 2 * 2 ^ 16 + 2)] member.cl }) (fun _ _ t _ =>
      decide (bits (staged t.cl 1) 16 16 ≤ bits (staged t.cl 1) 0 16)) = true ∧
    meets (.clstat 0 12 0) reducing (fun _ _ _ v => !(v 0).getLsbD 0) = true ∧
    meets (.clstat 12 12 0) (one { member with gr := vset man.gr 12 1 }) (fun _ _ t v => !t.pair && (v 12).getLsbD 0) = true := by decide +kernel

theorem witness_collective_steps :
    ((reducing.die 0).clq[0]? = some clc ∧ clc.fin = false ∧ clc.begun = false ∧ reducing.mayBegin 0 [] = true ∧ reducing.pairReady 0 9 = true ∧
      (reducing.readSpan 0 (reducing.follow 0 clc.src) 0 (8 * clWidth 11)).toOption.isSome) ∧
    ((one member).clHome 5 = 5 ∧ 5 / 8 = (one member).pkg.toNat) ∧
    ((reducing { clc with begun := true } [{ asid := 3, tag := 5, m := 2, n := 9, op := 0, ty := 11, members := [clc] }]).die 5).colls.any (fun c =>
      c.asid == 3 && c.tag == 5 && c.n != 8 && c.members.any fun z => bits (staged z.regs 1) 0 16 == 0) = true ∧
    ((reducing { clc with begun := true } (List.replicate 256 { asid := 3, tag := 6, m := 2, n := 8, op := 0, ty := 11, members := [] })).die 5).colls.length = 256 ∧
    ({ clc with fin := true, cause := 7 }.cause ≠ 0 ∧ { clc with fin := true, written := true }.written = true) ∧
    ((one member).pairOf 0 9 = none ∧ (staged clc.regs 9).getLsbD 63 = true ∧ (0 : Word).getLsbD 63 = false ∧ (one member).pairOut 0 clc.cw = false ∧ (one member).pairHeld 0 9 = false ∧
      ((one member).follow 0 clc.cw).addr 0 = .phys (scratchKey 0 0)) := by decide +kernel

theorem witness_collectives_fail :
    meets (.clred 1) (one { member with cl := stg [(5, 0x3FFF0)] member.cl }) (fun _ _ t _ => decide (bits (staged t.cl 2) 4 4 ≤ 2) &&
      [2, 10, 11].contains (bits (staged t.cl 2) 0 4) && decide (bits (staged t.cl 1) 0 16 < bits (staged t.cl 1) 16 16) &&
      (firstFail [regionCheck (t.regionAt (bits (staged t.cl 4) 0 5)) (bits (staged t.cl 4) 0 5) (bits (staged t.cl 5) 0 40) 32 rR,
        regionCheck (t.regionAt (bits (staged t.cl 6) 0 5)) (bits (staged t.cl 6) 0 5) (bits (staged t.cl 7) 0 40) 32 rW,
        t.cwCheck (staged t.cl 8) (staged t.cl 9)]).isSome) = true ∧
    meets (.clstat 0 12 1) reducing (fun _ _ t v => t.gate true == [] && !(v 0).getLsbD 0) = true ∧
    meets (.clstat 12 12 1) (one { member with gr := vset man.gr 12 1 }) (fun _ _ t v => t.gate true == [] && !t.pair && (v 12).getLsbD 0) = true := by
  decide +kernel

/-- A member's earlier command waits in the queue before it. -/
def behind : State := (one member).modDie 0 fun y => { y with clq := [{ clc with sn := 8, after := [4] }, clc] }

/-- The source of the member is at core 1, which is sealed, or is poisoned. -/
def clFar (s : State) : State := reducing { clc with src := { clc.src with space := 5, unit := 1 } } |> fun x => { x with cores := s.cores, poison := s.poison }

theorem witness_members_begin :
    ((behind.die 0).clq[1]? = some clc ∧ (behind.die 0).clq.take 1 = [{ clc with sn := 8, after := [4] }]) ∧
    (({ reducing { clc with after := [4] } with strands := [(0, { member with loc := .slot 0 0, outst := [(4, .st)], ops := busy.ops })] } : State).mayBegin 0 [4] = false) ∧
    ((match (clFar lost).readSpan 0 ((clFar lost).follow 0 { clc.src with space := 5, unit := 1 }) 0 32 with | .error (.peer c) => c == 1 | _ => false) = true ∧
      (match (clFar poisoned1).readSpan 0 ((clFar poisoned1).follow 0 { clc.src with space := 5, unit := 1 }) 64 32 with
        | .error (.bad _) => true | _ => false) = true) ∧
    ((reducing { clc with begun := true }).pkgUp ((reducing).clHome 5 / 8) = true ∧ ({ reducing with pkg := 1, linksDown := [0] } : State).pkgUp (5 / 8) = false) ∧
    (0 ∈ (reducing).domain ∧ (reducing).pkg.toNat < 32 ∧ ({ clc with fin := true, cause := 7 } : ClCmd).tok = 0 ∧
      (reducing.writeCl { clc with fin := true, vec := List.replicate 32 1 }).2.written = true) := by decide +kernel

/-- An open collective of `m` members, of which `l` have come. -/
def coll (m : Nat) (l : List ClCmd := []) : Coll := { asid := 3, tag := 5, m, n := 8, op := 0, ty := 11, members := l }

/-- A member at position `p`, with its elements. -/
def memberAt (p : Nat) : ClCmd := { clc with sn := 20 + p, regs := stg [(1, 2 * 2 ^ 16 + p)] clc.regs, begun := true, vec := List.replicate 32 (BitVec.ofNat 8 p) }

/-- The collective of the tag at the home die of a state. -/
def collIn (s : State) : Option Coll := (s.die 5).colls.find? fun c => decide (c.asid = 3) && decide (c.tag = 5)

theorem witness_collective_joins :
    (collIn (reducing clc [{ coll 2 with tag := 6 }]) = none ∧ ((reducing clc []).die 5).colls.length < 256) ∧
    (bits (staged clc.regs 1) 16 16 = 2 ∧ bits (staged (stg [(1, 2 ^ 16)] clc.regs) 1) 16 16 = 1) ∧
    (collIn (reducing clc [coll 2 [memberAt 1]]) = some (coll 2 [memberAt 1]) ∧ bits (staged clc.regs 1) 0 16 = 0 ∧
      bits (staged (memberAt 1).regs 1) 0 16 = 1 ∧ [memberAt 1].length + 1 = 2 ∧ [memberAt 2].length + 1 ≠ 3) ∧
    ((coll 3).m ≠ 2 ∧ ({ coll 2 with n := 9 } : Coll).n ≠ 8 ∧ ({ coll 2 with op := 1 } : Coll).op ≠ 0 ∧ ({ coll 2 with ty := 2 } : Coll).ty ≠ 11 ∧
      bits (staged (memberAt 0).regs 1) 0 16 = bits (staged clc.regs 1) 0 16) ∧
    ((reducing).pairOf 0 9 = none ∧ (reducing).spanXlate 0 clc.dst 0x8000 accW 32 = none ∧
      ((reducing).engWrite 0 clc.dst 0x8000 (List.replicate 32 1)).toOption.any (fun x => x.2.isNone) = true ∧
      ((clFar lost).engWrite 0 { clc.dst with space := 5, unit := 1 } 0x8000 (List.replicate 32 1)).toOption.any (fun x => x.2 == some 1) = true ∧
      ((reducing).spanXlate 0 { clc.dst with space := 4, base := 0x50000000 } 0 accW 32).isSome = true) ∧
    (0 < (coll 2 [memberAt 1, memberAt 0]).m ∧ 7 < (coll 2).n ∧ ([0, 1].all fun p => ((coll 2 [memberAt 1, memberAt 0]).members.find? fun z => bits (staged z.regs 1) 0 16 == p) == some (memberAt p) &&
        (memberAt p).vec.length == 8 * clWidth 11) = true) ∧
    (clTy? 11 = some .f32 ∧ clTy? 2 = some .s32 ∧ ([1, 2, 3] : List Nat) ≠ []) := by decide +kernel

/-! ### Witnesses: errors, pairs, the host, the step -/

/-- Strand 0 on core 0 and strand 1 on core 8 are partners. -/
def paired (a b : Strand) : State :=
  { one man with strands := [(0, { a with pair := true, loc := .slot 0 0, partner := some 1 }),
                             (1, { b with pair := true, loc := .slot 8 0, partner := some 0 })] }

/-- The oldest access of a partner is a store to chip space. -/
def storing (v : Word) : Strand := { man with ops := [{ sn := 4, kind := .store (.phys (chipKey 0 64)) 8 v, pc := 0 }] }

theorem witness_errors_and_pairs :
    (4 % 4 = 0 ∧ 5 % 4 = 1 ∧ 6 % 4 = 2 ∧ 7 % 4 = 3) ∧ (one man).poison.contains (scratchKey 1 64 / 8) = false ∧
    poisoned1.poison.contains (scratchKey 1 64 / 8) = true ∧ vget ((one man).die 1).errs 2 0 ≠ BitVec.allOnes 64 ∧
    ((one man).core 0).sealed = false ∧
    ((paired man man).strand? 0).any (fun t => t.pair && decide (t.core % 16 < 8) && t.partner == some 1) = true ∧
    ((paired { man with st := .ended } (storing 1)).hasMerged 1 (storing 1) = true) ∧
    ((storing 1).ops.all fun o => o.kind.merged) = true ∧
    ((OpKind.store (.phys (chipKey 0 64)) 8 1).same (.store (.phys (chipKey 0 64)) 8 1) = true ∧
      (OpKind.store (.phys (chipKey 0 64)) 8 1).same (.store (.phys (chipKey 0 64)) 8 2) = false) ∧
    ((Msg.plrd 4 0 3 (.gpr 12)).same (.plrd 5 9 3 (.gpr 12)) = true ∧ (Msg.plrd 4 0 3 (.gpr 12)).same (.plrd 5 9 2 (.gpr 12)) = false) ∧
    (0 + 65536 ≤ ({ paired (storing 1) man with cycle := 65536 } : State).cycle ∧ man.ops = [] ∧ man.msgs = [] ∧ (paired man man).pairCmds = []) := by
  decide +kernel

/-- A copy's command of one of two partners, and a message of its engine. -/
def pairCmd (sid : Nat) (f : PairCmd → PairCmd := fun x => x) : PairCmd :=
  f { sid, sn := 9 + sid, kind := 3, regs := sender.dx, after := [], srcs := [], dst := none, cw := {}, cwr := bit63, since := 0 }

/-- A message of an engine. -/
def pairWrite (sid : Nat) (v : Word) : PairWrite := { sid, sn := 9 + sid, act := .fill (chipKey 0 64) v, since := 0 }

/-- Two partners whose engines have sent messages. -/
def enginePair (a b : Word) : State :=
  { paired { man with engs := [9] } { man with engs := [10] } with pairWrites := [pairWrite 0 a, pairWrite 1 b] }

/-- What holds of the two partners. -/
def ofPair (s : State) (p : Strand → Strand → Bool) : Bool :=
  match s.strand? 0, s.strand? 1 with
  | some t, some u => p t u
  | _, _ => false

/-- Both partners stand at `sdrop`, with `a` and `b` in g12. -/
def heldPair (a b : Nat) : State :=
  let t := { man with pc := 0x10000000 }
  (mapPage 3 0x10000000 0x50000 (paired { t with gr := vset man.gr 12 (BitVec.ofNat 64 a) } { t with gr := vset man.gr 12 (BitVec.ofNat 64 b) })).writeBytes
    0x50000 (bytesOfNat 4 ((encode (.sdrop 14 4 12)).getD 0).toNat)

theorem witness_pairs_compare :
    (ofPair (paired (storing 1) (storing 2)) fun t u => (paired man man).merges t (.store (.phys (chipKey 0 64)) 8 1) && t.ops.length == 1 && u.ops.length == 1) = true ∧
    (ofPair (paired { man with st := .ended } (storing 1)) fun t u => t.st == .ended && !(paired { man with st := .ended } (storing 1)).hasMerged 0 t &&
      (paired { man with st := .ended } (storing 1)).hasMerged 1 u) = true ∧
    (ofPair (paired (storing 1) { man with st := .ended }) fun t u => u.st == .ended && (paired (storing 1) { man with st := .ended }).hasMerged 0 t &&
      !(paired (storing 1) { man with st := .ended }).hasMerged 1 u) = true ∧
    (ofPair (enginePair 1 1) fun t u => (enginePair 1 1).pairMatch 0 1 t u == some (pairWrite 0 1, pairWrite 1 1) &&
      t.ops.isEmpty && t.msgs.isEmpty) = true ∧
    (ofPair (enginePair 1 2) fun t u => ((enginePair 1 2).pairMatch 0 1 t u).any fun x => x.1.act != x.2.act) = true ∧
    (ofPair (heldPair 1 2) fun t u => (heldPair 1 2).pairMatch 0 1 t u == none && ((heldPair 1 2).heldMsg t).isSome && ((heldPair 1 2).heldMsg u).isSome &&
      (heldPair 1 2).heldMsg t != (heldPair 1 2).heldMsg u) = true ∧
    (ofPair { paired man man with pairCmds := [pairCmd 0, pairCmd 1] } fun t u =>
      { paired man man with pairCmds := [pairCmd 0, pairCmd 1] }.pairDue 0 1 == some (pairCmd 0, pairCmd 1) && (paired man man).heldMsg t == none &&
      (paired man man).mayBegin 0 [] && (paired man man).mayBegin 1 [] && (paired man man).pairMatch 0 1 t u == none) = true ∧
    ((paired man man).pairSame (pairCmd 0) (pairCmd 1) = true ∧ (paired man man).pairSame (pairCmd 0) (pairCmd 1 fun x => { x with kind := 5 }) = false) ∧
    (ofPair (paired man man) fun t u => (paired man man).heldMsg t == none && (paired man man).heldMsg u == none) = true ∧
    ((paired man man).strand? 0).any (fun t => t.loc == .slot 0 0) = true := by decide +kernel

/-- The system's descriptor, with ring `off` of 16 entries from 0x28000 on, and its indices. -/
def rings (off head tail : Nat) (f : State → State := fun s => s) : State :=
  let s := f (sysMapped { one man with sysdesc := 0x20000 })
  ((s.putSysDword 0x20000 0x8000000000000000).putSysDword (0x20000 + off) (BitVec.ofNat 64 (2 ^ 60 + 0x28000))).putSysDword (0x20008 + off)
    (BitVec.ofNat 64 (tail * 2 ^ 32 + head))

theorem witness_host_accesses :
    ((one man).power ≠ .off ∧ (one man).hostRange 0x1000 64 = true ∧ (one man).hostRange 0x1000 65 = false ∧ (one man).hostRange 0x1000 7 = false) ∧
    (State.reset.power ≠ .ready ∧ State.reset.power ≠ .run) ∧
    (doorbellOf 0x100 = some none ∧ doorbellOf 0x1FC0 = some (some 63) ∧ bits (0x600000010 : Word) 32 3 = 6) ∧
    ((rings 0x90 0 4).desc? none = some 0x20000 ∧ (rings 0x90 0 4).descValid 0x20000 = true) ∧
    ((rings 0x90 0 4).ringAt 0x20090 = { base := 0x28000, logn := 4, head := 0, tail := 4 }) ∧
    ((16 + 2 ^ 32 - 4) % 2 ^ 32 < 2 ^ 31 ∧ (16 + 2 ^ 32 - 0) % 2 ^ 32 ≤ 2 ^ 4 ∧ 2 ^ 31 ≤ (3 + 2 ^ 32 - 4) % 2 ^ 32) ∧
    ((4 + 2 ^ 32 - 0) % 2 ^ 32 < 2 ^ 31 ∧ (4 + 2 ^ 32 - 4) % 2 ^ 32 ≤ 2 ^ 4 ∧ 2 ^ 31 ≤ (0 + 2 ^ 32 - 4) % 2 ^ 32) := by decide +kernel

theorem witness_doorbells :
    (bits (0x700000010 : Word) 32 3 = 7 ∧ bits (0x300000010 : Word) 32 3 = 3 ∧ (one man).desc? (some 1) = none) ∧
    ((rings 0x90 0 4 fun s => { s with tentab := 0x20000 }).desc? (some 0)).isSome = true ∧
    ((sysMapped { one man with sysdesc := 0x20000 }).desc? none = some 0x20000 ∧ (sysMapped { one man with sysdesc := 0x20000 }).descValid 0x20000 = false) ∧
    (2 ^ 4 < (21 + 2 ^ 32 - 4) % 2 ^ 32 ∧ (21 + 2 ^ 32 - 4) % 2 ^ 32 < 2 ^ 31 ∧ 2 ^ 4 < (21 + 2 ^ 32 - 4) % 2 ^ 32) := by decide +kernel

/-- The command ring holds one command. -/
def commanded (opc a b c : Nat) (f : State → State := fun s => s) : State :=
  (rings 0x90 0 1 f).writeBytes 0x28000 ([opc, a, b, c].map fun d => wordBytes (BitVec.ofNat 64 d)).flatten

/-- A command is there, and what it holds. -/
def holds (s : State) (p : List Byte → State → Bool) : Bool := (s.command?).any fun x => p x.1 x.2

/-- A group of tenant 2 is placed. -/
def occupied (s : State) : State := { s with groups := [(0, { tenant := 2, asid := 3, strands := [some 0] })] }

theorem witness_host_commands :
    holds (commanded 1 64 0 0) (fun b _ => cmdOpc b == 1 && decide (64 ≤ (dwordAt b 1).toNat)) = true ∧
    holds (commanded 1 2 0 0 occupied) (fun b s => cmdOpc b == 1 && s.groups.any fun g => !g.2.ended && decide (g.2.tenant.toNat = (dwordAt b 1).toNat)) = true ∧
    holds (commanded 1 63 9 0) (fun b s => cmdOpc b == 1 && decide ((dwordAt b 1).toNat = 63) && s.groups.isEmpty) = true ∧
    holds (commanded 2 4095 0x8400 63) (fun b s => cmdOpc b == 2 && decide ((dwordAt b 1).toNat < 4096) && decide ((dwordAt b 2).toNat % 1024 = 0) &&
      decide ((dwordAt b 3).toNat < 64) && s.asidGen (BitVec.ofNat 12 4095) != 0xFF) = true ∧
    holds (commanded 2 4096 0 0) (fun b _ => cmdOpc b == 2 && decide (4096 ≤ (dwordAt b 1).toNat)) = true ∧
    holds (commanded 3 4095 0 0x1000) (fun b _ => cmdOpc b == 3 && decide ((dwordAt b 1).toNat < 4096)) = true ∧
    holds (commanded 4 9 0 0) (fun b s => cmdOpc b == 4 && Tab.get? s.stalls (dwordAt b 1).toNat == none) = true ∧
    holds (commanded 4 9 0 0 fun s => { s with stalls := [(9, .core 0)] }) (fun b s => (Tab.get? s.stalls (dwordAt b 1).toNat).isSome) = true ∧
    holds (commanded 6 999999 0 0) (fun b _ => cmdOpc b == 6 && decide ((dwordAt b 1).toNat < 1000000)) = true ∧
    holds (commanded 6 1000000000 0 0) (fun b _ => decide (1000000 ≤ (dwordAt b 1).toNat ∧ (dwordAt b 1).toNat ≤ 1000000000)) = true ∧
    holds (commanded 7 0x81 0 0) (fun b _ => cmdOpc b == 7 && (dwordAt b 1).getLsbD 7) = true ∧
    holds (commanded 8 0 0 0) (fun b s => cmdOpc b == 8 && decide ((dwordAt b 1).toNat = s.pkg.toNat)) = true ∧
    holds (commanded 8 32 0 0) (fun b _ => cmdOpc b == 8 && decide (32 ≤ (dwordAt b 1).toNat)) = true ∧
    holds (commanded 9 0x20000 0x20100 0) (fun b s => cmdOpc b == 9 && s.life == 0) = true ∧
    holds (commanded 9 0x20000 0x20100 0 fun s => { s with life := 1 }) (fun b s => s.life != 0 &&
      (s.readVirt 0 0 (dwordAt b 1).toNat 32).toOption.isSome && (s.translate 0 0 (0x20100 + 32767) accW).toOption.isSome) = true ∧
    holds (commanded 11 63 0 0) (fun b _ => cmdOpc b == 11 && decide ((dwordAt b 1).toNat < 64)) = true ∧
    holds (commanded 12 0x20000 64 0) (fun b s => cmdOpc b == 12 && (s.readVirt 0 0 (dwordAt b 1).toNat (dwordAt b 2).toNat).toOption.isSome) = true := by
  decide +kernel

/-- In Ready. -/
def inReady (s : State) : State := { s with power := .ready }

/-- The identity seeds of a package that has left OPEN. -/
def seeded (s : State) : State := { s with life := 1, identity := some identitySeeds }

theorem witness_more_commands :
    holds ((commanded 2 3 0x8400 63).writeBytes 48 [0xFF]) (fun b s => cmdOpc b == 2 &&
      s.asidGen (BitVec.ofNat 12 (dwordAt b 1).toNat) == 0xFF) = true ∧
    holds (commanded 6 1000000001 0 0) (fun b _ => cmdOpc b == 6 && decide (1000000000 < (dwordAt b 1).toNat)) = true ∧
    holds (commanded 8 31 0 0) (fun b s => cmdOpc b == 8 && decide ((dwordAt b 1).toNat < 32 ∧ (dwordAt b 1).toNat ≠ s.pkg.toNat) &&
      s.groups.isEmpty && s.waitHdrs.isEmpty && s.queues.isEmpty) = true ∧
    holds (commanded 8 31 0 0 occupied) (fun _ s => s.groups.any fun g => !g.2.ended) = true ∧
    holds (commanded 8 31 0 0 fun s => { s with waitHdrs := dependant.waitHdrs }) (fun _ s => !s.waitHdrs.isEmpty) = true ∧
    holds (commanded 9 0x20000 0x20100 0 fun s => { s with life := 2 }) (fun b s => cmdOpc b == 9 && s.identity == none) = true ∧
    holds (commanded 9 0x20000 0x20100 0 seeded) (fun b s => s.life != 0 && s.identity.isSome &&
      (s.readVirt 0 0 (dwordAt b 1).toNat 32).toOption.any fun x => [0, 30063].all fun j =>
        (x.2.translate 0 0 ((dwordAt b 2).toNat + j) accW).toOption.isSome) = true ∧
    holds (commanded 10 3 0 0 inReady) (fun b s => cmdOpc b == 10 && decide (2 < (dwordAt b 1).toNat) && s.power == .ready) = true ∧
    holds (commanded 10 2 0 0 inReady) (fun b s => decide (s.life.toNat < (dwordAt b 1).toNat ∧ (dwordAt b 1).toNat ≤ 2)) = true ∧
    holds (commanded 5 1 0 0x80) (fun b s => cmdOpc b == 5 && powerArg b == 1 && s.power == .run) = true := by decide +kernel

theorem witness_power_and_wipe :
    (holds (commanded 5 3 0 0 inReady) (fun b s => cmdOpc b == 5 && powerArg b == 3 && s.power == .ready) = true ∧
      holds (commanded 5 3 0 0 occupied) (fun b s => powerArg b == 3 && s.power == .run && s.groups.any fun g => !g.2.ended) = true ∧
      holds (commanded 5 3 0 0) (fun _ s => s.groups.isEmpty) = true) ∧
    (holds (commanded 5 4 4 0) (fun b _ => powerArg b == 4 && decide (3 < stepArg b)) = true ∧
      holds (commanded 5 4 3 0 inReady) (fun b s => decide (stepArg b ≤ 3) && s.power == .ready) = true) ∧
    holds (commanded 5 0 0 0) (fun b _ => powerArg b == 0) = true ∧
    (holds (commanded 5 5 0 0x80) (fun b s => !([0, 3, 4].contains (powerArg b)) && (maskArg b).getLsbD 7 &&
        s.cores.all fun x => !(s.maskDies (maskArg b)).contains (dieOf x.1) || x.2.slots == Vector.replicate 8 .free) = true ∧
      holds (commanded 5 5 0 1) (fun b s => s.cores.any fun x => (s.maskDies (maskArg b)).contains (dieOf x.1) && vget x.2.slots 0 .free != .free) = true) ∧
    (holds (commanded 10 0 0 0) (fun b s => cmdOpc b == 10 && decide ((dwordAt b 1).toNat ≤ s.life.toNat)) = true ∧
      holds (commanded 10 2 0 0) (fun b s => decide (s.life.toNat < (dwordAt b 1).toNat)) = true) ∧
    State.reset.power = .wiped ∧ ({ State.reset with power := .wiping } : State).power = .wiping := by decide +kernel

theorem witness_heat_and_links :
    (950 ≤ 950 ∧ ((one man).die 0).temp < 950) ∧ (1050 ≤ 1050 ∧ 950 ≤ (((one man).modDie 0 fun x => { x with temp := 1000 }).die 0).temp) ∧
    (999 < 1000 ∧ 999 < (((one man).modDie 0 fun x => { x with temp := 1000 }).die 0).temp ∧
      ∀ d, d < 8 → ((one man).pkg.toNat * 8 + d ≠ 0 → ((one man).die ((one man).pkg.toNat * 8 + d)).temp < 1000)) ∧
    ((one man).power = .run ∧ (((one man).modDie 0 fun x => { x with throttled := true }).die (dieOf 0)).throttled = true ∧
      ({ one man with cycle := 1 } : State).cycle % 2 = 1) ∧
    (15 < 16 ∧ (one man).linksDown.contains 15 = false ∧ Tab.getD ({ one man with linkFails := [(15, 16)] } : State).linkFails 15 0 = 16 ∧
      Tab.getD (one man).linkFails 15 0 < 16) := by decide +kernel

/-- A word to issue next. -/
def fetching (w : Nat) : State := State.reset.withFetchWord 32 w

/-- What the first candidate of core 0 fetches. -/
def fetched (s : State) (p : BitVec 32 → State → Nat → Strand → Bool) : Bool :=
  match s.candidates 0 with
  | (_, sid, t) :: _ =>
    match s.fetchAt t t.pc with
    | .word w s1 => p w s1 sid t
    | _ => false
  | [] => false

theorem witness_step_runs :
    (State.reset.power ≠ .run ∧ (fetching 0x25821234).power = .run ∧ (fetching 0x25821234).agenda = [.issue 0] ∧
      ((fetching 0x25821234).die (dieOf 0)).throttled = false) ∧
    ({ one man with strands := [] } : State).candidates 0 = [] ∧
    fetched (fetching 0x25821234) (fun w s1 sid t => w == 0x25821234 && (match decode w, exec (.lis 12 2 0x1234) { s1 with cur := sid } with
      | .ok i, .next s2 => i == .lis 12 2 0x1234 && s2.strand? sid != some t
      | _, _ => false)) = true ∧
    fetched (fetching 0) (fun w s1 sid t => (match decode w, exec (.illegalWord w) { s1 with cur := sid } with
      | .error _, .next s2 => s2.strand? sid != some t
      | _, _ => false)) = true ∧
    ((fetching 0).strand? 0).any (fun t => t.imgsz == 0 && ((fetching 0).translate (dieOf t.core) t.asid t.pc.toNat accX).toOption.any fun x =>
      !x.2.poisoned x.1 4) = true ∧
    isJump (.lis 12 2 0x1234) = false := by decide +kernel

/-- Word `w`, in a state that is changed. -/
def fetchingAs (w : Nat) (f : State → State) : State := f (fetching w)

theorem witness_turns :
    (((fetching 0x25821234).modCore 0 fun k => { k with issuedAt := some 0 }).core 0).issuedAt = some (fetching 0x25821234).cycle ∧
    ((fetching 0x25821234).core 0).issuedAt = none ∧
    ({ fetching 0x25821234 with agenda := [] } : State).dueCore = some 0 ∧
    ({ one man with cycle := 5 } : State).anyRun = true ∧
    (({ fetching 0x25821234 with agenda := [] } : State).modStrand 0 fun t => { t with lastIssue := some 0 }).dueCore = none ∧
    ({ one { man with st := .idle } with cores := [] } : State).dueCore = none ∧ (one { man with st := .idle }).anyRun = false ∧
    fetched (fetching 0x34000000) (fun w s1 sid t => (match decode w with
      | .ok i => isJump i && !t.stalls i && (match exec i { s1 with cur := sid } with | .next s2 => s2.strand? sid == some t | _ => false)
      | _ => false)) = true ∧
    fetched ((fetching 0x34000000).modStrand 0 fun t => { t with mig := some (1, false, 0, .gpr 12) }) (fun _ _ _ t => t.stalls (.jal 0 0)) = true := by
  decide +kernel

theorem witness_candidates : ((fetching 0).candidates 0).any (fun x => x.1 == 0 && x.2.1 == 0) = true := by decide +kernel

theorem witness_issue_frame : (scalarResult (.lis 12 2 0)).isSome ∧ (storeForm (.stb 12 1 13 0 0)).isSome ∧ (one man).canonical ∧
    (one man).poison = [] ∧ man.halts = false ∧ man.bound? 31 = none ∧
    (match exec (.stb 12 1 13 0 0) (one man) with | .next _ => true | _ => false) = true := by decide +kernel

theorem witness_round_trip : (Instr.addi 31 30 0xFFFF).wf = true ∧ (encode (.addi 31 30 0xFFFF)).isSome ∧ Instr.addi 31 30 0xFFFF ≠ .illegalWord 0 := by
  decide +kernel

theorem witness_never_stops : ((one man).strand? (one man).cur).isSome ∧ isEvent .hostAccess = true := by decide +kernel

theorem witness_canonical_step : (fetching 0x25821234).canonical ∧ (match step (fetching 0x25821234) with | .next _ => true | _ => false) = true := by
  decide +kernel

/-! ### Witnesses: translation, and accesses of global memory -/

/-- ASID 3 has tables at 0x8000, 0xC000, 0x10000 and 0x14000 for the page at 0x40000000, with entry `e` in place of that of level `n`. -/
def paged (n e : Nat) : State :=
  let l := (List.zip [0x8000, 0xC000, 0x10040, 0x14000] [0xC001, 0x10001, 0x14001, 0x3003B]).zipIdx
  l.foldl (fun s x => s.writeBytes x.1.1 (bytesOfNat 8 (if x.2 = n then e else x.1.2)))
    ((one man).writeBytes 48 (wordBytes (bit63 ||| 0x8000)))

/-- What 0x40000008 translates to for a read, or its fault. -/
def pageOf (s : State) (need : Acc := accR) : Nat × Bool :=
  match s.translate 0 3 0x40000008 need with
  | .ok x => (x.1, true)
  | .error c => (c, false)

theorem witness_translation_walks :
    pageOf (paged 4 0) = (0x30008, true) ∧ (paged 4 0).memWf ∧ pageOf (one man) = (1, false) ∧
    (match (one man).translate 0 3 (2 ^ 56) accR with | .error 5 => true | _ => false) = true ∧
    pageOf (paged 1 0x3C000000001) = (4, false) ∧ pageOf (paged 2 0) = (1, false) ∧ pageOf (paged 3 0x30001) = (3, false) ∧
    pageOf (paged 0 (0xC001 + 2 ^ 52)) = (3, false) ∧ pageOf (paged 1 0x10401) = (3, false) ∧
    pageOf (paged 1 0x1003B) = (3, false) ∧ pageOf (paged 3 (0x3003B + 2 ^ 53)) = (3, false) ∧ pageOf (paged 2 0x1003B) = (3, false) ∧
    pageOf (paged 3 (0xFFFFFFFFF0000 + 0x3B)) = (4, false) ∧ pageOf (paged 3 0x30013) = (2, false) ∧
    pageOf (paged 2 (0x8000000 + 0x3B)) = (0x8000008, true) ∧ pageOf (paged 4 0) accW = (0x30008, true) := by decide +kernel

theorem witness_translation_caches :
    (((mapped (one man)).die 0).tlb.any (fun e => e.hits (homeSlice 3 0x40000000) 3 ((mapped (one man)).asidGen 3) 0x40000000 accW) = true ∧
      ((mapped (one man)).asidEntry 3).getLsbD 63 = true ∧ accX &&& ~~~ (7 : Acc) = 0 ∧ accX &&& ~~~ (3 : Acc) ≠ 0) ∧
    (let w : List WalkHit := [⟨homeSlice 3 0x40000000, 3, 0, 2, 0x40000000, 0x14000⟩]
     (w.all fun e => e.hits (homeSlice 3 0x40000000) 3 0 0x40000000) = true ∧
      walkStart w (homeSlice 3 0x40000000) 3 0 0x40000000 0x8000 = (0x14000, 3)) ∧
    ((one man).die 0).wcache = [] := by decide +kernel

/-- The oldest access of a strand is one of global memory, whose page is mapped. -/
def global (k : OpKind) : State := mapped (doing k)

/-- The page of an access is there, and its word is reached. -/
def reached (s : State) (need : Acc) (p : Nat → State → Bool := fun _ _ => true) (va : Nat := 0x40000000) : Bool :=
  match s.translate 0 3 va need with
  | .ok (k, s1) => p k s1 && s.pkgUp (keyPkg k) && (s.sealedAt (.phys k)).isNone
  | .error _ => false

theorem witness_global_accesses :
    reached (global (.load (.virt 3 0x40000000) 8 false)) accR (fun k s1 => k == 0x30000 && !s1.poisoned k 8) = true ∧
    reached (global (.store (.virt 3 0x40000000) 8 7)) accW = true ∧
    reached (global (.amo 9 (.virt 3 0x40000000) 7 0)) accRW (fun k s1 => !s1.poisoned k 8) = true ∧
    (match faulting.translate 0 3 0x50000000 accR with | .error _ => true | _ => false) = true := by decide +kernel

/-- A synchronising operation at a word of core 1, which a state may have poisoned or sealed. -/
def syncAt (k : OpKind) (s : State := one man) : State :=
  { doing k with poison := s.poison, cores := s.cores }

theorem witness_sync_performed :
    (∀ k ∈ [OpKind.fill (scratchKey 1 64) 5, .empty (scratchKey 1 64), .test (scratchKey 1 64)],
      ((syncAt k).strand? 0).any (fun t => t.opFault == none && !t.pair && t.ops.any fun o => o.kind == k) = true ∧
      (syncAt k).pkgUp (keyPkg (scratchKey 1 64)) = true ∧ (syncAt k).poisoned (scratchKey 1 64) 8 = false) ∧
    (((syncAt (.fill (scratchKey 1 64) 5)).fillWord (scratchKey 1 64) 5).strand? 0).any (fun u => u.st != .ended) = true ∧
    (syncAt (.test (scratchKey 1 64)) poisoned1).poisoned (scratchKey 1 64) 8 = true ∧
    lost.sealedAt (.phys (scratchKey 1 64)) = some 1 ∧ vget (lost.die 0).errs 11 0 ≠ BitVec.allOnes 64 ∧
    meets (.fetest 12 5 1) lost (fun _ s1 t v => decide (syncWord t 5 (v 1) (rR ||| rA) (scratchKey 1 64)) && (t.regionAt 5).trapCapable &&
      !t.pair && t.ops.isEmpty && s1.sealedAt (.phys (scratchKey 1 64)) == some 1) = true := by decide +kernel

/-- An entry of the sequencer for `ldv` or `stv` of global memory at 0x40000040. -/
def vecGlobal (store : Bool) : SeqEntry :=
  { instr := if store then .stv 1 4 0 0 0 else .ldv 1 4 0 0 0, pc := 0, region := (man.regionAt 4), off := 64 }

theorem witness_sequencer_global :
    ((man.regionAt 4).addr 64 = .virt 3 0x40000040 ∧ (queued (vecGlobal false)).recRoom 0 = true) ∧
    reached (mapped (queued (vecGlobal false))) accR (fun k s1 => !s1.poisoned k 16) 0x40000040 = true ∧
    reached { mapped (queued (vecGlobal false)) with poison := [0x30040 / 8] } accR (fun k s1 => s1.poisoned k 16) 0x40000040 = true ∧
    reached (mapped (queued (vecGlobal true))) accW (fun _ _ => true) 0x40000040 = true ∧
    (match (queued (vecGlobal true)).translate 0 3 0x40000040 accW with | .error _ => true | _ => false) = true ∧
    ((queued (vecGlobal false)).modDie 0 fun x => { x with frecs := List.replicate 64 ⟨none, 0, 0, 0, 0⟩ }).recRoom 0 = false ∧
    ((queued (vecGlobal false)).strand? 0).any (fun t => t.ops.isEmpty && t.seqFault == none && t.taken == none) = true ∧
    (busy.ops ≠ [] ∧ interpretsTrapFlt (.vadd 1 2 3 .s32) = false) := by decide +kernel

/-- A lane on its way to a bin of core 1. -/
def laneAt (s : State) : State := syncAt (.lane (scratchKey 1 64) false 5 true) s

theorem witness_lanes_lost :
    (laneAt (one man)).memWf ∧ (laneAt lost).sealedAt (.phys (scratchKey 1 64)) = some 1 ∧ vget ((laneAt lost).die 0).errs 11 0 ≠ BitVec.allOnes 64 ∧
    (laneAt poisoned1).poisoned (scratchKey 1 64) 8 = true ∧ (laneAt poisoned1).sealedAt (.phys (scratchKey 1 64)) = none := by decide +kernel

/-- The page behind the PC lies in package 1, to which no link leads. -/
def awayBody : State := { mapPage 3 0x10000000 (2 ^ 47) (one man) with route := Vector.replicate 32 0xFF }

theorem witness_fetch_away :
    (match awayBody.fetchAt man 0x10000000 with | .away => true | _ => false) = true ∧
    meets (.vbegin 1 2 1) awayBody (fun _ s1 t _ => match s1.fetchBody t (t.pc + 4) 1 with | .away => true | _ => false) = true ∧
    (match (one man).fetchAt man 0x10000000 with | .xfault _ => true | _ => false) = true ∧
    (match awayBody.candidates 0 with | (_, 0, _) :: _ => true | _ => false) = true ∧
    (match (fetching 0).translate 0 ((fetching 0).strand? 0 |>.map (fun t => t.asid) |>.getD 0)
        (((fetching 0).strand? 0).map (fun t => t.pc.toNat) |>.getD 0) accX with
      | .ok (k, s1) => s1.pkgUp (keyPkg k) && !s1.poisoned k 4
      | .error _ => false) = true := by decide +kernel

theorem witness_loops_global :
    reached (mapped (looping (.ldv 1 4 0 0 0) (man.regionAt 4))) accR (fun k s1 => !s1.poisoned k 16) 0x40000040 = true ∧
    reached (mapped (looping (.stv 1 4 0 0 0) (man.regionAt 4))) accW (fun _ _ => true) 0x40000040 = true ∧
    (match (looping (.ldv 1 4 0 0 0) (man.regionAt 4)).translate 0 3 0x40000040 accR with | .error _ => true | _ => false) = true ∧
    (looping (.ldv 1 4 0 0 0) (man.regionAt 4)).recRoom 0 = true ∧
    ({ instr := .ldv 1 4 0 0 0, pc := 0, region := man.regionAt 4, off := 64 } : SeqEntry).ctr? = some .ld ∧
    ({ man with outst := List.replicate 255 (4, .ld) } : Strand).countFull [.ld] = true ∧
    (looping (.stv 1 4 0 0 0) (man.regionAt 4)).memWf := by decide +kernel

/-! ### Witnesses: ports, traps, contexts and records, again -/

/-- The page of the global handles lies in package 1, to which no link leads; and a strand whose h0 names it. -/
def apart (s : State) : State := { mapPage 3 0x40000000 (2 ^ 47) s with route := Vector.replicate 32 0xFF }
def farH0 : Strand := { man with handles := vset man.handles 0 (hd 4 0x40000000 0x10000 31) }

/-- A `qunbind` of g16 whose own result is for g16 too, while g16 is pending. -/
theorem witness_bindings_wait :
    meets (.qunbind 16 0) ((one { man with qbind := 8, pend := 0x10000 }).modPort 0 0 fun p => { p with owner := some 0 }) (fun s s1 t v =>
      let x := s1.unbindField s1.cur t (idx3 (v 0))
      x.1.pushBlocked s.cur { x.2 with claim := s.claimed } [16] == none && x.2.isPend 16 && (x.2.bound? 16).isNone) = true ∧
    bindsTo ((binder 16).modStrand 0 fun t => { t with claim := some (.push 1) }) (fun _ _ b => b == some 1) = true ∧
    ((one { man with claim := some (.push 1) }).claimed = some (.push 1)) := by decide +kernel

theorem witness_trap_tenant : ((one man).asidtab.toNat + 16 * man.asid.toNat + 8 = 56) ∧ man.asid ≠ 0 ∧ ({ man with asid := 0 } : Strand).asid = 0 ∧
    ((0xB : SysNum).toNat ∈ [0xB, 0xC, 0xD, 0xE, 0xF, 0x17, 0x19] ∧ 0x1A ≤ (0x3F : SysNum).toNat ∧
      ((one man).issued (.illegalWord (0x30#6 ++ 0x0#5 ++ (12 : GReg) ++ 0x1#4 ++ (0xB : SysNum)))).isSome) := by decide +kernel

/-- A strand in SWAP whose slice a store of its own, or another strand's word, is still to reach. -/
def leavingBusy : State := leaving.setStrand 0 { man with loc := .swapOut 0 0, ops := busy.ops }

/-- A full queue level of tenant 2 whose head wants cores. -/
def wanting : State := { queuedLaunch hdr1 1 with strands := (returning (.cached 0)).strands, cores := (returning (.cached 0)).cores }

set_option maxRecDepth 4000 in
theorem witness_contexts_leave :
    ((leaving.strand? 0).any (fun t => t.quiet && t.ops.all fun o => (o.kind.key?.map fun k => inSlice 0 0 k) != some true) = true) ∧
    ((leavingBusy.strand? 0).any (fun t => t.quiet && t.ops.any fun o => (o.kind.key?.map fun k => inSlice 0 0 k) == some true) = true) ∧
    vget (leavingBusy.core 0).slots 0 .free = .swap 0 ∧
    ({ man with pend := 1 } : Strand).quiet = false ∧ man.quiet = true ∧ 8 ≤ (cached8.core 0).cache.length ∧
    (((returning (.cached 0)).core 0).cache.find? fun i => ((returning (.cached 0)).strand? i).any fun t => (returning (.cached 0)).returns 0 t) = some 0 ∧
    (((returning (.stored 0)).core 0).cache.find? fun i => ((returning (.stored 0)).strand? i).any fun t => (returning (.stored 0)).returns 0 t) = none ∧
    ((returning (.stored 0)).strands.find? fun y => decide (y.2.loc = .stored 0) && (returning (.stored 0)).returns 0 y.2).map (fun y => y.1) = some 0 ∧
    ((returning (.stored 0)).badVirt 0 0 0x20000 4096 = false ∧
      ({ returning (.stored 0) with poison := [0x20000 / 8] } : State).badVirt 0 0 0x20000 4096 = true) := by decide +kernel

theorem witness_records_issue :
    (∀ i ∈ [Instr.spawn 12 1 2, .tqpush 12 1], meets i (one man) (fun _ s1 t v => recordCheck t (v 1) rR == none && t.ops.isEmpty &&
      s1.allUp (dieOf t.core) (t.regionAt 0) (v 1).toNat 64 accR) = true) ∧
    meets (.spawnd 12 1 2) spawner (fun _ s1 t v =>
      (match s1.ownerCore t (t.regionAt (bits (v 2) 40 5)) (v 2 &&& 0xFFFFFFFFFF).toNat with
       | .ok (_, s2) => s2.allUp (dieOf t.core) (t.regionAt 0) (v 1).toNat 64 accR
       | .error _ => false)) = true ∧
    meets (.spawnd 12 1 2) (one { man with gr := vset man.gr 2 (BitVec.ofNat 64 (7 * 2 ^ 40)) }) (fun _ _ t v =>
      (accessCheck (t.regionAt (bits (v 2) 40 5)) (bits (v 2) 40 5) (v 2 &&& 0xFFFFFFFFFF) 1 rR .plain).isSome) = true ∧
    meets (.spawnd 12 1 2) (one { man with gr := vset (vset man.gr 2 (BitVec.ofNat 64 (2 ^ 40 + 64))) 1 8 }) (fun _ _ t v =>
      accessCheck (t.regionAt (bits (v 2) 40 5)) (bits (v 2) 40 5) (v 2 &&& 0xFFFFFFFFFF) 1 rR .plain == none &&
        (recordCheck t (v 1) rR).isSome) = true ∧
    meets (.spawnd 12 1 2) (one { man with gr := vset man.gr 2 (BitVec.ofNat 64 (4 * 2 ^ 40 + 64)) }) (fun _ s1 t v =>
      accessCheck (t.regionAt (bits (v 2) 40 5)) (bits (v 2) 40 5) (v 2 &&& 0xFFFFFFFFFF) 1 rR .plain == none &&
      recordCheck t (v 1) rR == none && t.ops.isEmpty &&
      (match s1.ownerCore t (t.regionAt (bits (v 2) 40 5)) (v 2 &&& 0xFFFFFFFFFF).toNat with | .error _ => true | _ => false)) = true ∧
    (∀ i ∈ [Instr.spawn 12 1 2, .tqpush 12 1], meets i (apart (one farH0)) (fun _ s1 t v => recordCheck t (v 1) rR == none &&
      !s1.allUp (dieOf t.core) (t.regionAt 0) (v 1).toNat 64 accR) = true) ∧
    man.bound? 12 = none ∧ ((man.regionAt 4).space = 4 ∧ (man.regionAt 2).space = 2 ∧ (man.regionAt 3).space = 3 ∧ (man.regionAt 5).space = 5) ∧
    ((mapped (one man)).translate 0 3 0x40000000 accR).toOption.isSome := by decide +kernel

theorem witness_records_come :
    4 ∉ ((one man).cluster 0).fulls ∧ 4 ∈ (((one man).modCluster 0 fun x => { x with fulls := [4] }).cluster 0).fulls ∧
    ((one man).cluster 0).qrlim = 0 ∧ ((0 : Nat) = none.getD (clusterOf rec.core)) ∧
    (vget (((one man).modCore 0 fun k => { k with slots := vset k.slots 0 (.coming 0) }).core 0).slots 0 .free = .coming 0 ∧
      (coming.strand? 0).any (fun u => u.loc == .transit 0 0 && u.asid == (rec 2).asid) = true ∧
      vget (coming.core (rec 2).core).slots (bits (rec 2).loc 0 3) .free = .coming 0) ∧
    ((returning (.swapIn 0 0)).strand? 0).any (fun u => u.loc == .swapIn 0 0) = true := by decide +kernel

/-- The oldest access of a strand removes a record, into its slice. -/
def popping (t : Strand := man) (bank : List BankRec := []) : State :=
  (one { t with ops := [{ sn := 4, kind := .pop 0 (t.regionAt 0) 64, dest := .gpr 12, pc := 0 }] }).modCluster 0 fun x => { x with bank }

theorem witness_pop_choice :
    ((popping).allUp 0 (man.regionAt 0) 64 64 accW = true ∧ (apart (popping farH0)).allUp 0 (farH0.regionAt 0) 64 64 accW = false) ∧
    ((popping).popChoice man 0 = none ∧
      (popping man [{ task := rec 1, id := 0 }]).popChoice man 0 = some ({ task := rec 1, id := 0 }, 1) ∧
      (popping man [{ task := rec, id := 1, orphan := true }]).popChoice { man with sup := true } 0 = some ({ task := rec, id := 1, orphan := true }, 2)) ∧
    ((rec 1).kind = 1 ∧ (rec 1).asid = man.asid ∧ (rec 1).any = true) ∧
    (banked.spillLevel 0 = some 0 ∧ (popping).spillLevel 0 = none ∧ spilled.refillLevel 0 = some 0 ∧ (popping).refillLevel 0 = none) ∧
    (((popping).modCluster 0 fun x => { x with spill := .spill, stalled := [4] }).cluster 0).spill = .spill ∧
    ((popping).modCluster 0 fun x => { x with spill := .spill, stalled := [4] }).spillLevel 0 = none := by decide +kernel

theorem witness_can_start :
    ((ready 0xFFFF).canStart 0 { task := vset rec 6 0xFFFF0003, id := 7 } = true ∧ (one man).canStart 0 { task := rec 1, id := 0 } = false) ∧
    (TaskRec.need (vset (vset (Vector.replicate 8 0) 6 0x3) 7 0x2000000)).nbank = 0 := by decide +kernel

theorem witness_barrier_seals :
    meets (.bwait 12 13 1) (barred { sealed := true }) (fun _ s1 t _ => (s1.barReg t 1).held == some t.group && (s1.barReg t 1).ended? t.rank == none &&
      (s1.barReg t 1).sealed) = true ∧
    meets (.barw 12 1) (barred { sealed := true }) (fun _ s1 t _ => (s1.barReg t 1).held == some t.group && (s1.barReg t 1).sealed) = true ∧
    meets (.barw 12 1) (barred {}) (fun _ s1 t _ => !(s1.barReg t 1).sealed && !(s1.barReg t 1).mask.getLsbD t.rank) = true ∧
    meets (.barw 12 1) (barred { mask := 1, arrived := 1 }) (fun _ s1 t _ => !(s1.barReg t 1).sealed && (s1.barReg t 1).mask.getLsbD t.rank &&
      (s1.barReg t 1).arrived.getLsbD t.rank) = true ∧
    meets (.bset 12 1 0 1) ({ barred {} { man with gr := vset man.gr 1 1 } with groups := [(0, { w := 2, h := 1, s := 1 })] }) (fun _ s1 t v =>
      (s1.barReg t 1).arrived == 0 && (s1.barReg t 1).waits.isEmpty && decide ((t.homeCore - s1.rectCore t 0) % 16 < bits (v 1) 0 4)) = true := by
  decide +kernel

/-- A strand whose arrival is behind an access, behind it until a cycle, or behind none. -/
def arriving (c : Option Nat) : State :=
  one { man with arrivals := [{ home := 0, b := 1, rank := 0, after := [4], since := 0, clear := c }] }

theorem witness_arrivals :
    ((arriving none).strand? 0).any (fun t => t.arrivals.any fun a => a.clear == none && !(t.unperformed.contains 4)) = true ∧
    ((arriving (some 1)).strand? 0).any (fun t => t.arrivals.any fun a => a.clear == some 1 && decide ((arriving none).cycle < 1)) = true ∧
    ((arriving (some 0)).strand? 0).any (fun t => t.arrivals.any fun a => a.clear == some 0 && t.st != .ended) = true ∧
    (man.ops = [] ∧ man.taken = none ∧ (man.seq.map SeqItem.sns).flatten = []) := by decide +kernel

theorem witness_launch_waits :
    meets (.launch 12 1 1) (one man) (fun _ s1 t v => s1.allUp (dieOf t.core) (t.regionAt 1) (v 1).toNat 128 accR) = true ∧
    meets (.launch 12 4 1) (apart (one man)) (fun _ s1 t v => regionCheck (t.regionAt 4) 4 (v 1).toNat 128 rR == none &&
      !s1.allUp (dieOf t.core) (t.regionAt 4) (v 1).toNat 128 accR) = true ∧
    meets (.launch 12 1 1) (one busy) (fun _ _ t v => regionCheck (t.regionAt 1) 1 (v 1).toNat 128 rR == none && !t.ops.isEmpty) = true ∧
    meets (.launch 0 1 1) tiledAt (fun _ s1 t v => (match s1.readSpan (dieOf t.core) (t.regionAt 1) (v 1).toNat 128 with
        | .ok (b, _) => (headerOf b).tiled && decide ((v 0).toNat = 0)
        | .error _ => false)) = true ∧
    meets (.chplay 0 7 1) chained (fun _ s1 t v => s1.chainAt t.tenant.toNat (v 0).toNat == some 0x21000 &&
      (regionCheck (t.regionAt 7) 7 (v 1).toNat 8 rR).isSome) = true ∧
    meets (.chplay 0 1 1) (chained.modStrand 0 fun t => { t with ops := busy.ops }) (fun _ _ t v =>
      regionCheck (t.regionAt 1) 1 (v 1).toNat 8 rR == none && !t.ops.isEmpty) = true ∧
    meets (.chplay 0 1 1) (chained.putSysDword 0x21018 (BitVec.ofNat 64 (2 ^ 34))) (fun _ s1 t v =>
      s1.chainAt t.tenant.toNat (v 0).toNat == some 0x21000 && s1.chainPsize 0x21000 == 0) = true := by decide +kernel

/-! ### Witnesses: launches, skeins and copies, again -/

/-- A header with one handle in a list at 0x28400. -/
def hdrH : Header := vset (vset hdr1 11 (BitVec.ofNat 64 (1 * 2 ^ 20))) 13 0x28400

/-- What the launch of a ring's header comes to once the header has been read. -/
def readFromRing (s : State) : Except (Nat × Nat) (Nat × State) :=
  let r := s.ringAt 0x20020
  let h0 := headerOf (wordsBytes ((List.range 16).map fun j => s.sysDword (r.entry r.head 128 + 8 * j)))
  let h := vset h0 11 (putBits (putBits h0.ctl 12 6 2) 30 1 0)
  let s1 := s.putHead 0x20020 1
  (s1.touchHdr (r.entry r.head 128) h).acceptLaunch h [] (s1.hlist h) false .host true false 2 0 false

set_option maxRecDepth 4000 in
theorem witness_headers_read : (readFromRing (hostRing hdr1)).toOption.isSome ∧ (readFromRing (hostRing (Vector.replicate 16 0))).toOption.isNone ∧
    ((((ticking 0).touchChain 0x21000 2).sysDword 0x21018).getLsbD 32 = false ∧ ((ticking 0).touchChain 0x21000 2).chainState 0x21000 = 0 ∧
      ((ticking 1).touchChain 0x21000 2).chainState 0x21000 = 1 ∧ 2 ≤ ((ticking 2).touchChain 0x21000 2).chainState 0x21000 ∧
      (((ticking 1 true).touchChain 0x21000 2).sysDword 0x21018).getLsbD 32 = true) := by decide +kernel

/-- A launch that is placed at core 0, of one group. -/
def placing (h : Header) (tiles : List Tile := []) : State :=
  (one man).placeGroup 50 { hdr := h, tenant := 2, asid := 3, sup := false, prio := 0, src := .host, fromHost := true, total := 1, tiles }
    { core0 := 0, bank0 := 0, cl0 := 0, ch0 := 0, bars := [] }

/-- The group is there, and its first strand begins with the work identifier of its header. -/
theorem witness_group_strands : (Tab.get? (placing hdr1).groups (one man).serial).isSome ∧
    (Tab.get? (placing hdrT [tile1 32]).groups (one man).serial).any (fun x => x.strands.length == 1) = true ∧
    (hdrT.tiled = true ∧ hdr1.tiled = false ∧ hdr1.need.w = 1 ∧ hdr1.need.s = 1 ∧ hdr1.need.paired = false) ∧
    (qBound (qField 8 0) = true ∧ qBound (qField 0 0) = false ∧
      (vget (((one man).modPort 0 0 fun p => { p with owner := some 9 }).core 0).ports 0 {}).owner = some 9) := by decide +kernel

/-- A launch all of whose groups have ended, while a copy of its strand is still in a queue. -/
def endingBusy : State := ((ending true false).modStrand 0 fun t => { t with group := 7 }).modCore 0 fun k => { k with copyq := [cmd0] }

theorem witness_launch_quiet : (Tab.get? (ending true false).launches 50).any (fun l => (ending true false).launchQuiet l) = true ∧
    (Tab.get? endingBusy.launches 50).any (fun l => !endingBusy.launchQuiet l && endingBusy.groupTriggered 7) = true ∧
    (Tab.get? endingBusy.launches 50).any (fun l => ({ l with depsDone := true } : Launch).depsDone) = true := by decide +kernel

theorem witness_tick_wakes :
    Tab.wf (one man).strands = true ∧ ({ man with st := .idle, tw := true, loc := .slot 0 0 } : Strand).place?.isSome ∧
    ({ man with st := .idle, tw := true, loc := .cached 0 } : Strand).place? = none ∧ man.tw = false := by decide +kernel

/-- A strand that stands at a skein instruction with an access that is not yet performed, and one whose header's page is missing. -/
theorem witness_skein_waits :
    meets (.sdrop 12 4 1) (mapped (one busy)) (fun _ _ t v => !t.pair && !t.ops.isEmpty &&
      skeinCheck (t.regionAt 4) 4 (v 1) 64 (rR ||| rW ||| rS) == none) = true ∧
    meets (.resume 6 4 1) (mapped (one busy)) (fun _ _ t v => !t.pair && !t.ops.isEmpty &&
      skeinCheck (t.regionAt 4) 4 (v 1) 64 (rR ||| rW ||| rS) == none) = true ∧
    meets (.sdrop 12 4 1) (one man) (fun _ s1 t v => skeinCheck (t.regionAt 4) 4 (v 1) 64 (rR ||| rW ||| rS) == none &&
      s1.allUp (dieOf t.core) (t.regionAt 4) (v 1).toNat 64 accR &&
      (match s1.readSpan (dieOf t.core) (t.regionAt 4) (v 1).toNat 64 with | .error (.xlate ..) => true | _ => false)) = true ∧
    headerIs (.sdrop 12 4 1) (skein 5 0x3402) (fun _ _ h => decide (h.state = 2)) = true ∧
    meets (.sdrop 12 4 1) (skein 5 0x3402) (fun _ s1 t v => s1.allUp (dieOf t.core) (t.regionAt 4) (v 1).toNat 64 accR &&
      s1.virtUp (dieOf t.core) t.asid 0x40000048 8 accW) = true := by decide +kernel

/-- The group of a suspension, whose skein lies at 0x40000040; in another package, to which no link leads, with `apart`. -/
theorem witness_suspensions :
    suspending.virtUp 0 3 0x40000040 (suspending.group 0).shape.size accRW = true ∧
    (apart suspending).virtUp 0 3 0x40000040 ((apart suspending).group 0).shape.size accRW = false ∧
    (suspending.strand? 0).any (fun t => t.group == 0 && t.susp == some (.gpr 12) && t.st != .ended) = true ∧
    ((suspending fun g => { g with ended := false }).group 0).ended = false := by decide +kernel

/-- Sections of a group of one strand that goes on, or has ended, without and with a table. -/
theorem witness_skein_sections :
    (suspending.member (suspending.group 0) 0).isSome ∧ (grouped (fun g => g) { man with st := .ended }).member
      ((grouped (fun g => g) { man with st := .ended }).group 0) 0 = none ∧ ([] : List Byte).length ≤ 640 * (suspending.group 0).shape.c ∧
    (0 < (suspending.group 0).shape.n ∧ (suspending.group 0).nbank ≤ 8 ∧ 4096 % 64 = 0) ∧
    ((barred {}).core 0).bars[1]?.any (fun r => r.held == some 0) = true ∧
    (porter.core 0).ports[0]?.any (fun p => p.owner == some 0 && decide (p.vals.length ≤ 16)) = true := by decide +kernel

/-- A group that is being restored, of one core and one strand. -/
def restoring : State := suspending fun g => { g with restore := some (0x40000040, 3), cmp := 9 }

theorem witness_skein_restored :
    ((restoring.group 0).restore = some (0x40000040, 3) ∧ (restoring.group 0).tok = 0 ∧ (restoring.group 0).ended = false ∧
      restoring.virtUp 0 3 0x40000040 (restoring.group 0).shape.size accR = true ∧
      (restoring.readVirt 0 3 0x40000040 64).toOption.isSome ∧ (restoring.readVirt 0 3 (0x40000040 + (restoring.group 0).shape.size - 1) 1).toOption.isSome) ∧
    (apart restoring).virtUp 0 3 0x40000040 ((apart restoring).group 0).shape.size accR = false ∧
    (0 < (restoring.group 0).w ∧ (restoring.group 0).w ≤ 16 ∧ ((restoring.group 0).strands.filterMap id).Nodup) ∧
    (scratchKey 0 0 % 8 = 0 ∧ (List.replicate 65 (0 : Byte)).length = 64 + 64 / 64 ∧ (one man).memWf) ∧
    (hd 4 0 8 7).space = 4 ∧ ({} : Handle).isEmpty = true ∧
    ((hd 1 0x8000 0x8000 7).isEmpty = false ∧ (hd 1 0x8000 0x8000 7).space = 1 ∧ 1 * 0x8000 ≤ (hd 1 0x8000 0x8000 7).base.toNat ∧
      (hd 1 0x8000 0x8000 7).base.toNat + (hd 1 0x8000 0x8000 7).bound ≤ 0x8000 * (1 + 1) ∧
      0x8000 * (1 + 1) < (hd 1 0x8000 0x8001 7).base.toNat + (hd 1 0x8000 0x8001 7).bound) ∧
    ((hd 0 0x1000 0x1000 7).space = 0 ∧ 0x1000 * 1 ≤ (hd 0 0x1000 0x1000 7).base.toNat ∧
      (hd 0 0x1000 0x1000 7).base.toNat + (hd 0 0x1000 0x1000 7).bound ≤ 0x1000 * 1 + 0x1000) ∧
    ({ cmp := 9, area := 1, idx := 0, off := 8, val := 5 } : HeldVal).cmp = (restoring.group 0).cmp := by decide +kernel

/-- Channel 0 holds a copy recorded for the skein at 0x40000040, which has ended. -/
def recordedCopy (f : State → State := fun s => s) : State :=
  f (channel .finish { cmd1 with recorded := some (0x40000040, 3, 0) } fun _ =>
    { skein 5 (2 + 2 ^ 48) with groups := [(0, { w := 1, h := 1, s := 1, strands := [some 0] })] })

theorem witness_copies_resolve :
    (((recordedCopy).core 0).commands.find? fun y => y.2.recorded.isSome && ((recordedCopy).core 0).cmdDone y.1 y.2 && decide (y.1 = some 0)).any (fun y =>
      y.2.recorded == some (0x40000040, 3, 0) && y.2.tok == 0) = true ∧
    ((recordedCopy).group 0).building = none ∧ (recordedCopy).virtUp 0 3 0x40000040 64 accRW = true ∧
    (recordedCopy).wordUp 0 0 cmd1.cw (staged cmd1.regs 6) = true ∧
    ((recordedCopy).resolveCopy 0 { cmd1 with recorded := some (0x40000040, 3, 0) } 0x40000040 3 0).toOption.isSome ∧
    ((recordedCopy fun s => s.modGroup 0 fun g => { g with building := some 6 }).group 0).building.isSome := by decide +kernel

set_option maxRecDepth 4000 in
theorem witness_copies_wait :
    meets (.cpgo 0) (copying 16) (fun _ s1 t v => t.cwCheck (staged t.cp 5) (staged t.cp 6) == none && s1.cpRefusal t v 15 15 == none &&
      decide (16 ≤ (s1.core t.core).copyq.length)) = true ∧
    meets (.cpgo 0) (array { follower with outst := List.replicate 255 (4, .mx) }) (fun _ s1 t v => t.cwCheck (staged t.cp 5) (staged t.cp 6) == none &&
      s1.cpRefusal t v (s1.endFmt (t.regionAt (bits (staged t.cp 0) 0 5)) (staged t.cp 1).toNat).1 15 == none &&
      (staged t.cp 7).getLsbD 63 && t.countFull [.mx]) [0, 13] = true ∧
    meets (.cphint 0) (copying 16) (fun _ s1 t _ => decide (cpBytes t.cp < 2 ^ 48) && !(t.handle (bits (staged t.cp 0) 0 5)).badFmt &&
      decide (16 ≤ (s1.core t.core).copyq.length)) = true ∧
    meets (.cphint 0) (one { worker with cp := stg [(9, 0xFFFFFFFF), (10, 0x10000)] worker.cp }) (fun _ _ t _ => decide (2 ^ 48 ≤ cpBytes t.cp)) = true ∧
    meets (.cphint 0) (one { worker with handles := vset man.handles 1 (hd 1 0 0x40000 15 12) }) (fun _ _ t _ => decide (cpBytes t.cp < 2 ^ 48) &&
      (t.handle (bits (staged t.cp 0) 0 5)).badFmt) = true := by decide +kernel

/-- A copy from core 1, sealed or with a poisoned word, and one that reaches another package. -/
def cmdPeer : CopyCmd := { cmdApart with src := { cmdApart.src with space := 5, unit := 1 } }
def cmdOut : CopyCmd := { cmdApart with dst := { space := 4, base := 0x40000000, bound := 0x10000, rights := 31, asid := 3 } }

/-- A copy of one of two partners, from global memory. -/
def pairCopying : State :=
  (mapped (paired worker worker)).putChan 0 0 { st := .move, cmd := some { cmdApart with src := cmdOut.dst } }

/-- A copy of a byte at a time, whose second half of a word comes first. -/
def cmdBack : CopyCmd := { cmdApart with regs := stg [(8, 4), (9, 1), (12, 2 ^ 64 - 4), (3, 4)] cmdApart.regs }

theorem witness_copy_steps :
    ((channel .move cmdApart).askRead 0 9 ((channel .move cmdApart).copyReads 0 cmdApart) = none ∧
      (pairCopying.askRead 0 9 (pairCopying.copyReads 0 { cmdApart with src := cmdOut.dst })).isSome) ∧
    (channel .move cmdPeer).follow 0 cmdPeer.src = cmdPeer.src ∧ (channel .move cmdPeer).pairOut 0 cmdPeer.src = false ∧
    (match (channel .move cmdPeer).readSpan 0 cmdPeer.src 64 32 with | .ok _ => true | _ => false) = true ∧
    (match ((channel .move cmdPeer).modCore 1 fun k => { k with sealed := true }).readSpan 0 cmdPeer.src 0 32 with | .error (.peer 1) => true | _ => false) = true ∧
    (match ({ channel .move cmdPeer with poison := poisoned1.poison } : State).readSpan 0 cmdPeer.src 64 32 with | .error (.bad _) => true | _ => false) = true ∧
    (apart (channel .move cmdOut)).runUp 0 cmdOut.dst 256 accW = false ∧
    ((apart (channel .move cmdOut)).copyCheck 0 cmdOut = none ∧ (apart (channel .move cmdOut)).copyXlate 0 cmdOut = none) ∧
    ((channel .move cmdApart).copyPut cmdApart 0 cmdApart.dst [(0x8100, List.replicate 32 1)]).toOption.any (fun x => x.2.isNone) = true ∧
    ((((channel .move cmdApart).modCore 1 fun k => { k with sealed := true }).copyPut cmdApart 0 { cmdPeer.src with space := 5, unit := 1 }
      [(0x100, List.replicate 32 1)]).toOption.any fun x => x.2.isSome) = true ∧
    (channel .finish cmdApart).wordUp 0 0 cmdApart.cw (staged cmdApart.regs 6) = true ∧
    (apart (channel .finish cmdApart)).wordUp 0 0 cmdOut.dst 64 = false ∧
    (cmdApart.part = [] ∧ cmdApart.covers 0 64 32 = true ∧ cmdApart.covers 0 64 31 = false) ∧
    (cmdApart.split 0 64 256 (List.replicate 32 1)).1.length = 1 ∧ ({ cmdApart with part := [(3, 7)] } : CopyCmd).part.any (fun y => decide (y.1 < 256)) = true := by
  decide +kernel

theorem witness_records_wait :
    (ringed 0).descValid 0x20000 0 = true ∧ ((ringed 16).ringAt 0x20070 0).isFull = true ∧ ((ringed 15).ringAt 0x20070 0).isFull = false ∧
    ({ one man with sysdesc := 0x20000 } : State).descValid 0x20000 0 = false ∧
    ({ man with st := .parked (.own 64 true), wakeMsg := true, loc := .cached 0 } : Strand).place? = none := by decide +kernel

theorem witness_matrix_full :
    meets (.mclr 0 0) mxFull (fun _ s1 t _ => (s1.core t.core).accOf t.group 0 == some 0 && decide (8 ≤ (s1.core t.core).mxq.length)) = true ∧
    meets (.mdrain 12 0 0) mxFull (fun _ s1 t _ => (s1.core t.core).accOf t.group 0 == some 0 && decide (8 ≤ (s1.core t.core).mxq.length) &&
      ((s1.core t.core).mxq.all fun x => x.kind.acc? != some 0) &&
      s1.drainCheck t (s1.endFmt (t.regionAt (bits (staged t.mx 5) 0 5)) (bits (staged t.mx 6) 0 40)).1
        (s1.endFmt (t.regionAt (bits (staged t.mx 5) 0 5)) (bits (staged t.mx 6) 0 40)).2 0 0 == none) = true := by decide +kernel

/-- A drain whose destination is global. -/
def drainFar (l : List (Nat × Nat)) (turn : Bool := false) : MxCmd :=
  { mxc (.drain 0 11 false (stg l drainer.mx) { space := 4, base := 0x40000000, bound := 0x10000, rights := 31, asid := 3 } { space := 1 }) with begun := true, waiting := true, turn }

theorem witness_drains_wait :
    (mxQueue [mxc drainRow31]).askRead 0 9 ((mxQueue [mxc drainRow31]).drainReads (mxc drainRow31)) = none ∧
    (mxQueue [merging]).askRead 0 9 ((mxQueue [merging]).drainReads merging) = none ∧
    ((mapped (paired drainer drainer)).askRead 0 9 ((mapped (paired drainer drainer)).drainReads (drainFar [(0x0B, 16), (0x0C, 0x20000), (0x0D, 64)]))).isSome ∧
    ((staged (stg [(0x0B, 16)] drainer.mx) 0x0B).getLsbD 4 = true ∧ (staged drainer.mx 0x0B).getLsbD 4 = false) ∧
    (mxQueue [merging]).runUp 0 { space := 1, bound := 0x40000, rights := 15, asid := 3 } 64 accR = true ∧
    (apart (mxQueue [drainFar [(2, 2 ^ 31)] true])).drainUp 0 0 11 (drainRegs (stg [(2, 2 ^ 31)] drainer.mx) 4)
      { space := 4, base := 0x40000000, bound := 0x10000, rights := 31, asid := 3 } { space := 1 } (some 31) = false ∧
    (mxQueue [mxc drainRow31]).drainUp 0 0 11 (drainRegs (stg [(2, 2 ^ 31)] drainer.mx) 4)
      { space := 1, bound := 0x40000, rights := 15, asid := 3 } { space := 1 } (some 31) = true ∧
    ((drainRegs (stg [(2, 2 ^ 31)] drainer.mx) 4).rows = [31] ∧ (mxc drainRow31).row ≤ 31) ∧
    ((mapped (one drainer)).writeVirt 0 3 0x40000040 (wordBytes 1)).toOption.isSome := by decide +kernel

theorem witness_compares :
    (((array).modCore 0 fun k => { k with table := some { tbl with sums := true } }).core 0).compares 2 false = true ∧
    (((array).modCore 0 fun k => { k with table := some tbl }).core 0).compares 2 true = false ∧
    ((mxQueue [mxc mmc]).mmCompares 0 0 128 0xFFFFFFFF 0 [(2, 0x3F800000)]).1 = true := by decide +kernel

/-! ### Witnesses: walks, dispatch, the distaff, collectives, pairs and the host, again -/

/-- A global region, that `mapped` maps and `apart` puts in a package without a link. -/
def farRegion : Region := { space := 4, base := 0x40000000, bound := 0x10000, rights := 31, asid := 3 }

/-- Strand 0 walks with its partner, by table `w`. -/
def walkPair (w : WalkTable) : State := (mapped (paired walker walker)).modCore 0 fun k => { k with table := some w }

/-- A walk whose inputs are global, that waits to begin. -/
def walkIn : WalkCmd := { walkCmd with ih := farRegion }

theorem witness_walks_begin :
    (mxQueue [mxc (.walk walkCmd)] walker).askRead 0 9 ((mxQueue [mxc (.walk walkCmd)] walker).walkInputs 0 walkCmd) = none ∧
    ((mapped (paired walker walker)).askRead 0 9 ((mapped (paired walker walker)).walkInputs 0 walkIn)).isSome ∧
    ((apart (mxQueue [mxc (.walk walkIn)] walker)).walkInputs 0 walkIn).any (fun y =>
      !(apart (mxQueue [mxc (.walk walkIn)] walker)).allUp 0 y.1 y.2.1 y.2.2 accR) = true ∧
    ((mxQueue [mxc (.walk walkCmd)] walker).walkInputs 0 walkCmd).all (fun y =>
      (mxQueue [mxc (.walk walkCmd)] walker).allUp 0 y.1 y.2.1 y.2.2 accR) = true ∧
    ((mxQueue [mxc (.walk walkCmd)] walker).walkRows 0 0 walkCmd 0 1).1.length = 1 ∧ (walkCtl walkCmd.regs).ifmt ≠ 8 ∧
    (walkPair (walkAt farRegion 0)).walkRuns ((walkPair (walkAt farRegion 0)).core 0) (walkAt farRegion 0) = true ∧
    ((walkPair (walkAt farRegion 0)).askRead 0 9 ((walkPair (walkAt farRegion 0)).walkFetch 0 (walkAt farRegion 0) { walkCmd with nh := farRegion } 0)).isSome ∧
    walking.askRead 0 9 (walking.walkFetch 0 tbl walkCmd 0) = none ∧
    (nodeOf (apart (walking (walkAt farRegion 0)))).any (fun x => match x with | .wait => true | _ => false) = true := by decide +kernel

/-- A walk that keeps its nodes in operand slot 2, and whose records are global. -/
def walkKeep : WalkCmd := { walkCmd with regs := stg [(0x0C, 2)] walkCmd.regs }
def walkOut : WalkCmd := { walkCmd with oh := { farRegion with efmt := 11 } }

/-- What a pass of a walk at node 0 makes of its row, from a node that is fetched. -/
def passed (s : State) (w : WalkCmd) (p : NodeCtl → List WalkRow → State → Bool) : Bool :=
  match s.fetchNode 0 tbl.cmd w 0 with
  | .ok n m s1 => p n (tbl.rows.map fun r =>
      if n.feedY then { r with st := 3, cause := 4 }
      else if n.leaf then { r with y := r.result n m.mat m.scale, st := 1, leafid := n.leafid }
      else r.choose n m.hdr (walkCtl w.regs).dlim (r.result n m.mat m.scale)) s1
  | _ => false

/-- At node 0 stands a leaf that wants the output of the node before it. -/
def atFeed : State := walking.writeBytes (scratchKey 0 0) [0, 0, 0x30]

theorem witness_walk_passes :
    passed atLeaf walkCmd (fun n rows s1 => n.leaf && !n.feedY && rows.all (fun r => r.st == 1) &&
      (s1.walkRecords 0 tbl.cmd walkCmd rows [0]).2 == false && decide ((s1.walkRecords 0 tbl.cmd walkCmd rows [0]).1.mem ≠ s1.mem)) = true ∧
    passed atFeed walkCmd (fun n rows _ => n.feedY && rows.all fun r => r.st == 3 && r.cause == 4) = true ∧
    (atLeaf.recordsUp 0 tbl.cmd walkCmd [0] = true ∧ (apart atLeaf).recordsUp 0 tbl.cmd walkOut [0] = false) ∧
    passed atLeaf walkKeep (fun _ _ s1 => ((s1.core 0).slotOf 0 2).any (fun y => decide (64 + 128 ≤ 2048 * y.units)) &&
      (s1.core 0).ncache.any fun y => y.1 == 2 && y.2.1 == 0) = true ∧
    (staged (stg [(9, 1)] walkCmd.regs) 9).getLsbD 0 = true ∧
    (walking.walkWordUp 0 tbl.cmd = true ∧
      (apart walking).walkWordUp 0 (mxc (.walk { walkCmd with cw := farRegion, regs := stg [(0x0E, 64)] walkCmd.regs })) = false) ∧
    ((walking (tbl 3)).recordsUp 0 (tbl 3).cmd walkCmd [0] = true ∧ (tbl 3).rows.all (fun r => r.st == 3) = true) := by decide +kernel

/-- `dxc` with its token or its number global. -/
def dxFar (ids : Bool) : DxCmd := if ids then { dxc with ids := farRegion } else { dxc with src := farRegion }

/-- A token that passed over choice 0, in the list of its receiver. -/
def passedList : SendList := { slist with dest := (0, 1, 5), toks := [{ tok2 with choice := 1 }] }

theorem witness_tokens_wait :
    ((dispatching).allUp 0 ((dispatching).follow 0 dxc.ids) ((dxRegs dxc.regs).io + 4 * dxc.next) 4 accR = true ∧
      (dispatching).allUp 0 ((dispatching).follow 0 dxc.src) ((dxRegs dxc.regs).so + dxc.next * (dxRegs dxc.regs).str) (dxRegs dxc.regs).rb accR = true) ∧
    ((apart (dispatching (dxFar true))).dxReady 0 0).isSome = true ∧
    (apart (dispatching (dxFar true))).allUp 0 ((apart (dispatching (dxFar true))).follow 0 farRegion) (dxRegs dxc.regs).io 4 accR = false ∧
    (apart (dispatching (dxFar false))).allUp 0 ((apart (dispatching (dxFar false))).follow 0 farRegion) (dxRegs dxc.regs).so 16 accR = false ∧
    ((tok2.reps[0]?).join = none ∧ (tok2.reps[1]?).join = some (0, 1, 5) ∧ tok2.choices.length = 2) ∧
    (((dispatching).enterList 0 0 3 (0, 1, 5) 16 true { tok2 with choice := 1 }).die 0).openList 0 (0, 1, 5) = some { passedList with since := 0 } ∧
    (((dispatching dxc fun y => { y with lists := [{ passedList with toks := List.replicate 31 tok2 }] }).enterList 0 0 3 (0, 1, 5) 16 true
      { tok2 with choice := 1 }).die 0).openList 0 (0, 1, 5) = none ∧
    (match dxRegs (stg [(0, 2), (8, 0), (0x0B, 128)] dxc.regs) with
      | r => (dispatching).allUp 0 ((dispatching).follow 0 dxc.src) r.so (gateBytes r.e r.d) accR &&
        !(apart (dispatching)).allUp 0 farRegion r.so (gateBytes r.e r.d) accR) = true ∧
    ((dispatching).wordUp 0 0 dxc.cw (staged dxc.regs 0x0D) = true ∧ (apart (dispatching)).wordUp 0 0 farRegion 64 = false) := by decide +kernel

theorem witness_placement_waits :
    meets (.plswitch 12) (placed { worker with sup := true, pl := stg [(8, 1), (0x0A, 1)] worker.pl }) (fun _ s1 t _ =>
      s1.allUp (dieOf t.core) (t.regionAt (bits (staged t.pl 8) 0 5)) (bits (staged t.pl 9) 0 40) 32 accR) = true ∧
    ((mapped (one merger)).mergeUp 0 (mergeCmd [(0, 0, 0), (0, 1, 0)]) 64 = true ∧ (apart (one merger)).mergeUp 0 (mergeCmd [(0, 0, 0), (0, 1, 0)]) 64 = false) ∧
    ((one merger).mergeUp 0 (mergeCmd [(0, 0, 0), (0, 1, 0)]) 64 = true ∧ ((one merger).mergeXlate 0 (mergeCmd [(0, 0, 0), (0, 1, 0)]) 64).isSome) ∧
    (((mapped (one merger)).readSpan 0 (mergeCmd []).g 0 4).toOption.any fun x =>
      (x.2.gradsAt 0 (mergeCmd []) 0 [(0, 1, 0)]).toOption.isSome) = true ∧
    (((mapped (one merger)).gradsAt 0 (mergeCmd [(0, 0, 0), (0, 1, 0)]) (4 * 1) [(0, 0, 0), (0, 1, 0)]).toOption.any fun x =>
      (x.2.engWrite 0 (mergeCmd []).g 4 (bytesOfNat 4 0)).toOption.isSome) = true := by decide +kernel

theorem witness_collectives_wait :
    ((reducing).allUp (dieOf clc.core) ((reducing).follow 0 clc.src) (bits (staged clc.regs 5) 0 40) (8 * clWidth 11) accR = true ∧
      (apart reducing).allUp 0 farRegion 0 (8 * clWidth 11) accR = false) ∧
    (((clFar lost).allUp 0 ((clFar lost).follow 0 { clc.src with space := 5, unit := 1 }) 0 32 accR) = true) ∧
    ((reducing).wordUp 0 0 clc.cw (staged clc.regs 9) = true ∧ (apart reducing).wordUp 0 0 farRegion 64 = false) ∧
    ((reducing).allUp 0 clc.dst 0x8000 32 accW = true ∧ (apart reducing).allUp 0 farRegion 0 32 accW = false) := by decide +kernel

/-- Two partners whose copies read the global page: both reads are at the router, with the words they name. -/
def readPair (a b : Nat) : State :=
  { pairCopying with pairWrites := [{ sid := 0, sn := 9, act := .read [(.virt 3 a, 32)], since := 0 }, { sid := 1, sn := 9, act := .read [(.virt 3 b, 32)], since := 0 }] }
def readers (s : State) : State :=
  (s.modStrand 0 fun t => { t with engs := [9] }).modStrand 1 fun t => { t with engs := [9] }

/-- The copies of both partners: core 8's is like core 0's. -/
def bothCopy (s : State) : State := s.putChan 8 0 { st := .move, cmd := some { cmdApart with src := cmdOut.dst, sid := 1 } }

theorem witness_pair_reads :
    (ofPair (readers (readPair 0x40000000 0x40000000)) fun t u => t.ops.isEmpty && t.msgs.isEmpty && ((readers (readPair 0x40000000 0x40000000)).pairMatch 0 1 t u).any fun x =>
      x.1.act == x.2.act && x.1.act.isRead) = true ∧
    (ofPair (readers (readPair 0x40000000 0x40000008)) fun t u => ((readers (readPair 0x40000000 0x40000008)).pairMatch 0 1 t u).any fun x =>
      x.1.act != x.2.act) = true ∧
    (pairCopying.cores.findSome? fun k => pairCopying.engGo 0 9 k.1).isSome ∧
    (pairCopying.cores.all fun k => (pairCopying.engGo 1 9 k.1).isNone) = true ∧
    (((bothCopy pairCopying).cores.findSome? fun k => (bothCopy pairCopying).engGo 0 9 k.1).any fun s1 =>
      (s1.cores.findSome? fun k => s1.engGo 1 9 k.1).isSome) = true ∧
    ((paired man man).cores.all fun k => ((paired man man).engGo 0 9 k.1).isNone) = true ∧
    ({ one man with pkg := 1, linksDown := [0] } : State).actUp (.fill 0x30000 5) = false ∧
    (ofPair { paired busy man with pairCmds := [pairCmd 0 fun x => { x with after := [4] }, pairCmd 1] } fun t u =>
      { paired busy man with pairCmds := [pairCmd 0 fun x => { x with after := [4] }, pairCmd 1] }.pairMatch 0 1 t u == none &&
      !{ paired busy man with pairCmds := [pairCmd 0 fun x => { x with after := [4] }, pairCmd 1] }.mayBegin 0 [4] && (paired man man).heldMsg t == none) = true ∧
    (({ (paired man man) with strands := [(0, { man with loc := .gone }), (1, { man with loc := .slot 8 0 })] } : State).strand? 1).any (fun u => u.loc == .slot 8 0) = true ∧
    ({ (paired man man) with strands := [(0, { man with loc := .gone, index := 5 }), (1, { man with loc := .gone })]
                             groups := [(0, { w := 4, h := 2, s := 1, core0 := 2 })] } : State).group 0 = { w := 4, h := 2, s := 1, core0 := 2 } ∧
    (2 + 5 / 1 % 4 + 16 * (5 / 1 / 4)) % 16 < 8 := by decide +kernel

theorem witness_command_ring :
    ((commanded 4 9 0 0).power = .run ∧ (commanded 4 9 0 0).desc? none = some 0x20000 ∧ (commanded 4 9 0 0).descValid 0x20000 = true ∧
      ((commanded 4 9 0 0).ringAt 0x20090).count ≠ 0 ∧
      ((commanded 4 9 0 0).readVirt (commanded 4 9 0 0).ioDie 0 0x28000 64).toOption.isSome) ∧
    ((one man).command? = none ∧ (one man).desc? none = none) ∧
    holds (commanded 3 3 0 0x1000) (fun b s => cmdOpc b == 3 && !s.heldWrites 3) = true ∧
    holds (commanded 3 3 0 0x1000 fun s => { s with pairWrites := [{ sid := 0, sn := 9, act := .bytes [(0x30000, 1)], since := 0 }] }) (fun b s =>
      cmdOpc b == 3 && s.heldWrites 3) = true ∧
    holds (commanded 3 4096 0 0x1000) (fun b _ => cmdOpc b == 3 && decide (4096 ≤ (dwordAt b 1).toNat)) = true := by decide +kernel

theorem witness_wipe : Memory.wf (one man).mem = true ∧ (one man).pkg = 0 ∧ keyPkg (2 ^ 47) ≠ 0 ∧ keyPkg 0x30000 = 0 := by decide +kernel

end Sys2Proof.Tests
end

/-! SUPPORT. The arrival of a launch at the placer and of a `chplay` at its chain (R224, R225, R231, R232, R236 to R238, R330): what
an access at a virtual address may change, what the placer's queues and the bytes of a handle list hold, each outcome of
`State.acceptLaunch`, and from these what the three forms of LAUNCH_ENQUEUE and the two of CHAIN_REPLY do. -/

namespace Sys2Proof.Machine

/-! ### Accesses at virtual addresses -/

/-- `s'` differs from `s` at most in what an access at a virtual address may change: memory, its poison marks, and the translation
caches of the dies (R300 to R304, R314). -/
def State.accessedTo (s s' : State) : Prop := ∃ m p d, s' = { s with mem := m, poison := p, dies := d }

theorem State.accessedTo.refl (s : State) : s.accessedTo s := ⟨_, _, _, rfl⟩

theorem State.accessedTo.trans {s s1 s2 : State} : s.accessedTo s1 → s1.accessedTo s2 → s.accessedTo s2 := by
  rintro ⟨_, _, _, rfl⟩ ⟨m, p, d, rfl⟩
  exact ⟨m, p, d, rfl⟩

theorem State.accessedTo.strands_eq {s s' : State} : s.accessedTo s' → s'.strands = s.strands := by
  rintro ⟨_, _, _, rfl⟩
  rfl

theorem State.accessedTo_writeBytes (s : State) (k : Nat) (b : List Byte) : s.accessedTo (s.writeBytes k b) := ⟨_, _, _, rfl⟩

theorem State.accessedTo_modDie (s : State) (d : Nat) (f : Die → Die) : s.accessedTo (s.modDie d f) := ⟨_, _, _, rfl⟩

theorem State.accessedTo_ite (s : State) (c : Prop) [Decidable c] {s' : State} (h : s.accessedTo s') :
    s.accessedTo (if c then s else s') := by
  split
  · exact .refl s
  · exact h

theorem State.accessedTo_runByte (s : State) (k n : Nat) (b : Byte) : s.accessedTo (s.runByte k n b) := by
  unfold State.runByte
  split
  · exact ⟨_, _, _, rfl⟩
  · exact ⟨_, _, _, rfl⟩

/-- A translation sets A and D and fills the caches of its slice; it changes nothing else. -/
theorem State.accessedTo_of_translate {s s' : State} {d va k : Nat} {asid : BitVec 12} {need : Acc} {hint : Bool}
    (h : s.translate d asid va need hint = .ok (k, s')) : s.accessedTo s' := by
  simp only [State.translate] at h
  split at h
  · cases h
  split at h
  · cases h
  split at h
  · split at h
    · cases h
    · cases h
      exact .refl s
  split at h
  · cases h
  split at h
  · cases h
  split at h
  · cases h
    exact .refl s
  · cases h
    exact (s.accessedTo_ite _ (s.accessedTo_writeBytes _ _)).trans (State.accessedTo_modDie _ _ _)

theorem State.accessedTo_of_readVirt {d : Nat} {asid : BitVec 12} (n : Nat) : ∀ {s s' : State} {va : Nat} {b : List Byte},
    s.readVirt d asid va n = .ok (b, s') → s.accessedTo s' := by
  induction n with
  | zero =>
    intro s s' va b h
    cases h
    exact .refl s
  | succ n ih =>
    intro s s' va b h
    rw [State.readVirt] at h
    split at h
    · cases h
    next ht =>
      split at h
      · cases h
      next hr =>
        cases h
        exact (State.accessedTo_of_translate ht).trans (ih hr)

theorem State.accessedTo_of_writeVirtGo {d : Nat} {asid : BitVec 12} (b : List Byte) : ∀ {s s' : State} {va n : Nat},
    s.writeVirtGo d asid va n b = .ok s' → s.accessedTo s' := by
  induction b with
  | nil =>
    intro s s' va n h
    cases h
    exact .refl s
  | cons c b ih =>
    intro s s' va n h
    rw [State.writeVirtGo] at h
    split at h
    · cases h
    next ht =>
      exact ((State.accessedTo_of_translate ht).trans (State.accessedTo_runByte _ _ _ _)).trans (ih h)

theorem State.accessedTo_putOn (s : State) (d va : Nat) (b : List Byte) : s.accessedTo (s.putOn d va b) := by
  unfold State.putOn
  split
  next h => exact State.accessedTo_of_writeVirtGo b h
  · exact .refl s

theorem State.accessedTo_touch (s : State) (d va n : Nat) : s.accessedTo (s.touch d va n) := by
  unfold State.touch
  split
  next h => exact State.accessedTo_of_readVirt n h
  · exact .refl s

@[simp] theorem State.touch_strands (s : State) (d va n : Nat) : (s.touch d va n).strands = s.strands :=
  (s.accessedTo_touch d va n).strands_eq

@[simp] theorem State.putSysBytes_strands (s : State) (va : Nat) (b : List Byte) : (s.putSysBytes va b).strands = s.strands :=
  (s.accessedTo_putOn s.ioDie va b).strands_eq

@[simp] theorem State.putSysDword_strands (s : State) (va : Nat) (w : Word) : (s.putSysDword va w).strands = s.strands :=
  s.putSysBytes_strands va (wordBytes w)

/-! ### Words as bytes, fields of a word, and a handle list -/

theorem natOfBytes_bytesOfNat (n : Nat) : ∀ v : Nat, natOfBytes (bytesOfNat n v) = v % 256 ^ n := by
  induction n with
  | zero => intro v; simp [bytesOfNat, natOfBytes, Nat.mod_one]
  | succ n ih =>
    intro v
    rw [bytesOfNat, natOfBytes, ih, Nat.pow_succ', Nat.mod_mul, BitVec.toNat_ofNat]

@[simp] theorem bytesOfNat_length (n : Nat) : ∀ v : Nat, (bytesOfNat n v).length = n := by
  induction n with
  | zero => intro v; rfl
  | succ n ih => intro v; simp [bytesOfNat, ih]

@[simp] theorem wordBytes_length (w : Word) : (wordBytes w).length = 8 := bytesOfNat_length 8 w.toNat

/-- The first eight bytes are those of the word that they were made of. -/
theorem wordOf_wordBytes_append (w : Word) (r : List Byte) : wordOf (wordBytes w ++ r) = w := by
  have ht : (wordBytes w ++ r).take 8 = wordBytes w := List.take_left' (wordBytes_length w)
  have hn : natOfBytes (wordBytes w) = w.toNat := by
    have := natOfBytes_bytesOfNat 8 w.toNat
    rwa [Nat.mod_eq_of_lt (by simpa using w.isLt)] at this
  rw [wordOf, ht, hn, BitVec.ofNat_toNat, BitVec.setWidth_eq]

/-- Dword `i` of the bytes of a list of words is word `i`. -/
theorem dwordAt_wordsBytes (l : List Word) : ∀ (i : Nat) (w : Word), l[i]? = some w → dwordAt (wordsBytes l) i = w := by
  induction l with
  | nil => intro i w h; simp at h
  | cons v l ih =>
    have hcons : wordsBytes (v :: l) = wordBytes v ++ wordsBytes l := rfl
    intro i w h
    cases i with
    | zero =>
      obtain rfl : v = w := by simpa using h
      exact wordOf_wordBytes_append v _
    | succ i =>
      have hd : (wordBytes v ++ wordsBytes l).drop (8 * (i + 1)) = (wordsBytes l).drop (8 * i) := by
        rw [Nat.mul_add, Nat.add_comm, ← List.drop_drop, Nat.mul_one, List.drop_left' (wordBytes_length v)]
      rw [dwordAt, hcons, hd]
      exact ih i w (by simpa using h)

theorem putBits_reserved_ctl (w : Word) : putBits w 54 10 0 = w &&& 0x003FFFFFFFFFFFFF := by simp [putBits]

theorem putBits_reserved_tgt (w : Word) : putBits w 16 48 0 = w &&& 0xFFFF := by simp [putBits]

theorem putBits_high_byte (w : Word) : putBits w 56 8 0 = w &&& 0x00FFFFFFFFFFFFFF := by simp [putBits]

/-- The reserved bits of a handle's control word lie above its space. -/
theorem bits_space_masked (w : Word) : bits (w &&& 0x003FFFFFFFFFFFFF) 40 3 = bits w 40 3 := by
  have hm : (0x003FFFFFFFFFFFFF : Word).extractLsb' 40 3 = BitVec.allOnes 3 := by decide
  rw [bits, BitVec.extractLsb'_and, hm, BitVec.and_allOnes, bits]

/-- An entry of a handle list keeps no reserved bits (R7, R116). -/
theorem State.hlist_entry {s : State} {h : Header} {i : Nat} {x : Handle} (hx : (s.hlist h)[i]? = some x) {a : Nat}
    (ha : a = bits (vget h 13 0) 0 56 + 32 * i) :
    x.ctl = s.sysDword (a + 8) &&& 0x003FFFFFFFFFFFFF ∧ x.tgt = s.sysDword (a + 16) &&& 0xFFFF ∧
    x.base = s.sysDword a &&& if bits (s.sysDword (a + 8)) 40 3 = 4 then 0x00FFFFFFFFFFFFFF else BitVec.allOnes 64 := by
  have hv : h[13] = vget h 13 0 := rfl
  obtain ⟨k, hk, rfl⟩ : ∃ k, (List.range h.nhnd)[i]? = some k ∧
      Handle.ofBytes (wordsBytes ((List.range 4).map fun j => s.sysDword (bits h[13] 0 56 + 32 * k + 8 * j))) = x := by
    simpa [State.hlist] using hx
  obtain ⟨-, rfl⟩ := List.getElem?_eq_some_iff.mp hk
  rw [List.getElem_range, hv, ← ha]
  have hw (j : Nat) (hj : j < 4) : dwordAt (wordsBytes ((List.range 4).map fun j => s.sysDword (a + 8 * j))) j =
      s.sysDword (a + 8 * j) := dwordAt_wordsBytes _ j _ (by simp [hj])
  simp only [Handle.ofBytes, hw 0 (by decide), hw 1 (by decide), hw 2 (by decide), putBits_reserved_ctl, putBits_reserved_tgt,
    putBits_high_byte, bits_space_masked, Nat.mul_zero, Nat.add_zero, Nat.mul_one, true_and]
  split
  · rfl
  · exact BitVec.and_allOnes.symm

/-! ### The placer's queues (R225) -/

/-- The queue of tenant `t` at level `p`. -/
def LaunchQ.isOf (t p : Nat) (q : LaunchQ) : Bool := decide (q.tenant = t) && decide (q.prio = p)

theorem LaunchQ.isOf_iff {t p : Nat} {q : LaunchQ} : q.isOf t p = true ↔ q.tenant = t ∧ q.prio = p := by
  simp [LaunchQ.isOf]

theorem State.queue_eq (s : State) (t p : Nat) :
    s.queue t p = ((s.queues.find? (LaunchQ.isOf t p)).map fun q => q.entries).getD [] := rfl

theorem State.setQueue_queues (s : State) (t p : Nat) (l : List QEntry) : (s.setQueue t p l).queues =
    (s.queues.filter fun q => !q.isOf t p) ++ if l.isEmpty then [] else [{ tenant := t, prio := p, entries := l }] := rfl

@[simp] theorem State.queue_setQueue_self (s : State) (t p : Nat) (l : List QEntry) : (s.setQueue t p l).queue t p = l := by
  have hold : (s.queues.filter fun q => !q.isOf t p).find? (LaunchQ.isOf t p) = none := by simp [List.find?_eq_none]
  rw [State.queue_eq, State.setQueue_queues, List.find?_append, hold]
  cases l <;> simp [LaunchQ.isOf]

theorem State.queue_setQueue_other (s : State) {t p t' p' : Nat} (l : List QEntry) (h : t' ≠ t ∨ p' ≠ p) :
    (s.setQueue t p l).queue t' p' = s.queue t' p' := by
  have hne {q : LaunchQ} (hq : q.isOf t' p' = true) : q.isOf t p = false := by
    obtain ⟨rfl, rfl⟩ := LaunchQ.isOf_iff.mp hq
    exact Bool.eq_false_iff.mpr fun hq' => h.elim (· (LaunchQ.isOf_iff.mp hq').1) (· (LaunchQ.isOf_iff.mp hq').2)
  have hold : (s.queues.filter fun q => !q.isOf t p).find? (LaunchQ.isOf t' p') = s.queues.find? (LaunchQ.isOf t' p') := by
    rw [List.find?_filter]
    congr 1
    funext q
    cases hq : q.isOf t' p' with
    | false => simp
    | true => simp [hne hq]
  have hnew : (if l.isEmpty then [] else [({ tenant := t, prio := p, entries := l } : LaunchQ)]).find? (LaunchQ.isOf t' p') = none := by
    have : ({ tenant := t, prio := p, entries := l } : LaunchQ).isOf t' p' = false :=
      Bool.eq_false_iff.mpr fun hq => by simpa [LaunchQ.isOf] using hne hq
    cases l <;> simp [this]
  rw [State.queue_eq, State.setQueue_queues, List.find?_append, hold, hnew, Option.or_none, ← State.queue_eq]

/-! ### What the placer makes of a launch (R224, R231) -/

/-- A launch may be tiled only if it is one of `launch` (R224). -/
def LaunchFrom.mayTile (src : LaunchFrom) (fh dev : Bool) : Bool :=
  match src with
  | .strand _ => dev && !fh
  | _ => false

theorem LaunchFrom.mayTile_iff (src : LaunchFrom) (fh dev : Bool) :
    src.mayTile fh dev = true ↔ dev = true ∧ fh = false ∧ ∃ d, src = .strand d := by
  cases src <;> simp [LaunchFrom.mayTile]

/-- The launch that an accepted header becomes, with the records that have rows. -/
def Header.toLaunch (h : Header) (tiles : List Tile) (hs : List Handle) (src : LaunchFrom) (fh dev sup : Bool) (t : Nat) : Launch :=
  { hdr := h, tiles := tiles.filter fun x => x.rows ≠ 0, tenant := BitVec.ofNat 6 t, asid := h.ctl.setWidth 12, sup
    prio := h.ctl.extractLsb' 18 2, src, fromHost := fh, handles := hs, total := h.total (tiles.filter fun x => x.rows ≠ 0), dev }

theorem Header.toLaunch_total_plain {h : Header} (ht : h.tiled = false) (tiles : List Tile) (hs : List Handle) (src : LaunchFrom)
    (fh dev sup : Bool) (t : Nat) : (h.toLaunch tiles hs src fh dev sup t).total = h.product h.bnd 6 := by
  simp [Header.toLaunch, Header.total, ht]

theorem Header.toLaunch_total_tiled {h : Header} (ht : h.tiled = true) (tiles : List Tile) (hs : List Handle) (src : LaunchFrom)
    (fh dev sup : Bool) (t : Nat) :
    (h.toLaunch tiles hs src fh dev sup t).total = (tiles.filter fun x => x.rows ≠ 0).length := by
  simp [Header.toLaunch, Header.total, ht]

/-- The state in which the placer has taken launch `x`: under the next number, and behind its queue if it places groups. -/
def State.takeLaunch (s : State) (x : Launch) (t p : Nat) : State :=
  let s1 := { s with serial := s.serial + 1, launches := Tab.set s.launches s.serial x }
  if x.total = 0 then s1 else s1.setQueue t p (s.queue t p ++ [.launch s.serial])

/-- Taking a launch changes the next number, the launches and the queues. -/
theorem State.takeLaunch_frame (s : State) (x : Launch) (t p : Nat) : ∃ q, s.takeLaunch x t p =
    { s with serial := s.serial + 1, launches := Tab.set s.launches s.serial x, queues := q } := by
  unfold State.takeLaunch
  split
  · exact ⟨_, rfl⟩
  · exact ⟨_, rfl⟩

theorem State.get?_takeLaunch (s : State) (x : Launch) (t p : Nat) : Tab.get? (s.takeLaunch x t p).launches s.serial = some x := by
  obtain ⟨q, hq⟩ := s.takeLaunch_frame x t p
  rw [hq]
  exact Tab.get?_set_self _ _ _

theorem State.queue_takeLaunch_self (s : State) {x : Launch} (t p : Nat) (hx : x.total ≠ 0) :
    (s.takeLaunch x t p).queue t p = s.queue t p ++ [.launch s.serial] := by
  rw [State.takeLaunch, if_neg hx]
  exact State.queue_setQueue_self _ _ _ _

theorem State.queue_takeLaunch_other (s : State) {x : Launch} {t p t' p' : Nat} (hx : x.total ≠ 0) (h : t' ≠ t ∨ p' ≠ p) :
    (s.takeLaunch x t p).queue t' p' = s.queue t' p' := by
  rw [State.takeLaunch, if_neg hx]
  exact State.queue_setQueue_other _ _ h

section Accept

variable {s : State} {h : Header} {tiles : List Tile} {hs : List Handle} {src : LaunchFrom} {fh dev sup : Bool} {t p : Nat}

theorem State.acceptLaunch_badCount : s.acceptLaunch h tiles hs true src fh dev t p sup = .error (3, 4096) := rfl

/-- Past the count of its tile records, a launch is refused for its header, a record, or a full device queue, in this order; any
other is taken. -/
theorem State.acceptLaunch_eq : s.acceptLaunch h tiles hs false src fh dev t p sup =
    if h.refused s.tickp.toNat (src.mayTile fh dev) then .error (2, 0)
    else (if h.tiled then h.badTile tiles 0 else none).elim
      (if dev && (h.toLaunch tiles hs src fh dev sup t).total ≠ 0 && s.devFull t p then .error (1, 0)
        else .ok ((h.toLaunch tiles hs src fh dev sup t).total, s.takeLaunch (h.toLaunch tiles hs src fh dev sup t) t p))
      fun j => .error (3, j) := by
  unfold State.acceptLaunch
  cases hb : (if h.tiled then h.badTile tiles 0 else none) <;> rfl

theorem State.acceptLaunch_badHeader (hr : h.refused s.tickp.toNat (src.mayTile fh dev) = true) :
    s.acceptLaunch h tiles hs false src fh dev t p sup = .error (2, 0) := by
  rw [State.acceptLaunch_eq, if_pos hr]

theorem State.acceptLaunch_badTile (hr : h.refused s.tickp.toNat (src.mayTile fh dev) = false) (ht : h.tiled = true) {j : Nat}
    (hj : h.badTile tiles 0 = some j) : s.acceptLaunch h tiles hs false src fh dev t p sup = .error (3, j) := by
  simp [State.acceptLaunch_eq, hr, ht, hj]

theorem State.acceptLaunch_full (hr : h.refused s.tickp.toNat (src.mayTile fh dev) = false) (ht : h.tiled = false)
    (hn : (h.toLaunch tiles hs src fh dev sup t).total ≠ 0) (hd : dev = true) (hf : s.devFull t p = true) :
    s.acceptLaunch h tiles hs false src fh dev t p sup = .error (1, 0) := by
  subst hd
  simp [State.acceptLaunch_eq, hr, ht, hn, hf]

theorem State.acceptLaunch_taken (hr : h.refused s.tickp.toNat (src.mayTile fh dev) = false)
    (ht : h.tiled = true → h.badTile tiles 0 = none) (hf : dev = false ∨ s.devFull t p = false) :
    s.acceptLaunch h tiles hs false src fh dev t p sup =
      .ok ((h.toLaunch tiles hs src fh dev sup t).total, s.takeLaunch (h.toLaunch tiles hs src fh dev sup t) t p) := by
  have hb : (if h.tiled then h.badTile tiles 0 else none) = none := by
    split
    next h1 => exact ht h1
    · rfl
  have hq : (dev && (h.toLaunch tiles hs src fh dev sup t).total ≠ 0 && s.devFull t p) = false := by
    rcases hf with hf | hf <;> simp [hf]
  rw [State.acceptLaunch_eq, if_neg (ne_true_of_eq_false hr), hb, Option.elim_none, if_neg (ne_true_of_eq_false hq)]

/-- A launch that is accepted has been taken. -/
theorem State.eq_takeLaunch_of_acceptLaunch {bad : Bool} {n : Nat} {s1 : State}
    (ha : s.acceptLaunch h tiles hs bad src fh dev t p sup = .ok (n, s1)) :
    s1 = s.takeLaunch (h.toLaunch tiles hs src fh dev sup t) t p := by
  cases bad with
  | true => cases ha
  | false =>
    rw [State.acceptLaunch_eq] at ha
    split at ha
    · cases ha
    cases hb : (if h.tiled then h.badTile tiles 0 else none) with
    | some j => rw [hb] at ha; cases ha
    | none =>
      rw [hb, Option.elim_none] at ha
      split at ha
      · cases ha
      · cases ha
        rfl

/-- No record of a tiled launch is bad when each has rows, an expert and a tile in bounds (R231). -/
theorem Header.badTile_eq_none_iff (h : Header) (l : List Tile) : ∀ j : Nat, h.badTile l j = none ↔ ∀ x ∈ l,
    x.rows.toNat ≤ 32 ∧ x.expert.toNat < h.ext h.bnd ∧ x.tile.toNat < if h.bnd = 4 then 1 else h.ext (h.bnd + 1) := by
  induction l with
  | nil => intro j; simp [Header.badTile]
  | cons x l ih =>
    intro j
    rw [List.forall_mem_cons, ← ih (j + 1), Header.badTile]
    generalize (if h.bnd = 4 then 1 else h.ext (h.bnd + 1)) = c
    split
    next hx =>
      have : ¬(x.rows.toNat ≤ 32 ∧ x.expert.toNat < h.ext h.bnd ∧ x.tile.toNat < c) := by omega
      simp [this]
    next hx =>
      have : x.rows.toNat ≤ 32 ∧ x.expert.toNat < h.ext h.bnd ∧ x.tile.toNat < c := by omega
      simp [this]

end Accept

/-! ### A strand's launch arrives (R232) -/

theorem exec_launchEnqueue (s : State) : exec .launchEnqueue s = execLaunchEnqueue s := rfl

theorem exec_launchEnqueue_strand {s : State} (h : s.ua = 0) : exec .launchEnqueue s = .next (s.enqueueStrand s.ub) := by
  simp only [exec_launchEnqueue, execLaunchEnqueue, h]

theorem exec_launchEnqueue_ring {s : State} (h : s.ua = 1) :
    exec .launchEnqueue s = .next (s.enqueueRing (s.ub / 4) (s.ub % 4)) := by
  simp only [exec_launchEnqueue, execLaunchEnqueue, h]

theorem exec_launchEnqueue_waiting {s : State} (h : s.ua ≥ 2) : exec .launchEnqueue s = .next (s.enqueueWaiting s.ub) := by
  obtain ⟨n, hn⟩ : ∃ n, s.ua = n + 2 := ⟨s.ua - 2, by omega⟩
  simp only [exec_launchEnqueue, execLaunchEnqueue, hn]

/-- The strand after its oldest message has been answered with a result that is on its way. -/
def Strand.answered (t : Strand) (rest : List Msg) (r : Ret) : Strand := { t with msgs := rest, rets := t.rets ++ [r] }

section Launch

variable {s : State} {sid sn at_ die : Nat} {t : Strand} {h : Header} {tiles : List Tile} {hs : List Handle} {bad : Bool}
  {dest : Dest} {rest : List Msg} (ht : s.strand? sid = some t) (hp : t.pair = false)
  (hm : t.msgs = .launch sn at_ h tiles hs bad die dest :: rest)
include ht hp hm

theorem State.enqueueStrand_refused {e : Nat × Nat}
    (ha : s.acceptLaunch h tiles hs bad (.strand die) false true (bits h.ctl 12 6) (bits h.ctl 18 2) false = .error e) :
    s.enqueueStrand sid = s.setStrand sid
      (t.answered rest { kind := .launch, sn, dests := [(dest, BitVec.ofNat 64 (e.2 * 2 ^ 16 + e.1))] }) := by
  simp [State.enqueueStrand, ht, hp, hm, ha, State.modStrand_eq ht, launchWord, Except.map, Strand.answered]

theorem State.enqueueStrand_accepted {n : Nat} {s1 : State}
    (ha : s.acceptLaunch h tiles hs bad (.strand die) false true (bits h.ctl 12 6) (bits h.ctl 18 2) false = .ok (n, s1))
    (hn : n < 2 ^ 32) :
    s.enqueueStrand sid = s1.setStrand sid
      (t.answered rest { kind := .launch, sn, dests := [(dest, BitVec.ofNat 64 (n * 2 ^ 32))] }) := by
  have hs1 : s1.strand? sid = some t := by
    obtain ⟨q, hq⟩ := s.takeLaunch_frame _ _ _
    rw [State.eq_takeLaunch_of_acceptLaunch ha, hq]
    exact ht
  have hw : launchWord (.ok n) = BitVec.ofNat 64 (n * 2 ^ 32) := by rw [launchWord, if_pos hn]
  simp [State.enqueueStrand, ht, hp, hm, ha, State.modStrand_eq hs1, hw, Except.map, Strand.answered]

end Launch

/-! ### The next header of a launch ring arrives (R330, R331) -/

@[simp] theorem Header.ctl_vset (h : Header) (w : Word) : Header.ctl (vset h 11 w) = w := by
  simp [Header.ctl, vset]

@[simp] theorem Header.vset_ctl (h : Header) : vset h 11 h.ctl = h := by
  ext i hi
  by_cases h11 : i = 11
  · subst h11; simp [Header.ctl, vset]
  · simp [vset, Ne.symm h11]

/-- What is left of a ring's header that reached the placer: the state in which it has been taken, or the event of its refusal. -/
def State.afterRing (s : State) (owner p : Nat) : Except (Nat × Nat) (Nat × State) → State
  | .ok x => x.2
  | .error e => s.sendEvent (some owner) .launchref 0 e.1 p

theorem State.enqueueRing_noDesc {s : State} {t p : Nat} (hd : s.desc? (if t < 64 then some t else none) = none) :
    s.enqueueRing t p = s := by
  simp only [State.enqueueRing, hd]

theorem State.enqueueRing_empty {s : State} {t p d : Nat} (hd : s.desc? (if t < 64 then some t else none) = some d)
    (he : s.descValid d = false ∨ (s.ringAt (d + 0x20 + 16 * p)).count = 0) : s.enqueueRing t p = s := by
  have : (!s.descValid d || decide ((s.ringAt (d + 0x20 + 16 * p)).count = 0)) = true := by
    rcases he with he | he <;> simp [he]
  simp only [State.enqueueRing, hd, this, ↓reduceIte]

/-- A header of a launch ring: HEAD advances, and its launch is taken or refused with an event. -/
theorem State.enqueueRing_header {s s1 s2 : State} {t p d : Nat} {r : Ring} {h0 h : Header}
    (hd : s.desc? (if t < 64 then some t else none) = some d) (hv : s.descValid d = true)
    (hr : r = s.ringAt (d + 0x20 + 16 * p)) (hc : r.count ≠ 0)
    (hh0 : h0 = headerOf (wordsBytes ((List.range 16).map fun j => s.sysDword (r.entry r.head 128 + 8 * j))))
    (hh : h = if t < 64 then vset h0 11 (putBits (putBits h0.ctl 12 6 t) 30 1 0) else h0)
    (hs1 : s1 = s.putHead (d + 0x20 + 16 * p) ((r.head + 1) % 2 ^ 32)) (hs2 : s2 = s1.touchHdr (r.entry r.head 128) h) :
    s.enqueueRing t p = s2.afterRing (bits h.ctl 12 6) p
      (s2.acceptLaunch h [] (s1.hlist h) false .host true false (bits h.ctl 12 6) p (h.ctl.getLsbD 30)) := by
  have hctl : (if t < 64 then putBits (putBits h0.ctl 12 6 t) 30 1 0 else h0.ctl) = h.ctl := by
    rw [hh]
    split <;> simp
  have hset : vset h0 11 h.ctl = h := by
    rw [hh]
    split <;> simp
  have hne : (!s.descValid d || decide (r.count = 0)) = false := by simp [hv, hc]
  subst hs2 hs1
  simp only [State.enqueueRing, hd, ← hr, hne, Bool.false_eq_true, ↓reduceIte, ← hh0, hctl, hset]
  split
  next ha => rw [ha, State.afterRing]
  next ha => rw [ha, State.afterRing]

/-! ### A header that waits in the fabric interface arrives (R225, R229, R237) -/

theorem State.enqueueWaiting_none {s : State} {i : Nat} (h : s.waitHdrs[i]? = none) : s.enqueueWaiting i = s := by
  simp only [State.enqueueWaiting, h]

/-- A header of the host that is the oldest of its queue, and is accepted, waits no longer. -/
theorem State.enqueueWaiting_accepted {s s1 : State} {i n : Nat} {w : WaitHdr} (hw : s.waitHdrs[i]? = some w) (hsrc : w.src = .host)
    (hold : ∀ v ∈ s.waitHdrs.take i, v.tenant ≠ w.tenant ∨ bits v.hdr.ctl 18 2 ≠ bits w.hdr.ctl 18 2)
    (ha : s.acceptLaunch w.hdr [] w.handles false .host w.fromHost true w.tenant.toNat (bits w.hdr.ctl 18 2) w.sup = .ok (n, s1)) :
    s.enqueueWaiting i = ({ s1 with waitHdrs := s1.waitHdrs.eraseIdx i } : State).modLaunch s.serial fun x => { x with src := .host } := by
  have hfirst : ((s.waitHdrs.take i).any fun v => decide (v.tenant = w.tenant) &&
      decide (bits v.hdr.ctl 18 2 = bits w.hdr.ctl 18 2)) = false := by
    rw [List.any_eq_false]
    intro v hv
    rcases hold v hv with h | h <;> simp [h]
  simp only [State.enqueueWaiting, hw, hfirst, Bool.false_eq_true, ↓reduceIte, hsrc, ha]

/-- A change of a launch changes the launches alone. -/
theorem State.modLaunch_frame (s : State) (l : Nat) (f : Launch → Launch) : ∃ x, s.modLaunch l f = { s with launches := x } := by
  unfold State.modLaunch
  split
  · exact ⟨_, rfl⟩
  · exact ⟨_, rfl⟩

/-! ### `chplay` reaches its chain (R236 to R238) -/

@[simp] theorem State.touchHdr_strands (s : State) (a : Nat) (h : Header) : (s.touchHdr a h).strands = s.strands := by
  simp [State.touchHdr]

@[simp] theorem State.touchChain_strands (s : State) (a t : Nat) : (s.touchChain a t).strands = s.strands := by
  simp [State.touchChain]

@[simp] theorem State.putChainState_strands (s : State) (a st : Nat) (err : Bool) :
    (s.putChainState a st err).strands = s.strands := by
  simp [State.putChainState]

@[simp] theorem State.copySys_strands (n : Nat) : ∀ (s : State) (src dst : Nat), (s.copySys src dst n).strands = s.strands := by
  induction n with
  | zero => intro s src dst; rfl
  | succ n ih =>
    intro s src dst
    rw [State.copySys, ih]
    split
    next hr => rw [State.putSysBytes_strands, (State.accessedTo_of_readVirt 1 hr).strands_eq]
    · rfl

@[simp] theorem State.submitChainHdr_strands (s : State) (a t k id i : Nat) :
    (s.submitChainHdr a t k id i).strands = s.strands :=
  State.touchHdr_strands _ _ _

@[simp] theorem State.startReplay_strands (s : State) (a t k : Nat) : (s.startReplay a t k).strands = s.strands := by
  simp [State.startReplay, State.fresh]

/-- A request of a chain touches no strand. -/
@[simp] theorem State.chainRequest_strands (s : State) (a t k : Nat) (patch : Option (List Byte)) :
    (s.chainRequest a t k patch).2.strands = s.strands := by
  unfold State.chainRequest
  dsimp only
  split
  · simp
  · split
    · cases patch <;> simp
    · cases patch <;> simp
    · cases patch <;> simp

/-- The status of a request: 0 to 2 as the chain's STATE says, and 0 of a reentrant chain. -/
theorem State.chainRequest_status (s : State) (a t k : Nat) (patch : Option (List Byte)) : (s.chainRequest a t k patch).1 =
    if ((s.touchChain a t).sysDword (a + 0x18)).getLsbD 32 then 0 else min ((s.touchChain a t).chainState a) 2 := by
  unfold State.chainRequest
  dsimp only
  split
  · rfl
  · generalize (s.touchChain a t).chainState a = n
    rcases n with _ | _ | n
    · rfl
    · rfl
    · change 2 = min (n + 2) 2
      omega

theorem exec_chainReply (s : State) : exec .chainReply s = execChainReply s := rfl

section Chplay

variable {s : State} {t : Strand} {sn at_ : Nat} {k : Word} {patch : List Byte} {dest : Dest} {rest : List Msg}
  (ht : s.strand? s.ua = some t) (hub : s.ub % 2 = 1) (hp : t.pair = false) (hm : t.msgs = .chplay sn at_ k patch dest :: rest)
include ht hub hp hm

theorem exec_chainReply_noChain (hc : s.chainAt t.tenant.toNat k.toNat = none) : exec .chainReply s =
    .next (s.setStrand s.ua (t.answered rest { kind := .chain, sn, dests := [(dest, 3)] })) := by
  simp [exec_chainReply, execChainReply, hub, ht, hp, hm, hc, State.modStrand_eq ht, Strand.answered]

theorem exec_chainReply_chain {a st : Nat} {s1 : State} (hc : s.chainAt t.tenant.toNat k.toNat = some a)
    (hr : s.chainRequest a t.tenant.toNat k.toNat (some patch) = (st, s1)) : exec .chainReply s =
      .next (s1.setStrand s.ua (t.answered rest { kind := .chain, sn, dests := [(dest, BitVec.ofNat 64 st)] })) := by
  have ht1 : s1.strand? s.ua = some t := by
    have h1 := s.chainRequest_strands a t.tenant.toNat k.toNat (some patch)
    rw [hr] at h1
    rw [State.strand?, h1]
    exact ht
  simp [exec_chainReply, execChainReply, hub, ht, hp, hm, hc, hr, State.modStrand_eq ht1, Strand.answered]

end Chplay

/-! ### A result reaches its register (R80) -/

/-- Strand `t` once result `r` of place `i`, the word `v` for register `d`, has reached it. -/
def Strand.received (t : Strand) (i : Nat) (r : Ret) (d : GReg) (v : Word) : Strand :=
  ({ ({ t with rets := t.rets.eraseIdx i } : Strand).setG d v with pend := t.pend &&& ~~~ BitVec.twoPow 32 d.toNat } : Strand).uncount r.sn

/-- The result of a strand that has not ended, for a g register, and not to be copied to a partner, reaches the register. -/
theorem arriveResult_gpr {s : State} {t : Strand} {r : Ret} {d : GReg} {v : Word} (ht : s.strand? s.ua = some t)
    (hr : t.rets[s.ub]? = some r) (hd : r.dests = [(.gpr d, v)]) (he : t.st ≠ .ended) (hw : ∀ w ∈ s.twins, w.west ≠ s.ua) :
    arriveResult r.kind s = .next (s.setStrand s.ua (t.received s.ub r d v)) := by
  have hecho : ∀ u, (s.setStrand s.ua u).echo s.ua r = s.setStrand s.ua u := by
    intro u
    have : s.twins.find? (fun w => w.west == s.ua && w.wsn == r.sn) = none := by
      rw [List.find?_eq_none]
      intro w h
      simp [hw w h]
    simp only [State.echo, State.setStrand_twins, this]
  have hun : ∀ u : Strand, u.st = t.st → (s.setStrand s.ua u).uncount s.ua r.sn = s.setStrand s.ua (u.uncount r.sn) := by
    intro u hu
    simp only [State.uncount, State.strand?_setStrand_self, State.setStrand_setStrand, hu, if_neg he]
  have hdel : ((s.setStrand s.ua { t with rets := t.rets.eraseIdx s.ub }).deliverAll s.ua r) =
      s.setStrand s.ua (t.received s.ub r d v) := by
    rw [State.deliverAll, hd, List.foldl_cons, List.foldl_nil,
      State.deliver_gpr d v (State.strand?_setStrand_self s s.ua _), State.setStrand_setStrand, hun]
    · rfl
    · simp
  simp only [arriveResult, ht, hr, ↓reduceIte, hdel, hecho]

/-- The status of a `chplay` that is on its way reaches the strand. -/
theorem exec_chainReply_result {s : State} (hub : s.ub % 2 = 0) :
    exec .chainReply s = arriveResult .chain { s with ub := s.ub / 2 } := by
  rw [exec_chainReply, execChainReply, if_pos hub]

theorem Strand.g_received_self (t : Strand) (i : Nat) (r : Ret) {d : GReg} (v : Word) (hd : d ≠ 0) :
    (t.received i r d v).g d = v := Strand.g_setG_self _ d v hd

theorem Strand.g_received_other (t : Strand) (i : Nat) (r : Ret) {d q : GReg} (v : Word) (hq : q ≠ d) :
    (t.received i r d v).g q = t.g q := Strand.g_setG_other _ v hq

theorem Strand.pend_received (t : Strand) (i : Nat) (r : Ret) (d : GReg) (v : Word) :
    (t.received i r d v).pend.getLsbD d.toNat = false := by
  have := d.isLt
  simp [Strand.received, Strand.uncount]

@[simp] theorem Strand.rets_received (t : Strand) (i : Nat) (r : Ret) (d : GReg) (v : Word) :
    (t.received i r d v).rets = t.rets.eraseIdx i := by
  simp [Strand.received, Strand.uncount]

/-! ### Launches arrive, and chains reply -/

/-- R224, R225, R231, R232, R330: what reaches the placer, by the four clauses of the claim. -/
theorem launchReachesPlacer : Sys2Proof.Claims.LaunchesArrive := by
  refine ⟨?strand, ?placer, ?ring, ?waiting⟩
  case strand =>
    intro s t sn at_ h tiles hs bad die dest rest hua ht hp hm
    rw [exec_launchEnqueue_strand hua]
    exact ⟨fun e ha => congrArg _ (State.enqueueStrand_refused ht hp hm ha),
      fun n s1 ha hn => congrArg _ (State.enqueueStrand_accepted ht hp hm ha hn)⟩
  case placer =>
    intro s h tiles hs src fh dev sup t p
    refine ⟨State.acceptLaunch_badCount, fun b hb => ?_⟩
    obtain rfl : b = src.mayTile fh dev := Bool.eq_iff_iff.mpr (hb.trans (src.mayTile_iff fh dev).symm)
    refine ⟨State.acceptLaunch_badHeader, fun hr ht hn => ?plain, fun hr ht => ?tiled, h.badTile_eq_none_iff tiles 0⟩
    case plain =>
      have htot := Header.toLaunch_total_plain ht tiles hs src fh dev sup t
      have hn' := htot ▸ hn
      refine ⟨fun hd hf => State.acceptLaunch_full hr ht hn' hd hf, fun hf => ?_⟩
      exact ⟨_, htot ▸ State.acceptLaunch_taken hr (fun h1 => by simp [ht] at h1) hf, State.queue_takeLaunch_self s t p hn',
        ⟨_, State.get?_takeLaunch _ _ _ _, rfl, htot, rfl⟩, fun t' p' => State.queue_takeLaunch_other s hn'⟩
    case tiled =>
      have htot := Header.toLaunch_total_tiled ht tiles hs src fh dev sup t
      exact ⟨fun j => State.acceptLaunch_badTile hr ht, fun hb hf => ⟨_, htot ▸ State.acceptLaunch_taken hr (fun _ => hb) hf,
        _, State.get?_takeLaunch _ _ _ _, rfl, rfl, htot, rfl⟩⟩
  case ring =>
    intro s hua
    rw [exec_launchEnqueue_ring hua]
    refine ⟨fun hd => congrArg _ (State.enqueueRing_noDesc hd), fun d hd he => congrArg _ (State.enqueueRing_empty hd he),
      fun d r h0 h s1 s2 hd hv hr hc hh0 hh hs1 hs2 => ?_, fun h i x hx ctl hctl => ?_⟩
    · rw [State.enqueueRing_header hd hv hr hc hh0 hh hs1 hs2]
      exact ⟨fun n s3 ha => by rw [ha, State.afterRing], fun st i ha => by rw [ha, State.afterRing]⟩
    · subst hctl
      exact State.hlist_entry hx rfl
  case waiting =>
    intro s hua
    rw [exec_launchEnqueue_waiting hua]
    refine ⟨fun hw => congrArg _ (State.enqueueWaiting_none hw), fun w s1 n hw hsrc hold ha => ?_⟩
    rw [State.enqueueWaiting_accepted hw hsrc hold ha]
    have hwait : s1.waitHdrs = s.waitHdrs := by
      obtain ⟨q, hq⟩ := s.takeLaunch_frame _ _ _
      rw [State.eq_takeLaunch_of_acceptLaunch ha, hq]
    obtain ⟨l, hl⟩ := State.modLaunch_frame { s1 with waitHdrs := s1.waitHdrs.eraseIdx s.ub } s.serial fun x =>
      { x with src := .host }
    exact ⟨_, rfl, by rw [hl, ← hwait], by rw [hl], by rw [hl]⟩

/-- R236 to R238: a request reaches its chain, and its status the strand. -/
theorem chainReplies : Sys2Proof.Claims.ChainReplies := by
  intro s t ht
  refine ⟨?request, ?result⟩
  case request =>
    intro sn at_ k patch dest rest hub hp hm
    refine ⟨exec_chainReply_noChain ht hub hp hm, ?_⟩
    rintro a _ hc rfl
    have hst := s.chainRequest_status a t.tenant.toNat k.toNat (some patch)
    rcases hr : s.chainRequest a t.tenant.toNat k.toNat (some patch) with ⟨st, s1⟩
    rw [hr] at hst
    refine ⟨_, exec_chainReply_chain ht hub hp hm hc hr, ?_⟩
    rw [State.strand?_setStrand_self, ← hst, Strand.answered]
  case result =>
    intro r d v hub hr hk hd hd0 he hw
    have harr := arriveResult_gpr (s := { s with ub := s.ub / 2 }) ht hr hd he hw
    rw [hk] at harr
    exact ⟨_, t.received (s.ub / 2) r d v, (exec_chainReply_result hub).trans harr, State.strand?_setStrand_self _ _ _,
      t.g_received_self _ r v hd0, t.pend_received _ r d v, t.rets_received _ r d v, fun q hq => t.g_received_other _ r v hq⟩

/-- Settles O35: the placer's outcomes are those of `State.acceptLaunch_eq`, and a chain's replies those of
`State.chainRequest_status`. -/
theorem launchesArrive : Obligations.LaunchesArrive := ⟨launchReachesPlacer, chainReplies⟩

end Sys2Proof.Machine

/-! SUPPORT. Vector forms, `ldv`, `stv` and `ksend` at issue (R92, R95, R106, R111, R119): what each does once it issues, and from
this that it takes its place of the sequencer, or raises the trap of its check. -/

namespace Sys2Proof.Machine

/-- An instruction whose meaning is `issue` with `f` runs as `f` says. -/
theorem runs_of_exec_issue {i : Instr} {p : State → State → Strand → (GReg → Word) → Prop}
    {f r : State → State → Strand → (GReg → Word) → State} (hi : ∀ s, exec i s = issue i s (f s))
    (hr : ∀ s s1 t v, p s s1 t v → f s s1 t v = r s s1 t v) : i.runs p r := by
  intro s s1 t got h hp
  rw [hi, issue_of_issued h, hr _ _ _ _ hp]

/-- An entry goes behind those that are there (R92). -/
theorem State.seqPush_eq (s : State) (t : Strand) (e : SeqEntry) :
    s.seqPush t e = s.setStrand s.cur { t with pc := t.pc + 4, seq := t.seq ++ [.one e] } := rfl

/-! ### Forms on v registers, and those that capture a scalar or answer one (R92, R95, R106) -/

theorem exec_vregForm {i : Instr} (h : vregForm i = true) (s : State) : exec i s = vecIssue i s := by
  cases i with
  | vadd | vsub | vmul | vfma | vmin | vmax | vabs | vneg | vand | vor | vxor | vshl | vshr | vcmpeq | vcmplt | vcmple | vsel
  | vdot | vaddsat | vsubsat | vmulh | vcvt | vrcp | vrsqrt | vsqrt | vdiv | vexp2 | vlog2 | vtanh | vsigm | vshuf | vzip
  | vunzip | vredsum | vredmax | vredmin | vsort | vmerge | vsrch | vcompress | vexpand | vpopc | vfirst => rfl
  | _ => cases h

theorem exec_vbcast (d : VReg) (g : SReg) (y : Ty) (s : State) : exec (.vbcast d g y) s = issue (.vbcast d g y) s fun s1 t v =>
    s1.seqPush t { instr := .vbcast d g y, pc := t.pc, scal := v (g.setWidth 5) } := rfl

theorem exec_vins (d : VReg) (g : SReg) (l : BitVec 4) (y : Ty) (s : State) :
    exec (.vins d g l y) s = issue (.vins d g l y) s fun s1 t v =>
      s1.seqPush t { instr := .vins d g l y, pc := t.pc, scal := v (g.setWidth 5) } := rfl

theorem exec_vext (g : SReg) (a : VReg) (l : BitVec 4) (y : Ty) (s : State) :
    exec (.vext g a l y) s = issue (.vext g a l y) s fun s1 t _ =>
      let x := s1.lateDest t (g.setWidth 5)
      x.1.seqPush x.2.1 { instr := .vext g a l y, pc := x.2.1.pc, dest := x.2.2 } := rfl

/-- R92, R95, R106: each vector form takes its place behind the entries that are there. -/
theorem vectorIssue : Sys2Proof.Claims.VectorIssue := by
  refine ⟨?registers, ?scalar, ?lane⟩
  case registers => exact fun i hi => runs_of_exec_issue (exec_vregForm hi) fun _ s1 t _ _ => s1.seqPush_eq t _
  case scalar =>
    rintro _ g (⟨d, y, rfl⟩ | ⟨d, l, y, rfl⟩)
    · exact runs_of_exec_issue (exec_vbcast d g y) fun _ s1 t _ _ => s1.seqPush_eq t _
    · exact runs_of_exec_issue (exec_vins d g l y) fun _ s1 t _ _ => s1.seqPush_eq t _
  case lane => exact fun g a l y => runs_of_exec_issue (exec_vext g a l y) fun _ _ _ _ _ => State.seqPush_eq _ _ _

/-! ### Accesses, checked at issue (R111, R119) -/

/-- The offset that the model adds up in 64 bits is the spec's integer, wrapped (R119). -/
theorem mOffset_eq_accessOffset (x : Word) (o : BitVec 9) (n : Nat) : mOffset x o n = accessOffset x o n := by
  rw [mOffset, accessOffset, wrap64, BitVec.ofInt_add, BitVec.ofInt_mul, BitVec.ofInt_toInt, BitVec.ofInt_natCast]
  rfl

/-- The state in which an access has been issued on `s`, with its pops made in `s1`: it traps on what its check found, or counts
on class `c` and takes a place of the sequencer as `e`. -/
def State.checkedPush (s s1 : State) (t : Strand) (found : Option (Cause × Word)) (c : Ctr) (e : SeqEntry) : State :=
  match found with
  | some (cause, w) => s.trap s.cur t cause w
  | none => s1.fresh.2.seqPush (t.countOn s1.serial [c]) { e with sn := s1.serial }

theorem State.checkedPush_trap (s s1 : State) (t : Strand) (cause : Cause) (w : Word) (c : Ctr) (e : SeqEntry) :
    s.checkedPush s1 t (some (cause, w)) c e = s.trap s.cur t cause w := rfl

theorem State.checkedPush_pass (s s1 : State) (t : Strand) (c : Ctr) (e : SeqEntry) :
    s.checkedPush s1 t none c e = s1.fresh.2.setStrand s1.cur { t.countOn s1.serial [c] with
      pc := t.pc + 4, seq := t.seq ++ [.one { e with sn := s1.serial }] } := rfl

theorem exec_ldv (d : VReg) (h : HReg) (x : GReg) (k : BitVec 2) (o : BitVec 9) (s : State) :
    exec (.ldv d h x k o) s = issue (.ldv d h x k o) s fun s1 t v =>
      s.checkedPush s1 t (accessCheck (t.regionAt h.toNat) h.toNat (accessOffset (v x) o 16) 16 rR .vec) .ld
        { instr := .ldv d h x k o, pc := t.pc, region := t.regionAt h.toNat, off := accessOffset (v x) o 16 } := by
  simp only [← mOffset_eq_accessOffset]
  rfl

theorem exec_stv (d : VReg) (h : HReg) (x : GReg) (k : BitVec 2) (o : BitVec 9) (s : State) :
    exec (.stv d h x k o) s = issue (.stv d h x k o) s fun s1 t v =>
      s.checkedPush s1 t (accessCheck (t.regionAt h.toNat) h.toNat (accessOffset (v x) o 16) 16 rW .vec) .st
        { instr := .stv d h x k o, pc := t.pc, region := t.regionAt h.toNat, off := accessOffset (v x) o 16 } := by
  simp only [← mOffset_eq_accessOffset]
  rfl

theorem exec_ksend (a b : VReg) (y : Ty) (s : State) : exec (.ksend a b y) s = issue (.ksend a b y) s fun s1 t _ =>
    s.checkedPush s1 t (ksendCheck s1 t) .st { instr := .ksend a b y, pc := t.pc } := rfl

/-- An access that issues with a check that finds nothing counts on its class and takes its place (R92, R113). -/
theorem runs_checkedPush_pass {i : Instr} {found : State → Strand → (GReg → Word) → Option (Cause × Word)} {c : Ctr}
    {e : Strand → (GReg → Word) → SeqEntry}
    (hi : ∀ s, exec i s = issue i s fun s1 t v => s.checkedPush s1 t (found s1 t v) c (e t v)) :
    i.runs (fun _ s1 t v => found s1 t v = none) fun _ s1 t v => s1.fresh.2.setStrand s1.cur { t.countOn s1.serial [c] with
      pc := t.pc + 4, seq := t.seq ++ [.one { e t v with sn := s1.serial }] } :=
  runs_of_exec_issue hi fun s s1 t v hf => by rw [hf, State.checkedPush_pass]

/-- An access that issues with a check that finds a cause traps on it (R72). -/
theorem runs_checkedPush_trap {i : Instr} {found : State → Strand → (GReg → Word) → Option (Cause × Word)} {c : Ctr}
    {e : Strand → (GReg → Word) → SeqEntry}
    (hi : ∀ s, exec i s = issue i s fun s1 t v => s.checkedPush s1 t (found s1 t v) c (e t v)) (cause : Cause) (w : Word) :
    i.runs (fun _ s1 t v => found s1 t v = some (cause, w)) fun s _ t _ => s.trap s.cur t cause w :=
  runs_of_exec_issue hi fun s s1 t v hf => by rw [hf, State.checkedPush_trap]

/-- The check of `ksend` passes when key bins are enabled and lie in the group's bank run (R110, R111). -/
theorem ksendCheck_eq_none_iff (s : State) (t : Strand) : ksendCheck s t = none ↔
    t.kbins.getLsbD 63 = true ∧ bits t.kbins 32 15 ≠ 0 ∧
      0x8000 * (s.group t.group).bank0 ≤ 8 * bits t.kbins 3 15 ∧
      8 * (bits t.kbins 3 15 + bits t.kbins 32 15) ≤ 0x8000 * ((s.group t.group).bank0 + (s.group t.group).nbank) := by
  simp only [ksendCheck, kBase, kNbin, ite_eq_right_iff, reduceCtorEq, imp_false, not_or, Bool.not_eq_false, gt_iff_lt, Nat.not_lt,
    Nat.mul_add, ne_eq]

/-- R92, R111, R119: each access takes its place once its check has passed, and else raises the trap of its check. -/
theorem sequencedAccessesIssue : Sys2Proof.Claims.SequencedAccessesIssue :=
  ⟨fun d h x k o => runs_checkedPush_pass (exec_ldv d h x k o), fun d h x k o => runs_checkedPush_pass (exec_stv d h x k o),
    fun a b y => runs_checkedPush_pass (exec_ksend a b y), fun d h x k o => runs_checkedPush_trap (exec_ldv d h x k o),
    fun d h x k o => runs_checkedPush_trap (exec_stv d h x k o), fun a b y => runs_checkedPush_trap (exec_ksend a b y),
    ksendCheck_eq_none_iff⟩

/-- Settles O18: a vector form's issue is a `State.seqPush`, and that of an access a `State.checkedPush`. -/
theorem vectorForms : Obligations.VectorForms := ⟨vectorIssue, sequencedAccessesIssue⟩

end Sys2Proof.Machine
